-- ==== Sys2Proof/Word.lean ====
section
/-! DEFINITION. The word types the manual names: host-port words, internal 32-bit words, bytes,
40-bit internal addresses (R166), MAC and IP addresses and 64-bit UIDs (R6). -/

namespace Sys2Proof

abbrev Byte := BitVec 8
/-- A host-port word, a command argument, a result word or an event word (R6). -/
abbrev Word := BitVec 16
/-- A word of the internal address space or of a voice-core F register. -/
abbrev W32 := BitVec 32
/-- A 40-bit internal byte address (R166). -/
abbrev Addr := BitVec 40
abbrev Mac := BitVec 48
/-- Sixteen address bytes, first byte in the most significant place; an IPv4 address uses the first four. -/
abbrev Ip := BitVec 128
abbrev Uid := BitVec 64
/-- A channel number of Table 07-3. -/
abbrev ChanNo := BitVec 13
/-- A queue number of R231. -/
abbrev QueueNo := BitVec 15
/-- A voice-core number, VC0-VC127. -/
abbrev CoreNo := BitVec 7
/-- A highway number. -/
abbrev HwyNo := BitVec 5
/-- A port number: Ethernet A-D, or Ismorlink UP, DN0-DN2. -/
abbrev PortNo := BitVec 2

end Sys2Proof
end

