-- ==== Sys2Proof/Syntax.lean ====
section
/-! DEFINITION. The commands and events of spec/opcode_table.json, one constructor per row, with the
operands that the row's rule gives it, and the types those operands have. -/

namespace Sys2Proof

/-- Who makes a request at a scheduler, producer or consumer port (R229, R231). -/
inductive Master where
  | host
  | firmware
  | core (n : CoreNo)
  | switch
  | crypto
deriving DecidableEq, Repr

/-- An executor of the frame scheduler: a voice core or a tensor engine. -/
inductive Executor where
  | vc (n : CoreNo)
  | te (e : BitVec 1)
deriving DecidableEq, Repr

/-- A power input (Table 02-2). -/
inductive PowerIn where
  | ac
  | dc
  | poe
deriving DecidableEq, Repr

/-- A pin of J1 that the module can drive (Table 03-3). -/
inductive J1Pin where
  | d (n : BitVec 4)
  | rdy
  | int
  | tdmClk (n : HwyNo)
  | tdmFs (n : HwyNo)
  | tdmD (n : HwyNo)
  | uTx (n : BitVec 3)
  | uDe (n : BitVec 3)
  | uCk (n : BitVec 3)
  | fc (n : BitVec 3)
  | gpio (n : BitVec 4)
  | ppsOut
  | refout
  | pwrfail
  | fault
  | present
  | tdo
deriving DecidableEq, Repr

/-- What happens at the test access port (R96, R97): an instruction takes effect (Update-IR), the boundary register takes
new values (Update-DR), each cell driving a level or releasing its pin, TCK edges with their levels of TMS, or TRST# low. -/
inductive JtagOp where
  | extest
  | intest
  | clamp
  | other
  | boundary (l : List (J1Pin × Option Bool))
  | clocks (tms : List Bool)
  | trst
deriving DecidableEq, Repr

/-- A monitored clock of Table 04-3. -/
inductive ClockDomain where
  | tcxo | vigilOscillator
  | corePll | systemPll | timePll
  | lockstepPair | vigilChecker | scheduler | cellMemory | dramChannel | fabricQuadrant
  | voiceCore (n : CoreNo)
  | tensorEngine (e : BitVec 1)
  | ethernetPll
  | refin
  | tdmClk (n : HwyNo)
  | ethReceive (p : PortNo)
  | ismReceive (p : PortNo)
  | uart | deflate | crypto | hostPort
deriving DecidableEq, Repr

/-- Where a memory error lies, as R476 divides the memories. -/
inductive EccPlace where
  | cell (i : BitVec 17)
  | coreData (n : CoreNo)
  | coreVendorPm (n : CoreNo)
  | tensorLocal (e : BitVec 1)
  | dramChannel (c : ChanNo)
  | dramControl
  | control
  | linkRam
deriving DecidableEq, Repr

/-- A difference between the two copies of a duplicated table (Table 18-3). -/
inductive TableDiff where
  | benign
  | oneBad
  | conflict
deriving DecidableEq, Repr

/-- A duplicated table, by its code in BENIGN_MISMATCH (Table 18-3). -/
inductive DupTable where
  | routing
  | seeds
  | safetyCfg
deriving DecidableEq, Repr

/-- The issue of one operation: the core, and whether it is the last operation of its instruction word (R261). -/
structure Iss where
  core : CoreNo
  last : Bool
deriving DecidableEq, Repr

/-- An addressing mode of Table 10-6. -/
inductive AddrMode where
  | indirect (p : BitVec 4)
  | offset (p : BitVec 4) (m : BitVec 8)
  | postImm (p : BitVec 4) (m : BitVec 8)
  | postReg (p k : BitVec 4)
deriving DecidableEq, Repr

/-- The destination of a load (Table 10-4, X and Y slots). -/
inductive LoadDst where
  | f (n : BitVec 6)
  | f16 (n : BitVec 6)
  | p (n : BitVec 4)
  | b (n : BitVec 4)
  | l (n : BitVec 4)
deriving DecidableEq, Repr

/-- The source of a store. -/
inductive StoreSrc where
  | f (n : BitVec 6)
  | p (n : BitVec 4)
  | b (n : BitVec 4)
  | l (n : BitVec 4)
deriving DecidableEq, Repr

/-- A branch condition: an FSTAT flag with the value it must have, or Pn = 0. -/
inductive Cond where
  | lt (v : Bool)
  | eq (v : Bool)
  | un (v : Bool)
  | pZero (n : BitVec 4)
deriving DecidableEq, Repr

/-- The count of LOOP: a Pn or an immediate (R275). -/
inductive LoopCount where
  | reg (n : BitVec 4)
  | imm (v : Word)
deriving DecidableEq, Repr

/-- A control register that MOVC reads and writes (Table 10-3). -/
inductive CtlReg where
  | lc | ls | le | lstat | fstat | acscr | stmin | tb | mode | ie | ipend | ipc | imode | iie | dmast
deriving DecidableEq, Repr

/-- An integer operation of the A slot (Table 10-4). -/
inductive IntFn where
  | add | sub | and | or | xor | shl | shr | sar
deriving DecidableEq, Repr

/-- The second operand of an A-slot operation. -/
inductive IntSrc (w : Nat) where
  | reg (n : BitVec w)
  | imm (v : Word)
deriving DecidableEq, Repr

/-- The A-slot operations on F as 32-bit values, and the arithmetic on P, B, L and E. -/
inductive IntOp where
  | onF (fn : IntFn) (d a : BitVec 6) (b : IntSrc 6)
  | onP (fn : IntFn) (d a : BitVec 4) (b : IntSrc 4)
  | onB (fn : IntFn) (d a : BitVec 4) (b : IntSrc 4)
  | onL (fn : IntFn) (d a : BitVec 4) (b : IntSrc 4)
  | onE (fn : IntFn) (d a : BitVec 2) (b : IntSrc 2)
deriving DecidableEq, Repr

/-- The conversions of R272. -/
inductive Fcvt where
  | i16ToF32
  | f32ToI16
  | f32ToF16
  | f16ToF32
deriving DecidableEq, Repr

/-- What a vendor task measures of one direction's signal in its frame: two tones (tenths of Hz, 0 for none; tenths of
dBm0), how many ms of the frame they stand, a phase reversal, 15 Hz amplitude modulation, consecutive V.21 flags up to the
end of the frame on each channel, and the level of the whole signal in tenths of dBm0. -/
structure Heard where
  f1 : Nat
  f2 : Nat
  l1 : Int
  l2 : Int
  ms : Nat
  reversal : Bool
  am : Bool
  flags1 : Nat
  flags2 : Nat
  level : Int
deriving DecidableEq, Repr

/-- What a vendor task measures, given with its END: the manual gives the rules that judge it (chapter 12) and not the
signal processing that finds it. -/
structure TaskFinding where
  near : Heard                -- the signal from the line
  far : Heard                 -- the signal to the line
  erl : Int                   -- echo return loss, tenths of dB
  beyondTail : Bool           -- residual echo correlates with the reference beyond the tail
  residual : Int              -- estimated residual echo, tenths of dBm0
  nearEnd : Int               -- near-end signal, tenths of dBm0
  bothActive : Bool
  background : Int            -- background level of the task's direction, tenths of dBm0
  inactive : Bool             -- Annex B finds no voice in the codec frame
  sidDue : Bool               -- Annex B has a SID frame sent
  ifp : List (BitVec 8)       -- the IFP packet that FAX_UP forms, or none
  faxSignal : Bool            -- V.21 flags or fax carrier on the line
  dcn : Bool                  -- a DCN in the task's direction
  badInput : Bool             -- the input frame's CRC-32C is bad (R466)
deriving DecidableEq, Repr

/-- Nothing heard. -/
def Heard.none : Heard := ⟨0, 0, 0, 0, 0, false, false, 0, 0, -900⟩

/-- The finding of a task that measures nothing. -/
def TaskFinding.none : TaskFinding :=
  ⟨Heard.none, Heard.none, 300, false, -900, -900, false, -900, false, false, [], false, false, false⟩

/-- A job descriptor of Table 11-9, as its eight 32-bit words. -/
structure JobDesc where
  w0 : W32
  w1 : W32
  w2 : W32
  inAddr : W32
  wAddr : W32
  outAddr : W32
  eAddr : W32
  auxAddr : W32
deriving DecidableEq, Repr

/-- The outcome of power-on BIST, element by element (Table 19-6). -/
structure BistResult where
  safetyFail : Bool
  dramFail : Bool
  badCells : List (BitVec 17)
  badCores : List CoreNo
  badEngines : List (BitVec 1)
deriving DecidableEq, Repr

/-- The work that a CAL_DONE row completes (R198). -/
inductive WorkId where
  | cal
  | restore
  | selftest (t : BitVec 3)
  | proof
deriving DecidableEq, Repr

/-- What ends a highway's alignment (R86). -/
inductive AlignCause where
  | clkLost
  | fsBad
deriving DecidableEq, Repr

/-- A write cycle of the host port: the word on D[15:0], and whether RD# is low with WR# (R151). -/
structure WriteCycle where
  value : Word
  rdLow : Bool
deriving DecidableEq, Repr

/-- What a transceiver's two-wire addresses give: 0xA0 can be read, and diagnostics stand at 0xA2 (R95). -/
structure SfpMemory where
  readable : Bool
  diagnostics : Bool
deriving DecidableEq, Repr

/-- A frame of a highway as the module receives it: whether TDM_FSn came where it is expected, by how many bit periods the
highway has run ahead of the module's grid since the last frame, and the octets of its timeslots (R86, R366, R370). -/
structure HwyFrame where
  fsOk : Bool
  drift : Int
  octets : List Byte
deriving DecidableEq, Repr

/-- A time pair of R456: time counter and phase counter of one instant. A PTP time is the pair of its low
32 bits in whole nanoseconds and its nanoseconds field (R377). -/
structure TimePair where
  time : W32
  phase : BitVec 30
deriving DecidableEq, Repr

/-- A PTP message (Table 14-3): its sequence number and the times it carries. -/
inductive PtpMsg where
  | sync (seq : Word) (twoStep : Bool) (origin : TimePair)
  | followUp (seq : Word) (origin : TimePair)
  | delayReq (seq : Word) (requester : BitVec 80)
  | delayResp (seq : Word) (receipt : TimePair)
  | announce (clockClass : Byte)
deriving DecidableEq, Repr

/-- What a PTP port sends on its own (R391). -/
inductive PtpSend where
  | sync
  | announce
  | delayReq
deriving DecidableEq, Repr

/-- Module roles as LINK frames carry them. -/
inductive Role where
  | summit
  | spur
deriving DecidableEq, Repr

/-- Header of a received Ismorlink frame (Table 17-3), with the port of arrival and whether its CRC is good. -/
structure IsmHdr where
  port : PortNo
  crcOk : Bool
  hops : BitVec 7
  dest : Word
  src : Word
  noaddr : Bool
  lseq : Word
  ctx : Word
deriving DecidableEq, Repr

/-- The identification that a LINK frame carries (R433). -/
structure LinkInfo where
  uid : Uid
  role : Role
  isUp : Bool
  lpv : Word
  features : Word
  addr : Option Word
deriving DecidableEq, Repr

/-- The payload of a search reply (Table 17-5). -/
structure SearchAnswer where
  qid : Word
  claim : Bool
  mask : Word
  uid : Uid
  parentUid : Uid
  parentPort : PortNo
  depth : Byte
  lpv : Word
deriving DecidableEq, Repr

/-- The counts that a broadcast reply carries (R192, R461). -/
structure BcastCounts where
  addressed : Nat
  ok : Nat
  other : Nat
deriving DecidableEq, Repr

/-- Frame payloads by type (Table 17-4). -/
inductive IsmBody where
  | link (i : LinkInfo)
  | heartbeat (seq : Word) (state : BitVec 4) (summitOk safe test : Bool)
  | sync (t1 : TimePair)
  | delayReq (t3 : TimePair)
  | delayResp (t4 : TimePair)
  | searchBegin (full : Bool)
  | query (qid : Word) (len : BitVec 6) (bits : Uid)
  | claim (qid : Word) (uid : Uid)
  | mark (uid : Uid)
  | searchEnd
  | searchReply (a : SearchAnswer)
  | address (uid : Uid) (addr : Word) (hold release : Bool)
  | mgmtReq (op tag : Word) (args : List Word)
  | mgmtRsp (status tag : Word) (words : List Word)
  | event (record : List Word)
  | attach (port : PortNo)
  | loss (port : PortNo) (addr : Option Word) (uid : Uid)
  | move (port : PortNo) (uid : Uid) (addr : Option Word)
  | hbLoss (addr : Word)
  | missed (uid : Uid)
  | addrAck (addr : Word) (uid : Uid)
  | conflict (uid parentUid : Uid) (parent : Option Word) (port : PortNo)
  | ping (seq : Word)
  | pingReply (seq : Word) (imageStatus : Word)
  | bcast (op tag : Word) (args : List Word) (deadline : W32)
  | bcastReply (c : BcastCounts)
deriving DecidableEq, Repr

/-- A frame as a module sends it on one port. -/
structure IsmFrame where
  dest : Word
  src : Word
  noaddr : Bool
  hops : BitVec 7
  lseq : Word
  ctx : Word
  body : IsmBody
deriving DecidableEq, Repr

/-- The commands and events of the part, one constructor per row of the table of operations. -/
inductive Instr where
  -- host commands (Table 07-4): the whole issue of R160, with its tag and argument words
  | identify (tag : Word) (args : List Word)
  | getStatus (tag : Word) (args : List Word)
  | setState (tag : Word) (args : List Word)
  | resetCmd (tag : Word) (args : List Word)
  | getVersions (tag : Word) (args : List Word)
  | imgBegin (tag : Word) (args : List Word)
  | imgData (tag : Word) (args : List Word)
  | imgCommit (tag : Word) (args : List Word)
  | imgSelect (tag : Word) (args : List Word)
  | chCreate (tag : Word) (args : List Word)
  | chModify (tag : Word) (args : List Word)
  | chDelete (tag : Word) (args : List Word)
  | chQuery (tag : Word) (args : List Word)
  | chStats (tag : Word) (args : List Word)
  | chKeys (tag : Word) (args : List Word)
  | portCfg (tag : Word) (args : List Word)
  | vlanCfg (tag : Word) (args : List Word)
  | classCfg (tag : Word) (args : List Word)
  | hwyCfg (tag : Word) (args : List Word)
  | slotMap (tag : Word) (args : List Word)
  | ptpCfg (tag : Word) (args : List Word)
  | servoCfg (tag : Word) (args : List Word)
  | probeCfg (tag : Word) (args : List Word)
  | probeRead (tag : Word) (args : List Word)
  | search (tag : Word) (args : List Word)
  | assign (tag : Word) (args : List Word)
  | forward (tag : Word) (args : List Word)
  | topoRead (tag : Word) (args : List Word)
  | safeCfg (tag : Word) (args : List Word)
  | safeQuery (tag : Word) (args : List Word)
  | proofTest (tag : Word) (args : List Word)
  | calRun (tag : Word) (args : List Word)
  | calRestoreFactory (tag : Word) (args : List Word)
  | calRead (tag : Word) (args : List Word)
  | selftest (tag : Word) (args : List Word)
  | fiArm (tag : Word) (args : List Word)
  | fiDisarm (tag : Word) (args : List Word)
  | fiRead (tag : Word) (args : List Word)
  | uartCfg (tag : Word) (args : List Word)
  | taskLoad (tag : Word) (args : List Word)
  | modelLoad (tag : Word) (args : List Word)
  | unknownOpcode (op tag : Word) (args : List Word)
  | calDone (w : WorkId) (value : W32) (fails : List Nat)
  -- boot milestones and completions
  | commandComplete (lane : BitVec 2)
  | frameTransmitDone (p : PortNo)
  | highwayFrame (n : HwyNo) (f : HwyFrame)
  | transceiverInserted (p : PortNo) (powerLevel1 : Bool) (memory : SfpMemory)
  | collision (n : BitVec 3)
  -- host-port accesses
  | registerWrite (slot : BitVec 6) (w : WriteCycle)
  | readClear (a : Addr)
  | hkey (v : Word)
  | cmdFifo (w : Word)
  | apertureWrite (d1 : Word)
  | srcPref (v : BitVec 3)
  | hwdogSet (period : BitVec 12)
  -- the frame scheduler
  | create (m : Master) (flow : Word) (cls : Byte) (req opt : BitVec 4) (seq : Word) (arg0 arg1 : W32)
  | token (m : Master) (handle : W32) (slot : BitVec 2)
  | almanac (m : Master) (list : BitVec 2) (handle : W32) (slot : BitVec 2) (delay period : BitVec 20)
  | setLevel (m : Master) (flow : Word) (level : BitVec 3)
  | reserve (m : Master) (flow : Word) (lu : BitVec 18)
  | cancel (m : Master) (flow : Word)
  | spillHiWrite (v : W32)
  | almanacListWrite (list : BitVec 2) (v : W32)
  | almanacFire (list : BitVec 2)
  | frameTick (c : ChanNo)
  | graphRetry (c : ChanNo)
  | dispatch (x : Executor)
  | budgetExceeded (x : Executor)
  | pointProcedure
  | pointChange (n : CoreNo)
  | coreBistStart (n : CoreNo)
  | coreBistDone (n : CoreNo) (pass : Bool)
  -- cell memory and queues
  | openPkt (m : Master) (q : QueueNo)
  | producerData (m : Master) (w : W32)
  | closePkt (m : Master) (valid : BitVec 3) (bad : Bool)
  | selectQ (m : Master) (q : QueueNo) (deselect : Bool)
  | consumerData (m : Master)
  | releasePkt (m : Master)
  | qflush (q : QueueNo)
  | cellReturn
  | descriptorEnable (q : QueueNo)
  | watermarkWrite (q : QueueNo) (low : Bool) (v : W32)
  | stale (m : Master)
  -- voice-core operations
  | branch (i : Iss) (c : Cond) (target : BitVec 12)
  | dbnz (i : Iss) (p : BitVec 4) (target : BitVec 12)
  | call (i : Iss) (target : BitVec 12)
  | ret (i : Iss)
  | loopOp (i : Iss) (count : LoopCount) (last : BitVec 12) (rot tb : Bool)
  | modeOp (i : Iss) (threeBus : Bool)
  | endTask (i : Iss) (r : TaskFinding)
  | swi (i : Iss)
  | rti (i : Iss)
  | dma (i : Iss) (k : BitVec 2) (toLocal : Bool) (e : BitVec 2) (p : BitVec 4) (inY : Bool) (count : BitVec 4) (irq : Bool)
  | waitd (i : Iss) (mask : BitVec 4)
  | xld (i : Iss) (fd : BitVec 6) (e : BitVec 2) (off : BitVec 12)
  | xst (i : Iss) (fs : BitVec 6) (e : BitVec 2) (off : BitVec 12)
  | timeOp (i : Iss) (fd : BitVec 6)
  | pld (i : Iss) (fd : BitVec 6) (m : AddrMode)
  | fmac (i : Iss) (d a b c : BitVec 6)
  | fmsub (i : Iss) (d a b c : BitVec 6)
  | fmul (i : Iss) (d a b : BitVec 6)
  | fadd (i : Iss) (d a b : BitVec 6)
  | fsub (i : Iss) (d a b : BitVec 6)
  | fmin (i : Iss) (d a b : BitVec 6)
  | fmax (i : Iss) (d a b : BitVec 6)
  | fabs (i : Iss) (d a : BitVec 6)
  | fneg (i : Iss) (d a : BitVec 6)
  | fcvt (i : Iss) (k : Fcvt) (d a : BitVec 6)
  | fmovi (i : Iss) (d : BitVec 6) (v : W32)
  | integerOp (i : Iss) (o : IntOp)
  | movc (i : Iss) (write : Bool) (r : CtlReg) (f : BitVec 6)
  | fcmp (i : Iss) (a b : BitVec 6)
  | acs4 (i : Iss) (d s b : BitVec 6)
  | acsstg (i : Iss)
  | movtb (i : Iss) (d : BitVec 6)
  | loadOp (i : Iss) (inY : Bool) (d : LoadDst) (m : AddrMode)
  | storeOp (i : Iss) (inY : Bool) (r : StoreSrc) (m : AddrMode)
  | bwarn (n : CoreNo)
  | dmaDone (n : CoreNo) (k : BitVec 2)
  | interruptEntry (n : CoreNo)
  -- tensor jobs
  | gemm (e : BitVec 1) (d : JobDesc)
  | gemmAcc (e : BitVec 1) (d : JobDesc)
  | ewMul (e : BitVec 1) (d : JobDesc)
  | ewAdd (e : BitVec 1) (d : JobDesc)
  | act (e : BitVec 1) (d : JobDesc)
  | testVectors (e : BitVec 1) (pass : Bool)
  -- the call path
  | playout (c : ChanNo)
  | egressTransmit (c : ChanNo)
  | shedding
  -- power, reset, boot
  | sourceLost (l : List PowerIn)
  | inputReturn (p : PowerIn)
  | sourceValid (p : PowerIn) (cls : BitVec 4)
  | pwrfail
  | brownOut
  | powerGuard (milliwatts : List Nat)
  | tempSample (t : Word)
  | resetPin (lowNs : Nat)
  | resetEnd (straps : BitVec 2) (vioMv : Nat) (t : Word)
  | powerOnBist (r : BistResult)
  | bootDone
  | startTimer
  | vigilWdog
  | hwdogHalf
  | hostWdog
  | jtagInstruction (j : JtagOp)
  | unlockToken (slot : BitVec 2) (sig : BitVec 512)
  | vioOut
  | vioRestored
  | vioLatch (is33 : Bool)
  | clockLost (d : ClockDomain)
  | refinLost
  | refinAccepted
  -- highways, Ethernet, RTP
  | highwayAligned (n : HwyNo)
  | alignmentLoss (n : HwyNo) (cause : AlignCause)
  | highwayConfigApply (n : HwyNo)
  | slip (n : HwyNo) (transmit fast : Bool)
  | transceiverRemoved (p : PortNo) (overcurrent : Bool)
  | ethPortDown (p : PortNo) (noCommonMode : Bool)
  | ethPortUp (p : PortNo) (speed : BitVec 3)
  | frameReceive (p : PortNo) (frame : List Byte)
  | macAgeing (vid : BitVec 12) (mac : Mac)
  | neighbourRetry (p : PortNo) (ip : Ip)
  | neighbourRefresh (p : PortNo) (ip : Ip)
  | routerCommit (p : PortNo) (v : W32)
  | senderReport (c : ChanNo)
  | keysTimeout (c : ChanNo)
  | oldContextExpiry (c : ChanNo)
  -- time
  | ppsInEdge
  | holdoverEntry
  | ptpMessage (p : PortNo) (m : PtpMsg)
  | ptpTransmit (p : PortNo) (k : PtpSend)
  | timeHalf
  | probeEvent (code : Byte)
  | probeMark (v : W32)
  -- Ismorlink
  | link (h : IsmHdr) (i : LinkInfo) (acked : Bool)
  | linkDown (p : PortNo) (errors : Bool)
  | ack (p : PortNo) (lseq : Word)
  | ackTimeout (p : PortNo)
  | heartbeat (h : IsmHdr) (seq : Word) (state : BitVec 4) (summitOk safe test : Bool)
  | heartbeatSend
  | hbTimeout (addr : Word)
  | summitLost
  | syncSend
  | sync (h : IsmHdr) (t1 : TimePair)
  | delayReq (h : IsmHdr) (t3 : TimePair)
  | delayResp (h : IsmHdr) (t4 : TimePair)
  | searchBegin (h : IsmHdr) (full : Bool)
  | query (h : IsmHdr) (qid : Word) (len : BitVec 6) (bits : Uid)
  | claim (h : IsmHdr) (qid : Word) (uid : Uid)
  | mark (h : IsmHdr) (uid : Uid)
  | searchEnd (h : IsmHdr)
  | searchReply (h : IsmHdr) (a : SearchAnswer)
  | searchReplyTimeout (qid : Word)
  | address (h : IsmHdr) (uid : Uid) (addr : Word) (hold release : Bool)
  | mgmtReq (h : IsmHdr) (op tag : Word) (args : List Word)
  | mgmtRsp (h : IsmHdr) (status tag : Word) (words : List Word)
  | forwardTimeout
  | event (h : IsmHdr) (record : List Word)
  | attach (h : IsmHdr) (port : PortNo)
  | loss (h : IsmHdr) (port : PortNo) (addr : Option Word) (uid : Uid)
  | lossPing (addr : Word)
  | move (h : IsmHdr) (port : PortNo) (uid : Uid) (addr : Option Word)
  | hbLoss (h : IsmHdr) (addr : Word)
  | missed (h : IsmHdr) (uid : Uid)
  | addrAck (h : IsmHdr) (addr : Word) (uid : Uid)
  | conflict (h : IsmHdr) (uid parentUid : Uid) (parent : Option Word) (port : PortNo)
  | autoSearchStart
  | ping (h : IsmHdr) (seq : Word)
  | pingReply (h : IsmHdr) (seq imageStatus : Word)
  | pingTimeout (addr : Word)
  | bcast (h : IsmHdr) (op tag : Word) (args : List Word) (deadline : W32)
  | bcastReply (h : IsmHdr) (c : BcastCounts)
  | bcastDeadline
  -- functional safety
  | comparatorTest (flagged : Bool) (other : Bool)
  | checkerTest (pass : Bool)
  | scrub (t : DupTable) (d : Option TableDiff) (entry : BitVec 13)
  | lockstepMismatch
  | eccUncorrectable (p : EccPlace)
  | voltage
  | dieTemp (celsius : BitVec 9)
  -- calibration, test, injection, trace
  | quietPoint (item : Word)
  | marchRound (cells : BitVec 11) (bad : List (BitVec 17))
  | reorderTimeout (point : Word)
  | traceSegment
  -- DEFLATE
  | prod (v : BitVec 7)
  | abort
  | deflateJob
  -- serial ports
  | uartDataWrite (n : BitVec 3) (c : Byte)
  | uartDataRead (n : BitVec 3)
  | brk (n : BitVec 3) (on : Bool)
  | rst (n : BitVec 3) (level : Bool)
  | clken (n : BitVec 3) (on : Bool)
  | txflush (n : BitVec 3)
  | rxflush (n : BitVec 3)
  | characterReceived (n : BitVec 3) (bits : List Bool)
  | characterSent (n : BitVec 3) (errorSignal : Bool)
  | deTail (n : BitVec 3)
  -- host-port accesses and milestones without an operand
  | cmdClear
  | rspFifo
  | removeHeadResponse
  | evtFifo
  | apertureRead
  | time0Read
  | safeCtlClear
  | safeCtlEnter
  | switchBank
  | hwdogKick
  | kill
  | hostPortStart
  | bypassOpen
  | ppsOutEdge
  | eccCorrected
deriving DecidableEq, Repr

end Sys2Proof
end

