-- ==== Sys2Proof/Decode.lean ====
section
/-! DEFINITION. Decoding by the bits of the table of operations. No row of the table gives bits: the
commands and events of this block have no encoding, so no word spells one. -/

namespace Sys2Proof

/-- The command that a word spells by the table's bits: none, since no row has bits. -/
def decodeTableWord (_nbits _w : Nat) : Option Instr := none

end Sys2Proof
end

