-- ==== Sys2Proof/Config.lean ====
section
/-! DEFINITION. What the manual leaves open, as opaque constants: nothing can be proved of their values,
so a claim holds for every value. Each is named in a row of the assumption log. -/

namespace Sys2Proof.Config

/-- A fresh undefined bit, one per count of State.free. -/
opaque freeBit : Nat → Bool
/-- A fresh undefined or random 32-bit value (R78, R287, R359, R453, R465). -/
opaque free32 : Nat → BitVec 32
/-- A fresh random 64-bit value: the debug challenge (R142). -/
opaque free64 : Nat → BitVec 64
/-- Where the search for an unused number begins: a task ID, a store slot, an almanac entry or a cell.
The manual gives no order of choice (R201, R214, R545). -/
opaque pickIndex : Nat → Nat
/-- Rank of a free cell in the free list while a given list of cells is in use (R545). -/
opaque freeRank : List Nat → Nat → Nat
/-- Byte `i` of data that the manual leaves undefined, by draw. -/
opaque anyByte : Nat → Nat → BitVec 8
/-- Sample `i` of the decoding of a payload by codec 2-8: codec, draw, payload (R322 names the codecs only). -/
opaque decoded : Nat → Nat → List (BitVec 8) → Nat → BitVec 32
/-- Byte `i` of the encoding of samples by codec 2-8: codec, draw, samples (R322). -/
opaque coded : Nat → Nat → List (BitVec 32) → Nat → BitVec 8
/-- Sample `i` of a concealment frame by the codec's method (Table 12-2): codec, draw. -/
opaque concealed : Nat → Nat → Nat → BitVec 32
/-- Sample `i` of the fade from concealment to comfort noise: level, 5 ms step, draw (R326). -/
opaque faded : Int → Nat → Nat → Nat → BitVec 32
/-- Sample `i` of comfort noise at a level in tenths of dBm0: draw (R318, R325, R326). -/
opaque noise : Int → Nat → Nat → BitVec 32
/-- The background level of a channel for which none has been measured, in tenths of dBm0 (R326). -/
opaque background : Int
/-- Sample `i` of a codec's own comfort noise: codec, draw (R325). -/
opaque codecNoise : Nat → Nat → Nat → BitVec 32
/-- Sample `i` of the Q.24 pair of a digit at a volume, from a position of the event on in RTP clock units (R333). -/
opaque pairTone : Nat → Nat → Nat → Nat → BitVec 32
/-- Sample `i` of what the fax modem sends: the IFP packets it has, draw (R335). -/
opaque faxAudio : List (List (BitVec 8)) → Nat → Nat → BitVec 32
/-- Sample `i` of the canceller's output: name of the coefficients, tail in ms, line and reference (R316). -/
opaque cancelled : Nat → Nat → List (BitVec 32) → List (BitVec 32) → Nat → BitVec 32
/-- Payload of an Ismorlink frame of a type for which the manual gives no layout (R436). -/
opaque ismPayload : IsmBody → List (BitVec 8)
/-- What a payload of such a type says once an injection point has altered it (R518). -/
opaque ismMeaning : BitVec 4 → List (BitVec 8) → Option IsmBody
/-- ECDSA P-256 verification with the key of a slot; the keys are not in the manual (R125). -/
opaque sigValid : BitVec 2 → BitVec 256 → BitVec 512 → Bool
/-- Verification of a debug unlock token over UID and challenge (R142). -/
opaque tokenValid : BitVec 2 → BitVec 64 → BitVec 64 → BitVec 512 → Bool
/-- Draw `k` of unit `u` by the generator of an injection point, counted from its arming (R517, R518). -/
opaque fiDraw : BitVec 16 → Nat → Nat → BitVec 32
/-- What an engine gives for an activation function, 2 sigmoid, 3 tanh, 4 hard sigmoid: taken where it lies within
the bound of R311. -/
opaque activation : Nat → BitVec 32 → BitVec 32
/-- Slope of the hard sigmoid, a binary32 number (the manual gives no formula; R310). -/
opaque hardSlope : BitVec 32
/-- The output a compress job chooses: level, end mode, wrapper, first job, data so far, new data (R402). -/
opaque deflated : Nat → Nat → Nat → Bool → List (BitVec 8) → List (BitVec 8) → List (BitVec 8)
/-- What the host's pulls give on D[15:0] while the port is not live (R153). -/
opaque hostPulls : Nat → BitVec 16
/-- Program-memory offset of a vendor class (R547). -/
opaque vendorEntry : Nat → BitVec 16
/-- Channel-state bytes of vendor model 1-4, which the manual does not give (R305). -/
opaque vendorState : Nat → Nat

end Sys2Proof.Config
end

