-- ==== Sys2Proof/Machine/Parts.lean ====
section
/-! DEFINITION. The parts of the machine's state, block by block, as plain data. Each field names the
rule or table of the manual that gives it. Register files and tables of many like entries that are
mostly at their reset value are association lists: an entry not listed is at its reset value. -/

namespace Sys2Proof.Machine

/-- An association list: entries not listed have their default value. -/
abbrev AL (κ α : Type) := List (κ × α)

/-- Module states (Table 00-4). -/
inductive Mode where
  | reset | boot | recovery | ready | run | degraded | safe | held | standby
deriving DecidableEq, Repr

/-- The two variants (R2, Table 21-10). -/
inductive Variant where
  | fg8192 | fg4096
deriving DecidableEq, Repr

/-- Facts of the individual unit that no rule changes: variant, coating, revisions, UID, MAC
addresses and the factory record (Tables 06-3, 19-2, R125, R346, R498). -/
structure Hw where
  variant : Variant
  coatK : Bool
  sil : BitVec 5
  modRev : BitVec 5
  uid : Uid
  macs : List Mac
  factory : AL Word Int
  factoryOk : Bool
  revoked : BitVec 4
deriving DecidableEq, Repr

/-- Results of a bank check (Table 05-9). -/
inductive CheckRes where
  | notChecked | good | empty | format | signature | mask | rollback | hash
deriving DecidableEq, Repr

/-- One image bank of the flash: erased, or the bytes written since the erase (R135, R136). -/
structure Bank where
  erased : Bool
  bytes : List Byte
deriving DecidableEq, Repr

/-- An open image session (R135). -/
structure Session where
  bankB : Bool
  count : Nat
deriving DecidableEq, Repr

/-- What the module knows of the package that runs (Table 05-4). -/
structure PkgInfo where
  ver0 : Word
  ver1 : Word
  hpv : Word
  lpv : Word
  tav : Word
  mfv : Word
  svn : Word
deriving DecidableEq, Repr

/-- Reset, boot and images (chapter 05). -/
structure Boot where
  mode : Mode
  cause : BitVec 4
  active : Option Bool        -- bank running, none when no bank runs
  fallback : Bool
  reverted : Bool
  pref : Bool                 -- boot record: preferred bank, false = A
  trial : Bool
  starts : Nat
  resA : CheckRes
  resB : CheckRes
  bankA : Bank
  bankB : Bank
  rollback : Byte
  session : Option Session
  pendingSel : Option Bool    -- a mode-0 selection not yet in effect (R138)
  selWaits : Option (Option Bool) -- a selection whose programming waits for PWRFAIL# (R55)
  recordDue : Option (Bool × Bool) -- preferred bank and trial that the boot ROM waits to write (R134)
  raisePending : Option Byte  -- a rollback raise waiting for PWRFAIL# (R131)
  running : Option PkgInfo
  unqual : Bool
  debug : Bool
  challenge : BitVec 64            -- drawn at each exit from RESET (R142)
  startArmed : Bool
  bistDone : Bool
  limitsOn : Bool             -- PWR_LIMIT has been set since RESET (R68)
  wasReady : Bool             -- BOOT_DONE has come since RESET (R544)
  linkLayer : Bool            -- bypass open (R89)
  jtagHold : Bool             -- EXTEST, INTEST or CLAMP selected (R97)
  coldHold : Bool             -- held in RESET below -45 C (R62)
  resetSoon : Bool            -- a reset answered by a response is due within 10 ms (R138, Table 07-4)
deriving DecidableEq, Repr

/-- One power input. -/
structure PSource where
  inRange : Bool
  valid : Bool
deriving DecidableEq, Repr

/-- Power entry (chapter 02). -/
structure Power where
  ac : PSource
  dc : PSource
  poe : PSource
  poeClass : BitVec 4
  srcPref : BitVec 3
  activeAtLoss : Option PowerIn
  pwrfail : Bool
  guardSteps : Nat
  guardWindows : Nat
  guardShed : Bool            -- the shedding that follows a guard step is not complete (R52)
  srcCeil : Nat               -- the power-source ceiling in force, before guard steps (R50, R54)
  held : Option Nat           -- PWR_LIMIT held by a power-sense run (R508)
  powered : Bool
  collapse : Bool             -- brown-out: RESET entered, the internal supply about to collapse (R56, R80)
deriving DecidableEq, Repr

/-- Temperature and the thermal ceiling (R59-R62, R544). -/
structure Thermal where
  temp : Word                 -- TEMP
  raw : Word                  -- the latest sample before the sensor offset
  samples : List (Nat × Int)  -- corrected samples of the last second with their uptime, in 1/128 °C (R59)
  ceil : Nat
  sampled : Bool
deriving DecidableEq, Repr

/-- States of the TAP controller of IEEE 1149.1 (R96). -/
inductive TapState where
  | testLogicReset | runTestIdle
  | selectDr | captureDr | shiftDr | exit1Dr | pauseDr | exit2Dr | updateDr
  | selectIr | captureIr | shiftIr | exit1Ir | pauseIr | exit2Ir | updateIr
deriving DecidableEq, Repr

/-- J1 conditions, straps and the test access port (chapter 03). -/
structure Pins where
  straps : BitVec 2           -- ROLE1, ROLE0 as sampled (R83)
  vioClass33 : Option Bool    -- the latched VIO class (R75, R530)
  vioIn : Bool                -- VIO within the latched class's range
  proofStep6 : Bool           -- step 6 of PROOF_TEST (R63, R80)
  tap : TapState              -- the TAP controller (R96)
  boundary : AL J1Pin (Option Bool)  -- the boundary register: a level, or a released pin (R97)
deriving DecidableEq, Repr

/-- References and withdrawn functions (chapter 04, R144). -/
structure Clocks where
  refSel : BitVec 2
  refUsed : BitVec 2
  refLost : Bool
  ethPll : Bool               -- the Ethernet PLL runs
  uartLost : Bool
  deflateLost : Bool
  cryptoLost : Bool
  hostLost : Bool
deriving DecidableEq, Repr

/-- The protected-write key sequence (R156, R157): idle, or one or two words seen, with the time of the first. -/
inductive KeyState where
  | idle
  | first (t : Nat)
  | armed (t : Nat)
deriving DecidableEq, Repr

/-- A response (R162, R163). -/
structure Response where
  status : Word
  tag : Word
  words : List Word
deriving DecidableEq, Repr

/-- The host port (chapter 06). -/
structure HostPort where
  live : Bool
  strict : Bool
  key : KeyState
  irqEn : BitVec 10
  irqCmdFree : Bool
  irqWdog : Bool
  irqTimeHalf : Bool
  cmdOp : Word
  cmdTag : Word
  cmdLen : BitVec 11
  staged : List Word
  reject : Bool
  responses : List Response   -- head response first
  rspPos : Nat
  evtChip : List (List Word)  -- on-chip event store, oldest first (R165)
  evtBack : List (List Word)  -- DRAM backlog, oldest first
  evtPos : Nat
  evtLost : Bool
  apAddr : Addr
  apD0 : Word
  apD1 : Word
  apBe : BitVec 4
  apInc : Bool
  apErr : Bool
  apErrCode : BitVec 2
  time0 : Word                -- captured values (R171)
  time1 : Word
  lsrc : BitVec 2
  latched : Bool
  stepped : Bool
  safeRefused : Bool
  imgRefused : Bool
  hwdogPeriod : BitVec 12
  hbeat : Word
  hbeatCycles : Nat
  gpioOut : Word
  gpioDir : Word
  scratch : Word
  fcSticky : Byte
  benign : Bool               -- SAFE_STAT.BENIGN
  lastRead : Word             -- D[15:0] of the latest host read
  lastAperture : W32          -- the word the latest internal read returned
deriving DecidableEq, Repr

/-- Where an issued command came from, which decides where its response goes. -/
inductive Origin where
  | host
  | forwarded (src tag : Word)
  | broadcast
deriving DecidableEq, Repr

/-- A command issued and not yet answered (R160, R178). -/
structure Issued where
  op : Word
  tag : Word
  args : List Word
  keyed : Bool
  origin : Origin
deriving DecidableEq, Repr

/-- An execution lane (R178): the command in execution, and those waiting behind it. -/
structure Lane where
  running : Option Issued
  waiting : List Issued
deriving DecidableEq, Repr

/-- Accepted work that ends in a completion event (R193, R198). -/
structure Work where
  op : Word
  tag : Word
  origin : Origin
  test : Nat                  -- item of CAL_RUN, or test of SELFTEST
  target : Nat
  done : Nat
  failed : Nat
  todo : List Nat
  ready : Bool                -- the effect is in place; CAL_DONE may follow (R501, R504)
deriving DecidableEq, Repr

/-- The three lanes and the accepted work. -/
structure Commands where
  main : Lane
  image : Lane
  fwd : Lane
  works : List Work
  deleteDone : Bool
deriving DecidableEq, Repr

/-- The channel profile of Table 07-3. -/
structure Profile where
  priority : Bool
  t38 : Bool
  wideband : Bool
  srtp : Bool
  ipv6 : Bool
  codec : BitVec 4
  ptime : BitVec 4
  pt : BitVec 7
  ecTail : BitVec 5
  nlp : BitVec 2
  tones : Byte
  toneGen : Bool
  models : BitVec 4
  passes : BitVec 2
  cmodel : BitVec 4
  jbMin : Word
  jbMax : Word
  hwy : HwyNo
  slot : Byte
  group : BitVec 10
  vlan : BitVec 12
  pcp : BitVec 3
  lPort : Word
  rPort : Word
  ssrc : W32
  rAddr : Ip
deriving DecidableEq, Repr

/-- A frame of audio inside the processing path: its identity tag, whether its CRC-32C is good, and its samples in
binary32 with full scale ±1.0 (R22, Table 01-3, Table 11-6). -/
structure AFrame where
  tag : W32
  crcOk : Bool
  samples : List W32
deriving DecidableEq, Repr

/-- A frame held by the jitter buffer: the packet's sequence number and TAG, the RTP timestamp of the frame and its
payload bytes. -/
structure JbFrame where
  seq : Word
  ts : W32
  tag : W32
  silent : Bool               -- below -50 dBm0, or the marker bit of its packet
  sid : Bool                  -- a SID frame or discontinuous-transmission packet
  bytes : List Byte
deriving DecidableEq, Repr

/-- What the jitter buffer releases at a tick (R325, R326, R333): a frame; concealment, the `run`-th in a row; comfort noise;
or a telephone event to be played, from position `start` of it on in RTP clock units. -/
inductive Release where
  | frame (f : JbFrame)
  | conceal (run : Nat)
  | noise
  | event (code volume : Byte) (start : Nat)
  | fax
deriving DecidableEq, Repr

/-- A frame of the down chain, by its frame number. -/
structure DownFrame where
  seq : Word
  what : Release
  audio : AFrame              -- its samples are empty until DECODE
deriving DecidableEq, Repr

/-- A frame of the up chain, by its frame number. -/
structure UpFrame where
  seq : Word
  audio : AFrame              -- the frame passed from task to task
  kept : List W32             -- the canceller's output, after NLP (R320)
  dec : List W32              -- decision words 0-15 (Table 11-6)
  plain : Bool                -- the tone disabler is active, or a tone is on, in this frame (R320)
  digit : Bool                -- a digit is being sent as RFC 4733 events (R332)
  inactive : Bool             -- G.729: no voice (R324)
  sidDue : Bool
  quiet : Bool                -- Opus: transmission is suppressed (R324)
  fax : Bool                  -- its graph is of fax relay
  ifp : List Byte             -- what FAX_UP formed
deriving DecidableEq, Repr

/-- An SRTP context of one direction (R362-R365). -/
structure SrtpCtx where
  key : List Word
  salt : List Word
  roc : W32
  top : Word                  -- highest sequence number authenticated
  window : BitVec 128
  started : Bool
  rtcpIndex : BitVec 31       -- next index sent, or the highest received
  rtcpSeen : Bool
  rtcpWindow : BitVec 128
deriving DecidableEq, Repr

/-- The jitter buffer (R327-R330). -/
structure Jitter where
  held : List JbFrame         -- oldest first
  target : Nat                -- ms
  synced : Bool
  ssrc : W32
  lastSeq : Word              -- of the latest packet received
  curSeq : Word               -- of the packet last released from
  nextTs : W32
  refill : Nat                -- concealment frames until playout restarts at the target
  rising : Bool               -- frames are inserted until the held audio reaches the target
  falling : Bool              -- frames are dropped until the held audio is down to the target
  sinceInsert : Nat           -- frames since the last insertion
  sinceFall : Nat             -- frames since the target last fell
  late : List (Int × Nat)     -- transit times seen, in thirds of ns from the first packet's, with the frame count when seen
  lastArr : W32               -- arrival, RTP timestamp and transit time of the latest packet
  lastTs : W32
  transit : Int
  ticks : Nat
  lostRun : Nat               -- consecutive concealed frames (R326)
  noise : Bool                -- comfort noise is being released (R325)
  events : List Word          -- sequence numbers of telephone-event packets not yet passed
deriving DecidableEq, Repr

/-- A digit being sent as RFC 4733 events (R332). -/
structure DtmfSend where
  ts : W32
  code : Byte
  volume : Byte               -- measured level, in -dBm0
  frames : Nat
deriving DecidableEq, Repr

/-- A telephone event being received (R333). -/
structure RtpEvent where
  ts : W32
  code : Byte
  volume : Byte
  duration : Word
  ended : Bool
deriving DecidableEq, Repr

/-- A tone that one detection set follows in one direction (R331). -/
structure ToneTrack where
  up : Bool
  set : BitVec 3
  code : Word                 -- the signal followed; for call progress 0 a tone in cadence, 5 SIT
  freq : Nat                  -- its frequency, for SIT
  on : Nat                    -- ms of the burst in progress
  off : Nat                   -- ms of silence after it
  cycles : List (Nat × Nat)   -- finished bursts and the silence after each, latest first
  total : Nat                 -- ms since the tone began
  accepted : Option Word      -- the code reported
deriving DecidableEq, Repr

/-- A 2,100 Hz tone followed in one direction by the tone disabler (R319). -/
structure Guard where
  run : Nat                   -- ms it has lasted
  since : Nat                 -- ms since its start or its latest phase reversal
  reversals : Bool            -- reversals at 450 ms intervals
deriving DecidableEq, Repr

/-- The tone disabler: bit 0 of `scope` active, bit 1 canceller and NLP (R319, Table 12-4). -/
structure Disabler where
  up : Guard
  down : Guard
  quiet : Nat                 -- ms below -36 dBm0 in both directions
  scope : BitVec 2
deriving DecidableEq, Repr

/-- The echo canceller (R316-R319). -/
structure Canceller where
  coeffs : Nat                -- a name of its coefficients; 0 for zero coefficients
  erlRun : Nat                -- frames in a row with ERL below 6 dB
  tailRun : Nat               -- frames in a row with residual echo beyond the tail
  clearRun : Nat              -- frames in a row with neither
  erlLow : Bool
  dis : Disabler
deriving DecidableEq, Repr

/-- Fax relay of a channel (R334-R336). -/
structure FaxRelay where
  active : Bool
  trigger : Bool              -- a trigger of R334 waits for the tick
  afterDcn : Option Nat       -- frames without V.21 flags or carrier since a DCN
  idle : Nat                  -- frames without a UDPTL packet or fax signal
  txSeq : Word
  sent : List (List Byte)     -- the three previous IFP packets, latest first
  rxSeq : Option Word         -- highest UDPTL sequence number received
  received : List (List Byte) -- IFP packets for the modem, oldest first
deriving DecidableEq, Repr

/-- What TDM transmit plays for a channel (R85, R469). -/
inductive Playing where
  | idle
  | frame (f : AFrame)
  | conceal (f : AFrame)
deriving DecidableEq, Repr

/-- The liveness count of one direction (R468). -/
structure Live where
  misses : Nat
  lastWrong : Bool
  exempt : Bool
deriving DecidableEq, Repr

/-- A channel (chapters 01, 07, 12, 13, 18). -/
structure Chan where
  no : ChanNo
  prof : Profile
  nextProf : Option Profile   -- an accepted CH_MODIFY waiting for the tick (R190)
  neuralZero : Bool           -- the neural state is zeroed at that tick (R28, R305)
  phase : BitVec 6
  seed : BitVec 10
  lu : Nat
  tu : Nat
  te : BitVec 1               -- engine of R28
  port : PortNo               -- interface of R356
  inService : Bool
  keysLate : Bool             -- REASON 8 raised (R363)
  safe : Option Word          -- cause of channel safe state, CAUSE and CLASS
  byeSent : Bool
  rx : W32
  tx : W32
  lost : W32
  late : W32
  discards : W32
  authFail : W32
  tagFail : W32
  liveFail : W32
  benign : W32
  ec : Canceller
  fax : FaxRelay
  tones : List ToneTrack
  rtpEvent : Option RtpEvent
  jb : Jitter
  bgUp : Int                  -- last measured background levels, tenths of dBm0
  bgDown : Int
  frameNo : Word
  downBuilt : Bool            -- the graph of the current frame has been created (R220)
  upBuilt : Bool
  downs : List DownFrame      -- frames in the down chain
  downDone : Bool             -- the current frame's down graph has run to its end
  refs : AL Word (List W32)   -- echo references by frame number (R20, R204)
  played : Bool               -- TDM transmit has taken or replaced the current frame
  playing : Playing
  playPos : Nat               -- samples of it already driven
  ups : List UpFrame          -- frames in the up chain
  packed : List UpFrame       -- frames packetised and not yet sent, in order
  packNext : Word             -- number of the frame that begins the next packet
  upRecorded : Bool           -- the packetiser recorded the current frame (R468)
  txGap : Bool                -- transmission is suppressed; the next packet carries the marker
  quietFrames : Nat           -- frames in a row with voice probability below 0.5 (R324)
  liveDown : Live
  liveUp : Live
  rtpSeq : Word
  rtpTs : W32
  dtmf : Option DtmfSend
  rxCtx : Option SrtpCtx
  rxOld : Option SrtpCtx
  txCtx : Option SrtpCtx
  neural : AL Nat (List (Nat × Byte))   -- per model (1-4 vendor, 16+slot customer): state in DRAM (R305)
deriving DecidableEq, Repr

/-- Why admission sheds, as R32 and Table 07-8 divide the causes. -/
inductive ShedCause where
  | power | thermal | withdrawal
deriving DecidableEq, Repr

/-- The admission ledger (R25-R32, R224). -/
structure Ledger where
  chans : List Chan           -- oldest first
  resv : List (Word × Nat)    -- reservations, oldest first
  shedding : Option ShedCause
  lastSeeds : AL ChanNo (BitVec 10)
deriving DecidableEq, Repr

/-- Task states (Table 08-3). -/
inductive TState where
  | wait | spilled | ready | service
deriving DecidableEq, Repr

/-- A task (R200, Table 08-12). -/
structure Task where
  id : Nat
  gen : Byte
  slot : Nat                  -- store slot; meaningless while spilled
  flow : Word
  cls : BitVec 6
  level : BitVec 3
  st : TState
  req : BitVec 4
  opt : BitVec 4
  arrived : BitVec 4
  seq : Word
  arg0 : W32
  arg1 : W32
  createTime : W32
  readyTime : W32
  createOrd : Nat
  readyOrd : Nat
  exec : Option Executor
  pullOrd : Option Nat        -- waiting for a free slot (R218)
  engine : BitVec 1           -- the engine a NEURAL task was created for (R209)
deriving DecidableEq, Repr

/-- A flow entry (Table 08-9). -/
structure Flow where
  level : BitVec 3
  levelSet : Bool
  last : Option CoreNo
  pend : BitVec 4
deriving DecidableEq, Repr

/-- A customer class entry (Table 08-10). -/
structure TClass where
  stopOnOvr : Bool
  defLevel : BitVec 3
  budget : BitVec 21
  entry : Word
  ivec : Option Word
  ovrLimit : Word
  pmOffset : Word
  codeWords : Nat
deriving DecidableEq, Repr

/-- One almanac entry (R214). -/
structure AEntry where
  no : Nat
  list : BitVec 2
  expiry : Nat                -- in ticks of the list
  period : Nat
  handle : W32
  slot : BitVec 2
  ord : Nat
  chan : Option ChanNo        -- a list 0 frame entry (R203)
deriving DecidableEq, Repr

/-- One almanac list (Table 08-8). Its ticks are counted from the sub-grid step `edge`, where it had counted `now`. -/
structure AList where
  tick : Byte
  enable : Bool
  now : Nat                   -- ticks counted up to `edge`
  fired : W32
  edge : Int                  -- the sub-grid step of the tick edge counted last when TICK or ENABLE was written
  first : Byte                -- steps from `edge` to the next edge: a new TICK begins there (R228)
deriving DecidableEq, Repr

/-- The operating points of R106. -/
inductive Point where
  | p10 | p06 | p03
deriving DecidableEq, Repr

/-- The scheduler's record of one voice core. -/
structure CoreSt where
  point : Point
  target : Point
  busy : Option Nat           -- task ID in service
  flow : Word
  draining : Bool
  drained : Bool
  withdrawn : Bool
  faults : Word
deriving DecidableEq, Repr

/-- One master's request port (Table 08-11). -/
structure ReqPort where
  w00 : W32
  w04 : W32
  arg0 : W32
  arg1 : W32
  delay : BitVec 20
  period : BitVec 20
  status : Word
  out : W32
deriving DecidableEq, Repr

/-- The frame scheduler (chapter 08). -/
structure Sched where
  tasks : List Task
  gens : AL Nat Byte
  nextOrd : Nat
  flows : AL Word Flow
  classes : AL Nat TClass
  stopped : List Nat
  ovr : AL Nat Word
  spillHi : BitVec 15
  spillLo : BitVec 15
  fullCount : W32
  pullback : W32
  stray : W32
  overrun : W32
  resvShed : W32
  levels : AL Nat (Bool × BitVec 6)   -- levels 3-7: MODE and WAIT
  arbAperture : BitVec 3
  arbDeflate : BitVec 3
  lists : AL Nat AList
  entries : List AEntry
  cores : AL CoreNo CoreSt
  te0Busy : Option Nat
  te1Busy : Option Nat
  te0Gone : Bool
  te1Gone : Bool
  drainQ : List CoreNo
  ports : AL Master ReqPort
deriving DecidableEq, Repr

/-- A packet committed to a queue (R232). -/
structure Packet where
  cells : List Nat
  len : Nat
  time : W32
  tag : W32
  udptl : Bool                -- written while its channel was in fax relay (R362)
deriving DecidableEq, Repr

/-- Watermark modes (R248). -/
inductive WmMode where
  | off | level | hyst
deriving DecidableEq, Repr

/-- A queue (Table 09-7). -/
structure Queue where
  pkts : List Packet          -- head first
  openCells : Nat             -- cells of a packet a producer has open
  limit : BitVec 17
  enable : Bool
  notify : Bool
  notifyFlow : Word
  wmHi : BitVec 17
  wmLo : BitVec 17
  wmMode : WmMode
  fcEn : Bool
  fcPin : BitVec 3
  overrun : Bool
  wmFlag : Bool
  above : Bool
  wmState : Bool
  xcount : Byte
  rewind : Word
deriving DecidableEq, Repr

/-- A producer context (R234, R243, Table 09-8). -/
structure Producer where
  q : Option QueueNo
  cells : List Nat
  words : Nat
  bad : Bool
  flushed : Bool
  status : Word
  notOpen : Bool
  tagReg : W32
  tag : W32
deriving DecidableEq, Repr

/-- A consumer context (R242, Table 09-8). -/
structure Consumer where
  q : Option QueueNo
  pos : Nat                   -- next data word of the head packet
  flushed : Bool
  status : Word
  ecc : Bool
deriving DecidableEq, Repr

/-- Cell memory and queues (chapter 09). A cell in none of these lists, no packet and no open packet is in the pool. -/
structure Queues where
  retired : List Nat
  inFlush : List Nat          -- cells of flushed packets on their way back (R245)
  marching : List Nat         -- cells held by a march round (R513)
  marched : List Nat          -- cells tested by the march in progress
  minFree : BitVec 17
  reserve : BitVec 14
  nocell : W32
  oversize : W32
  stale : W32
  flushedPkts : W32
  eccErr : W32
  eccCells : List Nat         -- cells holding an uncorrectable error (R253)
  queues : AL QueueNo Queue
  producers : AL Master Producer
  consumers : AL Master Consumer
deriving DecidableEq, Repr

/-- A target of a delayed register write in a voice core (R263). -/
inductive WTarget where
  | f (phys : Nat)
  | p (n : BitVec 4)
  | b (n : BitVec 4)
  | l (n : BitVec 4)
  | e (n : BitVec 2)
  | ctl (r : CtlReg)
  | flags                      -- LT, EQ and UN of FCMP
  | sticky                     -- FZS, INV and OVF of an M-slot operation
deriving DecidableEq, Repr

/-- A result on its way to its register: usable from word `due`, issued in word `issued`. -/
structure Pend where
  due : Nat
  issued : Nat
  tgt : WTarget
  val : BitVec 40
deriving DecidableEq, Repr

/-- A DMA transfer in progress (R284). -/
structure Dma where
  toLocal : Bool
  ext : Addr
  loc : Word
  inY : Bool
  count : Nat
  irq : Bool
deriving DecidableEq, Repr

/-- A voice core's registers and pipeline (Table 10-3). -/
structure Core where
  f : List W32
  p : List Word
  b : List Word
  l : List Word
  e : List Addr
  lc : Word
  ls : BitVec 12
  le : BitVec 12
  la : Bool
  rot : Bool
  tbFlag : Bool
  rb : BitVec 5
  fstat : BitVec 11
  acscr : BitVec 4
  stmin : Word
  tb : W32
  acsRan : Bool               -- an ACS4 has run since the last ACSSTG
  threeBus : Bool
  ie : BitVec 3
  ipend : BitVec 3
  ipc : BitVec 12
  imode : Bool
  iie : BitVec 3
  dmaErr : BitVec 4
  dma : List (Option Dma)
  rs : List (BitVec 12)
  pc : BitVec 12
  word : Nat                  -- instruction words issued since dispatch
  delay : Nat                 -- delay words still to issue
  target : Option (BitVec 12) -- where control goes after them
  rtiMode : Option (Bool × BitVec 3)
  handler : Bool              -- an interrupt handler runs (R281)
  firstPass : Bool            -- the repeat cache is being filled (R274)
  cache : List (BitVec 12)    -- repeat cache: word addresses held
  pend : List Pend
  slots : BitVec 5            -- slots used in the word being built: C, M, A, X, Y
  dests : List WTarget        -- destinations named in the word being built
  posts : List (BitVec 4)     -- pointers post-modified in it
  stores : List (Addr × Nat × W32)  -- stores of the word being built: address, bytes, data
  jump : Bool                 -- the word being built holds a taken branch
  ended : Option TaskFinding  -- it holds END
deriving DecidableEq, Repr

/-- A customer model slot (Tables 11-10, 11-11). -/
structure ModelSlot where
  mfv : Word
  flags : Word
  tuNb : List Word
  tuWb : List Word
  stateBytes : Nat
  jobs : List JobDesc         -- in order
  base : Nat                  -- offset of the model in the model store
  len : Nat                   -- its bytes
  dataOff : Nat               -- offset of its data in it
  dataLen : Nat
  size : Nat                  -- bytes taken in the model store
deriving DecidableEq, Repr

/-- A tensor engine's working state and status window (Table 11-10). -/
structure Engine where
  chan : Option ChanNo        -- channel of the NEURAL task in service
  models : List Nat           -- models still to run, the first in progress
  jobIndex : Nat
  staged : List (Nat × Byte)  -- STATE space of the model in progress
  written : AL Nat (List (Nat × Byte))  -- states written back by this task
  frame : List (Nat × Byte)   -- FRAME space
  seq : Word                  -- the task's frame number
  inputs : List (List W32)    -- IN and REF as staged
  junk : Nat                  -- names what the frame area holds elsewhere
  cycles : Nat
  flushed : Bool
  ovf : Bool
  inv : Bool
  tasks : W32
  jobErr : W32
  lastErr : W32
  lastCycles : W32
  lastStatus : W32
deriving DecidableEq, Repr

/-- The tensor engines and the model slots. -/
structure Tensor where
  te0 : Engine
  te1 : Engine
  slots : AL Nat ModelSlot
deriving DecidableEq, Repr

/-- An SFP+ cage (R95). -/
structure Cage where
  present : Bool
  level1 : Bool               -- the transceiver declares power level I
  readable : Bool             -- its identification can be read
  hasDiag : Bool              -- it has diagnostics at address 0xA2
  idRead : Bool               -- identification and, where present, diagnostics have been read
  diagRead : Bool
  powered : Bool
  refused : Bool
deriving DecidableEq, Repr

/-- An Ethernet port and its IP interface (R343, R353, Table 13-5). -/
structure EthPort where
  mode : BitVec 3
  ptpTs : Bool
  addr : Ip
  plen : BitVec 8
  vlan : BitVec 12
  up : Bool
  speed : BitVec 3
  cage : Cage
  router : Ip
  hop : Ip                    -- the off-link next hop of the latest resolution (R374)
  routerHold : BitVec 96
  rxFrames : W32
  txFrames : W32
  rxFcs : W32
  rxOversize : W32
  rxNoVlan : W32
  txQDrop : W32
  neighDrop : W32
  echoTimes : List Nat         -- times of the echo replies of the last second (R354)
  sending : Option (List Byte)
  line : List (List Byte)      -- frames last put on the line
  txEngine : List (BitVec 3 × List Byte)   -- frames from the engine port waiting, with their class
  deficits : List Nat
  lastServed : BitVec 3
deriving DecidableEq, Repr

/-- A VLAN (R347). -/
structure Vlan where
  vid : BitVec 12
  members : BitVec 5
  untagged : BitVec 5
deriving DecidableEq, Repr

/-- A traffic class (R348, Table 13-4). -/
structure TrafficClass where
  wrr : Bool
  weight : Byte
  cut : Bool
deriving DecidableEq, Repr

/-- A neighbour entry (R355). -/
structure Neighbour where
  port : PortNo
  ip : Ip
  mac : Option Mac
deriving DecidableEq, Repr

/-- The switch (chapter 13). -/
structure Switch where
  ports : List EthPort
  vlans : List Vlan
  classes : List TrafficClass
  pcpClass : List (BitVec 3)
  macTable : List (BitVec 12 × Mac × PortNo)
  neighbours : List Neighbour
  sessMiss : W32
deriving DecidableEq, Repr

/-- A highway's configuration (HWY_CFG). -/
structure HwyCfg where
  enabled : Bool
  master : Bool
  muLaw : Bool
  idle : Byte
  fsOffset : BitVec 11
deriving DecidableEq, Repr

/-- A highway (R366-R375). -/
structure Highway where
  cfg : HwyCfg
  own : BitVec 256
  nextCfg : Option HwyCfg
  nextOwn : Option (BitVec 256)
  aligned : Bool
  goodPulses : Nat            -- good frame pulses in a row, while not aligned
  rxBuf : List (List Byte)    -- the receive slip buffer: frames written and not yet read, oldest first
  rxHist : List (List Byte)   -- frames the module side has read, latest first
  rxGap : Int                 -- distance of the receive buffer's pointers in bit periods
  txBuf : List (List (Option Byte))   -- the transmit slip buffer: frames written and not yet driven, oldest first
  txGap : Int
  txOut : List (List (Option Byte))   -- frames of a released transmit group, still to be driven (R519)
  line : List (Option Byte)   -- what TDM_Dn drives in each timeslot of the frame, none where it is released
  trimRun : Bool              -- its alignment was given up for a trim run, with no event (R508)
  badPulses : Nat
  rxRep : Word
  rxDel : Word
  txRep : Word
  txDel : Word
  fsErr : Word
  alignLoss : Word
deriving DecidableEq, Repr

/-- PTP on one port (PTP_CFG). -/
structure PtpPort where
  role : BitVec 2
  profile : Bool
  transport : BitVec 2
  twoStep : Bool
  domain : Byte
  logSync : Int
  prio1 : Byte
  prio2 : Byte
  seqTx : Word
  syncT : Option (TimePair × TimePair)  -- origin and receipt of the latest complete Sync
  syncWait : Option (Word × TimePair)   -- two-step Sync: sequence and receipt
  reqT : Option (Word × TimePair)       -- Delay_Req: sequence and transmission
  pathDelay : Option Int                -- mean path delay, 1/16 ns
  upstream : Byte
deriving DecidableEq, Repr

/-- A probe slot (R396, R397). -/
structure Probe where
  start : Byte
  stop : Byte
  enable : Bool
  openAt : Option W32
  interval : W32
  valid : Bool
  tie : Bool
  long : Bool
  orphan : Word
  restart : Word
deriving DecidableEq, Repr

/-- The time unit and the servo (chapter 14). Frequencies are in units of 2^-20 ppb. -/
structure TimeUnit where
  counter : W32
  phase : Nat
  frac : Nat                  -- 32 fractional bits
  phaseFrac : Nat
  secs : Int                  -- whole seconds the phase counter has counted, steps included: the place of the grid (R377)
  up : Nat                    -- time-clock cycles since power was applied, never stepped
  stepSum : W32
  stepLatch : W32
  src : BitVec 3
  kp : Word
  ki : Word
  nextKp : Word
  nextKi : Word
  stepThr : Nat
  noStep : Bool
  nextStepThr : Nat
  nextNoStep : Bool
  refout : Bool
  ppsOut : Bool
  y : Int
  i : Int
  limit : Bool
  locked : Bool
  goodRun : Nat
  badRun : Nat
  everLocked : Bool
  history : List (Nat × Int)  -- y while LOCKED, newest first, with the cycles it was in force
  since : Nat                 -- `up` when the present y or LOCKED began
  holdover : Bool
  offset : W32
  updates : W32
  steps : W32
  lastPps : Option Nat
  ptp : List PtpPort
  probes : AL Nat Probe
  ismT1 : Option TimePair     -- SYNC received: t1, with t2 and the sent t3
  ismT2 : TimePair
  ismT3 : TimePair
  ismLastDelay : Option Int
  ismSettled : Bool
deriving DecidableEq, Repr

/-- A DEFLATE stream context (R401, R406-R409). -/
structure DfCtx where
  addr : Addr
  compress : Bool
  wrap : BitVec 2
  input : List Byte           -- input taken so far
  produced : Nat              -- output bytes given so far (decompression)
  whole : Bool                -- every input byte has left the coder, at a byte boundary (compression)
deriving DecidableEq, Repr

/-- The DEFLATE engine (Table 15-6). -/
structure Deflate where
  ringLo : W32
  ringHi : Byte
  prod : BitVec 7
  cons : BitVec 7
  enable : Bool
  prodErr : Bool
  jobsOk : W32
  jobsFailed : W32
  bytesIn : W32
  bytesOut : W32
  ctxs : List DfCtx
deriving DecidableEq, Repr

/-- A received character as the FIFO stores it. -/
structure RxChar where
  c : Byte
  perr : Bool
  ferr : Bool
  brk : Bool
deriving DecidableEq, Repr

/-- A UART port (Table 16-5). -/
structure Uart where
  enabled : Bool
  div : Word
  ckdiv : Word
  format : Word
  word3 : Word
  rx : List RxChar
  tx : List Byte
  sending : Option Byte
  repeats : Nat               -- repeats of the character in progress (R427)
  noRepeat : Bool             -- TXFLUSH during a repeat
  de : Bool
  deTail : Bool               -- the tail is running
  brk : Bool
  rstLevel : Bool
  clken : Bool
  inverse : Bool
  tsWait : Bool
  convDet : BitVec 2
  tserr : Bool
  waitHigh : Bool
  fOvr : Bool
  fPerr : Bool
  fFerr : Bool
  fBrk : Bool
  fColl : Bool
  fTxerr : Bool
  fTxovf : Bool
  rxChars : W32
  txChars : W32
  errors : W32
  ovrCount : W32
  repeatCount : W32
deriving DecidableEq, Repr

/-- Link state of an Ismorlink port (Table 17-7). -/
inductive LinkState where
  | down | training | trained | blocked
deriving DecidableEq, Repr

/-- One Ismorlink port. -/
structure IsmPort where
  st : LinkState
  cause : BitVec 4
  nb : Option LinkInfo
  goodLinks : Nat
  ackedLinks : Nat
  features : Word
  delay : W32
  offset : W32
  crcErr : W32
  retries : W32
  codeErr : W32
  hbMiss : W32
  lseqTx : Word
  lseqRx : Option Word
  unacked : List (IsmFrame × Nat)  -- frames sent and not acknowledged, oldest first, with their tries
  line : List (IsmFrame × List Byte) -- the last frames put on the line, with their bytes, newest first, at most eight
  hbSeq : Word
  firstHb : Bool
  t3 : Option TimePair
deriving DecidableEq, Repr

/-- A monitored heartbeat source (R454). -/
structure Monitor where
  addr : Word
  port : PortNo
  refSeq : Word
  summitOk : Bool
deriving DecidableEq, Repr

/-- A topology table entry (Table 07-6). -/
structure TopoEntry where
  addr : Word
  parent : Word
  port : PortNo
  depth : BitVec 7
  held : Bool
  silent : Bool
  uid : Uid
  lpv : Word
  imageStatus : Word
deriving DecidableEq, Repr

/-- A query or claim of the summit not yet answered (R443). -/
structure Asked where
  qid : Word
  claim : Bool
  len : Nat
  bits : Uid
deriving DecidableEq, Repr

/-- A reply being merged at a hop (R442). -/
structure Merge where
  qid : Word
  waiting : List PortNo
  answer : SearchAnswer
deriving DecidableEq, Repr

/-- The summit's walk (R441-R446). -/
structure Walk where
  tag : Word
  origin : Origin
  asked : List Asked
  todo : List Asked
  nextQid : Word
  found : List SearchAnswer
  gone : Nat
  conflicts : List Uid
  reported : List (Uid × Option Word × PortNo)
  pings : List (Word × Nat)    -- addresses still to answer, with the tries missed
  late : List (Word × PortNo)  -- ports that trained after BEGIN, by parent address
  emptyBranches : Nat
  newly : Nat
  pinging : Bool
  checking : List SearchAnswer -- claims of a known UID whose address is being pinged
deriving DecidableEq, Repr

/-- A broadcast being gathered (R461). -/
structure Gather where
  op : Word
  tag : Word
  waiting : List PortNo
  own : Option Word
  counts : BcastCounts
  atSummit : Bool
deriving DecidableEq, Repr

/-- Ismorlink (chapter 17). -/
structure Ismorlink where
  addr : Option Word
  depth : BitVec 7
  conflict : Bool
  epoch : Word
  beginSeen : Bool            -- the BEGIN of this epoch was received
  participant : Bool
  claimed : Bool              -- a CLAIM or MARK for the own UID was received
  beginPorts : List PortNo    -- DN ports trained at BEGIN
  merges : List Merge
  autoSearch : Bool
  searchDue : Bool            -- an automatic search waits (R447)
  lpv : Word
  table : List TopoEntry
  routes : AL Word PortNo
  ports : List IsmPort
  monitors : List Monitor
  summitOk : Bool
  evtUp : List (List Word)    -- records awaiting credit on UP (R451)
  tooDeep : W32
  noroute : W32
  evtDrop : W32
  noaddrFull : W32
  walk : Option Walk
  lossPings : List (Word × Nat)
  gathers : List Gather
  imageStatus : Word
deriving DecidableEq, Repr

/-- Functional safety (chapter 18). -/
structure Safety where
  safe : Bool
  cause : Byte
  cls : BitVec 4
  qual : Bool
  groupPolicy : List (BitVec 10)
  groupSafe : AL (BitVec 10) Word
  groupTag : AL (BitVec 10) W32
  groupLive : AL (BitVec 10) W32
  groupBenign : AL (BitVec 10) W32
  stormLimit : Nat
  summitPolicy : BitVec 2
  storm : List Nat            -- times of safe-state entries
  tagFail : W32
  liveFail : W32
  lockstep : W32
  compTests : W32
  checkerTests : W32
  benign : W32
  repaired : W32
  eccCorr : W32
  eccUncorr : W32
  scrubs : W32
  stormEntries : W32
  lane : BitVec 6             -- the comparator lane tested next
deriving DecidableEq, Repr

/-- Results of one test since reset (R515). -/
structure TestRes where
  runs : W32
  passes : W32
  fails : W32
  lastFail : W32
deriving DecidableEq, Repr

/-- Calibration (chapter 19). Offsets are in the item's unit. -/
structure Calib where
  overlay : AL Word Int       -- flash
  overlayOk : Bool
  offsets : AL Word Int       -- offsets in force
  waiting : AL Word Int       -- offsets waiting for a quiet point
  restoreTodo : Bool          -- the overlay deletion waits for PWRFAIL# (R506)
  results : AL Nat TestRes
deriving DecidableEq, Repr

/-- A unit held by REORDER at an injection point (R518). -/
inductive HeldUnit where
  | eth (frame : List Byte)
  | packet (q : QueueNo) (p : Packet)
  | ism (f : IsmFrame) (good : Bool)
  | hwy (l : List (Option Byte))
deriving DecidableEq, Repr

/-- An injection point (R516-R524). -/
structure FiPoint where
  armed : Bool
  mode : BitVec 2
  pattern : Bool
  rate : W32
  param : Word
  units : Nat
  triggers : W32
  acted : W32
  held : List HeldUnit        -- oldest first
deriving DecidableEq, Repr

/-- A trace slot (Table 20-4). -/
structure TraceSlot where
  seq : W32
  len : W32
  tFirst : W32
  tLast : W32
deriving DecidableEq, Repr

/-- Fault injection and trace (chapter 20). -/
structure Inject where
  points : AL Word FiPoint
  segment : List (List Word)  -- trace records of the current segment, oldest first
  segNo : Nat
  slots : AL Nat TraceSlot
  stopped : Bool
deriving DecidableEq, Repr

end Sys2Proof.Machine
end

