-- ==== Sys2Proof/Machine/State.lean ====
section
/-! DEFINITION. The machine's state: one field per block of the module, the internal memories, the
count of free values drawn, and the queue of commands waiting. State.reset is the module on entry to
RESET at the first application of power. -/

namespace Sys2Proof.Machine

/-- Why the machine stops with a fault. No rule of the manual stops the module as a whole: every fault it
describes is a change of its state. Raised by nobody; it is here for the host's interface (safe). -/
inductive Fault where
  | stopped
deriving DecidableEq, Repr

/-- Why a command has no meaning. `notModelled` stands in Dispatch.lean alone, for a row without a meaning
yet; stopping there is safe. -/
inductive Refusal where
  | notModelled (mnemonic : String)
deriving DecidableEq, Repr

structure State where
  hw : Hw
  boot : Boot
  pwr : Power
  therm : Thermal
  pins : Pins
  clk : Clocks
  host : HostPort
  cmds : Commands
  led : Ledger
  sch : Sched
  qm : Queues
  vcs : AL CoreNo Core
  ten : Tensor
  sw : Switch
  tdm : List Highway
  tim : TimeUnit
  dfl : Deflate
  uarts : List Uart
  ism : Ismorlink
  saf : Safety
  cal : Calib
  fi : Inject
  mem : List Host.Cell
  free : Nat
  pending : List Instr
deriving DecidableEq, Repr

/-! ### Reset values, block by block -/

def Hw.unit : Hw :=
  { variant := .fg8192, coatK := false, sil := 0, modRev := 0, uid := 0, macs := [0, 0, 0, 0],
    factory := [], factoryOk := true, revoked := 0 }

def Bank.blank : Bank := { erased := true, bytes := [] }

def Boot.atReset : Boot :=
  { mode := .reset, cause := 1, active := none, fallback := false, reverted := false, pref := false,
    trial := false, starts := 0, resA := .notChecked, resB := .notChecked, bankA := Bank.blank,
    bankB := Bank.blank, rollback := 0, session := none, pendingSel := none, selWaits := none, recordDue := none, raisePending := none,
    running := none, unqual := false, debug := false, challenge := 0, startArmed := false,
    bistDone := false, limitsOn := false, wasReady := false, linkLayer := false, jtagHold := false, coldHold := false, resetSoon := false }

def Power.atReset : Power :=
  { ac := ⟨true, false⟩, dc := ⟨false, false⟩, poe := ⟨false, false⟩, poeClass := 0, srcPref := 0,
    activeAtLoss := none, pwrfail := false, guardSteps := 0, guardWindows := 0, guardShed := false, srcCeil := 8192,
    held := none, powered := true, collapse := false }

def Thermal.atReset : Thermal := { temp := 0, raw := 0, samples := [], ceil := 8192, sampled := false }

def Pins.atReset : Pins :=
  { straps := 0, vioClass33 := none, vioIn := false, proofStep6 := false, tap := .testLogicReset, boundary := [] }

def Clocks.atReset : Clocks :=
  { refSel := 0, refUsed := 0, refLost := false, ethPll := true, uartLost := false,
    deflateLost := false, cryptoLost := false, hostLost := false }

def HostPort.atReset : HostPort :=
  { live := false, strict := false, key := .idle, irqEn := 0, irqCmdFree := false, irqWdog := false,
    irqTimeHalf := false, cmdOp := 0, cmdTag := 0, cmdLen := 0, staged := [], reject := false,
    responses := [], rspPos := 0, evtChip := [], evtBack := [], evtPos := 0, evtLost := false,
    apAddr := 0, apD0 := 0, apD1 := 0, apBe := 15, apInc := false, apErr := false, apErrCode := 0,
    time0 := 0, time1 := 0, lsrc := 0, latched := false, stepped := false, safeRefused := false,
    imgRefused := false, hwdogPeriod := 0, hbeat := 0, hbeatCycles := 0,
    gpioOut := 0, gpioDir := 0, scratch := 0, fcSticky := 0, benign := false, lastRead := 0,
    lastAperture := 0 }

def Lane.idle : Lane := { running := none, waiting := [] }

def Commands.atReset : Commands :=
  { main := Lane.idle, image := Lane.idle, fwd := Lane.idle, works := [], deleteDone := false }

def Ledger.atReset : Ledger := { chans := [], resv := [], shedding := none, lastSeeds := [] }

/-- List 0 and list 3 are enabled with TICK 25, lists 1 and 2 disabled (Table 08-8). -/
def Sched.atReset : Sched :=
  { tasks := [], gens := [], nextOrd := 0, flows := [], classes := [], stopped := [], ovr := [],
    spillHi := 14336, spillLo := 12288, fullCount := 0, pullback := 0, stray := 0, overrun := 0,
    resvShed := 0, levels := [], arbAperture := 4, arbDeflate := 6,
    lists := [(0, ⟨25, true, 0, 0, 0, 25⟩), (1, ⟨25, false, 0, 0, 0, 25⟩), (2, ⟨25, false, 0, 0, 0, 25⟩),
      (3, ⟨25, true, 0, 0, 0, 25⟩)],
    entries := [], cores := [], te0Busy := none, te1Busy := none, te0Gone := false, te1Gone := false,
    drainQ := [], ports := [] }

def Queues.atReset : Queues :=
  { retired := [], inFlush := [], marching := [], marched := [],
    minFree := 98304, reserve := 2048, nocell := 0, oversize := 0, stale := 0, flushedPkts := 0,
    eccErr := 0, eccCells := [], queues := [], producers := [], consumers := [] }

def Engine.atReset : Engine :=
  { chan := none, models := [], jobIndex := 0, staged := [], written := [], frame := [], seq := 0, inputs := [], junk := 0,
    cycles := 0, flushed := false, ovf := false, inv := false, tasks := 0, jobErr := 0, lastErr := 0,
    lastCycles := 0, lastStatus := 0 }

def Tensor.atReset : Tensor := { te0 := Engine.atReset, te1 := Engine.atReset, slots := [] }

def Cage.atReset : Cage :=
  { present := false, level1 := false, readable := false, hasDiag := false, idRead := false,
    diagRead := false, powered := false, refused := false }

def EthPort.atReset : EthPort :=
  { mode := 0, ptpTs := false, addr := 0, plen := 0, vlan := 0, up := false, speed := 0,
    cage := Cage.atReset, router := 0, hop := 0, routerHold := 0, rxFrames := 0, txFrames := 0, rxFcs := 0,
    rxOversize := 0, rxNoVlan := 0, txQDrop := 0, neighDrop := 0, echoTimes := [], sending := none, line := [],
    txEngine := [], deficits := [0, 0, 0, 0, 0, 0, 0, 0], lastServed := 0 }

/-- VLAN 1 with all five ports untagged (R347), and the classes of Table 13-4. -/
def Switch.atReset : Switch :=
  { ports := [EthPort.atReset, EthPort.atReset, EthPort.atReset, EthPort.atReset],
    vlans := [⟨1, 31, 31⟩],
    classes := [⟨true, 16, false⟩, ⟨true, 16, false⟩, ⟨true, 16, false⟩, ⟨true, 16, false⟩,
      ⟨true, 16, false⟩, ⟨false, 1, true⟩, ⟨false, 1, false⟩, ⟨false, 1, false⟩],
    pcpClass := [0, 1, 2, 3, 4, 5, 6, 7], macTable := [], neighbours := [], sessMiss := 0 }

def Highway.atReset : Highway :=
  { cfg := ⟨false, false, false, 0, 0⟩, own := 0, nextCfg := none, nextOwn := none, aligned := false,
    goodPulses := 0, rxBuf := [], rxHist := [], rxGap := 2048, txBuf := [], txGap := 2048, txOut := [], line := [],
    trimRun := false, badPulses := 0, rxRep := 0, rxDel := 0, txRep := 0, txDel := 0, fsErr := 0,
    alignLoss := 0 }

def PtpPort.atReset : PtpPort :=
  { role := 0, profile := false, transport := 0, twoStep := false, domain := 0, logSync := 0,
    prio1 := 0, prio2 := 0, seqTx := 0, syncT := none, syncWait := none, reqT := none, pathDelay := none, upstream := 248 }

def TimeUnit.atReset : TimeUnit :=
  { counter := 0, phase := 0, frac := 0, phaseFrac := 0, secs := 0, up := 0, stepSum := 0, stepLatch := 0,
    src := 0, kp := 0, ki := 0, nextKp := 0, nextKi := 0, stepThr := 1000, noStep := false,
    nextStepThr := 1000, nextNoStep := false, refout := false, ppsOut := false, y := 0, i := 0,
    limit := false, locked := false, goodRun := 0, badRun := 0, everLocked := false, history := [], since := 0,
    holdover := false, offset := 0, updates := 0, steps := 0, lastPps := none,
    ptp := [PtpPort.atReset, PtpPort.atReset, PtpPort.atReset, PtpPort.atReset], probes := [],
    ismT1 := none, ismT2 := ⟨0, 0⟩, ismT3 := ⟨0, 0⟩, ismLastDelay := none, ismSettled := false }

def Deflate.atReset : Deflate :=
  { ringLo := 0, ringHi := 0, prod := 0, cons := 0, enable := false, prodErr := false, jobsOk := 0,
    jobsFailed := 0, bytesIn := 0, bytesOut := 0, ctxs := [] }

def Uart.atReset : Uart :=
  { enabled := false, div := 0, ckdiv := 0, format := 0, word3 := 0, rx := [], tx := [],
    sending := none, repeats := 0, noRepeat := false, de := false, deTail := false, brk := false,
    rstLevel := false, clken := false, inverse := false, tsWait := false, convDet := 0, tserr := false,
    waitHigh := false, fOvr := false, fPerr := false, fFerr := false, fBrk := false, fColl := false,
    fTxerr := false, fTxovf := false, rxChars := 0, txChars := 0, errors := 0, ovrCount := 0,
    repeatCount := 0 }

def IsmPort.atReset : IsmPort :=
  { st := .down, cause := 0, nb := none, goodLinks := 0, ackedLinks := 0, features := 0, delay := 0,
    offset := 0, crcErr := 0, retries := 0, codeErr := 0, hbMiss := 0, lseqTx := 0, lseqRx := none,
    unacked := [], line := [], hbSeq := 0, firstHb := true, t3 := none }

def Ismorlink.atReset : Ismorlink :=
  { addr := none, depth := 0, conflict := false, epoch := 0, beginSeen := false, participant := false,
    claimed := false, beginPorts := [], merges := [], autoSearch := true, searchDue := false, lpv := 0,
    table := [], routes := [], ports := [IsmPort.atReset, IsmPort.atReset, IsmPort.atReset, IsmPort.atReset],
    monitors := [], summitOk := false, evtUp := [], tooDeep := 0, noroute := 0, evtDrop := 0,
    noaddrFull := 0, walk := none, lossPings := [], gathers := [], imageStatus := 0xFFFF }

def Safety.atReset : Safety :=
  { safe := false, cause := 0, cls := 0, qual := false, groupPolicy := [], groupSafe := [], groupTag := [],
    groupLive := [], groupBenign := [], stormLimit := 8, summitPolicy := 0, storm := [], tagFail := 0,
    liveFail := 0, lockstep := 0, compTests := 0, checkerTests := 0, benign := 0, repaired := 0,
    eccCorr := 0, eccUncorr := 0, scrubs := 0, stormEntries := 0, lane := 0 }

def Calib.atReset : Calib :=
  { overlay := [], overlayOk := false, offsets := [], waiting := [], restoreTodo := false, results := [] }

def Inject.atReset : Inject := { points := [], segment := [], segNo := 1, slots := [], stopped := false }

/-- The module on entry to RESET at the first application of power. -/
def State.reset : State :=
  { hw := Hw.unit, boot := Boot.atReset, pwr := Power.atReset, therm := Thermal.atReset,
    pins := Pins.atReset, clk := Clocks.atReset, host := HostPort.atReset, cmds := Commands.atReset,
    led := Ledger.atReset, sch := Sched.atReset, qm := Queues.atReset, vcs := [], ten := Tensor.atReset,
    sw := Switch.atReset, tdm := List.replicate 32 Highway.atReset, tim := TimeUnit.atReset,
    dfl := Deflate.atReset, uarts := List.replicate 8 Uart.atReset, ism := Ismorlink.atReset,
    saf := Safety.atReset, cal := Calib.atReset, fi := Inject.atReset, mem := [], free := 0, pending := [] }

end Sys2Proof.Machine
end

