-- ==== Sys2Proof/Machine/Bits.lean ====
section
/-! DEFINITION. Helpers the blocks share: association lists, saturating counters, bit fields, byte order
(R5, R6), and the check codes the manual names by their standards: CRC-32C (R548), CRC-32, Adler-32
(R404). -/

namespace Sys2Proof.Machine

/-! ### Association lists -/

/-- The entry at key `k`, or `d` where none is listed. -/
def alGet {κ α : Type} [DecidableEq κ] (l : AL κ α) (k : κ) (d : α) : α :=
  match l with
  | [] => d
  | (k', a) :: r => if k' = k then a else alGet r k d

/-- The entry at key `k`, if listed. -/
def alFind {κ α : Type} [DecidableEq κ] (l : AL κ α) (k : κ) : Option α :=
  match l with
  | [] => none
  | (k', a) :: r => if k' = k then some a else alFind r k

/-- The list without key `k`. -/
def alErase {κ α : Type} [DecidableEq κ] (l : AL κ α) (k : κ) : AL κ α :=
  l.filter (fun e => e.1 ≠ k)

/-- Key `k` set to `a`, in its place where it is listed and at the end otherwise. -/
def alSet {κ α : Type} [DecidableEq κ] (l : AL κ α) (k : κ) (a : α) : AL κ α :=
  match l with
  | [] => [(k, a)]
  | (k', b) :: r => if k' = k then (k, a) :: r else (k', b) :: alSet r k a

/-- Element `i` of a list replaced; nothing changes beyond its end. -/
def setAt {α : Type} (l : List α) (i : Nat) (a : α) : List α := l.set i a

/-! ### Numbers and fields -/

/-- A counter advanced by `n`, saturating at all ones. -/
def satAdd {w : Nat} (c : BitVec w) (n : Nat) : BitVec w :=
  if c.toNat + n < 2 ^ w then BitVec.ofNat w (c.toNat + n) else BitVec.allOnes w

/-- A count as a saturating field of width `w`. -/
def satNat (w n : Nat) : BitVec w :=
  if n < 2 ^ w then BitVec.ofNat w n else BitVec.allOnes w

/-- Bits [lo + len − 1 : lo] as a number. -/
def fld {w : Nat} (v : BitVec w) (lo len : Nat) : Nat := (v.toNat >>> lo) % 2 ^ len

/-- Bit `i`. -/
def bitOf {w : Nat} (v : BitVec w) (i : Nat) : Bool := v.getLsbD i

/-- A Bool as the number 0 or 1. -/
def b2n (b : Bool) : Nat := if b then 1 else 0

/-- A word made of fields: each pair is a value and the place of its lowest bit. -/
def pack (w : Nat) (fs : List (Nat × Nat)) : BitVec w :=
  BitVec.ofNat w (fs.foldl (fun acc f => acc + f.1 * 2 ^ f.2) 0)

/-- Ceiling division. -/
def cdiv (a b : Nat) : Nat := (a + b - 1) / b

/-- Bits [15:0] and [31:16] of a 32-bit value, least significant word first (R6). -/
def words2 (v : W32) : List Word := [v.setWidth 16, (v >>> 16).setWidth 16]

/-- A 64-bit value as four words, least significant first (R6). -/
def words4 (v : BitVec 64) : List Word :=
  [v.setWidth 16, (v >>> 16).setWidth 16, (v >>> 32).setWidth 16, (v >>> 48).setWidth 16]

/-- Word `i` of an argument list, 0 beyond its end. -/
def arg (l : List Word) (i : Nat) : Word := l.getD i 0

/-- A 32-bit value from two words, least significant first. -/
def arg2 (l : List Word) (i : Nat) : W32 := (arg l (i + 1)) ++ (arg l i)

/-- A 64-bit value from four words, least significant first. -/
def arg4 (l : List Word) (i : Nat) : BitVec 64 := (arg2 l (i + 2)) ++ (arg2 l i)

/-- The address of eight words under R184: each word holds two bytes, the first byte in bits [15:8]. -/
def argIp (l : List Word) (i : Nat) : Ip :=
  (List.range 8).foldl (fun acc k => (acc <<< 16) ||| (arg l (i + k)).setWidth 128) 0

/-- The eight words of an address (R184). -/
def ipWords (a : Ip) : List Word :=
  (List.range 8).map (fun k => (a >>> (112 - 16 * k)).setWidth 16)

/-- An address whose words 2–7 are zero is IPv4 (R353). -/
def ipIsV4 (a : Ip) : Bool := a.setWidth 96 = (0 : BitVec 96)

/-- A signed value of a bit vector. -/
def sgn {w : Nat} (v : BitVec w) : Int := v.toInt

/-! ### Bytes -/

/-- The four bytes of a word, least significant first (R5). -/
def bytes4 (v : W32) : List Byte :=
  [v.setWidth 8, (v >>> 8).setWidth 8, (v >>> 16).setWidth 8, (v >>> 24).setWidth 8]

/-- Byte `i` of a byte list, 0 beyond its end. -/
def byteAt (l : List Byte) (i : Nat) : Byte := l.getD i 0

/-- A little-endian 16-bit value at offset `i` (R5). -/
def le16 (l : List Byte) (i : Nat) : Word := (byteAt l (i + 1)) ++ (byteAt l i)

/-- A little-endian 32-bit value at offset `i` (R5). -/
def le32 (l : List Byte) (i : Nat) : W32 := (le16 l (i + 2)) ++ (le16 l i)

/-- A big-endian 16-bit value at offset `i` (R5, network order). -/
def be16 (l : List Byte) (i : Nat) : Word := (byteAt l i) ++ (byteAt l (i + 1))

/-- A big-endian 32-bit value at offset `i`. -/
def be32 (l : List Byte) (i : Nat) : W32 := (be16 l i) ++ (be16 l (i + 2))

/-- A number as `n` bytes, most significant first. -/
def beBytes (n v : Nat) : List Byte :=
  (List.range n).map (fun k => BitVec.ofNat 8 (v >>> (8 * (n - 1 - k))))

/-- A big-endian number of a byte list. -/
def beNat (l : List Byte) : Nat := l.foldl (fun a b => a * 256 + b.toNat) 0

/-- The data bytes of IMG_DATA: `n` bytes, first byte in bits [7:0] of the first word. -/
def wordBytes (l : List Word) (n : Nat) : List Byte :=
  (List.flatMap (fun (w : Word) => [w.setWidth 8, (w >>> 8).setWidth 8]) l).take n

/-! ### Check codes -/

/-- One bit of a reflected 32-bit CRC. -/
def crcBit (poly : W32) (c : W32) : W32 :=
  if c.getLsbD 0 then (c >>> 1) ^^^ poly else c >>> 1

/-- One byte of a reflected 32-bit CRC. -/
def crcByte (poly : W32) (c : W32) (b : Byte) : W32 :=
  let x := c ^^^ b.setWidth 32
  crcBit poly (crcBit poly (crcBit poly (crcBit poly (crcBit poly (crcBit poly (crcBit poly (crcBit poly x)))))))

/-- A reflected CRC with initial value and final XOR of all ones. -/
def crcOf (poly : W32) (l : List Byte) : W32 := (l.foldl (crcByte poly) 0xFFFFFFFF) ^^^ 0xFFFFFFFF

/-- CRC-32C of RFC 3720: the polynomial 0x1EDC6F41 reflected (R548). -/
def crc32c (l : List Byte) : W32 := crcOf 0x82F63B78 l

/-- CRC-32 of IEEE 802.3 and RFC 1952. -/
def crc32 (l : List Byte) : W32 := crcOf 0xEDB88320 l

/-- Adler-32 of RFC 1950. -/
def adler32 (l : List Byte) : W32 :=
  let (a, b) := l.foldl (fun (p : Nat × Nat) (x : Byte) =>
    let a := (p.1 + x.toNat) % 65521
    (a, (p.2 + a) % 65521)) (1, 0)
  BitVec.ofNat 32 (b * 65536 + a)

/-- Bits flipped in a byte list, bit i being bit i mod 8 of byte i / 8. -/
def flipBits (bits : List Nat) (l : List Byte) : List Byte :=
  bits.foldl (fun l i => l.set (i / 8) (byteAt l (i / 8) ^^^ BitVec.ofNat 8 (2 ^ (i % 8)))) l

end Sys2Proof.Machine
end

