-- ==== Sys2Proof/Machine/Hash.lean ====
section
/-! DEFINITION. SHA-256 (R123) and SHA-1 with its keyed form (R362): one shape for both, a sixteen-word window that the
rounds of a block slide over the message, the constants worked out from the roots that FIPS 180-4 takes them from. -/

namespace Sys2Proof.Machine

/-! ### Constants -/

/-- The largest r below 2^n with r^k ≤ v, above a part already found. -/
def rootFrom (k v : Nat) : Nat → Nat → Nat
  | 0, r => r
  | n + 1, r => rootFrom k v n (if (r + 2 ^ n) ^ k ≤ v then r + 2 ^ n else r)

/-- The first 32 bits after the point of the k-th root of a small number. -/
def rootBits (k p : Nat) : W32 := BitVec.ofNat 32 (rootFrom k (p * 2 ^ (32 * k)) 37 0)

/-- √p in units of 2⁻³⁰, for SHA-1. -/
def rootScaled (p : Nat) : W32 := BitVec.ofNat 32 (rootFrom 2 (p * 2 ^ 60) 37 0)

def isPrime (n : Nat) : Bool := decide (2 ≤ n) && (List.range n).all (fun d => d < 2 || n % d ≠ 0)

/-- The first 64 primes. -/
def smallPrimes : List Nat := (List.range 312).filter isPrime

/-- The 64 words added in the rounds of SHA-256, and the value it begins with. -/
def roundWords : List W32 := smallPrimes.map (rootBits 3)
def startWords : List W32 := (smallPrimes.take 8).map (rootBits 2)

/-! ### Blocks -/

/-- A message with its padding: a 1 bit, zeros, and its length in bits in the last eight bytes of a block of 64. -/
def padded (m : List Byte) : List Byte := m ++ (0x80 :: List.replicate ((119 - m.length % 64) % 64) 0) ++ beBytes 8 (8 * m.length)

/-- The sixteen words of a block. -/
def blockWords (l : List Byte) : List W32 := (List.range 16).map (fun i => be32 l (4 * i))

/-- One round after another: each takes the oldest word of the window, and `next` gives the word that enters it. -/
def slide {α : Type} (next : List W32 → W32) (round : α → List W32 → W32 → List W32) : List α → List W32 → List W32 → List W32
  | [], _, h => h
  | k :: ks, win, h => slide next round ks (win.drop 1 ++ [next win]) (round k h (win.getD 0 0))

/-- A hash over whole blocks: the rounds' result is added to what the blocks before gave. -/
def overBlocks (block : List W32 → List W32 → List W32) : Nat → List Byte → List W32 → List W32
  | 0, _, h => h
  | n + 1, l, h => overBlocks block n (l.drop 64) (List.zipWith (fun a b => a + b) h (block (blockWords l) h))

def hashWords (block : List W32 → List W32 → List W32) (start : List W32) (m : List Byte) : List W32 :=
  overBlocks block ((padded m).length / 64) (padded m) start

/-! ### SHA-256 -/

/-- A word rotated right by three amounts, the results added bit by bit without carry. -/
def rot3 (x : W32) (i j k : Nat) : W32 := x.rotateRight i ^^^ (x.rotateRight j ^^^ x.rotateRight k)

/-- Two rotations and a shift. -/
def rot2shift (x : W32) (i j k : Nat) : W32 := (x >>> k) ^^^ (x.rotateRight i ^^^ x.rotateRight j)

/-- Bit by bit: `y` where `x` is 1, else `z`; and what two of three say. -/
def pick (x y z : W32) : W32 := z ^^^ (x &&& (y ^^^ z))
def vote (x y z : W32) : W32 := (x &&& (y ||| z)) ||| (y &&& z)

/-- The word that enters the window. -/
def next256 (w : List W32) : W32 :=
  w.getD 0 0 + w.getD 9 0 + rot2shift (w.getD 1 0) 7 18 3 + rot2shift (w.getD 14 0) 17 19 10

/-- A round on the eight words of the state: they move on by one, two of them changed. -/
def round256 (k : W32) (h : List W32) (w : W32) : List W32 :=
  let x := fun (i : Nat) => h.getD i 0
  let t := k + w + x 7 + pick (x 4) (x 5) (x 6) + rot3 (x 4) 6 11 25
  let moved := h.take 7
  ((t + vote (x 0) (x 1) (x 2) + rot3 (x 0) 2 13 22) :: moved).set 4 (x 3 + t)

def sha256Words (m : List Byte) : List W32 := hashWords (slide next256 round256 roundWords) startWords m

/-- SHA-256 (R123). -/
def sha256 (m : List Byte) : BitVec 256 := BitVec.ofNat 256 ((sha256Words m).foldl (fun v w => v * 2 ^ 32 + w.toNat) 0)

/-! ### SHA-1 and HMAC (R362) -/

/-- The four quarters of SHA-1: their added word. -/
def quarterWord (t : Nat) : W32 := rootScaled (if t < 20 then 2 else if t < 40 then 3 else if t < 60 then 5 else 10)

/-- Their function of three words. -/
def quarterFn (t : Nat) (x y z : W32) : W32 := if t < 20 then pick x y z else if 40 ≤ t ∧ t < 60 then vote x y z else x ^^^ (y ^^^ z)

def next1 (w : List W32) : W32 := (w.getD 0 0 ^^^ w.getD 2 0 ^^^ w.getD 8 0 ^^^ w.getD 13 0).rotateLeft 1

def round1 (t : Nat) (h : List W32) (w : W32) : List W32 :=
  let x := fun (i : Nat) => h.getD i 0
  [w + quarterWord t + x 4 + quarterFn t (x 1) (x 2) (x 3) + (x 0).rotateLeft 5, x 0, (x 1).rotateRight 2, x 2, x 3]

def sha1 (m : List Byte) : List Byte :=
  (hashWords (slide next1 round1 (List.range 80)) [0x67452301, 0xEFCDAB89, 0x98BADCFE, 0x10325476, 0xC3D2E1F0] m).flatMap
    (fun w => beBytes 4 w.toNat)

/-- HMAC-SHA1 (RFC 2104) under a key of at most 64 bytes. -/
def hmacSha1 (key m : List Byte) : List Byte :=
  let pad := fun (b : Byte) => (List.range 64).map (fun i => byteAt key i ^^^ b)
  sha1 (pad 0x5C ++ sha1 (pad 0x36 ++ m))

end Sys2Proof.Machine
end

