-- ==== Sys2Proof/Machine/Codec.lean ====
section
/-! DEFINITION. Decoding of deflate data (RFC 1951) and its wrappers (RFC 1950, RFC 1952), as R123, R404 and R406
use them. Bits are taken from each byte least significant first. -/

namespace Sys2Proof.Machine

/-! ### Bits of a byte string -/

def byteBits (b : Byte) : List Bool := (List.range 8).map (fun i => b.getLsbD i)

def bitsOfBytes (l : List Byte) : List Bool := l.flatMap byteBits

/-- `n` bits as a number, first bit least significant; none where the input ends before. -/
def takeBits : Nat → List Bool → Option (Nat × List Bool)
  | 0, l => some (0, l)
  | _ + 1, [] => none
  | n + 1, b :: l =>
    match takeBits n l with
    | none => none
    | some (v, r) => some (b2n b + 2 * v, r)

/-! ### Huffman codes -/

/-- A canonical code: the number of codes of each length 1–15, and the symbols in code order. -/
structure Huff where
  counts : List Nat
  syms : List Nat
deriving DecidableEq, Repr

def huffOf (lens : List Nat) : Huff :=
  { counts := (List.range 15).map (fun k => (lens.filter (fun n => n = k + 1)).length),
    syms := (List.range 15).flatMap (fun k => (List.range lens.length).filter (fun i => lens.getD i 0 = k + 1)) }

/-- Codes left unused at length 15: negative for too many codes, 0 for a complete code. -/
def huffLeft (h : Huff) : Int := h.counts.foldl (fun (l : Int) (n : Nat) => 2 * l - n) 1

/-- A code of a block is complete, or has at most one symbol, of length 1. -/
def huffGood (h : Huff) : Bool := huffLeft h = 0 || (decide (0 < huffLeft h) && decide (h.syms.length ≤ 1) && h.counts.getD 0 0 = h.syms.length)

/-- How decoding of one item went: a value, input missing, or invalid data. -/
inductive Got (α : Type) where
  | val (a : α) (rest : List Bool)
  | more
  | bad
deriving Repr

def decodeSym (syms : List Nat) : List Nat → Nat → Nat → Nat → List Bool → Got Nat
  | [], _, _, _, _ => .bad
  | _ :: _, _, _, _, [] => .more
  | n :: counts, code, first, index, b :: l =>
    let code := code + b2n b
    if code < first + n then .val (syms.getD (index + (code - first)) 0) l
    else decodeSym syms counts (2 * code) (2 * (first + n)) (index + n) l

def nextSym (h : Huff) (l : List Bool) : Got Nat := decodeSym h.syms h.counts 0 0 0 l

/-- Length and distance codes of RFC 1951: base and extra bits. -/
def lenBase : List Nat :=
  [3, 4, 5, 6, 7, 8, 9, 10, 11, 13, 15, 17, 19, 23, 27, 31, 35, 43, 51, 59, 67, 83, 99, 115, 131, 163, 195, 227, 258]
def lenExtra : List Nat :=
  [0, 0, 0, 0, 0, 0, 0, 0, 1, 1, 1, 1, 2, 2, 2, 2, 3, 3, 3, 3, 4, 4, 4, 4, 5, 5, 5, 5, 0]
def distBase : List Nat :=
  [1, 2, 3, 4, 5, 7, 9, 13, 17, 25, 33, 49, 65, 97, 129, 193, 257, 385, 513, 769, 1025, 1537, 2049, 3073, 4097, 6145,
   8193, 12289, 16385, 24577]
def distExtra : List Nat :=
  [0, 0, 0, 0, 1, 1, 2, 2, 3, 3, 4, 4, 5, 5, 6, 6, 7, 7, 8, 8, 9, 9, 10, 10, 11, 11, 12, 12, 13, 13]

/-- A copy of `n` bytes from `d` back; the output is held newest byte first. -/
def copyBack (d : Nat) : Nat → List Byte → List Byte
  | 0, out => out
  | n + 1, out => copyBack d n (byteAt out (d - 1) :: out)

/-- Where a run of decoding stands: its state, the output so far (newest first), and the input left. -/
inductive InfSt where
  | block | final | more | bad
deriving DecidableEq, Repr

structure Inf where
  st : InfSt
  out : List Byte
  rest : List Bool
deriving DecidableEq, Repr

/-- One length and distance pair after symbol `s`. -/
def matchPair (dist : Huff) (s : Nat) (l : List Bool) (out : List Byte) : Got (List Byte) :=
  let k := s - 257
  if 28 < k then .bad
  else
    match takeBits (lenExtra.getD k 0) l with
    | none => .more
    | some (x, l) =>
      match nextSym dist l with
      | .more => .more
      | .bad => .bad
      | .val ds l =>
        if 29 < ds then .bad
        else
          match takeBits (distExtra.getD ds 0) l with
          | none => .more
          | some (y, l) =>
            let d := distBase.getD ds 0 + y
            if out.length < d then .bad else .val (copyBack d (lenBase.getD k 0 + x) out) l

/-- The symbols of one compressed block. -/
def inflateCodes (lit dist : Huff) : Nat → List Bool → List Byte → Inf
  | 0, l, out => ⟨.more, out, l⟩
  | n + 1, l, out =>
    match nextSym lit l with
    | .more => ⟨.more, out, l⟩
    | .bad => ⟨.bad, out, l⟩
    | .val s l' =>
      if s < 256 then inflateCodes lit dist n l' (BitVec.ofNat 8 s :: out)
      else if s = 256 then ⟨.block, out, l'⟩
      else
        match matchPair dist s l' out with
        | .more => ⟨.more, out, l⟩
        | .bad => ⟨.bad, out, l⟩
        | .val out' l' => inflateCodes lit dist n l' out'

/-- A stored block's bytes. -/
def storedBytes : Nat → List Bool → List Byte → Inf
  | 0, l, out => ⟨.block, out, l⟩
  | n + 1, l, out =>
    match takeBits 8 l with
    | none => ⟨.more, out, l⟩
    | some (v, l) => storedBytes n l (BitVec.ofNat 8 v :: out)

def inflateStored (l : List Bool) (out : List Byte) : Inf :=
  let l := l.drop (l.length % 8)
  match takeBits 16 l with
  | none => ⟨.more, out, l⟩
  | some (n, l1) =>
    match takeBits 16 l1 with
    | none => ⟨.more, out, l⟩
    | some (m, l2) => if n + m = 65535 then storedBytes n l2 out else ⟨.bad, out, l⟩

def fixedLit : Huff :=
  huffOf (List.replicate 144 8 ++ List.replicate 112 9 ++ List.replicate 24 7 ++ List.replicate 8 8)
def fixedDist : Huff := huffOf (List.replicate 30 5)

/-- The order of the code length codes. -/
def clOrder : List Nat := [16, 17, 18, 0, 8, 7, 9, 6, 10, 5, 11, 4, 12, 3, 13, 2, 14, 1, 15]

/-- The code lengths of the code length code, in transmission order. -/
def readCl : Nat → List Bool → List Nat → Option (List Nat × List Bool)
  | 0, l, acc => some (acc, l)
  | n + 1, l, acc =>
    match takeBits 3 l with
    | none => none
    | some (v, l) => readCl n l (acc ++ [v])

/-- The code lengths of a dynamic block. -/
def readLens (h : Huff) (total : Nat) : Nat → List Bool → List Nat → Got (List Nat)
  | 0, _, _ => .bad
  | n + 1, l, acc =>
    if total ≤ acc.length then (if acc.length = total then .val acc l else .bad)
    else
      match nextSym h l with
      | .more => .more
      | .bad => .bad
      | .val s l =>
        if s < 16 then readLens h total n l (acc ++ [s])
        else
          let (eb, base) := if s = 16 then (2, 3) else if s = 17 then (3, 3) else (7, 11)
          match takeBits eb l with
          | none => .more
          | some (x, l) =>
            if s = 16 && acc.isEmpty then .bad
            else readLens h total n l (acc ++ List.replicate (base + x) (if s = 16 then acc.getLastD 0 else 0))

/-- The two codes of a dynamic block. -/
def readCodes (l : List Bool) : Got (Huff × Huff) :=
  match takeBits 14 l with
  | none => .more
  | some (v, l) =>
    let hlit := v % 32 + 257
    let hdist := v / 32 % 32 + 1
    let hclen := v / 1024 + 4
    if 286 < hlit || 30 < hdist then .bad
    else
      match readCl hclen l [] with
      | none => .more
      | some (cl, l) =>
        let lens := (List.range 19).map (fun i => match clOrder.findIdx? (fun k => k = i) with
          | some j => cl.getD j 0
          | none => 0)
        let h := huffOf lens
        if huffLeft h ≠ 0 then .bad
        else
          match readLens h (hlit + hdist) (hlit + hdist + 1) l [] with
          | .more => .more
          | .bad => .bad
          | .val ls l =>
            let lit := huffOf (ls.take hlit)
            let dist := huffOf (ls.drop hlit)
            if huffGood lit && huffGood dist && ls.getD 256 0 ≠ 0 then .val (lit, dist) l else .bad

/-- One block after its header bits. -/
def inflateBlock (kind : Nat) (l : List Bool) (out : List Byte) : Inf :=
  match kind with
  | 0 => inflateStored l out
  | 1 => inflateCodes fixedLit fixedDist (l.length + 1) l out
  | 2 =>
    match readCodes l with
    | .more => ⟨.more, out, l⟩
    | .bad => ⟨.bad, out, l⟩
    | .val (lit, dist) l => inflateCodes lit dist (l.length + 1) l out
  | _ => ⟨.bad, out, l⟩

/-- Blocks until the final one, the end of the input or invalid data. -/
def inflateBlocks : Nat → List Bool → List Byte → Inf
  | 0, l, out => ⟨.more, out, l⟩
  | n + 1, l, out =>
    match takeBits 3 l with
    | none => ⟨.more, out, l⟩
    | some (v, l') =>
      let r := inflateBlock (v / 2) l' out
      match r.st with
      | .block => if v % 2 = 1 then { r with st := .final } else inflateBlocks n r.rest r.out
      | _ => r

/-- Raw deflate data after the bytes `before`, newest first. -/
def inflateAfter (before l : List Byte) : Inf := inflateBlocks (8 * l.length + 1) (bitsOfBytes l) before

/-! ### Streams with their wrappers -/

/-- What a stream's input gives: more input is needed, the stream has ended with so many bytes used, or it is in
error under a status of Table 15-4. -/
inductive Unpack where
  | more (out : List Byte)
  | done (out : List Byte) (used : Nat)
  | fail (status : Nat)
deriving DecidableEq, Repr

/-- The trailer after the deflate data, and its verdict. -/
def trailerOk (wrap : Nat) (out t : List Byte) : Bool :=
  match wrap with
  | 1 => be32 t 0 = adler32 out
  | 2 => le32 t 0 = crc32 out && le32 t 4 = BitVec.ofNat 32 out.length
  | _ => true

def trailerLen (wrap : Nat) : Nat := match wrap with
  | 1 => 4
  | 2 => 8
  | _ => 0

def unpackBody (wrap used : Nat) (l : List Byte) : Unpack :=
  let r := inflateAfter [] l
  match r.st with
  | .bad => .fail 3
  | .more | .block => .more r.out.reverse
  | .final =>
    let n := l.length - r.rest.length / 8
    let t := (l.drop n).take (trailerLen wrap)
    if t.length < trailerLen wrap then .more r.out.reverse
    else if trailerOk wrap r.out.reverse t then .done r.out.reverse (used + n + trailerLen wrap)
    else .fail 4

/-- The bytes after a zero-ended field. -/
def skipZ : List Byte → Option (List Byte)
  | [] => none
  | b :: l => if b = 0 then some l else skipZ l

/-- The optional fields of a gzip header: none for missing input. -/
def gzipFields (flg : Byte) (l : List Byte) : Option (List Byte) :=
  let a := if flg.getLsbD 2 then
      (if l.length < 2 ∨ (l.drop 2).length < (le16 l 0).toNat then none else some (l.drop (2 + (le16 l 0).toNat)))
    else some l
  let b := if flg.getLsbD 3 then a.bind skipZ else a
  if flg.getLsbD 4 then b.bind skipZ else b

def unpackGzip (l : List Byte) : Unpack :=
  if l.length < 10 then
    (if (0 < l.length ∧ byteAt l 0 ≠ 0x1F) ∨ (1 < l.length ∧ byteAt l 1 ≠ 0x8B) then .fail 3 else .more [])
  else if byteAt l 0 ≠ 0x1F ∨ byteAt l 1 ≠ 0x8B ∨ byteAt l 2 ≠ 8 ∨ fld (byteAt l 3) 5 3 ≠ 0 then .fail 3
  else
    match gzipFields (byteAt l 3) (l.drop 10) with
    | none => .more []
    | some r =>
      if (byteAt l 3).getLsbD 1 then
        if r.length < 2 then .more []
        else
          let h := l.take (l.length - r.length)
          if le16 r 0 = (crc32 h).setWidth 16 then unpackBody 2 (h.length + 2) (r.drop 2) else .fail 4
      else unpackBody 2 (l.length - r.length) r

def unpackZlib (l : List Byte) : Unpack :=
  if l.length < 2 then .more []
  else
    let cmf := (byteAt l 0).toNat
    let flg := (byteAt l 1).toNat
    if cmf % 16 ≠ 8 ∨ 7 < cmf / 16 ∨ (cmf * 256 + flg) % 31 ≠ 0 then .fail 3
    else if bitOf (byteAt l 1) 5 then .fail 9
    else unpackBody 1 2 (l.drop 2)

/-- A stream from its first byte (R406). WRAP: 0 raw, 1 zlib, 2 gzip. -/
def unpack (wrap : Nat) (l : List Byte) : Unpack :=
  match wrap with
  | 1 => unpackZlib l
  | 2 => unpackGzip l
  | _ => unpackBody 0 0 l

/-! ### Stored form -/

/-- Data as stored blocks from a byte boundary on; the last one final where asked. -/
def storedForm (fin : Bool) : Nat → List Byte → List Byte
  | 0, _ => []
  | n + 1, l =>
    if l.isEmpty then []
    else
      let c := l.take 65535
      let r := l.drop 65535
      let len : Word := BitVec.ofNat 16 c.length
      [if fin && r.isEmpty then 1 else 0, len.setWidth 8, (len >>> 8).setWidth 8, (~~~len).setWidth 8, ((~~~len) >>> 8).setWidth 8] ++ c ++ storedForm fin n r

/-! ### Compression (R402-R405) -/

/-- A job's blocks decode to exactly its input: with END 2 they end the stream, with END 1 they end in an empty
stored block. -/
def blocksValid (fin : Bool) (before data b : List Byte) : Bool :=
  let r := inflateAfter before.reverse b
  (r.out = data.reverse ++ before.reverse) &&
  (if fin then r.st = .final && decide (r.rest.length < 8) else r.st = .more && b.reverse.take 4 = [0xFF, 0xFF, 0, 0])

/-- The bound of R405 on the blocks of a job that ends. -/
def blocksBound (n : Nat) : Nat := n + 5 * cdiv n 65535 + 5

/-- The blocks of a job with END 1 or 2, after input `before` that has left the coder. The engine's choice among valid
encodings is a free value; the stored form stands where the free value is none of them. -/
def deflateBody (level endMode wrap : Nat) (before data : List Byte) : List Byte :=
  if data.isEmpty && endMode = 2 then [0x03, 0x00]
  else
    let c := Config.deflated level endMode wrap before.isEmpty before data
    if decide (c.length ≤ blocksBound data.length) && blocksValid (endMode = 2) before data c then c
    else storedForm (endMode = 2) (data.length + 1) data ++ (if endMode = 1 then [0, 0, 0, 0xFF, 0xFF] else [])

/-- The header of a stream (R404). -/
def wrapHeader (wrap level : Nat) : List Byte :=
  match wrap with
  | 1 => [0x78, if level = 1 then 0x01 else if level ≤ 5 then 0x5E else if level = 6 then 0x9C else 0xDA]
  | 2 => [0x1F, 0x8B, 0x08, 0, 0, 0, 0, 0, if level = 1 then 4 else if level = 9 then 2 else 0, 0xFF]
  | _ => []

/-- The check value of the data so far (Table 15-5). -/
def checkOf (wrap : Nat) (data : List Byte) : W32 :=
  match wrap with
  | 1 => adler32 data
  | 2 => crc32 data
  | _ => 0

/-- The trailer of a stream (R404). -/
def wrapTrailer (wrap : Nat) (data : List Byte) : List Byte :=
  match wrap with
  | 1 => beBytes 4 (adler32 data).toNat
  | 2 => bytes4 (crc32 data) ++ bytes4 (BitVec.ofNat 32 data.length)
  | _ => []

/-- A whole gzip stream of some data. -/
def gzipOf (level : Nat) (data : List Byte) : List Byte :=
  wrapHeader 2 level ++ deflateBody level 2 2 [] data ++ wrapTrailer 2 data

end Sys2Proof.Machine
end

