-- ==== Sys2Proof/Machine/Flags.lean ====
section
/-! DEFINITION. Arithmetic and its flags: floating-point formats (Table 11-2), truncation (R270, R294), the
operations of the M slot (R270-R272), the integer operations of the A slot and the ACS butterfly (R277).
Values are exact: a sign, a natural significand and a power of two. -/

namespace Sys2Proof.Machine

/-- A floating-point value: NaN, an infinity, or ± m · 2^e. -/
inductive FVal where
  | nan
  | inf (neg : Bool)
  | num (neg : Bool) (m : Nat) (e : Int)
deriving DecidableEq, Repr

/-- A format of Table 11-2. E4M3 has no infinity, and one NaN of each sign. -/
structure FFmt where
  ebits : Nat
  mbits : Nat
  bias : Nat
  ieee : Bool
deriving DecidableEq, Repr

def fmtE4M3 : FFmt := ⟨4, 3, 7, false⟩
def fmtE5M2 : FFmt := ⟨5, 2, 15, true⟩
def fmt16 : FFmt := ⟨5, 10, 15, true⟩
def fmt32 : FFmt := ⟨8, 23, 127, true⟩

/-- A format by its code. -/
def fmtOf (k : Nat) : FFmt :=
  match k with
  | 0 => fmtE4M3
  | 1 => fmtE5M2
  | 2 => fmt16
  | _ => fmt32

/-- Bytes of an element. -/
def fmtBytes (f : FFmt) : Nat := (f.ebits + f.mbits + 1) / 8

def FFmt.expOf (f : FFmt) (w : Nat) : Nat := w / 2 ^ f.mbits % 2 ^ f.ebits
def FFmt.manOf (f : FFmt) (w : Nat) : Nat := w % 2 ^ f.mbits
def FFmt.negOf (f : FFmt) (w : Nat) : Bool := w.testBit (f.ebits + f.mbits)

/-- A subnormal encoding. -/
def FFmt.subnormal (f : FFmt) (w : Nat) : Bool := f.expOf w = 0 && f.manOf w != 0

/-- The power of two of a format's smallest subnormal. -/
def FFmt.qmin (f : FFmt) : Int := 1 - (f.bias : Int) - (f.mbits : Int)

/-- The value that an encoding stands for (R292). -/
def FFmt.decode (f : FFmt) (w : Nat) : FVal :=
  let x := f.expOf w
  let m := f.manOf w
  let n := f.negOf w
  if f.ieee ∧ x = 2 ^ f.ebits - 1 then (if m = 0 then .inf n else .nan)
  else if ¬ f.ieee ∧ x = 2 ^ f.ebits - 1 ∧ m = 2 ^ f.mbits - 1 then .nan
  else if x = 0 then .num n m f.qmin
  else .num n (2 ^ f.mbits + m) (f.qmin + (x : Int) - 1)

def FFmt.signBit (f : FFmt) (neg : Bool) : Nat := if neg then 2 ^ (f.ebits + f.mbits) else 0

/-- The largest finite magnitude's encoding. -/
def FFmt.maxFinite (f : FFmt) : Nat :=
  if f.ieee then 2 ^ (f.ebits + f.mbits) - 2 ^ f.mbits - 1 else 2 ^ (f.ebits + f.mbits) - 2

/-- The encoding of an infinity, where the format has one. -/
def FFmt.infBits (f : FFmt) : Nat := 2 ^ (f.ebits + f.mbits) - 2 ^ f.mbits

/-- The NaN a conversion gives (R270, R293, R294): the quiet NaN, of which an E5M2 byte is the upper byte. -/
def FFmt.nanBits (f : FFmt) : Nat :=
  if f.ieee then f.infBits + 2 ^ (f.mbits - 1) else 2 ^ (f.ebits + f.mbits) - 1

/-- m · 2^k, truncated. -/
def scaleTrunc (m : Nat) (k : Int) : Nat := if 0 ≤ k then m * 2 ^ k.toNat else m / 2 ^ (-k).toNat

/-- What truncation gives: the encoding of the magnitude, whether it overflows, and whether it is subnormal. -/
structure Cut where
  bits : Nat
  ovf : Bool
  sub : Bool
deriving DecidableEq, Repr

/-- The magnitude m · 2^e truncated toward zero. Overflow is decided on the truncated magnitude (R294). -/
def FFmt.cut (f : FFmt) (m : Nat) (e : Int) : Cut :=
  if m = 0 then ⟨0, false, false⟩
  else
    let q := max (e + (Nat.log2 m : Int) - (f.mbits : Int)) f.qmin
    let t := scaleTrunc m (e - q)
    if t < 2 ^ f.mbits then ⟨t, false, t ≠ 0⟩
    else
      let b := ((q - f.qmin).toNat + 1) * 2 ^ f.mbits + (t - 2 ^ f.mbits)
      if f.maxFinite < b then ⟨f.maxFinite, true, false⟩ else ⟨b, false, false⟩

/-! ### binary32 operations with their flags (R270, R271) -/

/-- A binary32 result, and the sticky flags it sets. -/
structure FRes where
  w : W32
  fzs : Bool
  inv : Bool
  ovf : Bool
deriving DecidableEq, Repr

def nan32 : W32 := 0x7FC00000

/-- An operand as FZ reads it, and whether it was flushed. -/
def read32 (fz : Bool) (w : W32) : FVal × Bool :=
  if fz && fmt32.subnormal w.toNat then (.num (fmt32.negOf w.toNat) 0 0, true) else (fmt32.decode w.toNat, false)

/-- A value written as a result. -/
def write32 (fz : Bool) (v : FVal) : FRes :=
  match v with
  | .nan => ⟨nan32, false, false, false⟩
  | .inf n => ⟨BitVec.ofNat 32 (fmt32.signBit n + fmt32.infBits), false, false, false⟩
  | .num n m e =>
    let c := fmt32.cut m e
    if fz && c.sub then ⟨BitVec.ofNat 32 (fmt32.signBit n), true, false, false⟩
    else ⟨BitVec.ofNat 32 (fmt32.signBit n + c.bits), false, false, c.ovf⟩

/-- The result of an invalid operation. -/
def invalid32 : FRes := ⟨nan32, false, true, false⟩

def FVal.isNan : FVal → Bool
  | .nan => true
  | .inf _ => false
  | .num .. => false

def FVal.neg : FVal → FVal
  | .nan => .nan
  | .inf n => .inf (!n)
  | .num n m e => .num (!n) m e

/-- A signed exact number over 2^e. -/
def signed (n : Bool) (m : Nat) : Int := if n then -(m : Int) else m

/-- The exact sum; none when it is invalid. An exact zero of unlike signs is +0. -/
def FVal.add : FVal → FVal → Option FVal
  | .nan, _ => some .nan
  | _, .nan => some .nan
  | .inf a, .inf b => if a = b then some (.inf a) else none
  | .inf a, .num .. => some (.inf a)
  | .num .., .inf b => some (.inf b)
  | .num n1 m1 e1, .num n2 m2 e2 =>
    let e := min e1 e2
    let t := signed n1 (scaleTrunc m1 (e1 - e)) + signed n2 (scaleTrunc m2 (e2 - e))
    if t = 0 then some (.num (n1 && n2) 0 0) else some (.num (decide (t < 0)) t.natAbs e)

/-- The exact product; none when it is invalid. -/
def FVal.mul : FVal → FVal → Option FVal
  | .nan, _ => some .nan
  | _, .nan => some .nan
  | .inf a, .inf b => some (.inf (xor a b))
  | .inf a, .num b m _ => if m = 0 then none else some (.inf (xor a b))
  | .num a m _, .inf b => if m = 0 then none else some (.inf (xor a b))
  | .num n1 m1 e1, .num n2 m2 e2 => some (.num (xor n1 n2) (m1 * m2) (e1 + e2))

/-- A result from an exact value, none being invalid, with the flush of its operands. -/
def finish32 (fz flushed : Bool) (v : Option FVal) : FRes :=
  let r := match v with
    | some v => write32 fz v
    | none => invalid32
  { r with fzs := r.fzs || flushed }

/-- A two-operand operation: a NaN operand gives the quiet NaN without INV (R270). -/
def fop2 (op : FVal → FVal → Option FVal) (fz : Bool) (a b : W32) : FRes :=
  let (x, f1) := read32 fz a
  let (y, f2) := read32 fz b
  finish32 fz (f1 || f2) (op x y)

def fAdd : Bool → W32 → W32 → FRes := fop2 FVal.add
def fSub : Bool → W32 → W32 → FRes := fop2 (fun x y => x.add y.neg)
def fMul : Bool → W32 → W32 → FRes := fop2 FVal.mul

/-- FMAC and FMSUB: the product is exact and the one rounding applies to the sum (R270). -/
def fFused (negate fz : Bool) (a b c : W32) : FRes :=
  let (x, f1) := read32 fz a
  let (y, f2) := read32 fz b
  let (z, f3) := read32 fz c
  let fl := f1 || f2 || f3
  if z.isNan then finish32 fz fl (some .nan)
  else
    match x.mul y with
    | none => finish32 fz fl none
    | some p => finish32 fz fl ((if negate then p.neg else p).add z)

/-- x < y for values that are not NaN; −0 and +0 are equal. -/
def FVal.lt : FVal → FVal → Bool
  | .nan, _ => false
  | _, .nan => false
  | .inf a, .inf b => a && !b
  | .inf a, .num .. => a
  | .num .., .inf b => !b
  | .num n1 m1 e1, .num n2 m2 e2 =>
    let e := min e1 e2
    decide (signed n1 (scaleTrunc m1 (e1 - e)) < signed n2 (scaleTrunc m2 (e2 - e)))

def FVal.isNeg : FVal → Bool
  | .nan => false
  | .inf n => n
  | .num n _ _ => n

/-- The lesser; −0 is below +0. -/
def FVal.pickMin (x y : FVal) : FVal :=
  if x.isNan || y.isNan then .nan else if x.lt y then x else if y.lt x then y else if x.isNeg then x else y

def FVal.pickMax (x y : FVal) : FVal :=
  if x.isNan || y.isNan then .nan else if x.lt y then y else if y.lt x then x else if x.isNeg then y else x

def fMin : Bool → W32 → W32 → FRes := fop2 (fun x y => some (x.pickMin y))
def fMax : Bool → W32 → W32 → FRes := fop2 (fun x y => some (x.pickMax y))

def FVal.abs : FVal → FVal
  | .nan => .nan
  | .inf _ => .inf false
  | .num _ m e => .num false m e

def fop1 (op : FVal → FVal) (fz : Bool) (a : W32) : FRes :=
  let (x, f) := read32 fz a
  finish32 fz f (some (op x))

def fAbs : Bool → W32 → FRes := fop1 FVal.abs
def fNeg : Bool → W32 → FRes := fop1 FVal.neg

/-- The flags of FCMP: LT, EQ and UN, and whether an operand was flushed (R272). -/
def fCmp (fz : Bool) (a b : W32) : Bool × Bool × Bool × Bool :=
  let (x, f1) := read32 fz a
  let (y, f2) := read32 fz b
  let un := x.isNan || y.isNan
  (x.lt y, !un && !x.lt y && !y.lt x, un, f1 || f2)

/-! ### FCVT (R272) -/

def i16ToF32 (a : W32) : FRes :=
  let v := (a.setWidth 16).toInt
  write32 false (.num (decide (v < 0)) v.natAbs 0)

/-- binary32 to int16: truncating, saturating; NaN gives 0 and INV. -/
def f32ToI16 (fz : Bool) (a : W32) : FRes :=
  let (x, f) := read32 fz a
  match x with
  | .nan => ⟨0, f, true, false⟩
  | .inf n => ⟨BitVec.ofInt 32 (if n then -32768 else 32767), f, false, false⟩
  | .num n m e =>
    let v := signed n (scaleTrunc m e)
    ⟨BitVec.ofInt 32 (if v < -32768 then -32768 else if 32767 < v then 32767 else v), f, false, false⟩

/-- binary32 to binary16 in bits [15:0]: truncating, an overflow giving ±65,504 and OVF. -/
def f32ToF16 (fz : Bool) (a : W32) : Word × Bool × Bool :=
  let (x, f) := read32 fz a
  match x with
  | .nan => (BitVec.ofNat 16 fmt16.nanBits, f, false)
  | .inf n => (BitVec.ofNat 16 (fmt16.signBit n + fmt16.infBits), f, false)
  | .num n m e =>
    let c := fmt16.cut m e
    (BitVec.ofNat 16 (fmt16.signBit n + c.bits), f, c.ovf)

def f16ToF32 (a : W32) : FRes := write32 false (fmt16.decode (a.setWidth 16).toNat)

/-! ### Integer operations of the A slot -/

/-- The result of an integer operation; none for a shift by the width or more, which the manual does not give. -/
def intFn {w : Nat} (fn : IntFn) (a b : BitVec w) : Option (BitVec w) :=
  match fn with
  | .add => some (a + b)
  | .sub => some (a - b)
  | .and => some (a &&& b)
  | .or => some (a ||| b)
  | .xor => some (a ^^^ b)
  | .shl => if b.toNat < w then some (a <<< b.toNat) else none
  | .shr => if b.toNat < w then some (a >>> b.toNat) else none
  | .sar => if b.toNat < w then some (a.sshiftRight b.toNat) else none

/-! ### The ACS butterfly (R277, R278) -/

/-- An old metric after the normalisation of NB, and whether it was clamped. -/
def acsOld (nb : Bool) (o : Nat) : Nat × Bool :=
  if nb then (if o < 0x4000 then (0, true) else (o - 0x4000, false)) else (o, false)

/-- A saturating sum of 16-bit metrics. -/
def acsSum (o l : Nat) : Nat × Bool := if 0xFFFF < o + l then (0xFFFF, true) else (o + l, false)

/-- One butterfly: the new metrics, the decisions for a and b, and whether SAT is set. -/
structure Butterfly where
  a : Nat
  b : Nat
  da : Bool
  db : Bool
  sat : Bool
deriving DecidableEq, Repr

def butterfly (nb : Bool) (s b : W32) : Butterfly :=
  let (o0, c0) := acsOld nb (fld s 0 16)
  let (o1, c1) := acsOld nb (fld s 16 16)
  let (x00, t0) := acsSum o0 (fld b 0 16)
  let (x11, t1) := acsSum o1 (fld b 16 16)
  let (x01, t2) := acsSum o0 (fld b 16 16)
  let (x10, t3) := acsSum o1 (fld b 0 16)
  ⟨min x00 x11, min x01 x10, decide (x11 < x00), decide (x10 < x01), c0 || c1 || t0 || t1 || t2 || t3⟩

end Sys2Proof.Machine
end

