-- ==== Sys2Proof/Machine/IsmBytes.lean ====
section
/-! DEFINITION. Ismorlink frames as bytes (R5, R6, R436): the header of Table 17-3, the payloads of Tables 17-5 and 17-6, and
the CRC-32C, all in network order. The manual names the fields of the other payloads and gives no layout for them. -/

namespace Sys2Proof.Machine

/-- TYPE and CLASS of a frame (Table 17-4). -/
def ismType : IsmBody → BitVec 4 × Nat
  | .link _ => (1, 0)
  | .heartbeat .. => (2, 0)
  | .sync _ => (3, 0)
  | .delayReq _ => (3, 0)
  | .delayResp _ => (3, 0)
  | .searchBegin _ => (4, 1)
  | .query .. => (4, 1)
  | .claim .. => (4, 1)
  | .mark _ => (4, 1)
  | .searchEnd => (4, 1)
  | .searchReply _ => (5, 1)
  | .address .. => (6, 1)
  | .mgmtReq .. => (7, 1)
  | .mgmtRsp .. => (8, 1)
  | .event r => (9, if arg r 0 >>> 8 = 4 then 0 else 1)
  | .attach _ => (0xA, 0)
  | .loss .. => (0xA, 0)
  | .move .. => (0xA, 0)
  | .hbLoss _ => (0xA, 0)
  | .missed _ => (0xA, 0)
  | .addrAck .. => (0xA, 0)
  | .conflict .. => (0xA, 0)
  | .ping _ => (0xB, 1)
  | .pingReply .. => (0xC, 1)
  | .bcast .. => (0xD, 2)
  | .bcastReply _ => (0xE, 1)

/-- Table 17-6. -/
def heartbeatBytes (seq : Word) (state : BitVec 4) (ok safe test : Bool) : List Byte :=
  beBytes 2 seq.toNat ++ [pack 8 [(state.toNat, 0), (b2n ok, 4), (b2n safe, 5), (b2n test, 6)], 0]

/-- Table 17-5. -/
def replyBytes (a : SearchAnswer) : List Byte :=
  beBytes 2 a.qid.toNat ++ beBytes 2 a.mask.toNat ++ beBytes 8 a.uid.toNat ++ beBytes 8 a.parentUid.toNat ++
  [a.parentPort.setWidth 8, a.depth] ++ beBytes 2 a.lpv.toNat

/-- The payload of a frame. -/
def payloadBytes : IsmBody → List Byte
  | .heartbeat seq state ok safe test => heartbeatBytes seq state ok safe test
  | .searchReply a => replyBytes a
  | b => Config.ismPayload b

/-- Bytes 0-11 (Table 17-3), for a payload of `n` bytes. -/
def headerBytes (f : IsmFrame) (n : Nat) : List Byte :=
  let t := ismType f.body
  [pack 8 [(t.1.toNat, 4), (t.2, 2), (b2n f.noaddr, 1)], f.hops.setWidth 8] ++ beBytes 2 n ++ beBytes 2 f.dest.toNat ++
  beBytes 2 f.src.toNat ++ beBytes 2 f.lseq.toNat ++ beBytes 2 f.ctx.toNat

/-- Bytes followed by their CRC-32C. -/
def withCrc (l : List Byte) : List Byte := l ++ beBytes 4 (crc32c l).toNat

/-- A frame as it goes on the line. -/
def ismBytes (f : IsmFrame) : List Byte :=
  let p := payloadBytes f.body
  withCrc (headerBytes f p.length ++ p)

/-- Bits of a frame flipped (Table 20-3): its CRC as it was, or computed anew. -/
def corruptIsm (bits : List Nat) (recalc : Bool) (l : List Byte) : List Byte :=
  let g := flipBits bits l
  if recalc then withCrc (g.take (g.length - 4)) else g

/-- The body of an altered frame whose CRC is good: none for a reserved type. A payload whose layout is not given says what
nobody can name. -/
def bodyOf (was : IsmBody) (t : BitVec 4) (l : List Byte) : Option IsmBody :=
  if t = 0 ∨ t = 0xF then none
  else if t = (ismType was).1 ∧ l = payloadBytes was then some was
  else if t = 2 ∧ l.length = 4 then
    let b := byteAt l 2
    some (.heartbeat (be16 l 0) (b.setWidth 4) (bitOf b 4) (bitOf b 5) (bitOf b 6))
  else if t = 5 ∧ l.length = 24 then
    let claim := match was with
      | .searchReply a => a.claim
      | _ => false
    some (.searchReply ⟨be16 l 0, claim, be16 l 2, BitVec.ofNat 64 (beNat ((l.drop 4).take 8)),
      BitVec.ofNat 64 (beNat ((l.drop 12).take 8)), (byteAt l 20).setWidth 2, byteAt l 21, be16 l 22⟩)
  else Config.ismMeaning t l

/-- A frame read from altered bytes. -/
def ismOfBytes (was : IsmFrame) (l : List Byte) : Option IsmFrame :=
  let b0 := byteAt l 0
  (bodyOf was.body ((b0 >>> 4).setWidth 4) ((l.drop 12).take (l.length - 16))).map (fun b =>
    { dest := be16 l 4, src := be16 l 6, noaddr := bitOf b0 1, hops := (byteAt l 1).setWidth 7, lseq := be16 l 8,
      ctx := be16 l 10, body := b })

end Sys2Proof.Machine
end

