-- ==== Sys2Proof/Machine/Ops.lean ====
section
/-! DEFINITION. Operations every block uses: internal memory, the facts of the variant, ceilings and
admitted load, what the pins show, Ismorlink frames leaving a port, and raising an event. -/

namespace Sys2Proof.Machine

/-! ### Internal memory -/

/-- The byte at an internal address; an unlisted address reads 0 (log entry 3). -/
def memRead (m : List Host.Cell) (a : Nat) : Byte :=
  match m with
  | [] => 0
  | (a', b) :: r => if a' = a then b else memRead r a

/-- One byte written, keeping the canonical form: addresses rising, no zero byte listed. -/
def memWrite (m : List Host.Cell) (a : Nat) (b : Byte) : List Host.Cell :=
  match m with
  | [] => if b = 0 then [] else [(a, b)]
  | (a', b') :: r =>
    if a < a' then (if b = 0 then (a', b') :: r else (a, b) :: (a', b') :: r)
    else if a = a' then (if b = 0 then r else (a, b) :: r)
    else (a', b') :: memWrite r a b

/-- The canonical form: addresses strictly rising, no entry equal to what an unlisted address reads as. -/
abbrev Memory.wf (m : List Host.Cell) : Prop :=
  m.Pairwise (fun x y => x.1 < y.1) ∧ ∀ x ∈ m, x.2 ≠ 0

/-- Consecutive bytes written from address `a` on. -/
def memWriteList (m : List Host.Cell) (a : Nat) (l : List Byte) : List Host.Cell :=
  match l with
  | [] => m
  | b :: r => memWriteList (memWrite m a b) (a + 1) r

/-- `n` bytes from address `a` on. -/
def memReadList (m : List Host.Cell) (a n : Nat) : List Byte :=
  (List.range n).map (fun k => memRead m (a + k))

/-- A 32-bit word, little-endian (R5). -/
def memRead32 (m : List Host.Cell) (a : Nat) : W32 :=
  memRead m (a + 3) ++ memRead m (a + 2) ++ memRead m (a + 1) ++ memRead m a

/-- A 32-bit word written, little-endian; bit i of `be` enables byte a + i (R167). -/
def memWrite32 (m : List Host.Cell) (a : Nat) (v : W32) (be : BitVec 4) : List Host.Cell :=
  let m := if be.getLsbD 0 then memWrite m a (v.setWidth 8) else m
  let m := if be.getLsbD 1 then memWrite m (a + 1) ((v >>> 8).setWidth 8) else m
  let m := if be.getLsbD 2 then memWrite m (a + 2) ((v >>> 16).setWidth 8) else m
  if be.getLsbD 3 then memWrite m (a + 3) ((v >>> 24).setWidth 8) else m

def State.withMem (s : State) (m : List Host.Cell) : State := { s with mem := m }

/-- X 0xFF30–0xFF3F of a voice core, which reads as zero (Table 10-9). -/
def reservedX (a : Nat) : Bool :=
  decide (0x2000000000 ≤ a) && decide (a < 0x2008000000) && decide (0x1FF30 ≤ a % 0x100000) && decide (a % 0x100000 < 0x1FF40)

/-- A 32-bit word as a load, a DMA or the aperture reads it. -/
def readWord (s : State) (a : Nat) : W32 := if reservedX a then 0 else memRead32 s.mem a

/-- Bytes stored at an internal address. -/
def store (s : State) (a : Nat) (l : List Byte) : State := s.withMem (memWriteList s.mem a l)

/-- Bytes read at an internal address. -/
def fetch (s : State) (a n : Nat) : List Byte := memReadList s.mem a n

/-! Bases of Table 06-7. -/
def coreBase (n : Nat) : Nat := 0x2000000000 + n * 0x100000
def cellBase (i : Nat) : Nat := 0x3000000000 + i * 256
def tensorBase (e : Nat) : Nat := 0x3100000000 + e * 0x400000

/-! ### Status codes (Table 07-2) -/

def stOk : Word := 0x0000
def stAccepted : Word := 0x0001
def stBadOpcode : Word := 0x0100
def stBadLength : Word := 0x0101
def stBadParam : Word := 0x0102
def stBadState : Word := 0x0103
def stBusy : Word := 0x0200
def stBusyTraffic : Word := 0x0201
def stNoResource : Word := 0x0202
def stPowerLimit : Word := 0x0203
def stVersion : Word := 0x0300
def stSignature : Word := 0x0301
def stRollback : Word := 0x0302
def stSafetyLock : Word := 0x0400
def stKeyRequired : Word := 0x0401
def stTimeout : Word := 0x0500
def stUnreachable : Word := 0x0501
def stSchedFull : Word := 0x0502

/-! ### State updates, one per block -/

def State.setBoot (s : State) (b : Boot) : State := { s with boot := b }
def State.setPwr (s : State) (p : Power) : State := { s with pwr := p }
def State.setTherm (s : State) (t : Thermal) : State := { s with therm := t }
def State.setPins (s : State) (p : Pins) : State := { s with pins := p }
def State.setClk (s : State) (c : Clocks) : State := { s with clk := c }
def State.setHost (s : State) (h : HostPort) : State := { s with host := h }
def State.setCmds (s : State) (c : Commands) : State := { s with cmds := c }
def State.setLed (s : State) (l : Ledger) : State := { s with led := l }
def State.setSch (s : State) (x : Sched) : State := { s with sch := x }
def State.setQm (s : State) (q : Queues) : State := { s with qm := q }
def State.setVcs (s : State) (v : AL CoreNo Core) : State := { s with vcs := v }
def State.setTen (s : State) (t : Tensor) : State := { s with ten := t }
def State.setSw (s : State) (x : Switch) : State := { s with sw := x }
def State.setTdm (s : State) (t : List Highway) : State := { s with tdm := t }
def State.setTim (s : State) (t : TimeUnit) : State := { s with tim := t }
def State.setDfl (s : State) (d : Deflate) : State := { s with dfl := d }
def State.setUarts (s : State) (u : List Uart) : State := { s with uarts := u }
def State.setIsm (s : State) (i : Ismorlink) : State := { s with ism := i }
def State.setSaf (s : State) (x : Safety) : State := { s with saf := x }
def State.setCal (s : State) (c : Calib) : State := { s with cal := c }
def State.setFi (s : State) (f : Inject) : State := { s with fi := f }
def State.setPending (s : State) (q : List Instr) : State := { s with pending := q }

/-- A fresh free value: the count advances, and the caller applies an opaque constant to the old count. -/
def State.draw (s : State) : State := { s with free := s.free + 1 }

/-- `n` of them. -/
def State.drawN (n : Nat) (s : State) : State := { s with free := s.free + n }

/-! ### The variant -/

def channelLimit (s : State) : Nat :=
  match s.hw.variant with
  | .fg8192 => 8192
  | .fg4096 => 4096

def coreCount (s : State) : Nat := channelLimit s / 64

def engineCount (s : State) : Nat :=
  match s.hw.variant with
  | .fg8192 => 2
  | .fg4096 => 1

def corePresent (s : State) (n : CoreNo) : Bool := n.toNat < coreCount s
def enginePresent (s : State) (e : BitVec 1) : Bool := e.toNat < engineCount s

/-- The reference channels of one degree of derating and of one guard step (R52, R59). -/
def derateStep (s : State) : Nat := channelLimit s / 16

/-! ### Module state -/

/-- HSTAT.STATE codes (Table 00-4). -/
def modeCode : Mode → BitVec 4
  | .reset => 1
  | .boot => 2
  | .recovery => 3
  | .ready => 4
  | .run => 5
  | .degraded => 6
  | .safe => 7
  | .held => 8
  | .standby => 9

def State.mode (s : State) : Mode := s.boot.mode

def setMode (m : Mode) (s : State) : State := s.setBoot { s.boot with mode := m }

/-- READY, RUN, DEGRADED and HELD: the states of Table 03-4 in which the equipment pins are driven; SAFE drives them too. -/
def inService (s : State) : Bool :=
  match s.mode with
  | .ready | .run | .degraded | .held => true
  | _ => false

/-- RUN or DEGRADED, where channels may be created (R145). -/
def traffic (s : State) : Bool :=
  match s.mode with
  | .run | .degraded => true
  | _ => false

def isSummit (s : State) : Bool := s.pins.straps = 2

/-! ### Cores, engines and withdrawals (R144) -/

def coreDefault : CoreSt :=
  { point := .p10, target := .p10, busy := none, flow := 0, draining := false, drained := false,
    withdrawn := false, faults := 0 }

def getCore (s : State) (n : CoreNo) : CoreSt := alGet s.sch.cores n coreDefault

def putCore (n : CoreNo) (c : CoreSt) (s : State) : State :=
  s.setSch { s.sch with cores := alSet s.sch.cores n c }

def coresWithdrawn (s : State) : Nat :=
  (s.sch.cores.filter (fun e => e.2.withdrawn && corePresent s e.1)).length

def coresDrained (s : State) : Nat :=
  (s.sch.cores.filter (fun e => e.2.drained && corePresent s e.1)).length

def engineGone (s : State) (e : BitVec 1) : Bool := if e = 0 then s.sch.te0Gone else s.sch.te1Gone

/-- Present and not withdrawn. -/
def engineUp (s : State) (e : BitVec 1) : Bool := enginePresent s e && !engineGone s e

def enginesUp (s : State) : Nat := b2n (engineUp s 0) + b2n (engineUp s 1)

/-- HSTAT.WDRN: a core, an engine or a function is withdrawn (R144). -/
def wdrn (s : State) : Bool :=
  coresWithdrawn s != 0 || (enginePresent s 0 && s.sch.te0Gone) || (enginePresent s 1 && s.sch.te1Gone) ||
  s.clk.uartLost || s.clk.deflateLost || s.clk.cryptoLost || s.clk.hostLost

/-! ### Power and the ceilings -/

def srcOf (s : State) : PowerIn → PSource
  | .ac => s.pwr.ac
  | .dc => s.pwr.dc
  | .poe => s.pwr.poe

def putSrc (p : PowerIn) (x : PSource) (s : State) : State :=
  match p with
  | .ac => s.setPwr { s.pwr with ac := x }
  | .dc => s.setPwr { s.pwr with dc := x }
  | .poe => s.setPwr { s.pwr with poe := x }

/-- The preference order of an SRC_PREF code (Table 02-9). -/
def prefOrder (c : BitVec 3) : List PowerIn :=
  match c.toNat with
  | 0 => [.ac, .dc, .poe]
  | 1 => [.ac, .poe, .dc]
  | 2 => [.dc, .ac, .poe]
  | 3 => [.dc, .poe, .ac]
  | 4 => [.poe, .ac, .dc]
  | _ => [.poe, .dc, .ac]

/-- The active source: the valid source highest in the preference order (R45); none in hold-up. -/
def activeSrc (s : State) : Option PowerIn :=
  (prefOrder s.pwr.srcPref).find? (fun p => (srcOf s p).valid)

def poeOnly (s : State) : Bool := s.pwr.poe.valid && !s.pwr.ac.valid && !s.pwr.dc.valid

/-- Table 02-3: the power-source ceiling on PoE alone. -/
def poeCeil (s : State) : Nat :=
  min (channelLimit s)
    (match s.pwr.poeClass.toNat with
     | 8 => 6144
     | 7 => 5120
     | 6 => 4096
     | 5 => 3072
     | _ => 0)

/-- The power-source ceiling of R50 and R54: unchanged while no source is valid. -/
def srcCeilNow (s : State) : Nat :=
  if s.pwr.ac.valid || s.pwr.dc.valid then channelLimit s
  else if s.pwr.poe.valid then poeCeil s
  else s.pwr.srcCeil

/-- The power guard's limit: the power-source ceiling less its steps (R52). -/
def guardCeil (s : State) : Nat := s.pwr.srcCeil - s.pwr.guardSteps * derateStep s

def coreCeil (s : State) : Nat := 64 * (coreCount s - coresWithdrawn s)

/-- The effective ceiling of R29. A power-sense run holds it (R508). -/
def effCeil (s : State) : Nat :=
  match s.pwr.held with
  | some c => c
  | none => min (min (channelLimit s) (guardCeil s)) (min s.therm.ceil (coreCeil s))

def luCeil (s : State) : Nat := 16 * effCeil s

/-- The tensor ceiling of R29. -/
def tuCeil (s : State) : Nat :=
  min (8192 * engineCount s * effCeil s / channelLimit s) (8192 * enginesUp s)

/-- An engine's share of the tensor ceiling (R28). -/
def engineShare (s : State) : Nat := if enginesUp s = 0 then 0 else tuCeil s / enginesUp s

def sumOf {α : Type} (f : α → Nat) (l : List α) : Nat := l.foldl (fun n x => n + f x) 0

def luChans (s : State) : Nat := sumOf Chan.lu s.led.chans
def luAdmitted (s : State) : Nat := luChans s + sumOf (fun r => r.2) s.led.resv
def tuAdmitted (s : State) : Nat := sumOf Chan.tu s.led.chans
def tuOn (s : State) (e : BitVec 1) : Nat := sumOf Chan.tu (s.led.chans.filter (fun c => c.te = e))

/-- PWR_LIMIT.WHY (R68): of the limits equal to CEIL, the first of guard, source, thermal and capacity. -/
def limitWhy (s : State) : BitVec 2 :=
  let c := effCeil s
  if s.pwr.guardSteps ≠ 0 ∧ guardCeil s = c then 3
  else if s.pwr.srcCeil = c then 1
  else if s.therm.ceil = c then 2
  else 0

/-- The ceiling registers have left their reset values. R68 sets PWR_LIMIT during BOOT and gives no moment: the model takes
the result of the first power-on BIST after RESET (DESIGN CHOICE, log entry 81). -/
def limitsSet (s : State) : Bool := s.boot.limitsOn && s.mode != .reset

/-- PWR_LIMIT (R68). -/
def pwrLimit (s : State) : Word := if limitsSet s then pack 16 [(effCeil s, 0), ((limitWhy s).toNat, 14)] else 0

/-- PWR_STAT (Table 02-8). -/
def pwrStat (s : State) : Word :=
  let act : Nat := match activeSrc s with
    | none => 0
    | some .ac => 1
    | some .dc => 2
    | some .poe => 3
  let mps := s.pwr.poe.valid && activeSrc s != some .poe
  pack 16 [(b2n s.pwr.ac.valid, 0), (b2n s.pwr.dc.valid, 1), (b2n s.pwr.poe.valid, 2), (act, 4),
    (if s.pwr.poe.valid then s.pwr.poeClass.toNat else 0, 6), (b2n s.pwr.pwrfail, 10), (b2n mps, 11),
    (b2n (s.pwr.guardSteps != 0), 12), (s.pwr.srcPref.toNat, 13)]

/-! ### What the pins show -/

/-- The alarm contact is closed (R63): in READY, RUN, DEGRADED and HELD, but for step 6 of PROOF_TEST. -/
def alarmClosed (s : State) : Bool := s.pwr.powered && inService s && !s.pins.proofStep6

/-- J1 outputs are enabled (R75, R530). -/
def j1Enabled (s : State) : Bool := s.pins.vioClass33.isSome && s.pins.vioIn

/-- The host reaches the host port: the port is live, and J1 is enabled (R81, R153). -/
def hostUp (s : State) : Bool := s.host.live && j1Enabled s

/-- FAULT# is low (R80). -/
def faultLow (s : State) : Bool := s.pwr.powered && j1Enabled s && !alarmClosed s

/-- The pins of Table 03-4 driven in READY, RUN, DEGRADED, HELD and SAFE. -/
def pinsActive (s : State) : Bool := (inService s || s.mode = .safe) && j1Enabled s

/-- The Ismorlink bypass is closed (R89): unpowered, in RESET, and until the link layer starts. -/
def bypassClosed (s : State) : Bool := !s.pwr.powered || s.mode = .reset || !s.boot.linkLayer

/-- PWRFAIL# is driven low (R75, R82). -/
def pwrfailLow (s : State) : Bool := s.pwr.powered && j1Enabled s && s.pwr.pwrfail

/-! ### Channels -/

def findChan (s : State) (c : ChanNo) : Option Chan := s.led.chans.find? (fun x => x.no = c)

/-- A channel's record replaced. -/
def putChan (x : Chan) (s : State) : State :=
  s.setLed { s.led with chans := s.led.chans.map (fun y => if y.no = x.no then x else y) }

/-- A channel's record changed, where it exists. -/
def modChan (c : ChanNo) (f : Chan → Chan) (s : State) : State :=
  s.setLed { s.led with chans := s.led.chans.map (fun y => if y.no = c then f y else y) }

def downFlow (c : ChanNo) : Word := BitVec.ofNat 16 (2 * c.toNat)
def upFlow (c : ChanNo) : Word := BitVec.ofNat 16 (2 * c.toNat + 1)
def ingressQ (c : ChanNo) : QueueNo := BitVec.ofNat 15 (2 * c.toNat)
def egressQ (c : ChanNo) : QueueNo := BitVec.ofNat 15 (2 * c.toNat + 1)

/-- An identity tag (Table 01-3). -/
def mkTag (c : ChanNo) (up : Bool) (seq : Byte) (seed : BitVec 10) : W32 :=
  pack 32 [(c.toNat, 0), (b2n up, 13), (seq.toNat, 14), (seed.toNat, 22)]

def tagChan (t : W32) : ChanNo := t.setWidth 13
def tagUp (t : W32) : Bool := t.getLsbD 13
def tagSeq (t : W32) : Byte := (t >>> 14).setWidth 8
def tagSeed (t : W32) : BitVec 10 := (t >>> 22).setWidth 10

/-- The tag with SEED set to 0: a poisoned tag (R465, R466). -/
def poison (t : W32) : W32 := t &&& 0x003FFFFF

/-- A trace record joins the current segment (R525). -/
def traceRecord (r : List Word) (s : State) : State :=
  if s.fi.stopped then s else s.setFi { s.fi with segment := s.fi.segment ++ [r] }

/-- The aperture's timestamp: the time counter (R378). -/
def now (s : State) : W32 := s.tim.counter

/-! ### The grid (R377) -/

/-- The place of the grid in ns: the phase counter with the seconds it has counted, steps included (R376, R388). -/
def gridNs (t : TimeUnit) : Int := t.secs * 1000000000 + t.phase

/-- The sub-grid step reached last: an edge falls at every multiple of 5,000 ns of phase (R377). -/
def gridStep (t : TimeUnit) : Int := gridNs t / 5000

/-- Time-clock cycles of 2 ns since power was applied. -/
def uptime (s : State) : Nat := s.tim.up

/-! ### Injection points (R516-R518) -/

def fiPoint (s : State) (p : Word) : Option FiPoint :=
  match alFind s.fi.points p with
  | some x => if x.armed then some x else none
  | none => none

def putFi (p : Word) (x : FiPoint) (s : State) : State :=
  s.setFi { s.fi with points := alSet s.fi.points p x }

/-- Whether the trigger fires on unit `x.units` (R517). -/
def fiFires (p : Word) (x : FiPoint) : Bool :=
  if x.pattern then x.rate.getLsbD (x.units % 32)
  else decide ((Config.fiDraw p x.units 0).toNat < x.rate.toNat)

/-- The injection record of a unit acted on: code 0xF0, POINT, unit count and time (R525). -/
def fiTrace (p : Word) (x : FiPoint) (s : State) : State :=
  traceRecord ([(0xF0 : Byte) ++ (6 : Byte), p] ++ words2 (BitVec.ofNat 32 x.units) ++ words2 (now s)) s

/-- What an injection point does with a unit. -/
inductive FiAct where
  | pass
  | drop
  | corrupt (bits : Nat) (unit : Nat) (recalc : Bool)
  | hold
  | release (l : List HeldUnit)
deriving DecidableEq, Repr

/-- Group size of REORDER: the four bits hold 2-15, and 0 for 16 (Table 20-3; log entry 60). -/
def groupSize (x : FiPoint) : Nat := if fld x.param 0 4 = 0 then 16 else fld x.param 0 4

/-- A unit passes an injection point (R516-R518). A group of REORDER in progress takes the unit, and is
released in reverse order when it is complete. -/
def fiStep (p : Word) (u : HeldUnit) (s : State) : FiAct × State :=
  match fiPoint s p with
  | none => (.pass, s)
  | some x =>
    let fire := fiFires p x
    let x' := { x with units := x.units + 1, triggers := if fire then satAdd x.triggers 1 else x.triggers }
    let acted := { x' with acted := satAdd x.acted 1 }
    if !x.held.isEmpty then
      let l := x.held ++ [u]
      if groupSize x ≤ l.length then (.release l.reverse, fiTrace p x (putFi p { acted with held := [] } s))
      else (.hold, fiTrace p x (putFi p { acted with held := l } s))
    else if fire then
      match x.mode.toNat with
      | 0 => (.drop, fiTrace p x (putFi p acted s))
      | 1 => (.corrupt (fld x.param 0 6) x.units (bitOf x.param 15), fiTrace p x (putFi p acted s))
      | _ => (.hold, fiTrace p x (putFi p { acted with held := [u] } s))
    else (.pass, putFi p x' s)

/-- Distinct bit places of a unit of `total` bits, drawn by the point's generator (R518). -/
def fiBits (p : Word) (unit total : Nat) : Nat → List Nat
  | 0 => []
  | n + 1 =>
    let l := fiBits p unit total n
    let k := (Config.fiDraw p unit (n + 1)).toNat % total
    if k ∈ l then (((List.range total).find? (fun j => (k + j) % total ∉ l)).map (fun j => (k + j) % total) |>.getD k) :: l
    else k :: l

/-! ### Ismorlink frames leaving a port -/

def ismPort (s : State) (p : PortNo) : IsmPort := s.ism.ports.getD p.toNat IsmPort.atReset

def putIsmPort (p : PortNo) (x : IsmPort) (s : State) : State :=
  s.setIsm { s.ism with ports := setAt s.ism.ports p.toNat x }

/-- LINK, HEARTBEAT and TIME frames are never retried (R435). -/
def unreliable : IsmBody → Bool
  | .link _ | .heartbeat .. | .sync _ | .delayReq _ | .delayResp _ => true
  | _ => false

/-- A frame appears on the line. -/
def ismLine (p : PortNo) (f : IsmFrame) (bytes : List Byte) (s : State) : State :=
  let x := ismPort s p
  putIsmPort p { x with line := ((f, bytes) :: x.line).take 8 } s

/-- Units released by the transmit point of a port. -/
def ismLineAll (p : PortNo) (l : List HeldUnit) (s : State) : State :=
  l.foldl (fun s u => match u with
    | .ism f _ => ismLine p f (ismBytes f) s
    | _ => s) s

/-- A frame leaves through the transmit injection point of its port (Table 20-2). -/
def ismTransmit (p : PortNo) (f : IsmFrame) (s : State) : State :=
  let point := BitVec.ofNat 16 (0x204 + p.toNat)
  let l := ismBytes f
  match fiStep point (.ism f true) s with
  | (.pass, s) => ismLine p f l s
  | (.drop, s) => s
  | (.corrupt n unit recalc, s) => ismLine p f (corruptIsm (fiBits point unit (8 * l.length) n) recalc l) s
  | (.hold, s) => s
  | (.release l, s) => ismLineAll p l s

/-- One frame handed to a port: numbered for the link, and kept until acknowledged where its type is reliable. -/
def ismQueue (p : PortNo) (f : IsmFrame) (s : State) : State :=
  let x := ismPort s p
  let f := { f with lseq := x.lseqTx }
  let x := { x with lseqTx := x.lseqTx + 1 }
  let x := if unreliable f.body then x else { x with unacked := x.unacked ++ [(f, 0)] }
  ismTransmit p f (putIsmPort p x s)

/-- A frame of the module's own, sent on a trained port (Table 17-3); its first hop counts 1. -/
def ismSend (p : PortNo) (dest ctx : Word) (body : IsmBody) (s : State) : State :=
  if (ismPort s p).st = .trained then
    ismQueue p { dest := dest, src := s.ism.addr.getD 0, noaddr := s.ism.addr.isNone, hops := 1, lseq := 0, ctx := ctx, body := body } s
  else s

/-- The DN ports. -/
def dnPorts : List PortNo := [1, 2, 3]

/-- DN ports that are trained. -/
def trainedDn (s : State) : List PortNo := dnPorts.filter (fun p => (ismPort s p).st = .trained)

/-- The record at the head of the roll-up queue is sent on UP, where UP is trained. -/
def sendHeadEvent (s : State) : State :=
  match s.ism.evtUp with
  | [] => s
  | r :: _ => ismSend 0 0 0 (.event r) s

/-! ### Events -/

def recWords (l : List (List Word)) : Nat := sumOf List.length l

/-- A record of a SAFE event, by its CODE (Table 07-7). -/
def isSafeRec (r : List Word) : Bool := (r.getD 0 0) >>> 8 = 4

/-- A SAFE record takes the reserved words of the on-chip store, the SAFE records that still wait in the backlog before
it: events of one source keep their order (R115, R165). -/
def storeReserved (h : HostPort) (r : List Word) : HostPort × Bool :=
  let first := h.evtBack.filter isSafeRec
  let chip := h.evtChip ++ first ++ [r]
  if recWords chip ≤ 2048 then
    ({ h with evtChip := chip, evtBack := h.evtBack.filter (fun x => !isSafeRec x) }, true)
  else ({ h with evtLost := true }, false)

/-- Whether a record finds a place (R165), and the host port with it stored. -/
def storeEvent (trained : Bool) (h : HostPort) (r : List Word) : HostPort × Bool :=
  let chipRoom := if isSafeRec r then 2048 else 1984
  if h.evtBack.isEmpty && decide (recWords h.evtChip + r.length ≤ chipRoom) then
    ({ h with evtChip := h.evtChip ++ [r] }, true)
  else if trained && decide (recWords h.evtBack + r.length ≤ 32768) then
    ({ h with evtBack := h.evtBack ++ [r] }, true)
  else if isSafeRec r then storeReserved h r
  else ({ h with evtLost := true }, false)

/-- Event codes (Table 07-8). -/
def evBootDone : Byte := 0x01
def evChState : Byte := 0x02
def evTone : Byte := 0x03
def evSafe : Byte := 0x04
def evPwr : Byte := 0x05
def evLink : Byte := 0x06
def evAttach : Byte := 0x07
def evDetach : Byte := 0x08
def evSearchDone : Byte := 0x09
def evCalDone : Byte := 0x0A
def evWatermark : Byte := 0x0B
def evTimeStep : Byte := 0x0C
def evHoldover : Byte := 0x0D
def evFiArmed : Byte := 0x0E
def evTemp : Byte := 0x0F
def evBenign : Byte := 0x10
def evConflict : Byte := 0x11

/-- The record of an event that arises here now (Tables 07-7, 07-8). -/
def eventRecord (s : State) (code : Byte) (payload : List Word) : List Word :=
  [code ++ BitVec.ofNat 8 (5 + payload.length), s.ism.addr.getD 0, pack 16 [(b2n s.ism.addr.isNone, 1)]] ++
  words2 s.tim.counter ++ payload

/-- Codes a spur sends to the summit as EVENT frames (R197); completion events go with them where the command was
forwarded. ISM_ATTACH and UID_CONFLICT go up as the notices from which the summit raises them (R444, R447). -/
def rollsUp (code : Byte) (forwarded : Bool) : Bool :=
  code ∈ [evBootDone, evSafe, evPwr, evTemp, evFiArmed, evChState, evTone] ||
  (forwarded && (code = evCalDone || code = evSearchDone))

/-- A record joins the roll-up queue of a spur: 64 places, 8 of them for SAFE records (R451). -/
def rollUp (code : Byte) (r : List Word) (s : State) : State :=
  let room := if code = evSafe then 64 else 56
  if s.ism.evtUp.length < room then
    let first := s.ism.evtUp.isEmpty
    let s := s.setIsm { s.ism with evtUp := s.ism.evtUp ++ [r] }
    if first then sendHeadEvent s else s
  else s.setIsm { s.ism with evtDrop := satAdd s.ism.evtDrop 1 }

/-- DRAM is trained from power-on BIST until RESET or STANDBY. -/
def dramTrained (s : State) : Bool :=
  match s.mode with
  | .reset | .standby => false
  | .boot => s.boot.bistDone
  | _ => true

/-- An event raised: stored, traced and, on a spur, rolled up. The Bool says whether the record was stored. -/
def raiseRaw (code : Byte) (payload : List Word) (forwarded : Bool) (s : State) : State × Bool :=
  if s.mode = .reset then (s, true) else
  let r := eventRecord s code payload
  let (h, ok) := storeEvent (dramTrained s) s.host r
  let s := traceRecord r (s.setHost h)
  (if !isSummit s && rollsUp code forwarded then rollUp code r s else s, ok)

/-- An event other than SAFE. -/
def raise (code : Byte) (payload : List Word) (s : State) : State := (raiseRaw code payload false s).1

/-- A PWR event (R46): PWR_STAT and PWR_LIMIT. -/
def raisePwr (s : State) : State := raise evPwr [pwrStat s, pwrLimit s] s

/-- A LINK event (Tables 13-3, 17-2). -/
def raiseLink (kind index up cause : Nat) (s : State) : State :=
  raise evLink [BitVec.ofNat 16 kind, BitVec.ofNat 16 index, BitVec.ofNat 16 up, BitVec.ofNat 16 cause] s

/-- A CH_STATE event. -/
def raiseChState (c : ChanNo) (st reason : Nat) (s : State) : State :=
  raise evChState [c.setWidth 16, BitVec.ofNat 16 st, BitVec.ofNat 16 reason] s

/-- A HOLDOVER event. -/
def raiseHoldover (entered : Bool) (cause : Nat) (s : State) : State :=
  raise evHoldover [pack 16 [(b2n entered, 0)], BitVec.ofNat 16 cause] s

/-- An FI_ARMED event. -/
def armedPoints (s : State) : Nat := (s.fi.points.filter (fun e => e.2.armed)).length

def raiseFiArmed (armed : Bool) (s : State) : State :=
  raise evFiArmed [BitVec.ofNat 16 (armedPoints s), pack 16 [(b2n armed, 0)]] s

/-- SAFE_STAT.TEST: at least one injection point is armed. -/
def testBit (s : State) : Bool := armedPoints s != 0

end Sys2Proof.Machine
end

