-- ==== Sys2Proof/Machine/SchedOps.lean ====
section
/-! DEFINITION. Operations of the frame scheduler (chapter 08): the task store and the spill area,
operands, creation, dispatch, removal, flows, the almanac, operating points (R106-R108) and the
scheduler's control region. -/

namespace Sys2Proof.Machine

/-- The first number from `k` on, modulo `total`, that is not in use; `n` bounds the search. -/
def firstUnused (used : List Nat) (total : Nat) : Nat → Nat → Nat
  | 0, k => k
  | n + 1, k => if k ∈ used then firstUnused used total n ((k + 1) % total) else k

/-- An unused number below `total`, the search starting at a place the manual does not give. -/
def pickUnused (s : State) (used : List Nat) (total : Nat) : Nat :=
  firstUnused used total used.length (Config.pickIndex s.free % total)

/-! ### Tasks -/

def storeSlots : Nat := 16384
def spillSlots : Nat := 262144
def taskIds : Nat := 278528

def findTask (s : State) (id : Nat) : Option Task := s.sch.tasks.find? (fun t => t.id = id)

def setTasks (l : List Task) (s : State) : State := s.setSch { s.sch with tasks := l }

/-- A task's entry replaced. -/
def putTask (t : Task) (s : State) : State :=
  setTasks (s.sch.tasks.map (fun x => if x.id = t.id then t else x)) s

/-- Tasks in the store (RESIDENT). -/
def residents (s : State) : List Task := s.sch.tasks.filter (fun t => t.st ≠ .spilled)

/-- Tasks in the spill area (SPILLED). -/
def spilledTasks (s : State) : List Task := s.sch.tasks.filter (fun t => t.st = .spilled)

/-- The generation the next task under an ID takes (R201). -/
def nextGen (s : State) (id : Nat) : Byte := alGet s.sch.gens id 0

/-- A task leaves the scheduler: its ID is free, and the next use of it has the next generation (R201). -/
def dropTask (id : Nat) (s : State) : State :=
  match findTask s id with
  | none => s
  | some t =>
    s.setSch { s.sch with tasks := s.sch.tasks.filter (fun x => x.id ≠ id), gens := alSet s.sch.gens id (t.gen + 1) }

/-- The 32-bit handle (R200). -/
def taskHandle (t : Task) : W32 := pack 32 [(t.id, 0), (t.gen.toNat, 19)]

/-- The current task a handle names: its ID in use with that generation. -/
def handleTask (s : State) (h : W32) : Option Task :=
  if fld h 27 5 = 0 then
    match findTask s (fld h 0 19) with
    | some t => if t.gen.toNat = fld h 19 8 then some t else none
    | none => none
  else none

def allArrived (t : Task) : Bool := t.req &&& ~~~t.arrived = 0
def declares (t : Task) (k : Nat) : Bool := (t.req ||| t.opt).getLsbD k

/-- The next of the scheduler's order numbers. -/
def nextOrd (s : State) : State := s.setSch { s.sch with nextOrd := s.sch.nextOrd + 1 }

/-- The task that `f` puts first, earliest in the list among equals. -/
def minBy {α : Type} (f : α → Nat) : List α → Option α
  | [] => none
  | a :: r =>
    match minBy f r with
    | none => some a
    | some b => if f b < f a then some b else some a

/-- One WAIT task, earliest CREATE_TIME first, goes to the spill area (R217). -/
def spillOne (s : State) : State :=
  match minBy Task.createOrd (s.sch.tasks.filter (fun t => t.st = .wait)) with
  | none => s
  | some t => putTask { t with st := .spilled } s

/-- Whether a WAIT task can be spilled now. -/
def canSpill (s : State) : Bool :=
  s.sch.tasks.any (fun t => t.st = .wait) && decide ((spilledTasks s).length < spillSlots)

/-- Spilling until RESIDENT is at or below `lo` or no WAIT task remains. -/
def spillDown (lo : Nat) : Nat → State → State
  | 0, s => s
  | n + 1, s => if lo < (residents s).length && canSpill s then spillDown lo n (spillOne s) else s

/-- R217: when RESIDENT exceeds SPILL_HI, WAIT tasks are spilled down to SPILL_LO. -/
def spillCheck (s : State) : State :=
  if s.sch.spillHi.toNat < (residents s).length then
    spillDown s.sch.spillLo.toNat s.sch.tasks.length s
  else s

/-! ### Flows -/

def flowDefault : Flow := { level := 0, levelSet := false, last := none, pend := 0 }
def getFlow (s : State) (f : Word) : Flow := alGet s.sch.flows f flowDefault
def putFlow (f : Word) (x : Flow) (s : State) : State :=
  s.setSch { s.sch with flows := alSet s.sch.flows f x }

def customerFlow (f : Word) : Bool := decide (16384 ≤ f.toNat) && decide (f.toNat ≤ 65279)
def channelFlow (f : Word) : Bool := decide (f.toNat < 16384)

/-- The flow has a task in service (R17). -/
def flowInService (s : State) (f : Word) : Bool :=
  s.sch.tasks.any (fun t => t.flow = f && t.st = .service)

/-- The engine of a flow: that of its channel under R209, TE0 for the others. -/
def flowEngine (s : State) (f : Word) : BitVec 1 :=
  if channelFlow f then
    match findChan s ((f >>> 1).setWidth 13) with
    | some c => c.te
    | none => 0
  else 0

/-- A flow's level: 1 for a priority channel's flows and 2 for another channel's (R227, R338), 0 for a system flow,
and what it was set to for a customer flow. -/
def flowLevel (s : State) (f : Word) : BitVec 3 :=
  if channelFlow f then
    match findChan s ((f >>> 1).setWidth 13) with
    | some c => if c.prof.priority then 1 else 2
    | none => 0
  else (getFlow s f).level

/-- A flow's level changed: its READY tasks move with it and keep their READY_TIME (R210, R211). -/
def setFlowLevel (f : Word) (l : BitVec 3) (s : State) : State :=
  let s := putFlow f { getFlow s f with level := l, levelSet := true } s
  setTasks (s.sch.tasks.map (fun t => if t.flow = f && t.st = .ready then { t with level := l } else t)) s

/-! ### Readiness, pull-back and operands -/

/-- A task whose last required operand has arrived: READY_TIME is stamped and it takes its flow's level (R206, R210). -/
def makeReady (t : Task) (s : State) : State :=
  nextOrd (putTask { t with st := .ready, readyTime := now s, readyOrd := s.sch.nextOrd, level := flowLevel s t.flow } s)

/-- A spilled task entered into a free store slot, in WAIT, or READY when complete (Table 08-3). -/
def enterStore (t : Task) (s : State) : State :=
  let t := { t with slot := pickUnused s ((residents s).map Task.slot) storeSlots, pullOrd := none, st := .wait }
  let s := s.draw
  if allArrived t then makeReady t s else putTask t s

/-- An operand reaches a spilled task (R218). -/
def pullBack (t : Task) (s : State) : State :=
  if t.pullOrd.isSome then putTask t s
  else
    let s := s.setSch { s.sch with pullback := satAdd s.sch.pullback 1 }
    let s := putTask t s
    if (residents s).length < storeSlots then enterStore t s
    else if s.sch.tasks.any (fun x => x.st = .wait) then enterStore t (spillOne s)
    else nextOrd (putTask { t with pullOrd := some s.sch.nextOrd } s)

/-- An operand taken by a slot that is declared and has not received one. -/
def takeOperand (t : Task) (k : Nat) (s : State) : State :=
  let t := { t with arrived := t.arrived ||| BitVec.ofNat 4 (2 ^ k) }
  match t.st with
  | .wait => if allArrived t then makeReady t s else putTask t s
  | .spilled => pullBack t s
  | .ready => putTask t s
  | .service => putTask t s

def stray (s : State) : State := s.setSch { s.sch with stray := satAdd s.sch.stray 1 }

/-- An operand for a task: a second one for a slot is discarded and counted (R205). -/
def giveOperand (t : Task) (k : Nat) (s : State) : State :=
  if t.arrived.getLsbD k then stray s else takeOperand t k s

/-- Tasks waiting for a free store slot enter it, oldest request first (R218). -/
def admitPulled : Nat → State → State
  | 0, s => s
  | n + 1, s =>
    if (residents s).length < storeSlots then
      match minBy (fun t => t.pullOrd.getD 0) (s.sch.tasks.filter (fun t => t.st = .spilled && t.pullOrd.isSome)) with
      | none => s
      | some t => admitPulled n (enterStore t s)
    else s

/-- After a change of the store: pulled tasks enter, and spill is judged. -/
def settleStore (s : State) : State := spillCheck (admitPulled s.sch.tasks.length s)

/-- A token to slot 1 of a flow: its oldest task with a DATA slot not yet received, or else the
flow's PEND bit (R204, R239). -/
def dataToken (f : Word) (s : State) : State :=
  match minBy Task.createOrd (s.sch.tasks.filter (fun t => t.flow = f && declares t 1 && !t.arrived.getLsbD 1)) with
  | some t => settleStore (takeOperand t 1 s)
  | none => putFlow f { getFlow s f with pend := (getFlow s f).pend ||| 2 } s

/-! ### Creation -/

/-- A new task (R200, R206, R219): the state, and its handle unless creation fails with SCHED_FULL. -/
def createTask (flow : Word) (cls : BitVec 6) (req opt arrived : BitVec 4) (seq : Word) (arg0 arg1 : W32)
    (s : State) : State × Option W32 :=
  if storeSlots ≤ (residents s).length ∧ spillSlots ≤ (spilledTasks s).length then
    (s.setSch { s.sch with fullCount := satAdd s.sch.fullCount 1 }, none)
  else
    let id := pickUnused s (s.sch.tasks.map Task.id) taskIds
    let s := s.draw
    let fl := getFlow s flow
    let decl := req ||| opt
    let t : Task :=
      { id := id, gen := nextGen s id, slot := 0, flow := flow, cls := cls, level := flowLevel s flow, st := .wait,
        req := req, opt := opt, arrived := (arrived ||| (fl.pend &&& decl)), seq := seq, arg0 := arg0, arg1 := arg1,
        createTime := now s, readyTime := 0, createOrd := s.sch.nextOrd, readyOrd := 0, exec := none,
        pullOrd := none, engine := flowEngine s flow }
    let s := putFlow flow { fl with pend := fl.pend &&& ~~~decl } (nextOrd s)
    let full := decide (storeSlots ≤ (residents s).length)
    let s := if full && s.sch.tasks.any (fun x => x.st = .wait) then spillOne s else s
    let spilled := { t with st := .spilled }
    let s := setTasks (s.sch.tasks ++ [spilled]) s
    let s :=
      if (residents s).length < storeSlots then enterStore spilled s
      else if allArrived t then nextOrd (putTask { spilled with pullOrd := some s.sch.nextOrd } s)
      else s
    (settleStore s, some (taskHandle t))

/-! ### Classes -/

/-- Budgets of the vendor classes (Table 08-2). -/
def vendorBudget (k : Nat) : Nat :=
  match k with
  | 0 => 16384
  | 1 => 196608
  | 2 => 32768
  | 3 => 131072
  | 4 => 32768
  | 5 => 65536
  | 6 => 196608
  | 7 => 32768
  | 8 => 524288
  | 9 => 524288
  | 10 => 65536
  | _ => 0

/-- The class holds code: vendor classes 0-10, and customer classes that TASK_LOAD has loaded. -/
def classLoaded (s : State) (k : Nat) : Bool :=
  decide (k ≤ 10) || (decide (32 ≤ k) && decide (k ≤ 63) && (alFind s.sch.classes k).isSome)

/-- Only NEURAL runs on a tensor engine. -/
def onTensor (k : BitVec 6) : Bool := k = 5

def customerClass (k : BitVec 6) : Bool := decide (32 ≤ k.toNat)

/-! ### Removal -/

/-- A core's point capacity in LU (R106). -/
def pointCap : Point → Nat
  | .p10 => 1024
  | .p06 => 614
  | .p03 => 307

/-- A raise of the core's point that waits is made (R108). -/
def takeRaise (c : CoreSt) : CoreSt := if pointCap c.point < pointCap c.target then { c with point := c.target } else c

/-- The executor of a task becomes idle, and a core makes the raise it waited for (R108). -/
def freeExecutor (t : Task) (s : State) : State :=
  match t.exec with
  | some (.vc n) => putCore n (takeRaise { getCore s n with busy := none }) s
  | some (.te e) =>
    if e = 0 then s.setSch { s.sch with te0Busy := none } else s.setSch { s.sch with te1Busy := none }
  | none => s

/-- A task leaves service without its ending being counted: aborted or lost. -/
def removeService (t : Task) (s : State) : State := settleStore (dropTask t.id (freeExecutor t s))

/-- A task's normal end: the flow is released and LAST records the voice core (Table 08-3). -/
def removeEnded (t : Task) (s : State) : State :=
  let s := match t.exec with
    | some (.vc n) => putFlow t.flow { getFlow s t.flow with last := some n } s
    | _ => s
  removeService t s

/-- Tasks in WAIT, SPILLED or READY that satisfy `p` are freed, and no tokens are sent (Table 08-3). -/
def cancelWhere (p : Task → Bool) (s : State) : State :=
  let gone := s.sch.tasks.filter (fun t => p t && t.st ≠ .service)
  settleStore (gone.foldl (fun s t => dropTask t.id s) s)

def cancelFlow (f : Word) (s : State) : State := cancelWhere (fun t => t.flow = f) s

/-- Place of a class in its graph (Table 08-2). -/
def graphOrder (k : BitVec 6) : Nat :=
  match k.toNat with
  | 7 => 10
  | 8 => 1
  | n => n

/-- The next task of the same graph: same flow and frame, next in the order of Table 08-2. -/
def successor (s : State) (t : Task) : Option Task :=
  minBy (fun x => graphOrder x.cls)
    (s.sch.tasks.filter (fun x => x.flow = t.flow && x.seq = t.seq && decide (graphOrder t.cls < graphOrder x.cls)))

/-- The remaining tasks of a graph are cancelled (R221). Only channel tasks stand in graphs (R202, R288). -/
def cancelGraph (t : Task) (s : State) : State :=
  if channelFlow t.flow then cancelWhere (fun x => x.flow = t.flow && x.seq = t.seq && x.id ≠ t.id) s else s

/-! ### Dispatch -/

/-- Mode and affinity wait of a level (Table 08-7). -/
def levelWord (s : State) (l : Nat) : Bool × BitVec 6 :=
  match l with
  | 0 => (false, 0)
  | 1 => (true, 8)
  | 2 => (true, 8)
  | _ => alGet s.sch.levels l (false, 0)

/-- Present, in the pool, and without a task. -/
def executorIdle (s : State) (x : Executor) : Bool :=
  match x with
  | .vc n =>
    let c := getCore s n
    corePresent s n && c.busy.isNone && !c.drained && !c.withdrawn
  | .te e => engineUp s e && (if e = 0 then s.sch.te0Busy.isNone else s.sch.te1Busy.isNone)

/-- Ready, of the executor's type, with no task of its flow in service, and on this engine (R207). -/
def eligible (s : State) (x : Executor) (t : Task) : Bool :=
  t.st = .ready && !flowInService s t.flow &&
  (match x with
   | .vc _ => !onTensor t.cls
   | .te e => onTensor t.cls && t.engine = e)

/-- The filter that affinity mode applies for voice core `n`. -/
def affinityKeeps (s : State) (n : CoreNo) (wait : BitVec 6) (t : Task) : Bool :=
  match (getFlow s t.flow).last with
  | none => true
  | some m =>
    m = n || decide (1000 * wait.toNat < (now s - t.readyTime).toNat) ||
    (getCore s m).drained || (getCore s m).withdrawn

/-- The task that an executor takes from one level. -/
def chooseAt (s : State) (x : Executor) (l : Nat) : Option Task :=
  let cand := s.sch.tasks.filter (fun t => eligible s x t && t.level.toNat = l)
  let (aff, wait) := levelWord s l
  let cand := match x with
    | .vc n => if aff then cand.filter (affinityKeeps s n wait) else cand
    | .te _ => cand
  minBy Task.readyOrd cand

/-- The choice of R207: the first level with a candidate gives its earliest ready task. -/
def chooseTask (s : State) (x : Executor) : Option Task :=
  (List.range 8).findSome? (fun l => chooseAt s x l)

/-- A task enters service on an executor, after any raise of the core's point that waits (R108). -/
def startService (t : Task) (x : Executor) (s : State) : State :=
  let s := putTask { t with st := .service, exec := some x } s
  match x with
  | .vc n =>
    let c := getCore s n
    putCore n { c with busy := some t.id, flow := t.flow, point := c.target } s
  | .te e =>
    if e = 0 then s.setSch { s.sch with te0Busy := some t.id } else s.setSch { s.sch with te1Busy := some t.id }

/-- The task in service on an executor. -/
def serving (s : State) (x : Executor) : Option Task :=
  match x with
  | .vc n => (getCore s n).busy.bind (findTask s)
  | .te e => (if e = 0 then s.sch.te0Busy else s.sch.te1Busy).bind (findTask s)

/-! ### Operating points -/

/-- The participating cores: present, neither drained nor withdrawn (R107). -/
def participating (s : State) : List CoreNo :=
  ((List.range (coreCount s)).map (fun n => BitVec.ofNat 7 n)).filter
    (fun n => !(getCore s n).drained && !(getCore s n).withdrawn)

/-- The target of R107. -/
def pointTarget (s : State) : Nat := min (luAdmitted s + 2048) (1024 * (participating s).length)

/-- The procedure of R107 in closed form, for `n` participating cores: with raises of 307 LU the first
`k` cores reach 0.6 GHz, and once all have, raises of 410 LU take the first `k` to 1.0 GHz. -/
def pointOf (n target i : Nat) : Point :=
  let k1 := cdiv (target - 307 * n) 307
  if k1 ≤ n then (if i < k1 then .p06 else .p03)
  else
    let k2 := cdiv (target - 614 * n) 410
    if i < k2 then .p10 else .p06

/-- The points the procedure gives: a raise waits for the core's task, a lowering is made only at a
5 ms boundary and only on an idle core (R108). Off a boundary a raise that waits on a busy core stays in force where the
procedure gives that core no raise: the manual does not say whether it lapses (DESIGN CHOICE, log entry 80). -/
def applyPoint (boundary : Bool) (p : Point) (c : CoreSt) : CoreSt :=
  if pointCap c.point < pointCap p then
    (if c.busy.isNone then { c with point := p, target := p } else { c with target := p })
  else if boundary && c.busy.isNone then { c with point := p, target := p }
  else if boundary then { c with target := c.point }
  else c

/-- The operating-point procedure of R107. -/
def pointProcedure (boundary : Bool) (s : State) : State :=
  let ps := participating s
  let target := pointTarget s
  (ps.zipIdx).foldl (fun s e => putCore e.1 (applyPoint boundary (pointOf ps.length target e.2) (getCore s e.1)) s) s

/-- The procedure as it runs at a change of admitted LU or of the drained or withdrawn cores. -/
def pointsChanged (s : State) : State := pointProcedure false s

/-! ### Draining (R223) -/

/-- At most one core drains at a time: the next request starts when none is drained. -/
def nextDrain (s : State) : State :=
  if coresDrained s = 0 then
    match s.sch.drainQ.dropWhile (fun n => (getCore s n).withdrawn) with
    | [] => s.setSch { s.sch with drainQ := [] }
    | n :: r =>
      let s := s.setSch { s.sch with drainQ := r }
      pointsChanged (putCore n { getCore s n with drained := true, draining := true } s)
  else s

/-- A drain request joins the queue. -/
def requestDrain (n : CoreNo) (s : State) : State :=
  nextDrain (s.setSch { s.sch with drainQ := s.sch.drainQ ++ [n] })

/-! ### Shedding and reservations -/

/-- The engine shares of R28 are exceeded on engine `e`. -/
def shareExceeded (s : State) (e : BitVec 1) : Bool := decide (engineShare s < tuOn s e)

def overCeiling (s : State) : Bool :=
  decide (luCeil s < luAdmitted s) || decide (tuCeil s < tuAdmitted s) || shareExceeded s 0 || shareExceeded s 1

/-- A ceiling has changed: admission closes when the load now exceeds it (R32). While shedding is in progress a second fall
of another cause changes neither the status that refuses nor the REASON: the manual does not say which of two causes
counts, and the model keeps the first (DESIGN CHOICE, log entry 82). -/
def checkCeilings (cause : ShedCause) (s : State) : State :=
  if s.led.shedding.isNone && overCeiling s then s.setLed { s.led with shedding := some cause } else s

/-- The status that refuses while shedding is in progress (R32). -/
def shedStatus : ShedCause → Word
  | .power => stPowerLimit
  | .thermal => stPowerLimit
  | .withdrawal => stNoResource

/-- The effective ceiling without the limits that power and temperature set (R30). -/
def ceilUnpowered (s : State) : Nat := min (channelLimit s) (coreCeil s)

/-- The tensor ceiling without them. -/
def tuCeilUnpowered (s : State) : Nat :=
  min (8192 * engineCount s * ceilUnpowered s / channelLimit s) (8192 * enginesUp s)

def reservation (s : State) (f : Word) : Option Nat := alFind s.led.resv f

/-- RESERVE of R224 on a customer flow. -/
def reserveLu (f : Word) (lu : Nat) (s : State) : State × Word :=
  match s.led.shedding with
  | some c => (s, shedStatus c)
  | none =>
    let others := luAdmitted s - (reservation s f).getD 0
    if others + lu ≤ luCeil s ∨ lu = 0 then
      (pointsChanged (s.setLed { s.led with resv := if lu = 0 then alErase s.led.resv f else alSet s.led.resv f lu }), stOk)
    else (s, if others + lu ≤ 16 * ceilUnpowered s then stPowerLimit else stNoResource)

/-! ### The almanac -/

def almanacSize : Nat := 65536

def getList (s : State) (l : Nat) : AList := alGet s.sch.lists l ⟨25, false, 0, 0, 0, 25⟩
def putList (l : Nat) (x : AList) (s : State) : State := s.setSch { s.sch with lists := alSet s.sch.lists l x }

/-- Ticks of a list between its `edge` and sub-grid step `g`; fewer than none where a step took the grid back (R388). -/
def ticksSince (x : AList) (g : Int) : Int :=
  let e := g - x.edge
  if e < 0 then e / x.tick.toNat else if e < x.first.toNat then 0 else 1 + (e - x.first.toNat) / x.tick.toNat

/-- Ticks counted by list `l`: one every TICK sub-grid steps from the step that enabled it, none while disabled (R213, R228). -/
def listNow (s : State) (l : Nat) : Nat :=
  let x := getList s l
  if x.enable then ((x.now : Int) + ticksSince x (gridStep s.tim)).toNat else x.now

/-- The sub-grid step at which an enabled list reaches tick `k`. -/
def tickStep (x : AList) (k : Nat) : Int :=
  let n := (k : Int) - x.now
  if n ≤ 0 then x.edge + n * x.tick.toNat else x.edge + x.first.toNat + (n - 1) * x.tick.toNat

/-- An entry inserted `delay` ticks after the list's last tick; none when the lists are full (R214, R216). -/
def insertEntry (l : BitVec 2) (h : W32) (slot : BitVec 2) (delay period : Nat) (c : Option ChanNo) (s : State) :
    State × Option Nat :=
  if almanacSize ≤ s.sch.entries.length then (s, none)
  else
    let no := pickUnused s (s.sch.entries.map AEntry.no) almanacSize
    let s := s.draw
    let e : AEntry :=
      { no := no, list := l, expiry := listNow s l.toNat + delay, period := period, handle := h,
        slot := slot, ord := s.sch.nextOrd, chan := c }
    (nextOrd (s.setSch { s.sch with entries := s.sch.entries ++ [e] }), some no)

def entriesOf (s : State) (l : BitVec 2) : List AEntry := s.sch.entries.filter (fun e => e.list = l)

/-- The earliest-due entry: by expiry tick, then by insertion (R215). -/
def earliest (l : List AEntry) : Option AEntry :=
  match minBy AEntry.expiry l with
  | none => none
  | some e => minBy AEntry.ord (l.filter (fun x => x.expiry = e.expiry))

/-- The earliest-due entry of an enabled list; a disabled one fires nothing (Table 08-8). -/
def dueEntry (l : BitVec 2) (s : State) : Option AEntry :=
  if (getList s l.toNat).enable then earliest (entriesOf s l) else none

/-- The sub-grid step at which an entry expires. -/
def entryStep (s : State) (e : AEntry) : Int := tickStep (getList s e.list.toNat) e.expiry

/-- Of two entries the one that fires first: by step, and on one step by list (R215). -/
def firstDue (s : State) (a b : Option AEntry) : Option AEntry :=
  match a, b with
  | some x, some y => if entryStep s y < entryStep s x then b else a
  | none, _ => b
  | _, none => a

/-- The entry that fires next of all the lists (R215). -/
def nextDue (s : State) : Option AEntry :=
  firstDue s (firstDue s (firstDue s (dueEntry 0 s) (dueEntry 1 s)) (dueEntry 2 s)) (dueEntry 3 s)

def dropEntry (no : Nat) (s : State) : State :=
  s.setSch { s.sch with entries := s.sch.entries.filter (fun e => e.no ≠ no) }

/-- The list counts the firing (Table 08-8). -/
def countFiring (e : AEntry) (s : State) : State :=
  let x := getList s e.list.toNat
  putList e.list.toNat { x with fired := satAdd x.fired 1 } s

/-- The entry leaves its list, or is reinserted PERIOD ticks after this expiry (R214). -/
def reinsert (e : AEntry) (s : State) : State :=
  if e.period = 0 then dropEntry e.no s
  else
    nextOrd (s.setSch { s.sch with entries := s.sch.entries.map (fun x =>
      if x.no = e.no then { e with expiry := e.expiry + e.period, ord := s.sch.nextOrd } else x) })

/-- A handle entry fires: its operand is delivered; where the target is gone the firing is counted as
stray, and a periodic entry is removed. -/
def fireEntry (e : AEntry) (s : State) : State :=
  let s := countFiring e s
  match handleTask s e.handle with
  | none => dropEntry e.no (stray s)
  | some t =>
    let s := reinsert e s
    settleStore (if declares t e.slot.toNat then giveOperand t e.slot.toNat s else stray s)

/-! ### The request port (R225, R229, R230) -/

/-- The host, and a voice core that runs a customer class, are held to customer flows and classes. -/
def restricted (s : State) (m : Master) : Bool :=
  match m with
  | .host => true
  | .core n =>
    match serving s (.vc n) with
    | some t => customerClass t.cls
    | none => true
  | .firmware => false
  | .switch => false
  | .crypto => false

/-- The masters that have a request port. -/
def hasReqPort (s : State) (m : Master) : Bool :=
  match m with
  | .host => true
  | .firmware => true
  | .core n => corePresent s n
  | .switch => false
  | .crypto => false

def reqDefault : ReqPort :=
  { w00 := 0, w04 := 0, arg0 := 0, arg1 := 0, delay := 0, period := 0, status := 0, out := 0 }
def getReq (s : State) (m : Master) : ReqPort := alGet s.sch.ports m reqDefault
def putReq (m : Master) (p : ReqPort) (s : State) : State :=
  s.setSch { s.sch with ports := alSet s.sch.ports m p }

/-- The result of a request in the port's STATUS, and in OUT where it has one. -/
def reqDone (m : Master) (st : Word) (out : Option W32) (s : State) : State :=
  let p := getReq s m
  putReq m { p with status := st, out := out.getD p.out } s

/-- A flow with no level of its own takes its first task's DEF_LEVEL (Table 08-10). -/
def firstLevel (f : Word) (k : BitVec 6) (s : State) : State :=
  if customerFlow f && !(getFlow s f).levelSet then
    match alFind s.sch.classes k.toNat with
    | some c => putFlow f { getFlow s f with level := c.defLevel, levelSet := true } s
    | none => s
  else s

def reqCreate (m : Master) (p : ReqPort) (s : State) : State :=
  let flow : Word := (p.w00 >>> 16).setWidth 16
  let cls := fld p.w00 8 8
  let req : BitVec 4 := p.w04.setWidth 4
  let opt : BitVec 4 := (p.w04 >>> 4).setWidth 4
  if (restricted s m && (!customerFlow flow || decide (cls < 32))) || decide (63 < cls) || !classLoaded s cls ||
      req &&& opt ≠ 0 then reqDone m stBadParam none s
  else if !traffic s || cls ∈ s.sch.stopped then reqDone m stBadState none s
  else if customerFlow flow && (reservation s flow).isNone then reqDone m stNoResource none s
  else
    let k := BitVec.ofNat 6 cls
    let full := decide (storeSlots ≤ (residents s).length ∧ spillSlots ≤ (spilledTasks s).length)
    let s := if full then s else firstLevel flow k s
    let (s, h) := createTask flow k req opt 0 ((p.w04 >>> 16).setWidth 16) p.arg0 p.arg1 s
    reqDone m (if h.isSome then stOk else stSchedFull) h s

def reqToken (m : Master) (p : ReqPort) (s : State) : State :=
  let k := fld p.w04 8 2
  match handleTask s p.arg0 with
  | none => reqDone m stOk none (stray s)
  | some t =>
    if (restricted s m && !customerFlow t.flow) || !declares t k then reqDone m stBadParam none s
    else reqDone m stOk none (settleStore (giveOperand t k s))

def reqAlmanac (m : Master) (p : ReqPort) (s : State) : State :=
  let l : BitVec 2 := (p.w04 >>> 10).setWidth 2
  let foreign := match handleTask s p.arg0 with
    | some t => !customerFlow t.flow
    | none => false
  if (restricted s m && (l = 0 || l = 3 || foreign)) || p.delay = 0 then reqDone m stBadParam none s
  else if !traffic s then reqDone m stBadState none s
  else
    match insertEntry l p.arg0 ((p.w04 >>> 8).setWidth 2) p.delay.toNat p.period.toNat none s with
    | (s, none) => reqDone m stNoResource none s
    | (s, some no) => reqDone m stOk (some (BitVec.ofNat 32 no)) s

def reqSetLevel (m : Master) (p : ReqPort) (s : State) : State :=
  let flow : Word := (p.w00 >>> 16).setWidth 16
  let l : BitVec 3 := (p.w00 >>> 4).setWidth 3
  if restricted s m && (!customerFlow flow || decide (l.toNat < 3)) then reqDone m stBadParam none s
  else reqDone m stOk none (setFlowLevel flow l s)

def reqReserve (m : Master) (p : ReqPort) (s : State) : State :=
  let flow : Word := (p.w00 >>> 16).setWidth 16
  if !customerFlow flow then reqDone m stBadParam none s
  else if !traffic s then reqDone m stBadState none s
  else
    let (s, st) := reserveLu flow (fld p.arg0 0 18) s
    reqDone m st none s

def reqCancel (m : Master) (p : ReqPort) (s : State) : State :=
  let flow : Word := (p.w00 >>> 16).setWidth 16
  if restricted s m && !customerFlow flow then reqDone m stBadParam none s
  else reqDone m stOk none (cancelFlow flow s)

/-- A write of GO performs the request whose fields the port holds (R229). -/
def reqGo (m : Master) (s : State) : State :=
  let p := getReq s m
  match fld p.w00 0 4 with
  | 1 => reqCreate m p s
  | 2 => reqToken m p s
  | 3 => reqAlmanac m p s
  | 4 => reqSetLevel m p s
  | 5 => reqReserve m p s
  | 6 => reqCancel m p s
  | _ => reqDone m stBadParam none s

/-! ### The scheduler region (R226, Tables 08-5 to 08-12) -/

/-- Why an internal access fails, as AP_CTL.ERRCODE codes it (Table 06-8). -/
inductive AccErr where
  | absent
  | prot
  | align
deriving DecidableEq, Repr

/-- The bits of a word that enabled bytes write. -/
def beMask (be : BitVec 4) : W32 :=
  pack 32 [(if be.getLsbD 0 then 0xFF else 0, 0), (if be.getLsbD 1 then 0xFF else 0, 8),
    (if be.getLsbD 2 then 0xFF else 0, 16), (if be.getLsbD 3 then 0xFF else 0, 24)]

/-- A word after a write with byte enables (R167). -/
def mergeBe (old v : W32) (be : BitVec 4) : W32 := (old &&& ~~~beMask be) ||| (v &&& beMask be)

def stateCode : TState → Nat
  | .wait => 1
  | .spilled => 0
  | .ready => 3
  | .service => 4

def executorCode : Option Executor → Nat
  | some (.vc n) => n.toNat
  | some (.te e) => 0x80 + e.toNat
  | none => 0xFF

def pointCode : Point → Nat
  | .p10 => 0
  | .p06 => 1
  | .p03 => 2

def coreWord (s : State) (n : CoreNo) : W32 :=
  let c := getCore s n
  pack 32 [(c.flow.toNat, 0), (pointCode c.point, 16), (b2n c.busy.isSome, 18), (b2n c.drained, 19), (b2n c.withdrawn, 20)]

def flowWord (s : State) (f : Word) : W32 :=
  let x := getFlow s f
  let act := s.sch.tasks.any (fun t => t.flow = f) || (reservation s f).isSome
  pack 32 [((flowLevel s f).toNat, 0), ((flowEngine s f).toNat, 3), (b2n act, 4), (b2n (flowInService s f), 5),
    (b2n x.last.isSome, 6), ((x.last.getD 0).toNat, 7), (x.pend.toNat, 14)]

def classWord (s : State) (k i : Nat) : W32 :=
  match i with
  | 0 =>
    if k ≤ 10 then pack 32 [(1, 0), (b2n (k = 5), 1)]
    else match alFind s.sch.classes k with
      | some c => pack 32 [(1, 0), (b2n c.stopOnOvr, 2), (c.defLevel.toNat, 8)]
      | none => 0
  | 1 =>
    if k ≤ 10 then BitVec.ofNat 32 (vendorBudget k)
    else match alFind s.sch.classes k with
      | some c => c.budget.setWidth 32
      | none => 0
  | 2 =>
    if k ≤ 10 then (Config.vendorEntry k).setWidth 32
    else match alFind s.sch.classes k with
      | some c => c.entry.setWidth 32
      | none => 0
  | _ =>
    if classLoaded s k then
      pack 32 [((alGet s.sch.ovr k 0).toNat, 0), (match alFind s.sch.classes k with
        | some c => c.ovrLimit.toNat
        | none => 0, 16)]
    else 0

def slotWord (t : Task) (i : Nat) : W32 :=
  match i with
  | 0 => pack 32 [(t.flow.toNat, 0), (t.cls.toNat, 16), (t.level.toNat, 22), (stateCode t.st, 25)]
  | 1 => pack 32 [(t.req.toNat, 0), (t.opt.toNat, 4), (t.arrived.toNat, 8), (t.seq.toNat, 16)]
  | 2 => t.arg0
  | 3 => t.arg1
  | 4 => t.createTime
  | 5 => t.readyTime
  | 6 => taskHandle t
  | _ => BitVec.ofNat 32 (executorCode t.exec)

/-- A slot that holds no task reads FREE and no executor. -/
def emptySlotWord (i : Nat) : W32 := if i = 7 then 0xFF else 0

def schGlobal (s : State) (o : Nat) : Option (State × W32) :=
  match o with
  | 0x00 => some (s, BitVec.ofNat 32 (residents s).length)
  | 0x04 => some (s, BitVec.ofNat 32 (spilledTasks s).length)
  | 0x08 => some (s, s.sch.spillHi.setWidth 32)
  | 0x0C => some (s, s.sch.spillLo.setWidth 32)
  | 0x10 => some (s, BitVec.ofNat 32 (luAdmitted s))
  | 0x14 => some (s, if limitsSet s then BitVec.ofNat 32 (luCeil s) else 0)
  | 0x18 => some (s, BitVec.ofNat 32 (tuAdmitted s))
  | 0x1C => some (s, if limitsSet s then BitVec.ofNat 32 (tuCeil s) else 0)
  | 0x20 => some (s.setSch { s.sch with fullCount := 0 }, s.sch.fullCount)
  | 0x24 => some (s.setSch { s.sch with pullback := 0 }, s.sch.pullback)
  | 0x28 => some (s.setSch { s.sch with stray := 0 }, s.sch.stray)
  | 0x2C => some (s.setSch { s.sch with overrun := 0 }, s.sch.overrun)
  | 0x30 => some (s, BitVec.ofNat 32 (almanacSize - s.sch.entries.length))
  | 0x34 => some (s.setSch { s.sch with resvShed := 0 }, s.sch.resvShed)
  | _ => none

def arbWord (s : State) : W32 :=
  pack 32 [(s.sch.arbAperture.toNat, 0), (3, 4), (2, 8), (2, 12), (s.sch.arbDeflate.toNat, 16), (1, 20)]

def listRead (s : State) (l i : Nat) : Option (State × W32) :=
  let x := getList s l
  match i with
  | 0 => some (s, pack 32 [(x.tick.toNat, 0), (b2n x.enable, 8)])
  | 4 => some (s, BitVec.ofNat 32 (entriesOf s (BitVec.ofNat 2 l)).length)
  | 8 => some (putList l { x with fired := 0 } s, x.fired)
  | _ => none

def reqRead (s : State) (m : Master) (o : Nat) : Option (State × W32) :=
  let p := getReq s m
  match o with
  | 0x00 => some (s, p.w00)
  | 0x04 => some (s, p.w04)
  | 0x08 => some (s, p.arg0)
  | 0x0C => some (s, p.arg1)
  | 0x10 => some (s, p.delay.setWidth 32)
  | 0x14 => some (s, p.period.setWidth 32)
  | 0x18 => some (s, 0)
  | 0x1C => some (s, p.status.setWidth 32)
  | 0x20 => some (s, p.out)
  | _ => none

/-- A read of the word at offset `o` of the region, by master `m`; none where the word is absent. -/
def schRead (m : Master) (o : Nat) (s : State) : Option (State × W32) :=
  if o < 0x38 then schGlobal s o
  else if 0x100 ≤ o ∧ o < 0x120 then
    let w := levelWord s ((o - 0x100) / 4)
    some (s, pack 32 [(b2n w.1, 0), (w.2.toNat, 1)])
  else if 0x200 ≤ o ∧ o < 0x240 then listRead s ((o - 0x200) / 16) ((o - 0x200) % 16)
  else if o = 0x300 then some (s, arbWord s)
  else if 0x400 ≤ o ∧ o < 0x400 + 4 * coreCount s then some (s, coreWord s (BitVec.ofNat 7 ((o - 0x400) / 4)))
  else if 0x1000 ≤ o ∧ o < 0x1400 then
    let k := (o - 0x1000) / 16
    let i := (o - 0x1000) % 16 / 4
    some (if i = 3 then s.setSch { s.sch with ovr := alErase s.sch.ovr k } else s, classWord s k i)
  else if 0x2000 ≤ o ∧ o < 0x2024 then reqRead s m (o - 0x2000)
  else if 0x10000 ≤ o ∧ o < 0x90000 then
    let f := BitVec.ofNat 16 ((o - 0x10000) / 8)
    some (s, if o % 8 = 0 then flowWord s f else BitVec.ofNat 32 ((reservation s f).getD 0))
  else if 0x100000 ≤ o ∧ o < 0x180000 then
    let sl := (o - 0x100000) / 32
    let i := (o - 0x100000) % 32 / 4
    some (s, match (residents s).find? (fun t => t.slot = sl) with
      | some t => slotWord t i
      | none => emptySlotWord i)
  else none

/-- A write of SPILL_HI (Table 08-6): values outside Table 08-4, and one that would leave SPILL_LO above
SPILL_HI - 512, are ignored; then spill is judged at once. -/
def writeSpillHi (v : W32) (s : State) : State :=
  let n := v.toNat % 2 ^ 15
  if 1024 ≤ n ∧ n ≤ 16128 ∧ s.sch.spillLo.toNat + 512 ≤ n then
    spillCheck (s.setSch { s.sch with spillHi := BitVec.ofNat 15 n })
  else s

def writeSpillLo (v : W32) (s : State) : State :=
  let n := v.toNat % 2 ^ 15
  if 512 ≤ n ∧ n + 512 ≤ s.sch.spillHi.toNat then s.setSch { s.sch with spillLo := BitVec.ofNat 15 n } else s

/-- A list's record after a write of TICK and ENABLE at sub-grid step `g` (R228): a new TICK begins at the next tick edge,
a disabled list keeps its count, and enabling one starts counting at this step. -/
def listWritten (x : AList) (tick : Byte) (enable : Bool) (g : Int) : AList :=
  if !x.enable then
    (if enable then { x with tick := tick, enable := true, edge := g, first := tick } else { x with tick := tick })
  else
    let k := ticksSince x g
    let now := ((x.now : Int) + k).toNat
    if !enable then { x with tick := tick, enable := false, now := now, edge := g, first := tick }
    else if k ≤ 0 then { x with tick := tick, now := now, edge := x.edge + k * x.tick.toNat, first := if k = 0 then x.first else x.tick }
    else { x with tick := tick, now := now, edge := x.edge + x.first.toNat + (k - 1) * x.tick.toNat, first := x.tick }

/-- A write of a list's TICK and ENABLE (Table 08-8, R228). -/
def writeList (l : Nat) (v : W32) (s : State) : State :=
  let x := getList s l
  let t := fld v 0 8
  putList l (listWritten x (if 2 ≤ t ∧ t ≤ 200 then BitVec.ofNat 8 t else x.tick) (bitOf v 8) (gridStep s.tim)) s

def writeArb (v : W32) (s : State) : State :=
  if fld v 0 3 = 0 ∨ fld v 16 3 = 0 then s
  else s.setSch { s.sch with arbAperture := BitVec.ofNat 3 (fld v 0 3), arbDeflate := BitVec.ofNat 3 (fld v 16 3) }

/-- A write to the request port; the bits outside the fields of Table 08-11 are ignored and read as zero (R7). -/
def reqWrite (m : Master) (o : Nat) (v : W32) (be : BitVec 4) (s : State) : Except AccErr State :=
  let p := getReq s m
  match o with
  | 0x00 => .ok (putReq m { p with w00 := mergeBe p.w00 v be &&& 0xFFFFFF7F } s)
  | 0x04 => .ok (putReq m { p with w04 := mergeBe p.w04 v be &&& 0xFFFF0FFF } s)
  | 0x08 => .ok (putReq m { p with arg0 := mergeBe p.arg0 v be } s)
  | 0x0C => .ok (putReq m { p with arg1 := mergeBe p.arg1 v be } s)
  | 0x10 => .ok (putReq m { p with delay := (mergeBe (p.delay.setWidth 32) v be).setWidth 20 } s)
  | 0x14 => .ok (putReq m { p with period := (mergeBe (p.period.setWidth 32) v be).setWidth 20 } s)
  | 0x18 => .ok (reqGo m s)
  | 0x1C => .error .prot
  | 0x20 => .error .prot
  | _ => .error .absent

/-- A write of the word at offset `o` by master `m`. Words marked RO fail with PROT (R226). -/
def schWrite (m : Master) (o : Nat) (v : W32) (be : BitVec 4) (s : State) : Except AccErr State :=
  if 0x2000 ≤ o ∧ o < 0x2024 then reqWrite m (o - 0x2000) v be s
  else
    match schRead m o s with
    | none => .error .absent
    | some (_, old) =>
      let w := mergeBe old v be
      if o = 0x08 then .ok (writeSpillHi w s)
      else if o = 0x0C then .ok (writeSpillLo w s)
      else if o ∈ [0x20, 0x24, 0x28, 0x2C, 0x34] then .ok s
      else if 0x10C ≤ o ∧ o < 0x120 then
        .ok (s.setSch { s.sch with levels := alSet s.sch.levels ((o - 0x100) / 4) (bitOf w 0, BitVec.ofNat 6 (fld w 1 6)) })
      else if o = 0x210 then .ok (writeList 1 w s)
      else if o = 0x220 then .ok (writeList 2 w s)
      else if o ∈ [0x208, 0x218, 0x228, 0x238] then .ok s
      else if o = 0x300 then .ok (writeArb w s)
      else if 0x1000 ≤ o ∧ o < 0x1400 ∧ o % 16 = 12 then .ok s
      else .error .prot

end Sys2Proof.Machine
end

