-- ==== Sys2Proof/Machine/QueueOps.lean ====
section
/-! DEFINITION. Operations of cell memory and queues (chapter 09): the cell pool, producers and
consumers, commit and rewind, flush, watermarks and the flow-control pins, and the queue manager's
control region. -/

namespace Sys2Proof.Machine

def cellTotal : Nat := 98304
def endMark : W32 := 0x1FFFF

def queueDefault : Queue :=
  { pkts := [], openCells := 0, limit := 64, enable := false, notify := false, notifyFlow := 0, wmHi := 1,
    wmLo := 0, wmMode := .off, fcEn := false, fcPin := 0, overrun := false, wmFlag := false, above := false,
    wmState := false, xcount := 0, rewind := 0 }

def getQ (s : State) (q : QueueNo) : Queue := alGet s.qm.queues q queueDefault
def putQ (q : QueueNo) (x : Queue) (s : State) : State := s.setQm { s.qm with queues := alSet s.qm.queues q x }

def prodDefault : Producer :=
  { q := none, cells := [], words := 0, bad := false, flushed := false, status := 0, notOpen := false,
    tagReg := 0, tag := 0 }
def consDefault : Consumer := { q := none, pos := 0, flushed := false, status := 0, ecc := false }

def getProd (s : State) (m : Master) : Producer := alGet s.qm.producers m prodDefault
def putProd (m : Master) (x : Producer) (s : State) : State :=
  s.setQm { s.qm with producers := alSet s.qm.producers m x }
def getCons (s : State) (m : Master) : Consumer := alGet s.qm.consumers m consDefault
def putCons (m : Master) (x : Consumer) (s : State) : State :=
  s.setQm { s.qm with consumers := alSet s.qm.consumers m x }

/-- Every master sees its own producer and consumer port. -/
def hasQueuePort (s : State) (m : Master) : Bool :=
  match m with
  | .core n => corePresent s n
  | .host => true
  | .firmware => true
  | .switch => true
  | .crypto => true

/-! ### Queue numbers (Table 09-2) -/

def chanQueue (q : QueueNo) : Bool := decide (q.toNat < 16384)
def custQueue (q : QueueNo) : Bool := decide (16384 ≤ q.toNat) && decide (q.toNat ≤ 32511)
def fwdQueue (q : QueueNo) : Bool := decide (32512 ≤ q.toNat) && decide (q.toNat ≤ 32543)
def sysQueue (q : QueueNo) : Bool := decide (32512 ≤ q.toNat)
def ingressQueue (q : QueueNo) : Bool := chanQueue q && !q.getLsbD 0

/-! ### The pool -/

def pktCells (x : Queue) : List Nat := x.pkts.flatMap Packet.cells

/-- Cells of packets that an injection point holds. -/
def heldCells (s : State) : List Nat :=
  s.fi.points.flatMap (fun e => e.2.held.flatMap (fun u => match u with
    | .packet _ p => p.cells
    | _ => []))

/-- Cells outside the pool. -/
def usedCells (s : State) : List Nat :=
  heldCells s ++
  s.qm.retired ++ s.qm.inFlush ++ s.qm.marching ++ s.qm.queues.flatMap (fun e => pktCells e.2) ++
  s.qm.producers.flatMap (fun e => e.2.cells)

/-- FREE. -/
def freeCells (s : State) : Nat := cellTotal - (usedCells s).length

/-- MIN_FREE follows FREE down. -/
def noteFree (s : State) : State :=
  if freeCells s < s.qm.minFree.toNat then s.setQm { s.qm with minFree := BitVec.ofNat 17 (freeCells s) } else s

def depth (x : Queue) : Nat := (pktCells x).length + x.openCells

/-- A cell's 256 bytes set to zero; an error it held goes with its old contents. -/
def clearCell (c : Nat) (s : State) : State :=
  let s := s.setQm { s.qm with eccCells := s.qm.eccCells.filter (fun x => x ≠ c) }
  s.withMem (s.mem.filter (fun x => !(decide (cellBase c ≤ x.1) && decide (x.1 < cellBase c + 256))))

/-! ### Watermarks and flow control (R248-R251) -/

/-- FC_STAT: a pin is asserted while a queue in HYST mode with FC_EN drives it with STATE = 1, in the states
where the pins are driven. -/
def fcStat (s : State) : Byte :=
  if pinsActive s then
    s.qm.queues.foldl (fun acc e =>
      if e.2.wmMode = .hyst && e.2.fcEn && e.2.wmState then acc ||| BitVec.ofNat 8 (2 ^ e.2.fcPin.toNat) else acc) 0
  else 0

/-- FC_STICKY takes every pin that has asserted since `before`. -/
def latchFc (before : Byte) (s : State) : State :=
  s.setHost { s.host with fcSticky := s.host.fcSticky ||| (fcStat s &&& ~~~before) }

def raiseWatermark (q : QueueNo) (x : Queue) (s : State) : State :=
  raise evWatermark [q.setWidth 16, x.xcount.setWidth 16] s

/-- The relation of a queue's watermark evaluated after a change of DEPTH (R249, R250). -/
def evalWm (q : QueueNo) (s : State) : State :=
  let x := getQ s q
  let d := depth x
  match x.wmMode with
  | .off => s
  | .level =>
    let up := decide (x.wmHi.toNat ≤ d)
    if up && !x.above then
      let x' := { x with above := true, xcount := satAdd x.xcount 1, wmFlag := true }
      let s := putQ q x' s
      if x.wmFlag then s else raiseWatermark q x' s
    else putQ q { x with above := up } s
  | .hyst =>
    let before := fcStat s
    if decide (x.wmHi.toNat ≤ d) && !x.wmState then
      let x' := { x with wmState := true, xcount := satAdd x.xcount 1 }
      raiseWatermark q x' (latchFc before (putQ q x' s))
    else if d ≤ x.wmLo.toNat then putQ q { x with wmState := false } s
    else s

/-- A queue changed, and its watermark evaluated. -/
def changeQ (q : QueueNo) (x : Queue) (s : State) : State := evalWm q (putQ q x s)

/-! ### Producers -/

/-- The queue rights of a master (R244): a voice core running a vendor class has the channel and system
queues, a customer class and the host the customer queues; the module's own masters have all. -/
def mayUse (s : State) (m : Master) (q : QueueNo) : Bool :=
  match m with
  | .host => custQueue q
  | .core n =>
    match serving s (.vc n) with
    | some t => if customerClass t.cls then custQueue q else chanQueue q || sysQueue q
    | none => false
  | .firmware => true
  | .switch => true
  | .crypto => true

def producerOn (s : State) (q : QueueNo) : Bool := s.qm.producers.any (fun e => e.2.q = some q)
def consumerOn (s : State) (m : Master) (q : QueueNo) : Bool :=
  s.qm.consumers.any (fun e => e.2.q = some q && e.1 ≠ m)

/-- Cells of a packet that does not commit return to the pool, and REWIND counts it unless it was flushed (R238). -/
def rewindPkt (m : Master) (s : State) : State :=
  let p := getProd s m
  let s := putProd m { p with q := none, cells := [], words := 0, bad := false, flushed := false } s
  match p.q with
  | none => s
  | some q =>
    if p.flushed then s
    else
      let x := getQ s q
      changeQ q { x with openCells := x.openCells - p.cells.length, rewind := satAdd x.rewind 1 } s

/-- The words of a cell's last 256 bytes: TAG, then the CRC over payload and TAG (R548). -/
def stampCell (tag : W32) (c : Nat) (s : State) : State :=
  let s := s.withMem (memWrite32 s.mem (cellBase c + 0xF8) tag 15)
  s.withMem (memWrite32 s.mem (cellBase c + 0xFC) (crc32c (fetch s (cellBase c) 0xFC)) 15)

/-- The tag of R236: on an ingress queue the channel's with SEQ 0, elsewhere the producer's at OPEN. -/
def commitTag (s : State) (q : QueueNo) (p : Producer) : W32 :=
  if ingressQueue q then
    let c : ChanNo := (q >>> 1).setWidth 13
    match findChan s c with
    | some x => mkTag c false 0 x.seed
    | none => mkTag c false 0 0
  else p.tag

/-- Bytes of a packet's last word beyond LEN read as zero (R232). -/
def clearTail (cells : List Nat) (len words : Nat) (s : State) : State :=
  (List.range (4 * words - len)).foldl (fun s k =>
    let a := 8 + len + k
    s.withMem (memWrite s.mem (cellBase (cells.getD (a / 248) 0) + a % 248) 0)) s

/-- The operand token of a commit (R239). -/
def commitToken (q : QueueNo) (s : State) : State :=
  if ingressQueue q then dataToken (q.setWidth 16) s
  else if custQueue q && (getQ s q).notify then dataToken (getQ s q).notifyFlow s
  else s

/-- A packet linked behind the last committed one, with its token; its cells were counted as open. -/
def linkPkt (q : QueueNo) (p : Packet) (s : State) : State :=
  let x := getQ s q
  commitToken q (putQ q { x with pkts := x.pkts ++ [p], openCells := x.openCells - p.cells.length } s)

/-- Units released by a queue's injection point. -/
def linkHeld (l : List HeldUnit) (s : State) : State :=
  l.foldl (fun s u => match u with
    | .packet q p => linkPkt q p s
    | _ => s) s

/-- CORRUPT on a queue: packet data bits flipped, and TAGCRC of each cell touched recomputed with RECALC (R518). -/
def corruptPkt (point : Word) (p : Packet) (n unit : Nat) (recalc : Bool) (s : State) : State :=
  let bits := fiBits point unit (8 * p.len) n
  let place := fun (b : Nat) => cellBase (p.cells.getD ((b / 8 + 8) / 248) 0) + (b / 8 + 8) % 248
  let s := bits.foldl (fun s b => s.withMem (memWrite s.mem (place b) (memRead s.mem (place b) ^^^ BitVec.ofNat 8 (2 ^ (b % 8))))) s
  if recalc then
    (bits.map (fun b => p.cells.getD ((b / 8 + 8) / 248) 0)).foldl (fun s c => stampCell p.tag c s) s
  else s

/-- A packet passes the injection point of a channel queue at commit (R516, R522). -/
def passQueuePoint (q : QueueNo) (p : Packet) (s : State) : State :=
  let point : Word := 0x8000 ||| q.setWidth 16
  if chanQueue q then
    match fiStep point (.packet q p) s with
    | (.pass, s) => linkPkt q p s
    | (.drop, s) => changeQ q { getQ s q with openCells := (getQ s q).openCells - p.cells.length } s
    | (.corrupt n unit recalc, s) => linkPkt q p (corruptPkt point p n unit recalc s)
    | (.hold, s) => s
    | (.release l, s) => linkHeld l s
  else linkPkt q p s

/-- The queue's channel is in fax relay, so that what the packetiser writes now is UDPTL (R334, R362). -/
def relaying (s : State) (q : QueueNo) : Bool :=
  match findChan s ((q >>> 1).setWidth 13) with
  | some x => chanQueue q && x.fax.active
  | none => false

/-- The commit of an open packet, with its prefix, headers and token (R232, R237). -/
def commitPkt (m : Master) (q : QueueNo) (len : Nat) (time : W32) (s : State) : State :=
  let p := getProd s m
  let tag := commitTag s q p
  let first := cellBase (p.cells.getD 0 0)
  let s := clearTail p.cells len p.words s
  let s := s.withMem (memWrite32 s.mem first (BitVec.ofNat 32 len) 15)
  let s := s.withMem (memWrite32 s.mem (first + 4) time 15)
  let s := p.cells.foldl (fun s c => stampCell tag c s) s
  let s := putProd m { p with q := none, cells := [], words := 0, bad := false, flushed := false } s
  passQueuePoint q ⟨p.cells, len, time, tag, relaying s q⟩ s

/-- CLOSE with the receive time of a packet of the switch, or the time of commit (R237). -/
def closePkt (m : Master) (valid : Nat) (bad : Bool) (time : Option W32) (s : State) : State :=
  let p := getProd s m
  match p.q with
  | none => putProd m { p with notOpen := true } s
  | some q =>
    let v := if valid = 0 then 4 else valid
    let len := if p.words = 0 then 0 else 4 * (p.words - 1) + v
    if bad || p.bad || p.flushed || decide (4 < valid) || decide (len = 0) || decide (15864 < len) then rewindPkt m s
    else commitPkt m q len (time.getD (now s)) s

/-- OPEN (R234, R243, R244). An open packet of the same port is first closed as bad. -/
def openPkt (m : Master) (q : QueueNo) (s : State) : State :=
  let s := if (getProd s m).q.isSome then rewindPkt m s else s
  let p := { getProd s m with notOpen := false }
  if !mayUse s m q then putProd m { p with status := stBadParam } s
  else if !(getQ s q).enable then putProd m { p with status := stBadState } s
  else if producerOn s q then putProd m { p with status := stBusy } s
  else putProd m { p with q := some q, cells := [], words := 0, bad := false, flushed := false, status := stOk, tag := p.tagReg } s

/-- Whether the pool grants a cell to a queue: above RESERVE, or above 0 for a system queue other than a
switch forwarding queue (R235). -/
def poolGrants (s : State) (q : QueueNo) : Bool :=
  if sysQueue q && !fwdQueue q then decide (0 < freeCells s) else decide (s.qm.reserve.toNat < freeCells s)

/-- An allocation for an open packet refused (R240). -/
def refuseCell (m : Master) (q : QueueNo) (big : Bool) (s : State) : State :=
  let p := getProd s m
  let s := if poolGrants s q then s else s.setQm { s.qm with nocell := satAdd s.qm.nocell 1 }
  let s := if big then s.setQm { s.qm with oversize := satAdd s.qm.oversize 1 } else s
  putProd m { p with bad := true } (putQ q { getQ s q with overrun := true } s)

/-- A cell taken from the pool by an open packet. -/
def takeCell (m : Master) (q : QueueNo) (s : State) : State :=
  let c := pickUnused s (usedCells s) cellTotal
  let s := clearCell c s.draw
  let p := getProd s m
  let s := noteFree (putProd m { p with cells := p.cells ++ [c] } s)
  let x := getQ s q
  changeQ q { x with openCells := x.openCells + 1 } s

/-- The word lands at its place in the packet's cells. -/
def storeWord (m : Master) (w : W32) (s : State) : State :=
  let p := getProd s m
  let a := 8 + 4 * p.words
  let s := s.withMem (memWrite32 s.mem (cellBase (p.cells.getD (a / 248) 0) + a % 248) w 15)
  putProd m { p with words := p.words + 1 } s

/-- A DATA write (R235, R240, R241). -/
def dataWrite (m : Master) (w : W32) (s : State) : State :=
  let p := getProd s m
  match p.q with
  | none => putProd m { p with notOpen := true } s
  | some q =>
    if p.bad || p.flushed then s
    else
      let x := getQ s q
      let need := p.cells.length ≤ (8 + 4 * p.words) / 248
      if need then
        if p.cells.length = 64 then refuseCell m q true s
        else if !decide (depth x < x.limit.toNat) || !poolGrants s q then refuseCell m q false s
        else storeWord m w (takeCell m q s)
      else storeWord m w s

/-- A whole packet written by the module itself: bytes, tag and receive time, closed good or bad. -/
def writePacket (m : Master) (q : QueueNo) (l : List Byte) (tag : W32) (time : Option W32) (bad : Bool) (s : State) : State :=
  let s := putProd m { getProd s m with tagReg := tag } s
  let s := openPkt m q s
  if (getProd s m).q = some q then
    let words := cdiv l.length 4
    let s := (List.range words).foldl (fun s i => dataWrite m (le32 l (4 * i)) s) s
    closePkt m (if l.length % 4 = 0 then 4 else l.length % 4) bad time s
  else s

/-! ### Consumers -/

/-- The identity tag that a packet's first cell holds (Table 09-3). -/
def storedTag (s : State) (p : Packet) : W32 := memRead32 s.mem (cellBase (p.cells.getD 0 0) + 0xF8)

/-- Data words of a packet that lie in cells with an uncorrectable error. -/
def badWords (s : State) (p : Packet) : Nat :=
  ((List.range (cdiv p.len 4)).filter (fun i => p.cells.getD ((8 + 4 * i) / 248) 0 ∈ s.qm.eccCells)).length

/-- A whole packet read by a consumer of the module: each word with an uncorrectable error is counted and sets ECC in the
consumer's port (R253). -/
def noteRead (m : Master) (p : Packet) (s : State) : State :=
  let n := badWords s p
  if n = 0 then s
  else
    let s := s.setQm { s.qm with eccErr := satAdd s.qm.eccErr n }
    putCons m { getCons s m with ecc := true } s

/-- The data bytes of a packet, read from its cells. -/
def pktByte (s : State) (p : Packet) (i : Nat) : Byte :=
  memRead s.mem (cellBase (p.cells.getD ((i + 8) / 248) 0) + (i + 8) % 248)

def pktBytes (s : State) (p : Packet) : List Byte := (List.range p.len).map (pktByte s p)

def headPkt (s : State) (q : QueueNo) : Option Packet := (getQ s q).pkts.head?

/-- SELECT (R242-R244). -/
def selectQueue (m : Master) (q : QueueNo) (deselect : Bool) (s : State) : State :=
  let c := getCons s m
  if deselect then putCons m { c with q := none, pos := 0, flushed := false, status := stOk, ecc := false } s
  else if !mayUse s m q then putCons m { c with status := stBadParam } s
  else if !(getQ s q).enable then putCons m { c with status := stBadState } s
  else if consumerOn s m q then putCons m { c with status := stBusy } s
  else putCons m { q := some q, pos := 0, flushed := false, status := stOk, ecc := false } s

/-- A read of the consumer DATA word (R242, R245, R253). -/
def dataRead (m : Master) (s : State) : State × W32 :=
  let c := getCons s m
  match c.q with
  | none => (s, 0)
  | some q =>
    if c.flushed then (s, 0)
    else
      match headPkt s q with
      | none => (s, 0)
      | some p =>
        if 4 * c.pos < p.len then
          let a := 8 + 4 * c.pos
          let cell := p.cells.getD (a / 248) 0
          let bad := cell ∈ s.qm.eccCells
          let s := if bad then s.setQm { s.qm with eccErr := satAdd s.qm.eccErr 1 } else s
          (putCons m { c with pos := c.pos + 1, ecc := c.ecc || bad } s, memRead32 s.mem (cellBase cell + a % 248))
        else (s, 0)

/-- The head packet leaves its queue, and its cells are in the pool. -/
def popHead (q : QueueNo) (s : State) : State :=
  let x := getQ s q
  changeQ q { x with pkts := x.pkts.drop 1 } s

/-- RELEASE (R242, R245). -/
def releaseHead (m : Master) (s : State) : State :=
  let c := getCons s m
  match c.q with
  | none => s
  | some q =>
    if c.flushed then putCons m { c with flushed := false, pos := 0 } s
    else putCons m { c with pos := 0 } (popHead q s)

/-! ### Flush (R245, R247) -/

def markFlushedP (q : QueueNo) (p : Producer) : Producer :=
  if p.q = some q then { p with cells := [], flushed := true } else p

def markFlushedC (q : QueueNo) (c : Consumer) : Consumer :=
  if c.q = some q then { c with flushed := true } else c

/-- QFLUSH: every committed packet is discarded, an open packet loses its cells, and a consumer reading the
head sees FLUSHED. -/
def flushQueue (q : QueueNo) (s : State) : State :=
  let x := getQ s q
  let opened := (s.qm.producers.filter (fun e => e.2.q = some q)).flatMap (fun e => e.2.cells)
  let reading := !x.pkts.isEmpty
  let point : Word := 0x8000 ||| q.setWidth 16
  let held := (alFind s.fi.points point).map (fun f => f.held) |>.getD []
  let heldHere := if chanQueue q then held.flatMap (fun u => match u with
    | .packet _ p => p.cells
    | _ => []) else []
  let s := if chanQueue q then
      (match alFind s.fi.points point with
       | some f => putFi point { f with held := [] } s
       | none => s)
    else s
  let s := s.setQm { s.qm with
    inFlush := s.qm.inFlush ++ pktCells x ++ opened ++ heldHere,
    flushedPkts := satAdd s.qm.flushedPkts x.pkts.length,
    producers := s.qm.producers.map (fun e => (e.1, markFlushedP q e.2)),
    consumers := if reading then s.qm.consumers.map (fun e => (e.1, markFlushedC q e.2)) else s.qm.consumers }
  changeQ q { x with pkts := [], openCells := 0 } s

/-- One flushed cell returns to the pool. -/
def cellReturn (s : State) : State := s.setQm { s.qm with inFlush := s.qm.inFlush.drop 1 }

/-- A queue flushed and disabled. -/
def disableQueue (q : QueueNo) (s : State) : State :=
  let s := flushQueue q s
  putQ q { getQ s q with enable := false } s

/-! ### The queue-manager region (Tables 09-5 to 09-8) -/

def wmCode : WmMode → Nat
  | .off => 0
  | .level => 1
  | .hyst => 2

def qmGlobal (s : State) (o : Nat) : Option (State × W32) :=
  match o with
  | 0x00 => some (s, BitVec.ofNat 32 (freeCells s))
  | 0x04 => some (s.setQm { s.qm with minFree := BitVec.ofNat 17 (freeCells s) }, s.qm.minFree.setWidth 32)
  | 0x08 => some (s, s.qm.reserve.setWidth 32)
  | 0x0C => some (s.setQm { s.qm with nocell := 0 }, s.qm.nocell)
  | 0x10 => some (s.setQm { s.qm with oversize := 0 }, s.qm.oversize)
  | 0x14 => some (s.setQm { s.qm with stale := 0 }, s.qm.stale)
  | 0x18 => some (s.setQm { s.qm with flushedPkts := 0 }, s.qm.flushedPkts)
  | 0x1C => some (s.setQm { s.qm with eccErr := 0 }, s.qm.eccErr)
  | _ => none

/-- HEAD: the first cell of the head packet, or the end mark. -/
def headWord (x : Queue) : W32 :=
  match (pktCells x).head? with
  | some c => BitVec.ofNat 32 c
  | none => endMark

/-- TAIL: the last cell written, that of an open packet included (Table 09-7). -/
def tailWord (s : State) (q : QueueNo) (x : Queue) : W32 :=
  let opened := (s.qm.producers.filter (fun e => e.2.q = some q)).flatMap (fun e => e.2.cells)
  match (pktCells x ++ opened).getLast? with
  | some c => BitVec.ofNat 32 c
  | none => endMark

def statusWord (s : State) (q : QueueNo) (x : Queue) : W32 :=
  pack 32 [(b2n x.overrun, 0), (b2n x.wmFlag, 1), (b2n x.above, 2), (b2n x.wmState, 3), (b2n (producerOn s q), 5),
    (b2n (s.qm.consumers.any (fun e => e.2.q = some q)), 6), (x.xcount.toNat, 8)]

def wmWord (x : Queue) : W32 := pack 32 [(x.wmHi.toNat, 0), (wmCode x.wmMode, 17), (b2n x.fcEn, 19), (x.fcPin.toNat, 20)]

def ctlWord (x : Queue) : W32 := pack 32 [(x.limit.toNat, 0), (b2n x.enable, 17), (b2n x.notify, 18)]

/-- A read of word `i` of a descriptor. XCOUNT and REWIND clear on the read. -/
def descRead (q : QueueNo) (i : Nat) (s : State) : State × W32 :=
  let x := getQ s q
  match i with
  | 0 => (s, headWord x)
  | 1 => (s, tailWord s q x)
  | 2 => (s, pack 32 [(depth x, 0), (min x.pkts.length 32767, 17)])
  | 3 => (s, ctlWord x)
  | 4 => (s, wmWord x)
  | 5 => (s, x.wmLo.setWidth 32)
  | 6 => (putQ q { x with xcount := 0 } s, statusWord s q x)
  | _ => (putQ q { x with rewind := 0 } s, pack 32 [(x.notifyFlow.toNat, 0), (x.rewind.toNat, 16)])

/-- The cell after `c` in a list of cells; none where `c` is not in it. -/
def cellAfter (c : Nat) : List Nat → Option W32
  | [] => none
  | [a] => if a = c then some endMark else none
  | a :: b :: r => if a = c then some (BitVec.ofNat 32 b) else cellAfter c (b :: r)

/-- A cell's place in the free list's order: the manual does not define it, so each cell has a free rank while the same
cells are in use, and the lower index goes first among equal ranks (log entry 85). -/
def freePlace (used : List Nat) (c : Nat) : Nat := Config.freeRank used c * cellTotal + c

/-- The free cell that follows a free cell in the pool's free list, or the end mark (R545). -/
def freeAfter (s : State) (c : Nat) : W32 :=
  let used := usedCells s
  match minBy (freePlace used) ((List.range cellTotal).filter (fun x => x ∉ used && decide (freePlace used c < freePlace used x))) with
  | some x => BitVec.ofNat 32 x
  | none => endMark

/-- NEXT of a cell (R545): in the order of its queue, its open packet or the free list. Of a cell on its way between
them the manual says nothing, and the word drawn is some cell or the end mark. -/
def linkRead (c : Nat) (s : State) : State × W32 :=
  let inQ := s.qm.queues.findSome? (fun e => cellAfter c (pktCells e.2))
  let inP := s.qm.producers.findSome? (fun e => cellAfter c e.2.cells)
  match inQ.orElse (fun _ => inP) with
  | some v => (s, v)
  | none =>
    if c ∉ usedCells s then (s, freeAfter s c)
    else
      let k := Config.pickIndex s.free % (cellTotal + 1)
      (s.draw, if k = cellTotal then endMark else BitVec.ofNat 32 k)

def prodRead (m : Master) (o : Nat) (s : State) : Option (State × W32) :=
  let p := getProd s m
  match o with
  | 0x00 => some (s, 0)
  | 0x04 => some (s, 0)
  | 0x08 => some (s, 0)
  | 0x0C => some (s, pack 32 [(p.status.toNat, 0), (b2n p.q.isSome, 16), (b2n p.bad, 17), (b2n p.notOpen, 18), (p.cells.length, 24)])
  | 0x10 => some (s, p.tagReg)
  | _ => none

/-- INFO (R242, R245). -/
def infoWord (s : State) (c : Consumer) : W32 :=
  match c.q with
  | none => 0
  | some q =>
    if c.flushed then pack 32 [(1, 15)]
    else match headPkt s q with
      | some p => pack 32 [(p.len, 0), (1, 14), (p.cells.length, 16)]
      | none => 0

def consRead (m : Master) (o : Nat) (s : State) : Option (State × W32) :=
  let c := getCons s m
  match o with
  | 0x00 => some (s, 0)
  | 0x04 => some (s, infoWord s c)
  | 0x08 => some (s, match c.q.bind (headPkt s) with
    | some p => if c.flushed then 0 else p.time
    | none => 0)
  | 0x0C => some (dataRead m s)
  | 0x10 => some (s, 0)
  | 0x14 => some (s, pack 32 [(c.status.toNat, 0), (b2n c.ecc, 16)])
  | _ => none

/-- A read of the word at offset `o` of the region by master `m`. -/
def qmRead (m : Master) (o : Nat) (s : State) : Option (State × W32) :=
  if o < 0x20 then qmGlobal s o
  else if 0x1000 ≤ o ∧ o < 0x1014 then prodRead m (o - 0x1000) s
  else if 0x1100 ≤ o ∧ o < 0x1118 then consRead m (o - 0x1100) s
  else if 0x100000 ≤ o ∧ o < 0x200000 then
    some (descRead (BitVec.ofNat 15 ((o - 0x100000) / 32)) ((o - 0x100000) % 32 / 4) s)
  else if 0x400000 ≤ o ∧ o < 0x400000 + 4 * cellTotal then some (linkRead ((o - 0x400000) / 4) s)
  else none

/-- A write of LIMIT, ENABLE and NOTIFY; ENABLE = 0 flushes the queue first (R252, R257). -/
def writeCtl (q : QueueNo) (w : W32) (s : State) : State :=
  let s := if bitOf w 17 then s else flushQueue q s
  let x := getQ s q
  let l := fld w 0 17
  putQ q { x with limit := if 1 ≤ l ∧ l ≤ cellTotal then BitVec.ofNat 17 l else x.limit, enable := bitOf w 17, notify := bitOf w 18 } s

def modeOf (n : Nat) (old : WmMode) : WmMode :=
  match n with
  | 0 => .off
  | 1 => .level
  | 2 => .hyst
  | _ => old

/-- A write to the watermark words is treated like a change of depth (R248). ABOVE is kept only in LEVEL and
STATE only in HYST; a mode that is entered starts from its own relation, so a 1 is a change to 1. -/
def rewatch (q : QueueNo) (x : Queue) (s : State) : State :=
  let x := { x with above := x.above && x.wmMode = .level, wmState := x.wmState && x.wmMode = .hyst }
  let before := fcStat s
  latchFc before (evalWm q (putQ q x s))

def writeWmHi (q : QueueNo) (w : W32) (s : State) : State :=
  let x := getQ s q
  let h := fld w 0 17
  let mode := modeOf (fld w 17 2) x.wmMode
  rewatch q { x with wmHi := if 1 ≤ h ∧ h ≤ cellTotal ∧ x.wmLo.toNat < h then BitVec.ofNat 17 h else x.wmHi,
                     wmMode := mode, fcEn := bitOf w 19, fcPin := BitVec.ofNat 3 (fld w 20 3),
                     above := x.above && mode = x.wmMode, wmState := x.wmState && mode = x.wmMode } s

def writeWmLo (q : QueueNo) (w : W32) (s : State) : State :=
  let x := getQ s q
  let l := fld w 0 17
  rewatch q { x with wmLo := if l < x.wmHi.toNat then BitVec.ofNat 17 l else x.wmLo } s

/-- The status word: OVERRUN and WM_FLAG clear where 1 is written, QFLUSH flushes. -/
def writeQStat (q : QueueNo) (w : W32) (s : State) : State :=
  let x := getQ s q
  let s := putQ q { x with overrun := x.overrun && !bitOf w 0, wmFlag := x.wmFlag && !bitOf w 1 } s
  if bitOf w 4 then flushQueue q s else s

def writeNotify (q : QueueNo) (w : W32) (s : State) : State :=
  let f : Word := w.setWidth 16
  if customerFlow f then putQ q { getQ s q with notifyFlow := f } s else s

/-- A write of word `i` of a descriptor by a master: words other than +0x10 and +0x18 of channel and system
queues fail with PROT for the host (R257). -/
def descWrite (m : Master) (q : QueueNo) (i : Nat) (v : W32) (be : BitVec 4) (s : State) : Except AccErr State :=
  let x := getQ s q
  if (m = .host || restricted s m) && !custQueue q && i ≠ 4 && i ≠ 6 then .error .prot
  else
    match i with
    | 3 => .ok (writeCtl q (mergeBe (ctlWord x) v be) s)
    | 4 => .ok (writeWmHi q (mergeBe (wmWord x) v be) s)
    | 5 => .ok (writeWmLo q (mergeBe (x.wmLo.setWidth 32) v be) s)
    | 6 => .ok (writeQStat q (v &&& beMask be) s)
    | 7 => .ok (writeNotify q (mergeBe (x.notifyFlow.setWidth 32) v be) s)
    | _ => .ok s

def qmWrite (m : Master) (o : Nat) (v : W32) (be : BitVec 4) (s : State) : Except AccErr State :=
  let w := v &&& beMask be
  if o = 0x08 then
    let n := (mergeBe (s.qm.reserve.setWidth 32) v be).toNat % 2 ^ 14
    .ok (if n ≤ 8192 then s.setQm { s.qm with reserve := BitVec.ofNat 14 n } else s)
  else if o < 0x20 then .ok s
  else if o = 0x1000 then .ok (openPkt m (w.setWidth 15) s)
  else if o = 0x1004 then .ok (dataWrite m w s)
  else if o = 0x1008 then .ok (closePkt m (fld w 0 3) (bitOf w 8) none s)
  else if o = 0x100C then .ok s
  else if o = 0x1010 then .ok (putProd m { getProd s m with tagReg := mergeBe (getProd s m).tagReg v be } s)
  else if o = 0x1100 then .ok (selectQueue m (w.setWidth 15) (bitOf w 15) s)
  else if o = 0x1110 then .ok (releaseHead m s)
  else if 0x1100 ≤ o ∧ o < 0x1118 then .ok s
  else if 0x100000 ≤ o ∧ o < 0x200000 then
    descWrite m (BitVec.ofNat 15 ((o - 0x100000) / 32)) ((o - 0x100000) % 32 / 4) v be s
  else if 0x400000 ≤ o ∧ o < 0x400000 + 4 * cellTotal then .error .prot
  else .error .absent

end Sys2Proof.Machine
end

