-- ==== Sys2Proof/Machine/Net.lean ====
section
/-! DEFINITION. The Ethernet switch and the IP interfaces (chapter 13): building and checking frames,
forwarding, class scheduling, neighbour resolution, echo replies, and sending a packet of the module. -/

namespace Sys2Proof.Machine

def getPort (s : State) (p : PortNo) : EthPort := s.sw.ports.getD p.toNat EthPort.atReset
def putPort (p : PortNo) (x : EthPort) (s : State) : State := s.setSw { s.sw with ports := setAt s.sw.ports p.toNat x }
def extPorts : List PortNo := [0, 1, 2, 3]

def portMac (s : State) (p : PortNo) : Mac := s.hw.macs.getD p.toNat 0

/-! ### VLANs and classes (R347, R348) -/

/-- Bit of a port in a VLAN's port masks; port 4 is the engine port. -/
def vlanMember (s : State) (vid : BitVec 12) (p : Nat) : Bool :=
  s.sw.vlans.any (fun v => v.vid = vid && v.members.getLsbD p)

def vlanUntagged (s : State) (vid : BitVec 12) (p : Nat) : Bool :=
  s.sw.vlans.any (fun v => v.vid = vid && v.members.getLsbD p && v.untagged.getLsbD p)

/-- The lowest VID of which a port is an untagged member. -/
def pvid (s : State) (p : Nat) : Option (BitVec 12) :=
  minBy BitVec.toNat ((s.sw.vlans.filter (fun v => v.members.getLsbD p && v.untagged.getLsbD p)).map Vlan.vid)

def classOfPcp (s : State) (pcp : BitVec 3) : Nat := (s.sw.pcpClass.getD pcp.toNat 0).toNat

def trafficClass (s : State) (c : Nat) : TrafficClass := s.sw.classes.getD c ⟨false, 1, false⟩

/-! ### Frames -/

/-- The ones' complement sum of RFC 1071 over 16-bit big-endian words. -/
def onesSum : List Byte → Nat
  | [] => 0
  | [a] => a.toNat * 256
  | a :: b :: r => a.toNat * 256 + b.toNat + onesSum r

def foldSum (n : Nat) : Nat :=
  let a := n % 65536 + n / 65536
  a % 65536 + a / 65536

def checksum (l : List Byte) : Nat := 65535 - foldSum (onesSum l)

/-- The FCS of a frame, least significant byte first. -/
def fcsBytes (l : List Byte) : List Byte := bytes4 (crc32 l)

/-- An Ethernet frame with its padding and FCS, tagged where `tag` is given. -/
def ethFrame (dst src : Mac) (tag : Option (BitVec 3 × BitVec 12)) (etype : Nat) (payload : List Byte) : List Byte :=
  let head := beBytes 6 dst.toNat ++ beBytes 6 src.toNat
  let tg := match tag with
    | some (pcp, vid) => beBytes 2 0x8100 ++ beBytes 2 (pcp.toNat * 8192 + vid.toNat)
    | none => []
  let body := head ++ tg ++ beBytes 2 etype ++ payload
  let body := body ++ List.replicate (60 - body.length) 0
  body ++ fcsBytes body

/-- The fields of a received frame. -/
structure EthView where
  dst : Mac
  src : Mac
  tagged : Bool
  pcp : BitVec 3
  vid : BitVec 12
  etype : Nat
  payload : List Byte
deriving DecidableEq, Repr

def viewFrame (f : List Byte) : EthView :=
  let body := f.take (f.length - 4)
  let dst := BitVec.ofNat 48 (beNat (body.take 6))
  let src := BitVec.ofNat 48 (beNat ((body.drop 6).take 6))
  let t := (be16 body 12).toNat
  if t = 0x8100 then
    let tci := be16 body 14
    { dst := dst, src := src, tagged := true, pcp := (tci >>> 13).setWidth 3, vid := tci.setWidth 12,
      etype := (be16 body 16).toNat, payload := body.drop 18 }
  else { dst := dst, src := src, tagged := false, pcp := 0, vid := 0, etype := t, payload := body.drop 14 }

def fcsGood (f : List Byte) : Bool := fcsBytes (f.take (f.length - 4)) = f.drop (f.length - 4)

def isGroup (m : Mac) : Bool := m.getLsbD 40
def isBroadcast (m : Mac) : Bool := m = 0xFFFFFFFFFFFF

/-- The multicast groups of IPv6 neighbour discovery and of PTP (R346). -/
def ndGroup (m : Mac) : Bool := m = 0x333300000001 || (m >>> 24 = 0x3333FF)
def ptpGroup (m : Mac) : Bool :=
  m = 0x011B19000000 || m = 0x0180C200000E || m = 0x01005E000181 || m = 0x333300000181

/-- The UDP destination port of an unfragmented IP payload. -/
def udpDstPort (v : EthView) : Option Nat :=
  if v.etype = 0x0800 ∧ byteAt v.payload 9 = 17 then
    some (be16 v.payload (4 * (fld (byteAt v.payload 0) 0 4) + 2)).toNat
  else if v.etype = 0x86DD ∧ byteAt v.payload 6 = 17 then some (be16 v.payload 42).toNat
  else none

/-- A PTP frame (Table 14-3). -/
def isPtp (v : EthView) : Bool := v.etype = 0x88F7 || udpDstPort v = some 319 || udpDstPort v = some 320

/-- A PTP event message: EtherType 0x88F7 with message type 0-3, or UDP port 319. -/
def isPtpEvent (v : EthView) : Bool :=
  (v.etype = 0x88F7 && decide (fld (byteAt v.payload 0) 0 4 < 4)) || udpDstPort v = some 319

/-! ### Transmission (R349, R350, R352) -/

def fwdQ (p : PortNo) (c : Nat) : QueueNo := BitVec.ofNat 15 (32512 + 8 * p.toNat + c)

/-- The first engine frame of a class waiting at a port. -/
def engineHead (x : EthPort) (c : Nat) : Option (List Byte) :=
  (x.txEngine.find? (fun e => e.1.toNat = c)).map (fun e => e.2)

/-- Length of the frame a class would send next; an engine frame and a forwarded one of one class are served
in an order the manual does not give. -/
def classPick (s : State) (p : PortNo) (c : Nat) : Option (Bool × Nat) :=
  match engineHead (getPort s p) c, headPkt s (fwdQ p c) with
  | none, none => none
  | some f, none => some (true, f.length)
  | none, some k => some (false, k.len)
  | some f, some k => if Config.freeBit s.free then some (true, f.length) else some (false, k.len)

/-- Deficit round robin over the WRR classes from class `cur` (R349). -/
def drr (wrr : Nat → Bool) (len : Nat → Option Nat) (weight : Nat → Nat) : Nat → Nat → List Nat → Option (Nat × List Nat)
  | 0, _, _ => none
  | n + 1, cur, d =>
    let nx := (cur + 1) % 8
    let credit := fun (d : List Nat) =>
      if wrr nx && (len nx).isSome then d.set nx (d.getD nx 0 + 1536 * weight nx) else d.set nx 0
    match (if wrr cur then len cur else none) with
    | some l => if l ≤ d.getD cur 0 then some (cur, d.set cur (d.getD cur 0 - l)) else drr wrr len weight n nx (credit d)
    | none => drr wrr len weight n nx (credit d)

/-- The class served next, and the deficits after it. -/
def nextClass (s : State) (p : PortNo) : Option (Nat × List Nat) :=
  let x := getPort s p
  let len := fun c => (classPick s p c).map (fun e => e.2)
  match ([7, 6, 5, 4, 3, 2, 1, 0].find? (fun c => !(trafficClass s c).wrr && (len c).isSome)) with
  | some c => some (c, x.deficits)
  | none => drr (fun c => (trafficClass s c).wrr) len (fun c => (trafficClass s c).weight.toNat) 80 x.lastServed.toNat x.deficits

/-- The first element that satisfies `p` removed. -/
def eraseFirst {α : Type} (p : α → Bool) : List α → List α
  | [] => []
  | a :: r => if p a then r else a :: eraseFirst p r

/-- An idle port that is up takes the next frame. -/
def startTx (p : PortNo) (s : State) : State :=
  let x := getPort s p
  if x.sending.isSome || !x.up then s
  else
    match nextClass s p with
    | none => s
    | some (c, d) =>
      -- a strict frame leaves the round where it stands (R349)
      let x := { x with deficits := d, lastServed := if (trafficClass s c).wrr then BitVec.ofNat 3 c else x.lastServed }
      match classPick s p c with
      | none => s
      | some (true, _) =>
        putPort p { x with sending := engineHead x c, txEngine := eraseFirst (fun e => e.1.toNat = c) x.txEngine } s.draw
      | some (false, _) =>
        let k := headPkt s (fwdQ p c)
        let s' := putPort p { x with sending := k.map (pktBytes s) } s.draw
        popHead (fwdQ p c) (match k with
          | some k => noteRead .switch k s'
          | none => s')

/-- A frame of the engine port handed to an external port; a port without link drops it. -/
def engineSend (p : PortNo) (c : Nat) (f : List Byte) (s : State) : State :=
  let x := getPort s p
  if x.up then startTx p (putPort p { x with txEngine := x.txEngine ++ [(BitVec.ofNat 3 c, f)] } s) else s

/-- A frame released by an Ethernet transmit point appears on the line. -/
def lineFrames (l : List HeldUnit) : List (List Byte) :=
  l.filterMap (fun u => match u with
    | .eth f => some f
    | _ => none)

/-- Bits of a frame flipped, with the FCS recomputed where RECALC asks (R518). -/
def corruptFrame (point : Word) (n unit : Nat) (recalc : Bool) (f : List Byte) : List Byte :=
  let g := flipBits (fiBits point unit (8 * f.length) n) f
  if recalc then
    let b := g.take (g.length - 4)
    b ++ fcsBytes b
  else g

/-- The frame in transmission has left the MAC: it is counted, passes the transmit injection point, and the
next one starts. -/
def txDone (p : PortNo) (s : State) : State :=
  let x := getPort s p
  match x.sending with
  | none => s
  | some f =>
    let point : Word := 4 + p.setWidth 16
    let s := putPort p { x with sending := none, txFrames := satAdd x.txFrames 1 } s
    let (out, s) := match fiStep point (.eth f) s with
      | (.pass, s) => ([f], s)
      | (.drop, s) => ([], s)
      | (.corrupt n unit recalc, s) => ([corruptFrame point n unit recalc f], s)
      | (.hold, s) => ([], s)
      | (.release l, s) => (lineFrames l, s)
    startTx p (putPort p { getPort s p with line := out } s)

/-- Every frame that waits at a port leaves, the frames on the line kept in their order. -/
def flushTx (p : PortNo) : Nat → State → State
  | 0, s => s
  | n + 1, s =>
    if (getPort s p).sending.isNone then s
    else
      let before := (getPort s p).line
      let s := txDone p s
      flushTx p n (putPort p { getPort s p with line := before ++ (getPort s p).line } s)

/-- Frames waiting at a port. -/
def waitingTx (s : State) (p : PortNo) : Nat :=
  (getPort s p).txEngine.length + sumOf (fun c => (getQ s (fwdQ p c)).pkts.length) (List.range 8)

/-- The port sends what it holds before it loses its power (R361). -/
def drainPort (p : PortNo) (s : State) : State := flushTx p (waitingTx s p + 1) (putPort p { getPort s p with line := [] } s)

/-! ### Forwarding -/

/-- The form in which a frame leaves a port: untagged on an untagged member, tagged on the others. -/
def egressForm (s : State) (p : Nat) (vid : BitVec 12) (v : EthView) : List Byte :=
  ethFrame v.dst v.src (if vlanUntagged s vid p then none else some (v.pcp, vid)) v.etype v.payload

def speedRank (x : EthPort) : Nat := if x.up then x.speed.toNat else 0

/-- A bad FCS kept in a cut-through frame. -/
def spoilFcs (f : List Byte) : List Byte := f.take (f.length - 4) ++ bytes4 (~~~le32 f (f.length - 4))

/-- A frame forwarded to one external port (R350-R352). -/
def forwardTo (inp p : PortNo) (cls : Nat) (f : List Byte) (time : W32) (bad : Bool) (s : State) : State :=
  let x := getPort s p
  let q := fwdQ p cls
  if !x.up then s
  else if (trafficClass s cls).cut && (classPick s p cls).isNone && x.sending.isNone &&
      decide (speedRank x ≤ speedRank (getPort s inp)) then
    putPort p { x with sending := some (if bad then spoilFcs f else f),
                       rxFcs := if bad then satAdd x.rxFcs 1 else x.rxFcs } s
  else if decide ((getQ s q).limit.toNat ≤ depth (getQ s q)) then
    putPort p { x with txQDrop := satAdd x.txQDrop 1 } s
  else startTx p (writePacket .switch q f 0 (some time) bad s)

/-- The source address learned (R346). While the table is full no address is learned, and an entry keeps its port. -/
def learn (vid : BitVec 12) (src : Mac) (p : PortNo) (s : State) : State :=
  if isGroup src || decide (16384 ≤ s.sw.macTable.length) then s
  else if s.sw.macTable.any (fun e => e.1 = vid && e.2.1 = src) then
    s.setSw { s.sw with macTable := s.sw.macTable.map (fun e => if e.1 = vid && e.2.1 = src then (vid, src, p) else e) }
  else s.setSw { s.sw with macTable := s.sw.macTable ++ [(vid, src, p)] }

/-! ### IP -/

def ip4 (a : Ip) : W32 := (a >>> 96).setWidth 32

def ipBytes (a : Ip) : List Byte := if ipIsV4 a then beBytes 4 (ip4 a).toNat else beBytes 16 a.toNat

/-- An address from packet bytes. -/
def ipOf4 (l : List Byte) (i : Nat) : Ip := (be32 l i).setWidth 128 <<< 96
def ipOf6 (l : List Byte) (i : Nat) : Ip := BitVec.ofNat 128 (beNat ((l.drop i).take 16))

def hasIf (x : EthPort) : Bool := x.addr ≠ 0
def ifV4 (x : EthPort) : Bool := ipIsV4 x.addr

/-- The VLAN of a port's interface: VLAN 0 means the PVID (R353). -/
def ifVlan (s : State) (p : PortNo) : Option (BitVec 12) :=
  let x := getPort s p
  if x.vlan = 0 then pvid s p.toNat else some x.vlan

/-- The destination lies within the interface's prefix. -/
def onLink (x : EthPort) (d : Ip) : Bool := (x.addr >>> (128 - x.plen.toNat)) = (d >>> (128 - x.plen.toNat))

def findNeigh (s : State) (p : PortNo) (ip : Ip) : Option Neighbour :=
  s.sw.neighbours.find? (fun n => n.port = p && n.ip = ip)

/-- A committed ROUTER value takes effect (R374): the off-link next hop is about to be resolved. -/
def takeRouter (p : PortNo) (s : State) : State :=
  let x := getPort s p
  if x.hop = x.router then s else putPort p { x with hop := x.router } s

/-- The off-link next hop, which is the committed ROUTER as soon as it must be resolved (R355, R374). -/
def offLinkHop (p : PortNo) (s : State) : State :=
  if (findNeigh s p (getPort s p).hop).isSome then s else takeRouter p s

/-- The next hop of R355; none for an off-link destination without a router. -/
def nextHop (x : EthPort) (d : Ip) : Option Ip :=
  if onLink x d then some d else if x.hop = 0 then none else some x.hop

/-- A frame of the module leaves by a port in a class, in the VLAN of its interface. -/
def sendIn (p : PortNo) (cls : Nat) (pcp : BitVec 3) (dst : Mac) (etype : Nat) (payload : List Byte) (s : State) : State :=
  match ifVlan s p with
  | none => s
  | some vid =>
    let v : EthView := { dst := dst, src := portMac s p, tagged := true, pcp := pcp, vid := vid, etype := etype, payload := payload }
    engineSend p cls (egressForm s p.toNat vid v) s

/-- A frame of the module leaves in the class of its PCP (R348). -/
def sendL2 (p : PortNo) (pcp : BitVec 3) (dst : Mac) (etype : Nat) (payload : List Byte) (s : State) : State :=
  sendIn p (classOfPcp s pcp) pcp dst etype payload s

/-- The IPv6 pseudo-header of a checksum. -/
def pseudo6 (src dst : Ip) (len proto : Nat) : List Byte :=
  beBytes 16 src.toNat ++ beBytes 16 dst.toNat ++ beBytes 4 len ++ beBytes 4 proto

/-- An IPv6 packet. -/
def ip6Packet (src dst : Ip) (tc hop proto : Nat) (l : List Byte) : List Byte :=
  beBytes 4 (6 * 2 ^ 28 + tc * 2 ^ 20) ++ beBytes 2 l.length ++ beBytes 1 proto ++ beBytes 1 hop ++
  beBytes 16 src.toNat ++ beBytes 16 dst.toNat ++ l

/-- An IPv4 packet with DF set (R354). -/
def ip4Packet (src dst : Ip) (tos ident ttl proto : Nat) (l : List Byte) : List Byte :=
  let h := fun (c : Nat) => beBytes 1 0x45 ++ beBytes 1 tos ++ beBytes 2 (20 + l.length) ++ beBytes 2 ident ++
    beBytes 2 0x4000 ++ beBytes 1 ttl ++ beBytes 1 proto ++ beBytes 2 c ++ ipBytes src ++ ipBytes dst
  h (checksum (h 0)) ++ l

/-- An ICMPv6 message with its checksum in bytes 2-3. -/
def icmp6 (src dst : Ip) (m : List Byte) : List Byte :=
  let c := checksum (pseudo6 src dst m.length 58 ++ m)
  m.take 2 ++ beBytes 2 c ++ m.drop 4

/-- The solicited-node group of an address, and its MAC. -/
def solicited (a : Ip) : Ip := (0xFF0200000000000000000001FF000000 : Ip) ||| (a &&& 0xFFFFFF)
def solicitedMac (a : Ip) : Mac := (0x3333FF000000 : Mac) ||| (a &&& 0xFFFFFF).setWidth 48

/-- The request that resolves a next hop: ARP, or a neighbour solicitation (R355). -/
def sendResolve (p : PortNo) (ip : Ip) (s : State) : State :=
  let x := getPort s p
  if ifV4 x then
    sendL2 p 0 0xFFFFFFFFFFFF 0x0806
      (beBytes 2 1 ++ beBytes 2 0x0800 ++ [6, 4] ++ beBytes 2 1 ++ beBytes 6 (portMac s p).toNat ++ ipBytes x.addr ++
       beBytes 6 0 ++ ipBytes ip) s
  else
    let m := [135, 0, 0, 0, 0, 0, 0, 0] ++ beBytes 16 ip.toNat ++ [1, 1] ++ beBytes 6 (portMac s p).toNat
    sendL2 p 0 (solicitedMac ip) 0x86DD (ip6Packet x.addr (solicited ip) 0 255 58 (icmp6 x.addr (solicited ip) m)) s

/-- The MAC of a next hop; an unknown one is entered and resolution starts (R355). -/
def resolve (p : PortNo) (ip : Ip) (s : State) : Option Mac × State :=
  match findNeigh s p ip with
  | some n => (n.mac, s)
  | none =>
    if s.sw.neighbours.length < 4096 then
      (none, sendResolve p ip (s.setSw { s.sw with neighbours := s.sw.neighbours ++ [⟨p, ip, none⟩] }))
    else (none, s)

/-- An IP packet sent by an interface: whether it left, and the state. Packets for an unresolved next hop are
discarded and counted in NEIGH_DROP (R355). -/
def sendIp (p : PortNo) (pcp : BitVec 3) (dst : Ip) (packet : List Byte) (s : State) : Bool × State :=
  let s := if onLink (getPort s p) dst then s else offLinkHop p s
  let x := getPort s p
  match nextHop x dst with
  | none => (false, s)
  | some hop =>
    match resolve p hop s with
    | (none, s) =>
      let x := getPort s p
      (false, putPort p { x with neighDrop := satAdd x.neighDrop 1 } s)
    | (some mac, s) => (true, sendL2 p pcp mac (if ifV4 x then 0x0800 else 0x86DD) packet s)

/-- A UDP datagram with its checksum. -/
def udpDatagram (src dst : Ip) (v4 : Bool) (sp dp : Word) (l : List Byte) : List Byte :=
  let n := 8 + l.length
  let h := fun (c : Nat) => beBytes 2 sp.toNat ++ beBytes 2 dp.toNat ++ beBytes 2 n ++ beBytes 2 c ++ l
  let ps := if v4 then ipBytes src ++ ipBytes dst ++ beBytes 2 17 ++ beBytes 2 n else pseudo6 src dst n 17
  let c := checksum (ps ++ h 0)
  h (if c = 0 then 65535 else c)

/-- A UDP packet of a session: DSCP 46, TTL or hop limit 64 (R359). -/
def sendUdp (p : PortNo) (pcp : BitVec 3) (dst : Ip) (sp dp : Word) (l : List Byte) (s : State) : Bool × State :=
  let x := getPort s p
  let d := udpDatagram x.addr dst (ifV4 x) sp dp l
  let ident := (Config.free32 s.free).toNat % 65536
  if ifV4 x then sendIp p pcp dst (ip4Packet x.addr dst 184 ident 64 17 d) s.draw
  else sendIp p pcp dst (ip6Packet x.addr dst 184 64 17 d) s

/-- A neighbour's answer fills its entry, where one waits for it or is held. -/
def neighbourHeard (p : PortNo) (ip : Ip) (mac : Mac) (s : State) : State :=
  s.setSw { s.sw with neighbours := s.sw.neighbours.map (fun n => if n.port = p && n.ip = ip then { n with mac := some mac } else n) }

/-- ARP received for an interface (R354). -/
def arpArrive (p : PortNo) (l : List Byte) (s : State) : State :=
  let x := getPort s p
  let op := be16 l 6
  let sha : Mac := BitVec.ofNat 48 (beNat ((l.drop 8).take 6))
  let spa := ipOf4 l 14
  let tpa := ipOf4 l 24
  if !hasIf x || !ifV4 x then s
  else if op = 1 ∧ tpa = x.addr then
    sendL2 p 0 sha 0x0806
      (beBytes 2 1 ++ beBytes 2 0x0800 ++ [6, 4] ++ beBytes 2 2 ++ beBytes 6 (portMac s p).toNat ++ ipBytes x.addr ++
       beBytes 6 sha.toNat ++ ipBytes spa) s
  else if op = 2 then neighbourHeard p spa sha s
  else s

/-- A neighbour solicitation answered, or an advertisement heard (R354, R355). -/
def ndArrive (p : PortNo) (src : Ip) (l : List Byte) (mac : Mac) (s : State) : State :=
  let x := getPort s p
  let target := ipOf6 l 8
  if !hasIf x || ifV4 x then s
  else if byteAt l 0 = 135 ∧ target = x.addr then
    let m := [136, 0, 0, 0, 0x60, 0, 0, 0] ++ beBytes 16 x.addr.toNat ++ [2, 1] ++ beBytes 6 (portMac s p).toNat
    sendL2 p 0 mac 0x86DD (ip6Packet x.addr src 0 255 58 (icmp6 x.addr src m)) s
  else if byteAt l 0 = 136 then neighbourHeard p target mac s
  else s

/-- An echo request answered: at most 1,500 bytes, at most 100 in a second (R354). The service class, the
identification and the hop limit of the reply are not in the manual. -/
def echoReply (p : PortNo) (src : Ip) (size : Nat) (v6 : Bool) (l : List Byte) (s : State) : State :=
  let x := getPort s p
  let recent := x.echoTimes.filter (fun t => decide (uptime s < t + 500000000))
  if 1500 < size ∨ 100 ≤ recent.length then s
  else
    let s := putPort p { x with echoTimes := recent ++ [uptime s] } s
    let d := Config.free32 s.free
    if v6 then
      let m := [129, 0, 0, 0] ++ l.drop 4
      (sendIp p 0 src (ip6Packet x.addr src (fld d 0 8) (1 + fld d 8 7) 58 (icmp6 x.addr src m)) s.draw).2
    else
      let m := [0, 0, 0, 0] ++ l.drop 4
      let m := m.take 2 ++ beBytes 2 (checksum m) ++ m.drop 4
      (sendIp p 0 src (ip4Packet x.addr src (fld d 0 8) (fld d 16 16) (1 + fld d 8 7) 1 m) s.draw).2

/-- The fields of a received UDP packet. -/
structure UdpView where
  src : Ip
  dst : Ip
  sport : Word
  dport : Word
  data : List Byte
  good : Bool
deriving DecidableEq, Repr

/-- What an IP packet for an interface holds: UDP, an echo request, neighbour discovery, or nothing the module takes. -/
inductive IpView where
  | udp (u : UdpView)
  | echo (src : Ip) (size : Nat) (v6 : Bool) (l : List Byte)
  | nd (src : Ip) (l : List Byte)
  | nothing
deriving DecidableEq, Repr

/-- Whether a UDP checksum is good: it sums to zero, or it is an IPv4 zero (R358). -/
def udpGood (ps l : List Byte) (v4 : Bool) : Bool :=
  (v4 && be16 l 6 = 0) || (be16 l 6 ≠ 0 && foldSum (onesSum (ps ++ l)) = 65535)

def viewIp4 (l : List Byte) : IpView :=
  let hl := 4 * fld (byteAt l 0) 0 4
  let total := (be16 l 2).toNat
  let src := ipOf4 l 12
  let dst := ipOf4 l 16
  if fld (byteAt l 0) 4 4 ≠ 4 ∨ hl < 20 ∨ total < hl ∨ l.length < total ∨ foldSum (onesSum (l.take hl)) ≠ 65535 then .nothing
  else if fld (be16 l 6) 0 14 ≠ 0 then .nothing      -- a fragment: MF set or an offset
  else
    let d := (l.take total).drop hl
    if byteAt l 9 = 17 then
      let n := (be16 d 4).toNat
      if n < 8 ∨ d.length < n then .nothing
      else
        let d := d.take n
        let ps := ipBytes src ++ ipBytes dst ++ beBytes 2 17 ++ beBytes 2 n
        .udp { src := src, dst := dst, sport := be16 d 0, dport := be16 d 2, data := d.drop 8, good := udpGood ps d true }
    else if byteAt l 9 = 1 ∧ byteAt d 0 = 8 then .echo src total false d
    else .nothing

def viewIp6 (l : List Byte) : IpView :=
  let n := (be16 l 4).toNat
  let src := ipOf6 l 8
  let dst := ipOf6 l 24
  if fld (byteAt l 0) 4 4 ≠ 6 ∨ l.length < 40 + n then .nothing
  else
    let d := (l.drop 40).take n
    if byteAt l 6 = 17 then
      let k := (be16 d 4).toNat
      if k < 8 ∨ d.length < k then .nothing
      else
        let d := d.take k
        .udp { src := src, dst := dst, sport := be16 d 0, dport := be16 d 2, data := d.drop 8, good := udpGood (pseudo6 src dst k 17) d false }
    else if byteAt l 6 = 58 ∧ byteAt d 0 = 128 then .echo src (40 + n) true d
    else if byteAt l 6 = 58 ∧ (byteAt d 0 = 135 ∨ byteAt d 0 = 136) then .nd src d
    else .nothing

/-- The port whose interface a packet addresses: its address and its VLAN (R353, R357). -/
def ifaceFor (s : State) (vid : BitVec 12) (dst : Ip) : Option PortNo :=
  extPorts.find? (fun p => hasIf (getPort s p) && (getPort s p).addr = dst && ifVlan s p = some vid)

/-- The port whose interface lies in a VLAN and has a family. -/
def ifaceIn (s : State) (vid : BitVec 12) (v4 : Bool) : List PortNo :=
  extPorts.filter (fun p => hasIf (getPort s p) && ifV4 (getPort s p) = v4 && ifVlan s p = some vid)

/-- ROUTER (R374): four words; the committed value is what the module uses and what reads return. -/
def routerWord (a : Ip) (i : Nat) : W32 :=
  let l := beBytes 16 a.toNat
  le32 l (4 * i)

/-- Sixteen bytes from four words in memory order. -/
def ipFromWords (a b c d : W32) : Ip := BitVec.ofNat 128 (beNat (bytes4 a ++ bytes4 b ++ bytes4 c ++ bytes4 d))

def writeRouter (p : PortNo) (i : Nat) (v : W32) (s : State) : State :=
  let x := getPort s p
  let h := fun (k : Nat) => (x.routerHold >>> (32 * k)).setWidth 32
  if i = 3 then putPort p { x with router := ipFromWords (h 0) (h 1) (h 2) v } s
  else
    let m : BitVec 96 := (0xFFFFFFFF : BitVec 96) <<< (32 * i)
    putPort p { x with routerHold := (x.routerHold &&& ~~~m) ||| (v.setWidth 96 <<< (32 * i)) } s

/-! ### The switch and TDM regions (Tables 13-5, 13-6) -/

def portStat (x : EthPort) : W32 :=
  pack 32 [(b2n x.up, 0), (if x.up then x.speed.toNat else 0, 1), (b2n x.ptpTs, 4), (b2n (hasIf x), 5)]

/-- A port counter read and cleared. -/
def portCounter (p : PortNo) (i : Nat) (s : State) : State × W32 :=
  let x := getPort s p
  match i with
  | 0 => (putPort p { x with rxFrames := 0 } s, x.rxFrames)
  | 1 => (putPort p { x with txFrames := 0 } s, x.txFrames)
  | 2 => (putPort p { x with rxFcs := 0 } s, x.rxFcs)
  | 3 => (putPort p { x with rxOversize := 0 } s, x.rxOversize)
  | 4 => (putPort p { x with rxNoVlan := 0 } s, x.rxNoVlan)
  | 5 => (putPort p { x with txQDrop := 0 } s, x.txQDrop)
  | _ => (putPort p { x with neighDrop := 0 } s, x.neighDrop)

def swRead (o : Nat) (s : State) : Option (State × W32) :=
  if o < 0x400 then
    let p : PortNo := BitVec.ofNat 2 (o / 0x100)
    let x := getPort s p
    let i := o % 0x100
    if i = 0 then some (s, portStat x)
    else if i = 4 then some (s, (portMac s p).setWidth 32)
    else if i = 8 then some (s, (portMac s p >>> 32).setWidth 32)
    else if 0x10 ≤ i ∧ i < 0x2C then some (portCounter p ((i - 0x10) / 4) s)
    else if 0x40 ≤ i ∧ i < 0x50 then some (s, routerWord x.router ((i - 0x40) / 4))
    else none
  else if o = 0x400 then some (s.setSw { s.sw with sessMiss := 0 }, s.sw.sessMiss)
  else if o = 0x404 then some (s, BitVec.ofNat 32 s.sw.macTable.length)
  else if o = 0x408 then some (s, BitVec.ofNat 32 s.sw.neighbours.length)
  else none

def swWrite (o : Nat) (v : W32) (be : BitVec 4) (s : State) : Except AccErr State :=
  match swRead o s with
  | none => .error .absent
  | some _ =>
    if o < 0x400 ∧ 0x40 ≤ o % 0x100 ∧ o % 0x100 < 0x50 then
      let p : PortNo := BitVec.ofNat 2 (o / 0x100)
      let i := (o % 0x100 - 0x40) / 4
      let x := getPort s p
      let old := if i = 3 then routerWord x.router 3 else (x.routerHold >>> (32 * i)).setWidth 32
      .ok (writeRouter p i (mergeBe old v be) s)
    else .error .prot

def getHwy (s : State) (n : HwyNo) : Highway := s.tdm.getD n.toNat Highway.atReset
def putHwy (n : HwyNo) (x : Highway) (s : State) : State := s.setTdm (setAt s.tdm n.toNat x)

def hwyRead (n : HwyNo) (i : Nat) (s : State) : Option (State × W32) :=
  let x := getHwy s n
  if i = 0 then
    some (s, pack 32 [(b2n x.cfg.enabled, 0), (b2n x.cfg.master, 1), (b2n x.aligned, 2), (b2n x.cfg.muLaw, 3),
      (x.cfg.idle.toNat, 8), (x.cfg.fsOffset.toNat, 16)])
  else if i = 4 then some (putHwy n { x with rxRep := 0, rxDel := 0 } s, x.rxDel ++ x.rxRep)
  else if i = 8 then some (putHwy n { x with txRep := 0, txDel := 0 } s, x.txDel ++ x.txRep)
  else if i = 12 then some (putHwy n { x with fsErr := 0, alignLoss := 0 } s, x.alignLoss ++ x.fsErr)
  else if 0x20 ≤ i ∧ i < 0x40 then some (s, (x.own >>> (8 * (i - 0x20))).setWidth 32)
  else none

def tdmRead (o : Nat) (s : State) : Option (State × W32) :=
  if o < 0x800 then hwyRead (BitVec.ofNat 5 (o / 0x40)) (o % 0x40) s else none

def tdmWrite (o : Nat) (s : State) : Except AccErr State :=
  match tdmRead o s with
  | none => .error .absent
  | some _ => .error .prot

end Sys2Proof.Machine
end

