-- ==== Sys2Proof/Machine/Operands.lean ====
section
/-! DEFINITION. Operands of the channel commands: the profile of Table 07-3 read from its argument words
and written back, the checks that give BAD_PARAM (R184, R189, R308, R322, R340, R356, R368), and what
the profile is charged (R25-R27, R315). -/

namespace Sys2Proof.Machine

/-- The profile in 23 argument words (Table 07-3). -/
def profileOf (a : List Word) : Profile :=
  let w := arg a
  { priority := bitOf (w 1) 0, t38 := bitOf (w 1) 1, wideband := bitOf (w 1) 2, srtp := bitOf (w 1) 3,
    ipv6 := bitOf (w 1) 4, codec := (w 2).setWidth 4, ptime := (w 2 >>> 4).setWidth 4, pt := (w 2 >>> 8).setWidth 7,
    ecTail := (w 3).setWidth 5, nlp := (w 3 >>> 8).setWidth 2, tones := (w 4).setWidth 8, toneGen := bitOf (w 4) 8,
    models := (w 5).setWidth 4, passes := (w 5 >>> 4).setWidth 2, cmodel := (w 5 >>> 8).setWidth 4,
    jbMin := w 6, jbMax := w 7, hwy := (w 8).setWidth 5, slot := (w 8 >>> 5).setWidth 8,
    group := (w 9).setWidth 10, vlan := (w 10).setWidth 12, pcp := (w 10 >>> 12).setWidth 3,
    lPort := w 11, rPort := w 12, ssrc := arg2 a 13, rAddr := argIp a 15 }

/-- The 23 words of a profile, as CH_QUERY returns them. -/
def profileWords (c : ChanNo) (p : Profile) : List Word :=
  [c.setWidth 16,
   pack 16 [(b2n p.priority, 0), (b2n p.t38, 1), (b2n p.wideband, 2), (b2n p.srtp, 3), (b2n p.ipv6, 4)],
   pack 16 [(p.codec.toNat, 0), (p.ptime.toNat, 4), (p.pt.toNat, 8)],
   pack 16 [(p.ecTail.toNat, 0), (p.nlp.toNat, 8)],
   pack 16 [(p.tones.toNat, 0), (b2n p.toneGen, 8)],
   pack 16 [(p.models.toNat, 0), (p.passes.toNat, 4), (p.cmodel.toNat, 8)],
   p.jbMin, p.jbMax, pack 16 [(p.hwy.toNat, 0), (p.slot.toNat, 5)], p.group.setWidth 16,
   pack 16 [(p.vlan.toNat, 0), (p.pcp.toNat, 12)], p.lPort, p.rPort] ++ words2 p.ssrc ++ ipWords p.rAddr

/-- No reserved bit of the profile words is set (R182). -/
def profileReserved (a : List Word) : Bool :=
  let w := fun i => (arg a i).toNat
  decide (w 0 < 2 ^ 13 ∧ w 1 < 2 ^ 5 ∧ w 2 < 2 ^ 15 ∧ w 3 < 2 ^ 10 ∧ w 3 / 32 % 8 = 0 ∧ w 4 < 2 ^ 9 ∧
    w 5 < 2 ^ 12 ∧ w 5 / 64 % 4 = 0 ∧ w 8 < 2 ^ 13 ∧ w 9 < 2 ^ 10 ∧ w 10 < 2 ^ 15)

/-- A combination of Table 12-2 (R322). -/
def codecOk (p : Profile) : Bool :=
  let t := p.ptime.toNat
  let any := decide (1 ≤ t) && decide (t ≤ 8)
  match p.codec.toNat with
  | 0 => !p.wideband && any
  | 1 => !p.wideband && any
  | 2 => !p.wideband && any
  | 3 => !p.wideband && any
  | 4 => !p.wideband && any
  | 5 => !p.wideband && any
  | 6 => !p.wideband && (t = 2 || t = 4 || t = 6 || t = 8)
  | 7 => p.wideband && any
  | 8 => t = 4 || t = 8
  | 9 => any
  | _ => false

/-- The factor of Table 01-6 for a number of passes (R27). -/
def passFactor (p : BitVec 2) : Nat :=
  match p.toNat with
  | 0 => 0
  | 1 => 1
  | 2 => 3
  | _ => 6

/-- The customer model slot a profile names, where it is loaded. -/
def slotOf (s : State) (p : Profile) : Option ModelSlot := alFind s.ten.slots p.cmodel.toNat

/-- Units of the customer model at the profile's passes and width (Table 11-11). -/
def customerTu (s : State) (p : Profile) : Nat :=
  if p.cmodel = 0 then 0
  else match slotOf s p with
    | some m => (arg (if p.wideband then m.tuWb else m.tuNb) (p.passes.toNat - 1)).toNat
    | none => 0

/-- Tensor units of a profile (R27, Table 01-6). -/
def tuCost (s : State) (p : Profile) : Nat :=
  let vendor := (if bitOf p.models 0 then (if p.wideband then 2 else 1) else 0) + b2n (bitOf p.models 1) +
    b2n (bitOf p.models 2) + b2n (bitOf p.models 3)
  vendor * passFactor p.passes + customerTu s p

/-- The customer model can run at the profile's width (R308). -/
def modelFits (s : State) (p : Profile) : Bool :=
  p.cmodel = 0 ||
  match slotOf s p with
  | some m => if p.wideband then bitOf m.flags 1 else bitOf m.flags 0
  | none => false

/-- The tensor rules of R308 that need the loaded models. -/
def tensorOk (s : State) (p : Profile) : Bool :=
  (p.models = 0 && p.cmodel = 0) || (modelFits s p && decide (tuCost s p ≤ 128))

/-- The profile rules that a profile can break by itself (R182, R184, R189, R308, R322, R340). -/
def profileOk (a : List Word) (p : Profile) : Bool :=
  profileReserved a && !(p.passes = 0 && (p.models ≠ 0 || p.cmodel ≠ 0)) && codecOk p && decide (p.nlp.toNat ≤ 2) && !(p.nlp ≠ 0 && p.ecTail = 0) &&
  (p.ecTail = 0 || (decide (2 ≤ p.ecTail.toNat) && decide (p.ecTail.toNat ≤ 16))) &&
  decide (p.jbMin.toNat ≤ p.jbMax.toNat) && decide (p.jbMax.toNat ≤ 300) &&
  decide (p.vlan.toNat ≤ 4094) && !bitOf p.lPort 0 && !bitOf p.rPort 0 &&
  (p.ipv6 || p.rAddr.setWidth 96 = (0 : BitVec 96)) && !(p.t38 && p.wideband)

/-- The interface of R356: the lowest port whose interface has the profile's VLAN and family. -/
def bindPort (s : State) (p : Profile) : Option PortNo :=
  extPorts.find? (fun n =>
    let x := getPort s n
    hasIf x && ifV4 x = !p.ipv6 && (ifVlan s n).isSome &&
    (if p.vlan = 0 then ifVlan s n = pvid s n.toNat else ifVlan s n = some p.vlan))

/-- The timeslots a profile uses (R368). -/
def slotsOf (p : Profile) : List Nat := if p.wideband then [p.slot.toNat, p.slot.toNat + 1] else [p.slot.toNat]

/-- The transmit timeslots of a highway that SLOT_MAP has given the module, those of the next frame boundary included. -/
def ownedSlots (x : Highway) : BitVec 256 := x.nextOwn.getD x.own

/-- The timeslots exist and are the module's (R189, R368). -/
def slotsOwned (s : State) (p : Profile) : Bool :=
  (slotsOf p).all (fun t => decide (t < 256) && (ownedSlots (getHwy s p.hwy)).getLsbD t)

/-- Profiles in force or accepted for the channels other than `c`. -/
def otherProfiles (s : State) (c : ChanNo) : List Profile :=
  (s.led.chans.filter (fun x => x.no ≠ c)).flatMap (fun x => x.prof :: x.nextProf.toList)

/-- Another channel uses one of the timeslots (R368). -/
def slotsShared (s : State) (c : ChanNo) (p : Profile) : Bool :=
  (otherProfiles s c).any (fun q => q.hwy = p.hwy && (slotsOf q).any (fun t => t ∈ slotsOf p))

/-- Another session has the same local port, remote address and remote port (R189). -/
def sessionTaken (s : State) (c : ChanNo) (p : Profile) : Bool :=
  (otherProfiles s c).any (fun q => q.lPort = p.lPort && q.rAddr = p.rAddr && q.rPort = p.rPort)

/-- What the module's state must allow for a channel that is to have the profile; else BAD_PARAM. -/
def profileFits (s : State) (c : ChanNo) (p : Profile) : Bool :=
  tensorOk s p && slotsOwned s p && !slotsShared s c p &&
  !sessionTaken s c p && (bindPort s p).isSome

/-! ### Costs in load units (Table 01-5) -/

def codecLu (p : Profile) : Nat :=
  match p.codec.toNat with
  | 0 => 1
  | 1 => 1
  | 2 => 4
  | 3 => 4
  | 4 => 4
  | 5 => 4
  | 6 => 24
  | 7 => 6
  | 8 => if p.wideband then 48 else 24
  | _ => 1

/-- The echo canceller's cost for a tail of 8n ms. -/
def echoLu (p : Profile) : Nat :=
  if p.ecTail = 0 then 0
  else
    let n := 2 + cdiv (8 * p.ecTail.toNat) 16
    if p.wideband then 2 * n else n

/-- One LU for each detection set, and one for tone generation. -/
def toneLu (p : Profile) : Nat :=
  ((List.range 8).filter (fun i => bitOf p.tones i)).length + b2n p.toneGen

/-- 15 ms at the 10 ms row, longer intervals at the 20 ms row (R315). -/
def packLu (p : Profile) : Nat :=
  if 4 ≤ p.ptime.toNat then 2 else if 2 ≤ p.ptime.toNat then 3 else 5

/-- LU charged (R25, R26): the jitter buffer costs 1, and a channel that permits T.38 at least 96. -/
def luCost (p : Profile) : Nat :=
  let voice := codecLu p + echoLu p + toneLu p + 1 + packLu p
  if p.t38 then max voice 96 else voice

/-! ### Rates -/

/-- RTP clock in units per 5 ms (Table 12-2). -/
def clockPer5 (p : Profile) : Nat :=
  match p.codec.toNat with
  | 8 => 240
  | 9 => if p.wideband then 80 else 40
  | _ => 40

/-- Payload bytes per 20 ms (Table 12-2). -/
def bytesPer20 (p : Profile) : Nat :=
  match p.codec.toNat with
  | 0 => 160
  | 1 => 160
  | 2 => 40
  | 3 => 60
  | 4 => 80
  | 5 => 100
  | 6 => 20
  | 7 => 160
  | 8 => if p.wideband then 60 else 30
  | _ => if p.wideband then 640 else 320

/-- The telephone-event payload type (R332). -/
def eventPt (p : Profile) : Nat := if p.pt = 101 then 100 else 101

end Sys2Proof.Machine
end

