-- ==== Sys2Proof/Machine/Audio.lean ====
section
/-! DEFINITION. Samples (chapter 12): G.711 companding (R85, R368), the codecs of Table 12-2, concealment and comfort
noise (R325, R326), the non-linear processor (R318) and the frames of the processing path (R22). -/

namespace Sys2Proof.Machine

/-! ### Samples and octets -/

/-- A 16-bit linear sample as binary32 with full scale ±1.0. -/
def linear (v : Int) : W32 := (write32 false (.num (decide (v < 0)) v.natAbs (-15))).w

/-- A sample as 16-bit linear: truncated, held to the range; a NaN is 0. -/
def toLinear (w : W32) : Int :=
  match fmt32.decode w.toNat with
  | .nan => 0
  | .inf n => if n then -32768 else 32767
  | .num n m e => max (-32768) (min 32767 (signed n (scaleTrunc m (e + 15))))

/-- A G.711 segment and step widened to a magnitude: A-law in 13 bits, µ-law in 14 bits. -/
def aLawMag (seg step : Nat) : Nat := if seg = 0 then 2 * step + 1 else (2 * step + 33) * 2 ^ (seg - 1)
def muLawMag (seg step : Nat) : Nat := (2 * step + 33) * 2 ^ seg - 33

/-- An octet of a timeslot or of a G.711 payload. The sign bit is 1 for positive; A-law inverts every other bit, µ-law all. -/
def expand (mu : Bool) (o : Byte) : W32 :=
  let c := (o ^^^ (if mu then 0xFF else 0x55)).toNat
  let seg := c / 16 % 8
  let pos := o.getLsbD 7
  let m : Int := if mu then 4 * muLawMag seg (c % 16) else 8 * aLawMag seg (c % 16)
  linear (if pos then m else -m)

/-- Segment and step of a magnitude below 4,096 for A-law, and of 33 more than one below 8,159 for µ-law. -/
def aLawCode (m : Nat) : Nat :=
  if m < 64 then m / 2
  else
    let seg := Nat.log2 m - 4
    16 * seg + m / 2 ^ seg % 16

def muLawCode (m : Nat) : Nat :=
  let v := min (m + 33) 8191
  let seg := Nat.log2 v - 5
  16 * seg + v / 2 ^ (seg + 1) % 16

/-- A sample companded by a highway's law (R368). -/
def compand (mu : Bool) (w : W32) : Byte :=
  let v := toLinear w
  let pos : Nat := if v < 0 then 0 else 128
  if mu then BitVec.ofNat 8 (pos + muLawCode (v.natAbs / 4)) ^^^ 0x7F
  else BitVec.ofNat 8 (pos + aLawCode (if v < 0 then (-v - 1).toNat / 8 else v.toNat / 8)) ^^^ 0x55

/-- The silence code of a companding law (R85). -/
def silenceCode (mu : Bool) : Byte := if mu then 0xFF else 0xD5

/-- Samples of a 5 ms frame. -/
def frameLen (p : Profile) : Nat := if p.wideband then 80 else 40

def quietFrame (p : Profile) : List W32 := List.replicate (frameLen p) 0

/-- A frame of samples that a free value names. -/
def drawn (p : Profile) (f : Nat → W32) : List W32 := (List.range (frameLen p)).map f

/-! ### Frames of the path (R22, R466) -/

/-- A frame after a task that changes its samples: a bad input CRC leaves SEED 0 (R466). -/
def passFrame (f : AFrame) (bad : Bool) (samples : List W32) : AFrame :=
  { tag := if bad || !f.crcOk then poison f.tag else f.tag, crcOk := true, samples := samples }

/-! ### Codecs (Table 12-2) -/

/-- The samples of one 5 ms frame of a payload: G.711 and L16 by their definition, the other codecs as a free value. -/
def decodeFrame (p : Profile) (draw : Nat) (l : List Byte) : List W32 :=
  match p.codec.toNat with
  | 0 => l.map (expand false)
  | 1 => l.map (expand true)
  | 9 => drawn p (fun i => linear ((be16 l (2 * i)).toInt))
  | k => drawn p (Config.decoded k draw l)

/-- The payload of a packet's samples. -/
def encodeFrames (p : Profile) (draw n : Nat) (l : List W32) : List Byte :=
  match p.codec.toNat with
  | 0 => l.map (compand false)
  | 1 => l.map (compand true)
  | 9 => l.flatMap (fun w => beBytes 2 (BitVec.ofInt 16 (toLinear w)).toNat)
  | k => (List.range n).map (Config.coded k draw l)

/-- The codec gives comfort noise of its own: G.729 and Opus (R325). -/
def ownNoise (p : Profile) : Bool := p.codec = 6 || p.codec = 8

/-- Comfort noise after a SID frame or a gap (R325). -/
def restNoise (p : Profile) (level : Int) (draw : Nat) : List W32 :=
  drawn p (if ownNoise p then Config.codecNoise p.codec.toNat draw else Config.noise level draw)

/-- The `run`-th concealment frame in a row: the codec's method for 60 ms, a fade over the next 10 ms, then comfort noise
at the background level (R326). -/
def concealFrame (p : Profile) (level : Int) (run draw : Nat) : List W32 :=
  drawn p (if run ≤ 12 then Config.concealed p.codec.toNat draw
    else if run ≤ 14 then Config.faded level (run - 12) draw
    else Config.noise level draw)

/-- The samples of a released frame (R325, R326, R333). -/
def releaseSamples (p : Profile) (level : Int) (draw : Nat) (r : Release) : List W32 :=
  match r with
  | .frame f => if f.sid then restNoise p level draw else decodeFrame p draw f.bytes
  | .conceal run => concealFrame p level run draw
  | .noise => restNoise p level draw
  | .event code volume start => drawn p (Config.pairTone code.toNat volume.toNat start)
  | .fax => quietFrame p

/-! ### The non-linear processor (R318) -/

/-- Half the amplitude: 6 dB less. -/
def halve (w : W32) : W32 := (fMul false w 0x3F000000).w

/-- The frame is suppressed. -/
def nlpSuppresses (nlp : BitVec 2) (r : TaskFinding) : Bool :=
  (nlp = 1 && decide (r.nearEnd - 60 ≤ r.residual)) || (nlp = 2 && decide (r.nearEnd ≤ r.residual))

/-- NLP on the canceller's output. -/
def nlpFrame (p : Profile) (r : TaskFinding) (draw : Nat) (l : List W32) : List W32 :=
  if nlpSuppresses p.nlp r then drawn p (Config.noise r.background draw)
  else if p.nlp = 2 && r.bothActive then l.map halve
  else l

/-- The canceller's output before NLP (R316): the tail and the reference enter it; none with zero coefficients. -/
def cancelFrame (p : Profile) (coeffs : Nat) (line ref : List W32) : List W32 :=
  if coeffs = 0 then line else drawn p (Config.cancelled coeffs (8 * p.ecTail.toNat) line ref)

/-- Canceller and NLP as the tone disabler leaves them (R319): scope bit 1 disables both, bit 0 alone the NLP. -/
def echoFrame (p : Profile) (scope : BitVec 2) (coeffs draw : Nat) (r : TaskFinding) (line ref : List W32) : List W32 :=
  if scope.getLsbD 1 then line
  else if scope.getLsbD 0 then cancelFrame p coeffs line ref
  else nlpFrame p r draw (cancelFrame p coeffs line ref)

/-! ### Neural decisions (R320, R324, Table 11-6) -/

/-- A score of at least 0.5. -/
def atLeastHalf (w : W32) : Bool :=
  match fmt32.decode w.toNat with
  | .nan => false
  | v => !v.lt (.num false 1 (-1))

/-- The frame the encoder takes (R320, R332): silence while a digit is sent, the canceller's output where R320 says so,
else the frame passed on by the neural stage. -/
def encoderInput (p : Profile) (u : UpFrame) : List W32 :=
  let fired := bitOf p.models 3 && (atLeastHalf (u.dec.getD 2 0) || atLeastHalf (u.dec.getD 3 0))
  if u.digit then quietFrame p else if u.plain || fired then u.kept else u.audio.samples

end Sys2Proof.Machine
end

