-- ==== Sys2Proof/Machine/Srtp.lean ====
section
/-! DEFINITION. The transform of R362, AES_CM_128_HMAC_SHA1_80 of RFC 3711: AES-128 of FIPS 197, the session keys at
derivation rate 0, and RTP and RTCP packets sealed, checked and opened. -/

namespace Sys2Proof.Machine

/-! ### AES-128 -/

/-- Times x in the field of AES. -/
def timesX (a : Byte) : Byte := if a.getLsbD 7 then (a <<< 1) ^^^ 0x1B else a <<< 1

/-- The product of two elements, by the bits of the second from the top. -/
def fieldMul (a b : Byte) : Byte :=
  (List.range 8).foldl (fun r i => timesX r ^^^ (if b.getLsbD (7 - i) then a else 0)) 0

/-- a^254: the inverse, and 0 for 0. -/
def fieldInv (a : Byte) : Byte := (List.range 6).foldl (fun r _ => fieldMul (fieldMul r r) a) a |> fun r => fieldMul r r

/-- The byte substitution: the inverse, then the affine map. -/
def subByte (a : Byte) : Byte :=
  let v := fieldInv a
  v ^^^ v.rotateLeft 1 ^^^ v.rotateLeft 2 ^^^ v.rotateLeft 3 ^^^ v.rotateLeft 4 ^^^ 0x63

def xorBytes (a b : List Byte) : List Byte := List.zipWith (fun x y => x ^^^ y) a b

/-- The next round key: the last column rotated and substituted enters the first, and each column the one after it. -/
def nextKey (rcon : Byte) (k : List Byte) : List Byte :=
  let t := [subByte (byteAt k 13) ^^^ rcon, subByte (byteAt k 14), subByte (byteAt k 15), subByte (byteAt k 12)]
  let c0 := xorBytes (k.take 4) t
  let c1 := xorBytes ((k.drop 4).take 4) c0
  let c2 := xorBytes ((k.drop 8).take 4) c1
  c0 ++ c1 ++ c2 ++ xorBytes (k.drop 12) c2

/-- Substitution and the rotation of row r by r columns; the state stands column by column. -/
def shiftedSub (s : List Byte) : List Byte := (List.range 16).map (fun i => subByte (byteAt s ((i + 4 * (i % 4)) % 16)))

/-- The mixing of a column. -/
def mixed (s : List Byte) : List Byte :=
  (List.range 16).map (fun i =>
    let at' := fun (k : Nat) => byteAt s (4 * (i / 4) + (i + k) % 4)
    timesX (at' 0) ^^^ (timesX (at' 1) ^^^ at' 1) ^^^ at' 2 ^^^ at' 3)

/-- Rounds 1 to 9, each with its key, and the last without mixing. -/
def aesRounds : Nat → Byte → List Byte → List Byte → List Byte
  | 0, rcon, k, s => xorBytes (shiftedSub s) (nextKey rcon k)
  | n + 1, rcon, k, s => aesRounds n (timesX rcon) (nextKey rcon k) (xorBytes (mixed (shiftedSub s)) (nextKey rcon k))

def aes128 (key block : List Byte) : List Byte := aesRounds 9 1 key (xorBytes block key)

/-- Counter mode: `n` bytes of key stream from an initial counter. -/
def keyStream (key : List Byte) (iv n : Nat) : List Byte :=
  ((List.range (cdiv n 16)).flatMap (fun j => aes128 key (beBytes 16 ((iv + j) % 2 ^ 128)))).take n

/-! ### Session keys and packets (RFC 3711) -/

/-- Words of CH_KEYS as bytes: the first byte in bits [15:8] (R362). -/
def keyBytes (l : List Word) : List Byte := l.flatMap (fun w => beBytes 2 w.toNat)

/-- `n` bytes derived from the master key and salt under a label. -/
def derived (key salt : List Word) (label n : Nat) : List Byte :=
  keyStream (keyBytes key) ((beNat (keyBytes salt) ^^^ (label * 2 ^ 48)) * 2 ^ 16) n

/-- Labels of RTP are 0 to 2, of RTCP 3 to 5. -/
def labelOf (rtcp : Bool) (k : Nat) : Nat := if rtcp then 3 + k else k

/-- The body of a packet under the key stream of its SSRC and index. -/
def cipher (key salt : List Word) (rtcp : Bool) (ssrc : W32) (index : Nat) (body : List Byte) : List Byte :=
  let iv := (beNat (derived key salt (labelOf rtcp 2) 14) * 2 ^ 16) ^^^ (ssrc.toNat * 2 ^ 64) ^^^ (index * 2 ^ 16)
  xorBytes body (keyStream (derived key salt (labelOf rtcp 0) 16) iv body.length)

/-- The 80-bit tag over a packet and what follows it. -/
def authTag (key salt : List Word) (rtcp : Bool) (l : List Byte) : List Byte :=
  (hmacSha1 (derived key salt (labelOf rtcp 1) 20) l).take 10

/-- Bytes in front of the payload of an RTP packet: header, CSRC list and extension. -/
def rtpHeadLen (l : List Byte) : Nat :=
  let n := 12 + 4 * fld (byteAt l 0) 0 4
  if bitOf (byteAt l 0) 4 then n + 4 + 4 * (be16 l (n + 2)).toNat else n

/-- An RTP packet's body ciphered, sealing and opening alike. -/
def rtpCipher (key salt : List Word) (roc : W32) (l : List Byte) : List Byte :=
  let n := rtpHeadLen l
  l.take n ++ cipher key salt false (be32 l 8) (roc.toNat * 65536 + (be16 l 2).toNat) (l.drop n)

def sealRtp (key salt : List Word) (roc : W32) (l : List Byte) : List Byte :=
  let c := rtpCipher key salt roc l
  c ++ authTag key salt false (c ++ beBytes 4 roc.toNat)

/-- What a received SRTP packet holds before its tag. -/
def rtpBody (l : List Byte) : List Byte := l.take (l.length - 10)

def authRtp (key salt : List Word) (roc : W32) (l : List Byte) : Bool :=
  decide (22 ≤ l.length) && l.drop (l.length - 10) = authTag key salt false (rtpBody l ++ beBytes 4 roc.toNat)

def plainRtp (key salt : List Word) (roc : W32) (l : List Byte) : List Byte := rtpCipher key salt roc (rtpBody l)

/-- An RTCP packet sealed: the body after the first eight bytes ciphered, then the word of E flag and index, then the tag. -/
def sealRtcp (key salt : List Word) (word : W32) (l : List Byte) : List Byte :=
  let c := l.take 8 ++ cipher key salt true (be32 l 4) (word.toNat % 2 ^ 31) (l.drop 8) ++ beBytes 4 word.toNat
  c ++ authTag key salt true c

def authRtcp (key salt : List Word) (l : List Byte) : Bool :=
  decide (22 ≤ l.length) && l.drop (l.length - 10) = authTag key salt true (rtpBody l)

end Sys2Proof.Machine
end

