-- ==== Sys2Proof/Machine/Rtp.lean ====
section
/-! DEFINITION. RTP, RTCP and SRTP of the channels (R357-R365): receiving a session's packets into its
ingress queue, sending from its egress queue, reports and BYE; and a frame's way through the switch. -/

namespace Sys2Proof.Machine

/-- An item's effective value: factory value plus offset (R498). -/
def calEffective (s : State) (item : Word) : Int := alGet s.hw.factory item 0 + alGet s.cal.offsets item 0

/-- The receive capture of a frame at a port, corrected by the port's effective latency in 1/16 ns (R381). -/
def rxCapture (s : State) (p : PortNo) : W32 :=
  BitVec.ofInt 32 ((now s).toNat - calEffective s (0x0200 + p.setWidth 16) / 16)

/-! ### SRTP contexts (R362-R365) -/

def newCtx (key salt : List Word) (roc : W32) : SrtpCtx :=
  { key := key, salt := salt, roc := roc, top := 0, window := 0, started := false, rtcpIndex := 0,
    rtcpSeen := false, rtcpWindow := 0 }

/-- The rollover counter that RFC 3711 estimates for a received sequence number. -/
def guessRoc (c : SrtpCtx) (seq : Word) : W32 :=
  if !c.started then c.roc
  else if c.top.toNat < 32768 then (if c.top.toNat + 32768 < seq.toNat then c.roc - 1 else c.roc)
  else (if seq.toNat + 32768 < c.top.toNat then c.roc + 1 else c.roc)

/-- Whether index `i` is new against the highest index `top` and the 128-packet window (R365). -/
def replayFresh (started : Bool) (top i : Nat) (window : BitVec 128) : Bool :=
  if !started || decide (top < i) then true
  else if 128 ≤ top - i then false
  else !window.getLsbD (top - i)

/-- The window after an authentic packet of index `i`; bit 0 stands for the highest index. -/
def slideWindow (started : Bool) (top i : Nat) (window : BitVec 128) : BitVec 128 :=
  if !started then 1
  else if top < i then (window <<< (i - top)) ||| 1
  else window ||| ((1 : BitVec 128) <<< (top - i))

/-- A received SRTP packet tried under one context: the plain packet and the context after it. -/
def openRtp (c : SrtpCtx) (pkt : List Byte) : Option (List Byte × SrtpCtx) :=
  let seq := be16 pkt 2
  let roc := guessRoc c seq
  let i := roc.toNat * 65536 + seq.toNat
  let top := c.roc.toNat * 65536 + c.top.toNat
  if authRtp c.key c.salt roc pkt && replayFresh c.started top i c.window then
    let newer := !c.started || decide (top < i)
    some (plainRtp c.key c.salt roc pkt,
      { c with window := slideWindow c.started top i c.window, started := true,
               roc := if newer then roc else c.roc, top := if newer then seq else c.top })
  else none

/-- A received SRTCP packet checked under one context. -/
def openRtcp (c : SrtpCtx) (pkt : List Byte) : Option SrtpCtx :=
  let i := (be32 pkt (pkt.length - 14)).toNat % 2 ^ 31
  if authRtcp c.key c.salt pkt && replayFresh c.rtcpSeen c.rtcpIndex.toNat i c.rtcpWindow then
    some { c with rtcpWindow := slideWindow c.rtcpSeen c.rtcpIndex.toNat i c.rtcpWindow, rtcpSeen := true,
                  rtcpIndex := if !c.rtcpSeen || decide (c.rtcpIndex.toNat < i) then BitVec.ofNat 31 i else c.rtcpIndex }
  else none

/-! ### Receiving -/

/-- A packet bound for a channel's ingress queue, committed when good and rewound otherwise. -/
def toIngress (m : Master) (c : ChanNo) (l : List Byte) (time : W32) (bad : Bool) (s : State) : State :=
  writePacket m (ingressQ c) l 0 (some time) bad s

def countRx (c : ChanNo) (s : State) : State := modChan c (fun x => { x with rx := satAdd x.rx 1 }) s
def countAuthFail (c : ChanNo) (s : State) : State := modChan c (fun x => { x with authFail := satAdd x.authFail 1 }) s

/-- A packet that the receive side does not accept (R323). -/
def countDiscard (c : ChanNo) (s : State) : State := modChan c (fun x => { x with discards := satAdd x.discards 1 }) s

/-- A field behind its length of one byte, or of two from 128 on, and the bytes after it; none where they do not hold it. -/
def readField (l : List Byte) : Option (List Byte × List Byte) :=
  let b := byteAt l 0
  let head := if bitOf b 7 then 2 else 1
  let n := if bitOf b 7 then (b.toNat - 128) * 256 + (byteAt l 1).toNat else b.toNat
  if l.length < head + n then none else some ((l.drop head).take n, l.drop (head + n))

/-- `n` fields in a row. -/
def readFields : Nat → List Byte → List (List Byte)
  | 0, _ => []
  | n + 1, l =>
    match readField l with
    | some (f, rest) => f :: readFields n rest
    | none => []

/-- A UDPTL packet: its sequence number, the primary IFP packet, and the previous ones it repeats, latest first (R335). -/
def viewUdptl (l : List Byte) : Option (Word × List Byte × List (List Byte)) :=
  match readField (l.drop 2) with
  | some (f, rest) =>
    if 400 < l.length ∨ f.isEmpty ∨ rest.isEmpty then none
    else some (be16 l 0, f, if byteAt rest 0 = 0 then readFields (byteAt rest 1).toNat (rest.drop 2) else [])
  | none => none

/-- The shape of a UDPTL packet: sequence number, a primary packet within it, and error recovery after it (R335). -/
def udptlShape (l : List Byte) : Bool := (viewUdptl l).isSome

def rtpVersion (l : List Byte) : Nat := fld (byteAt l 0) 6 2

/-- An RTP packet of a session, after its UDP checksum (R358, R362-R365). -/
def rtpArrive (x : Chan) (l : List Byte) (time : W32) (s : State) : State :=
  if (x.fax.active && x.prof.t38) || (rtpVersion l ≠ 2 && udptlShape l) then
    -- UDPTL is not protected (R362); on a T38 channel it switches to fax relay at the next tick (R334)
    let s := if x.prof.t38 && udptlShape l then modChan x.no (fun y => { y with fax := { y.fax with trigger := true } }) s else s
    toIngress .switch x.no l time false (countRx x.no s)
  else if rtpVersion l ≠ 2 then countDiscard x.no s
  else if x.prof.srtp then
    match x.rxCtx, x.txCtx with
    | some rc, some _ =>
      if s.clk.cryptoLost then toIngress .crypto x.no l time true s
      else
        match openRtp rc l with
        | some (p, rc') =>
          toIngress .crypto x.no p time false (countRx x.no (modChan x.no (fun y => { y with rxCtx := some rc' }) s))
        | none =>
          match x.rxOld.bind (fun o => openRtp o l) with
          | some (p, o') =>
            toIngress .crypto x.no p time false (countRx x.no (modChan x.no (fun y => { y with rxOld := some o' }) s))
          | none => toIngress .crypto x.no l time true (countAuthFail x.no s)
    | _, _ => toIngress .crypto x.no l time true (countAuthFail x.no s)
  else toIngress .switch x.no l time false (countRx x.no s)

/-- Received RTCP is checked under SRTCP where the session is protected, and then discarded (R360). -/
def rtcpArrive (x : Chan) (l : List Byte) (s : State) : State :=
  if x.prof.srtp && (x.rxCtx.isNone || x.txCtx.isNone) then countAuthFail x.no s
  else if x.prof.srtp then
    match x.rxCtx.bind (fun c => openRtcp c l) with
    | some c' => modChan x.no (fun y => { y with rxCtx := some c' }) s
    | none =>
      match x.rxOld.bind (fun c => openRtcp c l) with
      | some c' => modChan x.no (fun y => { y with rxOld := some c' }) s
      | none => countAuthFail x.no s
  else s

/-- The channel a UDP packet that arrives in a VLAN is classified to, and whether it is RTCP (R356, R357). -/
def classify (s : State) (vid : BitVec 12) (u : UdpView) : Option (Chan × Bool) :=
  s.led.chans.findSome? (fun c =>
    if ifVlan s c.port = some vid && (getPort s c.port).addr = u.dst && c.prof.rAddr = u.src then
      (if u.dport = c.prof.lPort && u.sport = c.prof.rPort then some (c, false)
       else if u.dport = c.prof.lPort + 1 && u.sport = c.prof.rPort + 1 then some (c, true)
       else none)
    else none)

/-- A UDP packet taken by the engine port; one that matches no channel is discarded and counted (R357). -/
def udpArrive (vid : BitVec 12) (u : UdpView) (time : W32) (bad : Bool) (s : State) : State :=
  match classify s vid u with
  | none => if bad then s else s.setSw { s.sw with sessMiss := satAdd s.sw.sessMiss 1 }
  | some (c, true) => if bad || !u.good then s else rtcpArrive c u.data s
  | some (c, false) => if bad || !u.good then toIngress .switch c.no u.data time true s else rtpArrive c u.data time s

/-- What the engine port does with a frame it takes (R354, R357). PTP frames of a port that runs PTP act through their own
row; on a port with ROLE 0 one over UDP is a UDP packet like any other (R393). -/
def engineArrive (inp : PortNo) (vid : BitVec 12) (v : EthView) (time : W32) (bad : Bool) (s : State) : State :=
  if isPtp v && (v.etype = 0x88F7 || (s.tim.ptp.getD inp.toNat PtpPort.atReset).role ≠ 0) then s
  else if v.etype = 0x0806 then
    (if bad then s else (ifaceIn s vid true).foldl (fun s p => arpArrive p v.payload s) s)
  else
    let view := if v.etype = 0x0800 then viewIp4 v.payload else if v.etype = 0x86DD then viewIp6 v.payload else .nothing
    match view with
    | .udp u => udpArrive vid u time bad s
    | .echo src size v6 l =>
      if bad then s
      else
        let dst := if v6 then ipOf6 v.payload 24 else ipOf4 v.payload 16
        (match ifaceFor s vid dst with
         | some p => echoReply p src size v6 l s
         | none => s)
    | .nd src l => if bad then s else (ifaceIn s vid false).foldl (fun s p => ndArrive p src l v.src s) s
    | .nothing => s

/-- The ports a frame is switched to, and whether the engine port takes it (R346, R393). -/
def route (s : State) (inp : PortNo) (vid : BitVec 12) (v : EthView) : List PortNo × Bool :=
  let members := extPorts.filter (fun p => p ≠ inp && vlanMember s vid p.toNat)
  let engine := vlanMember s vid 4
  let role := (s.tim.ptp.getD inp.toNat PtpPort.atReset).role
  if isPtp v && role ≠ 0 then ([], engine)
  else if s.hw.macs.any (fun m => m = v.dst) then ([], engine)
  else if isGroup v.dst then (members, engine && (isBroadcast v.dst || ndGroup v.dst || ptpGroup v.dst))
  else
    match s.sw.macTable.find? (fun e => e.1 = vid && e.2.1 = v.dst) with
    | some e => (members.filter (fun p => p = e.2.2), false)
    | none => (members, false)

/-- The class in which a frame leaves (R348). -/
def frameClass (s : State) (v : EthView) : Nat := if isPtpEvent v then 7 else classOfPcp s v.pcp

/-- A received frame through the switch, after its receive injection point (R346-R352). -/
def ethReceive (p : PortNo) (f : List Byte) (s : State) : State :=
  let x := getPort s p
  if 9216 < f.length then putPort p { x with rxOversize := satAdd x.rxOversize 1 } s
  else if f.length < 64 then s
  else
    let bad := !fcsGood f
    let s := putPort p (if bad then { x with rxFcs := satAdd x.rxFcs 1 } else { x with rxFrames := satAdd x.rxFrames 1 }) s
    let v := viewFrame f
    if v.etype = 0x8808 ∧ be16 v.payload 0 = 1 then s  -- PAUSE is discarded (R344)
    else
      let vid := if v.tagged && v.vid ≠ 0 then some v.vid else pvid s p.toNat
      match vid with
      | none => s
      | some vid =>
        if !vlanMember s vid p.toNat then
          let y := getPort s p
          putPort p { y with rxNoVlan := satAdd y.rxNoVlan 1 } s
        else
          let time := rxCapture s p
          let s := if bad then s else learn vid v.src p s
          let (outs, engine) := route s p vid v
          let s := outs.foldl (fun s o => forwardTo p o (frameClass s v) (egressForm s o.toNat vid v) time bad s) s
          if engine then engineArrive p vid v time bad s else s

/-- Frames that a receive point releases, in order. -/
def ethReceiveAll (p : PortNo) (l : List HeldUnit) (s : State) : State :=
  (lineFrames l).foldl (fun s f => ethReceive p f s) s

/-- A frame arriving at a port: the receive point acts before every check and counter (R516). -/
def frameArrive (p : PortNo) (f : List Byte) (s : State) : State :=
  let point : Word := p.setWidth 16
  match fiStep point (.eth f) s with
  | (.pass, s) => ethReceive p f s
  | (.drop, s) => s
  | (.corrupt n unit recalc, s) => ethReceive p (corruptFrame point n unit recalc f) s
  | (.hold, s) => s
  | (.release l, s) => ethReceiveAll p l s

/-! ### Sending -/

/-- A packet of a channel's session leaves by the port of its interface (R356, R359). -/
def sessionSend (x : Chan) (rtcp : Bool) (l : List Byte) (s : State) : Bool × State :=
  let d : Word := if rtcp then 1 else 0
  sendUdp x.port x.prof.pcp x.prof.rAddr (x.prof.lPort + d) (x.prof.rPort + d) l s

/-- The rollover counter advances when the sequence number wraps. -/
def advanceTx (c : SrtpCtx) (seq : Word) : SrtpCtx :=
  { c with top := seq, started := true, roc := if c.started && decide (seq.toNat < c.top.toNat) then c.roc + 1 else c.roc }

/-- A packet as it leaves, with the transmit context after it; none where it may not leave: after a BYE, or before both
directions hold keys (R361-R363). -/
def rtpOut (s : State) (x : Chan) (udptl : Bool) (l : List Byte) : Option (List Byte × Option SrtpCtx) :=
  if x.byeSent then none
  else if x.prof.srtp && !udptl then
    match x.txCtx with
    | some c =>
      if s.clk.cryptoLost || x.rxCtx.isNone then none
      else
        let c := advanceTx c (be16 l 2)
        some (sealRtp c.key c.salt c.roc l, some c)
    | none => none
  else some (l, x.txCtx)

/-- An RTP or UDPTL packet sent, RTP protected where the session is, and counted when it left (R355, R362). Nothing is
sent after a BYE (R361), nor under SRTP before both directions hold keys (R363). -/
def sendRtp (x : Chan) (udptl : Bool) (l : List Byte) (s : State) : State :=
  match rtpOut s x udptl l with
  | none => s
  | some (l, c) =>
    let s := modChan x.no (fun y => { y with txCtx := c }) s
    match sessionSend x false l s with
    | (true, s) => modChan x.no (fun y => { y with tx := satAdd y.tx 1 }) s
    | (false, s) => s

/-- An RTCP packet sent, under SRTCP where the session is protected: nothing before both directions hold keys (R361, R363),
and nothing after a BYE. -/
def sendRtcp (x : Chan) (l : List Byte) (s : State) : State :=
  if x.byeSent then s
  else if x.prof.srtp then
    match x.txCtx with
    | none => s
    | some c =>
      if s.clk.cryptoLost || x.rxCtx.isNone then s
      else
        let idx : W32 := 0x80000000 ||| c.rtcpIndex.setWidth 32
        let l' := sealRtcp c.key c.salt idx l
        let s := modChan x.no (fun y => { y with txCtx := some { c with rtcpIndex := c.rtcpIndex + 1 } }) s
        (sessionSend x true l' s).2
  else (sessionSend x true l s).2

def outOfService : List Byte :=
  [0x6F, 0x75, 0x74, 0x20, 0x6F, 0x66, 0x20, 0x73, 0x65, 0x72, 0x76, 0x69, 0x63, 0x65]   -- "out of service"
def deletedText : List Byte := [0x64, 0x65, 0x6C, 0x65, 0x74, 0x65, 0x64]                -- "deleted"

/-- An RTCP BYE with a reason, behind the empty receiver report that RFC 3550 puts first. -/
def byePacket (ssrc : W32) (reason : List Byte) : List Byte :=
  let text := BitVec.ofNat 8 reason.length :: reason
  let text := text ++ List.replicate ((4 - text.length % 4) % 4) 0
  [0x80, 201, 0, 1] ++ beBytes 4 ssrc.toNat ++
  [0x81, 203] ++ beBytes 2 (1 + text.length / 4) ++ beBytes 4 ssrc.toNat ++ text

/-- One BYE for a channel, unless one has been sent for it (R361). -/
def sendBye (c : ChanNo) (reason : List Byte) (s : State) : State :=
  match findChan s c with
  | none => s
  | some x =>
    if x.byeSent then s
    else modChan c (fun y => { y with byeSent := true }) (sendRtcp x (byePacket x.prof.ssrc reason) s)

/-- A sender report with one report block (R360). The clock fields and the block's contents are not given by
the manual beyond RFC 3550's layout. -/
def senderReport (x : Chan) (s : State) : State :=
  let w := fun k => beBytes 4 (Config.free32 (s.free + k)).toNat
  let l := [0x81, 200, 0, 12] ++ beBytes 4 x.prof.ssrc.toNat ++ w 0 ++ w 1 ++ beBytes 4 x.rtpTs.toNat ++
    beBytes 4 x.tx.toNat ++ w 2 ++ beBytes 4 x.jb.ssrc.toNat ++ w 3 ++ w 4 ++ w 5 ++ w 6 ++ w 7
  let s := s.drawN 8
  sendRtcp x l s

end Sys2Proof.Machine
end

