-- ==== Sys2Proof/Machine/Tones.lean ====
section
/-! DEFINITION. Tone detection (R331, Table 12-3) and the tone disabler (R319), frame by frame from what a task measures.
Frequencies are in tenths of Hz and levels in tenths of dBm0. -/

namespace Sys2Proof.Machine

/-! ### Signals of one frame -/

/-- Deviation of a frequency from a nominal one, in tenths of a per cent. -/
def deviation (f nominal : Nat) : Nat := (if f < nominal then nominal - f else f - nominal) * 1000 / nominal

/-- A frequency taken for a nominal one: up to 1.5 % yes, from 3.5 % no, between as the unit finds (Table 12-3; for the sets
that give no tolerance the same is taken, log entry 92). -/
def takenFor (any : Bool) (f nominal : Nat) : Bool := decide (deviation f nominal ≤ 15) || (any && decide (deviation f nominal < 35))

/-- The place of a frequency in a list of nominal ones. -/
def freqIndex (any : Bool) (l : List Nat) (f : Nat) : Option Nat := (List.range l.length).find? (fun i => takenFor any f (l.getD i 1))

def lowOf (h : Heard) : Nat × Int := if h.f1 ≤ h.f2 then (h.f1, h.l1) else (h.f2, h.l2)
def highOf (h : Heard) : Nat × Int := if h.f1 ≤ h.f2 then (h.f2, h.l2) else (h.f1, h.l1)

/-- Keypad frequencies of ITU-T Q.23, and the code of each pair, row by row. -/
def dtmfRows : List Nat := [6970, 7700, 8520, 9410]
def dtmfCols : List Nat := [12090, 13360, 14770, 16330]
def dtmfCodes : List Nat := [1, 2, 3, 12, 4, 5, 6, 13, 7, 8, 9, 14, 10, 0, 11, 15]

/-- A DTMF pair within the levels and the twist of Table 12-3. -/
def dtmfCode (any : Bool) (h : Heard) : Option Word :=
  let lo := lowOf h
  let hi := highOf h
  let level := fun (v : Int) => decide (-360 ≤ v) && decide (v ≤ 0)
  if level lo.2 && level hi.2 && decide (hi.2 - lo.2 ≤ 40) && decide (-80 ≤ hi.2 - lo.2) then
    match freqIndex any dtmfRows lo.1, freqIndex any dtmfCols hi.1 with
    | some r, some c => some (BitVec.ofNat 16 (dtmfCodes.getD (4 * r + c) 0))
    | _, _ => none
  else none

/-- The number 1–15 of a two-out-of-six pair in the order that ITU-T Q.323 and Q.441 give. -/
def pairNumber (any : Bool) (l : List Nat) (h : Heard) : Option Nat :=
  match freqIndex any l h.f1, freqIndex any l h.f2 with
  | some i, some j => if i < j then some (j * (j - 1) / 2 + i + 1) else if j < i then some (i * (i - 1) / 2 + j + 1) else none
  | _, _ => none

def r1Freqs : List Nat := [7000, 9000, 11000, 13000, 15000, 17000]
def r1Codes : List Nat := [0, 1, 2, 3, 4, 5, 6, 7, 8, 9, 0, 14, 12, 10, 13, 11]
def r2Forward : List Nat := [13800, 15000, 16200, 17400, 18600, 19800]
def r2Backward : List Nat := [11400, 10200, 9000, 7800, 6600, 5400]

def r1Code (any : Bool) (h : Heard) : Option Word := (pairNumber any r1Freqs h).map (fun n => BitVec.ofNat 16 (r1Codes.getD n 0))

def r2Code (any : Bool) (h : Heard) : Option Word :=
  match pairNumber any r2Forward h with
  | some n => some (BitVec.ofNat 16 n)
  | none => (pairNumber any r2Backward h).map (fun n => BitVec.ofNat 16 (16 + n))

/-- A single tone within `tol` of a frequency. -/
def singleTone (f tol : Nat) (h : Heard) : Bool := h.f2 = 0 && decide (f ≤ h.f1 + tol) && decide (h.f1 ≤ f + tol)

/-- The signal of a set in a frame, by its code; call progress, set 1, has its own steps. -/
def signalOf (any : Bool) (set : Nat) (h : Heard) : Option Word :=
  match set with
  | 0 => dtmfCode any h
  | 2 => r1Code any h
  | 3 => r2Code any h
  | 4 => if 0 < h.flags2 then some 1 else if 0 < h.flags1 then some 2 else none
  | 5 => if singleTone 11000 380 h then some 1 else none
  | 6 => if singleTone 21000 150 h && !h.am then some 1 else none
  | 7 => if singleTone 21000 150 h && h.am then some 1 else none
  | _ => none

/-- ms a signal must last to be accepted (Table 12-3). V.21 counts flags instead. -/
def acceptMs (set : Nat) (code : Word) : Nat :=
  match set with
  | 0 => 40
  | 2 => if code = 10 then 55 else 30
  | 3 => 30
  | 5 => 400
  | 6 => 200
  | 7 => 400
  | _ => 0

/-- A TONE event to raise: on, code, duration in ms. -/
abbrev ToneNews := Bool × Word × Nat

/-! ### The sets other than call progress -/

/-- A signal accepted in this frame: V.21 after three flags in a row, DTMF between 20 and 40 ms as the unit finds. -/
def accepts (any : Bool) (h : Heard) (t : ToneTrack) : Bool :=
  if t.set = 4 then decide (3 ≤ (if t.code = 1 then h.flags2 else h.flags1))
  else decide (acceptMs t.set.toNat t.code ≤ t.on) || (t.set = 0 && any && decide (20 ≤ t.on))

/-- The end of what a set followed: an accepted tone is reported with its duration. -/
def endNews (t : ToneTrack) : List ToneNews :=
  match t.accepted with
  | some k => [(false, k, t.total - t.off)]
  | none => []

/-- A tone that goes on or begins, and what is reported of it: acceptance, and for CED and ANSam the first reversal, at
which code 1 gives way to code 2. -/
def goOn (any : Bool) (h : Heard) (t : ToneTrack) : ToneTrack × List ToneNews :=
  let t := { t with on := t.on + h.ms, total := t.total + h.ms }
  let reversed := h.reversal && (t.set = 6 || t.set = 7)
  match t.accepted with
  | some k => if reversed && k = 1 then ({ t with accepted := some 2 }, [(false, 1, t.total), (true, 2, 0)]) else (t, [])
  | none =>
    if reversed then ({ t with accepted := some 2 }, [(true, 2, 0)])
    else if accepts any h t then ({ t with accepted := some t.code }, [(true, t.code, 0)])
    else (t, [])

def newTrack (up : Bool) (set : BitVec 3) (code : Word) (freq : Nat) : ToneTrack :=
  { up := up, set := set, code := code, freq := freq, on := 0, off := 0, cycles := [], total := 0, accepted := none }

/-- One frame of a set in one direction. -/
def trackSet (any : Bool) (up : Bool) (set : BitVec 3) (h : Heard) (t : Option ToneTrack) : Option ToneTrack × List ToneNews :=
  match signalOf any set.toNat h, t with
  | some k, some t =>
    if t.code = k then ((some (goOn any h t).1), (goOn any h t).2)
    else
      let r := goOn any h (newTrack up set k 0)
      (some r.1, endNews t ++ r.2)
  | some k, none =>
    let r := goOn any h (newTrack up set k 0)
    (some r.1, r.2)
  | none, some t => (none, endNews t)
  | none, none => (none, [])

/-! ### Call progress (set 1) -/

/-- Single or dual tones of the call-progress band. -/
def cadenceTone (h : Heard) : Bool :=
  let ok := fun (f : Nat) (l : Int) => decide (3000 ≤ f) && decide (f ≤ 6500) && decide (-450 ≤ l) && decide (l ≤ 0)
  ok h.f1 h.l1 && (h.f2 = 0 || ok h.f2 h.l2)

def sitTone (h : Heard) : Bool := h.f2 = 0 && decide (9000 ≤ h.f1) && decide (h.f1 ≤ 18000)

def between (a b : Nat) (v : Nat) : Bool := decide (a ≤ v) && decide (v ≤ b)

/-- `n` finished cycles with their bursts and silences in ranges. -/
def cycled (n : Nat) (ok : Nat → Nat → Bool) (t : ToneTrack) : Bool :=
  decide (n ≤ t.cycles.length) && (t.cycles.take n).all (fun c => ok c.1 c.2)

/-- The class of a cadence (Table 12-3). -/
def cadenceCode (t : ToneTrack) : Option Word :=
  if cycled 2 (fun a b => between 700 2500 a && between 1500 5000 b) t then some 2
  else if cycled 2 (fun a b => between 200 650 a && between 200 650 b && decide (5 * (max a b - min a b) ≤ max a b)) t then some 3
  else if cycled 3 (fun a b => between 100 300 a && between 100 300 b) t then some 4
  else if decide (1000 ≤ t.on) && t.off = 0 then some 1
  else none

/-- The cadence in progress no longer fits the class reported. -/
def cadenceBroken (code : Word) (t : ToneTrack) : Bool :=
  match code.toNat with
  | 1 => decide (0 < t.off)
  | 2 => decide (2500 < t.on) || decide (5000 < t.off)
  | 3 => decide (650 < t.on) || decide (650 < t.off)
  | _ => decide (300 < t.on) || decide (300 < t.off)

/-- The bursts and silences after one more frame. -/
def cadenceStep (h : Heard) (t : ToneTrack) : ToneTrack :=
  if cadenceTone h then
    if 0 < t.off then { t with cycles := ((t.on, t.off) :: t.cycles).take 3, on := h.ms, off := 0, total := t.total + 5 }
    else { t with on := t.on + h.ms, total := t.total + 5 }
  else { t with off := t.off + 5, total := t.total + 5 }

/-- One frame of the cadence detector. A dial tone's end leaves its burst to be counted as the first of a cadence. -/
def trackCadence (up : Bool) (h : Heard) (t : Option ToneTrack) : Option ToneTrack × List ToneNews :=
  match t with
  | none => if cadenceTone h then (some (cadenceStep h (newTrack up 1 0 0)), []) else (none, [])
  | some t =>
    let t := cadenceStep h t
    match t.accepted with
    | some k =>
      if cadenceBroken k t then
        (if k = 1 then some { t with accepted := none } else none, endNews t)
      else (some t, [])
    | none =>
      match cadenceCode t with
      | some k => (some { t with accepted := some k }, [(true, k, 0)])
      | none => if 5000 < t.off then (none, []) else (some t, [])

/-- Three tones of 270–380 ms. -/
def sitDone (t : ToneTrack) : Bool := between 270 380 t.on && cycled 2 (fun a _ => between 270 380 a) t

/-- One frame of the SIT detector: a new frequency begins the next tone; the third tone's end classifies the three, so that
both events are raised at once. -/
def trackSit (up : Bool) (h : Heard) (t : Option ToneTrack) : Option ToneTrack × List ToneNews :=
  match t with
  | none => if sitTone h then (some { newTrack up 1 5 h.f1 with on := h.ms, total := h.ms }, []) else (none, [])
  | some t =>
    if sitTone h && takenFor true h.f1 t.freq && t.off = 0 then (some { t with on := t.on + h.ms, total := t.total + 5 }, [])
    else if sitDone t then (none, [(true, 5, 0), (false, 5, t.total - t.off)])
    else if sitTone h then
      (some { t with cycles := ((t.on, t.off) :: t.cycles).take 2, freq := h.f1, on := h.ms, off := 0, total := t.total + 5 }, [])
    else if 50 < t.off then (none, [])
    else (some { t with off := t.off + 5, total := t.total + 5 }, [])

/-! ### All the sets -/

def trackOf (l : List ToneTrack) (up : Bool) (set : BitVec 3) (sit : Bool) : Option ToneTrack :=
  l.find? (fun t => t.up = up && t.set = set && (t.set ≠ 1 || decide (t.code = 5) = sit))

/-- One detector of one direction: its track after a frame, in the list of all tracks, and its events. -/
def trackOne (any : Bool) (up : Bool) (h : Heard) (set : BitVec 3) (sit : Bool) (l : List ToneTrack) :
    List ToneTrack × List (BitVec 3 × ToneNews) :=
  let old := trackOf l up set sit
  let r := if set = 1 then (if sit then trackSit up h old else trackCadence up h old) else trackSet any up set h old
  ((match old with
    | some t => l.erase t
    | none => l) ++ r.1.toList, r.2.map (fun n => (set, n)))

/-- The sets that TONES enables (Table 12-3). -/
def enabledSets (tones : Byte) : List (BitVec 3) := ((List.range 8).filter (fun i => tones.getLsbD i)).map (BitVec.ofNat 3)

/-- A frame through every enabled detector of a direction. -/
def trackAll (any : Bool) (tones : Byte) (up : Bool) (h : Heard) (l : List ToneTrack) : List ToneTrack × List (BitVec 3 × ToneNews) :=
  (enabledSets tones).foldl (fun acc set =>
    let r := trackOne any up h set false acc.1
    let q := if set = 1 then trackOne any up h set true r.1 else (r.1, [])
    (q.1, acc.2 ++ r.2 ++ q.2)) (l, [])

/-- A tone of an enabled set is on in a direction. -/
def toneOn (l : List ToneTrack) (up : Bool) : Bool := l.any (fun t => t.up = up && t.accepted.isSome)

/-! ### The tone disabler (R319) -/

def Guard.start : Guard := ⟨0, 0, false⟩
def Disabler.start : Disabler := ⟨Guard.start, Guard.start, 0, 0⟩

/-- A 2,100 Hz tone at or above −31 dBm0. -/
def disablingTone (h : Heard) : Bool := singleTone 21000 150 h && decide (-310 ≤ h.l1)

/-- One frame of one direction. A reversal 450 ms after the tone's start or the one before counts; 25 ms either way are
taken, as ITU-T V.25 has them (log entry 92). -/
def guardFrame (h : Heard) (g : Guard) : Guard :=
  if disablingTone h then
    let since := g.since + h.ms
    if h.reversal then ⟨g.run + h.ms, 0, g.reversals || between 425 475 since⟩ else ⟨g.run + h.ms, since, g.reversals⟩
  else Guard.start

/-- What a direction's tone asks for after 400 ms. -/
def guardScope (g : Guard) : BitVec 2 := if g.run < 400 then 0 else if g.reversals then 3 else 1

/-- One frame of the disabler: trips, and releases after 250 ms below −36 dBm0 in both directions. -/
def disablerStep (near far : Heard) (d : Disabler) : Disabler :=
  let up := guardFrame near d.up
  let down := guardFrame far d.down
  let quiet := if near.level < -360 ∧ far.level < -360 then d.quiet + 5 else 0
  let scope := d.scope ||| guardScope up ||| guardScope down
  ⟨up, down, quiet, if 250 ≤ quiet then 0 else scope⟩

/-! ### Echo return loss (R317) -/

/-- `run` frames in a row with a condition. -/
def runOf (on : Bool) (n : Nat) : Nat := if on then n + 1 else 0

/-- ERL-too-low after a frame: set once either condition has held for 2 s, cleared once neither has. -/
def erlStep (r : TaskFinding) (c : Canceller) : Canceller :=
  let low := decide (r.erl < 60)
  let erl := runOf low c.erlRun
  let tail := runOf r.beyondTail c.tailRun
  let clear := runOf (!low && !r.beyondTail) c.clearRun
  { c with erlRun := erl, tailRun := tail, clearRun := clear,
           erlLow := if 400 ≤ erl ∨ 400 ≤ tail then true else if 400 ≤ clear then false else c.erlLow }

end Sys2Proof.Machine
end

