-- ==== Sys2Proof/Machine/Pack.lean ====
section
/-! DEFINITION. The sending side of a channel: RFC 4733 events (R332), the packetiser with discontinuous transmission
(R324), UDPTL (R335), and what becomes of an up frame whose graph is lost (R36, R221). -/

namespace Sys2Proof.Machine

/-- The tag of an up frame (R465). -/
def upTag (x : Chan) (seq : Word) : W32 := mkTag x.no true (seq.setWidth 8) x.seed

/-- A packet of the session from the packetiser: header and payload in the egress queue, its number used up. -/
def writeRtp (m : Master) (x : Chan) (marker : Bool) (pt : Nat) (ts : W32) (payload : List Byte) (tag : W32) (s : State) : State :=
  let l := [0x80, BitVec.ofNat 8 ((if marker then 128 else 0) + pt)] ++ beBytes 2 x.rtpSeq.toNat ++ beBytes 4 ts.toNat ++
    beBytes 4 x.prof.ssrc.toNat ++ payload
  modChan x.no (fun y => { y with rtpSeq := y.rtpSeq + 1 }) (writePacket m (egressQ x.no) l tag none false s)

/-! ### RFC 4733 events (R332) -/

/-- A level as the volume field carries it, in −dBm0. -/
def volumeOf (level : Int) : Byte := BitVec.ofNat 8 (min 63 ((-level).toNat / 10))

/-- The payload of an event packet. -/
def eventPayload (p : Profile) (d : DtmfSend) (fin : Bool) : List Byte :=
  [d.code, BitVec.ofNat 8 ((if fin then 128 else 0) + d.volume.toNat)] ++ beBytes 2 (min 65535 (d.frames * clockPer5 p))

def sendEvent (m : Master) (c : ChanNo) (marker fin : Bool) (s : State) : State :=
  match findChan s c with
  | none => s
  | some x =>
    match x.dtmf with
    | none => s
    | some d =>
      if x.inService then writeRtp m x marker (eventPt x.prof) d.ts (eventPayload x.prof d fin) (upTag x x.frameNo) s else s

/-- The RTP timestamp of an up frame: as many frames after the next packet's first one. -/
def frameTs (x : Chan) (seq : Word) : W32 := x.rtpTs + BitVec.ofNat 32 ((seq - x.packNext).toNat * clockPer5 x.prof)

/-- A digit accepted: the start packet, with the marker bit. -/
def startDigit (m : Master) (c : ChanNo) (seq code : Word) (h : Heard) (s : State) : State :=
  sendEvent m c true false (modChan c (fun y => { y with dtmf := some ⟨frameTs y seq, code.setWidth 8, volumeOf h.level, 1⟩ }) s)

/-- A digit ended: three end packets with its timestamp. -/
def endDigit (m : Master) (c : ChanNo) (s : State) : State :=
  let s := sendEvent m c false true (sendEvent m c false true (sendEvent m c false true s))
  modChan c (fun y => { y with dtmf := none }) s

/-- The digit in progress goes on: an update packet every 50 ms. -/
def dtmfTick (m : Master) (c : ChanNo) (s : State) : State :=
  match findChan s c with
  | none => s
  | some x =>
    match x.dtmf with
    | none => s
    | some d =>
      let s := modChan c (fun y => { y with dtmf := some { d with frames := d.frames + 1 } }) s
      if (d.frames + 1) % 10 = 0 then sendEvent m c false false s else s

/-! ### Voice packets (R36, R324) -/

/-- The tag of a packet: its first frame's, with SEED 0 unless every frame verifies (R466). -/
def packetTag (l : List UpFrame) : W32 :=
  let t := (l.head?.map (fun u => u.audio.tag)).getD 0
  if l.all (fun u => u.audio.crcOk && tagSeed u.audio.tag ≠ 0) then t else poison t

/-- Part of a G.729 packet that is sent by itself: codec frames of 10 ms from `first` on, a SID frame after them, and the
marker of a talkspurt. -/
structure VoiceRun where
  first : Nat
  voice : Nat
  sid : Bool
  marker : Bool
deriving DecidableEq, Repr

/-- The run that a frame of voice or a SID frame continues, with the runs before it. -/
def openRun (i : Nat) (l : List VoiceRun) : Option (List VoiceRun × VoiceRun) :=
  match l.reverse with
  | r :: before => if !r.sid && r.first + r.voice = i then some (before.reverse, r) else none
  | [] => none

/-- Annex B on a packet's codec frames, each inactive or not and with a SID due or not: voice frames are sent, the first
inactive frame after voice is a SID frame as is every one that is due, and the others are not sent. -/
def voiceRuns (l : List (Bool × Bool)) (gap : Bool) : List VoiceRun × Bool :=
  (l.zipIdx).foldl (fun acc e =>
    let (runs, gap) := acc
    let i := e.2
    if !e.1.1 then
      (match openRun i runs with
       | some (before, r) => (before ++ [{ r with voice := r.voice + 1 }], false)
       | none => (runs ++ [⟨i, 1, false, gap⟩], false))
    else if !gap || e.1.2 then
      (match openRun i runs with
       | some (before, r) => (before ++ [{ r with sid := true }], true)
       | none => (runs ++ [⟨i, 0, true, false⟩], true))
    else (runs, true)) ([], gap)

/-- The codec frames of 10 ms of a G.729 packet. -/
def codecPairs (l : List UpFrame) : List (Bool × Bool) :=
  (List.range (l.length / 2)).map (fun i => ((l[2 * i + 1]?.map (fun u => u.inactive)).getD false, (l[2 * i + 1]?.map (fun u => u.sidDue)).getD false))

/-- Samples of the packet's frames `i` to `i + n − 1`. -/
def spanSamples (l : List UpFrame) (i n : Nat) : List W32 := ((l.drop i).take n).flatMap (fun u => u.audio.samples)

/-- One run sent as a packet of its own. -/
def sendRun (m : Master) (c : ChanNo) (ts : W32) (l : List UpFrame) (r : VoiceRun) (s : State) : State :=
  match findChan s c with
  | none => s
  | some x =>
    let voice := encodeFrames x.prof s.free (10 * r.voice) (spanSamples l (2 * r.first) (2 * r.voice))
    let sid := if r.sid then (List.range 2).map (Config.coded 6 (s.free + 1) (spanSamples l (2 * (r.first + r.voice)) 2)) else []
    writeRtp m x r.marker x.prof.pt.toNat (ts + BitVec.ofNat 32 (2 * r.first * clockPer5 x.prof)) (voice ++ sid) (packetTag l) (s.drawN 2)

/-- A packet's worth of frames sent as the codec has it (R324). -/
def sendFrames (m : Master) (x : Chan) (l : List UpFrame) (s : State) : State :=
  if x.prof.codec = 6 then
    let r := voiceRuns (codecPairs l) x.txGap
    modChan x.no (fun y => { y with txGap := r.2 }) (r.1.foldl (fun s v => sendRun m x.no x.rtpTs l v s) s)
  else if x.prof.codec = 8 && l.all (fun u => u.quiet) then modChan x.no (fun y => { y with txGap := true }) s
  else
    let n := bytesPer20 x.prof * l.length / 4
    let s := writeRtp m x x.txGap x.prof.pt.toNat x.rtpTs (encodeFrames x.prof s.free n (spanSamples l 0 l.length)) (packetTag l) s.draw
    modChan x.no (fun y => { y with txGap := false }) s

/-- The frames of the next packet, in order, once every one of them is there. -/
def nextPacket (x : Chan) : Option (List UpFrame) :=
  let l := (List.range x.prof.ptime.toNat).map (fun k => x.packed.find? (fun u => u.seq = x.packNext + BitVec.ofNat 16 k))
  if l.all (fun u => u.isSome) then some (l.filterMap (fun u => u)) else none

/-- A packet's worth of frames is complete: it is sent, or suppressed; the RTP timestamp advances with it. -/
def buildPacket (m : Master) (c : ChanNo) (s : State) : State :=
  match findChan s c with
  | none => s
  | some x =>
    match nextPacket x with
    | none => s
    | some l =>
      let s := if x.inService then sendFrames m x l s else s
      modChan c (fun y => { y with
        packed := y.packed.filter (fun u => !(l.any (fun v => v.seq = u.seq))),
        packNext := y.packNext + BitVec.ofNat 16 l.length,
        rtpTs := y.rtpTs + BitVec.ofNat 32 (l.length * clockPer5 y.prof) }) s

/-! ### UDPTL (R335) -/

/-- A field with its length: one byte below 128, else two. -/
def lenField (l : List Byte) : List Byte :=
  (if l.length < 128 then [BitVec.ofNat 8 l.length] else [0x80 ||| BitVec.ofNat 8 (l.length / 256), BitVec.ofNat 8 l.length]) ++ l

/-- A UDPTL packet: sequence number, the primary IFP packet, and the previous ones as redundancy, latest first. -/
def udptlPacket (seq : Word) (primary : List Byte) (prev : List (List Byte)) : List Byte :=
  beBytes 2 seq.toNat ++ lenField primary ++ [0x00, BitVec.ofNat 8 prev.length] ++ prev.flatMap lenField

/-- As many of the three previous IFP packets as a datagram of 400 bytes holds. -/
def fittingPrev (seq : Word) (primary : List Byte) (prev : List (List Byte)) : List (List Byte) :=
  let n := ((List.range 4).reverse.find? (fun k => decide ((udptlPacket seq primary (prev.take k)).length ≤ 400))).getD 0
  prev.take n

/-- The packetiser in fax relay: what FAX_UP formed is sent. -/
def faxPacket (m : Master) (c : ChanNo) (u : UpFrame) (s : State) : State :=
  match findChan s c with
  | none => s
  | some x =>
    if u.ifp.isEmpty || !x.inService then s
    else
      let ifp := u.ifp.take 390
      let l := udptlPacket x.fax.txSeq ifp (fittingPrev x.fax.txSeq ifp x.fax.sent)
      let s := writePacket m (egressQ c) l u.audio.tag none false s
      modChan c (fun y => { y with fax := { y.fax with txSeq := y.fax.txSeq + 1, sent := (ifp :: y.fax.sent).take 3 } }) s

/-! ### The packetiser's record (R36, R468) -/

/-- An up frame of a channel, by its number. -/
def findUp (x : Chan) (seq : Word) : Option UpFrame := x.ups.find? (fun u => u.seq = seq)

/-- An up frame is packetised: recorded, and added to the packet being gathered or sent as UDPTL. -/
def placeUp (m : Master) (c : ChanNo) (u : UpFrame) (s : State) : State :=
  let s := modChan c (fun y => { y with ups := y.ups.filter (fun v => v.seq ≠ u.seq),
                                        upRecorded := y.upRecorded || decide (u.seq = y.frameNo) }) s
  if u.fax then faxPacket m c u s
  else buildPacket m c (modChan c (fun y => { y with packed := y.packed ++ [u] }) (dtmfTick m c s))

/-- A concealment frame in the place of an up frame that no graph will complete (R36, R220, R221). -/
def concealUp (x : Chan) (seq : Word) (draw : Nat) : UpFrame :=
  { seq := seq, audio := ⟨upTag x seq, true, concealFrame x.prof x.bgUp 1 draw⟩, kept := [], dec := [], plain := false,
    digit := false, inactive := false, sidDue := false, quiet := false,
    fax := ((findUp x seq).map (fun u => u.fax)).getD x.fax.active, ifp := [] }

def placeConcealed (c : ChanNo) (seq : Word) (s : State) : State :=
  match findChan s c with
  | none => s
  | some x => placeUp .firmware c (concealUp x seq s.free) s.draw

/-- An up frame whose graph is cancelled: once its window has passed it is already counted late and is packetised at
once; within its window PLAYOUT does so (R36, R221). -/
def settleUp (c : ChanNo) (seq : Word) (s : State) : State :=
  match findChan s c with
  | none => s
  | some x => if (findUp x seq).isSome && (x.played || decide (seq ≠ x.frameNo)) then placeConcealed c seq s else s

/-- The graph of a task that will not end is cancelled (R221), with what becomes of its up frame. -/
def loseGraph (t : Task) (s : State) : State :=
  let s := cancelGraph t s
  if channelFlow t.flow && t.flow.getLsbD 0 then settleUp ((t.flow >>> 1).setWidth 13) t.seq s else s

end Sys2Proof.Machine
end

