-- ==== Sys2Proof/Machine/Chan.lean ====
section
/-! DEFINITION. Channel life and safety: quiet points of calibration items (R504), trace segments
(R525-R527), module and channel safe state (R469-R472, R481), deletion (R247, R361), admission
(R28-R30), shedding (R32) and withdrawals (R144). -/

namespace Sys2Proof.Machine

/-! ### Quiet points (Table 19-3) -/

/-- The item is in use. Temperature and power-sense items wait for their own sample instead. -/
def calInUse (s : State) (item : Word) : Bool :=
  let k := item.toNat
  if 0x200 ≤ k ∧ k ≤ 0x203 then
    (s.tim.ptp.getD (k - 0x200) PtpPort.atReset).role = 1 && s.tim.src = 1 && s.tim.locked
  else if k = 0x300 then s.tim.src = 3 && s.tim.locked
  else if k = 0x400 then s.tim.src = 2 && s.tim.locked
  else if 0x500 ≤ k ∧ k ≤ 0x51F then s.led.chans.any (fun c => c.prof.hwy.toNat = k - 0x500)
  else if 0x100 ≤ k ∧ k ≤ 0x103 then true
  else true

/-- A waiting offset applied. -/
def applyCal (item : Word) (s : State) : State :=
  match alFind s.cal.waiting item with
  | none => s
  | some v => s.setCal { s.cal with offsets := alSet s.cal.offsets item v, waiting := alErase s.cal.waiting item }

/-- Every waiting item that is no longer in use takes its offset. -/
def settleCal (s : State) : State :=
  (s.cal.waiting.map (fun e => e.1)).foldl (fun s i => if calInUse s i then s else applyCal i s) s

/-- A new offset: at once where the item is not in use, else at its quiet point (R504). -/
def offerCal (item : Word) (v : Int) (s : State) : State :=
  settleCal (s.setCal { s.cal with waiting := alSet s.cal.waiting item v })

/-! ### Trace segments -/

def recordTime (r : List Word) : W32 :=
  if fld (arg r 0) 8 8 = 0xF0 then arg2 r 4
  else if fld (arg r 0) 8 8 = 0xF1 then arg2 r 5
  else arg2 r 3

def wordsToBytes (l : List Word) : List Byte := l.flatMap (fun (w : Word) => [w.setWidth 8, (w >>> 8).setWidth 8])

def traceBase (k : Nat) : Nat := 0xE0000000 + k * 0x200000

/-- The current segment closed, compressed at LEVEL 1 into the oldest slot, and a new one begun (R525, R526). -/
def closeSegment (s : State) : State :=
  match s.fi.segment with
  | [] => s
  | r :: rest =>
    let bytes := (r :: rest).flatMap wordsToBytes
    let out := gzipOf 1 bytes
    let k := (s.fi.segNo - 1) % 32
    let last := ((r :: rest).getLast?).getD r
    let s := store s (traceBase k) out
    s.setFi { s.fi with
      slots := alSet s.fi.slots k ⟨BitVec.ofNat 32 s.fi.segNo, BitVec.ofNat 32 out.length, recordTime r, recordTime last⟩,
      segment := [], segNo := s.fi.segNo + 1 }

/-! ### Causes (Table 18-4) -/

def causeClass (c : Byte) : BitVec 4 :=
  match c.toNat with
  | 0x01 => 1
  | 0x02 => 1
  | 0x03 => 2
  | 0x04 => 2
  | 0x05 => 5
  | 0x06 => 0xA
  | 0x07 => 0xA
  | 0x10 => 3
  | 0x11 => 3
  | 0x12 => 3
  | 0x20 => 4
  | 0x21 => 4
  | 0x22 => 5
  | 0x30 => 6
  | 0x31 => 7
  | 0x32 => 8
  | 0x40 => 9
  | 0x41 => 0xB
  | 0x42 => 0xB
  | 0x50 => 0xC
  | 0x51 => 0xD
  | _ => 0

/-- The clearable classes (R483). -/
def clearable (cls : BitVec 4) : Bool := cls = 9 || cls = 0xA || cls = 0xB

def causeWord (c : Byte) : Word := causeClass c ++ (0 : BitVec 4) ++ c

/-- A SAFE record (Table 07-8), and whether it was stored. -/
def safeRecord (scope id : Nat) (cause : Byte) (s : State) : State × Bool :=
  raiseRaw evSafe [BitVec.ofNat 16 scope, BitVec.ofNat 16 id, cause.setWidth 16, (causeClass cause).setWidth 16] false s

/-- A completion event CAL_DONE. -/
def calDoneEvent (w : Work) (status : Word) (done failed : Nat) (s : State) : State :=
  let fwd := match w.origin with
    | .forwarded _ _ => true
    | .host => false
    | .broadcast => false
  (raiseRaw evCalDone [w.tag, w.op, status, BitVec.ofNat 16 done, BitVec.ofNat 16 failed] fwd s).1

/-- PWR_LIMIT changed: a PWR event reports it (R46). -/
def powerReport (before : Word) (s : State) : State := if pwrLimit s = before then s else raisePwr s

/-- Out-of-service work (Table 19-4): the DRAM test, a measurement, and the proof test. -/
def isOutOfService (w : Work) : Bool :=
  (w.op = 0x0904 && w.test = 4) || (w.op = 0x0901 && decide (0x500 ≤ w.test)) || w.op = 0x0803

/-- What the work still had to do: the steps of the proof test, the item of a CAL_RUN, the units of a self-test (R198, R497). -/
def workRest (w : Work) : Nat := if w.op = 0x0803 then 7 - (w.done + w.failed) else if w.op = 0x0901 then 1 else w.todo.length

/-- A module-scope safe state ends out-of-service work with STATUS SAFETY_LOCK (R497, R510). -/
def endWorkSafe (s : State) : State :=
  let gone := s.cmds.works.filter isOutOfService
  let s := s.setCmds { s.cmds with works := s.cmds.works.filter (fun w => !isOutOfService w) }
  let before := pwrLimit s
  let s := powerReport before (s.setPwr { s.pwr with held := none })
  let s := s.setPins { s.pins with proofStep6 := false }
  let s := s.setTdm (s.tdm.map (fun h => { h with goodPulses := 0 }))
  gone.foldl (fun s w => calDoneEvent w stSafetyLock w.done (w.failed + workRest w) s) s

/-- Whether a module-scope cause leads to SAFE: not in STANDBY or RESET (R481), and by Table 05-7 not in RECOVERY,
nor in BOOT but for BIST. -/
def causeActs (cause : Byte) (m : Mode) : Bool :=
  match m with
  | .reset | .standby | .recovery => false
  | .boot => cause = 0x50
  | _ => true

/-- Reaction of a module-scope cause (R481, R482, R527). -/
def moduleSafe (cause : Byte) (s : State) : State :=
  if !causeActs cause s.mode then s
  else if s.saf.safe then (safeRecord 0 0 cause s).1
  else
    let s := s.setSaf { s.saf with safe := true, cause := cause, cls := causeClass cause }
    let s := s.led.chans.foldl (fun s c => sendBye c.no outOfService s) s
    let s := s.setLed { s.led with chans := s.led.chans.map (fun c => { c with inService := false, playing := .idle }) }
    let s := (safeRecord 0 0 cause s).1
    let s := setMode .safe s
    let s := s.led.chans.foldl (fun s c => raiseChState c.no 0 5 s) s
    let s := endWorkSafe s
    let s := closeSegment s
    s.setFi { s.fi with stopped := true }

/-- A SAFE event other than a module's: when it cannot be stored, the module enters SAFE with cause REPORT (R472). -/
def raiseSafe (scope id : Nat) (cause : Byte) (s : State) : State :=
  match safeRecord scope id cause s with
  | (s, true) => s
  | (s, false) => moduleSafe 0x07 s

/-! ### Channel safe state (R469-R471) -/

/-- One channel enters channel safe state: idle code, egress flushed, BYE, CH_STATE with REASON 5. -/
def chanSafeOne (c : ChanNo) (cause : Byte) (s : State) : State :=
  match findChan s c with
  | none => s
  | some x =>
    if x.safe.isSome then s
    else
      let s := modChan c (fun y => { y with safe := some (causeWord cause), inService := false, playing := .idle }) s
      let s := flushQueue (egressQ c) s
      let s := sendBye c outOfService s
      raiseChState c 0 5 s

/-- Safe-state entries within 100 ms are counted against STORM_LIMIT (R471). -/
def countStorm (s : State) : State :=
  let recent := (s.saf.storm ++ [uptime s]).filter (fun t => decide (uptime s < t + 50000000))
  let s := s.setSaf { s.saf with storm := recent, stormEntries := satAdd s.saf.stormEntries 1 }
  if s.saf.stormLimit ≤ recent.length then moduleSafe 0x06 s else s

/-- A channel's failure: the channel, or with policy 1 its whole group, enters channel safe state. -/
def chanSafe (c : ChanNo) (cause : Byte) (s : State) : State :=
  match findChan s c with
  | none => s
  | some x =>
    if x.safe.isSome || s.saf.safe then s
    else
      let g := x.prof.group
      if g ∈ s.saf.groupPolicy then
        let s := s.setSaf { s.saf with groupSafe := if (alFind s.saf.groupSafe g).isSome then s.saf.groupSafe else alSet s.saf.groupSafe g (causeWord cause) }
        let s := ((s.led.chans.filter (fun y => y.prof.group = g)).map Chan.no).foldl (fun s n => chanSafeOne n cause s) s
        countStorm (raiseSafe 1 g.toNat cause s)
      else countStorm (raiseSafe 2 c.toNat cause (chanSafeOne c cause s))

def addAl (l : AL (BitVec 10) W32) (g : BitVec 10) : AL (BitVec 10) W32 := alSet l g (satAdd (alGet l g 0) 1)

/-- A tag failure of a channel: TAG_ID or TAG_CRC (R467). -/
def tagFailure (c : ChanNo) (crc : Bool) (s : State) : State :=
  let g := (findChan s c).map (fun x => x.prof.group) |>.getD 0
  let s := modChan c (fun x => { x with tagFail := satAdd x.tagFail 1 }) s
  let s := s.setSaf { s.saf with tagFail := satAdd s.saf.tagFail 1, groupTag := addAl s.saf.groupTag g }
  chanSafe c (if crc then 0x02 else 0x01) s

/-- A liveness failure: LIVE_MISS, or LIVE_SEQ for a wrong sequence number (R468). -/
def liveFailure (c : ChanNo) (wrongSeq : Bool) (s : State) : State :=
  let g := (findChan s c).map (fun x => x.prof.group) |>.getD 0
  let s := modChan c (fun x => { x with liveFail := satAdd x.liveFail 1 }) s
  let s := s.setSaf { s.saf with liveFail := satAdd s.saf.liveFail 1, groupLive := addAl s.saf.groupLive g }
  chanSafe c (if wrongSeq then 0x04 else 0x03) s

/-- CH_SAFE: a channel or group is in safe state. -/
def anyChanSafe (s : State) : Bool := s.led.chans.any (fun c => c.safe.isSome)

/-! ### Deletion (R247, R361) -/

/-- A task of one of the channel's flows is in service. -/
def chanInService (s : State) (c : ChanNo) : Bool := flowInService s (downFlow c) || flowInService s (upFlow c)

/-- A channel deleted: BYE, both queues flushed and disabled, its tasks and its list 0 entry removed. -/
def removeChan (c : ChanNo) (s : State) : State :=
  let s := sendBye c deletedText s
  let s := disableQueue (egressQ c) (disableQueue (ingressQ c) s)
  let s := cancelWhere (fun t => t.flow = downFlow c || t.flow = upFlow c) s
  let s := s.setSch { s.sch with entries := s.sch.entries.filter (fun e => e.chan ≠ some c),
                                 flows := alErase (alErase s.sch.flows (downFlow c)) (upFlow c) }
  let g := (findChan s c).map (fun x => x.prof.group) |>.getD 0
  let s := s.setLed { s.led with chans := s.led.chans.filter (fun x => x.no ≠ c) }
  let s := if s.led.chans.any (fun x => x.prof.group = g && x.safe.isSome) then s
           else s.setSaf { s.saf with groupSafe := alErase s.saf.groupSafe g }
  settleCal (pointsChanged s)

/-- A deletion that the host did not command: with its CH_STATE event. -/
def dropChan (reason : Nat) (c : ChanNo) (s : State) : State := raiseChState c 2 reason (removeChan c s)

def dropChans (reason : Nat) (l : List ChanNo) (s : State) : State := l.foldl (fun s c => dropChan reason c s) s

def allChans (s : State) : List ChanNo := s.led.chans.map Chan.no

/-! ### Admission (R28, R30) -/

/-- The engine that takes `tu` tensor units, with what each engine holds besides and the share (R28). -/
def placeTu (s : State) (tu on0 on1 share : Nat) : Option (BitVec 1) :=
  if tu = 0 then some 0
  else
    let f0 := engineUp s 0 && decide (on0 + tu ≤ share)
    let f1 := engineUp s 1 && decide (on1 + tu ≤ share)
    let first1 := engineUp s 1 && (!engineUp s 0 || decide (on1 < on0))
    if first1 then (if f1 then some 1 else if f0 then some 0 else none)
    else (if f0 then some 0 else if f1 then some 1 else none)

/-- Units an engine holds besides those of channel `c`. -/
def tuOnBut (s : State) (c : ChanNo) (e : BitVec 1) : Nat :=
  sumOf Chan.tu (s.led.chans.filter (fun x => x.te = e && x.no ≠ c))

/-- The four conditions of R30 against given ceilings, for channel `c` with `lu` and `tu`; a channel whose units
do not change keeps its engine. -/
def fitsCeilings (s : State) (c : ChanNo) (lu tu : Nat) (keep : Option (BitVec 1)) (luTop tuTop share : Nat) : Option (BitVec 1) :=
  let others := sumOf Chan.lu (s.led.chans.filter (fun x => x.no ≠ c)) + sumOf (fun r => r.2) s.led.resv
  let tuOthers := sumOf Chan.tu (s.led.chans.filter (fun x => x.no ≠ c))
  let count := (s.led.chans.filter (fun x => x.no ≠ c)).length + 1
  if others + lu ≤ luTop ∧ tuOthers + tu ≤ tuTop ∧ count ≤ channelLimit s then
    match keep with
    | some e => some e
    | none => placeTu s tu (tuOnBut s c 0) (tuOnBut s c 1) share
  else none

/-- Admission of a request: its engine, or the status that refuses it (R30). POWER_LIMIT is for a request that only the
lowered LU or tensor ceiling stops; a failure against an engine's share is NO_RESOURCE. -/
def fitLoad (s : State) (c : ChanNo) (lu tu : Nat) (keep : Option (BitVec 1)) : Except Word (BitVec 1) :=
  match fitsCeilings s c lu tu keep (luCeil s) (tuCeil s) (engineShare s) with
  | some e => .ok e
  | none =>
    match fitsCeilings s c lu tu keep (16 * ceilUnpowered s) (tuCeilUnpowered s) (engineShare s) with
    | some _ => .error stPowerLimit
    | none => .error stNoResource

/-- The frame phase with the lowest admitted LU, the lowest number on a tie (R19). -/
def choosePhase (s : State) : Nat :=
  (minBy (fun p => sumOf Chan.lu (s.led.chans.filter (fun c => c.phase.toNat = p))) (List.range 40)).getD 0

/-- A SEED of 1-1,023 that differs from the one last used for the channel number (R465). -/
def drawSeed (s : State) (c : ChanNo) : BitVec 10 :=
  let d := (Config.free32 s.free).toNat
  match alFind s.led.lastSeeds c with
  | none => BitVec.ofNat 10 (1 + d % 1023)
  | some k =>
    let v := 1 + d % 1022
    BitVec.ofNat 10 (if v < k.toNat then v else v + 1)

/-! ### Shedding (R32, R224) -/

/-- The next channel to shed: newest first among those not marked priority, then among the others; while the LU
ceiling is not exceeded only channels with tensor units, and while neither ceiling is, only those on an engine
whose share is exceeded. -/
def shedVictim (s : State) : Option ChanNo :=
  let luOver := decide (luCeil s < luAdmitted s)
  let tuOver := decide (tuCeil s < tuAdmitted s)
  let may := fun (c : Chan) => luOver || (decide (0 < c.tu) && (tuOver || shareExceeded s c.te))
  let order := s.led.chans.reverse
  match order.find? (fun c => !c.prof.priority && may c) with
  | some c => some c.no
  | none => (order.find? (fun c => c.prof.priority && may c)).map Chan.no

def shedReason : ShedCause → Nat
  | .power => 1
  | .thermal => 2
  | .withdrawal => 3

/-- The newest reservation released, and its flow cancelled (R224). -/
def shedReservation (s : State) : State :=
  match s.led.resv.getLast? with
  | none => s
  | some (f, _) =>
    let s := s.setLed { s.led with resv := s.led.resv.dropLast }
    cancelFlow f (s.setSch { s.sch with resvShed := satAdd s.sch.resvShed 1 })

/-- Channels, and then reservations, taken out until the load fits. -/
def shedLoop (reason : Nat) : Nat → State → State
  | 0, s => s
  | n + 1, s =>
    if overCeiling s then
      match shedVictim s with
      | some c => shedLoop reason n (dropChan reason c s)
      | none => shedLoop reason n (shedReservation s)
    else s

/-- Shedding is over: admission opens again, and windows count again towards a guard step (R32, R52). -/
def endShedding (s : State) : State :=
  let s := s.setLed { s.led with shedding := none }
  s.setPwr { s.pwr with guardShed := false }

/-- Shedding carried out and complete. -/
def shed (s : State) : State :=
  match s.led.shedding with
  | none => s
  | some cause =>
    let s := shedLoop (shedReason cause) (s.led.chans.length + s.led.resv.length) s
    pointsChanged (endShedding s)

/-! ### Withdrawals (R144, Table 04-3) -/

/-- From RUN a withdrawal leads to DEGRADED. -/
def degrade (s : State) : State := if s.mode = .run then setMode .degraded s else s

/-- A task lost with its executor: its graph's other tasks are cancelled. -/
def loseTask (t : Task) (s : State) : State := removeService t (loseGraph t s)

/-- A voice core withdrawn: its task is lost, its POINT keeps its last value (R106), the core ceiling falls, shedding may
follow. -/
def withdrawCore (n : CoreNo) (s : State) : State :=
  if !corePresent s n || (getCore s n).withdrawn then s
  else
    let before := pwrLimit s
    let s := match serving s (.vc n) with
      | some t => loseTask t s
      | none => s
    let c := getCore s n
    let s := putCore n { c with withdrawn := true, drained := false, draining := false, busy := none, target := c.point } s
    let s := powerReport before (checkCeilings .withdrawal s)
    degrade (nextDrain (pointsChanged s))

/-- Channels of a withdrawn engine placed on the other one: priority channels first, each group oldest first; a
channel that does not fit is shed with REASON 3 (R28). -/
def replaceChans (e : BitVec 1) (s : State) : State :=
  let other : BitVec 1 := if e = 0 then 1 else 0
  if !engineUp s other then s
  else
    let here := s.led.chans.filter (fun c => c.te = e && decide (0 < c.tu))
    let order := here.filter (fun c => c.prof.priority) ++ here.filter (fun c => !c.prof.priority)
    let (s, left) := order.foldl (fun (acc : State × List ChanNo) c =>
      let (s, left) := acc
      if tuOn s other + c.tu ≤ engineShare s then (modChan c.no (fun x => { x with te := other }) s, left)
      else (s, left ++ [c.no])) (s, [])
    dropChans 3 left s

/-- The NEURAL tasks created for an engine are lost with it, whether in service or not yet (R209). -/
def loseNeural (e : BitVec 1) (s : State) : State :=
  let s := match serving s (.te e) with
    | some t => loseTask t s
    | none => s
  (s.sch.tasks.filter (fun t => onTensor t.cls && t.engine = e)).foldl (fun s t => loseTask t s) s

/-- A tensor engine withdrawn (Table 04-3). -/
def withdrawEngine (e : BitVec 1) (s : State) : State :=
  if !engineUp s e then s
  else
    let s := loseNeural e s
    let s := s.setSch (if e = 0 then { s.sch with te0Gone := true } else { s.sch with te1Gone := true })
    let s := s.setTen (if e = 0 then { s.ten with te0 := { s.ten.te0 with chan := none, models := [] } }
                       else { s.ten with te1 := { s.ten.te1 with chan := none, models := [] } })
    degrade (checkCeilings .withdrawal (replaceChans e s))

/-- A cell with an error leaves the pool until reset (R514). -/
def retireCells (l : List Nat) (s : State) : State :=
  noteFree (s.setQm { s.qm with retired := s.qm.retired ++ (l.filter (fun c => c ∉ usedCells s)).eraseDups })

end Sys2Proof.Machine
end

