-- ==== Sys2Proof/Machine/Jitter.lean ====
section
/-! DEFINITION. The jitter buffer (R323, R325, R327-R330): received RTP packets as frames, the buffer's target, and the
frame released at each tick. -/

namespace Sys2Proof.Machine

/-- Bounds of the delay in ms (R327). -/
def jbLow (p : Profile) : Nat := if p.jbMin = 0 && p.jbMax = 0 then 20 else p.jbMin.toNat
def jbHigh (p : Profile) : Nat := if p.jbMin = 0 && p.jbMax = 0 then 200 else p.jbMax.toNat
def jbFixed (p : Profile) : Bool := p.jbMin = p.jbMax && p.jbMin ≠ 0

/-- A buffer that starts at a target, held between the profile's bounds. -/
def startJitter (p : Profile) (target : Nat) : Jitter :=
  { held := [], target := max (jbLow p) (min (jbHigh p) target), synced := false, ssrc := 0, lastSeq := 0, curSeq := 0,
    nextTs := 0, refill := 0, rising := false, falling := false, sinceInsert := 0, sinceFall := 0, late := [], lastArr := 0,
    lastTs := 0, transit := 0, ticks := 0, lostRun := 0, noise := false, events := [] }

def newJitter (p : Profile) : Jitter := startJitter p (jbLow p)

/-! ### Packets -/

/-- A received RTP packet. -/
structure RtpView where
  marker : Bool
  pt : BitVec 7
  seq : Word
  ts : W32
  ssrc : W32
  payload : List Byte
deriving DecidableEq, Repr

/-- An RTP packet read past its CSRC list, header extension and padding (R358). -/
def viewRtp (l : List Byte) : Option RtpView :=
  let b0 := byteAt l 0
  let off := 12 + 4 * fld b0 0 4
  let off := if bitOf b0 4 then off + 4 + 4 * (be16 l (off + 2)).toNat else off
  let pad := if bitOf b0 5 then (byteAt l (l.length - 1)).toNat else 0
  if fld b0 6 2 ≠ 2 ∨ l.length < off + pad then none
  else some { marker := bitOf (byteAt l 1) 7, pt := (byteAt l 1).setWidth 7, seq := be16 l 2, ts := be32 l 4,
              ssrc := be32 l 8, payload := (l.take (l.length - pad)).drop off }

/-- Opus frame length in units of 2.5 ms, by TOC configuration (RFC 6716). -/
def opusUnits (cfg : Nat) : Nat :=
  if cfg < 12 then [4, 8, 16, 24].getD (cfg % 4) 0
  else if cfg < 16 then [4, 8].getD (cfg % 2) 0
  else [1, 2, 4, 8].getD (cfg % 4) 0

/-- Opus bandwidth rank of a TOC configuration: 0 narrowband, 1 medium, 2 wideband, 3 wider. -/
def opusBand (cfg : Nat) : Nat :=
  if cfg < 4 then 0 else if cfg < 8 then 1 else if cfg < 12 then 2 else if cfg < 16 then 3
  else if cfg < 20 then 0 else if cfg < 24 then 2 else 3

def opusFrames (l : List Byte) : Nat :=
  match fld (byteAt l 0) 0 2 with
  | 0 => 1
  | 3 => fld (byteAt l 1) 0 6
  | _ => 2

/-- 5 ms frames of an Opus packet, and whether it is a discontinuous-transmission packet (R323, R325). -/
def opusSlots (wide : Bool) (l : List Byte) : Option (Nat × Bool) :=
  if l.isEmpty then none
  else
    let cfg := fld (byteAt l 0) 3 5
    let units := opusFrames l * opusUnits cfg
    if (if wide then 2 else 0) < opusBand cfg ∨ units = 0 ∨ 48 < units ∨ 60 * units < 8 * l.length then none
    else some (cdiv units 2, decide (l.length ≤ 1))

/-- 5 ms frames of a voice payload, and whether it ends in a SID frame; none where R323 discards it. -/
def voiceSlots (p : Profile) (l : List Byte) : Option (Nat × Bool) :=
  let whole := fun (per : Nat) => if l.length % per = 0 ∧ 0 < l.length ∧ l.length / per ≤ 24 then some (l.length / per, false) else none
  match p.codec.toNat with
  | 0 => whole 40
  | 1 => whole 40
  | 2 => whole 10
  | 3 => whole 15
  | 4 => whole 20
  | 5 => whole 25
  | 6 =>
    let n := 2 * (l.length / 10)
    if l.length % 10 = 0 then (if 0 < n ∧ n ≤ 24 then some (n, false) else none)
    else if l.length % 10 = 2 then (if n + 2 ≤ 24 then some (n + 2, true) else none)
    else none
  | 7 => whole 40
  | 8 => opusSlots p.wideband l
  | _ => whole (if p.wideband then 160 else 80)

/-- Signed distance of two timestamps or sequence numbers. -/
def tsDiff (a b : W32) : Int := (a - b).toInt
def seqDiff (a b : Word) : Int := (a - b).toInt

/-- Bytes of the 5 ms frame `i` of a payload of `n`: of a G.729 payload the 10 ms codec frame in which it lies. -/
def frameBytes (p : Profile) (l : List Byte) (n i : Nat) : List Byte :=
  if p.codec = 6 then (l.drop (10 * (i / 2))).take 10 else (l.drop (i * (l.length / n))).take (l.length / n)

/-- Frames of one packet. -/
def packetFrames (p : Profile) (v : RtpView) (tag : W32) (n : Nat) (sid quiet : Bool) : List JbFrame :=
  (List.range n).map (fun i =>
    { seq := v.seq, ts := v.ts + BitVec.ofNat 32 (i * clockPer5 p), tag := tag, silent := quiet || v.marker,
      sid := sid && decide (n ≤ i + 2), bytes := frameBytes p v.payload n i })

/-- A frame put in its place by timestamp. -/
def insertFrame (f : JbFrame) : List JbFrame → List JbFrame
  | [] => [f]
  | a :: r => if tsDiff f.ts a.ts < 0 then f :: a :: r else a :: insertFrame f r

/-! ### Lateness (R328) -/

/-- RTP clock units in thirds of a nanosecond: a whole number at every clock of Table 12-2. -/
def unitThirds (p : Profile) : Int := 15000000 / (clockPer5 p : Int)

/-- The transit times of the last 2 s, with a new packet's. -/
def noteTransit (p : Profile) (j : Jitter) (arr ts : W32) : Jitter :=
  let tr := j.transit + 3 * (arr - j.lastArr).toInt - tsDiff ts j.lastTs * unitThirds p
  { j with transit := tr, lastArr := arr, lastTs := ts, late := j.late ++ [(tr, j.ticks)] }

/-- What was seen within the last 2 s. -/
def recentLate (j : Jitter) : List (Int × Nat) := j.late.filter (fun e => decide (j.ticks < e.2 + 400))

/-- A multiple of 5 ms in thirds of a nanosecond, at or above a time. -/
def ceil5 (t : Int) : Nat := cdiv t.toNat 15000000 * 5

/-- The largest lateness of the last 2 s plus 5 ms, rounded up to 5 ms and held between the bounds. -/
def wantedTarget (p : Profile) (j : Jitter) : Nat :=
  match j.late with
  | [] => j.target
  | (t0, _) :: r =>
    let hi := r.foldl (fun m e => max m e.1) t0
    let lo := r.foldl (fun m e => min m e.1) t0
    max (jbLow p) (min (jbHigh p) (ceil5 (hi - lo + 15000000)))

/-- The target moves: up at once, down by at most 5 ms per 100 ms. -/
def moveTarget (p : Profile) (j : Jitter) : Jitter :=
  let j := { j with ticks := j.ticks + 1, sinceFall := j.sinceFall + 1, sinceInsert := j.sinceInsert + 1, late := recentLate { j with ticks := j.ticks + 1 } }
  if jbFixed p then { j with target := jbLow p }
  else
    let w := wantedTarget p j
    if j.target < w then { j with target := w, rising := true, falling := false }
    else if w < j.target ∧ 20 ≤ j.sinceFall then
      { j with target := max w (j.target - 5), sinceFall := 0, falling := true, rising := false }
    else j

/-! ### Arrival (R329, R330) -/

/-- A change of SSRC, a sequence jump of more than 100 or a timestamp jump of more than 2 s (R330). -/
def mustResync (p : Profile) (j : Jitter) (v : RtpView) : Bool :=
  !j.synced || j.ssrc ≠ v.ssrc || decide (100 < (seqDiff v.seq j.lastSeq).natAbs) ||
  decide (400 * clockPer5 p < (tsDiff v.ts j.lastTs).natAbs)

/-- Held audio in ms. -/
def heldMs (j : Jitter) : Nat := 5 * j.held.length

/-- Held audio above its bound: the oldest frames go until the target remains (R329). -/
def trimHeld (p : Profile) (j : Jitter) : Jitter × Nat :=
  if min 300 (jbHigh p) < heldMs j then
    let n := j.held.length - j.target / 5
    let rest := j.held.drop n
    match rest with
    | [] => ({ j with held := rest }, n)
    | h :: _ => ({ j with held := rest, nextTs := h.ts }, n)
  else (j, 0)

/-- The buffer after a resynchronisation on a packet: playout restarts at the target delay (R330). -/
def resync (p : Profile) (j : Jitter) (v : RtpView) (arr : W32) (fs : List JbFrame) : Jitter :=
  { j with held := fs, synced := true, ssrc := v.ssrc, lastSeq := v.seq, curSeq := v.seq - 1, nextTs := v.ts,
           refill := (if jbFixed p then jbLow p else j.target) / 5, rising := false, falling := false,
           late := [(0, j.ticks)], lastArr := arr, lastTs := v.ts, transit := 0, noise := false, events := [] }

/-- A voice packet of `n` frames enters the buffer: the buffer after it, and the frames discarded and counted. -/
def jbPacket (p : Profile) (j : Jitter) (v : RtpView) (tag arr : W32) (n : Nat) (sid quiet : Bool) : Jitter × Nat :=
  let fs := packetFrames p v tag n sid quiet
  if mustResync p j v then trimHeld p (resync p j v arr fs)
  else if j.held.any (fun f => f.seq = v.seq) then (noteTransit p { j with lastSeq := v.seq } arr v.ts, n)
  else
    let j := noteTransit p { j with lastSeq := v.seq } arr v.ts
    let fresh := fs.filter (fun f => decide (0 ≤ tsDiff f.ts j.nextTs))
    let r := trimHeld p { j with held := fresh.foldl (fun l f => insertFrame f l) j.held }
    (r.1, (fs.length - fresh.length) + r.2)

/-- The sequence number of a telephone-event packet: not missing, though no voice frame carries it (R325). -/
def jbEvent (j : Jitter) (v : RtpView) : Jitter :=
  if v.seq ∈ j.events then j else { j with lastSeq := if j.synced then v.seq else j.lastSeq, events := (j.events ++ [v.seq]).reverse.take 100 |>.reverse }

/-! ### Release (R325, R326, R328, R333) -/

/-- The position in a telephone event that a timestamp falls on, while the event is to be played. -/
def eventAt (p : Profile) (ev : Option RtpEvent) (ts : W32) : Option (RtpEvent × Nat) :=
  match ev with
  | none => none
  | some e =>
    let d := tsDiff ts e.ts
    if 0 ≤ d ∧ d < (e.duration.toNat : Int) ∧ e.code.toNat ≤ 15 then some (e, d.toNat) else none

/-- No packet is missing between the one last released from and packet `seq`. -/
def consecutive (j : Jitter) (seq : Word) : Bool :=
  (List.range (seq - j.curSeq).toNat).all (fun k => k = 0 || (j.curSeq + BitVec.ofNat 16 k) ∈ j.events)

/-- A concealed frame: one more in a row. -/
def jbConceal (j : Jitter) : Jitter × Release := ({ j with lostRun := j.lostRun + 1 }, .conceal (j.lostRun + 1))

/-- Frames dropped for a fallen target, one at a tick (R328). -/
def dropSilent (clk : W32) (j : Jitter) : Jitter :=
  let j := { j with falling := j.falling && decide (j.target < heldMs j) }
  match j.held with
  | h :: r => if j.falling && h.silent then { j with held := r, nextTs := j.nextTs + clk } else j
  | [] => j

/-- The frame whose turn it is, at timestamp `nextTs`: what is released, and whether a frame is lost. -/
def jbDue (p : Profile) (clk : W32) (ev : Option RtpEvent) (j : Jitter) : Jitter × Release × Bool :=
  let covered := eventAt p ev j.nextTs
  let next := { j with nextTs := j.nextTs + clk }
  match j.held with
  | h :: r =>
    if tsDiff h.ts j.nextTs ≤ 0 then
      let j := { j with held := r, nextTs := h.ts + clk, curSeq := h.seq, lostRun := 0, noise := h.sid,
                        events := j.events.filter (fun q => decide (0 < seqDiff q h.seq)) }
      match (if p.toneGen then eventAt p ev h.ts else none) with
      | some (e, at') => (j, .event e.code e.volume at', false)
      | none => (j, .frame h, false)
    else
      match covered with
      | some (e, at') => ({ next with lostRun := 0 }, if p.toneGen then .event e.code e.volume at' else .noise, false)
      | none =>
        if h.seq = j.curSeq || consecutive j h.seq then ({ next with noise := true, lostRun := 0 }, .noise, false)
        else ((jbConceal { next with noise := false }).1, (jbConceal next).2, true)
  | [] =>
    match covered with
    | some (e, at') => ({ next with lostRun := 0 }, if p.toneGen then .event e.code e.volume at' else .noise, false)
    | none =>
      if j.noise then (next, .noise, false)
      else ((jbConceal next).1, (jbConceal next).2, true)

/-- The frame due at a tick: the buffer after it, what it releases, and whether a frame is lost. Before the session's
first packet no packet is missing, so that comfort noise is released and nothing counted as lost: R37 and R325 do not say
it of a buffer that has never synchronised (log entry 91). -/
def jbRelease (p : Profile) (ev : Option RtpEvent) (j : Jitter) : Jitter × Release × Bool :=
  let clk := BitVec.ofNat 32 (clockPer5 p)
  let j := moveTarget p j
  let j := { j with rising := j.rising && decide (heldMs j < j.target) }
  if !j.synced then (j, .noise, false)
  else if 0 < j.refill then ((jbConceal { j with refill := j.refill - 1 }).1, (jbConceal j).2, false)
  else if j.rising ∧ 4 ≤ j.sinceInsert then ({ j with sinceInsert := 0 }, .conceal 1, false)
  else jbDue p clk ev (dropSilent clk j)

end Sys2Proof.Machine
end

