-- ==== Sys2Proof/Machine/Voice.lean ====
section
/-! DEFINITION. The call path of a channel (chapters 01, 08, 12, 18): graphs at the frame tick, the effect of each vendor
class's end on the frames of its direction, TDM playout, and the egress queue. -/

namespace Sys2Proof.Machine

/-! ### Graphs (R202-R204) -/

def hasTones (p : Profile) : Bool := p.tones ≠ 0 || p.toneGen

/-- Classes of the down graph in order. Fax relay runs FAX_DOWN in place of the whole chain (R335). -/
def downClasses (x : Chan) : List (BitVec 6) :=
  if x.fax.active then [8] else [0, 1] ++ (if hasTones x.prof then [2] else [])

/-- Classes of the up graph in order. -/
def upClasses (x : Chan) : List (BitVec 6) :=
  if x.fax.active then [9, 7]
  else (if x.prof.ecTail ≠ 0 then [3] else []) ++ (if hasTones x.prof then [4] else []) ++
    (if x.prof.models ≠ 0 || x.prof.cmodel ≠ 0 then [5] else []) ++ [6, 7]

/-- Places in the store and the spill area. -/
def freePlaces (s : State) : Nat := (storeSlots - (residents s).length) + (spillSlots - (spilledTasks s).length)

/-- The first class has the direction's entry slots, each other one requires PREV. -/
def createGraph (flow seq : Word) (l : List (BitVec 6)) (req opt arrived : BitVec 4) (s : State) : State :=
  match l with
  | [] => s
  | k :: r =>
    let s := (createTask flow k req opt arrived seq 0 0 s).1
    r.foldl (fun s k => (createTask flow k 4 0 0 seq 0 0 s).1) s

def countFull (s : State) : State := s.setSch { s.sch with fullCount := satAdd s.sch.fullCount 1 }

/-- The down graph of the current frame; TICK arrives at creation. -/
def buildDown (c : ChanNo) (s : State) : State :=
  match findChan s c with
  | none => s
  | some x =>
    if x.downBuilt then s
    else if freePlaces s < (downClasses x).length then countFull s
    else modChan c (fun y => { y with downBuilt := true }) (createGraph (downFlow c) x.frameNo (downClasses x) 1 2 1 s)

/-- The up graph: its first task requires DATA, and XREF where it is EC. -/
def buildUp (c : ChanNo) (s : State) : State :=
  match findChan s c with
  | none => s
  | some x =>
    if x.upBuilt then s
    else if freePlaces s < (upClasses x).length then countFull s
    else
      let ec := decide (x.prof.ecTail ≠ 0) && !x.fax.active
      let arrived : BitVec 4 := if ec && (alFind x.refs x.frameNo).isSome then 8 else 0
      modChan c (fun y => { y with upBuilt := true })
        (createGraph (upFlow c) x.frameNo (upClasses x) (if ec then 10 else 2) 0 arrived s)

/-- XREF for the up EC of a frame (R204). -/
def giveXref (c : ChanNo) (seq : Word) (s : State) : State :=
  match s.sch.tasks.find? (fun t => t.flow = upFlow c && t.cls = 3 && t.seq = seq && !t.arrived.getLsbD 3) with
  | some t => settleStore (takeOperand t 3 s)
  | none => s

/-! ### Liveness (R468) -/

/-- A missed frame; two in a row are a failure. -/
def missFrame (c : ChanNo) (up wrong : Bool) (s : State) : State :=
  match findChan s c with
  | none => s
  | some x =>
    let v := if up then x.liveUp else x.liveDown
    if v.exempt then
      modChan c (fun y => if up then { y with liveUp := { v with exempt := false } } else { y with liveDown := { v with exempt := false } }) s
    else
      let n := v.misses + 1
      let s := modChan c (fun y => if up then { y with liveUp := { v with misses := n, lastWrong := wrong } } else { y with liveDown := { v with misses := n, lastWrong := wrong } }) s
      if 2 ≤ n then liveFailure c wrong s else s

/-- A frame seen in time with the sequence number expected. -/
def hitFrame (c : ChanNo) (up : Bool) (s : State) : State :=
  modChan c (fun y =>
    if up then { y with liveUp := { y.liveUp with misses := 0, exempt := false } }
    else { y with liveDown := { y.liveDown with misses := 0, exempt := false } }) s

/-! ### Received packets (R323, R332, R333) -/

/-- A TONE event. -/
def raiseTone (c : ChanNo) (up on : Bool) (set : BitVec 3) (code dur : Word) (s : State) : State :=
  raise evTone [c.setWidth 16, pack 16 [(b2n up, 0), (b2n on, 1)], set.setWidth 16, code, dur] s

/-- A duration of RTP clock units in ms, saturating. -/
def rtpMs (p : Profile) (d : Word) : Word := satNat 16 (d.toNat * 5 / clockPer5 p)

/-- The off event of a telephone event in progress. -/
def endRtpEvent (x : Chan) (s : State) : State :=
  match x.rtpEvent with
  | none => s
  | some e => if e.ended then s else raiseTone x.no false false 0 (e.code.setWidth 16) (rtpMs x.prof e.duration) s

/-- What is reported of a telephone event, with the DTMF set enabled: its first packet, and its end (R333). -/
def reportEvent (x : Chan) (known wasEnded fin : Bool) (code : Byte) (dur : Word) (s : State) : State :=
  if !bitOf x.prof.tones 0 then s
  else
    let s := if known then s else raiseTone x.no false true 0 (code.setWidth 16) 0 (endRtpEvent x s)
    if fin && !wasEnded then raiseTone x.no false false 0 (code.setWidth 16) (rtpMs x.prof dur) s else s

/-- A telephone-event packet received (R333): its sequence number is not missing; events 0–16 are followed, and 17–255
discarded. -/
def telephoneEvent (x : Chan) (v : RtpView) (s : State) : State :=
  let s := modChan x.no (fun y => { y with jb := jbEvent y.jb v }) s
  let code := byteAt v.payload 0
  let flags := byteAt v.payload 1
  let dur := be16 v.payload 2
  if 16 < code.toNat ∨ v.payload.length < 4 then s
  else
    let known := match x.rtpEvent with
      | some e => decide (e.ts = v.ts)
      | none => false
    let wasEnded := known && (match x.rtpEvent with
      | some e => e.ended
      | none => false)
    let fin := bitOf flags 7
    let s := reportEvent x known wasEnded fin code dur s
    modChan x.no (fun y => { y with rtpEvent := some ⟨v.ts, code, flags &&& 0x3F, dur, fin || wasEnded⟩ }) s

/-- The IFP packets of a UDPTL packet that have not been received before, oldest first: the primary one, behind those
missing before it that it repeats (R335). -/
def newIfps (last : Option Word) (seq : Word) (primary : List Byte) (prev : List (List Byte)) : List (List Byte) :=
  match last with
  | none => [primary]
  | some k =>
    let gap := seqDiff seq k
    if gap ≤ 0 then [] else (prev.take (gap.toNat - 1)).reverse ++ [primary]

/-- A UDPTL packet for the fax modem. -/
def takeUdptl (c : ChanNo) (l : List Byte) (s : State) : State :=
  match viewUdptl l with
  | none => s
  | some (seq, primary, prev) =>
    modChan c (fun y =>
      let new := newIfps y.fax.rxSeq seq primary prev
      { y with fax := { y.fax with received := y.fax.received ++ new, idle := 0, rxSeq := if new.isEmpty then y.fax.rxSeq else some seq } }) s

/-- One packet of the ingress queue taken by the jitter-buffer task, with its TAG and receive time (R323, R465). -/
def jbTake (c : ChanNo) (l : List Byte) (tag arr : W32) (s : State) : State :=
  match findChan s c with
  | none => s
  | some x =>
    match viewRtp l with
    | none => if x.prof.t38 && udptlShape l then takeUdptl c l s else countDiscard c s
    | some v =>
      if v.pt.toNat = eventPt x.prof then telephoneEvent x v s
      else if v.pt ≠ x.prof.pt then countDiscard c s
      else
        match voiceSlots x.prof v.payload with
        | none => countDiscard c s
        | some (n, sid) =>
          let (j, m) := jbPacket x.prof x.jb v tag arr n sid (Config.freeBit s.free)
          modChan c (fun y => { y with jb := j, discards := satAdd y.discards m }) s.draw

/-- One packet taken by FAX_DOWN: UDPTL for the modem; voice and telephone events have no use in relay, and any other
packet is discarded and counted (R323, R335). -/
def faxTake (c : ChanNo) (l : List Byte) (_tag _arr : W32) (s : State) : State :=
  match findChan s c with
  | none => s
  | some x =>
    if udptlShape l then takeUdptl c l s
    else
      match viewRtp l with
      | none => countDiscard c s
      | some v => if v.pt.toNat = eventPt x.prof || (v.pt = x.prof.pt && (voiceSlots x.prof v.payload).isSome) then s else countDiscard c s

/-- Every committed packet of the ingress queue is taken and released (R204), read as a consumer reads it (R253). -/
def drainIngress (m : Master) (c : ChanNo) (take : List Byte → W32 → W32 → State → State) (s : State) : State :=
  ((getQ s (ingressQ c)).pkts).foldl (fun s p =>
    popHead (ingressQ c) (take (pktBytes s p) (storedTag s p) p.time (noteRead m p s))) s

/-! ### The down chain -/

/-- A down frame of a channel, by its number. -/
def findDown (x : Chan) (seq : Word) : Option DownFrame := x.downs.find? (fun d => d.seq = seq)

/-- A down frame takes its place in the chain. -/
def putDown (c : ChanNo) (d : DownFrame) (s : State) : State :=
  modChan c (fun y => { y with downs := y.downs.filter (fun e => e.seq ≠ d.seq) ++ [d] }) s

def dropDown (c : ChanNo) (seq : Word) (s : State) : State :=
  modChan c (fun y => { y with downs := y.downs.filter (fun e => e.seq ≠ seq) }) s

/-- The down tag of a released frame: CHAN, DIR 0 and SEED of the packet it came in, or of the channel where no packet
gave it, and the frame number (R465). -/
def downTag (x : Chan) (seq : Word) (r : Release) : W32 :=
  match r with
  | .frame f => mkTag (tagChan f.tag) (tagUp f.tag) (seq.setWidth 8) (tagSeed f.tag)
  | .conceal _ => mkTag x.no false (seq.setWidth 8) x.seed
  | .noise => mkTag x.no false (seq.setWidth 8) x.seed
  | .event _ _ _ => mkTag x.no false (seq.setWidth 8) x.seed
  | .fax => mkTag x.no false (seq.setWidth 8) x.seed

/-- JB: the packets are taken, and one frame is released with its tag (R37, R465). -/
def endJb (m : Master) (x : Chan) (seq : Word) (s : State) : State :=
  let s := drainIngress m x.no (jbTake x.no) s
  match findChan s x.no with
  | none => s
  | some x =>
    let (j, r, lost) := jbRelease x.prof x.rtpEvent x.jb
    let s := modChan x.no (fun y => { y with jb := j, lost := if lost then satAdd y.lost 1 else y.lost }) s
    putDown x.no ⟨seq, r, ⟨downTag x seq r, true, []⟩⟩ s

/-- An echo reference, kept for the last few frames (R20). -/
def putRef (c : ChanNo) (seq : Word) (samples : List W32) (s : State) : State :=
  modChan c (fun y => { y with refs := (alSet (alErase y.refs seq) seq samples).reverse.take 8 |>.reverse }) s

/-- DECODE: the released frame becomes samples, which are the echo reference (R20, R204, R325, R326). -/
def endDecode (x : Chan) (seq : Word) (r : TaskFinding) (s : State) : State :=
  let s := modChan x.no (fun y => { y with bgDown := r.background }) s
  match findDown x seq with
  | none => s
  | some d =>
    let l := releaseSamples x.prof x.bgDown s.free d.what
    let s := putDown x.no { d with audio := passFrame d.audio r.badInput l } s.draw
    giveXref x.no seq (putRef x.no seq l s)

/-! ### Tones (R331, R332, R334) -/

/-- V.21 channel 2 flags accepted on a channel that permits T.38: fax relay begins at the next tick, and the TONE event is
raised whatever the sets (R334). -/
def faxFlags (c : ChanNo) (up : Bool) (h : Heard) (s : State) : State :=
  match findChan s c with
  | none => s
  | some x =>
    if h.flags2 < 3 || !x.prof.t38 || x.fax.active || x.fax.trigger then s
    else
      let told := x.tones.any (fun t => t.up = up && t.set = 4 && t.accepted = some 1)
      let s := if told then s else raiseTone c up true 4 1 0 s
      modChan c (fun y => { y with fax := { y.fax with trigger := true } }) s

/-- A frame through the enabled detectors of a direction, with the events they raise (R331). -/
def detectTones (c : ChanNo) (up : Bool) (h : Heard) (s : State) : State × List (BitVec 3 × ToneNews) :=
  match findChan s c with
  | none => (s, [])
  | some x =>
    let r := trackAll (Config.freeBit s.free) x.prof.tones up h x.tones
    let s := modChan c (fun y => { y with tones := r.1 }) s.draw
    (r.2.foldl (fun s n => raiseTone c up n.2.1 n.1 n.2.2.1 (satNat 16 n.2.2.2) s) s, r.2)

/-- The digits that the DTMF set reports in the up direction are sent as RFC 4733 events (R332). -/
def sendDigits (m : Master) (c : ChanNo) (seq : Word) (h : Heard) (news : List (BitVec 3 × ToneNews)) (s : State) : State :=
  (news.filter (fun n => n.1 = 0)).foldl (fun s n => if n.2.1 then startDigit m c seq n.2.2.1 h s else endDigit m c s) s

/-- The tasks that detect tones run in a direction's chain; without them the codec's task looks for V.21 (R334). -/
def tonesHere (x : Chan) : Bool := hasTones x.prof

/-! ### The up chain -/

/-- An up frame changed in its place. -/
def modUp (c : ChanNo) (seq : Word) (f : UpFrame → UpFrame) (s : State) : State :=
  modChan c (fun y => { y with ups := y.ups.map (fun u => if u.seq = seq then f u else u) }) s

/-- The tone disabler, ERL flag and coefficients after a frame (R317, R319). Coefficients are held while the disabler keeps
the canceller off. -/
def cancellerStep (r : TaskFinding) (draw : Nat) (e : Canceller) : Canceller :=
  let dis := disablerStep r.near r.far e.dis
  { erlStep r e with dis := dis, coeffs := if dis.scope.getLsbD 1 then e.coeffs else draw + 1 }

/-- EC: the canceller with its NLP on the line's frame and the reference of the same number (R316-R320). The frame that
leaves it is kept for R320. -/
def endEc (x : Chan) (seq : Word) (r : TaskFinding) (s : State) : State :=
  let ref := alGet x.refs seq (quietFrame x.prof)
  let e := cancellerStep r s.free x.ec
  let s := modChan x.no (fun y => { y with ec := e, bgUp := r.background }) s
  modUp x.no seq (fun u =>
    let l := echoFrame x.prof e.dis.scope x.ec.coeffs s.free r u.audio.samples ref
    { u with audio := passFrame u.audio r.badInput l, kept := l, plain := u.plain || e.dis.scope.getLsbD 0 }) s.draw

/-- TONE_UP: tones, digits and V.21 in the frame (R320, R331, R332). -/
def endToneUp (m : Master) (x : Chan) (seq : Word) (r : TaskFinding) (s : State) : State :=
  let (s, news) := detectTones x.no true r.near s
  let s := faxFlags x.no true r.near (sendDigits m x.no seq r.near news s)
  match findChan s x.no with
  | none => s
  | some y => modUp x.no seq (fun u => { u with plain := u.plain || toneOn y.tones true, digit := y.dtmf.isSome }) s

/-- ENCODE: its input by R320 and R332, and what Annex B or the voice probability says of transmission (R324). -/
def endEncode (x : Chan) (seq : Word) (r : TaskFinding) (s : State) : State :=
  let s := if tonesHere x then s else faxFlags x.no true r.near s
  match findUp x seq with
  | none => s
  | some u =>
    let quiet := if bitOf x.prof.models 2 && !atLeastHalf (u.dec.getD 0 0) then x.quietFrames + 1 else 0
    let s := modChan x.no (fun y => { y with quietFrames := quiet }) s
    modUp x.no seq (fun u =>
      { u with audio := passFrame u.audio r.badInput (encoderInput x.prof u), inactive := r.inactive, sidDue := r.sidDue,
               quiet := decide (40 ≤ quiet) }) s

/-- PACKETISE: the frame is recorded, and joins the packet being gathered (R36, R468). -/
def endPacketise (m : Master) (x : Chan) (seq : Word) (r : TaskFinding) (s : State) : State :=
  match findUp x seq with
  | none => s
  | some u => placeUp m x.no { u with audio := passFrame u.audio r.badInput u.audio.samples } s

/-! ### Fax relay (R334-R336) -/

/-- What a fax task hears of the line's end of the call. -/
def faxHears (r : TaskFinding) (f : FaxRelay) : FaxRelay :=
  let f := if r.faxSignal then { f with afterDcn := f.afterDcn.map (fun _ => 0), idle := 0 } else f
  if r.dcn then { f with afterDcn := some 0 } else f

/-- FAX_DOWN: the modem takes the IFP packets received and makes the line's signal. -/
def endFaxDown (m : Master) (x : Chan) (seq : Word) (r : TaskFinding) (s : State) : State :=
  let s := drainIngress m x.no (faxTake x.no) s
  match findChan s x.no with
  | none => s
  | some x =>
    let l := drawn x.prof (Config.faxAudio x.fax.received s.free)
    let s := modChan x.no (fun y => { y with fax := { faxHears r y.fax with received := [] } }) s.draw
    putDown x.no ⟨seq, .fax, ⟨downTag x seq .fax, true, l⟩⟩ s

/-- FAX_UP: the modem forms an IFP packet from the line's signal, or none. -/
def endFaxUp (x : Chan) (seq : Word) (r : TaskFinding) (s : State) : State :=
  let s := modChan x.no (fun y => { y with fax := faxHears r y.fax }) s
  modUp x.no seq (fun u => { u with audio := passFrame u.audio r.badInput u.audio.samples, ifp := r.ifp }) s

/-! ### Ends of the vendor classes -/

/-- The effect of a vendor task's end on its channel, before its flow is released. -/
def classEnd (t : Task) (m : Master) (r : TaskFinding) (s : State) : State :=
  let c : ChanNo := (t.flow >>> 1).setWidth 13
  match findChan s c with
  | none => s
  | some x =>
    match t.cls.toNat with
    | 0 => endJb m x t.seq s
    | 1 => (if tonesHere x then endDecode x t.seq r s else faxFlags c false r.far (endDecode x t.seq r s))
    | 2 => faxFlags c false r.far (detectTones c false r.far s).1
    | 3 => endEc x t.seq r s
    | 4 => endToneUp m x t.seq r s
    | 6 => endEncode x t.seq r s
    | 7 => endPacketise m x t.seq r s
    | 8 => endFaxDown m x t.seq r s
    | 9 => endFaxUp x t.seq r s
    | _ => s

/-- The last task of a down graph has ended: the frame is ready for playout, or, being late, discarded (R35). -/
def downEnds (c : ChanNo) (seq : Word) (s : State) : State :=
  match findChan s c with
  | none => s
  | some x =>
    if seq = x.frameNo && !x.played then modChan c (fun y => { y with downDone := true }) s else dropDown c seq s

/-- A task ends (R204, R206): its effect, the flow released, PREV to the next task of its graph. -/
def taskEnds (t : Task) (r : TaskFinding) (s : State) : State :=
  let m : Master := match t.exec with
    | some (.vc n) => .core n
    | _ => .firmware
  let s := if channelFlow t.flow then classEnd t m r s else s
  let next := if channelFlow t.flow then successor s t else none
  let s := if channelFlow t.flow && !t.flow.getLsbD 0 && next.isNone then downEnds ((t.flow >>> 1).setWidth 13) t.seq s else s
  let s := removeEnded t s
  match next.bind (fun n => findTask s n.id) with
  | some n => settleStore (giveOperand n 2 s)
  | none => s

/-! ### The frame tick (R203, R468, R190, R334-R336, R341) -/

/-- The octets of a timeslot in the last `n` frames that the module side of a highway has read, oldest first; before so
many have come, the silence code. -/
def slotHistory (h : Highway) (slot n : Nat) : List Byte :=
  let l := (h.rxHist.take n).map (fun f => f.getD slot (silenceCode h.cfg.muLaw))
  List.replicate (n - l.length) (silenceCode h.cfg.muLaw) ++ l.reverse

/-- Octets of an up frame: the silence code of the law while the highway is disabled or not aligned (R369, R372); samples
2j and 2j + 1 of a wideband channel come in its two timeslots (R368). -/
def lineOctets (p : Profile) (h : Highway) : List Byte :=
  if !h.cfg.enabled || !h.aligned then List.replicate (frameLen p) (silenceCode h.cfg.muLaw)
  else if p.wideband then (List.zip (slotHistory h p.slot.toNat 40) (slotHistory h (p.slot.toNat + 1) 40)).flatMap (fun e => [e.1, e.2])
  else slotHistory h p.slot.toNat 40

/-- Audio assembled for an up frame, expanded by the highway's law, with its tag (R22, R368). -/
def assemble (x : Chan) (s : State) : State :=
  let h := getHwy s x.prof.hwy
  let l := (lineOctets x.prof h).map (expand h.cfg.muLaw)
  let u : UpFrame := { seq := x.frameNo, audio := ⟨upTag x x.frameNo, true, l⟩, kept := l, dec := [], plain := false, digit := false,
                       inactive := false, sidDue := false, quiet := false, fax := x.fax.active, ifp := [] }
  modChan x.no (fun y => { y with ups := y.ups.filter (fun v => v.seq ≠ u.seq) ++ [u] }) s

/-- Tones of removed sets end with an off event, and what their detection had begun ends with them: a digit being sent and
a telephone event being reported (R341). -/
def endRemovedTones (x : Chan) (p : Profile) (s : State) : State :=
  let gone := x.tones.filter (fun t => !bitOf p.tones t.set.toNat)
  let s := gone.foldl (fun s t => (endNews t).foldl (fun s n => raiseTone x.no t.up n.1 t.set n.2.1 (satNat 16 n.2.2) s) s) s
  let s := if bitOf x.prof.tones 0 && !bitOf p.tones 0 then
      modChan x.no (fun y => { y with rtpEvent := y.rtpEvent.map (fun e => { e with ended := true }) })
        (endRtpEvent x (if x.dtmf.isSome then endDigit .firmware x.no s else s))
    else s
  modChan x.no (fun y => { y with tones := y.tones.filter (fun t => bitOf p.tones t.set.toNat) }) s

/-- The buffer restarts at its target; held frames are not counted. -/
def restartJitter (c : ChanNo) (s : State) : State := modChan c (fun y => { y with jb := startJitter y.prof y.jb.target }) s

/-- A canceller with zero coefficients and its flags clear. -/
def Canceller.start : Canceller := ⟨0, 0, 0, 0, false, Disabler.start⟩

/-- The channel is out of service only for want of keys (R363). -/
def waitsForKeys (x : Chan) : Bool := x.prof.srtp && (x.rxCtx.isNone || x.txCtx.isNone) && x.safe.isNone

/-- SRTP turned on takes the channel out of service until both directions hold keys; turned off, a channel that
waited for keys returns (R363). -/
def changeSrtp (x : Chan) (p : Profile) (s : State) : State :=
  if x.prof.srtp = p.srtp then s
  else
    let back := !p.srtp && waitsForKeys x
    let s := modChan x.no (fun y => { y with
      rxCtx := none, rxOld := none, txCtx := none, keysLate := false, inService := back || (!p.srtp && y.inService) }) s
    if back && x.keysLate then raiseChState x.no 1 0 s else s

/-- Relay is over for a channel: voice resumes with a canceller of zero coefficients and the buffer at its target, and the
next packet begins at the coming frame, the timestamp having gone on meanwhile (R336). -/
def leaveFax (c : ChanNo) (s : State) : State :=
  restartJitter c (modChan c (fun y => { y with
    fax := { y.fax with active := false, trigger := false, afterDcn := none, idle := 0, received := [], rxSeq := none, sent := [] },
    ec := Canceller.start, packed := [],
    rtpTs := y.rtpTs + BitVec.ofNat 32 ((y.frameNo + 1 - y.packNext).toNat * clockPer5 y.prof), packNext := y.frameNo + 1 }) s)

/-- What a CH_MODIFY changes of the running state (R341). -/
def changedState (old p : Profile) (zero : Bool) (y : Chan) : Chan :=
  { y with
    neural := if zero || old.models ≠ p.models || old.cmodel ≠ p.cmodel || old.passes ≠ p.passes || old.wideband ≠ p.wideband then [] else y.neural,
    ec := if old.ecTail ≠ p.ecTail || old.wideband ≠ p.wideband then
        { Canceller.start with dis := if p.ecTail = 0 then Disabler.start else y.ec.dis }
      else y.ec }

/-- An accepted CH_MODIFY takes effect (R190, R341). -/
def applyProfile (c : ChanNo) (s : State) : State :=
  match findChan s c with
  | none => s
  | some x =>
    match x.nextProf with
    | none => s
    | some p =>
      let old := x.prof
      let s := changeSrtp x p (endRemovedTones x p s)
      let s := modChan c (fun y => { changedState old p x.neuralZero y with
        port := (bindPort s p).getD y.port, prof := p, nextProf := none, neuralZero := false,
        fax := { y.fax with trigger := y.fax.trigger && p.t38 } }) s
      if x.fax.active && !p.t38 then leaveFax c s
      else if old.codec ≠ p.codec || old.ptime ≠ p.ptime || old.wideband ≠ p.wideband then restartJitter c s
      else s

/-- Relay ends 5 s after a DCN without V.21 flags or carrier, or after 10 s without a UDPTL packet and without a fax signal
(R336). -/
def faxOver (f : FaxRelay) : Bool := decide (1000 ≤ f.afterDcn.getD 0) || decide (2000 ≤ f.idle)

/-- The switch to fax relay and back, and the frames counted meanwhile (R334, R336). Detection stops with the switch, and
what the detectors followed is forgotten. -/
def faxTick (c : ChanNo) (s : State) : State :=
  match findChan s c with
  | none => s
  | some x =>
    if x.fax.active then
      let f := { x.fax with afterDcn := x.fax.afterDcn.map (fun n => n + 1), idle := x.fax.idle + 1 }
      if faxOver f then leaveFax c s else modChan c (fun y => { y with fax := f }) s
    else if x.fax.trigger && x.prof.t38 then
      modChan c (fun y => { y with fax := { y.fax with active := true, trigger := false, afterDcn := none, idle := 0 },
                                   tones := [], dtmf := none }) s
    else s

/-- The up direction's record of the frame before this tick (R468). -/
def liveTick (c : ChanNo) (s : State) : State :=
  match findChan s c with
  | none => s
  | some x =>
    if !x.inService then s
    else if x.upRecorded then hitFrame c true s else missFrame c true false s

/-- The next frame's number, with nothing of it built yet. -/
def nextFrame (c : ChanNo) (s : State) : State :=
  modChan c (fun y => { y with
    frameNo := y.frameNo + 1, downBuilt := false, upBuilt := false, downDone := false, played := false, upRecorded := false,
    downs := y.downs.filter (fun d => decide (d.seq ≠ y.frameNo) || !y.downDone) }) s

/-- A channel's frame tick. -/
def frameTick (c : ChanNo) (s : State) : State :=
  match findChan s c with
  | none => s
  | some x =>
    if x.safe.isSome || s.saf.safe then s
    else
      let s := liveTick c s
      match findChan s c with
      | none => s
      | some x =>
        if x.safe.isSome || s.saf.safe then s
        else
          let s := nextFrame c (faxTick c (applyProfile c s))
          let s := match findChan s c with
            | some x => assemble x s
            | none => s
          dataToken (upFlow c) (buildUp c (buildDown c s))

/-- A failed graph creation tried again before the window ends (R220). -/
def graphRetry (c : ChanNo) (s : State) : State :=
  match findChan s c with
  | none => s
  | some x => if x.played || x.safe.isSome || s.saf.safe then s else buildUp c (buildDown c s)

/-! ### Playout (R21, R35, R36, R467) -/

def countLate (c : ChanNo) (s : State) : State := modChan c (fun y => { y with late := satAdd y.late 1 }) s

/-- No task of a frame's graph is left. -/
def graphDone (s : State) (flow seq : Word) : Bool := !s.sch.tasks.any (fun t => t.flow = flow && t.seq = seq)

/-- What TDM transmit plays from now on, from its first sample. -/
def startPlaying (c : ChanNo) (p : Playing) (s : State) : State := modChan c (fun y => { y with playing := p, playPos := 0 }) s

/-- A down frame checked and played; a failed one is replaced by the idle code. -/
def playFrame (x : Chan) (f : AFrame) (s : State) : State :=
  if !f.crcOk then tagFailure x.no true s
  else if tagChan f.tag ≠ x.no || tagUp f.tag || tagSeed f.tag ≠ x.seed || tagSeed f.tag = 0 then tagFailure x.no false s
  else if !x.inService then startPlaying x.no .idle s
  else
    let s := startPlaying x.no (.frame f) s
    if tagSeq f.tag = x.frameNo.setWidth 8 then hitFrame x.no false s else missFrame x.no false true s

/-- A concealment frame in place of a late one, with its sequence number; it is the echo reference (R35, R204). -/
def concealDown (x : Chan) (s : State) : State :=
  let l := concealFrame x.prof x.bgDown 1 s.free
  let f : AFrame := ⟨mkTag x.no false (x.frameNo.setWidth 8) x.seed, true, l⟩
  let s := startPlaying x.no (if x.inService then .conceal f else .idle) (countLate x.no s.draw)
  let s := if (alFind x.refs x.frameNo).isSome then s else putRef x.no x.frameNo l s
  let s := giveXref x.no x.frameNo s
  if x.inService then missFrame x.no false false s else s

/-- The up frame at the end of its window: late when not yet packetised, and replaced by a concealment frame when
its graph is gone (R36, R220, R221). -/
def upWindow (x : Chan) (s : State) : State :=
  if x.upRecorded then s
  else
    let s := countLate x.no s
    if graphDone s (upFlow x.no) x.frameNo then placeConcealed x.no x.frameNo s else s

/-- Tick + 2.5 ms of a channel: the down frame is played if its graph has run to its end, and is late otherwise. -/
def playout (c : ChanNo) (s : State) : State :=
  match findChan s c with
  | none => s
  | some x =>
    if x.played || x.safe.isSome || s.saf.safe then s
    else
      let s := modChan c (fun y => { y with played := true }) s
      let s := upWindow x s
      match (if x.downDone then findDown x x.frameNo else none) with
      | some d => dropDown c x.frameNo (playFrame x d.audio s)
      | none => concealDown x s

/-! ### Egress (R23, R467) -/

/-- A cell's TAG and whether its TAGCRC is good. -/
def cellTag (s : State) (c : Nat) : W32 := memRead32 s.mem (cellBase c + 0xF8)
def cellCrcGood (s : State) (c : Nat) : Bool :=
  memRead32 s.mem (cellBase c + 0xFC) = crc32c (fetch s (cellBase c) 0xFC) && c ∉ s.qm.eccCells

/-- The verdict of the checker on a packet: none is good, `some true` a CRC failure, `some false` an identity failure. -/
def checkPacket (s : State) (x : Chan) (p : Packet) : Option Bool :=
  if !p.cells.all (fun c => cellCrcGood s c) then some true
  else
    let t := cellTag s (p.cells.getD 0 0)
    if p.cells.all (fun c => cellTag s c = t) && tagChan t = x.no && tagUp t && tagSeed t = x.seed && tagSeed t ≠ 0 then none
    else some false

/-- The switch takes the head packet of a channel's egress queue. In module SAFE no packet leaves (R481). -/
def egress (c : ChanNo) (s : State) : State :=
  match findChan s c with
  | none => s
  | some x =>
    if s.saf.safe || x.safe.isSome then s
    else
      match headPkt s (egressQ c) with
      | none => s
      | some p =>
        let bytes := pktBytes s p
        let verdict := checkPacket s x p
        let s := popHead (egressQ c) (noteRead .switch p s)
        match verdict with
        | some crc => tagFailure c crc s
        | none =>
          if !x.inService then s
          else sendRtp x p.udptl bytes s

end Sys2Proof.Machine
end

