-- ==== Sys2Proof/Machine/Highway.lean ====
section
/-! DEFINITION. The frames of a TDM highway (chapter 13): alignment (R86), the slip buffers (R370-R372), what the owned
timeslots carry (R84, R85, R368) and the highway's injection points (Table 20-3, R519). -/

namespace Sys2Proof.Machine

/-- A TDM trim run is in progress on a highway (R508). -/
def trimming (s : State) (n : HwyNo) : Bool := s.cmds.works.any (fun w => w.op = 0x0901 && w.test = 0x500 + n.toNat)

/-! ### Alignment -/

/-- Both slip buffers one frame apart, with silence in them (R372). -/
def startBuffers (x : Highway) : Highway :=
  { x with rxBuf := [List.replicate 256 (silenceCode x.cfg.muLaw)], rxHist := [], rxGap := 2048,
           txBuf := [List.replicate 256 (some (silenceCode x.cfg.muLaw))], txGap := 2048, txOut := [], line := [] }

/-- Two good frame pulses (R86). A highway that realigns after a trim run raises no event (R508). -/
def alignHwy (n : HwyNo) (s : State) : State :=
  let x := getHwy s n
  if !x.cfg.enabled || x.aligned || !pinsActive s || trimming s n then s
  else
    let s' := putHwy n { startBuffers x with aligned := true, goodPulses := 0, badPulses := 0, trimRun := false } s
    if x.trimRun then s' else raiseLink 2 n.toNat 1 0 s'

/-- Alignment lost (R86, R372); `cause` by Table 13-3. -/
def loseHwy (n : HwyNo) (cause : Nat) (s : State) : State :=
  let x := getHwy s n
  if !x.aligned then s
  else raiseLink 2 n.toNat 0 cause (putHwy n { x with aligned := false, goodPulses := 0, badPulses := 0, line := [],
                                                      alignLoss := satAdd x.alignLoss 1 } s)

/-! ### Slips (R370, R371) -/

/-- Frames to delete for the pointers to be no more than a quarter of a frame from the buffer's end. -/
def slipsAbove (gap : Int) : Nat := ((gap - 3584 + 2047) / 2048).toNat

/-- Frames to repeat for the pointers to be no less than a quarter of a frame apart. -/
def slipsBelow (gap : Int) : Nat := ((512 - gap + 2047) / 2048).toNat

/-- Slips counted: a clock master does not slip (R371), whatever frames an injection point puts into its buffers. -/
def slipCount (x : Highway) (n : Nat) : Nat := if x.cfg.master then 0 else n

/-- A buffer with its oldest frames deleted, or the oldest repeated. -/
def slipFrames {α : Type} (dels reps : Nat) (l : List (List α)) : List (List α) :=
  List.replicate reps (l.headD []) ++ l.drop dels

/-- Frames written by the highway, and the module's reads of one frame time (R370); `drift` is by how many bit periods the
highway has run ahead of the module's grid. The module reads until one frame is left. -/
def rxFrames (l : List (List Byte)) (drift : Int) (x : Highway) : Highway :=
  let gap := x.rxGap + drift + 2048 * ((l.length : Int) - 1)
  let dels := slipsAbove gap
  let reps := slipsBelow gap
  let buf := slipFrames dels reps (x.rxBuf ++ l)
  let k := buf.length - 1
  { x with rxBuf := buf.drop k, rxHist := ((buf.take k).reverse ++ x.rxHist).take 40, rxGap := gap - 2048 * dels + 2048 * reps,
           rxDel := satAdd x.rxDel (slipCount x dels), rxRep := satAdd x.rxRep (slipCount x reps) }

/-- The transmit buffer's slips of one frame time, in which the highway reads `reads` frames. -/
def txSlips (reads : Nat) (drift : Int) (x : Highway) : Highway :=
  let gap := x.txGap - drift + 2048 * (1 - (reads : Int))
  let dels := slipsAbove gap
  let reps := slipsBelow gap
  { x with txBuf := slipFrames dels reps x.txBuf, txGap := gap - 2048 * dels + 2048 * reps,
           txDel := satAdd x.txDel (slipCount x dels), txRep := satAdd x.txRep (slipCount x reps) }

/-- A slip that SLIP tells of: the pointers have come within a quarter of a frame (R370, R371). -/
def slipHwy (n : HwyNo) (transmit fast : Bool) (s : State) : State :=
  let x := getHwy s n
  if !x.aligned || x.cfg.master then s
  else
    putHwy n (match transmit, fast with
      | false, true => { x with rxDel := satAdd x.rxDel 1, rxBuf := slipFrames 1 0 x.rxBuf, rxGap := 1536 }
      | false, false => { x with rxRep := satAdd x.rxRep 1, rxBuf := slipFrames 0 1 x.rxBuf, rxGap := 2560 }
      | true, true => { x with txRep := satAdd x.txRep 1, txBuf := slipFrames 0 1 x.txBuf, txGap := 2560 }
      | true, false => { x with txDel := satAdd x.txDel 1, txBuf := slipFrames 1 0 x.txBuf, txGap := 1536 }) s

/-! ### What the module writes (R85, R368) -/

/-- Where in the frame it plays a channel stands, for one of its timeslots. A frame played to its end gives silence. -/
def playedSample (x : Chan) (f : AFrame) (slot : Nat) : W32 := f.samples.getD (x.playPos + (slot - x.prof.slot.toNat)) 0

/-- The octet of a timeslot: the mapped channel's audio by the highway's law, or the idle code where that channel is absent,
out of service or in a safe state (R85, R368, R469). -/
def slotCode (s : State) (n : HwyNo) (slot : Nat) : Byte :=
  let x := getHwy s n
  match s.led.chans.find? (fun c => c.prof.hwy = n && slot ∈ slotsOf c.prof) with
  | none => x.cfg.idle
  | some c =>
    if !c.inService || c.safe.isSome then x.cfg.idle
    else match c.playing with
      | .idle => x.cfg.idle
      | .frame f => compand x.cfg.muLaw (playedSample c f slot)
      | .conceal f => compand x.cfg.muLaw (playedSample c f slot)

def composeFrame (s : State) (n : HwyNo) : List (Option Byte) := (List.range 256).map (fun t => some (slotCode s n t))

/-- The channels of a highway have each given the samples of one frame. -/
def advancePlay (n : HwyNo) (s : State) : State :=
  s.setLed { s.led with chans := s.led.chans.map (fun c =>
    if c.prof.hwy = n then { c with playPos := c.playPos + (slotsOf c.prof).length } else c) }

/-- The module writes `k` frames. -/
def writeFrames (n : HwyNo) : Nat → State → State
  | 0, s => s
  | k + 1, s =>
    let x := getHwy s n
    writeFrames n k (advancePlay n (putHwy n { x with txBuf := x.txBuf ++ [composeFrame s n] } s))

/-! ### The injection points -/

/-- Octets of a frame's driven timeslots. -/
def drivenOctets (l : List (Option Byte)) : List Byte := l.filterMap id

/-- The driven timeslots of a frame with their octets replaced, in order. -/
def refill : List (Option Byte) → List Byte → List (Option Byte)
  | [], _ => []
  | none :: r, b => none :: refill r b
  | some a :: r, b => some (b.headD a) :: refill r (b.drop 1)

/-- Highway frames among held units. -/
def hwyUnits (l : List HeldUnit) : List (List (Option Byte)) :=
  l.filterMap (fun u => match u with
    | .hwy f => some f
    | _ => none)

def rxPoint (n : HwyNo) : Word := 0x0100 + n.setWidth 16
def txPoint (n : HwyNo) : Word := 0x0120 + n.setWidth 16

/-- The frames that a received frame becomes behind the receive point (Table 20-3): a dropped one reads as 0xFF. -/
def rxUnit (n : HwyNo) (octets : List Byte) (s : State) : List (List Byte) × State :=
  match fiStep (rxPoint n) (.hwy (octets.map some)) s with
  | (.pass, s) => ([octets], s)
  | (.drop, s) => ([List.replicate 256 0xFF], s)
  | (.corrupt k unit _, s) => ([flipBits (fiBits (rxPoint n) unit (8 * octets.length) k) octets], s)
  | (.hold, s) => ([], s)
  | (.release l, s) => ((hwyUnits l).map drivenOctets, s)

/-- The frames that leave behind the transmit point for a frame of owned timeslots. While the point holds a frame, or drops
it, nothing is driven. -/
def txUnit (n : HwyNo) (f : List (Option Byte)) (s : State) : List (List (Option Byte)) × State :=
  let l := drivenOctets f
  match fiStep (txPoint n) (.hwy f) s with
  | (.pass, s) => ([f], s)
  | (.drop, s) => ([], s)
  | (.corrupt k unit _, s) => ([refill f (flipBits (fiBits (txPoint n) unit (8 * l.length) k) l)], s)
  | (.hold, s) => ([], s)
  | (.release u, s) => (hwyUnits u, s)

/-- Frames a disarmed or timed-out point releases at once (R518, R519, R521): a receive point's are written into the slip
buffer, a transmit point's wait for the highway's next frames. -/
def releaseHwy (p : Word) (l : List HeldUnit) (s : State) : State :=
  let n : HwyNo := p.setWidth 5
  let x := getHwy s n
  if p.toNat < 0x0120 then putHwy n (rxFrames ((hwyUnits l).map drivenOctets) 2048 x) s
  else putHwy n { x with txOut := x.txOut ++ hwyUnits l } s

/-! ### A frame of the highway -/

/-- A frame as the owned timeslots of TDM_Dn carry it; in module SAFE each has the silence code of the law (R84, R85). -/
def ownedFrame (s : State) (x : Highway) (f : List (Option Byte)) : List (Option Byte) :=
  (List.range 256).map (fun t =>
    if !x.own.getLsbD t then none else if s.saf.safe then some (silenceCode x.cfg.muLaw) else f.getD t none)

/-- The highway drives a frame that its transmit point had held: the frame that the module writes meanwhile finds no
reader (R519). -/
def driveHeld (n : HwyNo) (drift : Int) (s : State) : State :=
  let x := txSlips 0 drift (getHwy s n)
  writeFrames n (1 - x.txBuf.length) (putHwy n { x with line := x.txOut.headD [], txOut := x.txOut.drop 1 } s)

/-- The highway reads the transmit buffer and drives what its transmit point lets through. -/
def driveNext (n : HwyNo) (drift : Int) (s : State) : State :=
  let x := txSlips 1 drift (getHwy s n)
  let s := writeFrames n (2 - x.txBuf.length) (putHwy n x s)
  let x := getHwy s n
  let s := putHwy n { x with txBuf := x.txBuf.drop 1 } s
  let (out, s) := txUnit n (ownedFrame s x (x.txBuf.headD [])) s
  putHwy n { getHwy s n with line := out.headD [], txOut := out.drop 1 } s

/-- One frame time of an aligned highway, both directions. -/
def passFrames (n : HwyNo) (drift : Int) (octets : List Byte) (s : State) : State :=
  let d : Int := if (getHwy s n).cfg.master then 0 else max (-2048) (min 2048 drift)
  let (l, s) := rxUnit n octets s
  let s := putHwy n (rxFrames l d (getHwy s n)) s
  if (getHwy s n).txOut.isEmpty then driveNext n d s else driveHeld n d s

/-- The frame pulse of a frame counted (Table 13-6). -/
def countPulse (fsOk : Bool) (x : Highway) : Highway :=
  if fsOk then { x with goodPulses := x.goodPulses + 1, badPulses := 0 }
  else { x with goodPulses := 0, badPulses := x.badPulses + 1, fsErr := satAdd x.fsErr 1 }

/-- A 125 µs highway frame (R86): alignment is gained with the second good pulse in a row, and lost with the second bad
one. -/
def frameHwy (n : HwyNo) (fsOk : Bool) (drift : Int) (octets : List Byte) (s : State) : State :=
  let x := getHwy s n
  if !x.cfg.enabled || !pinsActive s then s
  else
    let x := countPulse fsOk x
    let s := putHwy n x s
    if !x.aligned then (if 2 ≤ x.goodPulses then alignHwy n s else s)
    else if 2 ≤ x.badPulses then loseHwy n 2 s
    else passFrames n drift octets s

/-- TDM_Dn is driven in a timeslot (R84, R85): highway enabled, aligned, slot owned, pins active. -/
def tdmDriven (s : State) (n : HwyNo) (slot : Nat) : Bool :=
  let x := getHwy s n
  pinsActive s && x.cfg.enabled && x.aligned && x.own.getLsbD slot

/-- The octet TDM_Dn carries in a timeslot of the present frame; none where it is released. -/
def tdmOctet (s : State) (n : HwyNo) (slot : Nat) : Option Byte :=
  if tdmDriven s n slot then (getHwy s n).line.getD slot none else none

end Sys2Proof.Machine
end

