-- ==== Sys2Proof/Machine/CmdOps.lean ====
section
/-! DEFINITION. The shapes that host commands share (chapter 07): a check of length and arguments that comes
before anything else (R182), and a reply. -/

namespace Sys2Proof.Machine

/-- What a command answers: a status and result words, or nothing yet. -/
abbrev Reply := Option (Word × List Word)

/-- The check of R182: none when length and arguments are in order. -/
abbrev Check := Option Word

/-- A layout of `n` words whose fields must satisfy `ok` (R182). -/
def need (n : Nat) (a : List Word) (ok : Bool) : Check :=
  if a.length ≠ n then some stBadLength else if ok then none else some stBadParam

/-- A reply without result words. -/
def answer (st : Word) (s : State) : State × Reply := (s, some (st, []))

/-- OK with result words. -/
def answerOk (l : List Word) (s : State) : State × Reply := (s, some (stOk, l))

/-- The command goes on; its response comes later. -/
def goesOn (s : State) : State × Reply := (s, none)

/-- A word no greater than `hi`. -/
def upTo (v : Word) (hi : Nat) : Bool := decide (v.toNat ≤ hi)

/-- A word within a range. -/
def inRange (v : Word) (lo hi : Nat) : Bool := decide (lo ≤ v.toNat) && decide (v.toNat ≤ hi)

end Sys2Proof.Machine
end

