-- ==== Sys2Proof/Machine/TimeOps.lean ====
section
/-! DEFINITION. The time unit (chapter 14): one cycle of the time clock, captures, steps, the servo, holdover,
PTP, interval probes and the time region. Offsets are in 1/16 ns, frequencies in 2^-20 ppb. -/

namespace Sys2Proof.Machine

/-! ### The counters (R376) -/

/-- One nanosecond in the 32 fractional bits of the increment. -/
def nsUnit : Nat := 2 ^ 32

/-- The increment of one time-clock cycle in 2^-32 ns: 2 ns corrected by the servo (R382). -/
def increment (t : TimeUnit) : Nat := (2 ^ 33 + t.y * 8192 / 1000000000).toNat

/-- Time in 2^-32 ns that `n` cycles add to a count and its fraction. -/
def countAfter (n whole frac : Nat) (t : TimeUnit) : Nat := whole * nsUnit + frac + n * increment t

/-- Both counters `n` cycles on, by the common increment (R376). -/
def advanceTime (n : Nat) (t : TimeUnit) : TimeUnit :=
  let c := countAfter n t.counter.toNat t.frac t
  let p := countAfter n t.phase t.phaseFrac t
  { t with
    counter := BitVec.ofNat 32 (c / nsUnit), frac := c % nsUnit,
    phase := p / nsUnit % 1000000000, secs := t.secs + (p / nsUnit / 1000000000 : Nat), phaseFrac := p % nsUnit,
    up := t.up + n }

/-- Bit 31 of the time counter changes within `n` cycles (R380). -/
def halfPassed (n : Nat) (t : TimeUnit) : Bool :=
  countAfter n t.counter.toNat t.frac t / nsUnit / 2147483648 ≠ t.counter.toNat / 2147483648

/-- IRQ_STAT.TIME_HALF sets (R159). -/
def noteHalf (changed : Bool) (s : State) : State :=
  if changed then s.setHost { s.host with irqTimeHalf := true } else s

/-- The firmware heartbeat `n` cycles on: it counts milliseconds from READY on, is 0x0000 in RESET, BOOT and RECOVERY
(R176), and keeps its value in STANDBY (Table 06-12). -/
def advanceHbeat (n : Nat) (s : State) : State :=
  match s.mode with
  | .reset | .boot | .recovery => s.setHost { s.host with hbeat := 0, hbeatCycles := 0 }
  | .standby => s
  | _ =>
    let k := s.host.hbeatCycles + n
    s.setHost { s.host with hbeat := s.host.hbeat + BitVec.ofNat 16 (k / 500000), hbeatCycles := k % 500000 }

/-- `n` cycles of the time clock: nothing moves in RESET or without power. -/
def passCycles (n : Nat) (s : State) : State :=
  if s.mode = .reset || !s.pwr.powered then s
  else advanceHbeat n (noteHalf (halfPassed n s.tim) (s.setTim (advanceTime n s.tim)))

/-- Cycles until the grid reaches `g` ns: none where it is there. -/
def cyclesTo (g : Int) (t : TimeUnit) : Nat :=
  cdiv ((g - gridNs t) * nsUnit - t.phaseFrac).toNat (increment t)

/-- Time moved on to `g` ns of the grid; it never moves back. -/
def reach (g : Int) (s : State) : State := passCycles (cyclesTo g s.tim) s

/-- The first multiple of `period` ns at which the grid stands, or will: an edge is seen at the first cycle at or after it. -/
def nextEdge (period : Int) (t : TimeUnit) : Int :=
  let g := gridNs t
  if g / period * period + 2 < g then (g / period + 1) * period else g / period * period

/-- The time pair of this instant (R456). -/
def pairNow (s : State) : TimePair := { time := s.tim.counter, phase := BitVec.ofNat 30 s.tim.phase }

/-- A pair moved by a number of nanoseconds. -/
def pairAdd (t : TimePair) (d : Int) : TimePair :=
  { time := BitVec.ofInt 32 (t.time.toNat + d), phase := BitVec.ofInt 30 ((t.phase.toNat + d) % 1000000000) }

/-- 2^32 · 1509231 = 1 modulo 5^9: joins the two counters of a pair. -/
def pairInverse : Int := 1509231

/-- The span of a pair: 2^23 · 10^9 ns (R456). -/
def pairSpan : Int := 8388608000000000

/-- a − b in nanoseconds, in [−L/2, L/2) (R456). -/
def pairDiff (a b : TimePair) : Int :=
  let dt : Int := ((a.time - b.time).toNat : Int)
  let dp : Int := (a.phase.toNat : Int) - b.phase.toNat
  let k := ((dp - dt) * pairInverse) % 1953125
  let d := dt + 4294967296 * k
  if d < pairSpan / 2 then d else d - pairSpan

/-- A capture into TIME0 and TIME1 with STEP_LATCH (R171, R379), of edges that come while LSRC selects their source: what
an edge before that selection leaves there is not said (log entry 88). -/
def capturePps (s : State) : State :=
  let s := s.setTim { s.tim with stepLatch := s.tim.stepSum }
  s.setHost { s.host with time0 := s.tim.counter.setWidth 16, time1 := (s.tim.counter >>> 16).setWidth 16, latched := true }

/-! ### Almanac firing, and steps (R387, R388) -/

/-- A CH_DELETE waits for this channel's tick (R247). -/
def deleteWaits (c : ChanNo) (s : State) : Bool :=
  match s.cmds.main.running with
  | some x => x.op = 0x0303 && (arg x.args 0).setWidth 13 = c
  | none => false

/-- A channel's tick (R203): the deletion that waited for it, or the frame tick. -/
def chanTick (c : ChanNo) (s : State) : State :=
  if deleteWaits c s then
    let s := removeChan c s
    s.setCmds { s.cmds with deleteDone := true }
  else frameTick c s

/-- An entry fires: a frame entry ticks its channel, any other delivers its operand (R214). -/
def fireDue (e : AEntry) (s : State) : State :=
  match e.chan with
  | some c => chanTick c (reinsert e (countFiring e s))
  | none => fireEntry e s

/-- Of two entries the one that R215 fires first: by step, list, expiry and insertion. -/
def firesBefore (s : State) (a b : AEntry) : Bool :=
  let x := entryStep s a
  let y := entryStep s b
  if x ≠ y then decide (x < y)
  else if a.list ≠ b.list then decide (a.list < b.list)
  else if a.expiry ≠ b.expiry then decide (a.expiry < b.expiry) else decide (a.ord ≤ b.ord)

/-- An entry put where R215 fires it. -/
def putInOrder (s : State) (e : AEntry) : List AEntry → List AEntry
  | [] => [e]
  | x :: r => if firesBefore s x e then x :: putInOrder s e r else e :: x :: r

/-- The entries whose expiry the grid has reached, in the order of R215. -/
def passedEntries (s : State) : List AEntry :=
  (s.sch.entries.filter (fun e => (getList s e.list.toNat).enable && decide (e.expiry ≤ listNow s e.list.toNat))).foldr
    (putInOrder s) []

/-- The next expiry of a periodic entry after tick `now` (R214, R388). -/
def skipTo (now : Nat) (e : AEntry) : AEntry :=
  if e.period ≠ 0 && decide (e.expiry ≤ now) then
    { e with expiry := e.expiry + cdiv (now + 1 - e.expiry) e.period * e.period }
  else e

/-- An entry that a step passed over, where it still stands, fires once and then keeps its schedule (R388). -/
def firePassed (e : AEntry) (s : State) : State :=
  if s.sch.entries.any (fun x => x.no = e.no) then
    let s := fireDue e s
    s.setSch { s.sch with entries := s.sch.entries.map (fun x => if x.no = e.no then skipTo (listNow s x.list.toNat) x else x) }
  else s

/-- Every channel's next missing frame is the step's, not a fault of its path. -/
def exemptAll (s : State) : State :=
  s.setLed { s.led with chans := s.led.chans.map (fun (c : Chan) =>
    { c with liveUp := { c.liveUp with exempt := true }, liveDown := { c.liveDown with exempt := true } }) }

/-- The highways that are not clock master find the module's grid moved by `d` ns against their own (R388). -/
def shiftHighways (d : Int) (s : State) : State :=
  let bits := (d.tmod 125000) * 2048 / 125000
  s.setTdm (s.tdm.map (fun h => if h.cfg.master then h else { h with rxGap := h.rxGap - bits, txGap := h.txGap + bits }))

/-- The grids follow a step (R388): what a forward step passed over fires at once; after a backward step entries wait,
unchanged, until the grid reaches their ticks. -/
def gridsFollow (s : State) : State :=
  let s := exemptAll s
  (passedEntries s).foldl (fun s e => firePassed e s) s

/-- The time in force of the present y, kept while LOCKED: the last 16 s of it (R389). -/
def noteLocked (s : State) : State :=
  let t := s.tim
  let h := if t.locked then (t.up - t.since, t.y) :: t.history.filter (fun e => e.1 ≠ 0) else t.history
  let trim := h.foldl (fun (acc : Nat × List (Nat × Int)) e =>
    if acc.1 = 0 then acc else (acc.1 - min acc.1 e.1, acc.2 ++ [(min acc.1 e.1, e.2)])) (8000000000, [])
  s.setTim { t with history := trim.2, since := t.up }

/-- LOCKED falls: a quiet point (R386, Table 19-3). -/
def unlock (s : State) : State :=
  let s := noteLocked s
  settleCal (s.setTim { s.tim with locked := false, goodRun := 0, badRun := 0 })

/-- Both counters moved by `d` ns (R376). -/
def steppedTime (d : Int) (t : TimeUnit) : TimeUnit :=
  let g : Int := t.phase + d
  { t with
    counter := t.counter + BitVec.ofInt 32 d, phase := (g % 1000000000).toNat, secs := t.secs + g / 1000000000,
    stepSum := t.stepSum + BitVec.ofInt 32 d, steps := satAdd t.steps 1 }

/-- A step of `d` ns (R376, R387). -/
def stepTime (d : Int) (s : State) : State :=
  let s := unlock s
  let old := s.tim.counter
  let s := s.setTim (steppedTime d s.tim)
  let s := noteHalf (old.msb != s.tim.counter.msb) s
  gridsFollow (shiftHighways d (raise evTimeStep (words2 (BitVec.ofInt 32 d)) (s.setHost { s.host with stepped := true })))

/-! ### The servo (R382-R389) -/

/-- ±200,000 ppb. -/
def yMax : Int := 200000 * 1048576

def clampI (v lim : Int) : Int := if lim < v then lim else if v < -lim then -lim else v

/-- The port with ROLE 1. -/
def slavePort (s : State) : Option PortNo := extPorts.find? (fun p => (s.tim.ptp.getD p.toNat PtpPort.atReset).role = 1)

def slaveLogSync (s : State) : Int :=
  match slavePort s with
  | some p => (s.tim.ptp.getD p.toNat PtpPort.atReset).logSync
  | none => 0

/-- The gains in force, doubled: those given, or the defaults of Table 14-2 (R383). -/
def gains (s : State) : Int × Int :=
  let t := s.tim
  if t.kp ≠ 0 || t.ki ≠ 0 then (t.kp.toNat * 2, t.ki.toNat * 2)
  else
    match t.src.toNat with
    | 1 => (0x20 * 2 ^ (1 - slaveLogSync s).toNat, 0x100 * 2 ^ (1 - slaveLogSync s).toNat)
    | 2 => (0x0200 * 2, 0x1000 * 2)
    | 3 | 4 => (0x0080 * 2, 0x1000 * 2)
    | _ => (0, 0)

/-- The proportional-integral loop on an offset in 1/16 ns (R382). -/
def servoLoop (th : Int) (s : State) : State :=
  let (kp, ki) := gains s
  let t := s.tim
  let prop := kp * th * 128
  let cand := clampI (t.i + ki * th / 2) yMax
  let raw := -(prop + cand)
  let i := if yMax < raw then max cand t.i else if raw < -yMax then min cand t.i else cand
  s.setTim { t with i := i, y := clampI (-(prop + i)) yMax, limit := decide (yMax < raw) || decide (raw < -yMax) }

/-- LOCKED by the run of offsets within 100 ns and outside 1,000 ns (R386). -/
def lockRuns (th : Int) (s : State) : State :=
  let t := s.tim
  let g := if th.natAbs ≤ 1600 then t.goodRun + 1 else 0
  let b := if 16000 < th.natAbs then t.badRun + 1 else 0
  let s := s.setTim { t with goodRun := g, badRun := b }
  if t.locked && decide (4 ≤ b) then
    let s := unlock s
    s.setTim { s.tim with badRun := b }
  else if !t.locked && decide (8 ≤ g) then s.setTim { s.tim with locked := true, everLocked := true, since := t.up }
  else s

/-- Half away from zero: the nearest whole number of ns to an offset in 1/16 ns (R387). -/
def roundNs (th : Int) : Int := if 0 ≤ th then (th + 8) / 16 else -((-th + 8) / 16)

def satI32 (v : Int) : W32 :=
  if 2147483647 < v then 0x7FFFFFFF else if v < -2147483648 then 0x80000000 else BitVec.ofInt 32 v

/-- Holdover ends, with its event (R389). -/
def endHoldover (s : State) : State :=
  if s.tim.holdover then raiseHoldover false 1 (s.setTim { s.tim with holdover := false }) else s

/-- An offset in 1/16 ns from the source `src` reaches the servo (R382, R386, R387, R389). -/
def servoOffset (src : BitVec 3) (th : Int) (s : State) : State :=
  if s.tim.src ≠ src || src = 0 then s
  else
    let t := s.tim
    let s := s.setTim { t with
      updates := satAdd t.updates 1, offset := satI32 (th.tdiv 16), kp := t.nextKp, ki := t.nextKi,
      stepThr := t.nextStepThr, noStep := t.nextNoStep }
    let s := endHoldover s
    if decide (16 * s.tim.stepThr < th.natAbs) && !s.tim.noStep &&
      (s.led.chans.isEmpty || decide (th.natAbs < 80000000)) then stepTime (-(roundNs th)) s
    else
      let s := noteLocked s
      servoLoop th (lockRuns th s)

/-- The mean of y over the locked time kept, weighted by its cycles; over no time at all it is the latest y. -/
def meanY (h : List (Nat × Int)) : Int :=
  let n := sumOf (fun e => e.1) h
  if n = 0 then (match h with
    | e :: _ => e.2
    | [] => 0)
  else (h.foldl (fun (a : Int) e => a + e.1 * e.2) 0) / n

/-- The source is lost (R389). -/
def enterHoldover (s : State) : State :=
  if s.tim.src = 0 || s.tim.holdover then s
  else
    let s := unlock s
    let t := s.tim
    raiseHoldover true 1 (s.setTim { t with holdover := true, y := if t.everLocked then meanY t.history else t.i })

/-- A change of SRC (R384, R505). -/
def changeSrc (src : BitVec 3) (s : State) : State :=
  if s.tim.src = src then s
  else
    let s := endHoldover (unlock s)
    let s := s.setTim { s.tim with src := src, ismLastDelay := none, ismSettled := false }
    let s := if src = 0 then s.setTim { s.tim with y := 0, i := 0, limit := false } else s
    settleCal s

/-- A change of the reference (R99-R101, R390). -/
def changeRef (r : BitVec 2) (s : State) : State :=
  if s.clk.refSel = r then s
  else
    let lost := s.clk.refLost
    let s := s.setClk { s.clk with refSel := r, refUsed := 0, refLost := lost && r ≠ 0 }
    if lost && r = 0 then raiseHoldover false 2 s else s

/-! ### SERVO_CFG (Table 07-4, R385, R387, R457) -/

def chkServoCfg (a : List Word) (_ : State) : Check :=
  if a.length ≠ 9 then some stBadLength
  else if decide (15 < (arg a 5).toNat) then some stBadParam
  else if bitOf (arg a 5) 3 then none
  else
    let st := (arg2 a 3).toNat
    if upTo (arg a 0) 4 && (st = 0 || (decide (16 ≤ st) && decide (st ≤ 500000000))) && upTo (arg a 6) 2 && arg2 a 7 = 0
    then none else some stBadParam

def runServoCfg (c : Issued) (s : State) : State × Reply :=
  let a := c.args
  let fl := arg a 5
  if bitOf fl 3 then
    if s.tim.src ≠ 4 then answer stBadState s
    else answer stOk (servoOffset 4 (16 * (arg2 a 7).toInt) s)
  else if arg a 0 = 2 && isSummit s then answer stBadState s
  else
    let st := (arg2 a 3).toNat
    let s := s.setTim { s.tim with
      nextKp := arg a 1, nextKi := arg a 2, nextStepThr := if st = 0 then 1000 else st, nextNoStep := bitOf fl 0,
      refout := bitOf fl 1, ppsOut := bitOf fl 2 }
    answer stOk (changeSrc ((arg a 0).setWidth 3) (changeRef ((arg a 6).setWidth 2) s))

/-! ### PTP (R391-R393) -/

def getPtp (s : State) (p : PortNo) : PtpPort := s.tim.ptp.getD p.toNat PtpPort.atReset

def putPtp (p : PortNo) (x : PtpPort) (s : State) : State := s.setTim { s.tim with ptp := setAt s.tim.ptp p.toNat x }

def chkPtpCfg (a : List Word) (_ : State) : Check :=
  let g := arg a 2 = 1
  let ls := (arg a 6).toInt
  need 8 a (upTo (arg a 0) 3 && upTo (arg a 1) 3 && upTo (arg a 2) 1 && upTo (arg a 3) 2 && upTo (arg a 4) 1 &&
    (if g then inRange (arg a 5) 24 43 else upTo (arg a 5) 127) &&
    (if g then ls = -4 else decide (-4 ≤ ls) && decide (ls ≤ 1)) &&
    (!g || arg a 3 = 0) && (!g || decide (256 ≤ (arg a 7).toNat)))

def runPtpCfg (c : Issued) (s : State) : State × Reply :=
  let a := c.args
  let p : PortNo := (arg a 0).setWidth 2
  let role : BitVec 2 := (arg a 1).setWidth 2
  if role = 1 && extPorts.any (fun q => q ≠ p && (getPtp s q).role = 1) then answer stBadState s
  else
    let old := getPtp s p
    let x := { old with
      role := role, profile := arg a 2 = 1, transport := (arg a 3).setWidth 2, twoStep := bitOf (arg a 4) 0,
      domain := (arg a 5).setWidth 8, logSync := (arg a 6).toInt, prio1 := (arg a 7 >>> 8).setWidth 8,
      prio2 := (arg a 7).setWidth 8 }
    let x := if old.role = role then x else { x with syncT := none, syncWait := none, reqT := none, pathDelay := none, upstream := 248 }
    answer stOk (settleCal (putPtp p x s))

/-- A timestamp of ten bytes. The manual holds no count of seconds, so that field is a free value (log entry 40). -/
def ptpStamp (t : TimePair) (s : State) : List Byte :=
  beBytes 6 (Config.free64 s.free).toNat ++ beBytes 4 t.phase.toNat

/-- A PTP message of IEEE 1588-2019: common header and body. -/
def ptpPacket (x : PtpPort) (p : PortNo) (kind ctl : Nat) (flags : Byte) (logInt : Int) (seq : Word) (body : List Byte) (s : State) : List Byte :=
  [BitVec.ofNat 8 kind, 0x12] ++ beBytes 2 (34 + body.length) ++ [x.domain, 0, flags, 0] ++ List.replicate 12 0 ++
  beBytes 8 s.hw.uid.toNat ++ beBytes 2 (p.toNat + 1) ++ beBytes 2 seq.toNat ++ [BitVec.ofNat 8 ctl, BitVec.ofInt 8 logInt] ++ body

/-- A PTP message leaves a port by its transport (Table 14-3). Event messages use class 7 (R348). -/
def ptpSendOut (p : PortNo) (isEvent : Bool) (l : List Byte) (s : State) : State :=
  let x := getPtp s p
  let e := getPort s p
  let port : Word := if isEvent then 319 else 320
  let cls := if isEvent then 7 else classOfPcp s 0
  match x.transport.toNat with
  | 0 => engineSend p cls (ethFrame 0x011B19000000 (portMac s p) none 0x88F7 l) s
  | 1 =>
    let dst : Ip := (0xE0000181 : Ip) <<< 96
    let d := udpDatagram e.addr dst true port port l
    sendIn p cls 0 0x01005E000181 0x0800 (ip4Packet e.addr dst 0 ((Config.free32 s.free).toNat % 65536) 1 17 d) s.draw
  | _ =>
    let dst : Ip := 0xFF0E0000000000000000000000000181
    let d := udpDatagram e.addr dst false port port l
    sendIn p cls 0 0x333300000181 0x86DD (ip6Packet e.addr dst 0 1 17 d) s

/-- The clockClass a master port sends (R392). -/
def clockClass (s : State) (x : PtpPort) : Byte :=
  let t := s.tim
  if t.holdover then (if x.profile then 135 else 7)
  else if t.src = 3 && t.locked then 6
  else if t.src = 1 then (match slavePort s with
    | some p => (getPtp s p).upstream
    | none => 248)
  else 248

/-- logAnnounceInterval of the profile (Table 14-3). -/
def announceLog (x : PtpPort) : Int := if x.profile then -3 else 1

/-- A port's own periodic message (R391, R392). Free values fill what the manual does not give of Announce. -/
def ptpSend (p : PortNo) (k : PtpSend) (s : State) : State :=
  let x := getPtp s p
  let x' := { x with seqTx := x.seqTx + 1 }
  match k with
  | .sync =>
    if x.role ≠ 2 then s
    else
      let m := ptpPacket x p 0 0 (if x.twoStep then 2 else 0) x.logSync x.seqTx (if x.twoStep then List.replicate 10 0 else ptpStamp (pairNow s) s) s
      let f := ptpPacket x p 8 2 0 x.logSync x.seqTx (ptpStamp (pairNow s) s) s
      let s := ptpSendOut p true m (putPtp p x' s).draw
      if x.twoStep then ptpSendOut p false f s else s
  | .announce =>
    if x.role ≠ 2 then s
    else
      let q := Config.free64 s.free
      let body := List.replicate 10 0 ++ beBytes 2 (fld q 0 16) ++ [0, if x.profile then 128 else x.prio1, clockClass s x] ++
        beBytes 3 (fld q 16 24) ++ [x.prio2] ++ beBytes 8 (Config.free64 (s.free + 1)).toNat ++ beBytes 3 (fld q 40 24)
      ptpSendOut p false (ptpPacket x p 0xB 5 0 (announceLog x) x.seqTx body s) (putPtp p x' s).draw.draw
  | .delayReq =>
    if x.role ≠ 1 then s
    else
      let t3 := pairAdd (pairNow s) (calEffective s (0x0200 + p.setWidth 16) / 16)
      ptpSendOut p true (ptpPacket x p 1 1 0 127 x.seqTx (List.replicate 10 0) s) (putPtp p { x' with reqT := some (x.seqTx, t3) } s)

/-- The offset of a complete Sync, once the path delay is known (Table 14-2). -/
def ptpOffset (p : PortNo) (t1 t2 : TimePair) (s : State) : State :=
  let x := getPtp s p
  let s := putPtp p { x with syncT := some (t1, t2), syncWait := none } s
  match x.pathDelay with
  | none => s
  | some d => servoOffset 1 (16 * pairDiff t2 t1 - d) s

/-- A PTP message arrives (R391, R392, R393). -/
def ptpReceive (p : PortNo) (m : PtpMsg) (s : State) : State :=
  let x := getPtp s p
  let rx := pairAdd (pairNow s) (-(calEffective s (0x0200 + p.setWidth 16) / 16))
  match m with
  | .sync seq two origin =>
    if x.role ≠ 1 then s
    else if two then putPtp p { x with syncWait := some (seq, rx) } s
    else ptpOffset p origin rx s
  | .followUp seq origin =>
    if x.role ≠ 1 then s
    else (match x.syncWait with
      | some (q, t2) => if q = seq then ptpOffset p origin t2 s else s
      | none => s)
  | .delayReq seq requester =>
    if x.role ≠ 2 then s
    else ptpSendOut p false (ptpPacket x p 9 3 0 x.logSync seq (ptpStamp rx s ++ beBytes 10 requester.toNat) s) s.draw
  | .delayResp seq receipt =>
    if x.role ≠ 1 then s
    else (match x.reqT, x.syncT with
      | some (q, t3), some (t1, t2) =>
        if q = seq then putPtp p { x with reqT := none, pathDelay := some (8 * (pairDiff t2 t1 + pairDiff receipt t3)) } s else s
      | _, _ => s)
  | .announce cls => if x.role ≠ 1 then s else putPtp p { x with upstream := cls } s

/-! ### PPS (R394, R395) -/

/-- The signed phase of an edge, in (−0.5 s, 0.5 s], less the cable delay, in 1/16 ns (Table 14-2). -/
def ppsOffset (s : State) : Int :=
  let th := (16 * (s.tim.phase : Int) - calEffective s 0x0300) % 16000000000
  if 8000000000 < th then th - 16000000000 else th

/-- A rising edge of PPS_IN; one within 500 ms of the last accepted edge is ignored (R395). -/
def ppsIn (s : State) : State :=
  let near := match s.tim.lastPps with
    | some t => decide (uptime s - t < 250000000)
    | none => false
  if near || s.mode = .reset then s
  else
    let s := s.setTim { s.tim with lastPps := some (uptime s) }
    let s := if s.host.lsrc = 1 then capturePps s else s
    servoOffset 3 (ppsOffset s) s

/-- PPS_OUT rises, where SERVO_CFG enables it and the pins are driven (R394, R171). -/
def ppsOut (s : State) : State :=
  if s.tim.ppsOut && pinsActive s && s.host.lsrc = 2 then capturePps s else s

/-! ### Interval probes (R396, R397) -/

def probeDefault : Probe :=
  { start := 0, stop := 0, enable := false, openAt := none, interval := 0, valid := false, tie := false, long := false,
    orphan := 0, restart := 0 }

def getProbe (s : State) (k : Nat) : Probe := alGet s.tim.probes k probeDefault

def putProbe (k : Nat) (x : Probe) (s : State) : State := s.setTim { s.tim with probes := alSet s.tim.probes k x }

/-- The event codes of Table 14-4. -/
def probeCode (v : Word) : Bool :=
  let k := v.toNat
  k = 1 || k = 2 || inRange v 0x10 0x4F || inRange v 0x50 0x53 || inRange v 0x58 0x5B || inRange v 0x60 0x63 || k = 0x80 || k = 0xFF

/-- A capture of a probe: the time counter without the steps (R396). -/
def probeTime (s : State) : W32 := s.tim.counter - s.tim.stepSum

def probeStart (t : W32) (x : Probe) : Probe :=
  match x.openAt with
  | none => { x with openAt := some t }
  | some _ => { x with openAt := some t, restart := satAdd x.restart 1 }

def probeStop (t : W32) (x : Probe) : Probe :=
  match x.openAt with
  | none => { x with orphan := satAdd x.orphan 1 }
  | some o =>
    let d := t - o
    { x with
      openAt := none, interval := if d.toNat < 2 then 0 else d, valid := true, tie := decide (d.toNat < 2),
      long := decide (2147483648 ≤ d.toNat) }

/-- An event that is start, stop or both of a slot (R397). -/
def probeHit (st sp : Bool) (t : W32) (x : Probe) : Probe :=
  if !x.enable then x
  else if st && sp then
    (match x.openAt with
     | some _ => probeStart t (probeStop t x)
     | none => probeStart t x)
  else if st then probeStart t x
  else if sp then probeStop t x
  else x

def probeEvent (code : Byte) (s : State) : State :=
  if code = 0xFF then s
  else s.setTim { s.tim with probes := s.tim.probes.map (fun (e : Nat × Probe) =>
    (e.1, probeHit (e.2.start = code) (e.2.stop = code) (probeTime s) e.2)) }

/-- A software mark (Table 14-5). -/
def probeMark (v : W32) (s : State) : State :=
  let k := fld v 0 8
  let x := getProbe s k
  let stop := bitOf v 8
  putProbe k (probeHit (!stop && x.start = 0xFF) (stop && x.stop = 0xFF) (probeTime s) x) s

def chkProbeCfg (a : List Word) (_ : State) : Check :=
  need 4 a (upTo (arg a 0) 255 && probeCode (arg a 1) && probeCode (arg a 2) && upTo (arg a 3) 1)

def runProbeCfg (c : Issued) (s : State) : State × Reply :=
  let a := c.args
  answer stOk (putProbe (arg a 0).toNat
    { probeDefault with start := (arg a 1).setWidth 8, stop := (arg a 2).setWidth 8, enable := bitOf (arg a 3) 0 } s)

def probeWords (x : Probe) : List Word :=
  words2 x.interval ++ [pack 16 [(b2n x.valid, 0), (b2n x.tie, 1), (b2n x.long, 2)], x.orphan, x.restart]

def chkProbeRead (a : List Word) (_ : State) : Check :=
  need 3 a (upTo (arg a 0) 255 && inRange (arg a 1) 1 204 && decide ((arg a 0).toNat + (arg a 1).toNat ≤ 256) && upTo (arg a 2) 1)

def runProbeRead (c : Issued) (s : State) : State × Reply :=
  let a := c.args
  let ks := (List.range (arg a 1).toNat).map (fun k => (arg a 0).toNat + k)
  let ws := ks.flatMap (fun k => probeWords (getProbe s k))
  let s := if bitOf (arg a 2) 0 then
      s.setTim { s.tim with probes := s.tim.probes.map (fun (e : Nat × Probe) =>
        if e.1 ∈ ks then (e.1, { e.2 with valid := false, tie := false, long := false, orphan := 0, restart := 0 }) else e) }
    else s
  answerOk ws s

/-! ### The time region (Table 14-5, R398) -/

/-- y and i in 1/256 ppb. -/
def freqWord (v : Int) : W32 := BitVec.ofInt 32 (v / 4096)

def servoStat (s : State) : W32 :=
  pack 32 [(b2n s.tim.locked, 0), (b2n s.tim.holdover, 1), (b2n s.tim.noStep, 2), (b2n s.tim.limit, 3), (s.tim.src.toNat, 4), (s.clk.refUsed.toNat, 8)]

def timeRead (o : Nat) (s : State) : Option (State × W32) :=
  let t := s.tim
  match o with
  | 0x00 => some (s, t.counter)
  | 0x04 => some (s, BitVec.ofNat 32 t.phase)
  | 0x08 => some (s, t.stepSum)
  | 0x0C => some (s, t.stepLatch)
  | 0x10 => some (s, t.offset)
  | 0x14 => some (s, freqWord t.y)
  | 0x18 => some (s, freqWord t.i)
  | 0x1C => some (s, servoStat s)
  | 0x20 => some (s.setTim { t with updates := 0 }, t.updates)
  | 0x24 => some (s.setTim { t with steps := 0 }, t.steps)
  | 0x28 => some (s, 0)
  | _ => none

def timeWrite (o : Nat) (v : W32) (be : BitVec 4) (s : State) : Except AccErr State :=
  if o = 0x28 then .ok (probeMark (mergeBe 0 v be) s)
  else if o ≤ 0x24 && o % 4 = 0 then .error .prot
  else .error .absent

end Sys2Proof.Machine
end

