-- ==== Sys2Proof/Machine/IsmOps.lean ====
section
/-! DEFINITION. Ismorlink (chapter 17): links, heartbeats, time transfer, notices, the discovery search and the
topology table. Running commands for other modules is in IsmRows.lean. -/

namespace Sys2Proof.Machine

def majorOf (v : Word) : Word := v >>> 8

/-- Notices and other upward frames leave by UP (R438). -/
def sendUp (ctx : Word) (b : IsmBody) (s : State) : State := ismSend 0 0 ctx b s

/-- A frame of the module's own to every trained DN port. -/
def sendDown (ctx : Word) (b : IsmBody) (s : State) : State :=
  (trainedDn s).foldl (fun s p => ismSend p 0 ctx b s) s

/-- A received frame sent on, one hop further (Table 17-3). -/
def relay (p : PortNo) (f : IsmFrame) (s : State) : State :=
  if (ismPort s p).st = .trained && decide (f.hops.toNat < 64) then ismQueue p { f with hops := f.hops + 1 } s else s

def relayDown (ports : List PortNo) (f : IsmFrame) (s : State) : State := ports.foldl (fun s p => relay p f s) s

def modIsmPort (p : PortNo) (g : IsmPort → IsmPort) (s : State) : State := putIsmPort p (g (ismPort s p)) s

/-! ### Topology table (R445-R449) -/

def topoByAddr (s : State) (a : Word) : Option TopoEntry := s.ism.table.find? (fun e => e.addr = a)
def topoByUid (s : State) (u : Uid) : Option TopoEntry := s.ism.table.find? (fun e => e.uid = u)

def modTopo (a : Word) (g : TopoEntry → TopoEntry) (s : State) : State :=
  s.setIsm { s.ism with table := s.ism.table.map (fun e => if e.addr = a then g e else e) }

/-- Whether the parent chain of an entry passes through an address. -/
def chainHas (tab : List TopoEntry) (target : Word) : Nat → Word → Bool
  | 0, _ => false
  | n + 1, a =>
    if a = target then true
    else if a = 0 then false
    else match tab.find? (fun e => e.addr = a) with
      | some e => chainHas tab target n e.parent
      | none => false

/-- An address and every module whose parent chain passes through it (R448). -/
def subtree (s : State) (a : Word) : List Word :=
  (s.ism.table.map TopoEntry.addr).filter (fun x => chainHas s.ism.table a 65 x)

def routeOf (s : State) (a : Word) : Option PortNo := alFind s.ism.routes a

/-- A frame to an address by its route; without one it is discarded and counted (R438). -/
def byRoute (f : IsmFrame) (s : State) : State :=
  match routeOf s f.dest with
  | some p => relay p f s
  | none => s.setIsm { s.ism with noroute := satAdd s.ism.noroute 1 }

def sendPing (a : Word) (s : State) : State :=
  match routeOf s a with
  | some p => ismSend p a 0 (.ping 0) s
  | none => s

/-! ### Heartbeats (R452-R454) -/

def summitOkNow (s : State) : Bool := isSummit s || s.ism.summitOk

/-- A HEARTBEAT on every trained port; a summit sends none on UP. -/
def sendHeartbeats (s : State) : State :=
  ([0, 1, 2, 3] : List PortNo).foldl (fun s p =>
    let x := ismPort s p
    if x.st ≠ .trained || (p = 0 && isSummit s) then s
    else
      let b := IsmBody.heartbeat x.hbSeq (modeCode s.mode) (summitOkNow s) s.saf.safe (testBit s)
      ismSend p 0 0 b (putIsmPort p { x with hbSeq := x.hbSeq + 1 } s)) s

/-- SUMMIT_OK of a spur takes a value; a change is sent at once (R452, R454). -/
def setSummitOk (v : Bool) (s : State) : State :=
  if isSummit s || s.ism.summitOk = v then s else sendHeartbeats (s.setIsm { s.ism with summitOk := v })

def heartbeatArrive (p : PortNo) (f : IsmFrame) (seq : Word) (ok : Bool) (s : State) : State :=
  let x := ismPort s p
  let first := x.firstHb
  let s := putIsmPort p { x with firstHb := false, nb := x.nb.map (fun i => { i with addr := if f.noaddr then none else some f.src }) } s
  let known := if f.noaddr then none else s.ism.monitors.find? (fun m => m.addr = f.src)
  let admitted := match known with
    | none => true
    | some m => seq ≠ m.refSeq && (first || (decide (1 ≤ (seq - m.refSeq).toNat) && decide ((seq - m.refSeq).toNat ≤ 4)))
  let others := s.ism.monitors.filter (fun m => m.addr ≠ f.src)
  if admitted then
    let s := if f.noaddr then s else s.setIsm { s.ism with monitors := others ++ [⟨f.src, p, seq, ok⟩] }
    if p = 0 then setSummitOk ok s else s
  else
    let s := modIsmPort p (fun y => { y with hbMiss := satAdd y.hbMiss 1 }) s
    match known with
    | some m => s.setIsm { s.ism with monitors := others ++ [{ m with refSeq := seq }] }
    | none => s

/-! ### Safety consequences (R480) -/

/-- Events of a spur as the summit stores them: REMOTE = 1. -/
def storeRemote (r : List Word) (s : State) : State :=
  s.setHost (storeEvent (dramTrained s) s.host (r.set 2 (arg r 2 ||| 1))).1

/-- The record of an event that arose at another module and that the summit raises for it: SRC is that module, REMOTE
is 1 (R197, R444, R447, R480). A NOTICE carries no time, so TIME is the summit's (log entry 86). -/
def remoteRecord (s : State) (code : Byte) (src : Option Word) (payload : List Word) : List Word :=
  [code ++ BitVec.ofNat 8 (5 + payload.length), src.getD 0, pack 16 [(1, 0), (b2n src.isNone, 1)]] ++ words2 (now s) ++ payload

/-- An event raised for another module: stored and traced. The Bool says whether the record was stored. -/
def raiseRemote (code : Byte) (src : Option Word) (payload : List Word) (s : State) : State × Bool :=
  let r := remoteRecord s code src payload
  let (h, ok) := storeEvent (dramTrained s) s.host r
  (traceRecord r (s.setHost h), ok)

/-- The summit's SAFE event for a lost spur. -/
def spurLost (a : Word) (s : State) : State :=
  match raiseRemote evSafe (some a) [0, 0, causeWord 0x42 &&& 0xFF, (causeClass 0x42).setWidth 16] s with
  | (s, true) => s
  | (s, false) => moduleSafe 0x07 s

/-- A spur without its summit for 10 ms acts on SUMMIT_POLICY. -/
def summitLost (s : State) : State :=
  if isSummit s then s
  else
    let s := setSummitOk false s
    match s.saf.summitPolicy.toNat with
    | 1 => ((s.led.chans.filter (fun c => c.prof.priority)).map Chan.no).foldl (fun s c => chanSafe c 0x41 s) s
    | 2 => moduleSafe 0x41 s
    | _ => s

/-! ### The discovery walk on the summit (R441-R446) -/

def modWalk (g : Walk → Walk) (s : State) : State := s.setIsm { s.ism with walk := s.ism.walk.map g }

def modMerges (l : List Merge) (s : State) : State := s.setIsm { s.ism with merges := l }

def emptyAnswer (qid : Word) (claim : Bool) : SearchAnswer :=
  { qid := qid, claim := claim, mask := 0, uid := 0, parentUid := 0, parentPort := 0, depth := 0, lpv := 0 }

/-- Two answers merged: masks joined, counts added and saturating at 2 (R442). -/
def mergeAnswers (a b : SearchAnswer) : SearchAnswer :=
  if a.claim then
    let n := a.mask.toNat + b.mask.toNat
    { (if b.mask = 0 then a else b) with qid := a.qid, claim := true, mask := BitVec.ofNat 16 (min n 2) }
  else { a with mask := a.mask ||| b.mask }

/-- UID bits [63 − L : 60 − L]. -/
def nibbleAt (u : Uid) (len : Nat) : Nat := fld u (60 - len) 4

/-- UID bits [63 : 64 − L] equal the prefix. -/
def prefixIs (u b : Uid) (len : Nat) : Bool := (u >>> (64 - len)) = (b >>> (64 - len))

/-- DN ports trained at BEGIN and still trained. -/
def searchPorts (s : State) : List PortNo := s.ism.beginPorts.filter (fun p => (ismPort s p).st = .trained)

/-- Ascending UIDs (R445). -/
def insertUid (a : SearchAnswer) : List SearchAnswer → List SearchAnswer
  | [] => [a]
  | b :: l => if a.uid.toNat ≤ b.uid.toNat then a :: b :: l else b :: insertUid a l

def sortUid (l : List SearchAnswer) : List SearchAnswer := l.foldl (fun acc a => insertUid a acc) []

def lowestFree (s : State) : Option Word :=
  ((List.range 65535).map (fun k => BitVec.ofNat 16 (k + 1))).find? (fun a => !s.ism.table.any (fun e => e.addr = a))

/-- The address of a parent by its UID: the summit itself is 0x0000. -/
def addrOfUid (s : State) (u : Uid) : Word :=
  if u = s.hw.uid then 0 else (topoByUid s u).map TopoEntry.addr |>.getD 0

/-- A found module takes its table address or the lowest free one, and is told it (R445). -/
def assignFound (a : SearchAnswer) (s : State) : State :=
  let held := majorOf a.lpv ≠ majorOf s.ism.lpv
  match topoByUid s a.uid with
  | some e =>
    let s := modTopo e.addr (fun e => { e with
      parent := addrOfUid s a.parentUid, port := a.parentPort, depth := a.depth.setWidth 7, held := held, lpv := a.lpv, silent := false }) s
    sendDown s.ism.epoch (.address a.uid e.addr held false) s
  | none =>
    match lowestFree s with
    | none => s.setIsm { s.ism with noaddrFull := satAdd s.ism.noaddrFull 1 }
    | some addr =>
      let e : TopoEntry := { addr := addr, parent := addrOfUid s a.parentUid, port := a.parentPort, depth := a.depth.setWidth 7,
                             held := held, silent := false, uid := a.uid, lpv := a.lpv, imageStatus := 0xFFFF }
      let s := s.setIsm { s.ism with table := s.ism.table ++ [e] }
      sendDown s.ism.epoch (.address a.uid addr held false) (modWalk (fun w => { w with newly := w.newly + 1 }) s)

/-- The payload of a UID_CONFLICT event (R444, Table 07-8). -/
def conflictWords (u : Uid) (parent : Option Word) (port : PortNo) : List Word :=
  words4 u ++ [parent.getD 0, pack 16 [(port.toNat, 0), (b2n parent.isNone, 15)]]

/-- A UID_CONFLICT event for a module that reported. No module with a conflicting UID holds an address (R444). -/
def raiseConflict (u : Uid) (parent : Option Word) (port : PortNo) (s : State) : State :=
  (raiseRemote evConflict none (conflictWords u parent port) s).1

/-- SEARCH_DONE once every ping is settled (R446). -/
def searchDone (w : Walk) (s : State) : State :=
  let s := s.setIsm { s.ism with walk := none }
  let n := fun k => satNat 16 k
  (raiseRaw evSearchDone [w.tag, s.ism.epoch, n w.found.length, n w.newly, n w.gone, n w.emptyBranches, n w.conflicts.length] false s).1

/-- END: addresses given, conflicts reported, and every entry that is not SILENT pinged. -/
def endWalk (w : Walk) (s : State) : State :=
  let s := (sortUid w.found).foldl (fun s a => assignFound a s) s
  let s := sendDown s.ism.epoch .searchEnd s
  let s := s.setIsm { s.ism with beginSeen := false, merges := [] }
  let s := w.reported.foldl (fun s r => raiseConflict r.1 r.2.1 r.2.2 s) s
  let targets := (s.ism.table.filter (fun e => !e.silent)).map TopoEntry.addr
  let s := modWalk (fun w => { w with pinging := true, reported := [], pings := targets.map (fun a => (a, 0)) }) s
  if targets.isEmpty then
    (match s.ism.walk with
     | some w => searchDone w s
     | none => s)
  else targets.foldl (fun s a => sendPing a s) s

/-- The walk ends when nothing is outstanding. -/
def walkSettle (s : State) : State :=
  match s.ism.walk with
  | some w => if !w.pinging && w.asked.isEmpty && w.todo.isEmpty && w.checking.isEmpty then endWalk w s else s
  | none => s

/-- A UID held twice: it is marked, and an addressed holder releases its address (R444). -/
def markConflict (u : Uid) (s : State) : State :=
  let s := modWalk (fun w => { w with conflicts := w.conflicts ++ [u] }) s
  let s := sendDown s.ism.epoch (.mark u) s
  match topoByUid s u with
  | some e => sendDown s.ism.epoch (.address u e.addr false true) s
  | none => s

/-- What the walk does with one complete answer (R443, R444). -/
def walkAnswer (q : Asked) (a : SearchAnswer) (s : State) : State :=
  let s := modWalk (fun w => { w with asked := w.asked.filter (fun x => x.qid ≠ q.qid) }) s
  if q.claim then
    match a.mask.toNat with
    | 0 => modWalk (fun w => { w with gone := w.gone + 1 }) s
    | 1 =>
      (match topoByUid s a.uid with
       | some e => sendPing e.addr (modWalk (fun w => { w with checking := w.checking ++ [a], pings := w.pings ++ [(e.addr, 0)] }) s)
       | none => modWalk (fun w => { w with found := w.found ++ [a] }) s)
    | _ => markConflict q.bits s
  else if a.mask = 0 then (if q.len = 0 then s else modWalk (fun w => { w with gone := w.gone + 1 }) s)
  else
    let next := (List.range 16).filter (fun n => a.mask.getLsbD n)
    let more := next.map (fun n =>
      let b := q.bits ||| BitVec.ofNat 64 (n * 2 ^ (60 - q.len))
      if q.len = 60 then Asked.mk 0 true 64 b else Asked.mk 0 false (q.len + 4) b)
    modWalk (fun w => { w with todo := w.todo ++ more }) s

/-- The next query or claim, while at most 64 are outstanding; one that no port can answer is answered with nothing. -/
def askNext (s : State) : State :=
  match s.ism.walk with
  | none => s
  | some w =>
    match w.todo with
    | [] => s
    | q :: rest =>
      if w.pinging || 64 ≤ w.asked.length then s
      else
        let q := { q with qid := w.nextQid }
        let s := modWalk (fun w => { w with todo := rest, asked := w.asked ++ [q], nextQid := w.nextQid + 1 }) s
        let ports := searchPorts s
        if ports.isEmpty && q.len ≠ 0 then walkAnswer q (emptyAnswer q.qid q.claim) s
        else
          let s := modMerges (s.ism.merges ++ [⟨q.qid, ports, emptyAnswer q.qid q.claim⟩]) s
          let b := if q.claim then IsmBody.claim q.qid q.bits else IsmBody.query q.qid (BitVec.ofNat 6 q.len) q.bits
          ports.foldl (fun s p => ismSend p 0 s.ism.epoch b s) s

def askAll : Nat → State → State
  | 0, s => s
  | n + 1, s => askAll n (askNext s)

/-- Queries go out as far as they may, and the walk ends when it is complete. -/
def walkOn (s : State) : State :=
  let n := match s.ism.walk with
    | some w => w.todo.length
    | none => 0
  walkSettle (askAll n s)

/-- A new search (R441, R447): the epoch rises by one; a full readdress clears routes and table. -/
def startSearch (tag : Word) (origin : Origin) (full : Bool) (s : State) : State :=
  let ports := trainedDn s
  let s := s.setIsm { s.ism with
    epoch := s.ism.epoch + 1, beginSeen := true, beginPorts := ports, merges := [], searchDue := false,
    routes := if full then [] else s.ism.routes, table := if full then [] else s.ism.table,
    walk := some { tag := tag, origin := origin, asked := [], todo := [⟨0, false, 0, 0⟩], nextQid := 0, found := [], gone := 0,
                   conflicts := [], reported := [], pings := [], late := [], emptyBranches := 0, newly := 0, pinging := false, checking := [] } }
  walkOn (ports.foldl (fun s p => ismSend p 0 s.ism.epoch (.searchBegin full) s) s)

/-- A ping answered: SILENT clears; a claim under check is a conflict (R444, R446). -/
def pingAnswered (a : Word) (s : State) : State :=
  let s := s.setIsm { s.ism with lossPings := s.ism.lossPings.filter (fun e => e.1 ≠ a) }
  match s.ism.walk with
  | none => s
  | some w =>
    let s := modWalk (fun w => { w with pings := w.pings.filter (fun e => e.1 ≠ a) }) s
    if w.pinging then
      (match s.ism.walk with
       | some w => if w.pings.isEmpty then searchDone w s else s
       | none => s)
    else
      let uid := (topoByAddr s a).map TopoEntry.uid
      let hit := w.checking.filter (fun c => some c.uid = uid)
      let s := modWalk (fun w => { w with checking := w.checking.filter (fun c => some c.uid ≠ uid) }) s
      walkOn (hit.foldl (fun s c => markConflict c.uid s) s)

/-- An entry that missed all three pings (R446). -/
def goSilent (a : Word) (s : State) : State :=
  match topoByAddr s a with
  | none => s
  | some e => if e.silent then s else raise evDetach (a :: words4 e.uid) (modTopo a (fun e => { e with silent := true }) s)

/-- A ping missed: tried again until the third miss (R446, R448). -/
def missPing (a : Word) (l : List (Word × Nat)) : List (Word × Nat) :=
  (l.map (fun e => if e.1 = a then (e.1, e.2 + 1) else e)).filter (fun e => decide (e.2 < 3))

def pingTimeout (a : Word) (s : State) : State :=
  let inLoss := s.ism.lossPings.any (fun e => e.1 = a)
  let s := s.setIsm { s.ism with lossPings := missPing a s.ism.lossPings }
  let lossOver := inLoss && !s.ism.lossPings.any (fun e => e.1 = a)
  let s := if lossOver then goSilent a s else if inLoss then sendPing a s else s
  match s.ism.walk with
  | none => s
  | some w =>
    if !w.pings.any (fun e => e.1 = a) then s
    else
      let s := modWalk (fun w => { w with pings := missPing a w.pings }) s
      let left := missPing a w.pings
      if left.any (fun e => e.1 = a) then sendPing a s
      else if w.pinging then
        let s := goSilent a s
        (match s.ism.walk with
         | some w => if w.pings.isEmpty then searchDone w s else s
         | none => s)
      else
        let uid := (topoByAddr s a).map TopoEntry.uid
        let free := w.checking.filter (fun c => some c.uid = uid)
        walkOn (modWalk (fun w => { w with checking := w.checking.filter (fun c => some c.uid ≠ uid), found := w.found ++ free }) s)

/-! ### Replies merged at a hop (R442) -/

/-- A merged reply leaves for UP; on the summit it is the walk's answer. -/
def sendMerge (m : Merge) (s : State) : State :=
  let s := modMerges (s.ism.merges.filter (fun x => x.qid ≠ m.qid)) s
  if isSummit s then
    match s.ism.walk.bind (fun w => w.asked.find? (fun q => q.qid = m.qid)) with
    | some q => walkOn (walkAnswer q m.answer s)
    | none => s
  else sendUp s.ism.epoch (.searchReply m.answer) s

def settleMerges : Nat → State → State
  | 0, s => s
  | n + 1, s =>
    match s.ism.merges.find? (fun m => m.waiting.isEmpty) with
    | none => s
    | some m => settleMerges n (sendMerge m s)

/-- A port no longer answers: every reply that waited for it goes on without it. -/
def dropMergePort (p : PortNo) (s : State) : State :=
  let s := modMerges (s.ism.merges.map (fun m => { m with waiting := m.waiting.filter (fun q => q ≠ p) })) s
  settleMerges s.ism.merges.length s

/-- A reply from a DN port. The parent of a claiming child enters the port it came from. -/
def replyArrive (p : PortNo) (a : SearchAnswer) (s : State) : State :=
  match s.ism.merges.find? (fun m => m.qid = a.qid && p ∈ m.waiting) with
  | none => s
  | some m =>
    let a := if a.claim && a.depth.toNat = s.ism.depth.toNat + 1 then { a with parentPort := p - 1 } else a
    let m := { m with waiting := m.waiting.filter (fun q => q ≠ p), answer := mergeAnswers m.answer a }
    if m.waiting.isEmpty then sendMerge m s
    else modMerges (s.ism.merges.map (fun x => if x.qid = m.qid then m else x)) s

def replyTimeout (qid : Word) (s : State) : State :=
  match s.ism.merges.find? (fun m => m.qid = qid) with
  | some m => sendMerge m s
  | none => s

/-- A module's own answer to a query or claim, passed on to its DN ports where it has any (R442). -/
def answerQuery (f : IsmFrame) (own : SearchAnswer) (s : State) : State :=
  let ports := searchPorts s
  if ports.isEmpty then sendUp s.ism.epoch (.searchReply own) s
  else relayDown ports f (modMerges (s.ism.merges ++ [⟨own.qid, ports, own⟩]) s)

/-! ### Search frames on a spur (R440-R445) -/

def beginArrive (f : IsmFrame) (full : Bool) (s : State) : State :=
  let deep := f.hops = 64
  let dn := trainedDn s
  let s := s.setIsm { s.ism with
    epoch := f.ctx, beginSeen := true, participant := full || s.ism.addr.isNone, claimed := false, merges := [],
    addr := if full then none else s.ism.addr, routes := if full then [] else s.ism.routes, depth := f.hops,
    beginPorts := if deep then [] else dn, tooDeep := if deep then satAdd s.ism.tooDeep dn.length else s.ism.tooDeep }
  if deep then dn.foldl (fun s p => raiseLink 1 p.toNat 1 6 (modIsmPort p (fun x => { x with cause := 6 }) s)) s
  else relayDown dn f s

/-- The frame belongs to the search in progress here. -/
def inSearch (s : State) (f : IsmFrame) : Bool := s.ism.beginSeen && s.ism.epoch = f.ctx

def queryArrive (f : IsmFrame) (qid : Word) (len : Nat) (b : Uid) (s : State) : State :=
  if !inSearch s f then s
  else
    let own := if s.ism.participant && prefixIs s.hw.uid b len then
        { emptyAnswer qid false with mask := BitVec.ofNat 16 (2 ^ nibbleAt s.hw.uid len) }
      else emptyAnswer qid false
    answerQuery f own s

def upNeighbour (s : State) : Option LinkInfo := (ismPort s 0).nb

def claimArrive (f : IsmFrame) (qid : Word) (u : Uid) (s : State) : State :=
  if !inSearch s f then s
  else
    let mine := u = s.hw.uid
    let s := if mine then s.setIsm { s.ism with claimed := true } else s
    let own := if mine && s.ism.participant then
        { emptyAnswer qid true with
          mask := 1, uid := u, parentUid := (upNeighbour s).map LinkInfo.uid |>.getD 0, depth := s.ism.depth.setWidth 8, lpv := s.ism.lpv }
      else emptyAnswer qid true
    answerQuery f own s

def markArrive (f : IsmFrame) (u : Uid) (s : State) : State :=
  if !inSearch s f then s
  else
    let s := relayDown (searchPorts s) f s
    if u = s.hw.uid then
      let nb := upNeighbour s
      let port : PortNo := BitVec.ofNat 2 ((Config.free32 s.free).toNat % 3)  -- the spur's copy: its parent alone knows the port
      let s := s.draw.setIsm { s.ism with claimed := true, conflict := true }
      sendUp s.ism.epoch (.conflict u (nb.map LinkInfo.uid |>.getD 0) (nb.bind LinkInfo.addr) 0)
        (raise evConflict (conflictWords u (nb.bind LinkInfo.addr) port) s)
    else s

def endArrive (f : IsmFrame) (s : State) : State :=
  if !inSearch s f then s
  else
    let s := relayDown (searchPorts s) f s
    let missed := s.ism.participant && s.ism.addr.isNone && !s.ism.claimed
    let s := s.setIsm { s.ism with beginSeen := false, participant := false, merges := [] }
    if missed then sendUp s.ism.epoch (.missed s.hw.uid) s else s

/-- Entry to HELD deletes every channel (R141, R460). -/
def enterHeld (s : State) : State :=
  match s.mode with
  | .ready | .run | .degraded => setMode .held (dropChans 6 (allChans s) s)
  | _ => s

/-- ADDRESS is sent on and taken by UID match (R437, R444, R460). -/
def addressArrive (f : IsmFrame) (u : Uid) (addr : Word) (hold release : Bool) (s : State) : State :=
  let s := relayDown (trainedDn s) f s
  if u ≠ s.hw.uid || isSummit s then s
  else if release then s.setIsm { s.ism with addr := none, conflict := true }
  else
    let s := s.setIsm { s.ism with addr := some addr, conflict := false }
    let s := sendUp 0 (.addrAck addr u) s
    if hold then enterHeld s
    else if s.mode = .held then setMode .ready s
    else s

/-! ### Notices at the summit (R447, R448, R455) -/

def attachAt (parent : Word) (port : PortNo) (s : State) : State :=
  let s := modWalk (fun w => if w.pinging then w else { w with late := w.late ++ [(parent, port)] }) s
  s.setIsm { s.ism with searchDue := true }

/-- A spur's NOTICE ATTACH at the summit: ISM_ATTACH with the spur as its source (R197, R447). -/
def attachFrom (f : IsmFrame) (port : PortNo) (s : State) : State :=
  (raiseRemote evAttach (if f.noaddr then none else some f.src) [f.src, port.setWidth 16] (attachAt f.src port s)).1

/-- A branch that was trained at BEGIN and went down before END is EMPTY (R446). -/
def lossAt (parent : Word) (port : PortNo) (s : State) : State :=
  modWalk (fun w => if w.pinging || (parent, port) ∈ w.late then w else { w with emptyBranches := w.emptyBranches + 1 }) s

/-- 20 ms after a loss: pings to the lost module and to its subtree (R448). -/
def lossPing (a : Word) (s : State) : State :=
  if !isSummit s then s
  else
    let l := (subtree s a).filter (fun x => !s.ism.lossPings.any (fun e => e.1 = x) &&
      !((topoByAddr s x).map TopoEntry.silent |>.getD false))
    let s := s.setIsm { s.ism with lossPings := s.ism.lossPings ++ l.map (fun x => (x, 0)) }
    l.foldl (fun s x => sendPing x s) s

/-- A subtree hangs on another port now (R455). -/
def moveAt (parent : Word) (port : PortNo) (u : Uid) (s : State) : State :=
  match topoByUid s u with
  | none => s
  | some e =>
    let d : Nat := ((topoByAddr s parent).map (fun x => x.depth.toNat) |>.getD 0) + 1
    let l := subtree s e.addr
    let shift : Int := (d : Int) - e.depth.toNat
    let s := s.setIsm { s.ism with table := s.ism.table.map (fun x =>
      if x.addr ∈ l then { x with depth := BitVec.ofInt 7 ((x.depth.toNat : Int) + shift) } else x) }
    modTopo e.addr (fun x => { x with parent := parent, port := port }) s

/-- A conflict report: an event at END, or at once when END has been sent (R444). -/
def conflictAt (u : Uid) (parent : Option Word) (port : PortNo) (s : State) : State :=
  match s.ism.walk with
  | some w => if w.pinging then raiseConflict u parent port s else modWalk (fun w => { w with reported := w.reported ++ [(u, parent, port)] }) s
  | none => raiseConflict u parent port s

/-- A notice of the module's own: handled here on the summit, sent up on a spur. -/
def ownAttach (p : PortNo) (s : State) : State :=
  let s := raise evAttach [s.ism.addr.getD 0, (p - 1).setWidth 16] s
  if isSummit s then attachAt 0 (p - 1) s else sendUp 0 (.attach (p - 1)) s

def ownLoss (p : PortNo) (nb : Option LinkInfo) (s : State) : State :=
  match nb with
  | none => s
  | some i => if isSummit s then (if p ∈ s.ism.beginPorts then lossAt 0 (p - 1) s else s) else sendUp 0 (.loss (p - 1) i.addr i.uid) s

def ownMove (p : PortNo) (i : LinkInfo) (s : State) : State :=
  if isSummit s then moveAt 0 (p - 1) i.uid s else sendUp 0 (.move (p - 1) i.uid i.addr) s

/-! ### Links (R433, R439) -/

/-- The port goes BLOCKED with a cause. -/
def blockPort (p : PortNo) (cause : Nat) (s : State) : State :=
  raiseLink 1 p.toNat 0 cause (modIsmPort p (fun x => { x with st := .blocked, cause := BitVec.ofNat 4 cause }) s)

/-- Three good LINK frames each way: the port is trained, or blocked by role or port type. -/
def trainPort (p : PortNo) (i : LinkInfo) (s : State) : State :=
  let old := (ismPort s p).nb
  let seed := Config.free32 s.free
  let s := s.draw
  let s := modIsmPort p (fun x => { x with
    nb := some i, features := 0, hbSeq := seed.setWidth 16, firstHb := true, unacked := [], lseqRx := none, goodLinks := 0, ackedLinks := 0 }) s
  let isUp := p = 0
  if (isUp && isSummit s) || (i.role = .summit && i.isUp) then blockPort p 2 s
  else if isUp = i.isUp then blockPort p 3 s
  else
    let s := raiseLink 1 p.toNat 1 0 (modIsmPort p (fun x => { x with st := .trained, cause := 0 }) s)
    if isUp then sendHeadEvent (s.setTim { s.tim with ismLastDelay := none, ismSettled := false, ismT1 := none })
    else
      let s := match old with
        | some o => if o.uid ≠ i.uid then ownMove p i s else s
        | none => s
      ownAttach p s

/-- A LINK frame during training. -/
def linkArrive (p : PortNo) (i : LinkInfo) (acked : Bool) (s : State) : State :=
  let x := ismPort s p
  match x.st with
  | .trained | .blocked => s
  | _ =>
    if !s.clk.ethPll then s
    else
      let x := { x with st := .training, goodLinks := x.goodLinks + 1, ackedLinks := if acked then x.ackedLinks + 1 else 0 }
      let s := putIsmPort p x s
      if 3 ≤ x.goodLinks && 3 ≤ x.ackedLinks then trainPort p i s else s

/-- Broadcast replies that waited for a port wait no longer. -/
def dropGatherPort (p : PortNo) (s : State) : State :=
  s.setIsm { s.ism with gathers := s.ism.gathers.map (fun g => { g with waiting := g.waiting.filter (fun q => q ≠ p) }) }

/-- A port declared down (R433). -/
def ismDown (p : PortNo) (cause : Nat) (s : State) : State :=
  let x := ismPort s p
  let s := putIsmPort p { x with st := .down, cause := if x.st = .down then x.cause else BitVec.ofNat 4 cause, goodLinks := 0, ackedLinks := 0, unacked := [], t3 := none } s
  match x.st with
  | .down | .training => s
  | .blocked => raiseLink 1 p.toNat 0 cause s
  | .trained =>
    let s := raiseLink 1 p.toNat 0 cause s
    if p = 0 then
      let s := if s.tim.src = 2 then enterHoldover s else s
      applyCal 0x0400 (s.setTim { s.tim with ismT1 := none, ismLastDelay := none, ismSettled := false })
    else dropGatherPort p (dropMergePort p (ownLoss p x.nb s))

/-- A frame acknowledged. An EVENT frame leaves its place, and the next record follows (R451). -/
def ackArrive (p : PortNo) (lseq : Word) (s : State) : State :=
  let x := ismPort s p
  match x.unacked.find? (fun e => e.1.lseq = lseq) with
  | none => s
  | some e =>
    let s := putIsmPort p { x with unacked := x.unacked.filter (fun y => y.1.lseq ≠ lseq) } s
    match p, e.1.body with
    | 0, .event _ => sendHeadEvent (s.setIsm { s.ism with evtUp := s.ism.evtUp.drop 1 })
    | _, _ => s

/-- The oldest frame without an acknowledgement is retried, at most four times (R435). -/
def ackTimeout (p : PortNo) (s : State) : State :=
  let x := ismPort s p
  match x.unacked with
  | [] => s
  | (f, n) :: r =>
    if n < 4 then ismTransmit p f (putIsmPort p { x with unacked := (f, n + 1) :: r, retries := satAdd x.retries 1 } s)
    else ismDown p 4 s

/-! ### Time transfer (R456-R458) -/

def sendSync (s : State) : State := sendDown 0 (.sync (pairNow s)) s

/-- A child answers SYNC with DELAY_REQ. -/
def syncArrive (p : PortNo) (t1 : TimePair) (s : State) : State :=
  if p ≠ 0 then s
  else
    let t := pairNow s
    ismSend 0 0 0 (.delayReq t) (s.setTim { s.tim with ismT1 := some t1, ismT2 := t, ismT3 := t })

def delayReqArrive (p : PortNo) (t3 : TimePair) (s : State) : State :=
  if p = 0 then s else ismSend p 0 0 (.delayResp (pairNow s)) (modIsmPort p (fun x => { x with t3 := some t3 }) s)

/-- Delay and offset in 1/16 ns; two successive delays within 16 ns settle a new hop (R458). -/
def delayRespArrive (p : PortNo) (t4 : TimePair) (s : State) : State :=
  match (if p = 0 then s.tim.ismT1 else none) with
  | none => s
  | some t1 =>
    let d1 := pairDiff s.tim.ismT2 t1
    let d2 := pairDiff t4 s.tim.ismT3
    let delay := 8 * (d1 + d2)
    let off := (16 * (d1 - d2) - calEffective s 0x0400) / 2
    let s := modIsmPort 0 (fun x => { x with delay := satI32 delay, offset := satI32 off }) s
    let agree := match s.tim.ismLastDelay with
      | some l => decide ((delay - l).natAbs ≤ 256)
      | none => false
    let settled := s.tim.ismSettled || agree
    let s := s.setTim { s.tim with ismT1 := none, ismLastDelay := some delay, ismSettled := settled }
    if settled then servoOffset 2 off s else s

/-! ### Commands of the search and the topology (Table 07-4) -/

def chkSearch (a : List Word) (_ : State) : Check := need 1 a (upTo (arg a 0) 1)

def runSearch (c : Issued) (s : State) : State × Reply :=
  if !isSummit s then answer stBadState s
  else if s.ism.walk.isSome then answer stBusy s
  else answer stAccepted (startSearch c.tag c.origin (bitOf (arg c.args 0) 0) s)

def chkAssign (a : List Word) (_ : State) : Check := need 5 a (arg a 4 ≠ 0)

/-- ASSIGN (R449). -/
def runAssign (c : Issued) (s : State) : State × Reply :=
  let u : Uid := arg4 c.args 0
  let a := arg c.args 4
  if !isSummit s || s.ism.walk.isSome then answer stBadState s
  else
    match topoByUid s u with
    | none => answer stUnreachable s
    | some e =>
      if s.ism.table.any (fun x => x.addr = a && x.uid ≠ u) then answer stNoResource s
      else
        let s := s.setIsm { s.ism with table := s.ism.table.map (fun x =>
          { x with addr := if x.uid = u then a else x.addr, parent := if x.parent = e.addr && e.addr ≠ 0 then a else x.parent }) }
        answer stOk (sendDown s.ism.epoch (.address u a e.held false) s)

def topoWords (e : TopoEntry) : List Word :=
  [e.addr, e.parent, pack 16 [(e.port.toNat, 0), (e.depth.toNat, 2), (b2n e.held, 9), (b2n e.silent, 10)]] ++ words4 e.uid ++ [e.lpv, e.imageStatus]

def chkTopoRead (a : List Word) (_ : State) : Check := need 2 a (inRange (arg a 1) 1 113)

def runTopoRead (c : Issued) (s : State) : State × Reply :=
  if !isSummit s then answer stBadState s
  else
    let l := (s.ism.table.drop (arg c.args 0).toNat).take (arg c.args 1).toNat
    answerOk (words2 (BitVec.ofNat 32 s.ism.table.length) ++ l.flatMap topoWords) s

/-! ### The region (Table 17-7, R462) -/

def linkCode : LinkState → Nat
  | .down => 0
  | .training => 1
  | .trained => 2
  | .blocked => 3

def ismPortRead (p : PortNo) (o : Nat) (s : State) : Option (State × W32) :=
  let x := ismPort s p
  let nb := x.nb.getD ⟨0, .spur, false, 0, 0, none⟩
  match o with
  | 0x00 => some (s, pack 32 [(linkCode x.st, 0), (x.cause.toNat, 8)])
  | 0x04 => some (s, nb.uid.setWidth 32)
  | 0x08 => some (s, (nb.uid >>> 32).setWidth 32)
  | 0x0C => some (s, nb.lpv ++ nb.addr.getD 0)
  | 0x10 => some (s, x.features.setWidth 32)
  | 0x14 => some (s, x.delay)
  | 0x18 => some (s, if p = 0 then x.offset else 0)
  | 0x1C => some (putIsmPort p { x with crcErr := 0 } s, x.crcErr)
  | 0x20 => some (putIsmPort p { x with retries := 0 } s, x.retries)
  | 0x24 => some (putIsmPort p { x with codeErr := 0 } s, x.codeErr)
  | 0x28 => some (putIsmPort p { x with hbMiss := 0 } s, x.hbMiss)
  | _ => none

def searching (s : State) : Bool := if isSummit s then s.ism.walk.isSome else s.ism.beginSeen

def ismRead (o : Nat) (s : State) : Option (State × W32) :=
  let i := s.ism
  if 0x40000 ≤ o && o < 0x80000 then
    some (s, match routeOf s (BitVec.ofNat 16 ((o - 0x40000) / 4)) with
      | some p => pack 32 [(p.toNat, 0), (1, 2)]
      | none => 0)
  else if 0x100 ≤ o && o < 0x200 then ismPortRead (BitVec.ofNat 2 ((o - 0x100) / 0x40)) (o % 0x40) s
  else
    match o with
    | 0x000 => some (s, pack 32 [((i.addr.getD 0).toNat, 0), (b2n i.addr.isSome, 16), (b2n (s.mode = .held), 17), (b2n i.conflict, 18), (i.depth.toNat, 19)])
    | 0x004 => some (s, pack 32 [(i.epoch.toNat, 0), (b2n (searching s), 16)])
    | 0x008 => some (s, i.lpv.setWidth 32)
    | 0x00C => some (s, pack 32 [(b2n i.autoSearch, 0)])
    | 0x010 => some (s, BitVec.ofNat 32 (if isSummit s then i.table.length else 0))
    | 0x014 => some (s.setIsm { i with tooDeep := 0 }, i.tooDeep)
    | 0x018 => some (s.setIsm { i with noroute := 0 }, i.noroute)
    | 0x01C => some (s.setIsm { i with evtDrop := 0 }, i.evtDrop)
    | 0x020 => some (s.setIsm { i with noaddrFull := 0 }, i.noaddrFull)
    | _ => none

def ismWrite (o : Nat) (v : W32) (be : BitVec 4) (s : State) : Except AccErr State :=
  if o = 0x00C then .ok (if isSummit s && be.getLsbD 0 then s.setIsm { s.ism with autoSearch := bitOf v 0 } else s)
  else if (ismRead o s).isSome then .error .prot
  else .error .absent

end Sys2Proof.Machine
end

