-- ==== Sys2Proof/Machine/Lanes.lean ====
section
/-! DEFINITION. The three execution lanes (R178), responses and where they go (R162, R194, R450, R461), and
CMD_CTL.FULL (R179). -/

namespace Sys2Proof.Machine

/-- Lane of an opcode: 0 main, 1 image, 2 forward (R178). -/
def laneOf (op : Word) : BitVec 2 :=
  if 0x0201 ≤ op.toNat ∧ op.toNat ≤ 0x0204 then 1 else if op = 0x0703 then 2 else 0

def getLane (s : State) (k : BitVec 2) : Lane :=
  match k.toNat with
  | 1 => s.cmds.image
  | 2 => s.cmds.fwd
  | _ => s.cmds.main

def putLane (k : BitVec 2) (l : Lane) (s : State) : State :=
  s.setCmds (match k.toNat with
    | 1 => { s.cmds with image := l }
    | 2 => { s.cmds with fwd := l }
    | _ => { s.cmds with main := l })

/-- Commands of the module's own host that have no response yet. -/
def unanswered (s : State) : Nat :=
  let own := fun (c : Issued) => c.origin = .host
  let count := fun (l : Lane) => (l.running.toList.filter own).length + (l.waiting.filter own).length
  count s.cmds.main + count s.cmds.image + count s.cmds.fwd

/-- CMD_CTL.FULL (R179). -/
def cmdFull (s : State) : Bool := decide (8 ≤ unanswered s) || decide (32 ≤ s.host.responses.length)

/-- A change that may end FULL: IRQ_STAT.CMD_FREE takes its fall (Table 06-5). -/
def withFree (f : State → State) (s : State) : State :=
  let t := f s
  if cmdFull s && !cmdFull t then t.setHost { t.host with irqCmdFree := true } else t

/-- A command joins its lane. -/
def enqueue (c : Issued) (s : State) : State :=
  let k := laneOf c.op
  let l := getLane s k
  putLane k { l with waiting := l.waiting ++ [c] } s

/-- A response for the module's own host waits behind those before it (R162). -/
def queueResponse (st tag : Word) (ws : List Word) (s : State) : State :=
  s.setHost { s.host with responses := s.host.responses ++ [⟨st, tag, ws⟩] }

/-- The command in execution leaves its lane. -/
def clearLane (k : BitVec 2) (s : State) : State := putLane k { getLane s k with running := none } s

/-- The FORWARD in execution is answered with the inner response (R194). -/
def answerForward (tag st : Word) (ws : List Word) (s : State) : State :=
  match s.cmds.fwd.running with
  | some c =>
    if c.tag = tag then
      withFree (fun s => queueResponse stOk c.tag ([st, BitVec.ofNat 16 ws.length] ++ ws) (clearLane 2 s)) s
    else s
  | none => s

/-! ### Broadcasts (R461) -/

def isOkStatus (st : Word) : Bool := st = stOk

/-- A spur's own result joins the counts of its children; one whose command still runs at the deadline is addressed
and answers with neither (R192). -/
def ownCounts (g : Gather) : BcastCounts :=
  match g.own with
  | none => { g.counts with addressed := g.counts.addressed + 1 }
  | some st =>
    { addressed := g.counts.addressed + 1, ok := g.counts.ok + b2n (isOkStatus st), other := g.counts.other + b2n (!isOkStatus st) }

def dropGather (tag : Word) (s : State) : State :=
  s.setIsm { s.ism with gathers := s.ism.gathers.filter (fun g => g.tag ≠ tag) }

/-- The broadcast result answers the host's command, or the FORWARD that carried it. -/
def summitRespond (c : Issued) (ws : List Word) (s : State) : State :=
  match c.origin with
  | .host => queueResponse stOk c.tag ws s
  | .forwarded _ tag => answerForward tag stOk ws s
  | .broadcast => s

/-- The gathered result goes up, or on the summit into the broadcast result of R192. -/
def endGather (g : Gather) (s : State) : State :=
  let s := dropGather g.tag s
  if g.atSummit then
    let n := fun (k : Nat) => satNat 16 k
    let ws := [g.own.getD 0xFFFF, n g.counts.addressed, n g.counts.ok, n g.counts.other]
    match s.cmds.image.running with
    | some c =>
      let resets := c.op = 0x0204 && arg c.args 2 = 1 && g.own = some stOk
      let s := withFree (fun s => summitRespond c ws (clearLane 1 s)) s
      if resets then s.setBoot { s.boot with resetSoon := true } else s
    | none => s
  else sendUp g.tag (.bcastReply (ownCounts g)) s

/-- A gather ends once the own result and every child's are in. -/
def settleGather (tag : Word) (s : State) : State :=
  match s.ism.gathers.find? (fun g => g.tag = tag) with
  | none => s
  | some g => if g.waiting.isEmpty && g.own.isSome then endGather g s else s

def modGather (tag : Word) (f : Gather → Gather) (s : State) : State :=
  s.setIsm { s.ism with gathers := s.ism.gathers.map (fun g => if g.tag = tag then f g else g) }

/-- The own result of a broadcast command; a spur keeps it for its ping replies. -/
def ownBroadcast (tag st : Word) (s : State) : State :=
  let s := if isSummit s then s else s.setIsm { s.ism with imageStatus := st }
  settleGather tag (modGather tag (fun g => { g with own := some st }) s)

/-- A child's counts, or none at all when it did not answer. -/
def childCounts (tag : Word) (p : PortNo) (c : BcastCounts) (s : State) : State :=
  settleGather tag (modGather tag (fun g =>
    if p ∈ g.waiting then
      { g with waiting := g.waiting.filter (fun q => q ≠ p),
               counts := ⟨g.counts.addressed + c.addressed, g.counts.ok + c.ok, g.counts.other + c.other⟩ }
    else g) s)

/-- The deadline of a broadcast: a child that has not answered is one spur addressed and silent; a summit
with its own part still running goes on waiting for that part alone. -/
def gatherDeadline (g : Gather) (s : State) : State :=
  let c := { g.counts with addressed := g.counts.addressed + g.waiting.length }
  let s := modGather g.tag (fun x => { x with waiting := [], counts := c }) s
  if g.atSummit && g.own.isNone then s else endGather { g with waiting := [], counts := c } s

def bcastDeadline (s : State) : State := s.ism.gathers.foldl (fun s g => gatherDeadline g s) s

/-! ### Responses -/

/-- The response of a command, to the place it came from. -/
def respond (c : Issued) (st : Word) (ws : List Word) (s : State) : State :=
  match c.origin with
  | .host => queueResponse st c.tag ws s
  | .forwarded _ tag => if isSummit s then answerForward tag st ws s else sendUp tag (.mgmtRsp st tag ws) s
  | .broadcast => ownBroadcast c.tag st s

/-- The command in execution ends with its response. -/
def finish (k : BitVec 2) (st : Word) (ws : List Word) (s : State) : State :=
  match (getLane s k).running with
  | none => s
  | some c => withFree (fun s => respond c st ws (clearLane k s)) s

end Sys2Proof.Machine
end

