-- ==== Sys2Proof/Machine/IsmArrive.lean ====
section
/-! DEFINITION. A frame received on an Ismorlink port (R434-R461): injection at the receive point, the checks of
the link, routing, and what each type does here. Commands that arrive join their lane. -/

namespace Sys2Proof.Machine

def frameOf (h : IsmHdr) (b : IsmBody) : IsmFrame :=
  { dest := h.dest, src := h.src, noaddr := h.noaddr, hops := h.hops, lseq := h.lseq, ctx := h.ctx, body := b }

/-- A frame that goes up: the summit handles it, a spur sends it on (R438). -/
def upward (f : IsmFrame) (atSummit : State → State) (s : State) : State :=
  if isSummit s then atSummit s else relay 0 f s

/-- A frame of SEARCH, ADDRESS or BCAST, which come from the parent only. -/
def fromParent (p : PortNo) (f : State → State) (s : State) : State := if p = 0 then f s else s

/-- A frame that only a child sends. -/
def fromChild (p : PortNo) (f : State → State) (s : State) : State := if p = 0 then s else f s

/-- MGMT_REQ and PING: consumed at the own address, else sent on by route (R438). -/
def addressed (f : IsmFrame) (here : State → State) (s : State) : State :=
  if s.ism.addr = some f.dest then here s else byRoute f s

/-- The response to the FORWARD in execution; a late one is discarded (R450). -/
def forwardAnswer (src st tag : Word) (ws : List Word) (s : State) : State :=
  match s.cmds.fwd.running with
  | some c => if arg c.args 0 = src then answerForward tag st ws s else s
  | none => s

/-- A broadcast image command: sent on, gathered, and run in the image lane (R461). -/
def bcastArrive (f : IsmFrame) (op tag : Word) (args : List Word) (s : State) : State :=
  if laneOf op ≠ 1 then s
  else
    let ports := if f.hops.toNat < 64 then trainedDn s else []
    let s := relayDown ports f s
    let g : Gather := { op := op, tag := tag, waiting := ports, own := none, counts := ⟨0, 0, 0⟩, atSummit := false }
    let s := s.setIsm { s.ism with gathers := s.ism.gathers.filter (fun x => x.tag ≠ tag) ++ [g] }
    enqueue { op := op, tag := tag, args := args.set 0 0, keyed := true, origin := .broadcast } s

/-- A NOTICE CONFLICT takes the port of the hop that its sender hangs on. -/
def conflictPort (p : PortNo) (f : IsmFrame) (port : PortNo) : PortNo := if f.hops = 1 then p - 1 else port

/-- What the summit does with a ping reply: the image status it carries, and the ping answered (R446, R461). -/
def pingReplyAt (src st : Word) (s : State) : State := pingAnswered src (modTopo src (fun e => { e with imageStatus := st }) s)

/-- A good frame of a trained link, by type. -/
def ismDispatch (p : PortNo) (f : IsmFrame) (s : State) : State :=
  match f.body with
  | .link _ => s
  | .heartbeat seq _ ok _ _ => heartbeatArrive p f seq ok s
  | .sync t1 => syncArrive p t1 s
  | .delayReq t3 => delayReqArrive p t3 s
  | .delayResp t4 => delayRespArrive p t4 s
  | .searchBegin full => fromParent p (beginArrive f full) s
  | .query qid len bits => fromParent p (queryArrive f qid len.toNat bits) s
  | .claim qid uid => fromParent p (claimArrive f qid uid) s
  | .mark uid => fromParent p (markArrive f uid) s
  | .searchEnd => fromParent p (endArrive f) s
  | .searchReply a => fromChild p (replyArrive p a) s
  | .address uid addr hold release => fromParent p (addressArrive f uid addr hold release) s
  | .mgmtReq op tag args =>
    fromParent p (addressed f (enqueue { op := op, tag := tag, args := args, keyed := true, origin := .forwarded f.src tag })) s
  | .mgmtRsp st tag ws => fromChild p (upward f (forwardAnswer f.src st tag ws)) s
  | .event r => fromChild p (fun s => if isSummit s then storeRemote r s else rollUp ((arg r 0 >>> 8).setWidth 8) r s) s
  | .attach port => fromChild p (upward f (attachFrom f port)) s
  | .loss port _ _ => fromChild p (upward f (lossAt f.src port)) s
  | .move port uid _ => fromChild p (upward f (moveAt f.src port uid)) s
  | .hbLoss addr => fromChild p (upward f (spurLost addr)) s
  | .missed _ => fromChild p (upward f (fun s => s.setIsm { s.ism with searchDue := true })) s
  | .addrAck addr _ =>
    fromChild p (fun s => upward f (fun s => s) (s.setIsm { s.ism with routes := alSet s.ism.routes addr p })) s
  | .conflict uid pu parent port =>
    let port := conflictPort p f port
    fromChild p (upward { f with body := .conflict uid pu parent port } (conflictAt uid parent port)) s
  | .ping seq => fromParent p (addressed f (fun s => sendUp f.ctx (.pingReply seq s.ism.imageStatus) s)) s
  | .pingReply _ st => fromChild p (upward f (pingReplyAt f.src st)) s
  | .bcast op tag args _ => fromParent p (bcastArrive f op tag args) s
  | .bcastReply c => fromChild p (childCounts f.ctx p c) s

/-- The route of the source, and at the summit the end of its silence (R438, R446). -/
def learnRoute (p : PortNo) (f : IsmFrame) (s : State) : State :=
  if p = 0 || f.noaddr || f.src = 0 then s
  else
    let s := s.setIsm { s.ism with routes := alSet s.ism.routes f.src p }
    if isSummit s then modTopo f.src (fun e => { e with silent := false }) s else s

def crcError (p : PortNo) (s : State) : State := modIsmPort p (fun x => { x with crcErr := satAdd x.crcErr 1 }) s

/-- A frame behind the receive injection point. -/
def ismTake (p : PortNo) (f : IsmFrame) (good acked : Bool) (s : State) : State :=
  match f.body with
  | .link i => if good then linkArrive p i acked s else crcError p (modIsmPort p (fun x => { x with goodLinks := 0, ackedLinks := 0 }) s)
  | _ =>
    if (ismPort s p).st ≠ .trained || (p = 0 && isSummit s) then s
    else if !good then crcError p s
    else if !unreliable f.body && (ismPort s p).lseqRx = some f.lseq then s
    else
      let s := if unreliable f.body then s else modIsmPort p (fun x => { x with lseqRx := some f.lseq }) s
      ismDispatch p f (learnRoute p f s)

/-- Units released by the receive point of a port. -/
def ismTakeAll (p : PortNo) (l : List HeldUnit) (s : State) : State :=
  l.foldl (fun s u => match u with
    | .ism f good => ismTake p f good true s
    | _ => s) s

/-- A frame that an injection point has altered and given a good CRC: taken as its bytes read, or discarded and counted where
its type is reserved (R435, R518). -/
def ismAltered (p : PortNo) (f : Option IsmFrame) (acked : Bool) (s : State) : State :=
  match f with
  | some f => ismTake p f true acked s
  | none => crcError p s

/-- A frame arrives at the pins of a port. -/
def ismArrive (h : IsmHdr) (acked : Bool) (b : IsmBody) (s : State) : State :=
  if bypassClosed s then s
  else
    let f := frameOf h b
    let point := BitVec.ofNat 16 (0x200 + h.port.toNat)
    match fiStep point (.ism f h.crcOk) s with
    | (.pass, s) => ismTake h.port f h.crcOk acked s
    | (.drop, s) => s
    | (.corrupt n unit recalc, s) =>
      let l := ismBytes f
      if recalc then ismAltered h.port (ismOfBytes f (corruptIsm (fiBits point unit (8 * l.length) n) true l)) acked s
      else ismTake h.port f false acked s
    | (.hold, s) => s
    | (.release l, s) => ismTakeAll h.port l s

/-! ### Timers -/

/-- 10 ms without an accepted heartbeat from a monitored address (R454). -/
def hbTimeout (a : Word) (s : State) : State :=
  match s.ism.monitors.find? (fun m => m.addr = a) with
  | none => s
  | some m =>
    let s := s.setIsm { s.ism with monitors := s.ism.monitors.filter (fun x => x.addr ≠ a) }
    if m.port = 0 then setSummitOk false s
    else if isSummit s then spurLost a s
    else sendUp 0 (.hbLoss a) s

/-- The summit starts an automatic search that waits (R447). -/
def autoSearch (s : State) : State :=
  if isSummit s && s.ism.autoSearch && s.ism.searchDue && s.ism.walk.isNone then startSearch 0xFFFF .host false s else s

/-- A FORWARD to a spur without an answer in time (R194). -/
def forwardTimeout (s : State) : State :=
  match s.cmds.fwd.running with
  | none => s
  | some c => if arg c.args 0 = 0 then s else finish 2 stTimeout [] s

end Sys2Proof.Machine
end

