-- ==== Sys2Proof/Machine/InjectOps.lean ====
section
/-! DEFINITION. Fault injection (chapter 20): the points, arming, disarming and what becomes of held units, and
the fault-injection region. -/

namespace Sys2Proof.Machine

/-- The points of Table 20-2. -/
def pointKnown (p : Word) : Bool :=
  let k := p.toNat
  decide (k ≤ 0x0007) || (decide (0x0100 ≤ k) && decide (k ≤ 0x013F)) || (decide (0x0200 ≤ k) && decide (k ≤ 0x0207)) ||
  (decide (0x8000 ≤ k) && decide (k < 0xC000))

/-- PARAM in range for its mode (Table 20-3). -/
def paramOk (mode param : Word) : Bool :=
  match mode.toNat with
  | 0 => param = 0
  | 1 => decide (fld param 6 9 = 0) && decide (1 ≤ fld param 0 6) && decide (fld param 0 6 ≤ 32)
  | _ => decide (fld param 4 12 = 0) && decide (2 ≤ fld param 0 4 ∨ fld param 0 4 = 0)

def fiDefault : FiPoint :=
  { armed := false, mode := 0, pattern := false, rate := 0, param := 0, units := 0, triggers := 0, acted := 0, held := [] }

/-- Units leave their injection point. -/
def releaseUnits (p : Word) (l : List HeldUnit) (s : State) : State :=
  let port : PortNo := p.setWidth 2
  if p.toNat ≤ 3 then ethReceiveAll port l s
  else if p.toNat ≤ 7 then putPort port { getPort s port with line := lineFrames l } s
  else if 0x0200 ≤ p.toNat ∧ p.toNat ≤ 0x0203 then ismTakeAll port l s
  else if 0x0204 ≤ p.toNat ∧ p.toNat ≤ 0x0207 then ismLineAll port l s
  else if 0x0100 ≤ p.toNat ∧ p.toNat ≤ 0x013F then releaseHwy p l s
  else linkHeld l s

/-- A point disarmed: its held units leave in arrival order (R521). -/
def disarmPoint (p : Word) (s : State) : State :=
  match fiPoint s p with
  | none => s
  | some x =>
    let s := putFi p { x with armed := false, held := [] } s
    if x.held.isEmpty then s else releaseUnits p x.held s

/-- The event of R521 when the last point has been disarmed. -/
def disarmed (before : Nat) (s : State) : State := if before ≠ 0 ∧ armedPoints s = 0 then raiseFiArmed false s else s

def disarmAll (s : State) : State :=
  let n := armedPoints s
  let ps := (s.fi.points.filter (fun e => e.2.armed)).map (fun e => e.1)
  disarmed n (ps.foldl (fun s p => disarmPoint p s) s)

/-- A group not complete in 10 ms is released as it stands, reversed (R518). -/
def reorderTimeout (p : Word) (s : State) : State :=
  match fiPoint s p with
  | none => s
  | some x =>
    if x.held.isEmpty then s else releaseUnits p x.held.reverse (putFi p { x with held := [] } s)

/-! ### Commands -/

/-- A proof test is running. -/
def proofRuns (s : State) : Bool := s.cmds.works.any (fun w => w.op = 0x0803)

def chkFiArm (a : List Word) (_ : State) : Check :=
  need 6 a (pointKnown (arg a 0) && upTo (arg a 1) 2 && upTo (arg a 2) 1 && paramOk (arg a 1) (arg a 5))

def runFiArm (c : Issued) (s : State) : State × Reply :=
  let a := c.args
  let p := arg a 0
  if proofRuns s then answer stBadState s
  else if (fiPoint s p).isSome then answer stBusy s
  else
    let x : FiPoint := { armed := true, mode := (arg a 1).setWidth 2, pattern := arg a 2 = 1, rate := arg2 a 3, param := arg a 5,
                         units := 0, triggers := 0, acted := 0, held := [] }
    answer stOk (raiseFiArmed true (putFi p x s))

def chkFiDisarm (a : List Word) (_ : State) : Check := need 1 a (arg a 0 = 0xFFFF || pointKnown (arg a 0))

def runFiDisarm (c : Issued) (s : State) : State × Reply :=
  let p := arg c.args 0
  if p = 0xFFFF then answer stOk (disarmAll s)
  else answer stOk (disarmed (armedPoints s) (disarmPoint p s))

def chkFiRead (a : List Word) (_ : State) : Check := need 1 a (pointKnown (arg a 0))

def runFiRead (c : Issued) (s : State) : State × Reply :=
  let x := alGet s.fi.points (arg c.args 0) fiDefault
  answerOk (pack 16 [(b2n x.armed, 0)] :: words2 x.triggers ++ words2 x.acted) s

/-! ### The region (Table 20-4) -/

def fiPointWord (x : FiPoint) (i : Nat) : W32 :=
  match i with
  | 0 => pack 32 [(b2n x.armed, 0), (x.mode.toNat, 1), (b2n x.pattern, 3), (x.param.toNat, 16)]
  | 1 => x.rate
  | 2 => x.triggers
  | _ => x.acted

def traceWord (s : State) (k i : Nat) : W32 :=
  let x := alGet s.fi.slots k ⟨0, 0, 0, 0⟩
  [x.seq, x.len, x.tFirst, x.tLast].getD i 0

/-- FI_CTL, as the region repeats it. -/
def fiCtl (s : State) : Word := pack 16 [(b2n (testBit s), 0), (min 255 (armedPoints s), 8)]

def fiRead (o : Nat) (s : State) : Option W32 :=
  if o = 0 then some ((fiCtl s).setWidth 32)
  else if 0x100 ≤ o ∧ o < 0x300 then some (traceWord s ((o - 0x100) / 16) ((o - 0x100) % 16 / 4))
  else if 0x10000 ≤ o ∧ o < 0x110000 then
    let p := BitVec.ofNat 16 ((o - 0x10000) / 16)
    if pointKnown p then some (fiPointWord (alGet s.fi.points p fiDefault) ((o - 0x10000) % 16 / 4)) else none
  else none

end Sys2Proof.Machine
end

