-- ==== Sys2Proof/Machine/TaskOps.lean ====
section
/-! DEFINITION. The end of a task that does not run to its end: budgets and overrun (R221, R222), task
faults (R286), and what they leave. -/

namespace Sys2Proof.Machine

/-- A tensor engine forgets the task it ran; no state is written back (R309). -/
def clearEngine (e : Engine) : Engine :=
  { e with chan := none, models := [], jobIndex := 0, staged := [], written := [], frame := [], seq := 0, inputs := [], junk := 0, cycles := 0 }

def getEngine (s : State) (e : BitVec 1) : Engine := if e = 0 then s.ten.te0 else s.ten.te1

def putEngine (e : BitVec 1) (x : Engine) (s : State) : State :=
  s.setTen (if e = 0 then { s.ten with te0 := x } else { s.ten with te1 := x })

/-- The overrun counts of a class and of the module, and the stop of R222. -/
def countOverrun (k : BitVec 6) (s : State) : State :=
  let n := satAdd (alGet s.sch.ovr k.toNat 0) 1
  let s := s.setSch { s.sch with ovr := alSet s.sch.ovr k.toNat n, overrun := satAdd s.sch.overrun 1 }
  match alFind s.sch.classes k.toNat with
  | some c =>
    if c.stopOnOvr && decide (c.ovrLimit.toNat ≤ n.toNat) && k.toNat ∉ s.sch.stopped then
      s.setSch { s.sch with stopped := s.sch.stopped ++ [k.toNat] }
    else s
  | none => s

/-- A task aborted with the effects of R221: its graph is cancelled, its executor and flow are free, and the
overrun is counted. -/
def abortService (t : Task) (s : State) : State :=
  let s := removeService t (countOverrun t.cls (loseGraph t s))
  match t.exec with
  | some (.te e) => putEngine e (clearEngine (getEngine s e)) s
  | some (.vc _) => s
  | none => s

/-! ### Voice-core faults -/

def xBase (n : CoreNo) : Nat := coreBase n.toNat + 0x10000
def yBase (n : CoreNo) : Nat := coreBase n.toNat + 0x20000

/-- A 32-bit word written to the X memory of a core. -/
def putX (n : CoreNo) (o : Nat) (v : W32) (s : State) : State := s.withMem (memWrite32 s.mem (xBase n + o) v 15)

def corePc (s : State) (n : CoreNo) : BitVec 12 := ((alFind s.vcs n).map (fun c => c.pc)).getD 0

/-- The four words of the fault record (Table 10-9). -/
def faultWords (s : State) (n : CoreNo) (t : Task) (code : Nat) : List W32 :=
  [pack 32 [(code, 0), (t.cls.toNat, 8), ((corePc s n).toNat, 16)], t.flow.setWidth 32, now s,
   (satAdd (getCore s n).faults 1).setWidth 32]

/-- A task fault of R286: the record is written, counted and traced, and the task is aborted. -/
def coreFault (n : CoreNo) (code : Nat) (s : State) : State :=
  match serving s (.vc n) with
  | none => s
  | some t =>
    let ws := faultWords s n t code
    let s := putCore n { getCore s n with faults := satAdd (getCore s n).faults 1 } s
    let s := (ws.zipIdx).foldl (fun s e => putX n (0xFF20 + 4 * e.2) e.1 s) s
    let s := traceRecord ([(0xF1 : Byte) ++ (9 : Byte)] ++ ws.flatMap words2) s
    abortService t s

/-- A job error of R309: recorded and counted at the engine, and the NEURAL task is aborted. -/
def jobError (e : BitVec 1) (code : Nat) (s : State) : State :=
  match serving s (.te e) with
  | none => s
  | some t =>
    let x := getEngine s e
    let st : W32 := pack 32 [(code, 8)]
    let s := putEngine e { x with jobErr := satAdd x.jobErr 1, lastStatus := st,
                                  lastErr := pack 32 [(code, 0), (x.jobIndex % 256, 8), (t.flow.toNat, 16)] } s
    abortService t s

/-- A task reaches its class budget (R221); a voice core writes its fault record with code BUDGET first. -/
def budgetExceeded (x : Executor) (s : State) : State :=
  match x with
  | .vc n => coreFault n 9 s
  | .te e =>
    match serving s (.te e) with
    | none => s
    | some t => abortService t s

/-! ### Draining (R223) -/

/-- The core of a drain request may begin its BIST: its last task has ended. -/
def bistStart (n : CoreNo) (s : State) : State :=
  let c := getCore s n
  if c.draining && c.busy.isNone then putCore n { c with draining := false } s else s

/-- BIST of a drained core ends: it returns to the pool or is withdrawn, and the next request starts. -/
def bistDone (n : CoreNo) (pass : Bool) (s : State) : State :=
  let c := getCore s n
  if c.drained && !c.draining then
    if pass then nextDrain (pointsChanged (putCore n { c with drained := false } s))
    else withdrawCore n s
  else s

end Sys2Proof.Machine
end

