-- ==== Sys2Proof/Machine/SafeOps.lean ====
section
/-! DEFINITION. Functional safety (chapter 18): the mechanisms that test themselves, memory errors by place,
differences of the duplicated tables, the monitors, SAFE_CFG, SAFE_QUERY and the vigil region. -/

namespace Sys2Proof.Machine

/-- The vigil unit and the control firmware run. -/
def awake (s : State) : Bool := s.mode ≠ .reset

/-- A lockstep mismatch (R473). -/
def lockstepMismatch (s : State) : State :=
  moduleSafe 0x10 (s.setSaf { s.saf with lockstep := satAdd s.saf.lockstep 1 })

/-- One comparator self-test on the next lane: whether that lane was flagged, and whether another lane differed.
Of two causes decided in one cycle the lower code is latched (R474, R482). -/
def comparatorTest (flagged other : Bool) (s : State) : State :=
  let s := s.setSaf { s.saf with lane := s.saf.lane + 1 }
  let s := if other then lockstepMismatch s else s
  if !flagged then moduleSafe 0x11 s
  else if other then s
  else s.setSaf { s.saf with compTests := satAdd s.saf.compTests 1 }

/-- The checker's verdict on its two test frames (R475). -/
def checkerTest (pass : Bool) (s : State) : State :=
  if pass then s.setSaf { s.saf with checkerTests := satAdd s.saf.checkerTests 1 } else moduleSafe 0x12 s

def tableCode : DupTable → Nat
  | .routing => 1
  | .seeds => 2
  | .safetyCfg => 3

/-- A benign mismatch counted for the channel of an entry and its group (R486). -/
def countBenign (t : DupTable) (entry : BitVec 13) (s : State) : State :=
  let s := s.setSaf { s.saf with benign := satAdd s.saf.benign 1 }
  match t with
  | .safetyCfg => s
  | .routing | .seeds =>
    match findChan s entry with
    | none => s
    | some x =>
      let s := modChan entry (fun y => { y with benign := satAdd y.benign 1 }) s
      s.setSaf { s.saf with groupBenign := addAl s.saf.groupBenign x.prof.group }

/-- A difference of the two copies (Table 18-3). The word index is a place in a table whose layout the manual
does not give. -/
def tableDiff (t : DupTable) (d : TableDiff) (entry : BitVec 13) (s : State) : State :=
  match d with
  | .benign =>
    let s := countBenign t entry s
    let w := words2 (Config.free32 s.free)
    raise evBenign (BitVec.ofNat 16 (tableCode t) :: w) (s.draw.setHost { s.host with benign := true })
  | .oneBad => s.setSaf { s.saf with repaired := satAdd s.saf.repaired 1 }
  | .conflict =>
    match t with
    | .routing => chanSafe entry 0x05 s
    | .seeds => chanSafe entry 0x05 s
    | .safetyCfg => moduleSafe 0x22 s

/-- One scrub cycle (R477). -/
def scrub (t : DupTable) (d : Option TableDiff) (entry : BitVec 13) (s : State) : State :=
  let s := s.setSaf { s.saf with scrubs := satAdd s.saf.scrubs 1 }
  match d with
  | none => s
  | some d => tableDiff t d entry s

/-- A frame whose tag the checks will find wrong. -/
def poisonFrame (f : AFrame) : AFrame := { f with tag := poison f.tag }

/-- An uncorrectable error, by its place (R476, R253, R254, R286, R309, R466). -/
def eccError (p : EccPlace) (s : State) : State :=
  let s := s.setSaf { s.saf with eccUncorr := satAdd s.saf.eccUncorr 1 }
  match p with
  | .cell i =>
    if i.toNat < cellTotal ∧ i.toNat ∉ s.qm.eccCells then s.setQm { s.qm with eccCells := s.qm.eccCells ++ [i.toNat] } else s
  | .coreData n => coreFault n 8 s
  | .coreVendorPm n => withdrawCore n (coreFault n 8 s)
  | .tensorLocal e => jobError e 4 s
  | .dramChannel c =>
    modChan c (fun y => { y with downs := y.downs.map (fun d => { d with audio := poisonFrame d.audio }),
                                 ups := y.ups.map (fun u => { u with audio := poisonFrame u.audio }) }) s
  | .dramControl => moduleSafe 0x20 s
  | .control => moduleSafe 0x20 s
  | .linkRam => moduleSafe 0x21 s

/-! ### SAFE_CFG and SAFE_QUERY (R485, R486) -/

def chkSafeCfg (a : List Word) (_ : State) : Check :=
  let w := fun (i : Nat) => (arg a i).toNat
  need 4 a (match w 0 with
    | 1 => decide (w 1 ≤ 1023) && decide (w 2 ≤ 1) && decide (w 3 = 0)
    | 2 => decide (2 ≤ w 1) && decide (w 1 ≤ 64) && decide (w 2 = 0) && decide (w 3 = 0)
    | 3 => decide (w 1 ≤ 2) && decide (w 2 = 0) && decide (w 3 = 0)
    | _ => false)

def setGroupPolicy (g : BitVec 10) (on : Bool) (l : List (BitVec 10)) : List (BitVec 10) :=
  let l := l.filter (fun x => x ≠ g)
  if on then l ++ [g] else l

def runSafeCfg (c : Issued) (s : State) : State × Reply :=
  let v := arg c.args 1
  if s.mode ≠ .ready then answer stSafetyLock s
  else
    match (arg c.args 0).toNat with
    | 1 => answer stOk (s.setSaf { s.saf with groupPolicy := setGroupPolicy (v.setWidth 10) (arg c.args 2 = 1) s.saf.groupPolicy })
    | 2 => answer stOk (s.setSaf { s.saf with stormLimit := v.toNat })
    | _ => answer stOk (s.setSaf { s.saf with summitPolicy := v.setWidth 2 })

def chkSafeQuery (a : List Word) (s : State) : Check :=
  let id := arg a 1
  need 2 a (match (arg a 0).toNat with
    | 0 => true
    | 1 => upTo id 1023
    | 2 => decide (id.toNat < channelLimit s)
    | _ => false)

/-- STATE, CAUSE, CLASS and the three counters. -/
def safeWords (st : Option Word) (tag live ben : W32) : List Word :=
  let w := st.getD 0
  [pack 16 [(b2n st.isSome, 0)], pack 16 [(fld w 0 8, 0)], pack 16 [(fld w 12 4, 0)]] ++ words2 tag ++ words2 live ++ words2 ben

def runSafeQuery (c : Issued) (s : State) : State × Reply :=
  let id := arg c.args 1
  match (arg c.args 0).toNat with
  | 0 => answerOk (safeWords (if s.saf.safe then some (causeWord s.saf.cause) else none) s.saf.tagFail s.saf.liveFail s.saf.benign) s
  | 1 =>
    let g : BitVec 10 := id.setWidth 10
    answerOk (safeWords (alFind s.saf.groupSafe g) (alGet s.saf.groupTag g 0) (alGet s.saf.groupLive g 0) (alGet s.saf.groupBenign g 0)) s
  | _ =>
    match findChan s (id.setWidth 13) with
    | some x => answerOk (safeWords x.safe x.tagFail x.liveFail x.benign) s
    | none => answer stBadParam s

/-! ### The vigil region (R487) -/

def vigilCounter (s : State) (i : Nat) : W32 :=
  [s.saf.tagFail, s.saf.liveFail, s.saf.lockstep, s.saf.compTests, s.saf.checkerTests, s.saf.benign, s.saf.repaired,
   s.saf.eccCorr, s.saf.eccUncorr, s.saf.scrubs, s.saf.stormEntries].getD i 0

def vigilRead (o : Nat) (s : State) : Option W32 :=
  if o = 0 then
    some (pack 32 [(b2n s.saf.safe, 0), (b2n (anyChanSafe s), 1), (b2n s.saf.qual, 2), (b2n (testBit s), 3), (s.saf.cause.toNat, 8), (s.saf.cls.toNat, 16)])
  else if 4 ≤ o ∧ o < 0x30 then some (vigilCounter s ((o - 4) / 4))
  else if 0x10000 ≤ o ∧ o < 0x10000 + 4 * channelLimit s then
    match findChan s (BitVec.ofNat 13 ((o - 0x10000) / 4)) with
    | some x => some (pack 32 [(b2n x.safe.isSome, 0), (b2n x.prof.priority, 1), (fld (x.safe.getD 0) 0 8, 8), (x.seed.toNat, 22)])
    | none => some 0
  else none

end Sys2Proof.Machine
end

