-- ==== Sys2Proof/Machine/Activation.lean ====
section
/-! DEFINITION. The activation functions of Table 11-9 on binary32 values: ReLU exactly, and sigmoid, tanh and
hard sigmoid as any value within 4 units in the last place of the exact function truncated to binary32 (R311). -/

namespace Sys2Proof.Machine

/-- Fraction bits of the fixed-point numbers in which the exact functions are worked out. -/
def actBits : Nat := 512

/-- m · 2^e in that fixed point, truncated. -/
def toFixed (m : Nat) (e : Int) : Nat := scaleTrunc m (e + actBits)

/-- The first `n` terms, from term `k` on, of the series of e^(−r): the sum so far, the next term, its sign. -/
def expTerms : Nat → Nat → Nat → Int → Int → Int
  | 0, _, _, _, sum => sum
  | n + 1, k, r, term, sum => expTerms n (k + 1) r (-(term * r / (2 ^ actBits * (k + 1) : Nat))) (sum + term)

/-- `n` squarings of a fixed-point number below 1. -/
def squarings : Nat → Nat → Nat
  | 0, v => v
  | n + 1, v => squarings n (v * v / 2 ^ actBits)

/-- e^(−y) for a fixed-point y: the argument divided by 4,096, sixty terms, twelve squarings. From y = 128 on the
result is below every number that binary32 can tell from 0 beside 1, and one unit stands for it. -/
def expNeg (y : Nat) : Nat :=
  if y = 0 then 2 ^ actBits
  else if 2 ^ (actBits + 7) ≤ y then 1
  else squarings 12 (expTerms 60 0 (y / 4096) (2 ^ actBits : Nat) 0).toNat

/-- a / b in fixed point. -/
def fixedDiv (a b : Nat) : FVal := .num false (a * 2 ^ actBits / b) (-(actBits : Int))

/-- The logistic function: 1 / (1 + e^(−x)). -/
def sigmoidVal : FVal → FVal
  | .nan => .nan
  | .inf n => if n then .num false 0 0 else .num false 1 0
  | .num n m e =>
    let g := expNeg (toFixed m e)
    fixedDiv (if n then g else 2 ^ actBits) (2 ^ actBits + g)

/-- The hyperbolic tangent: (1 − e^(−2y)) / (1 + e^(−2y)) with the sign of x. Below 2⁻¹³ it lies less than one unit
in the last place of a binary32 y under y itself. -/
def tanhVal : FVal → FVal
  | .nan => .nan
  | .inf n => .num n 1 0
  | .num n m e =>
    if m = 0 then .num n 0 0
    else if (e + Nat.log2 m : Int) < -13 then .num n (m * 2 ^ 30 - 1) (e - 30)
    else
      let g := expNeg (toFixed (2 * m) e)
      match fixedDiv (2 ^ actBits - g) (2 ^ actBits + g) with
      | .nan => .nan
      | .inf _ => .inf n
      | .num _ q k => .num n q k

/-- The hard sigmoid: αx + 1/2 held to 0 … 1. The manual does not give the slope α. -/
def hardVal (x : FVal) : FVal :=
  match x with
  | .nan => .nan
  | .inf n => if n then .num false 0 0 else .num false 1 0
  | .num .. =>
    match ((x.mul (fmt32.decode Config.hardSlope.toNat)).getD .nan).add (.num false 1 (-1)) with
    | some v => if v.lt (.num false 0 0) then .num false 0 0 else if (FVal.num false 1 0).lt v then .num false 1 0 else v
    | none => .nan

/-- The exact function of ACTFN 2, 3 or 4. -/
def exactAct (k : Nat) (x : FVal) : FVal := if k = 2 then sigmoidVal x else if k = 3 then tanhVal x else hardVal x

/-- One unit in the last place of a finite binary32 number, as a power of two. -/
def ulpExp (w : W32) : Int := fmt32.qmin + ((max 1 (fmt32.expOf w.toNat) : Nat) : Int) - 1

/-- `v` lies within 4 units in the last place of `w`. -/
def within4 (w v : W32) : Bool :=
  match (fmt32.decode v.toNat).add (fmt32.decode w.toNat).neg with
  | some (.num _ m e) => !(FVal.num false 4 (ulpExp w)).lt (.num false m e)
  | some .nan => false
  | some (.inf _) => false
  | none => false

/-- ACTFN (Table 11-9) on a binary32 value; a NaN stays NaN. Within the bound of R311 the value is free. -/
def activate (k : Nat) (w : W32) : W32 :=
  match k with
  | 0 => w
  | 1 => (match fmt32.decode w.toNat with
    | .nan => nan32
    | .inf n => if n then 0 else w
    | .num n _ _ => if n then 0 else w)
  | _ =>
    let x := fmt32.decode w.toNat
    if x.isNan then nan32
    else
      let exact := (write32 false (exactAct k x)).w
      let any := Config.activation k w
      if within4 exact any then any else exact

end Sys2Proof.Machine
end

