-- ==== Sys2Proof/Machine/TensorOps.lean ====
section
/-! DEFINITION. The tensor engines (chapter 11): staging a NEURAL task, descriptor checks (Table 11-8), slicing
(R299), exact block products with one truncation a block (R295), the compensated pair (R297), narrowing (R294)
and the write-back of state (R305, R309). -/

namespace Sys2Proof.Machine

/-! ### Staging -/

/-- Models of a channel in the order of R303: 1 RES, 2 noise suppressor, 3 voice activity detector,
4 discriminator, and 16 + slot for the customer model. -/
def chanModels (p : Profile) : List Nat :=
  ((List.range 4).filter (fun k => p.models.getLsbD k)).map (fun k => k + 1) ++ (if p.cmodel = 0 then [] else [16 + p.cmodel.toNat])

/-- A customer model's slot record. -/
def modelSlot (s : State) (m : Nat) : Option ModelSlot := if 16 ≤ m then alFind s.ten.slots (m - 16) else none

def stateBytes (s : State) (m : Nat) : Nat :=
  match modelSlot s m with
  | some x => x.stateBytes
  | none => Config.vendorState m

/-- A model that copies OUT to IN at its end (R306): of the vendor models, those that alter the frame. -/
def writesFrame (s : State) (m : Nat) : Bool :=
  match modelSlot s m with
  | some x => bitOf x.flags 2
  | none => m = 1 || m = 2

/-- The channel state of the first model is staged (R305); its transfers count (Table 11-7). -/
def stageModel (s : State) (x : Engine) : Engine :=
  match x.models with
  | [] => x
  | m :: _ =>
    let st := match x.chan.bind (findChan s) with
      | some c => alGet c.neural m []
      | none => []
    { x with staged := st, jobIndex := 0, cycles := x.cycles + 2 * stateBytes s m / 64 }

/-- A byte of the frame area as a task finds it. -/
def frameByte (x : Engine) (o : Nat) : Byte :=
  let at' := fun (k p : Nat) => match (x.inputs.getD k [])[p / 4]? with
    | some w => (bytes4 w).getD (p % 4) 0
    | none => Config.anyByte x.junk o
  if o < 0x200 then at' 0 o else if o < 0x400 then at' 1 (o - 0x200) else Config.anyByte x.junk o

/-- A byte of the frame area as the task's jobs have left it. -/
def areaByte (x : Engine) (o : Nat) : Byte := (alFind x.frame o).getD (frameByte x o)

/-- A word of the frame area. -/
def areaWord (x : Engine) (o : Nat) : W32 := le32 ((List.range 4).map (fun i => areaByte x (o + i))) 0

/-- What ENCODE is passed: IN as the models have left it, and the decision words (R306, R321). -/
def takeDecisions (x : Engine) (u : UpFrame) : UpFrame :=
  { u with audio := { u.audio with samples := (List.range u.audio.samples.length).map (fun i => areaWord x (4 * i)) },
           dec := (List.range 16).map (fun i => areaWord x (0x600 + 4 * i)) }

/-- The states a task has written reach DRAM, and the task ends (R305, R306). -/
def endNeural (e : BitVec 1) (s : State) : State :=
  match serving s (.te e) with
  | none => s
  | some t =>
    let x := getEngine s e
    let s := match x.chan with
      | some c => modUp c x.seq (takeDecisions x)
          (modChan c (fun y => { y with neural := x.written.foldl (fun l w => alSet l w.1 w.2) y.neural }) s)
      | none => s
    let s := putEngine e { clearEngine x with tasks := satAdd x.tasks 1, lastCycles := BitVec.ofNat 32 x.cycles } s
    taskEnds t TaskFinding.none s

/-- A NEURAL task enters service: the frame area takes the up frame of the task's number and the down reference of the
same number (Table 11-6). What the area holds elsewhere, or where the reference is not made yet, is not given. -/
def beginEngine (e : BitVec 1) (t : Task) (s : State) : State :=
  let s := startService t (.te e) s
  let c := if channelFlow t.flow then findChan s ((t.flow >>> 1).setWidth 13) else none
  let x := getEngine s e
  let up := match c.bind (fun y => findUp y t.seq) with
    | some u => u.audio.samples
    | none => []
  let ref := match c with
    | some y => alGet y.refs t.seq []
    | none => []
  let x := { x with chan := c.map Chan.no, models := (c.map (fun y => chanModels y.prof)).getD [], staged := [],
                    written := [], frame := [], seq := t.seq, inputs := [up, ref], junk := s.free, cycles := 256 }
  let s := putEngine e (stageModel s x) s.draw
  if x.models.isEmpty then endNeural e s else s

/-! ### Spaces (Table 11-5) -/

/-- Where the LOCAL addresses of a model begin in the engine's local memory (R313). -/
def localBase (s : State) (m : Nat) : Nat :=
  match modelSlot s m with
  | some x => x.base + x.dataOff
  | none => 0

/-- Bytes of a space of the model in progress. -/
def spaceSize (s : State) (m sp : Nat) : Nat :=
  match sp with
  | 0 => match modelSlot s m with
    | some x => x.dataLen
    | none => 0x3FF000
  | 1 => stateBytes s m
  | _ => 0x800

structure JobCtx where
  e : BitVec 1
  model : Nat
deriving DecidableEq, Repr

def spaceByte (s : State) (j : JobCtx) (sp o : Nat) : Byte :=
  let x := getEngine s j.e
  match sp with
  | 0 => memRead s.mem (tensorBase j.e.toNat + localBase s j.model + o)
  | 1 => alGet x.staged o 0
  | _ => areaByte x o

def spaceNat (s : State) (j : JobCtx) (sp o n : Nat) : Nat :=
  (List.range n).foldl (fun a i => a + (spaceByte s j sp (o + i)).toNat * 256 ^ i) 0

def putSpaceByte (j : JobCtx) (sp o : Nat) (b : Byte) (s : State) : State :=
  let x := getEngine s j.e
  match sp with
  | 0 => s.withMem (memWrite s.mem (tensorBase j.e.toNat + localBase s j.model + o) b)
  | 1 => putEngine j.e { x with staged := if b = 0 then alErase x.staged o else alSet x.staged o b } s
  | _ => putEngine j.e { x with frame := alSet x.frame o b } s

def putSpaceNat (j : JobCtx) (sp o n v : Nat) (s : State) : State :=
  (List.range n).foldl (fun s i => putSpaceByte j sp (o + i) (BitVec.ofNat 8 (v / 256 ^ i)) s) s

/-! ### Descriptors (Table 11-9) -/

def spOf (a : W32) : Nat := fld a 30 2
def offOf (a : W32) : Nat := fld a 0 22
def addrOk (a : W32) : Bool := spOf a ≠ 3 && fld a 22 8 = 0

end Sys2Proof.Machine

namespace Sys2Proof

open Machine

def JobDesc.inF (d : JobDesc) : FFmt := fmtOf (fld d.w0 4 2)
def JobDesc.wF (d : JobDesc) : FFmt := fmtOf (fld d.w0 6 2)
def JobDesc.outF (d : JobDesc) : FFmt := fmtOf (fld d.w0 8 2)
def JobDesc.rows (d : JobDesc) : Nat := fld d.w1 0 16 + 1
def JobDesc.cols (d : JobDesc) : Nat := fld d.w1 16 16 + 1
def JobDesc.red (d : JobDesc) : Nat := fld d.w2 0 16 + 1
def JobDesc.bias (d : JobDesc) : Bool := bitOf d.w0 14
def JobDesc.actfn (d : JobDesc) : Nat := fld d.w0 16 4
def JobDesc.lastJob (d : JobDesc) : Bool := bitOf d.w0 31

end Sys2Proof

namespace Sys2Proof.Machine

/-- A product job, GEMM or GEMM_ACC. -/
def isProduct (op : Nat) : Bool := op = 1 || op = 2

/-- What makes a descriptor bad whatever it points at (R309-R311). -/
def badDesc (op : Nat) (d : JobDesc) : Bool :=
  fld d.w0 0 4 ≠ op || bitOf d.w0 15 || fld d.w0 20 11 ≠ 0 || fld d.w2 16 16 ≠ 0 || decide (4 < d.actfn) ||
  decide (4096 < d.rows) || decide (4096 < d.cols) || (d.bias && op ≠ 1) ||
  !addrOk d.inAddr || !addrOk d.wAddr || !addrOk d.outAddr || !addrOk d.eAddr || !addrOk d.auxAddr ||
  (!isProduct op && d.auxAddr ≠ 0)

/-- An operand's extent: address, bytes and element size. -/
structure Extent where
  a : W32
  n : Nat
  unit : Nat
deriving DecidableEq, Repr

def inSpace (size : Nat → Nat) (x : Extent) : Bool := decide (offOf x.a + x.n ≤ size (spOf x.a))

/-- Operands and output of a job. -/
def dataExtents (op : Nat) (d : JobDesc) : List Extent :=
  let bi := fmtBytes d.inF
  let bw := fmtBytes d.wF
  let out : Extent := ⟨d.outAddr, d.rows * d.cols * fmtBytes d.outF, fmtBytes d.outF⟩
  if isProduct op then [⟨d.inAddr, d.rows * d.red * bi, bi⟩, ⟨d.wAddr, d.red * d.cols * bw, bw⟩, out]
  else if op = 5 then [⟨d.inAddr, d.rows * d.cols * bi, bi⟩, out]
  else [⟨d.inAddr, d.rows * d.cols * bi, bi⟩, ⟨d.wAddr, d.rows * d.cols * bw, bw⟩, out]

/-- The bias vector, with the comp mask address word that follows it (R311). -/
def biasExtent (d : JobDesc) : List Extent := if d.bias then [⟨d.auxAddr, 4 * d.cols + 4, 4⟩] else []

def compExtents (d : JobDesc) (comp : W32) : List Extent :=
  if comp = 0 then [] else [⟨d.eAddr, 4 * d.rows * d.cols, 4⟩, ⟨comp, (d.cols + 7) / 8, 4⟩]

/-- The checks of Table 11-8, for spaces of given sizes and a comp mask address found by `word`. -/
def descError (op : Nat) (d : JobDesc) (size : Nat → Nat) (word : Nat → Nat → W32) : Except Nat W32 :=
  if badDesc op d then .error 1
  else if !(biasExtent d).all (inSpace size) then .error 2
  else
    let comp := if !isProduct op then 0 else if d.bias then word (spOf d.auxAddr) (offOf d.auxAddr + 4 * d.cols) else d.auxAddr
    let l := dataExtents op d ++ biasExtent d ++ compExtents d comp
    if !addrOk comp || (comp ≠ 0 && fld d.w0 8 2 ≠ 3) then .error 1
    else if !l.all (inSpace size) then .error 2
    else if !l.all (fun x => offOf x.a % x.unit = 0) then .error 3
    else .ok comp

/-! ### Numbers -/

/-- What a job's arithmetic leaves in its status. -/
structure JobFlags where
  flushed : Bool
  ovf : Bool
  inv : Bool
deriving DecidableEq, Repr

def JobFlags.none : JobFlags := ⟨false, false, false⟩
def JobFlags.or (a b : JobFlags) : JobFlags := ⟨a.flushed || b.flushed, a.ovf || b.ovf, a.inv || b.inv⟩
def flagsOf (r : FRes) : JobFlags := ⟨r.fzs, r.ovf, r.inv⟩

/-- An element as FLUSH reads it (R302). -/
def readElem (f : FFmt) (flush : Bool) (w : Nat) : FVal × JobFlags :=
  if flush && f.subnormal w then (.num (f.negOf w) 0 0, ⟨true, false, false⟩) else (f.decode w, JobFlags.none)

/-- Conversion of a binary32 result to the output format (R294, Table 11-3). -/
def narrow (f : FFmt) (sat flush : Bool) (w : W32) : Nat × JobFlags :=
  match fmt32.decode w.toNat with
  | .nan => (f.nanBits, JobFlags.none)
  | .inf n =>
    if f = fmt32 ∨ f = fmt16 then (f.signBit n + f.infBits, JobFlags.none)
    else if sat then (f.signBit n + f.maxFinite, ⟨false, true, false⟩)
    else if f.ieee then (f.signBit n + f.infBits, JobFlags.none)
    else (f.signBit n + f.nanBits, ⟨false, true, false⟩)
  | .num n m e =>
    let c := f.cut m e
    if c.ovf then
      if sat ∨ f = fmt16 ∨ f = fmt32 then (f.signBit n + f.maxFinite, ⟨false, true, false⟩)
      else if f.ieee then (f.signBit n + f.infBits, JobFlags.none)
      else (f.signBit n + f.nanBits, ⟨false, true, false⟩)
    else if flush && c.sub then (f.signBit n, ⟨true, false, false⟩)
    else (f.signBit n + c.bits, JobFlags.none)

/-! ### Slicing (R299) -/

/-- ⌊log₂⌋ of a value's magnitude, none for zero and for values that are not finite. -/
def log2Of : FVal → Option Int
  | .nan => none
  | .inf _ => none
  | .num _ m e => if m = 0 then none else some (e + Nat.log2 m)

/-- The block's offset s: four below the largest magnitude's exponent; 0 for an all-zero block. -/
def blockShift (l : List FVal) : Int :=
  match l.filterMap log2Of with
  | [] => 0
  | a :: r => r.foldl max a - 4

/-- An element of a block as its slices: a power-of-two weight is applied at the products. -/
structure Sliced where
  slices : List FVal
  bad : Bool          -- infinite or NaN element: its hi slice is NaN and INV is set
  flushed : Bool
deriving DecidableEq, Repr

def scaleVal (v : FVal) (k : Int) : FVal :=
  match v with
  | .nan => .nan
  | .inf n => .inf n
  | .num n m e => .num n m (e + k)

/-- One slice: the value truncated to E4M3, or zero where FLUSH reads it so. -/
def e4m3Slice (flush : Bool) (v : FVal) : FVal × Bool :=
  match v with
  | .nan => (.nan, false)
  | .inf _ => (.nan, false)
  | .num n m e =>
    let c := fmtE4M3.cut m e
    if flush && c.sub then (.num n 0 0, true) else (fmtE4M3.decode (fmtE4M3.signBit n + c.bits), false)

/-- `k` slices of a scaled value, each taking sixteen times what the one before left. -/
def slicesOf (flush : Bool) : Nat → FVal → List FVal × Bool
  | 0, _ => ([], false)
  | k + 1, v =>
    let (h, f) := e4m3Slice flush v
    let rest := (v.add h.neg).getD .nan
    let (l, g) := slicesOf flush k (scaleVal rest 4)
    (h :: l, f || g)

def isWide (f : FFmt) : Bool := decide (8 < f.ebits + f.mbits)

/-- A block of an operand, sliced: the offset and the elements. An 8-bit operand is its own hi slice. -/
def sliceBlock (f : FFmt) (flush : Bool) (k : Nat) (l : List FVal) : Int × List Sliced :=
  if isWide f then
    let s := blockShift l
    (s, l.map (fun v =>
      match v with
      | .nan => ⟨[.nan], true, false⟩
      | .inf _ => ⟨[.nan], true, false⟩
      | .num n m e =>
        let r := slicesOf flush k (.num n m (e - s))
        ⟨r.1, false, r.2⟩))
  else (0, l.map (fun v => ⟨[v], false, false⟩))

/-- The exact sum of two partials; none is an invalid operation. -/
def addP (a b : Option FVal) : Option FVal :=
  match a, b with
  | some x, some y => x.add y
  | _, _ => none

/-- The products of the slice pairs i + j ≤ k − 1 of two elements, weighted by 2^(−4(i + j)) (R300). -/
def pairProducts (k : Nat) (a b : Sliced) : List (Option FVal) :=
  (a.slices.zipIdx).flatMap (fun x => ((b.slices.zipIdx).filter (fun y => x.2 + y.2 < k)).map (fun y =>
    (x.1.mul y.1).map (fun p => scaleVal p (-(4 * (x.2 + y.2 : Int))))))

/-- One block's exact dot product and the flags of its elements. -/
def blockDot (k : Nat) (a b : Int × List Sliced) : Option FVal × JobFlags :=
  let els := a.2.zip b.2
  let ps := els.flatMap (fun e => pairProducts k e.1 e.2)
  let p := ps.foldl addP (some (.num false 0 0))
  let bad := els.any (fun e => e.1.bad || e.2.bad)
  let fl := els.any (fun e => e.1.flushed || e.2.flushed)
  (p.map (fun v => scaleVal v (a.1 + b.1)), ⟨fl, false, bad⟩)

/-! ### Accumulation (R295-R298) -/

/-- An accumulator with its pair register. -/
structure Acc where
  acc : W32
  err : W32
  fl : JobFlags
  errFlushed : Bool           -- a subnormal E has been flushed (R302)
  capped : Bool
deriving DecidableEq, Repr

/-- One step: acc + p truncated once, and the exact remainder added to E with one truncation (R297). A partial that is an
invalid operation sets INV whatever the accumulator holds (R296). -/
def accStep (flush : Bool) (a : Acc) (p : Option FVal × JobFlags) : Acc :=
  let cur := fmt32.decode a.acc.toNat
  let sum := if cur.isNan then some .nan else addP (some cur) p.1
  let r := finish32 flush false sum
  let kept := fmt32.decode (finish32 false false sum).w.toNat
  let rest := match sum with
    | some v => (v.add kept.neg).getD (.num false 0 0)
    | none => .num false 0 0
  let e := finish32 flush false ((fmt32.decode a.err.toNat).add rest)
  { acc := r.w, err := e.w, fl := (a.fl.or p.2).or ⟨r.fzs, r.ovf, r.inv || p.1.isNone⟩,
    errFlushed := a.errFlushed || e.fzs, capped := a.capped || r.ovf }

/-- `l` cut into blocks of 64, at most `n`. -/
def blocks64 {α : Type} : Nat → List α → List (List α)
  | 0, _ => []
  | n + 1, l => if l.isEmpty then [] else l.take 64 :: blocks64 n (l.drop 64)

/-- One output of a product job before activation: row `a` against column `b`, sliced block by block. -/
def product (fa fb : FFmt) (flush : Bool) (k : Nat) (start : W32) (a b : List FVal) : Acc :=
  let n := (a.length + 63) / 64
  let xs := (blocks64 n a).map (sliceBlock fa flush k)
  let ys := (blocks64 n b).map (sliceBlock fb flush k)
  ((xs.zip ys).map (fun e => blockDot k e.1 e.2)).foldl (accStep flush) ⟨start, 0, JobFlags.none, false, false⟩

/-! ### Jobs -/

/-- Engine and model of the job, its descriptor, the effective passes and FLUSH (R304), the comp mask address. -/
structure Job where
  ctx : JobCtx
  op : Nat
  d : JobDesc
  passes : Nat
  flush : Bool
  comp : W32
deriving DecidableEq, Repr

def elem (s : State) (j : Job) (f : FFmt) (a : W32) (i : Nat) : FVal × JobFlags :=
  readElem f j.flush (spaceNat s j.ctx (spOf a) (offOf a + i * fmtBytes f) (fmtBytes f))

/-- Row `m` of IN, and column `n` of W, stored column-major. -/
def inRow (s : State) (j : Job) (m : Nat) : List (FVal × JobFlags) :=
  (List.range j.d.red).map (fun k => elem s j j.d.inF j.d.inAddr (m * j.d.red + k))

def wCol (s : State) (j : Job) (n : Nat) : List (FVal × JobFlags) :=
  (List.range j.d.red).map (fun k => elem s j j.d.wF j.d.wAddr (n * j.d.red + k))

def orAll (l : List (FVal × JobFlags)) : JobFlags := l.foldl (fun f x => f.or x.2) JobFlags.none

/-- Where the accumulator of output (m, n) starts: the bias, the existing output, or 0. What an existing output
that is not binary32 stands for is not given. -/
def startOf (s : State) (j : Job) (m n : Nat) : W32 × JobFlags :=
  if j.op = 1 then
    if j.d.bias then
      let v := elem s j fmt32 j.d.auxAddr n
      ((write32 false v.1).w, v.2)
    else (0, JobFlags.none)
  else if fld j.d.w0 8 2 = 3 then
    let v := elem s j fmt32 j.d.outAddr (m * j.d.cols + n)
    ((write32 false v.1).w, v.2)
  else (Config.free32 (s.free + (m * j.d.cols + n)), JobFlags.none)

/-- Output channel `n` has the pair. -/
def paired (s : State) (j : Job) (n : Nat) : Bool :=
  j.comp ≠ 0 && (spaceByte s j.ctx (spOf j.comp) (offOf j.comp + n / 8)).getLsbD (n % 8)

/-- One output as it is written: the element, E where the channel has one, and the flags. -/
structure Out where
  w : Nat
  err : Option W32
  fl : JobFlags
deriving DecidableEq, Repr

/-- A result after activation and conversion. -/
def finishOut (j : Job) (w : W32) (fl : JobFlags) (err : Option W32) : Out :=
  let r := narrow j.d.outF (bitOf j.d.w0 13) j.flush (activate j.d.actfn w)
  ⟨r.1, err, fl.or r.2⟩

def productOut (s : State) (j : Job) (m n : Nat) : Out :=
  let a := inRow s j m
  let b := wCol s j n
  let st := startOf s j m n
  let r := product j.d.inF j.d.wF j.flush j.passes st.1 (a.map (fun x => x.1)) (b.map (fun x => x.1))
  let pair := paired s j n
  let fl := (((r.fl.or (orAll a)).or (orAll b)).or st.2).or ⟨pair && r.errFlushed, false, false⟩
  let gone := r.capped || (fmt32.decode r.acc.toNat).isNan
  finishOut j r.acc fl (if pair then some (if gone then 0 else r.err) else none)

/-- An element-wise or activation output, computed in binary32 with truncation (R311). -/
def elementOut (s : State) (j : Job) (i : Nat) : Out :=
  let a := elem s j j.d.inF j.d.inAddr i
  let b := elem s j j.d.wF j.d.wAddr i
  let r := match j.op with
    | 3 => finish32 j.flush false (a.1.mul b.1)
    | 4 => finish32 j.flush false (a.1.add b.1)
    | _ => finish32 j.flush false (some a.1)
  finishOut j r.w (((flagsOf r).or a.2).or (if j.op = 5 then JobFlags.none else b.2)) none

def outputs (s : State) (j : Job) : List Out :=
  if isProduct j.op then
    (List.range (j.d.rows * j.d.cols)).map (fun i => productOut s j (i / j.d.cols) (i % j.d.cols))
  else (List.range (j.d.rows * j.d.cols)).map (elementOut s j)

def writeOut (j : Job) (o : Out) (i : Nat) (s : State) : State :=
  let n := fmtBytes j.d.outF
  let s := putSpaceNat j.ctx (spOf j.d.outAddr) (offOf j.d.outAddr + i * n) n o.w s
  match o.err with
  | some w => putSpaceNat j.ctx (spOf j.d.eAddr) (offOf j.d.eAddr + i * 4) 4 w.toNat s
  | none => s

/-- Array cycles of a job (Table 11-7). -/
def jobCycles (j : Job) : Nat :=
  if isProduct j.op then 64 + j.d.rows * cdiv j.d.cols 64 * cdiv j.d.red 64 * (j.passes * (j.passes + 1) / 2)
  else 64 + cdiv (j.d.rows * j.d.cols) 64

/-- OUT copied to IN (R306). -/
def copyFrame (j : JobCtx) (s : State) : State :=
  (List.range 0x200).foldl (fun s i => putSpaceByte j 2 i (spaceByte s j 2 (0x400 + i)) s) s

/-- The model whose last job has run ends; the next one is staged, or the task ends. -/
def endModel (j : JobCtx) (s : State) : State :=
  let s := if writesFrame s j.model then copyFrame j s else s
  let x := getEngine s j.e
  let x := { x with written := alSet x.written j.model x.staged, models := x.models.drop 1 }
  let s := putEngine j.e (stageModel s x) s
  if x.models.isEmpty then endNeural j.e s else s

/-- A job that passed its checks. -/
def performJob (j : Job) (s : State) : State :=
  let os := outputs s j
  let fl := os.foldl (fun f o => f.or o.fl) JobFlags.none
  let s := (os.zipIdx).foldl (fun s o => writeOut j o.1 o.2 s) (State.drawN os.length s)
  let x := getEngine s j.ctx.e
  let st : W32 := pack 32 [(1, 0), (b2n fl.flushed, 1), (b2n fl.ovf, 2), (b2n fl.inv, 3)]
  let s := putEngine j.ctx.e { x with jobIndex := x.jobIndex + 1, cycles := x.cycles + jobCycles j, lastStatus := st,
                                      flushed := x.flushed || fl.flushed, ovf := x.ovf || fl.ovf, inv := x.inv || fl.inv } s
  if j.d.lastJob then endModel j.ctx s else s

/-- The job that a row carries is the next one of the model in progress. A customer model's descriptors are those it was
loaded with (R303, R314); a vendor model's are not in the manual. -/
def jobNext (s : State) (x : Engine) (m : Nat) (d : JobDesc) : Bool :=
  match modelSlot s m with
  | some y => decide (y.jobs[x.jobIndex]? = some d)
  | none => decide (m < 16)

/-- A job of the NEURAL task in service on an engine (R303, R309). An engine without one does nothing, nor does a row whose
job is not the next of a customer model. -/
def runTensor (op : Nat) (e : BitVec 1) (d : JobDesc) (s : State) : State :=
  match serving s (.te e) with
  | none => s
  | some _ =>
    let x := getEngine s e
    match x.models with
    | [] => s
    | m :: _ =>
      let ctx : JobCtx := ⟨e, m⟩
      if !jobNext s x m d then s
      else
      match descError op d (spaceSize s m) (fun sp o => BitVec.ofNat 32 (spaceNat s ctx sp o 4)) with
      | .error code => jobError e code s
      | .ok comp =>
        let chanPasses := match x.chan.bind (findChan s) with
          | some c => c.prof.passes.toNat
          | none => 0
        let p := if fld d.w0 10 2 = 0 then chanPasses else fld d.w0 10 2
        performJob { ctx := ctx, op := op, d := d, passes := max 1 p, flush := bitOf d.w0 12 || decide (m < 16), comp := comp } s

/-- In-service test vectors run between NEURAL tasks (R307); an engine that fails them is withdrawn (R144). -/
def testVectors (e : BitVec 1) (pass : Bool) (s : State) : State :=
  if (serving s (.te e)).isSome || pass then s else withdrawEngine e s

end Sys2Proof.Machine
end

