-- ==== Sys2Proof/Machine/CalOps.lean ====
section
/-! DEFINITION. Calibration and self-test (chapter 19) and the proof test (R495-R497): items and offsets, work in
progress, and its completion (R198). -/

namespace Sys2Proof.Machine

/-! ### Items (Table 19-2) -/

inductive ItemKind where
  | factory | overlay | measured
deriving DecidableEq, Repr

/-- Kind and offset limits of a calibration item. -/
def calItem (item : Word) : Option (ItemKind × Int × Int) :=
  let k := item.toNat
  if k = 0x0001 then some (.factory, 0, 0)
  else if 0x0100 ≤ k ∧ k ≤ 0x0103 then some (.overlay, -640, 640)
  else if 0x0200 ≤ k ∧ k ≤ 0x0203 then some (.overlay, -1600, 1600)
  else if k = 0x0300 then some (.overlay, 0, 1600000)
  else if k = 0x0400 then some (.overlay, -1600, 1600)
  else if 0x0500 ≤ k ∧ k ≤ 0x051F then some (.measured, -64, 64)
  else if 0x0600 ≤ k ∧ k ≤ 0x0602 then some (.measured, -20000, 20000)
  else none

/-- Every item of Table 19-2 that carries an offset. -/
def offsetItems : List Word :=
  [0x0100, 0x0101, 0x0102, 0x0103, 0x0200, 0x0201, 0x0202, 0x0203, 0x0300, 0x0400] ++
  (List.range 32).map (fun n => BitVec.ofNat 16 (0x0500 + n)) ++ [0x0600, 0x0601, 0x0602]

def withinLimit (item : Word) (v : Int) : Bool :=
  match calItem item with
  | some (_, lo, hi) => decide (lo ≤ v) && decide (v ≤ hi)
  | none => false

/-- The offset an item has, or will have at its quiet point. -/
def calTarget (s : State) (item : Word) : Int := (alFind s.cal.waiting item).getD (alGet s.cal.offsets item 0)

/-- CAL_STAT.BUSY (R504): a calibration or self-test is running. -/
def calBusy (s : State) : Bool := s.cmds.works.any (fun w => w.op = 0x0901 || w.op = 0x0902 || w.op = 0x0904)

/-! ### Work -/

def newWork (c : Issued) (test target : Nat) : Work :=
  { op := c.op, tag := c.tag, origin := c.origin, test := test, target := target, done := 0, failed := 0, todo := [], ready := false }

def addWork (w : Work) (s : State) : State := s.setCmds { s.cmds with works := s.cmds.works ++ [w] }

/-- The work of an operation; of SELFTEST, that of one test. -/
def findWork (s : State) (op : Word) (test : Option Nat) : Option Work :=
  s.cmds.works.find? (fun w => w.op = op && (match test with
    | some t => w.test = t
    | none => true))

def sameWork (a b : Work) : Bool := a.op = b.op && a.test = b.test

def modWork (w : Work) (s : State) : State :=
  s.setCmds { s.cmds with works := s.cmds.works.map (fun x => if sameWork x w then w else x) }

def dropWork (w : Work) (s : State) : State :=
  s.setCmds { s.cmds with works := s.cmds.works.filter (fun x => !sameWork x w) }

/-- Work ends with its completion event. -/
def endWork (w : Work) (st : Word) (s : State) : State := calDoneEvent w st w.done w.failed (dropWork w s)

/-- A command accepted with the work it starts (R198). -/
def accept (w : Work) (s : State) : State × Reply := answer stAccepted (addWork w s)

/-! ### Out-of-service work (R193, R507) -/

/-- The channel list of a command: COUNT, then its words; 0xFFFF names every channel. -/
def listLength (a : List Word) (i : Nat) : Bool :=
  a.length = i + 1 + (if arg a i = 0xFFFF then 0 else (arg a i).toNat)

def namedChans (a : List Word) (i : Nat) (s : State) : List ChanNo :=
  if arg a i = 0xFFFF then allChans s else (a.drop (i + 1)).map (fun w => w.setWidth 13)

def namedOk (a : List Word) (i : Nat) (s : State) : Bool :=
  arg a i = 0xFFFF || (a.drop (i + 1)).all (fun w => decide (w.toNat < channelLimit s))

/-- Work that needs channels `users` out of the way: started, or refused (R193, R507). -/
def outOfServiceGate (users named : List ChanNo) (force : Bool) (s : State) : Except Word State :=
  if !force then (if users.isEmpty then .ok s else .error stBusyTraffic)
  else if users.all (fun c => c ∈ named) then .ok (dropChans 4 ((allChans s).filter (fun c => c ∈ named)) s)
  else .error stBusyTraffic

/-! ### CAL_RUN (R501-R503) -/

def chkCalRun (a : List Word) (s : State) : Check :=
  if a.length < 3 ∨ ¬ listLength a 2 then some stBadLength
  else
    let ok := match calItem (arg a 0) with
      | some (.overlay, lo, hi) => arg a 1 = 0 && arg a 2 = 2 && decide (lo ≤ (arg2 a 3).toInt) && decide ((arg2 a 3).toInt ≤ hi)
      | some (.measured, _, _) => upTo (arg a 1) 1 && namedOk a 2 s
      | some (.factory, _, _) => false
      | none => false
    if ok then none else some stBadParam

/-- Channels that use a measured item's resource. -/
def calUsers (item : Word) (s : State) : List ChanNo :=
  if item.toNat < 0x600 then (s.led.chans.filter (fun c => c.prof.hwy.toNat = item.toNat - 0x500)).map Chan.no else allChans s

/-- A measurement starts (R508): the highway's driver is released, or PWR_LIMIT is held. `target` keeps whether
the highway was aligned. -/
def startMeasure (c : Issued) (item : Word) (s : State) : State × Reply :=
  if item.toNat < 0x600 then
    let n : HwyNo := item.setWidth 5
    let x := getHwy s n
    accept (newWork c item.toNat (b2n x.aligned)) (putHwy n { x with trimRun := x.trimRun || x.aligned, aligned := false, goodPulses := 0, line := [] } s)
  else accept (newWork c item.toNat 1) (s.setPwr { s.pwr with held := some (effCeil s) })

def runCalRun (c : Issued) (s : State) : State × Reply :=
  let item := arg c.args 0
  match calItem item with
  | some (.overlay, _, _) =>
    if calBusy s || s.pwr.pwrfail then answer stBusy s
    else
      let v := (arg2 c.args 3).toInt
      let s := s.setCal { s.cal with overlay := alSet s.cal.overlay item v, overlayOk := true }
      accept { newWork c item.toNat 0 with ready := true, done := 1 } (offerCal item v s)
  | _ =>
    if calBusy s then answer stBusy s
    else
      match outOfServiceGate (calUsers item s) (namedChans c.args 2 s) (arg c.args 1 = 1) s with
      | .error st => answer st s
      | .ok s => startMeasure c item s

/-- The end of a measurement's run: the driver and PWR_LIMIT are free again. -/
def endMeasure (item : Word) (s : State) : State :=
  if item.toNat < 0x600 then
    let n : HwyNo := item.setWidth 5
    putHwy n { getHwy s n with goodPulses := 0, badPulses := 0 } s
  else
    let before := pwrLimit s
    powerReport before (s.setPwr { s.pwr with held := none })

/-- CAL_DONE of a CAL_RUN: a measurement gives its value, and the event follows once the offset is applied. -/
def calRunDone (v : Int) (s : State) : State :=
  match findWork s 0x0901 none with
  | none => s
  | some w =>
    let item := BitVec.ofNat 16 w.test
    if w.ready then (if (alFind s.cal.waiting item).isSome then s else endWork w stOk s)
    else
      let s := endMeasure item s
      if w.target = 0 || !withinLimit item v then endWork { w with failed := 1 } stNoResource s
      else
        let s := offerCal item v (modWork { w with ready := true, done := 1 } s)
        if (alFind s.cal.waiting item).isSome then s else endWork { w with done := 1 } stOk s

/-! ### CAL_RESTORE_FACTORY (R506) -/

def chkCalRestore (a : List Word) (_ : State) : Check := need 0 a true

/-- The overlay deleted and every measured offset zero; each item takes its 0 as R504 gives. -/
def restoreFactory (s : State) : State :=
  let changed := offsetItems.filter (fun i => calTarget s i ≠ 0)
  let s := s.setCal { s.cal with overlay := [], overlayOk := false, restoreTodo := false }
  let s := changed.foldl (fun s i => offerCal i 0 s) s
  match findWork s 0x0902 none with
  | some w => modWork { w with done := changed.length, ready := true } s
  | none => s

def runCalRestore (c : Issued) (s : State) : State × Reply :=
  if calBusy s then answer stBusy s
  else
    let (s, r) := accept (newWork c 0 0) s
    (if s.pwr.pwrfail then s.setCal { s.cal with restoreTodo := true } else restoreFactory s, r)

def restoreDone (s : State) : State :=
  match findWork s 0x0902 none with
  | some w => if w.ready && s.cal.waiting.isEmpty then endWork w stOk s else s
  | none => s

/-! ### CAL_READ (R498, R515) -/

def testDefault : TestRes := ⟨0, 0, 0, 0xFFFFFFFF⟩

def isTestItem (item : Word) : Bool := decide (0x8001 ≤ item.toNat) && decide (item.toNat ≤ 0x8004)

def chkCalRead (a : List Word) (_ : State) : Check := need 1 a ((calItem (arg a 0)).isSome || isTestItem (arg a 0))

def i32 (v : Int) : List Word := words2 (BitVec.ofInt 32 v)

def runCalRead (c : Issued) (s : State) : State × Reply :=
  let item := arg c.args 0
  if isTestItem item then
    let r := alGet s.cal.results (item.toNat - 0x8000) testDefault
    answerOk (words2 r.runs ++ words2 r.passes ++ words2 r.fails ++ words2 r.lastFail) s
  else
    let f := alGet s.hw.factory item 0
    let o := alGet s.cal.offsets item 0
    let hi : Int := match calItem item with
      | some (_, _, hi) => hi
      | none => 0
    answerOk (i32 f ++ i32 o ++ i32 (f + o) ++ i32 hi) s

/-! ### SELFTEST (R507-R514, Table 19-7) -/

def present (s : State) (n : Nat) : Bool := decide (n < coreCount s)

/-- The units a SELFTEST names; none when its target is not in order (R512). -/
def testUnits (s : State) (t target : Nat) : Option (List Nat) :=
  match t with
  | 1 =>
    if target = 0xFFFF then
      some ((List.range (coreCount s)).filter (fun n => !(getCore s (BitVec.ofNat 7 n)).withdrawn && !(getCore s (BitVec.ofNat 7 n)).drained))
    else
      let x := getCore s (BitVec.ofNat 7 target)
      if target < coreCount s ∧ ¬ x.withdrawn ∧ ¬ x.drained then some [target] else none
  | 2 =>
    let up := (List.range 2).filter (fun e => engineUp s (BitVec.ofNat 1 e))
    if target = 0xFFFF then (if up.isEmpty then none else some up) else if target ∈ up then some [target] else none
  | 3 => if 16 ≤ target ∧ target ≤ 1024 then some [] else none
  | _ => if target = 0 then some (List.range 8) else none

def chkSelftest (a : List Word) (s : State) : Check :=
  if a.length < 4 ∨ ¬ listLength a 3 then some stBadLength
  else
    let t := (arg a 0).toNat
    if 1 ≤ t && t ≤ 4 && upTo (arg a 1) 1 && (t = 4 || (arg a 1 = 0 && arg a 3 = 0)) && (t ≠ 4 || namedOk a 3 s) &&
      (testUnits s t (arg a 2).toNat).isSome then none
    else some stBadParam

def runSelftest (c : Issued) (s : State) : State × Reply :=
  let t := (arg c.args 0).toNat
  let target := (arg c.args 2).toNat
  let units := (testUnits s t target).getD []
  if (findWork s 0x0904 (some t)).isSome then answer stBusy s
  else
    let w := { newWork c t target with todo := units }
    match t with
    | 1 => accept w (units.foldl (fun s n => requestDrain (BitVec.ofNat 7 n) s) s)
    | 4 =>
      (match outOfServiceGate (allChans s) (namedChans c.args 3 s) (arg c.args 1 = 1) s with
       | .error st => answer st s
       | .ok s => accept w s)
    | 3 => accept w (s.setQm { s.qm with marched := [] })
    | _ => accept w s

/-- Results of one run of a test (R515). -/
def recordTest (t : Nat) (bad : Option Nat) (s : State) : State :=
  let r := alGet s.cal.results t testDefault
  let r := { r with runs := satAdd r.runs 1 }
  let r := match bad with
    | none => { r with passes := satAdd r.passes 1 }
    | some n => { r with fails := satAdd r.fails 1, lastFail := BitVec.ofNat 32 n }
  s.setCal { s.cal with results := alSet s.cal.results t r }

/-- A unit of a running self-test has its result; the last failing unit is kept in the work's target. -/
def noteUnit (t n : Nat) (pass : Bool) (s : State) : State :=
  match findWork s 0x0904 (some t) with
  | none => s
  | some w =>
    if n ∈ w.todo then
      modWork { w with todo := w.todo.filter (fun x => x ≠ n), done := w.done + b2n pass, failed := w.failed + b2n (!pass),
                       target := if pass then w.target else n } s
    else s

/-- The status of a self-test in which a unit failed is not given (R198). -/
def failStatus (w : Work) (s : State) : Word := if w.failed = 0 then stOk else (Config.free32 s.free).setWidth 16

/-- A test of units ends: units withdrawn meanwhile are not reported. -/
def unitsDone (t : Nat) (gone : Nat → Bool) (s : State) : State :=
  match findWork s 0x0904 (some t) with
  | none => s
  | some w =>
    if (w.todo.filter (fun n => !gone n)).isEmpty then
      endWork w (failStatus w s) (recordTest t (if w.failed = 0 then none else some w.target) s.draw)
    else s

/-- The full DRAM test ends; a failing 1 GiB block puts the module in SAFE, which ends the work (R510). -/
def dramDone (fails : List Nat) (s : State) : State :=
  match findWork s 0x0904 (some 4) with
  | none => s
  | some w =>
    match minBy (fun n => n) (fails.filter (fun n => decide (n < 8))) with
    | none => endWork { w with done := 8 } stOk (recordTest 4 none s)
    | some b =>
      moduleSafe 0x20 (recordTest 4 (some b) (modWork { w with done := b, todo := w.todo.drop b } s))

/-- Whether every cell has been tested. -/
def marchedAll (s : State) : Bool := decide (cellTotal ≤ (s.qm.marched ++ s.qm.retired).eraseDups.length)

/-- The cell march ends; without any round, with NO_RESOURCE (R513). -/
def marchDone (s : State) : State :=
  match findWork s 0x0904 (some 3) with
  | none => s
  | some w =>
    let st := if w.done + w.failed = 0 then stNoResource else failStatus w s
    endWork w st (recordTest 3 (if w.failed = 0 then none else some w.target) s.draw)

/-- The cells a round takes: those it finds bad, and untested free ones, found in an order not given. -/
def marchCells (s : State) (n : Nat) (bad : List Nat) : List Nat :=
  let used := usedCells s
  let start := Config.pickIndex s.free % cellTotal
  let free := (List.range cellTotal).filter (fun i => (start + i) % cellTotal ∉ used && (start + i) % cellTotal ∉ s.qm.marched)
  bad ++ (free.map (fun i => (start + i) % cellTotal)).filter (fun c => c ∉ bad) |>.take n

/-- A march round (R509, R513, R514): it starts only while FREE exceeds RESERVE + TARGET. -/
def marchRound (cells : BitVec 11) (bad : List (BitVec 17)) (s : State) : State :=
  match findWork s 0x0904 (some 3) with
  | none => s
  | some w =>
    let size := if w.failed = 0 then w.target else w.todo.headD w.target
    let bad := ((bad.map (fun b => b.toNat)).eraseDups).filter (fun c => decide (c < cellTotal) && c ∉ usedCells s)
    if freeCells s ≤ s.qm.reserve.toNat + size then s
    else
      let taken := marchCells s (min size cells.toNat) bad
      let bad := bad.filter (fun c => c ∈ taken)
      let q : QueueNo := 32544
      let s := s.draw.setQm { s.qm with marching := taken }
      let s := noteFree (changeQ q { getQ s q with limit := BitVec.ofNat 17 size, enable := true, openCells := taken.length } s)
      let s := s.setQm { s.qm with marching := [], marched := (s.qm.marched ++ taken).eraseDups }
      let s := retireCells bad (changeQ q { getQ s q with openCells := 0 } s)
      let w := if bad.isEmpty then { w with done := w.done + 1 }
               else { w with failed := w.failed + 1, target := bad.getD 0 0, todo := [size] }
      modWork w s

/-! ### The proof test (R495-R497) -/

def chkProofTest (a : List Word) (_ : State) : Check := need 1 a (upTo (arg a 0) 1)

def runProofTest (c : Issued) (s : State) : State × Reply :=
  if s.mode ≠ .ready ∧ s.mode ≠ .run then answer stBadState s
  else if proofRuns s || testBit s then answer stBadState s
  else
    match outOfServiceGate (allChans s) (allChans s) (arg c.args 0 = 1) s with
    | .error st => answer st s
    | .ok s => accept (newWork c 0 0) s

/-- The proof test at step 6 (`step` = 6), or at its end with its first failing step, if any (R496). -/
def proofDone (step : Nat) (fails : List Nat) (s : State) : State :=
  match findWork s 0x0803 none with
  | none => s
  | some w =>
    let s := s.setPins { s.pins with proofStep6 := false }
    match minBy (fun n => n) (fails.filter (fun n => decide (1 ≤ n) && decide (n ≤ 7))) with
    | some f => moduleSafe 0x51 (modWork { w with done := f - 1 } s)
    | none =>
      if step = 6 then (modWork { w with done := 5 } s).setPins { s.pins with proofStep6 := true }
      else endWork { w with done := 7 } stOk s

/-! ### CAL_DONE (R198) -/

def workDone (w : WorkId) (value : W32) (fails : List Nat) (s : State) : State :=
  match w with
  | .cal => calRunDone value.toInt s
  | .restore => restoreDone s
  | .selftest t =>
    (match t.toNat with
     | 1 => unitsDone 1 (fun n => (getCore s (BitVec.ofNat 7 n)).withdrawn) s
     | 2 => unitsDone 2 (fun e => engineGone s (BitVec.ofNat 1 e)) s
     | 3 => marchDone s
     | 4 => dramDone fails s
     | _ => s)
  | .proof => proofDone value.toNat fails s

/-- CH_CREATE that would use the resource of running work (R495, R508). -/
def workRefusesCreate (s : State) (h : HwyNo) : Option Word :=
  if proofRuns s then some stBadState
  else if s.cmds.works.any (fun w => (w.op = 0x0904 && w.test = 4) ||
      (w.op = 0x0901 && !w.ready && (decide (0x600 ≤ w.test) || w.test = 0x500 + h.toNat))) then some stBusy
  else none

end Sys2Proof.Machine
end

