-- ==== Sys2Proof/Machine/NetCmds.lean ====
section
/-! DEFINITION. Ports, VLANs, classes and highways as their commands and events change them (chapter 13, R84-R86, R95). -/

namespace Sys2Proof.Machine

/-! ### SFP+ cages (R95, Table 13-3) -/

def hasCage (p : PortNo) : Bool := decide (2 ≤ p.toNat)

/-- The module states of Table 03-4 in which configured ports and cages are on. -/
def portsOn (s : State) : Bool := inService s || s.mode = .safe

/-- A configured cage with a transceiver in it: powered and read, and refused where power level or identification
is not acceptable. -/
def cageCheck (p : PortNo) (s : State) : State :=
  let x := getPort s p
  let c := { x.cage with idRead := x.cage.readable, diagRead := x.cage.hasDiag }
  if !hasCage p || x.mode = 0 || !c.present || c.refused || c.powered || !portsOn s then s
  else if !c.readable then raiseLink 3 p.toNat 0 4 (putPort p { x with cage := { c with powered := false, refused := true } } s)
  else if !c.level1 then raiseLink 3 p.toNat 0 1 (putPort p { x with cage := { c with powered := false, refused := true } } s)
  else raiseLink 3 p.toNat 1 0 (putPort p { x with cage := { c with powered := true } } s)

def cageRemoved (p : PortNo) (overcurrent : Bool) (s : State) : State :=
  let x := getPort s p
  if !hasCage p || !x.cage.present then s
  else if overcurrent then
    if x.cage.powered then raiseLink 3 p.toNat 0 2 (putPort p { x with cage := { x.cage with powered := false, refused := true } } s) else s
  else raiseLink 3 p.toNat 0 3 (putPort p { x with cage := Cage.atReset } s)

def cageInserted (p : PortNo) (level1 readable hasDiag : Bool) (s : State) : State :=
  if !hasCage p then s
  else
    let x := getPort s p
    cageCheck p (putPort p { x with cage :=
      { Cage.atReset with present := true, level1 := level1, readable := readable, hasDiag := hasDiag } } s)

/-- The cage supply is off (Table 03-4). -/
def cageUnpowered (p : PortNo) (s : State) : State :=
  let x := getPort s p
  if x.cage.powered then putPort p { x with cage := { x.cage with powered := false } } s else s

/-- TX_DISABLE of a cage is held while the cage has no supply (R95). -/
def txDisable (s : State) (p : PortNo) : Bool := hasCage p && !((getPort s p).cage.powered && portsOn s)

/-! ### Links (R343-R345) -/

/-- The speeds a mode allows, by the SPEED codes of Table 13-5. -/
def speedAllowed (p : PortNo) (mode : BitVec 3) (speed : BitVec 3) : Bool :=
  let k := speed.toNat
  match mode.toNat with
  | 1 => if hasCage p then k = 1 || k = 4 else decide (1 ≤ k) && decide (k ≤ 4)
  | 2 => k = 4
  | 3 => !hasCage p && k = 3
  | 4 => !hasCage p && k = 2
  | 5 => k = 1
  | _ => false

def modeAllowed (p : PortNo) (mode : Word) : Bool :=
  let k := mode.toNat
  k = 0 || k = 1 || k = 2 || k = 5 || (!hasCage p && (k = 3 || k = 4))

/-- A port declared down: what it was sending is lost; the latency item of the port has its quiet point (Table 19-3). -/
def portDown (p : PortNo) (cause : Nat) (s : State) : State :=
  let x := getPort s p
  if !x.up then s
  else
    let s := putPort p { x with up := false, speed := 0, sending := none, txEngine := [] } s
    applyCal (0x0200 + p.setWidth 16) (raiseLink 0 p.toNat 0 cause s)

/-- A port declared up (R345), by a speed that its mode advertises. -/
def portUp (p : PortNo) (speed : BitVec 3) (s : State) : State :=
  let x := getPort s p
  if x.up || s.mode = .reset || s.mode = .standby || !s.clk.ethPll || !speedAllowed p x.mode speed || (hasCage p && !x.cage.powered) then s
  else startTx p (raiseLink 0 p.toNat 1 0 (putPort p { x with up := true, speed := speed } s))

/-! ### PORT_CFG -/

/-- The address, prefix and VLAN of a PORT_CFG are in order (R353). -/
def ifaceOk (addr : Ip) (plen : Nat) : Bool :=
  if addr = 0 then decide (plen ≤ 128)
  else if ipIsV4 addr then decide (1 ≤ plen) && decide (plen ≤ 32)
  else decide (1 ≤ plen) && decide (plen ≤ 128)

/-- Another port has an interface of the same family in the same VLAN (R353). -/
def ifaceClash (s : State) (p : PortNo) (addr : Ip) (vlan : BitVec 12) : Bool :=
  let v := if vlan = 0 then pvid s p.toNat else some vlan
  addr ≠ 0 && extPorts.any (fun q => q ≠ p && hasIf (getPort s q) && ifVlan s q = v && ifV4 (getPort s q) = ipIsV4 addr)

def chkPortCfg (a : List Word) (s : State) : Check :=
  let p : PortNo := (arg a 0).setWidth 2
  let addr := argIp a 3
  need 13 a (upTo (arg a 0) 3 && modeAllowed p (arg a 1) && upTo (arg a 2) 1 && ifaceOk addr (arg a 11).toNat &&
    upTo (arg a 12) 4094 && !ifaceClash s p addr ((arg a 12).setWidth 12))

def runPortCfg (c : Issued) (s : State) : State × Reply :=
  let a := c.args
  let p : PortNo := (arg a 0).setWidth 2
  let mode : BitVec 3 := (arg a 1).setWidth 3
  let addr := argIp a 3
  let vlan : BitVec 12 := (arg a 12).setWidth 12
  let old := getPort s p
  let oldVlan := ifVlan s p
  let newVlan := if vlan = 0 then pvid s p.toNat else some vlan
  let moved := old.addr ≠ addr || oldVlan ≠ newVlan
  if moved && hasIf old && s.led.chans.any (fun c => c.port = p) then answer stBadState s
  else
    let s := if old.mode = mode then s else portDown p (if mode = 0 then 4 else 1) s
    let x := getPort s p
    let s := putPort p { x with
      mode := mode, ptpTs := bitOf (arg a 2) 0, addr := addr, hop := if moved then 0 else x.hop, plen := (arg a 11).setWidth 8, vlan := vlan,
      cage := if mode = 0 then { x.cage with powered := false } else x.cage } s
    let s := if moved then s.setSw { s.sw with neighbours := s.sw.neighbours.filter (fun n => n.port ≠ p) } else s
    answer stOk (cageCheck p s)

/-! ### VLAN_CFG and CLASS_CFG (R347, R348) -/

/-- The ranges of Table 07-4 alone: removing a VLAN that does not exist changes nothing and answers OK
(DESIGN CHOICE: the manual states no status for it, log entry 100). -/
def chkVlanCfg (a : List Word) : Check :=
  need 4 a (inRange (arg a 0) 1 4094 && upTo (arg a 1) 31 && upTo (arg a 2) 31 && upTo (arg a 3) 1)

def runVlanCfg (c : Issued) (s : State) : State × Reply :=
  let a := c.args
  let vid : BitVec 12 := (arg a 0).setWidth 12
  let others := s.sw.vlans.filter (fun v => v.vid ≠ vid)
  if arg a 3 = 1 then answer stOk (s.setSw { s.sw with vlans := others })
  else if 4094 ≤ others.length then answer stNoResource s
  else
    let m : BitVec 5 := (arg a 1).setWidth 5
    answer stOk (s.setSw { s.sw with vlans := others ++ [⟨vid, m, (arg a 2).setWidth 5 &&& m⟩] })

def chkClassCfg (a : List Word) (s : State) : Check :=
  need 5 a (upTo (arg a 0) 7 && upTo (arg a 1) 1 && inRange (arg a 2) 1 255 && upTo (arg a 3) 1 && upTo (arg a 4) 255 &&
    (arg a 3 = 0 || !(List.range 8).any (fun k => k ≠ (arg a 0).toNat && (trafficClass s k).cut)))

def runClassCfg (c : Issued) (s : State) : State × Reply :=
  let a := c.args
  let k := (arg a 0).toNat
  let t : TrafficClass := { wrr := arg a 1 = 1, weight := (arg a 2).setWidth 8, cut := bitOf (arg a 3) 0 }
  let map := (List.range 8).map (fun i => if bitOf (arg a 4) i then BitVec.ofNat 3 k else s.sw.pcpClass.getD i 0)
  answer stOk (s.setSw { s.sw with classes := setAt s.sw.classes k t, pcpClass := map })

/-! ### Highways (R366-R372) -/

/-- The configuration that the next frame boundary brings. -/
def comingCfg (x : Highway) : HwyCfg := x.nextCfg.getD x.cfg

def chkHwyCfg (a : List Word) (_ : State) : Check :=
  need 4 a (upTo (arg a 0) 31 && upTo (arg a 1) 7 && upTo (arg a 2) 255 && upTo (arg a 3) 2047)

def runHwyCfg (c : Issued) (s : State) : State × Reply :=
  let a := c.args
  let n : HwyNo := (arg a 0).setWidth 5
  let x := getHwy s n
  let cfg : HwyCfg := { enabled := bitOf (arg a 1) 0, master := bitOf (arg a 1) 1, muLaw := bitOf (arg a 1) 2,
                        idle := (arg a 2).setWidth 8, fsOffset := (arg a 3).setWidth 11 }
  if s.led.chans.any (fun c => c.prof.hwy = n) && (cfg.muLaw ≠ (comingCfg x).muLaw || cfg.fsOffset ≠ (comingCfg x).fsOffset) then
    answer stBadState s
  else answer stOk (putHwy n { x with nextCfg := some cfg } s)

def chkSlotMap (a : List Word) (_ : State) : Check :=
  need 4 a (upTo (arg a 0) 31 && upTo (arg a 1) 255 && inRange (arg a 2) 1 256 && upTo (arg a 3) 1 &&
    decide ((arg a 1).toNat + (arg a 2).toNat ≤ 256))

/-- Timeslots `f` to `f + n − 1` as a mask. -/
def slotMask (f n : Nat) : BitVec 256 := BitVec.ofNat 256 ((2 ^ n - 1) * 2 ^ f)

def runSlotMap (c : Issued) (s : State) : State × Reply :=
  let a := c.args
  let n : HwyNo := (arg a 0).setWidth 5
  let x := getHwy s n
  let m := slotMask (arg a 1).toNat (arg a 2).toNat
  if arg a 3 = 0 && s.led.chans.any (fun c => (c.prof :: c.nextProf.toList).any (fun q => q.hwy = n && (slotsOf q).any (fun t => m.getLsbD t))) then answer stBadState s
  else
    let own := if arg a 3 = 1 then ownedSlots x ||| m else ownedSlots x &&& ~~~m
    answer stOk (putHwy n { x with nextOwn := some own } s)

/-- The highway frame boundary: waiting changes take effect (R369). -/
def applyHwy (n : HwyNo) (s : State) : State :=
  let x := getHwy s n
  let cfg := comingCfg x
  let ends := x.cfg.enabled && !cfg.enabled
  let s := putHwy n { x with
    cfg := cfg, own := ownedSlots x, nextCfg := none, nextOwn := none,
    aligned := x.aligned && cfg.enabled, trimRun := x.trimRun && !ends, goodPulses := if ends then 0 else x.goodPulses,
    badPulses := if ends then 0 else x.badPulses, line := if ends then [] else x.line } s
  if ends then settleCal (applyCal (0x0500 + n.setWidth 16) (raiseLink 2 n.toNat 0 3 s)) else s

/-! ### Neighbours and sessions -/

/-- A resolution of `ip` begins again. Where it is the off-link next hop and ROUTER has been committed anew, it is the new
router that is resolved (R374); the old entry goes. -/
def resolveAgain (p : PortNo) (ip : Ip) (s : State) : State :=
  let x := getPort s p
  if x.hop ≠ ip || x.router = ip then sendResolve p ip s
  else
    let s := takeRouter p (s.setSw { s.sw with neighbours := s.sw.neighbours.filter (fun n => !(n.port = p && n.ip = ip)) })
    if x.router = 0 then s else (resolve p x.router s).2

/-- A next hop not resolved within 1 s is asked for again (R355). -/
def retryNeighbour (p : PortNo) (ip : Ip) (s : State) : State :=
  match findNeigh s p ip with
  | some n => if n.mac.isNone then resolveAgain p ip s else s
  | none => s

/-- A neighbour held for 60 s is refreshed (R355). -/
def refreshNeighbour (p : PortNo) (ip : Ip) (s : State) : State :=
  match findNeigh s p ip with
  | some n => if n.mac.isSome then resolveAgain p ip s else s
  | none => s

/-- SRTP keys still incomplete 1 s after CH_CREATE (R363). -/
def keysTimeout (c : ChanNo) (s : State) : State :=
  match findChan s c with
  | none => s
  | some x =>
    if x.prof.srtp && (x.rxCtx.isNone || x.txCtx.isNone) && !x.keysLate then
      raiseChState c 0 8 (modChan c (fun y => { y with keysLate := true }) s)
    else s

def chkChKeys (a : List Word) (s : State) : Check :=
  need 19 a (decide ((arg a 0).toNat < channelLimit s) && upTo (arg a 1) 1)

/-- CH_KEYS (R362-R364). -/
def runChKeys (c : Issued) (s : State) : State × Reply :=
  let a := c.args
  let ch : ChanNo := (arg a 0).setWidth 13
  match findChan s ch with
  | none => answer stBadParam s
  | some x =>
    if !x.prof.srtp || x.safe.isSome then answer stBadState s
    else
      let k := newCtx ((a.drop 2).take 8) ((a.drop 10).take 7) (arg2 a 17)
      let waited := x.rxCtx.isNone || x.txCtx.isNone
      let y := if arg a 1 = 0 then { x with rxOld := x.rxCtx, rxCtx := some k } else { x with txCtx := some k }
      let done := waited && y.rxCtx.isSome && y.txCtx.isSome && y.safe.isNone && !s.clk.cryptoLost
      let s := putChan (if done then { y with inService := true } else y) s
      answer stOk (if done && x.keysLate then raiseChState ch 1 0 s else s)

end Sys2Proof.Machine
end

