-- ==== Sys2Proof/Machine/BootOps.lean ====
section
/-! DEFINITION. Reset, boot and images (chapter 05) with the power inputs (chapter 02): packages and their check,
the choice of a bank, entry to and exit from RESET, STANDBY, READY, and the boot record. -/

namespace Sys2Proof.Machine

/-! ### Packages (Tables 05-4, 05-5) -/

def bankMax : Nat := 67108864

def bankOf (s : State) (b : Bool) : Bank := if b then s.boot.bankB else s.boot.bankA

def putBank (b : Bool) (x : Bank) (s : State) : State :=
  s.setBoot (if b then { s.boot with bankB := x } else { s.boot with bankA := x })

/-- The stored result of a bank (R546). -/
def resOf (s : State) (b : Bool) : CheckRes := if b then s.boot.resB else s.boot.resA

def putRes (b : Bool) (r : CheckRes) (s : State) : State :=
  s.setBoot (if b then { s.boot with resB := r } else { s.boot with resA := r })

def isGood (s : State) (b : Bool) : Bool := resOf s b = .good

/-- Byte offset of component entry `k`. -/
def compAt (k : Nat) : Nat := 0x40 + 48 * k

def compOffset (l : List Byte) (k : Nat) : Nat := (le32 l (compAt k + 4)).toNat
def compLength (l : List Byte) (k : Nat) : Nat := (le32 l (compAt k + 8)).toNat

/-- The stored bytes of a component. -/
def compData (l : List Byte) (k : Nat) : List Byte := (l.drop (compOffset l k)).take (compLength l k)

def allZero (l : List Byte) (i n : Nat) : Bool := ((l.drop i).take n).all (fun b => b = 0)

/-- A component entry: a known type, no other flag than COMPRESSED, data behind the header and within the package. -/
def compOk (l : List Byte) (k : Nat) : Bool :=
  decide (1 ≤ (le16 l (compAt k)).toNat) && decide ((le16 l (compAt k)).toNat ≤ 4) && decide ((le16 l (compAt k + 2)).toNat ≤ 1) &&
  decide (0x1C0 ≤ compOffset l k) && decide (compOffset l k + compLength l k ≤ l.length) && allZero l (compAt k + 44) 4

/-- The FORMAT checks on the header (R126). -/
def headerOk (l : List Byte) : Bool :=
  le32 l 0 = 0x50414341 && le16 l 4 = 1 && decide ((le16 l 6).toNat ≤ 3) && decide ((le16 l 0x14).toNat ≤ 255) &&
  decide ((le16 l 0x16).toNat ≤ 64) && decide ((le32 l 0x20).toNat = l.length) && decide (l.length ≤ bankMax) &&
  decide (0x1C0 ≤ l.length) && allZero l 0x24 28 && (List.range 4).all (fun k => compOk l k) &&
  ((List.range 4).map (fun k => le16 l (compAt k))).eraseDups.length = 4

def revokedSlot (s : State) (k : Nat) : Bool := s.hw.revoked.getLsbD k

/-- The signature over bytes 0x0000-0x017F, from a slot that is not revoked (R123, R125). -/
def signatureOk (s : State) (l : List Byte) : Bool :=
  let k := (le16 l 6).toNat
  !revokedSlot s k && Config.sigValid (BitVec.ofNat 2 k) (sha256 (l.take 0x180)) (BitVec.ofNat 512 (beNat ((l.drop 0x180).take 64)))

def masksOk (s : State) (l : List Byte) : Bool :=
  (le32 l 0x18).getLsbD s.hw.sil.toNat && (le32 l 0x1C).getLsbD s.hw.modRev.toNat

def pkgSvn (l : List Byte) : Byte := byteAt l 0x14

def hashOk (l : List Byte) (k : Nat) : Bool := (sha256 (compData l k)).toNat = beNat ((l.drop (compAt k + 12)).take 32)

/-- The trial unpack of a compressed component. The manual does not say what a check gives while the DEFLATE engine is
withdrawn: the model unpacks as if it ran (log entry 87). -/
def unpackOk (l : List Byte) (k : Nat) : Bool :=
  if bitOf (le16 l (compAt k + 2)) 0 then
    match unpack 1 (compData l k) with
    | .done _ _ => true
    | .more _ => false
    | .fail _ => false
  else true

/-- check(bank) of R126: the first failure gives the result. -/
def checkBank (s : State) (b : Bool) : CheckRes :=
  let x := bankOf s b
  let l := x.bytes
  if x.erased then .empty
  else if !headerOk l then .format
  else if !signatureOk s l then .signature
  else if !masksOk s l then .mask
  else if decide ((pkgSvn l).toNat < s.boot.rollback.toNat) then .rollback
  else if !(List.range 4).all (fun k => hashOk l k) then .hash
  else if !(List.range 4).all (fun k => unpackOk l k) then .format
  else .good

/-- The unit's pair of revisions is among the entries in use of QUAL (R129). -/
def qualified (s : State) (l : List Byte) : Bool :=
  (List.range (le16 l 0x16).toNat).any (fun k => le16 l (0x100 + 2 * k) = s.hw.modRev.setWidth 8 ++ s.hw.sil.setWidth 8)

def pkgInfo (l : List Byte) : PkgInfo :=
  { ver0 := le16 l 8, ver1 := le16 l 10, hpv := le16 l 0x0C, lpv := le16 l 0x0E, tav := le16 l 0x10, mfv := le16 l 0x12, svn := le16 l 0x14 }

/-- The bank that is not running; in RECOVERY the one that is not preferred (R128, R135, R147). Where no bank runs outside
RECOVERY, as in SAFE after a failed power-on BIST, the manual does not say which is the other: the model takes the one not
preferred (log entry 87). -/
def otherBank (s : State) : Bool := !(s.boot.active.getD s.boot.pref)

/-! ### Registers -/

/-- CheckRes codes (Table 05-9). -/
def resCode : CheckRes → Nat
  | .notChecked => 0
  | .good => 1
  | .empty => 2
  | .format => 3
  | .signature => 4
  | .mask => 5
  | .rollback => 6
  | .hash => 7

/-- BOOT_STAT (Table 05-8). -/
def bootStat (s : State) : Word :=
  let b := s.boot
  pack 16 [(b.cause.toNat, 0), (b2n (b.active.getD false), 4), (b2n b.fallback, 5), (if b.trial then min 3 b.starts else 0, 6),
    (b2n b.reverted, 8), (resCode b.resA, 9), (resCode b.resB, 12), (b2n b.trial, 15)]

/-- IMG_CTL (Table 05-10). -/
def imgCtl (s : State) : Word :=
  let b := s.boot
  pack 16 [(b2n b.pref, 0), (b2n (b.active.getD false), 1), (b2n (isGood s false), 2), (b2n (isGood s true), 3),
    (b2n b.session.isSome, 4), (b2n s.host.imgRefused, 9)]

/-! ### RESET (R120, Table 05-2) -/

/-- The boot record with a new preferred bank (R132). -/
def writeRecord (x : Bool × Bool) (b : Boot) : Boot :=
  { b with pref := x.1, trial := x.2, starts := 0, pendingSel := none, recordDue := none }

/-- A mode-0 selection comes into force at the reset; a bank that was not running starts a trial (R132, R138). One that
PWRFAIL# kept from being programmed is not in the record: the boot ROM writes it when PWRFAIL# releases (R55, R134). -/
def applySelection (b : Boot) : Boot :=
  match b.selWaits with
  | some (some x) => { b with recordDue := some (x, b.active ≠ some x) }
  | some none => { b with pendingSel := none }
  | none =>
    match b.pendingSel with
    | none => b
    | some x => writeRecord (x, b.active ≠ some x) b

/-- The boot record, banks and what else of chapter 05 survives a reset. With the power what waits to be written is lost. -/
def bootAfterReset (cause : BitVec 4) (b : Boot) : Boot :=
  let b := applySelection (if cause = 1 then { b with selWaits := none, recordDue := none } else b)
  { Boot.atReset with
    cause := cause, pref := b.pref, trial := b.trial, starts := b.starts, recordDue := b.recordDue, resA := b.resA, resB := b.resB,
    bankA := b.bankA, bankB := b.bankB, rollback := b.rollback, challenge := b.challenge, jtagHold := b.jtagHold }

/-- Every block at its reset value, but for flash, factory record, power inputs, pins and memory. -/
def resetBlocks (cause : BitVec 4) (s : State) : State :=
  { State.reset with
    hw := s.hw, boot := bootAfterReset cause s.boot,
    pwr := { s.pwr with srcPref := 0, guardSteps := 0, guardWindows := 0, guardShed := false, held := none },
    therm := { Thermal.atReset with ceil := channelLimit s },
    pins := { s.pins with proofStep6 := false },
    tim := { TimeUnit.atReset with up := s.tim.up },
    cal := { Calib.atReset with
      overlay := s.cal.overlay, overlayOk := s.cal.overlayOk, offsets := if s.cal.overlayOk then s.cal.overlay else [] },
    mem := s.mem, free := s.free, pending := s.pending }

/-- Entry to RESET. A source that arises in RESET does not enter it again. -/
def enterReset (cause : BitVec 4) (s : State) : State := if s.mode = .reset then s else resetBlocks cause s

/-- The reset that a response announced (R138, Table 07-4). -/
def dueReset (s : State) : State := if s.boot.resetSoon then enterReset 3 s else s

def resetSoon (s : State) : State := s.setBoot { s.boot with resetSoon := true }

/-! ### The boot record -/

def endTrial (s : State) : State := s.setBoot { s.boot with trial := false, starts := 0 }

/-- The rollback counter raised; a stored GOOD of a bank below it becomes ROLLBACK (R131, R546). -/
def raiseRollback (svn : Byte) (s : State) : State :=
  if svn.toNat ≤ s.boot.rollback.toNat then s
  else
    let s := s.setBoot { s.boot with rollback := svn }
    let f := fun (b : Bool) (s : State) =>
      if isGood s b && decide ((pkgSvn (bankOf s b).bytes).toNat < svn.toNat) then putRes b .rollback s else s
    f true (f false s)

/-- What READY writes: the trial ends in success and the counter rises (R131, R132). -/
def readyWrites (svn : Byte) (s : State) : State :=
  let s := s.setBoot { s.boot with raisePending := none }
  raiseRollback svn (if s.boot.trial && s.boot.active = some s.boot.pref then endTrial s else s)

/-- No bank runs (R128). -/
def enterRecovery (s : State) : State :=
  (setMode .recovery s).setBoot { (setMode .recovery s).boot with active := none, running := none, startArmed := false }

/-- The bank checked, its result stored (R546). -/
def checkStored (b : Bool) (s : State) : State := putRes b (checkBank s b) s

/-- The bank runs (R129). -/
def bootFrom (b : Bool) (s : State) : State :=
  let l := (bankOf s b).bytes
  let p := pkgInfo l
  (s.setBoot { s.boot with active := some b, running := some p, unqual := !qualified s l }).setIsm { s.ism with lpv := p.lpv }

/-- R127, R132, R133: the choice of a bank. -/
def chooseBank (s : State) : State :=
  let b := s.boot.pref
  if s.boot.trial && decide (3 ≤ s.boot.starts) then
    let s := endTrial (s.setBoot { s.boot with pref := !b, reverted := true })
    let s := checkStored (!b) s
    if isGood s (!b) then bootFrom (!b) s else enterRecovery s
  else
    let s := if s.boot.trial then s.setBoot { s.boot with starts := s.boot.starts + 1 } else s
    let s := checkStored b s
    if isGood s b then bootFrom b s
    else
      let s := if s.boot.trial then endTrial (s.setBoot { s.boot with pref := !b }) else s
      let s := checkStored (!b) s
      if isGood s (!b) then bootFrom (!b) (s.setBoot { s.boot with fallback := true }) else enterRecovery s

/-- The choice waits for PWRFAIL# (R134), and is made once in a boot. -/
def chooseWhenFree (s : State) : State :=
  if s.mode = .boot && s.boot.bistDone && s.boot.active.isNone && !s.pwr.pwrfail then chooseBank s else s

/-! ### STANDBY (R51, R61, Table 05-7) -/

/-- PoE alone at class 1-3. -/
def poeStandby (s : State) : Bool := poeOnly s && decide (s.pwr.poeClass.toNat ≤ 3)

/-- Above 95 °C average. -/
def tooHot (s : State) : Bool := decide (12160 < s.therm.temp.toInt)

/-- The scheduler without tasks and with every executor idle. -/
def schedCleared (x : Sched) : Sched :=
  { x with tasks := [], entries := [], te0Busy := none, te1Busy := none, drainQ := [],
           cores := x.cores.map (fun e => (e.1, { e.2 with busy := none, draining := false, drained := false })) }

/-- Entry to STANDBY: channels deleted with REASON 7, their BYEs sent before the ports power down (R361), and what loses
its power at rest. Cell memory and its queues lose theirs (R51); the records of the event backlog, whose DRAM loses its
power too, are kept and drained as before, which the manual leaves open (log entry 76). -/
def enterStandby (s : State) : State :=
  let s := extPorts.foldl (fun s p => drainPort p s) (dropChans 7 (allChans s) s)
  let s := s.setSch (schedCleared s.sch)
  let s := s.setVcs []
  let s := s.setTen { s.ten with te0 := clearEngine s.ten.te0, te1 := clearEngine s.ten.te1 }
  let s := extPorts.foldl (fun s p => cageUnpowered p (portDown p 1 s)) s
  let s := s.setQm { Queues.atReset with retired := s.qm.retired }
  let s := s.setTdm (s.tdm.map (fun h => { h with aligned := false, badPulses := 0 }))
  let s := s.setUarts (List.replicate 8 Uart.atReset)
  let s := s.setDfl Deflate.atReset
  setMode .standby s

/-- A condition for STANDBY in a state that Table 05-7 lets leave for it. -/
def standbyDue (s : State) : State := if inService s && (poeStandby s || tooHot s) then enterStandby s else s

/-- STANDBY is left for BOOT; the booted bank is reloaded. -/
def exitStandby (s : State) : State :=
  if s.mode = .standby then (setMode .boot s).setBoot { (setMode .boot s).boot with bistDone := false } else s

/-! ### Exit from RESET (R62, R75, R83, R121, R142, R530) -/

/-- VIO by millivolts: the class latched at exit. -/
def vioClass (mv : Nat) : Option Bool := if mv < 1000 then none else some (decide (2400 ≤ mv))

/-- VIO lies in a class's range (Table 21-3). -/
def vioInRange (is33 : Bool) (mv : Nat) : Bool :=
  if is33 then decide (3000 ≤ mv) && decide (mv ≤ 3600) else decide (1620 ≤ mv) && decide (mv ≤ 1980)

def anySource (s : State) : Bool := s.pwr.ac.valid || s.pwr.dc.valid || s.pwr.poe.valid

/-- RESET may end: power, no boundary-scan hold, and after a loss of power a valid source. -/
def resetMayEnd (s : State) : Bool :=
  s.mode = .reset && s.pwr.powered && !s.boot.jtagHold && (s.boot.cause ≠ 1 || anySource s)

/-- BOOT begins; a summit takes address 0x0000 (R437). -/
def beginBoot (straps : BitVec 2) (vioMv : Nat) (s : State) : State :=
  let c := vioClass vioMv
  let s := s.setPins { s.pins with straps := straps, vioClass33 := c, vioIn := (match c with
    | some k => vioInRange k vioMv
    | none => false) }
  let d := Config.free64 s.free
  let s := s.draw
  let s := if straps = 2 then s.setIsm { s.ism with addr := some 0 } else s
  s.setBoot { s.boot with mode := .boot, challenge := d, startArmed := true, coldHold := false }

/-- A reset source ends; below −45 °C the module stays in RESET. -/
def resetEnd (straps : BitVec 2) (vioMv : Nat) (t : Word) (s : State) : State :=
  let s := dueReset s
  if !resetMayEnd s then s
  else if t.toInt + calEffective s 0x0100 < -5760 then s.setBoot { s.boot with coldHold := true }
  else beginBoot straps vioMv s

/-! ### Power-on BIST (R500, R511, Table 19-6) -/

def withdrawQuietCore (n : CoreNo) (s : State) : State :=
  if corePresent s n then putCore n { getCore s n with withdrawn := true } s else s

def withdrawQuietEngine (e : BitVec 1) (s : State) : State :=
  if enginePresent s e then s.setSch (if e = 0 then { s.sch with te0Gone := true } else { s.sch with te1Gone := true }) else s

/-- Units withdrawn by this BIST: those not withdrawn before. -/
def newlyBad (r : BistResult) (s : State) : List CoreNo × List (BitVec 1) :=
  (r.badCores.filter (fun n => corePresent s n && !(getCore s n).withdrawn), r.badEngines.filter (fun e => engineUp s e))

/-- Failing units withdrawn and cells retired, one run of tests 1-3 counted (R515). -/
def bistUnits (r : BistResult) (s : State) : State :=
  let bad := newlyBad r s
  let cells := ((r.badCells.map (fun c => c.toNat)).eraseDups).filter (fun c => decide (c < cellTotal))
  let s := recordTest 1 (bad.1.head?.map (fun n => n.toNat)) s
  let s := recordTest 2 (bad.2.head?.map (fun e => e.toNat)) s
  let s := recordTest 3 cells.head? s
  let s := bad.1.foldl (fun s n => withdrawQuietCore n s) s
  let s := bad.2.foldl (fun s e => withdrawQuietEngine e s) s
  pointsChanged (retireCells cells s)

/-- The switch forwarding queues, which the control firmware enables at BOOT; their LIMIT stays at its reset value
(Table 09-2, R352, log entry 72). -/
def enableForwarding (s : State) : State :=
  (List.range 32).foldl (fun s k =>
    let q : QueueNo := BitVec.ofNat 15 (32512 + k)
    putQ q { getQ s q with enable := true } s) s

/-- PWR_LIMIT set for the first time since RESET, or a change of it by what this BIST withdrew reported (R68). -/
def limitsFromBist (before : Word) (s : State) : State :=
  if s.boot.limitsOn then powerReport before s else s.setBoot { s.boot with limitsOn := true }

/-- BIST of one BOOT: on PoE alone at class 1-3 the module goes to STANDBY before it. -/
def powerOnBist (r : BistResult) (s : State) : State :=
  if s.mode ≠ .boot || s.boot.bistDone then s
  else if poeStandby s then enterStandby (s.setBoot { s.boot with limitsOn := true })
  else
    let before := pwrLimit s
    let s := limitsFromBist before (bistUnits r (enableForwarding (s.setBoot { s.boot with bistDone := true })))
    if r.safetyFail || r.dramFail || !s.hw.factoryOk then latchFc (fcStat s) (moduleSafe 0x50 s)
    else chooseWhenFree s

/-! ### READY -/

/-- The summit's search at entry to READY (R447). -/
def readySearch (s : State) : State :=
  if isSummit s && s.ism.autoSearch then
    (if s.ism.walk.isSome then s.setIsm { s.ism with searchDue := true } else startSearch 0xFFFF .host false s)
  else s

/-- Components have started (Table 05-7). -/
def bootDone (s : State) : State :=
  match s.boot.running with
  | none => s
  | some p =>
    if s.mode ≠ .boot || !s.boot.bistDone then s
    else
      let svn : Byte := p.svn.setWidth 8
      let pins := fcStat s
      let s := latchFc pins (s.setBoot { s.boot with mode := .ready, startArmed := false, wasReady := true })
      let s := s.setSaf { s.saf with qual := !s.boot.unqual && !s.boot.debug }
      let s := if s.pwr.pwrfail then s.setBoot { s.boot with raisePending := some svn } else readyWrites svn s
      let s := raise evBootDone [p.ver0, p.ver1, bootStat s, p.hpv] s
      standbyDue (readySearch (extPorts.foldl (fun s p => cageCheck p s) s))

/-! ### Power inputs -/

def modSrc (p : PowerIn) (f : PSource → PSource) (s : State) : State := putSrc p (f (srcOf s p)) s

/-- Selections that waited for PWRFAIL# are programmed (R55, R134). -/
def programSelection (s : State) : State :=
  let b := s.boot
  let b := match b.selWaits with
    | some v => { b with pendingSel := v, selWaits := none }
    | none => b
  s.setBoot (match b.recordDue with
    | some x => writeRecord x b
    | none => b)

/-- PWRFAIL# releases, and what waited for it is done (R55, R134, R506). -/
def releasePwrfail (s : State) : State :=
  if !s.pwr.pwrfail then s
  else
    let s := programSelection (s.setPwr { s.pwr with pwrfail := false })
    let s := match s.boot.raisePending with
      | some v => readyWrites v s
      | none => s
    let s := if s.cal.restoreTodo then restoreFactory s else s
    raisePwr (chooseWhenFree s)

/-- Sources declared lost at one moment (R44, R50, R53, R54): one PWR event reports them all. -/
def sourceLost (l : List PowerIn) (s : State) : State :=
  let was := activeSrc s
  let old := l.any (fun p => (srcOf s p).valid)
  let s := l.foldl (fun s p => modSrc p (fun x => { x with inRange := false, valid := false }) s) s
  if !old then s
  else
    let s := if anySource s then s else s.setPwr { s.pwr with activeAtLoss := was }
    let s := s.setPwr { s.pwr with srcCeil := srcCeilNow s }
    standbyDue (raisePwr (checkCeilings .power s))

/-- An input back in range supplies the bus at once (R542). -/
def inputReturn (p : PowerIn) (s : State) : State :=
  let s := modSrc p (fun x => { x with inRange := true }) s
  releasePwrfail (s.setPwr { s.pwr with powered := true, collapse := false })

/-- Shedding in progress is cancelled once the load fits (R32). -/
def cancelShedding (s : State) : State :=
  if s.led.shedding.isSome && !overCeiling s then endShedding s else s

/-- A source declared valid (R44, R49, R52): one that is valid already keeps its state, and PoE its class. -/
def sourceValid (p : PowerIn) (cls : BitVec 4) (s : State) : State :=
  if (srcOf s p).valid then s
  else
  let s := modSrc p (fun _ => { inRange := true, valid := true }) s
  let s := s.setPwr { s.pwr with
    powered := true, collapse := false, poeClass := if p = .poe then cls else s.pwr.poeClass, guardSteps := 0, guardWindows := 0,
    guardShed := false, activeAtLoss := none }
  let s := s.setPwr { s.pwr with srcCeil := srcCeilNow s }
  let s := releasePwrfail s
  let s := raisePwr (cancelShedding (checkCeilings .power s))
  if s.mode = .standby && p ≠ .poe then exitStandby s else standbyDue s

def anyInput (s : State) : Bool := s.pwr.ac.inRange || s.pwr.dc.inRange || s.pwr.poe.inRange

/-- The warning threshold (R53): only while no input supplies the bus. -/
def pwrfailAssert (s : State) : State :=
  if s.pwr.powered && !anyInput s && !s.pwr.pwrfail then raisePwr (s.setPwr { s.pwr with pwrfail := true }) else s

/-- An erase that brown-out ends leaves the bank EMPTY or FORMAT (R55): which of them is free. -/
def cutErase (s : State) : State :=
  match s.cmds.image.running, s.boot.session with
  | some c, some x =>
    if c.op = 0x0201 && (Config.free32 s.free).getLsbD 0 then (putBank x.bankB { erased := false, bytes := [] } s).draw
    else s.draw
  | _, _ => s

/-- The internal supply is gone: no power, and nothing that waited for PWRFAIL# is written any more. -/
def powerGone (s : State) : State :=
  let s := s.setBoot { s.boot with cause := 1, recordDue := none, jtagHold := false }
  let s := s.setPins { s.pins with tap := .testLogicReset, boundary := [] }
  s.setPwr { s.pwr with powered := false, pwrfail := false, collapse := false }

/-- Brown-out (R56): RESET with CAUSE 0x1, in which the pins take their reset states; then the internal supply collapses,
at the next BROWN_OUT or at the next cycle without a command (R80). A restore that waited is never made. -/
def brownOut (s : State) : State :=
  if anyInput s then s
  else if s.mode = .reset then powerGone s
  else
    let s := enterReset 1 (cutErase s)
    s.setPwr { s.pwr with pwrfail := false, collapse := true }

/-! ### The power guard (R52, R543) -/

/-- Power-sense items wait for this window (Table 19-3). -/
def powerWindow (s : State) : State := applyCal 0x0602 (applyCal 0x0601 (applyCal 0x0600 s))

/-- PD power of a class in mW (Table 02-3; classes 1-3 within its range). -/
def classPower (c : BitVec 4) : Nat :=
  match c.toNat with
  | 8 => 71300
  | 7 => 62000
  | 6 => 51000
  | 5 => 40000
  | 4 => 25500
  | 3 => 13000
  | 2 => 6490
  | _ => 3840

/-- The PoE input power as the monitor corrects it, times 10^6. -/
def correctedPower (mw : Nat) (s : State) : Int := (mw : Int) * (1000000 + calEffective s 0x0602)

/-- The mean of a window's samples exceeds the class power. -/
def overClass (mw : List Nat) (s : State) : Bool :=
  decide ((classPower s.pwr.poeClass : Int) * 1000000 * mw.length < correctedPower (sumOf id mw) s)

/-- A guard step: one step off the power-source ceiling, and the shedding that follows it (R32, R52). -/
def guardStep (s : State) : State :=
  let s := checkCeilings .power (s.setPwr { s.pwr with guardWindows := 0, guardSteps := s.pwr.guardSteps + 1 })
  raisePwr (s.setPwr { s.pwr with guardShed := s.led.shedding.isSome })

/-- A 100 ms window closes with the samples taken in it (R52). No window counts until the shedding of a step is complete. -/
def powerGuard (mw : List Nat) (s : State) : State :=
  let s := powerWindow s
  if !poeOnly s || s.pwr.held.isSome || s.mode = .reset then s
  else if s.pwr.guardShed || !overClass mw s then s.setPwr { s.pwr with guardWindows := 0 }
  else if s.pwr.guardWindows < 2 then s.setPwr { s.pwr with guardWindows := s.pwr.guardWindows + 1 }
  else guardStep s

/-! ### Temperature (R59-R62, R544) -/

/-- The thermal ceiling at a temperature in 1/128 °C. -/
def thermalAt (s : State) (t : Int) : Nat :=
  if t ≤ 9600 then channelLimit s
  else if 10880 < t then 0
  else channelLimit s - derateStep s * cdiv (t - 9600).toNat 128

/-- R60: down as soon as required, up only to the value 2 °C higher. -/
def thermalMove (s : State) (t : Int) : Nat :=
  let want := thermalAt s t
  if want ≤ s.therm.ceil then want else max s.therm.ceil (thermalAt s (t + 256))

def sampleWindow (s : State) : State := applyCal 0x0103 (applyCal 0x0102 (applyCal 0x0101 (applyCal 0x0100 s)))

/-- A new average in a state in which the module reports it. -/
def thermalReport (t : Int) (s : State) : State :=
  let before := pwrLimit s
  let c := thermalMove s t
  let s' := s.setTherm { s.therm with ceil := c }
  if c = s.therm.ceil then s'
  else raise evTemp [s'.therm.temp, BitVec.ofNat 16 c] (powerReport before (checkCeilings .thermal s'))

/-- A quotient rounded to the nearest whole number, halves away from zero. -/
def roundDiv (a : Int) (n : Nat) : Int :=
  if 0 ≤ a then (2 * a + n) / (2 * n) else -((-(2 * a) + n) / (2 * n))

/-- The average of the samples kept, in 1/128 °C (R59). -/
def meanSample (l : List (Nat × Int)) : Int := roundDiv (l.foldl (fun a x => a + x.2) 0) l.length

/-- The samples of the last second with a new one; those taken since BOOT began where a second has not passed (R544). -/
def samplesWith (v : Int) (s : State) : List (Nat × Int) :=
  s.therm.samples.filter (fun x => decide (uptime s < x.1 + 500000000)) ++ [(uptime s, v)]

/-- The ceiling follows a new average: directly until the first BOOT_DONE after RESET, under R60 from it on (R544). A BOOT
that follows STANDBY after that BOOT_DONE is under R60 as well (DESIGN CHOICE, log entry 83). -/
def followTemp (t : Int) (s : State) : State :=
  if s.boot.wasReady then thermalReport t s else s.setTherm { s.therm with ceil := thermalAt s t }

/-- A baseplate sample (R59-R62, R544). In RESET it only decides whether the module may start (R62). -/
def tempSample (raw : Word) (s : State) : State :=
  let s := sampleWindow s
  let v : Int := raw.toInt + calEffective s 0x0100
  if s.mode = .reset then
    let s := s.setTherm { s.therm with raw := raw }
    s.setBoot { s.boot with coldHold := s.boot.coldHold && decide (v < -5760) }
  else
    let was := s.therm.temp.toInt
    let l := samplesWith v s
    let t := meanSample l
    let s := followTemp t (s.setTherm { s.therm with raw := raw, samples := l, temp := BitVec.ofInt 16 t, sampled := true })
    if s.mode = .standby then
      -- any fall to 85 °C ends STANDBY, whatever led to it (DESIGN CHOICE, log entry 84), but not PoE at class 1-3 (R51)
      if decide (10880 < was) && decide (t ≤ 10880) && !poeStandby s then exitStandby s else s
    else standbyDue s

/-! ### Command SET_STATE and the state commands (R130, R144, R145, Table 05-7) -/

def setState (target : Nat) (s : State) : State × Word :=
  if proofRuns s then (s, stBadState)
  else
    match target, s.mode with
    | 5, .ready =>
      if s.host.strict && s.boot.unqual then (s, stSafetyLock)
      else (setMode (if wdrn s then .degraded else .run) s, stOk)
    | 5, .run => (s, stOk)
    | 5, .degraded => (s, stOk)
    | 4, .run => if s.led.chans.isEmpty then (setMode .ready s, stOk) else (s, stBadState)
    | 4, .degraded => if s.led.chans.isEmpty then (setMode .ready s, stOk) else (s, stBadState)
    | 4, .standby => if poeStandby s then (s, stPowerLimit) else (exitStandby s, stOk)
    | 4, .ready => (s, stOk)
    | 9, .ready => (enterStandby s, stOk)
    | 9, .standby => (s, stOk)
    | _, _ => (s, stBadState)

end Sys2Proof.Machine
end

