-- ==== Sys2Proof/Machine/ClockOps.lean ====
section
/-! DEFINITION. Clock loss (Table 04-3), the reference (R99-R101), VIO (R75, R530), watchdogs (R121, R177, R479),
JTAG (R97, R142) and the milestones of a boot (Table 05-3). -/

namespace Sys2Proof.Machine

/-! ### Clock loss -/

/-- A function withdrawn under R144: its flag is set, and RUN becomes DEGRADED. -/
def withdrawFunction (f : Clocks → Clocks) (s : State) : State := degrade (s.setClk (f s.clk))

/-- Channels under SRTP leave service for good; the manual gives this CH_STATE no REASON. -/
def srtpOut (c : ChanNo) (s : State) : State :=
  match findChan s c with
  | none => s
  | some x =>
    if x.prof.srtp && x.inService then
      let r := (Config.free32 s.free).toNat
      raiseChState c 0 r (modChan c (fun y => { y with inService := false }) s.draw)
    else s

def cryptoLost (s : State) : State :=
  let s := withdrawFunction (fun c => { c with cryptoLost := true }) s
  (allChans s).foldl (fun s c => srtpOut c s) s

/-- Ethernet PLL lost: the four ports and the Ismorlink transmit domain are down. -/
def ethPllLost (s : State) : State :=
  let s := s.setClk { s.clk with ethPll := false }
  let s := extPorts.foldl (fun s p => portDown p 3 s) s
  extPorts.foldl (fun s p => ismDown p 5 s) s

/-- REFIN in use leaves its range: the PLLs follow the TCXO (R100). -/
def refinLost (s : State) : State :=
  if s.clk.refUsed = 0 then s
  else raiseHoldover true 2 (s.setClk { s.clk with refUsed := 0, refLost := true })

/-- REFIN in range for 10 s after its selection or its loss (R100). -/
def refinAccepted (s : State) : State :=
  if s.clk.refSel = 0 || s.clk.refUsed ≠ 0 then s
  else
    let back := s.clk.refLost
    let s := s.setClk { s.clk with refUsed := s.clk.refSel, refLost := false }
    if back then raiseHoldover false 2 s else s

def clockLost (d : ClockDomain) (s : State) : State :=
  match d with
  | .tcxo => moduleSafe 0x30 s
  | .vigilOscillator => moduleSafe 0x30 s
  | .corePll => moduleSafe 0x30 s
  | .systemPll => moduleSafe 0x30 s
  | .timePll => moduleSafe 0x30 s
  | .lockstepPair => moduleSafe 0x30 s
  | .vigilChecker => moduleSafe 0x30 s
  | .scheduler => moduleSafe 0x30 s
  | .cellMemory => moduleSafe 0x30 s
  | .dramChannel => moduleSafe 0x30 s
  | .fabricQuadrant => moduleSafe 0x30 s
  | .voiceCore n => withdrawCore n s
  | .tensorEngine e => withdrawEngine e s
  | .ethernetPll => ethPllLost s
  | .refin => refinLost s
  | .tdmClk n => loseHwy n 1 s
  | .ethReceive p => portDown p 1 s
  | .ismReceive p => ismDown p 1 s
  | .uart => withdrawFunction (fun c => { c with uartLost := true }) s
  | .deflate => withdrawFunction (fun c => { c with deflateLost := true }) s
  | .crypto => cryptoLost s
  | .hostPort => (withdrawFunction (fun c => { c with hostLost := true }) s) |> fun s => s.setHost { s.host with live := false }

/-! ### VIO -/

/-- One highway declared down for VIO, with its event (R75). -/
def vioHwy (n : HwyNo) (s : State) : State :=
  if (getHwy s n).aligned then loseHwy n 4 s else raiseLink 2 n.toNat 0 4 s

def hwyNumbers : List HwyNo := (List.range 32).map (BitVec.ofNat 5)

/-- VIO out of its class's range for 10 µs. The order of the 33 LINK records is not given: highways 0 to 31 first, then
KIND 4 (log entry 88). -/
def vioOut (s : State) : State :=
  if s.pins.vioClass33.isNone || !s.pins.vioIn then s
  else
    let s := s.setPins { s.pins with vioIn := false }
    if s.mode = .reset then s else raiseLink 4 0 0 1 (hwyNumbers.foldl (fun s n => vioHwy n s) s)

/-- VIO back in the class's range for 10 ms. -/
def vioRestored (s : State) : State :=
  if s.pins.vioClass33.isNone || s.pins.vioIn then s
  else latchFc (fcStat s) (raiseLink 4 0 1 0 (s.setPins { s.pins with vioIn := true }))

/-- The class latched late, when the exit from RESET latched none (R530). FC_STICKY takes the pins that assert (R250). -/
def vioLatch (is33 : Bool) (s : State) : State :=
  if s.mode = .reset || s.pins.vioClass33.isSome then s
  else latchFc (fcStat s) (s.setPins { s.pins with vioClass33 := some is33, vioIn := true })

/-! ### Reset sources -/

/-- RESET# low for a time: 10 µs reset, less than 1 µs do nothing, and between them either may happen (R78). -/
def resetPin (lowNs : Nat) (s : State) : State :=
  if lowNs < 1000 then s
  else if 10000 ≤ lowNs then enterReset 2 s
  else
    let hit := Config.freeBit s.free
    let s := s.draw
    if hit then enterReset 2 s else s

/-- 60 s without READY (R121): the timer runs in BOOT alone. -/
def startTimer (s : State) : State := if s.boot.startArmed && s.mode = .boot then enterReset 4 s else s

/-- HWDOG runs: a PERIOD other than 0, the port live (R177). -/
def hwdogRuns (s : State) : Bool := s.host.live && s.host.hwdogPeriod ≠ 0

def hwdogHalf (s : State) : State := if hwdogRuns s then s.setHost { s.host with irqWdog := true } else s

def hostWdog (s : State) : State := if hwdogRuns s then enterReset 6 s else s

/-- The TAP controller after one TCK edge with the given level of TMS (IEEE 1149.1). -/
def tapNext (t : TapState) (tms : Bool) : TapState :=
  match t with
  | .testLogicReset => if tms then .testLogicReset else .runTestIdle
  | .runTestIdle | .updateDr | .updateIr => if tms then .selectDr else .runTestIdle
  | .selectDr => if tms then .selectIr else .captureDr
  | .captureDr | .shiftDr => if tms then .exit1Dr else .shiftDr
  | .exit1Dr => if tms then .updateDr else .pauseDr
  | .pauseDr => if tms then .exit2Dr else .pauseDr
  | .exit2Dr => if tms then .updateDr else .shiftDr
  | .selectIr => if tms then .testLogicReset else .captureIr
  | .captureIr | .shiftIr => if tms then .exit1Ir else .shiftIr
  | .exit1Ir => if tms then .updateIr else .pauseIr
  | .pauseIr => if tms then .exit2Ir else .pauseIr
  | .exit2Ir => if tms then .updateIr else .shiftIr

def setTap (t : TapState) (s : State) : State := s.setPins { s.pins with tap := t }

/-- No boundary-scan instruction is selected any more. -/
def jtagFree (s : State) : State := s.setBoot { s.boot with jtagHold := false }

/-- EXTEST, INTEST or CLAMP selected: the functional logic is held in RESET (R97). -/
def jtagHeld (s : State) : State :=
  let s := setTap .updateIr (enterReset 7 s)
  s.setBoot { s.boot with jtagHold := true }

/-- TCK edges; Test-Logic-Reset deselects every instruction. -/
def tapClock (tms : Bool) (s : State) : State :=
  let t := tapNext s.pins.tap tms
  let s := setTap t s
  if t = .testLogicReset then jtagFree s else s

/-- The boundary register with the cells that a scan gave. -/
def scanned (l : List (J1Pin × Option Bool)) (b : AL J1Pin (Option Bool)) : AL J1Pin (Option Bool) :=
  l.foldl (fun b e => alSet b e.1 e.2) b

/-- The test access port (R96, R97). It works in every powered state. -/
def jtag (j : JtagOp) (s : State) : State :=
  if !s.pwr.powered then s
  else
    match j with
    | .other => jtagFree (setTap .updateIr s)
    | .extest => jtagHeld s
    | .intest => jtagHeld s
    | .clamp => jtagHeld s
    | .boundary l => s.setPins { s.pins with tap := .updateDr, boundary := scanned l s.pins.boundary }
    | .clocks l => l.foldl (fun s b => tapClock b s) s
    | .trst => jtagFree (setTap .testLogicReset s)

/-- A debug unlock token (R142). -/
def unlockToken (slot : BitVec 2) (sig : BitVec 512) (s : State) : State :=
  if s.mode ≠ .reset && s.pwr.powered && !revokedSlot s slot.toNat && Config.tokenValid slot s.hw.uid s.boot.challenge sig then
    (s.setBoot { s.boot with debug := true }).setSaf { s.saf with qual := false }
  else s

/-! ### Milestones -/

/-- The host port goes live (R153). -/
def hostPortStart (s : State) : State :=
  if s.mode = .reset || s.clk.hostLost then s else s.setHost { s.host with live := true }

/-- The Ismorlink link layer starts and the bypass opens (R89). -/
def bypassOpen (s : State) : State := if s.mode = .reset then s else s.setBoot { s.boot with linkLayer := true }

end Sys2Proof.Machine
end

