-- ==== Sys2Proof/Machine/Boot.lean ====
section
/-! DEFINITION. Meanings of the rows of power, temperature, reset, boot, clocks and pins (chapters 02-05) that
are not host commands. -/

namespace Sys2Proof.Machine

/-- SOURCE_LOST (R44, R50, R54). -/
def execSourceLost (l : List PowerIn) (s : State) : Host.Outcome State Fault Refusal := .next (sourceLost l s)

/-- INPUT_RETURN (R55, R542). -/
def execInputReturn (p : PowerIn) (s : State) : Host.Outcome State Fault Refusal := .next (inputReturn p s)

/-- SOURCE_VALID (R44, R45, R49, R52). -/
def execSourceValid (p : PowerIn) (cls : BitVec 4) (s : State) : Host.Outcome State Fault Refusal := .next (sourceValid p cls s)

/-- PWRFAIL (R53, R82). -/
def execPwrfail (s : State) : Host.Outcome State Fault Refusal := .next (pwrfailAssert s)

/-- BROWN_OUT (R56). -/
def execBrownOut (s : State) : Host.Outcome State Fault Refusal := .next (brownOut s)

/-- POWER_GUARD (R52, R543). -/
def execPowerGuard (milliwatts : List Nat) (s : State) : Host.Outcome State Fault Refusal := .next (powerGuard milliwatts s)

/-- TEMP_SAMPLE (R59-R62, R544). -/
def execTempSample (t : Word) (s : State) : Host.Outcome State Fault Refusal := .next (tempSample t s)

/-- RESET_PIN (R78). -/
def execResetPin (lowNs : Nat) (s : State) : Host.Outcome State Fault Refusal := .next (resetPin lowNs s)

/-- RESET_END (R121, R62, R75, R83, R142). -/
def execResetEnd (straps : BitVec 2) (vioMv : Nat) (t : Word) (s : State) : Host.Outcome State Fault Refusal :=
  .next (resetEnd straps vioMv t s)

/-- POWER_ON_BIST (R500, R511, Table 19-6). -/
def execPowerOnBist (r : BistResult) (s : State) : Host.Outcome State Fault Refusal := .next (powerOnBist r s)

/-- BOOT_DONE (R121, R131, R132). -/
def execBootDone (s : State) : Host.Outcome State Fault Refusal := .next (bootDone s)

/-- START_TIMER (R121). -/
def execStartTimer (s : State) : Host.Outcome State Fault Refusal := .next (startTimer s)

/-- VIGIL_WDOG (R479). -/
def execVigilWdog (s : State) : Host.Outcome State Fault Refusal := .next (enterReset 5 s)

/-- HWDOG_HALF (R177). -/
def execHwdogHalf (s : State) : Host.Outcome State Fault Refusal := .next (hwdogHalf s)

/-- HOST_WDOG (R177). -/
def execHostWdog (s : State) : Host.Outcome State Fault Refusal := .next (hostWdog s)

/-- JTAG_INSTRUCTION (R97). -/
def execJtagInstruction (j : JtagOp) (s : State) : Host.Outcome State Fault Refusal := .next (jtag j s)

/-- UNLOCK_TOKEN (R142). -/
def execUnlockToken (slot : BitVec 2) (sig : BitVec 512) (s : State) : Host.Outcome State Fault Refusal :=
  .next (unlockToken slot sig s)

/-- VIO_OUT (R75). -/
def execVioOut (s : State) : Host.Outcome State Fault Refusal := .next (vioOut s)

/-- VIO_RESTORED (R75). -/
def execVioRestored (s : State) : Host.Outcome State Fault Refusal := .next (vioRestored s)

/-- VIO_LATCH (R530). -/
def execVioLatch (is33 : Bool) (s : State) : Host.Outcome State Fault Refusal := .next (vioLatch is33 s)

/-- CLOCK_LOST (R118, Table 04-3). -/
def execClockLost (d : ClockDomain) (s : State) : Host.Outcome State Fault Refusal :=
  .next (if s.mode = .reset then s else clockLost d s)

/-- REFIN_LOST (R100). -/
def execRefinLost (s : State) : Host.Outcome State Fault Refusal := .next (refinLost s)

/-- REFIN_ACCEPTED (R100). -/
def execRefinAccepted (s : State) : Host.Outcome State Fault Refusal := .next (refinAccepted s)

/-- HOST_PORT_START (R153, Table 05-3). -/
def execHostPortStart (s : State) : Host.Outcome State Fault Refusal := .next (hostPortStart s)

/-- BYPASS_OPEN (R89, Table 05-3). -/
def execBypassOpen (s : State) : Host.Outcome State Fault Refusal := .next (bypassOpen s)

end Sys2Proof.Machine
end

