-- ==== Sys2Proof/Machine/CellQueues.lean ====
section
/-! DEFINITION. Meanings of the rows of cell memory and queues (chapter 09). -/

namespace Sys2Proof.Machine

/-- OPEN (R234, R243, R244). -/
def execOpenPkt (m : Master) (q : QueueNo) (s : State) : Host.Outcome State Fault Refusal :=
  .next (if hasQueuePort s m then openPkt m q s else s)

/-- PRODUCER_DATA (R235, R240, R241). -/
def execProducerData (m : Master) (w : W32) (s : State) : Host.Outcome State Fault Refusal :=
  .next (if hasQueuePort s m then dataWrite m w s else s)

/-- CLOSE (R237, R238). -/
def execClosePkt (m : Master) (valid : BitVec 3) (bad : Bool) (s : State) : Host.Outcome State Fault Refusal :=
  .next (if hasQueuePort s m then closePkt m valid.toNat bad none s else s)

/-- SELECT (R242-R244). -/
def execSelectQ (m : Master) (q : QueueNo) (deselect : Bool) (s : State) : Host.Outcome State Fault Refusal :=
  .next (if hasQueuePort s m then selectQueue m q deselect s else s)

/-- CONSUMER_DATA: a read of the DATA word (R242). The word a host read returns is the aperture's latest word. -/
def execConsumerData (m : Master) (s : State) : Host.Outcome State Fault Refusal :=
  if hasQueuePort s m then
    let (s, v) := dataRead m s
    .next (if m = .host then s.setHost { s.host with lastAperture := v } else s)
  else .next s

/-- RELEASE (R242, R245). -/
def execReleasePkt (m : Master) (s : State) : Host.Outcome State Fault Refusal :=
  .next (if hasQueuePort s m then releaseHead m s else s)

/-- QFLUSH (R245, R246). -/
def execQflush (q : QueueNo) (s : State) : Host.Outcome State Fault Refusal := .next (flushQueue q s)

/-- CELL_RETURN (R245). -/
def execCellReturn (s : State) : Host.Outcome State Fault Refusal := .next (cellReturn s)

/-- STALE: an open packet without a write for 1 ms is closed as bad and counted (R241). -/
def execStale (m : Master) (s : State) : Host.Outcome State Fault Refusal :=
  .next (if (getProd s m).q.isSome then rewindPkt m (s.setQm { s.qm with stale := satAdd s.qm.stale 1 }) else s)

end Sys2Proof.Machine
end

