-- ==== Sys2Proof/Machine/DeflateOps.lean ====
section
/-! DEFINITION. The DEFLATE engine (chapter 15): the host ring, its jobs and the control region. -/

namespace Sys2Proof.Machine

/-! ### Descriptors (Table 15-5) -/

structure DfDesc where
  op : Nat
  wrap : Nat
  level : Nat
  endMode : Nat
  cont : Bool
  inAddr : Nat
  inLen : Nat
  outLen : Nat
  outAddr : Nat
  ctxAddr : Nat
  reserved : Bool             -- a reserved bit is set
deriving DecidableEq, Repr

def dfAddr (s : State) (a : Nat) : Nat := (memRead32 s.mem a).toNat + (memRead s.mem (a + 4)).toNat * 2 ^ 32

/-- Bits above [39:0] of an address field. -/
def dfHigh (s : State) (a : Nat) : Bool := memRead32 s.mem (a + 4) &&& 0xFFFFFF00 ≠ 0

def readDesc (s : State) (a : Nat) : DfDesc :=
  let w := memRead32 s.mem a
  { op := fld w 0 2, wrap := fld w 2 2, level := fld w 4 4, endMode := fld w 8 2, cont := bitOf w 10,
    inAddr := dfAddr s (a + 8), inLen := (memRead32 s.mem (a + 0x10)).toNat, outLen := (memRead32 s.mem (a + 0x14)).toNat,
    outAddr := dfAddr s (a + 0x18), ctxAddr := dfAddr s (a + 0x20),
    reserved := fld w 11 21 ≠ 0 || dfHigh s (a + 8) || dfHigh s (a + 0x18) || dfHigh s (a + 0x20) ||
      memRead32 s.mem (a + 0x34) ≠ 0 || memRead32 s.mem (a + 0x38) ≠ 0 || memRead32 s.mem (a + 0x3C) ≠ 0 }

/-- Within the host window of DRAM (R185, R400). -/
def inWindow (a n : Nat) : Bool := decide (0xF0000000 ≤ a) && decide (a + n ≤ 0x100000000)

def dfSizeMax : Nat := 268435456

def descFieldsOk (d : DfDesc) : Bool :=
  !d.reserved && decide (d.op ≤ 1) && decide (d.wrap ≤ 2) &&
  (d.op = 1 || (decide (1 ≤ d.level) && decide (d.level ≤ 9) && decide (d.endMode ≤ 2)))

def outRangeOk (d : DfDesc) : Bool := decide (d.outLen ≤ dfSizeMax) && inWindow d.outAddr d.outLen

def descRangeOk (d : DfDesc) : Bool :=
  decide (d.inLen ≤ dfSizeMax) && inWindow d.inAddr d.inLen && outRangeOk d &&
  (d.ctxAddr = 0 || (inWindow d.ctxAddr 36864 && d.ctxAddr % 64 = 0))

def ringBase (x : Deflate) : Nat := x.ringHi.toNat * 2 ^ 32 + x.ringLo.toNat

def ringOk (x : Deflate) : Bool := ringBase x % 4096 = 0 && inWindow (ringBase x) 4096

/-- The address of the descriptor that CONS names. -/
def descAddr (x : Deflate) : Nat := ringBase x + x.cons.toNat % 64 * 64

/-! ### Running a job -/

/-- A job's outcome: a status of Table 15-4 with the output, the input used, the check value, END_SEEN and the streams left open. -/
structure DfResult where
  status : Nat
  out : List Byte
  used : Nat
  check : W32
  endSeen : Bool
  ctxs : List DfCtx
deriving DecidableEq, Repr

def dfFail (st : Nat) (l : List DfCtx) : DfResult := ⟨st, [], 0, 0, false, l⟩

/-- The open stream of a context. -/
def openStream (l : List DfCtx) (d : DfDesc) : Option DfCtx :=
  l.find? (fun c => c.addr.toNat = d.ctxAddr && c.compress = (d.op = 0 : Bool) && c.wrap.toNat = d.wrap)

def closeCtx (l : List DfCtx) (d : DfDesc) : List DfCtx := l.filter (fun c => c.addr.toNat ≠ d.ctxAddr)

def setCtx (l : List DfCtx) (d : DfDesc) (c : DfCtx) : List DfCtx := closeCtx l d ++ [c]

/-- A compress job (R402-R405). Blocks of a stream whose coder still holds input, and what leaves the coder with END 0,
are free values within the bound. -/
def compressJob (l : List DfCtx) (d : DfDesc) (prior : Option DfCtx) (data : List Byte) : DfResult :=
  let before := match prior with
    | some c => c.input
    | none => []
  let whole := match prior with
    | some c => c.whole
    | none => true
  let free := (Config.deflated d.level d.endMode d.wrap prior.isNone before data).take (blocksBound data.length - if d.endMode = 0 then 5 else 0)
  let body := if d.endMode ≠ 0 && whole then deflateBody d.level d.endMode d.wrap before data else free
  let all := before ++ data
  let out := (if prior.isNone then wrapHeader d.wrap d.level else []) ++ body ++ (if d.endMode = 2 then wrapTrailer d.wrap all else [])
  let left := if d.endMode = 2 || d.ctxAddr = 0 then closeCtx l d
    else setCtx l d { addr := BitVec.ofNat 40 d.ctxAddr, compress := true, wrap := BitVec.ofNat 2 d.wrap, input := all, produced := 0,
                      whole := d.endMode = 1 && whole }
  if d.outLen < out.length then dfFail 2 l else ⟨1, out, data.length, checkOf d.wrap all, false, left⟩

/-- A decompress job (R406-R409). -/
def decompressJob (l : List DfCtx) (d : DfDesc) (prior : Option DfCtx) (data : List Byte) : DfResult :=
  let before := match prior with
    | some c => c.input
    | none => []
  let given := match prior with
    | some c => c.produced
    | none => 0
  match unpack d.wrap (before ++ data) with
  | .fail st => dfFail st (if st = 3 ∨ st = 4 then closeCtx l d else l)  -- R408, R409
  | .done out used =>
    if d.outLen < out.length - given then dfFail 2 l
    else ⟨1, out.drop given, used - before.length, checkOf d.wrap out, true, closeCtx l d⟩
  | .more out =>
    if d.ctxAddr = 0 then dfFail 3 l
    else if d.outLen < out.length - given then dfFail 2 l
    else
      let c : DfCtx := { addr := BitVec.ofNat 40 d.ctxAddr, compress := false, wrap := BitVec.ofNat 2 d.wrap,
                         input := before ++ data, produced := out.length, whole := false }
      ⟨1, out.drop given, data.length, checkOf d.wrap out, false, setCtx l d c⟩

def runJob (s : State) (d : DfDesc) : DfResult :=
  let l := s.dfl.ctxs
  if !descFieldsOk d then dfFail 5 l
  else if !ringOk s.dfl || !descRangeOk d then dfFail 6 l
  else
    let prior := if d.cont && d.ctxAddr ≠ 0 then openStream l d else none
    if d.cont && prior.isNone then dfFail 5 l
    else if d.op = 0 && d.ctxAddr = 0 && d.endMode ≠ 2 then dfFail 5 l
    else
      let data := fetch s d.inAddr d.inLen
      if d.op = 0 then compressJob l d prior data else decompressJob l d prior data

/-- Undefined bytes, from a fresh free value. -/
def undefBytes (s : State) (n : Nat) : List Byte := (List.range n).map (fun i => Config.anyByte s.free i)

/-- The output buffer of a job: its output, or undefined bytes where the job failed (R408). The context area holds the
coder's own form of the stream. -/
def writeJob (d : DfDesc) (r : DfResult) (s : State) : State :=
  if r.status = 1 then
    let s := store s d.outAddr r.out
    if d.ctxAddr = 0 then s else (store s d.ctxAddr (undefBytes s 36864)).draw
  else if outRangeOk d then (store s d.outAddr (undefBytes s d.outLen)).draw
  else s

/-- OUT_USED, IN_USED, CHECK, then STATUS (R401). -/
def writeStatus (a : Nat) (r : DfResult) (s : State) : State :=
  let m := memWrite32 s.mem (a + 0x2C) (BitVec.ofNat 32 r.out.length) 15
  let m := memWrite32 m (a + 0x28) (BitVec.ofNat 32 r.used) 15
  let m := memWrite32 m (a + 0x30) r.check 15
  s.withMem (memWrite32 m (a + 4) (pack 32 [(r.status, 0), (b2n r.endSeen, 8)]) 15)

def countJob (r : DfResult) (s : State) : State :=
  let x := s.dfl
  s.setDfl (if r.status = 1 then
    { x with jobsOk := satAdd x.jobsOk 1, bytesIn := satAdd x.bytesIn r.used, bytesOut := satAdd x.bytesOut r.out.length, ctxs := r.ctxs }
  else { x with jobsFailed := satAdd x.jobsFailed 1, ctxs := r.ctxs })

def nextCons (s : State) : State := s.setDfl { s.dfl with cons := s.dfl.cons + 1 }

/-- A job waits and is served. -/
def dfBusy (s : State) : Bool := s.dfl.enable && s.dfl.prod != s.dfl.cons && !s.clk.deflateLost

/-- The job at CONS runs to its end. -/
def deflateJob (s : State) : State :=
  if !dfBusy s then s
  else
    let a := descAddr s.dfl
    let d := readDesc s a
    let r := runJob s d
    let s := countJob r (writeJob d r s)
    nextCons (if inWindow a 64 then writeStatus a r s else s)

/-- CTL.ABORT: the running and every submitted job end ABORTED (R410). -/
def abortOne (running : Bool) (s : State) : State :=
  let a := descAddr s.dfl
  let r := dfFail 7 s.dfl.ctxs
  let s := countJob r s
  let s := if running && inWindow a 64 then writeJob (readDesc s a) r s else s
  nextCons (if inWindow a 64 then writeStatus a r s else s)

def abortRest : Nat → State → State
  | 0, s => s
  | n + 1, s => if s.dfl.prod = s.dfl.cons then s else abortRest n (abortOne false s)

def deflateAbort (s : State) : State :=
  if s.clk.deflateLost || s.dfl.prod = s.dfl.cons then s else abortRest 127 (abortOne s.dfl.enable s)

/-! ### The region (Table 15-6, R412) -/

def writeProd (v : BitVec 7) (s : State) : State :=
  if 64 < (v - s.dfl.cons).toNat then s.setDfl { s.dfl with prodErr := true } else s.setDfl { s.dfl with prod := v }

def deflateRead (o : Nat) (s : State) : Option (State × W32) :=
  let x := s.dfl
  match o with
  | 0x00 => some (s, x.ringLo)
  | 0x04 => some (s, x.ringHi.setWidth 32)
  | 0x08 => some (s, x.prod.setWidth 32)
  | 0x0C => some (s, x.cons.setWidth 32)
  | 0x10 => some (s, pack 32 [(b2n x.enable, 0)])
  | 0x14 => some (s, pack 32 [(b2n (dfBusy s), 0), (b2n s.clk.deflateLost, 1), (b2n x.prodErr, 2)])
  | 0x18 => some (s.setDfl { x with jobsOk := 0 }, x.jobsOk)
  | 0x1C => some (s.setDfl { x with jobsFailed := 0 }, x.jobsFailed)
  | 0x20 => some (s.setDfl { x with bytesIn := 0 }, x.bytesIn)
  | 0x24 => some (s.setDfl { x with bytesOut := 0 }, x.bytesOut)
  | _ => none

def deflateWrite (o : Nat) (v : W32) (be : BitVec 4) (s : State) : Except AccErr State :=
  let x := s.dfl
  match o with
  | 0x00 => .ok (if x.enable then s else s.setDfl { x with ringLo := mergeBe x.ringLo v be })
  | 0x04 => .ok (if x.enable || !be.getLsbD 0 then s else s.setDfl { x with ringHi := v.setWidth 8 })
  | 0x08 => .ok (if be.getLsbD 0 then writeProd (v.setWidth 7) s else s)
  | 0x10 =>
    .ok (if be.getLsbD 0 then
        let s := s.setDfl { x with enable := bitOf v 0 }
        if bitOf v 1 then deflateAbort s else s
      else s)
  | 0x14 => .ok (if be.getLsbD 0 && bitOf v 2 then s.setDfl { x with prodErr := false } else s)
  | 0x0C | 0x18 | 0x1C | 0x20 | 0x24 => .ok s  -- RO and RC words ignore the write (Table 00-2)
  | _ => .error .absent

end Sys2Proof.Machine
end

