-- ==== Sys2Proof/Machine/UartOps.lean ====
section
/-! DEFINITION. The serial ports (chapter 16). -/

namespace Sys2Proof.Machine

def getUart (s : State) (n : Nat) : Uart := s.uarts.getD n Uart.atReset

def putUart (n : Nat) (u : Uart) (s : State) : State := s.setUarts (setAt s.uarts n u)

/-! ### FORMAT (Table 16-4) -/

def uMode (u : Uart) : Nat := fld u.format 5 2
def uCard (u : Uart) : Bool := uMode u = 3
def uBits (u : Uart) : Nat := 5 + fld u.format 0 2
def uParity (u : Uart) : Nat := fld u.format 2 2
def uOverwrite (u : Uart) : Bool := bitOf u.format 7
def uDeen (u : Uart) : Bool := bitOf u.format 8 && !uCard u
def uRxde (u : Uart) : Bool := bitOf u.format 9
def uConv (u : Uart) : Nat := fld u.format 10 2
def uEsig (u : Uart) : Bool := bitOf u.format 12 && uCard u
/-- DE_TAIL in bit times, outside card mode. -/
def uTail (u : Uart) : Nat := fld u.word3 8 8
/-- RETRY, in card mode (R431). -/
def uRetry (u : Uart) : Nat := fld u.word3 8 3

/-- The level of Un_DE: driver enable, or the card's reset (Table 16-3). -/
def uDe (u : Uart) : Bool := u.enabled && (if uCard u then u.rstLevel else u.de)

/-! ### Transmitting (R416, R418, R421, R427) -/

/-- An idle transmitter takes the next character, unless a break or a collision holds it. -/
def txStart (u : Uart) : Uart :=
  if !u.enabled || u.sending.isSome || u.brk || (uMode u = 2 && u.fColl) then u
  else
    match u.tx with
    | [] => u
    | c :: r => { u with sending := some c, tx := r, repeats := 0, noRepeat := false, de := uDeen u, deTail := false }

/-- With nothing left to send, the tail of Un_DE begins; a tail of 0 ends at the stop boundary. -/
def txTail (u : Uart) : Uart :=
  if u.sending.isSome || !u.tx.isEmpty || !u.de then u
  else if uTail u = 0 then { u with de := false, deTail := false }
  else { u with deTail := true }

def uartWrite1 (c : Byte) (u : Uart) : Uart :=
  if !u.enabled then u
  else if 32 ≤ u.tx.length then { u with fTxovf := true }
  else txStart { u with tx := u.tx ++ [c] }

/-- The character in progress has been sent; under T=0 error handling a low level at 11 ETU asks for it again. -/
def charSent (err : Bool) (u : Uart) : Uart :=
  match u.sending with
  | none => u
  | some _ =>
    let u := if u.repeats = 0 then { u with txChars := satAdd u.txChars 1 } else u
    if uEsig u && err then
      if u.noRepeat then txStart { u with sending := none, repeats := 0, noRepeat := false }
      else if u.repeats < uRetry u then { u with repeats := u.repeats + 1, repeatCount := satAdd u.repeatCount 1 }
      else { u with sending := none, repeats := 0, fTxerr := true, tx := [] }
    else txTail (txStart { u with sending := none, repeats := 0, noRepeat := false })

def collide (u : Uart) : Uart :=
  if u.enabled && uMode u = 2 && u.sending.isSome then txTail { u with fColl := true, sending := none, repeats := 0, tx := [] } else u

def txFlush (u : Uart) : Uart := txTail { u with tx := [], noRepeat := u.noRepeat || decide (u.repeats ≠ 0) }

def rxFlush (u : Uart) : Uart := { u with rx := [] }

/-! ### Receiving (R415, R419, R421, R422, R425, R427) -/

/-- Levels as a number, first level least significant. -/
def lsbFirst : List Bool → Nat
  | [] => 0
  | b :: r => b2n b + 2 * lsbFirst r

def onesOf (l : List Bool) : Nat := sumOf b2n l

/-- A character into the receive FIFO (R422). -/
def storeChar (x : RxChar) (u : Uart) : Uart :=
  let u := { u with fPerr := u.fPerr || x.perr, fFerr := u.fFerr || x.ferr, fBrk := u.fBrk || x.brk,
                    errors := satAdd u.errors (b2n x.perr + b2n x.ferr) }
  if u.rx.length < 32 then { u with rx := u.rx ++ [x], rxChars := satAdd u.rxChars 1 }
  else
    let u := { u with fOvr := true, ovrCount := satAdd u.ovrCount 1 }
    if uOverwrite u then { u with rx := u.rx.take 31 ++ [x], rxChars := satAdd u.rxChars 1 } else u

/-- A character outside card mode: data bits, parity bit if any, first stop bit. -/
def plainChar (l : List Bool) (u : Uart) : Uart :=
  let n := uBits u
  let d := l.take n
  let par := uParity u ≠ 0
  let p := l.getD n true
  let stop := l.getD (if par then n + 1 else n) true
  let wrong := par && ((onesOf d + b2n p) % 2 = (if uParity u = 1 then 1 else 0))
  let isBrk := !stop && onesOf d = 0 && (!par || !p)
  storeChar { c := BitVec.ofNat 8 (if isBrk then 0 else lsbFirst d), perr := wrong && !isBrk, ferr := !stop, brk := isBrk } { u with waitHigh := isBrk }

/-- Data and parity of a card character under a convention: eight data bits and an even parity bit. -/
def cardChar (inverse : Bool) (l : List Bool) : Byte × Bool :=
  let d := (List.range 8).map (fun i => (l.getD i true) != inverse)
  let p := (l.getD 8 true) != inverse
  (BitVec.ofNat 8 (lsbFirst (if inverse then d.reverse else d)), (onesOf d + b2n p) % 2 = 0)

/-- The levels of TS under the two conventions (ISO/IEC 7816-3). -/
def tsDirect : List Bool := [true, true, false, true, true, true, false, false, true]
def tsInverse : List Bool := [true, true, false, false, false, false, false, false, true]

def cardReceive (l : List Bool) (u : Uart) : Uart :=
  if u.tsWait then
    let l9 := (List.range 9).map (fun i => l.getD i true)
    if l9 = tsDirect then storeChar ⟨0x3B, false, false, false⟩ { u with tsWait := false, inverse := false, convDet := 1 }
    else if l9 = tsInverse then storeChar ⟨0x3F, false, false, false⟩ { u with tsWait := false, inverse := true, convDet := 2 }
    else
      let (c, good) := cardChar false l
      storeChar ⟨c, !good, false, false⟩ { u with tsWait := false, inverse := false, tserr := true }
  else
    let (c, good) := cardChar u.inverse l
    if uEsig u && !good then { u with repeatCount := satAdd u.repeatCount 1, errors := satAdd u.errors 1 }
    else storeChar ⟨c, !good, false, false⟩ u

/-- The receiver listens (R419, R421). -/
def listening (u : Uart) : Bool :=
  u.enabled && !(uMode u = 2 && u.sending.isSome) && !(!uCard u && !uRxde u && u.de)

def charReceived (l : List Bool) (u : Uart) : Uart :=
  if !listening u then u else if uCard u then cardReceive l u else plainChar l u

/-! ### CTRL (Table 16-5) -/

def setBrk (on : Bool) (u : Uart) : Uart := txStart { u with brk := on }

/-- The card's reset level; a rise restarts the detection of TS (R425). -/
def setRst (level : Bool) (u : Uart) : Uart :=
  if level && !u.rstLevel && uCard u && uConv u = 2 then { u with rstLevel := level, tsWait := true, inverse := false, convDet := 0, tserr := false }
  else { u with rstLevel := level }

def setClken (on : Bool) (u : Uart) : Uart := { u with clken := on }

/-- A change of a port; with the UART clock lost every port stands still (R430, Table 04-3). -/
def onUart (n : Nat) (f : Uart → Uart) (s : State) : State :=
  if s.clk.uartLost then s else putUart n (f (getUart s n)) s

/-! ### UART_CFG (R428, R431) -/

def formatOk (n : Nat) (f w3 ck : Word) : Bool :=
  let card := fld f 5 2 = 3
  fld f 14 2 = 0 &&
  (if card then
    (n = 1 || n = 2) && fld f 10 2 ≠ 3 && !(bitOf f 12 && bitOf f 13) && fld w3 11 5 = 0 && inRange ck 5 400
   else fld f 2 2 ≠ 3 && fld f 10 4 = 0)

def chkUartCfg (a : List Word) (_ : State) : Check :=
  need 6 a (upTo (arg a 0) 7 && inRange (arg a 1) 1 65535 && formatOk (arg a 0).toNat (arg a 2) (arg a 3) (arg a 4) && upTo (arg a 5) 1)

/-- A port configured: FIFOs and flags empty, characters in progress abandoned; counters and CTRL stay. -/
def configure (a : List Word) (u : Uart) : Uart :=
  let inv := fld (arg a 2) 5 2 = 3 && fld (arg a 2) 10 2 = 1
  { u with
    enabled := bitOf (arg a 5) 0, div := arg a 1, format := arg a 2, word3 := arg a 3, ckdiv := arg a 4,
    rx := [], tx := [], sending := none, repeats := 0, noRepeat := false, de := false, deTail := false,
    inverse := inv, tsWait := false, convDet := 0, tserr := false, waitHigh := false,
    fOvr := false, fPerr := false, fFerr := false, fBrk := false, fColl := false, fTxerr := false, fTxovf := false }

def runUartCfg (c : Issued) (s : State) : State × Reply :=
  answer stOk (putUart (arg c.args 0).toNat (configure c.args (getUart s (arg c.args 0).toNat)) s)

/-! ### The region of a port (Table 16-5) -/

def rxWord (x : RxChar) : W32 := pack 32 [(x.c.toNat, 0), (b2n x.perr, 9), (b2n x.ferr, 10), (b2n x.brk, 11), (1, 15)]

/-- A read of DATA pops a character. -/
def uartPop (n : Nat) (s : State) : State × W32 :=
  let u := getUart s n
  match u.rx with
  | [] => (s, 0)
  | x :: r => (putUart n { u with rx := r } s, rxWord x)

/-- STAT; the level at the line is an input. -/
def uartStat (u : Uart) (line : Bool) : W32 :=
  pack 32 [(u.rx.length, 0), (u.tx.length, 8), (b2n u.sending.isSome, 16), (b2n (uDe u), 17), (b2n line, 18),
    (b2n u.enabled, 19), (u.convDet.toNat, 20), (b2n u.tserr, 22)]

def uartFlags (u : Uart) : W32 :=
  pack 32 [(b2n u.fOvr, 0), (b2n u.fPerr, 1), (b2n u.fFerr, 2), (b2n u.fBrk, 3), (b2n u.fColl, 4), (b2n u.fTxerr, 5), (b2n u.fTxovf, 6)]

def uartRead (n o : Nat) (s : State) : Option (State × W32) :=
  let u := getUart s n
  match o with
  | 0x00 => some (uartPop n s)
  | 0x04 => some (s.draw, uartStat u (!j1Enabled s || Config.freeBit s.free))  -- released, the pull-up gives the idle level (R430)
  | 0x08 => some (s, uartFlags u)
  | 0x0C => some (s, pack 32 [(b2n u.brk, 0), (b2n u.rstLevel, 1), (b2n u.clken, 2)])
  | 0x10 => some (putUart n { u with rxChars := 0 } s, u.rxChars)
  | 0x14 => some (putUart n { u with txChars := 0 } s, u.txChars)
  | 0x18 => some (putUart n { u with errors := 0 } s, u.errors)
  | 0x1C => some (putUart n { u with ovrCount := 0 } s, u.ovrCount)
  | 0x20 => some (putUart n { u with repeatCount := 0 } s, u.repeatCount)
  | 0x24 => some (s, u.ckdiv ++ u.div)
  | 0x28 => some (s, u.word3 ++ u.format)
  | _ => none

/-- Flags written with 1 clear; a cleared COLL lets the transmitter go on (R421). -/
def clearFlags (v : W32) (u : Uart) : Uart :=
  txStart { u with
    fOvr := u.fOvr && !bitOf v 0, fPerr := u.fPerr && !bitOf v 1, fFerr := u.fFerr && !bitOf v 2, fBrk := u.fBrk && !bitOf v 3,
    fColl := u.fColl && !bitOf v 4, fTxerr := u.fTxerr && !bitOf v 5, fTxovf := u.fTxovf && !bitOf v 6 }

def writeCtrl (v : W32) (u : Uart) : Uart :=
  let u := setClken (bitOf v 2) (setRst (bitOf v 1) (setBrk (bitOf v 0) u))
  let u := if bitOf v 3 then txFlush u else u
  if bitOf v 4 then rxFlush u else u

def ctrlWord (u : Uart) : W32 := pack 32 [(b2n u.brk, 0), (b2n u.rstLevel, 1), (b2n u.clken, 2)]

def uartWrite (n o : Nat) (v : W32) (be : BitVec 4) (s : State) : Except AccErr State :=
  match o with
  | 0x00 => .ok (if be.getLsbD 0 then onUart n (uartWrite1 (v.setWidth 8)) s else s)
  | 0x08 => .ok (onUart n (clearFlags (v &&& beMask be)) s)
  | 0x0C => .ok (if be.getLsbD 0 then onUart n (writeCtrl v) s else s)
  | 0x04 | 0x10 | 0x14 | 0x18 | 0x1C | 0x20 | 0x24 | 0x28 => .ok s  -- RO and RC words ignore the write (Table 00-2)
  | _ => .error .absent

end Sys2Proof.Machine
end

