-- ==== Sys2Proof/Machine/Bus.lean ====
section
/-! DEFINITION. The internal address space (Table 06-7): one word read or written by a master, as the aperture,
the voice cores and the control firmware see it. -/

namespace Sys2Proof.Machine

def dramEnd : Nat := 0x200000000

/-- Memory of a voice core: program, X and Y (R258). -/
def inCoreMem (s : State) (a : Nat) : Bool :=
  decide (0x2000000000 ≤ a) && decide (a < 0x2000000000 + 0x100000 * coreCount s) && decide ((a - 0x2000000000) % 0x100000 < 0x30000)

def inCellMem (a : Nat) : Bool := decide (0x3000000000 ≤ a) && decide (a < 0x3000000000 + 256 * cellTotal)

def inTensorMem (s : State) (a : Nat) : Bool := decide (0x3100000000 ≤ a) && decide (a < 0x3100000000 + 0x400000 * engineCount s)

/-- Memory that holds bytes: DRAM, core, cell and tensor memory. -/
def inMemory (s : State) (a : Nat) : Bool := decide (a < dramEnd) || inCoreMem s a || inCellMem a || inTensorMem s a

/-! ### The engine status window (R312, Table 11-10) -/

def slotWindow (s : State) (k : Nat) : W32 :=
  match alFind s.ten.slots k with
  | some m => pack 32 [(1, 0), (fld m.mfv 8 8, 8), ((arg m.tuNb 0).toNat, 16)]
  | none => 0

/-- A read of the status window at offset `o` from 0x3F_F000. -/
def tensorStatRead (e : BitVec 1) (o : Nat) (s : State) : Option (State × W32) :=
  let x := getEngine s e
  if o = 0 then
    some (putEngine e { x with flushed := false, ovf := false, inv := false } s,
      pack 32 [(b2n (serving s (.te e)).isSome, 0), (b2n x.flushed, 1), (b2n x.ovf, 2), (b2n x.inv, 3), (b2n (engineGone s e), 4)])
  else if o = 4 then some (putEngine e { x with tasks := 0 } s, x.tasks)
  else if o = 8 then some (putEngine e { x with jobErr := 0 } s, x.jobErr)
  else if o = 0xC then some (s, x.lastErr)
  else if o = 0x10 then some (s, x.lastCycles)
  else if o = 0x14 then some (s, x.lastStatus)
  else if 0x44 ≤ o ∧ o < 0x80 then some (s, slotWindow s ((o - 0x40) / 4))
  else none

/-! ### Control regions -/

/-- The region of an address at or above 0x38_0000_0000: its number and the offset in it. -/
def regionOf (a : Nat) : Nat × Nat := (a / 0x10000000, a % 0x10000000)

def ctlRead (m : Master) (r o : Nat) (s : State) : Option (State × W32) :=
  match r with
  | 0x380 => schRead m o s
  | 0x381 => qmRead m o s
  | 0x382 => timeRead o s
  | 0x383 => deflateRead o s
  | 0x384 => if o < 0x8000 then uartRead (o / 0x1000) (o % 0x1000) s else none
  | 0x385 => ismRead o s
  | 0x386 => (fiRead o s).map (fun v => (s, v))
  | 0x387 => swRead o s
  | 0x388 => tdmRead o s
  | 0x3F0 => (vigilRead o s).map (fun v => (s, v))
  | _ => none

def ctlWrite (m : Master) (r o : Nat) (v : W32) (be : BitVec 4) (s : State) : Except AccErr State :=
  match r with
  | 0x380 => schWrite m o v be s
  | 0x381 => qmWrite m o v be s
  | 0x382 => timeWrite o v be s
  | 0x383 => deflateWrite o v be s
  | 0x384 => if o < 0x8000 then uartWrite (o / 0x1000) (o % 0x1000) v be s else .error .absent
  | 0x385 => ismWrite o v be s
  | 0x386 => .error .prot
  | 0x387 => swWrite o v be s
  | 0x388 => tdmWrite o s
  | 0x3F0 => .error .prot
  | _ => .error .absent

/-! ### One access (R166-R170) -/

def busRead (m : Master) (a : Nat) (s : State) : Except AccErr (State × W32) :=
  if a % 4 ≠ 0 then .error .align
  else if inTensorMem s a ∧ (a - 0x3100000000) % 0x400000 ≥ 0x3FF000 then
    match tensorStatRead (BitVec.ofNat 1 ((a - 0x3100000000) / 0x400000)) ((a - 0x3100000000) % 0x400000 - 0x3FF000) s with
    | some r => .ok r
    | none => .error .absent
  else if inMemory s a then .ok (s, readWord s a)
  else
    match ctlRead m (regionOf a).1 (regionOf a).2 s with
    | some r => .ok r
    | none => .error .absent

def busWrite (m : Master) (a : Nat) (v : W32) (be : BitVec 4) (s : State) : Except AccErr State :=
  if a % 4 ≠ 0 then .error .align
  else if inTensorMem s a then
    if (a - 0x3100000000) % 0x400000 < 0x200000 ∨ 0x3FF000 ≤ (a - 0x3100000000) % 0x400000 then .error .prot
    else .ok (s.withMem (memWrite32 s.mem a v be))
  else if inMemory s a then .ok (s.withMem (memWrite32 s.mem a v be))
  else ctlWrite m (regionOf a).1 (regionOf a).2 v be s

end Sys2Proof.Machine
end

