-- ==== Sys2Proof/Machine/ImgOps.lean ====
section
/-! DEFINITION. Image sessions (R135-R140, R147, R191, R192) and the version report (R546). -/

namespace Sys2Proof.Machine

/-- SCOPE of a command marked S: 0 to 2, and only 0 on a spur (R191). -/
def scopeOk (s : State) (v : Word) : Bool := if isSummit s then upTo v 2 else v = 0

/-! ### The local part of each command: a status, or none while it goes on -/

/-- IMG_BEGIN (R135). -/
def imgBeginLocal (s : State) : State × Option Word :=
  if s.boot.session.isSome || s.pwr.pwrfail then (s, some stBusy)
  else
    let b := otherBank s
    let s := match s.boot.active with
      | some a => if s.boot.pref = b then s.setBoot { s.boot with pref := a } else s
      | none => s
    let s := putRes b .empty (putBank b Bank.blank s)
    (s.setBoot { s.boot with session := some ⟨b, 0⟩ }, none)

/-- IMG_DATA (R136). -/
def imgDataLocal (a : List Word) (s : State) : State × Option Word :=
  match s.boot.session with
  | none => (s, some stBadState)
  | some x =>
    let n := (arg a 3).toNat
    if (arg2 a 1).toNat ≠ x.count then (s, some stBadParam)
    else if bankMax < x.count + n then (s, some stBadLength)
    else if s.pwr.pwrfail then (s, some stBusy)
    else
      let k := bankOf s x.bankB
      let s := putBank x.bankB { erased := false, bytes := k.bytes ++ wordBytes (a.drop 4) n } s
      (s.setBoot { s.boot with session := some { x with count := x.count + n } }, some stOk)

/-- IMG_COMMIT closes the session (R137); the check takes its time. -/
def imgCommitLocal (s : State) : State × Option Word :=
  match s.boot.session with
  | none => (s, some stBadState)
  | some _ => (s.setBoot { s.boot with session := none }, none)

/-- Table 05-6. -/
def commitStatus : CheckRes → Word
  | .good => stOk
  | .signature | .hash => stSignature
  | .mask => stVersion
  | .rollback => stRollback
  | .notChecked | .empty | .format => stBadLength

/-- A selection (R138): that of the running bank, where it is preferred already, cancels one not yet in force. -/
def selectBank (b : Bool) (s : State) : State :=
  let v := if s.boot.active = some b && s.boot.pref = b then none else some b
  s.setBoot (if s.pwr.pwrfail then { s.boot with selWaits := some v } else { s.boot with pendingSel := v })

/-- IMG_SELECT (R138). -/
def imgSelectLocal (b : Bool) (s : State) : State × Option Word :=
  if isGood s b then (selectBank b s, some stOk) else (s, some stBadParam)

/-! ### Scope -/

/-- Completion time of a broadcast in ns; for IMG_DATA and IMG_SELECT Table 07-4 gives none. -/
def bcastTime (op : Word) (s : State) : W32 :=
  if op = 0x0201 then 4000000000 else if op = 0x0203 then 3000000000 else Config.free32 s.free

/-- The command goes out to every spur, and the summit gathers (R461). -/
def startBroadcast (c : Issued) (s : State) : State :=
  let ports := trainedDn s
  let g : Gather := { op := c.op, tag := c.tag, waiting := ports, own := if arg c.args 0 = 1 then some 0xFFFF else none,
                      counts := ⟨0, 0, 0⟩, atSummit := true }
  let t := now s + bcastTime c.op s
  let s := s.draw.setIsm { s.ism with gathers := s.ism.gathers.filter (fun x => x.tag ≠ c.tag) ++ [g] }
  sendDown c.tag (.bcast c.op c.tag c.args t) s

/-- The local result of a command with its scope: the response, or a part of the broadcast result (R192). -/
def imgResult (c : Issued) (st : Word) (s : State) : State × Reply :=
  if arg c.args 0 = 0 then (s, some (st, if st = stOk then [st, 0, 0, 0] else [])) else goesOn (ownBroadcast c.tag st s)

/-- An image command: its local part where the scope has one, and the broadcast where it has spurs. -/
def runImage (f : State → State × Option Word) (c : Issued) (s : State) : State × Reply :=
  let k := arg c.args 0
  let s := if k = 0 then s else startBroadcast c s
  if k = 1 then goesOn (settleGather c.tag s)
  else
    match f s with
    | (s, some st) => imgResult c st s
    | (s, none) => goesOn s

def chkImgBegin (a : List Word) (s : State) : Check := need 1 a (scopeOk s (arg a 0))
def runImgBegin (c : Issued) (s : State) : State × Reply := runImage imgBeginLocal c s

def chkImgData (a : List Word) (s : State) : Check :=
  let n := (arg a 3).toNat
  if a.length < 4 then some stBadLength
  else if n < 1 || 2040 < n then some stBadParam
  else need (4 + (n + 1) / 2) a (scopeOk s (arg a 0))

def runImgData (c : Issued) (s : State) : State × Reply := runImage (imgDataLocal c.args) c s

def chkImgCommit (a : List Word) (s : State) : Check := need 1 a (scopeOk s (arg a 0))
def runImgCommit (c : Issued) (s : State) : State × Reply := runImage imgCommitLocal c s

def chkImgSelect (a : List Word) (s : State) : Check := need 3 a (scopeOk s (arg a 0) && upTo (arg a 1) 1 && upTo (arg a 2) 1)

/-- In mode 1 the reset follows the response; on a summit that gathers, the gathered one. -/
def runImgSelect (c : Issued) (s : State) : State × Reply :=
  let (s, r) := runImage (imgSelectLocal (arg c.args 1 = 1)) c s
  (match r with
   | some (st, _) => if st = stOk && arg c.args 2 = 1 then resetSoon s else s
   | none => s, r)

/-- The command's own part is in progress: an erase or a check. A command of SCOPE 1 has none, and one that goes on for
the spurs alone has its own result already (R140, R192). -/
def localRuns (c : Issued) (s : State) : Bool :=
  (c.op = 0x0201 || c.op = 0x0203) && (arg c.args 0 = 0 || s.ism.gathers.any (fun g => g.tag = c.tag && g.own.isNone))

/-- The end of a long image command (R135, R137): while PWRFAIL# is asserted a result is not written (R546). -/
def imgFinish (c : Issued) (s : State) : State × Reply :=
  if !localRuns c s then goesOn s
  else if c.op = 0x0201 then imgResult c stOk s
  else if s.pwr.pwrfail then goesOn s
  else
    let b := otherBank s
    let s := checkStored b s
    imgResult c (commitStatus (resOf s b)) s

/-- IMG_CTL.SWITCH (R147). -/
def switchWrite (keyed : Bool) (s : State) : State :=
  let b := otherBank s
  if keyed && isGood s b then resetSoon (selectBank b s)
  else s.setHost { s.host with imgRefused := true }

/-! ### GET_VERSIONS (R128, R546) -/

def versionWords (s : State) : List Word :=
  let b := otherBank s
  let l := (bankOf s b).bytes
  let run := s.boot.running.getD ⟨0, 0, 0, 0, 0, 0, 0⟩
  [run.ver0, run.ver1] ++ (if isGood s b then [le16 l 8, le16 l 10] else [0, 0]) ++ [run.hpv, run.lpv, run.tav, run.mfv]

end Sys2Proof.Machine
end

