-- ==== Sys2Proof/Machine/ChCmds.lean ====
section
/-! DEFINITION. The channel commands (Table 07-4, R189, R190, R195, R342) but for CH_KEYS. -/

namespace Sys2Proof.Machine

def argChan (a : List Word) : ChanNo := (arg a 0).setWidth 13

/-- The words of a profile are in order by themselves (R182); what they need of the module's state is judged later. -/
def chkProfile (a : List Word) (s : State) : Check :=
  need 23 a (profileOk a (profileOf a) && decide ((argChan a).toNat < channelLimit s))

/-- A command of one channel and no other word. -/
def chkChan (a : List Word) (s : State) : Check := need 1 a (decide ((arg a 0).toNat < channelLimit s))

/-! ### CH_CREATE (R19, R30, R189, R220, R359, R363, R465) -/

def chkChCreate (a : List Word) (s : State) : Check := chkProfile a s

/-- The store has room for a channel's first graphs (R220). -/
def graphsFit (s : State) (p : Profile) : Bool :=
  let k := fun (b : Bool) => b2n b
  let n := 2 + k (hasTones p) + k (p.ecTail ≠ 0) + k (hasTones p) + k (p.models ≠ 0 || p.cmodel ≠ 0) + 2
  decide (n ≤ freePlaces s)

/-- Fax relay of a new channel. -/
def FaxRelay.start : FaxRelay := ⟨false, false, none, 0, 0, [], none, []⟩

def liveStart : Live := { misses := 0, lastWrong := false, exempt := false }

/-- A new channel's record. SEED, RTP sequence number and timestamp are drawn at random. -/
def newChan (s : State) (c : ChanNo) (p : Profile) (e : BitVec 1) : Chan :=
  { no := c, prof := p, nextProf := none, neuralZero := false, phase := BitVec.ofNat 6 (choosePhase s),
    seed := drawSeed s c, lu := luCost p, tu := tuCost s p, te := e, port := (bindPort s p).getD 0,
    inService := !p.srtp, keysLate := false, safe := none, byeSent := false, rx := 0, tx := 0, lost := 0, late := 0,
    discards := 0, authFail := 0, tagFail := 0, liveFail := 0, benign := 0, ec := Canceller.start, fax := FaxRelay.start,
    tones := [], rtpEvent := none, jb := newJitter p, bgUp := Config.background, bgDown := Config.background, frameNo := 0xFFFF,
    downBuilt := false, upBuilt := false, downs := [], downDone := false, refs := [], played := true, playing := .idle,
    playPos := 0, ups := [], packed := [], packNext := 0, upRecorded := true, txGap := false, quietFrames := 0,
    liveDown := liveStart, liveUp := liveStart, rtpSeq := (Config.free32 (s.free + 1)).setWidth 16, rtpTs := Config.free32 (s.free + 2),
    dtmf := none, rxCtx := none, rxOld := none, txCtx := none, neural := [] }

/-- A channel queue bound and enabled with its 32 cells (Table 09-2). -/
def enableQueue (q : QueueNo) (s : State) : State := putQ q { getQ s q with enable := true, limit := 32 } s

/-- Ticks of list 0 until the channel's first frame tick. -/
def firstDelay (s : State) (phase : Nat) : Nat :=
  let r := (phase + 40 - listNow s 0 % 40) % 40
  if r = 0 then 40 else r

/-- The channel enters the ledger, with its queues and its list 0 entry (R203). -/
def addChan (x : Chan) (s : State) : State :=
  let s := s.setLed { s.led with chans := s.led.chans ++ [x], lastSeeds := alSet s.led.lastSeeds x.no x.seed }
  let s := enableQueue (egressQ x.no) (enableQueue (ingressQ x.no) s)
  let s := (insertEntry 0 0 0 (firstDelay s x.phase.toNat) 40 (some x.no) s).1
  pointsChanged s

/-- The result words of CH_CREATE and CH_MODIFY. -/
def chanResult (x : Chan) : List Word := [x.phase.setWidth 16, BitVec.ofNat 16 x.lu, BitVec.ofNat 16 x.tu]

def runChCreate (c : Issued) (s : State) : State × Reply :=
  let ch := argChan c.args
  let p := profileOf c.args
  if (findChan s ch).isSome || !profileFits s ch p then answer stBadParam s
  else
    match workRefusesCreate s p.hwy, s.led.shedding with
    | some st, _ => answer st s
    | none, some why => answer (shedStatus why) s
    | none, none =>
      match fitLoad s ch (luCost p) (tuCost s p) none with
      | .error st => answer st s
      | .ok e =>
        if almanacSize ≤ s.sch.entries.length then answer stNoResource s  -- R216
        else if !graphsFit s p then answer stSchedFull s
        else
          let x := newChan s ch p e
          answerOk (chanResult x) (addChan x (s.drawN 3))

/-! ### CH_MODIFY (R28, R30, R190) -/

def chkChModify (a : List Word) (s : State) : Check := chkProfile a s

/-- What a CH_MODIFY may not change. -/
def fixedPart (p : Profile) : HwyNo × Byte × BitVec 10 × Bool := (p.hwy, p.slot, p.group, p.priority)

def runChModify (c : Issued) (s : State) : State × Reply :=
  let ch := argChan c.args
  let p := profileOf c.args
  match findChan s ch with
  | none => answer stBadParam s
  | some x =>
    if x.safe.isSome then answer stBadState s
    else if fixedPart p ≠ fixedPart x.prof || !profileFits s ch p then answer stBadParam s
    else
      let lu := luCost p
      let tu := tuCost s p
      match (if x.lu < lu || x.tu < tu then s.led.shedding else none) with
      | some why => answer (shedStatus why) s
      | none =>
        match fitLoad s ch lu tu (if tu = x.tu then some x.te else none) with
        | .error st => answer st s
        | .ok e =>
          let y := { x with nextProf := some p, lu := lu, tu := tu, te := e, neuralZero := x.neuralZero || decide (e ≠ x.te) }
          answerOk (chanResult y) (pointsChanged (putChan y s))

/-! ### CH_DELETE (R247) -/

def chkChDelete (a : List Word) (s : State) : Check := chkChan a s

/-- Deletion waits for the channel's next frame tick while a task of it is in service. -/
def runChDelete (c : Issued) (s : State) : State × Reply :=
  let ch := argChan c.args
  match findChan s ch with
  | none => answer stBadParam s
  | some _ => if chanInService s ch then goesOn s else answer stOk (removeChan ch s)

/-! ### CH_QUERY (R342) -/

def chkChQuery (a : List Word) (s : State) : Check := chkChan a s

/-- The STATE word of Table 12-4. -/
def chanState (x : Chan) : Word :=
  pack 16 [(b2n x.inService, 0), (b2n x.fax.active, 2), (b2n x.safe.isSome, 3), (b2n x.ec.erlLow, 4), (x.ec.dis.scope.toNat, 5)]

def runChQuery (c : Issued) (s : State) : State × Reply :=
  match findChan s (argChan c.args) with
  | none => answer stBadParam s
  | some x => answerOk ([chanState x, x.phase.setWidth 16] ++ profileWords x.no x.prof) s

/-! ### CH_STATS (R195, Table 07-5) -/

def chkChStats (a : List Word) (s : State) : Check := need 2 a (decide ((arg a 0).toNat < channelLimit s) && upTo (arg a 1) 1)

/-- The fourteen words of Table 07-5. -/
def statsWords (x : Chan) : List Word :=
  words2 x.rx ++ words2 x.tx ++ words2 x.lost ++ words2 x.late ++ words2 x.discards ++ words2 x.authFail ++
  [BitVec.ofNat 16 (5 * x.jb.held.length), pack 16 [(b2n x.ec.erlLow, 0), (b2n x.safe.isSome, 1)]]

def clearStats (x : Chan) : Chan := { x with rx := 0, tx := 0, lost := 0, late := 0, discards := 0, authFail := 0 }

def runChStats (c : Issued) (s : State) : State × Reply :=
  match findChan s (argChan c.args) with
  | none => answer stBadParam s
  | some x => answerOk (statsWords x) (if arg c.args 1 = 1 then putChan (clearStats x) s else s)

end Sys2Proof.Machine
end

