-- ==== Sys2Proof/Machine/LoadOps.lean ====
section
/-! DEFINITION. TASK_LOAD (R289, R290) and MODEL_LOAD (R313, R314). -/

namespace Sys2Proof.Machine

def objectAddr (a : List Word) : Nat := (arg a 0).toNat + (arg a 1).toNat * 65536 + (arg a 2).toNat * 4294967296

/-- ADDR and LENGTH lie in the DRAM window of R185; a field out of range is BAD_PARAM before anything else (R182). -/
def objectRange (a : List Word) : Bool :=
  decide (0xF0000000 ≤ objectAddr a) && decide (objectAddr a + (arg2 a 3).toNat ≤ 0x100000000)

def objectBytes (s : State) (a : List Word) : Option (List Byte) :=
  if objectRange a then some (fetch s (objectAddr a) (arg2 a 3).toNat) else none

def loadLength (a : List Word) : Nat := (arg2 a 3).toNat

/-- The same major version, and a minor no higher than the module's. -/
def versionFits (v own : Word) : Bool := v >>> 8 = own >>> 8 && decide ((v.setWidth 8).toNat ≤ (own.setWidth 8).toNat)

def runningInfo (s : State) : PkgInfo := s.boot.running.getD ⟨0, 0, 0, 0, 0, 0, 0⟩

/-! ### TASK_LOAD -/

/-- ENTRY or IVEC inside the code. -/
def inCode (o words : Nat) : Bool := o % 16 = 0 && decide (o < 16 * words)

/-- The checks of R290 step 1 on the object's bytes. -/
def taskObjectOk (l : List Byte) : Bool :=
  let h := fun (o : Nat) => (le16 l o).toNat
  let words := h 0x12
  decide (0x20 ≤ l.length) && le32 l 0 = 0x4B534154 && decide (1 ≤ words) && decide (words ≤ 2048) &&
  decide (l.length = 0x20 + 16 * words) && le32 l 0x18 = crc32c (l.drop 0x20) && decide (h 6 < 4) && le32 l 0x1C = 0 &&
  decide (1 ≤ (le32 l 8).toNat) && decide ((le32 l 8).toNat ≤ 1048576) && decide (1 ≤ h 0x0C) &&
  decide (3 ≤ h 0x0E) && decide (h 0x0E ≤ 7) && decide (0x8000 ≤ h 0x10) && decide (h 0x10 ≤ 0xFFF0) && h 0x10 % 16 = 0 &&
  decide (h 0x10 + 16 * words ≤ 0x10000) && inCode (h 0x14) words &&
  (if bitOf (le16 l 6) 1 then inCode (h 0x16) words else h 0x16 = 0)

/-- The class entry that an object gives. -/
def taskClass (l : List Byte) : TClass :=
  let pm := le16 l 0x10
  { stopOnOvr := bitOf (le16 l 6) 0, defLevel := (le16 l 0x0E).setWidth 3, budget := (le32 l 8).setWidth 21,
    entry := pm + le16 l 0x14, ivec := if bitOf (le16 l 6) 1 then some (pm + le16 l 0x16) else none,
    ovrLimit := le16 l 0x0C, pmOffset := pm, codeWords := (le16 l 0x12).toNat }

def taskExists (s : State) (k : Nat) : Bool := s.sch.tasks.any (fun t => t.cls.toNat = k)

/-- PM ranges of two classes overlap. -/
def pmOverlap (a b : TClass) : Bool :=
  decide (a.pmOffset.toNat < b.pmOffset.toNat + 16 * b.codeWords) && decide (b.pmOffset.toNat < a.pmOffset.toNat + 16 * a.codeWords)

/-- Voice cores present and not withdrawn. -/
def liveCores (s : State) : List Nat := (List.range (coreCount s)).filter (fun n => !(getCore s (BitVec.ofNat 7 n)).withdrawn)

/-- The code in every core, then the class entry, with OVR = 0 and the class not stopped (R222). -/
def installTask (k : Nat) (l : List Byte) (s : State) : State :=
  let c := taskClass l
  let s := (liveCores s).foldl (fun s n => store s (coreBase n + c.pmOffset.toNat) (l.drop 0x20)) s
  s.setSch { s.sch with classes := alSet s.sch.classes k c, ovr := alErase s.sch.ovr k, stopped := s.sch.stopped.filter (fun x => x ≠ k) }

/-- The class loses its code, and its range is free. -/
def unloadTask (k : Nat) (s : State) : State :=
  s.setSch { s.sch with classes := alErase s.sch.classes k, ovr := alErase s.sch.ovr k, stopped := s.sch.stopped.filter (fun x => x ≠ k) }

/-- TASK_LOAD's checks in the order of R290, and its effect. -/
def taskLoad (a : List Word) (s : State) : Except Word State :=
  let k := (arg a 5).toNat
  if k < 32 ∨ 63 < k then .error stBadParam
  else if loadLength a = 0 then (if taskExists s k then .error stBusy else .ok (unloadTask k s))
  else
    match objectBytes s a with
    | none => .error stBadParam
    | some l =>
      if !taskObjectOk l then .error stBadParam
      else if !versionFits (le16 l 4) (runningInfo s).tav then .error stVersion
      else if taskExists s k then .error stBusy
      else if s.sch.classes.any (fun e => e.1 ≠ k && pmOverlap (taskClass l) e.2) then .error stNoResource
      else .ok (installTask k l s)

/-! ### MODEL_LOAD -/

def descAt (l : List Byte) (o : Nat) : JobDesc :=
  ⟨le32 l o, le32 l (o + 4), le32 l (o + 8), le32 l (o + 12), le32 l (o + 16), le32 l (o + 20), le32 l (o + 24), le32 l (o + 28)⟩

def modelJobs (l : List Byte) : Nat := (le16 l 0x18).toNat
def modelJobsOff (l : List Byte) : Nat := (le32 l 0x1C).toNat
def modelDataOff (l : List Byte) : Nat := (le32 l 0x20).toNat
def modelDataLen (l : List Byte) : Nat := (le32 l 0x24).toNat
def modelState (l : List Byte) : Nat := (le32 l 0x14).toNat
def modelData (l : List Byte) : List Byte := (l.drop (modelDataOff l)).take (modelDataLen l)

/-- Tensor units at PASSES 1, 2 and 3, narrowband and wideband. -/
def modelTu (l : List Byte) (o : Nat) : List Word := [le16 l o, le16 l (o + 2), le16 l (o + 4)]

/-- A descriptor passes Table 11-8 in the model's own spaces. A comp mask address that a job will find in STATE or
FRAME is not known at the load. -/
def modelJobOk (l : List Byte) (k : Nat) : Bool :=
  let d := descAt l (modelJobsOff l + 32 * k)
  let op := fld d.w0 0 4
  let size := fun (sp : Nat) => if sp = 0 then modelDataLen l else if sp = 1 then modelState l else 0x800
  let word := fun (sp o : Nat) => if sp = 0 then le32 (modelData l) o else (0 : W32)
  decide (1 ≤ op) && decide (op ≤ 5) && (match descError op d size word with
    | .ok _ => true
    | .error _ => false)

/-- The checks of R314 step 1 on the model's bytes. -/
def modelOk (l : List Byte) : Bool :=
  let jo := modelJobsOff l
  let dO := modelDataOff l
  decide (0x30 ≤ l.length) && le32 l 0 = 0x4C444F4D && decide ((le16 l 6).toNat < 8) && le16 l 0x1A = 0 && le32 l 0x2C = 0 &&
  decide (modelState l ≤ 65536) && modelState l % 64 = 0 && decide (1 ≤ modelJobs l) && decide (modelJobs l ≤ 256) &&
  jo % 32 = 0 && decide (0x30 ≤ jo) && dO % 64 = 0 && decide (0x30 ≤ dO) &&
  decide (l.length = max (jo + 32 * modelJobs l) (dO + modelDataLen l)) && le32 l 0x28 = crc32c (l.drop 0x30) &&
  (modelTu l 8 ++ modelTu l 0x0E).all (fun v => decide (v.toNat ≤ 128)) && (List.range (modelJobs l)).all (fun k => modelJobOk l k)

/-- A channel names the slot, or a NEURAL task uses it. -/
def slotBusy (s : State) (k : Nat) : Bool :=
  s.led.chans.any (fun c => (c.prof :: c.nextProf.toList).any (fun p => p.cmodel.toNat = k)) ||
  (16 + k) ∈ s.ten.te0.models || (16 + k) ∈ s.ten.te1.models

/-- The customer model store (Table 11-7). -/
def storeLow : Nat := 0x80000
def storeHigh : Nat := 0x200000

def modelSize (n : Nat) : Nat := 64 * cdiv n 64

def storeUsed (l : AL Nat ModelSlot) : Nat := sumOf (fun e => e.2.size) l

/-- The first place where `n` bytes fit between the models of the store. -/
def findHole (l : AL Nat ModelSlot) (n : Nat) : Option Nat :=
  let ends := storeLow :: l.map (fun e => e.2.base + e.2.size)
  minBy (fun b => b) (ends.filter (fun b => decide (b + n ≤ storeHigh) &&
    l.all (fun e => decide (b + n ≤ e.2.base) || decide (e.2.base + e.2.size ≤ b))))

/-- Engines present and not withdrawn. -/
def liveEngines (s : State) : List Nat := (List.range 2).filter (fun e => engineUp s (BitVec.ofNat 1 e))

/-- Bytes of a model in one engine's store. -/
def slotData (s : State) (e : Nat) (m : ModelSlot) : List Byte := fetch s (tensorBase e + m.base) m.len

/-- The models of the store packed together, their bytes moved with them. -/
def packStore (s : State) : State :=
  let old := s.ten.slots
  let laid := (old.foldl (fun (acc : Nat × AL Nat ModelSlot) e =>
    (acc.1 + e.2.size, acc.2 ++ [(e.1, { e.2 with base := acc.1 })])) (storeLow, [])).2
  let moves := (liveEngines s).flatMap (fun e => (old.zip laid).map (fun p => (tensorBase e + p.2.2.base, slotData s e p.1.2)))
  let s := moves.foldl (fun s m => store s m.1 m.2) s
  s.setTen { s.ten with slots := laid }

/-- The model in every engine, then the slot's record. The descriptors stand in the store as they were loaded; a job's LOCAL
addresses are taken from the start of the model's data there (R313). -/
def installModel (k : Nat) (l : List Byte) (s : State) : State :=
  let s := s.setTen { s.ten with slots := alErase s.ten.slots k }
  let n := modelSize l.length
  let s := if (findHole s.ten.slots n).isSome then s else packStore s
  let base := (findHole s.ten.slots n).getD storeLow
  let s := (liveEngines s).foldl (fun s e => store s (tensorBase e + base) l) s
  let m : ModelSlot :=
    { mfv := le16 l 4, flags := le16 l 6, tuNb := modelTu l 8, tuWb := modelTu l 0x0E, stateBytes := modelState l,
      jobs := (List.range (modelJobs l)).map (fun k => descAt l (modelJobsOff l + 32 * k)), base := base, len := l.length,
      dataOff := modelDataOff l, dataLen := modelDataLen l, size := n }
  s.setTen { s.ten with slots := alSet s.ten.slots k m }

/-- MODEL_LOAD's checks in the order of R314, and its effect. -/
def modelLoad (a : List Word) (s : State) : Except Word State :=
  let k := (arg a 5).toNat
  if k < 1 ∨ 15 < k then .error stBadParam
  else if loadLength a = 0 then
    (if slotBusy s k then .error stBusy else .ok (s.setTen { s.ten with slots := alErase s.ten.slots k }))
  else
    match objectBytes s a with
    | none => .error stBadParam
    | some l =>
      if !modelOk l then .error stBadParam
      else if !versionFits (le16 l 4) (runningInfo s).mfv then .error stVersion
      else if slotBusy s k then .error stBusy
      else if storeHigh - storeLow < storeUsed (alErase s.ten.slots k) + modelSize l.length then .error stNoResource
      else .ok (installModel k l s)

/-! ### The two commands: the checks as the command starts, the effect with its completion -/

def chkLoad (a : List Word) (lo hi : Nat) : Check := need 6 a (inRange (arg a 5) lo hi && objectRange a)

/-- A load that fails, or that unloads, answers at once; a load that copies goes on until COMMAND_COMPLETE. -/
def startLoad (f : List Word → State → Except Word State) (c : Issued) (s : State) : State × Reply :=
  match f c.args s with
  | .error st => answer st s
  | .ok s' => if loadLength c.args = 0 then answer stOk s' else goesOn s

/-- A copy is complete. -/
def endLoad (f : List Word → State → Except Word State) (c : Issued) (s : State) : State × Reply :=
  match f c.args s with
  | .error st => answer st s
  | .ok s' => answer stOk s'

def chkTaskLoad (a : List Word) (_ : State) : Check := chkLoad a 32 63
def runTaskLoad (c : Issued) (s : State) : State × Reply := startLoad taskLoad c s
def chkModelLoad (a : List Word) (_ : State) : Check := chkLoad a 1 15
def runModelLoad (c : Issued) (s : State) : State × Reply := startLoad modelLoad c s

end Sys2Proof.Machine
end

