-- ==== Sys2Proof/Machine/RegOps.lean ====
section
/-! DEFINITION. The host port's registers (chapter 06): what each reads as, the key (R155-R157), the response and
event paths, and the aperture. -/

namespace Sys2Proof.Machine

/-! ### Identity and state (Tables 06-3, 06-4) -/

def hid1 (s : State) : Word := pack 16 [(channelLimit s, 0), (b2n s.hw.coatK, 14)]
def hrev (s : State) : Word := pack 16 [(s.hw.sil.toNat, 0), (s.hw.modRev.toNat, 8)]

/-- HSTAT. -/
def hstat (s : State) : Word :=
  pack 16 [((modeCode s.mode).toNat, 0), (b2n s.boot.unqual, 4), (b2n s.boot.debug, 5), (b2n (testBit s), 6), (b2n (wdrn s), 7)]

/-- ROLE_STAT (R83). -/
def roleStat (s : State) : Word :=
  pack 16 [(s.pins.straps.toNat, 0), (b2n (decide (s.pins.straps.toNat < 2)), 2), (b2n (isSummit s), 3), (b2n s.ism.addr.isSome, 4)]

/-! ### Status (Tables 06-5, 06-6, 06-9 to 06-11) -/

def rspValid (s : State) : Bool := !s.host.responses.isEmpty

def eventCount (s : State) : Nat := s.host.evtChip.length + s.host.evtBack.length

/-- IRQ_STAT. -/
def irqStat (s : State) : Word :=
  pack 16 [(b2n (rspValid s), 0), (b2n (eventCount s != 0), 1), (b2n s.host.irqCmdFree, 2), (b2n s.host.evtLost, 3),
    (b2n (s.saf.safe || anyChanSafe s), 4), (b2n s.host.irqWdog, 5), (b2n (s.host.fcSticky != 0), 6),
    (b2n s.host.irqTimeHalf, 7), (b2n s.host.apErr, 8), (b2n (s.host.imgRefused || s.host.safeRefused), 9)]

/-- INT# is low (R159). -/
def intLow (s : State) : Bool := hostUp s && irqStat s &&& s.host.irqEn.setWidth 16 != 0

def cmdCtl (s : State) : Word := pack 16 [(b2n (cmdFull s), 8), (b2n s.host.reject, 9)]

def rspLen (s : State) : Word :=
  match s.host.responses with
  | [] => 0
  | r :: _ => pack 16 [(r.words.length, 0), (1, 15)]

def evtCount (s : State) : Word := pack 16 [(min 4095 (eventCount s), 0), (b2n s.host.evtLost, 15)]

def apCtl (s : State) : Word :=
  pack 16 [(s.host.apBe.toNat, 0), (b2n s.host.apInc, 4), (b2n s.host.apErr, 5), (s.host.apErrCode.toNat, 6)]

def timeCtl (s : State) : Word :=
  pack 16 [(s.host.lsrc.toNat, 0), (b2n s.host.latched, 2), (b2n s.tim.locked, 4), (b2n s.tim.holdover, 5),
    (b2n s.host.stepped, 6), (s.tim.src.toNat, 8)]

def safeStat (s : State) : Word :=
  pack 16 [(b2n s.saf.safe, 0), (b2n (anyChanSafe s), 1), (b2n s.saf.qual, 2), (b2n (testBit s), 3), (b2n s.host.benign, 4)]

def safeCause (s : State) : Word :=
  pack 16 [(s.saf.cause.toNat, 0), (s.saf.cls.toNat, 8), (b2n (s.saf.safe && clearable s.saf.cls), 15)]

def calStat (s : State) : Word :=
  pack 16 [(b2n (calBusy s), 0), (b2n (!s.cal.waiting.isEmpty), 1), (b2n s.cal.overlayOk, 2), (b2n s.hw.factoryOk, 3)]

/-- LINK_STAT: ports up, Ismorlink ports trained, and whether highways are enabled and every one of them is aligned;
with none enabled the bit has its reset value 0 (log entry 71). -/
def linkStat (s : State) : Word :=
  pack 16 (extPorts.map (fun p => (b2n (getPort s p).up, p.toNat)) ++
    extPorts.map (fun p => (b2n ((ismPort s p).st = .trained), 4 + p.toNat)) ++
    [(b2n (s.tdm.any (fun h => h.cfg.enabled) && s.tdm.all (fun h => !h.cfg.enabled || h.aligned)), 8)])

/-- Pins GPIOk that the module drives (Table 03-4). -/
def gpioDriven (s : State) : Word := if pinsActive s then s.host.gpioDir else 0

/-- GPIO_IN: driven pins at their own level, the others at a level from outside. -/
def gpioIn (s : State) : Word :=
  (s.host.gpioOut &&& gpioDriven s) ||| ((Config.free32 s.free).setWidth 16 &&& ~~~gpioDriven s)

/-! ### The key -/

/-- Cycles of the 1 ms window. -/
def keyWindow : Nat := 500000

/-- A write to HKEY (R156, R157). -/
def hkeyWrite (v : Word) (s : State) : State :=
  let k : KeyState :=
    if v = 0xA55A then .first (uptime s)
    else
      match s.host.key with
      | .first t => if v = 0x5AA5 && decide (uptime s ≤ t + keyWindow) then .armed t else .idle
      | .idle => .idle
      | .armed _ => .idle
  s.setHost { s.host with key := k }

/-- The key is valid for the write being made. -/
def keyed (s : State) : Bool :=
  match s.host.key with
  | .armed t => decide (uptime s ≤ t + keyWindow)
  | .first _ => false
  | .idle => false

/-- Any other write consumes the key. -/
def useKey (s : State) : State := s.setHost { s.host with key := .idle }

/-! ### Response and event paths (R163-R165) -/

/-- The word a read of RSP_FIFO returns. -/
def rspWord (s : State) : Word :=
  match s.host.responses with
  | [] => 0
  | r :: _ => r.words.getD s.host.rspPos 0

def rspRead (s : State) : State × Word :=
  match s.host.responses with
  | [] => (s, 0)
  | r :: _ => (s.setHost { s.host with rspPos := min r.words.length (s.host.rspPos + 1) }, rspWord s)

/-- The head response removed; nothing without one. -/
def removeResponse (s : State) : State :=
  withFree (fun s => s.setHost { s.host with responses := s.host.responses.drop 1, rspPos := 0 }) s

/-- Room on chip for a backlog record; 64 words are kept for SAFE records. -/
def chipTakes (h : HostPort) (r : List Word) : Bool :=
  decide (recWords h.evtChip + r.length ≤ (if (arg r 0) >>> 8 = 4 then 2048 else 1984))

/-- The backlog drains into the on-chip store in order. -/
def drainBacklog : Nat → HostPort → HostPort
  | 0, h => h
  | n + 1, h =>
    match h.evtBack with
    | [] => h
    | r :: rest => if chipTakes h r then drainBacklog n { h with evtChip := h.evtChip ++ [r], evtBack := rest } else h

/-- A read of EVT_FIFO. -/
def evtRead (s : State) : State × Word :=
  match s.host.evtChip with
  | [] => (s, 0)
  | r :: rest =>
    let w := arg r s.host.evtPos
    if s.host.evtPos + 1 < r.length then (s.setHost { s.host with evtPos := s.host.evtPos + 1 }, w)
    else
      let h := { s.host with evtChip := rest, evtPos := 0 }
      (s.setHost (drainBacklog h.evtBack.length h), w)

/-! ### The aperture (R166-R169) -/

def errCode : AccErr → BitVec 2
  | .absent => 1
  | .prot => 2
  | .align => 3

/-- The states in which every trigger fails. -/
def apertureShut (s : State) : Bool :=
  match s.mode with
  | .boot | .recovery | .standby => true
  | _ => false

/-- A failed access: ERR, with the code of the first failure. -/
def apFail (e : AccErr) (s : State) : State :=
  s.setHost { s.host with apErr := true, apErrCode := if s.host.apErr then s.host.apErrCode else errCode e }

/-- After a trigger the address rises by 4 where INC = 1. -/
def apNext (s : State) : State := if s.host.apInc then s.setHost { s.host with apAddr := s.host.apAddr + 4 } else s

/-- A read through the aperture's state gate. -/
def apertureBusRead (a : Addr) (s : State) : Except AccErr (State × W32) :=
  if a.toNat % 4 ≠ 0 then .error .align
  else if apertureShut s then .error .absent
  else busRead .host a.toNat s

def apertureBusWrite (a : Addr) (v : W32) (be : BitVec 4) (s : State) : Except AccErr State :=
  if a.toNat % 4 ≠ 0 then .error .align
  else if apertureShut s then .error .absent
  else busWrite .host a.toNat v be s

/-- A word read, or the failure recorded and zero in both data registers. -/
def apertureLoad (a : Addr) (s : State) : State :=
  match apertureBusRead a s with
  | .ok (s, v) => s.setHost { s.host with apD0 := v.setWidth 16, apD1 := (v >>> 16).setWidth 16, lastAperture := v }
  | .error e =>
    let s := apFail e s
    s.setHost { s.host with apD0 := 0, apD1 := 0, lastAperture := 0 }

/-- A read of AP_DATA0. -/
def apertureRead (s : State) : State := apNext (apertureLoad s.host.apAddr s)

/-- A write of AP_DATA1. -/
def apertureWrite (d1 : Word) (s : State) : State :=
  let s := s.setHost { s.host with apD1 := d1 }
  let s := match apertureBusWrite s.host.apAddr (d1 ++ s.host.apD0) s.host.apBe s with
    | .ok s => s
    | .error e => apFail e s
  apNext s

/-! ### TIME0 (R171) -/

def time0Read (s : State) : State × Word :=
  if s.host.lsrc = 0 then
    let s := s.setTim { s.tim with stepLatch := s.tim.stepSum }
    (s.setHost { s.host with time0 := s.tim.counter.setWidth 16, time1 := (s.tim.counter >>> 16).setWidth 16 }, s.tim.counter.setWidth 16)
  else (s, s.host.time0)

end Sys2Proof.Machine
end

