-- ==== Sys2Proof/Machine/StateCmds.lean ====
section
/-! DEFINITION. The commands of the module's identity and state (Table 07-4, group 0x01), and FORWARD (R194, R450). -/

namespace Sys2Proof.Machine

def chkIdentify (a : List Word) (_ : State) : Check := need 0 a true

/-- HPV of the package that runs; no package, no version. -/
def hpvNow (s : State) : Word := (runningInfo s).hpv

def runIdentify (_ : Issued) (s : State) : State × Reply :=
  answerOk ([hid1 s, hrev s] ++ words4 s.hw.uid ++ [roleStat s, s.ism.addr.getD 0, hpvNow s]) s

def chkGetStatus (a : List Word) (_ : State) : Check := need 0 a true

/-- The twelve words of GET_STATUS. -/
def statusWords (s : State) : List Word :=
  [hstat s, BitVec.ofNat 16 s.led.chans.length] ++ words2 (BitVec.ofNat 32 (luAdmitted s)) ++
  [BitVec.ofNat 16 (tuAdmitted s), pwrLimit s] ++ words2 (BitVec.ofNat 32 (luCeil s)) ++
  [BitVec.ofNat 16 (tuCeil s), BitVec.ofNat 16 (coresDrained s), BitVec.ofNat 16 (coresWithdrawn s), s.therm.temp]

def runGetStatus (_ : Issued) (s : State) : State × Reply := answerOk (statusWords s) s

def chkSetState (a : List Word) (_ : State) : Check := need 1 a (arg a 0 = 4 || arg a 0 = 5 || arg a 0 = 9)

def runSetState (c : Issued) (s : State) : State × Reply :=
  let r := setState (arg c.args 0).toNat s
  answer r.2 r.1

def chkReset (a : List Word) (_ : State) : Check := need 0 a true

/-- RESET: the response first, the reset soon after it. -/
def runReset (_ : Issued) (s : State) : State × Reply := answer stOk (resetSoon s)

def chkGetVersions (a : List Word) (_ : State) : Check := need 0 a true

def runGetVersions (_ : Issued) (s : State) : State × Reply := answerOk (versionWords s) s

/-! ### FORWARD -/

/-- A layout of two words and the inner arguments; an inner FORWARD is BAD_PARAM. -/
def chkForward (a : List Word) (_ : State) : Check :=
  if a.length < 2 then some stBadLength else if arg a 1 = 0x0703 then some stBadParam else none

/-- The inner command travels to a spur by its route. -/
def sendForward (c : Issued) (s : State) : State :=
  let dest := arg c.args 0
  match routeOf s dest with
  | some p => ismSend p dest c.tag (.mgmtReq (arg c.args 1) c.tag (c.args.drop 2)) s
  | none => s.setIsm { s.ism with noroute := satAdd s.ism.noroute 1 }

/-- FORWARD answers when its inner command does. -/
def runForward (c : Issued) (s : State) : State × Reply :=
  let dest := arg c.args 0
  if !isSummit s then answer stBadState s
  else if dest = 0 then
    goesOn (enqueue { op := arg c.args 1, tag := c.tag, args := c.args.drop 2, keyed := true, origin := .forwarded 0 c.tag } s)
  else if (topoByAddr s dest).isNone then answer stUnreachable s
  else goesOn (sendForward c s)

end Sys2Proof.Machine
end

