-- ==== Sys2Proof/Machine/Commands.lean ====
section
/-! DEFINITION. The table of opcodes (Table 07-4): the check, the key, the state gate and the work of every command,
and the lanes in which commands run (R178, R182, R183). -/

namespace Sys2Proof.Machine

/-- The check of R182 by opcode; an opcode outside the table is BAD_OPCODE (R191), and more words than a command
can carry are BAD_LENGTH (R161). -/
def checkCommand (op : Word) (a : List Word) (s : State) : Check :=
  if 1024 < a.length then some stBadLength
  else
    match op.toNat with
    | 0x0101 => chkIdentify a s
    | 0x0102 => chkGetStatus a s
    | 0x0103 => chkSetState a s
    | 0x0104 => chkReset a s
    | 0x0105 => chkGetVersions a s
    | 0x0201 => chkImgBegin a s
    | 0x0202 => chkImgData a s
    | 0x0203 => chkImgCommit a s
    | 0x0204 => chkImgSelect a s
    | 0x0301 => chkChCreate a s
    | 0x0302 => chkChModify a s
    | 0x0303 => chkChDelete a s
    | 0x0304 => chkChQuery a s
    | 0x0305 => chkChStats a s
    | 0x0306 => chkChKeys a s
    | 0x0401 => chkPortCfg a s
    | 0x0402 => chkVlanCfg a
    | 0x0403 => chkClassCfg a s
    | 0x0501 => chkHwyCfg a s
    | 0x0502 => chkSlotMap a s
    | 0x0601 => chkPtpCfg a s
    | 0x0602 => chkServoCfg a s
    | 0x0603 => chkProbeCfg a s
    | 0x0604 => chkProbeRead a s
    | 0x0701 => chkSearch a s
    | 0x0702 => chkAssign a s
    | 0x0703 => chkForward a s
    | 0x0704 => chkTopoRead a s
    | 0x0801 => chkSafeCfg a s
    | 0x0802 => chkSafeQuery a s
    | 0x0803 => chkProofTest a s
    | 0x0901 => chkCalRun a s
    | 0x0902 => chkCalRestore a s
    | 0x0903 => chkCalRead a s
    | 0x0904 => chkSelftest a s
    | 0x0A01 => chkFiArm a s
    | 0x0A02 => chkFiDisarm a s
    | 0x0A03 => chkFiRead a s
    | 0x0B01 => chkUartCfg a s
    | 0x0C01 => chkTaskLoad a s
    | 0x0C02 => chkModelLoad a s
    | _ => some stBadOpcode

/-- The work of a command that has passed its checks. -/
def runCommand (c : Issued) (s : State) : State × Reply :=
  match c.op.toNat with
  | 0x0101 => runIdentify c s
  | 0x0102 => runGetStatus c s
  | 0x0103 => runSetState c s
  | 0x0104 => runReset c s
  | 0x0105 => runGetVersions c s
  | 0x0201 => runImgBegin c s
  | 0x0202 => runImgData c s
  | 0x0203 => runImgCommit c s
  | 0x0204 => runImgSelect c s
  | 0x0301 => runChCreate c s
  | 0x0302 => runChModify c s
  | 0x0303 => runChDelete c s
  | 0x0304 => runChQuery c s
  | 0x0305 => runChStats c s
  | 0x0306 => runChKeys c s
  | 0x0401 => runPortCfg c s
  | 0x0402 => runVlanCfg c s
  | 0x0403 => runClassCfg c s
  | 0x0501 => runHwyCfg c s
  | 0x0502 => runSlotMap c s
  | 0x0601 => runPtpCfg c s
  | 0x0602 => runServoCfg c s
  | 0x0603 => runProbeCfg c s
  | 0x0604 => runProbeRead c s
  | 0x0701 => runSearch c s
  | 0x0702 => runAssign c s
  | 0x0703 => runForward c s
  | 0x0704 => runTopoRead c s
  | 0x0801 => runSafeCfg c s
  | 0x0802 => runSafeQuery c s
  | 0x0803 => runProofTest c s
  | 0x0901 => runCalRun c s
  | 0x0902 => runCalRestore c s
  | 0x0903 => runCalRead c s
  | 0x0904 => runSelftest c s
  | 0x0A01 => runFiArm c s
  | 0x0A02 => runFiDisarm c s
  | 0x0A03 => runFiRead c s
  | 0x0B01 => runUartCfg c s
  | 0x0C01 => runTaskLoad c s
  | 0x0C02 => runModelLoad c s
  | _ => answer stBadOpcode s

/-- A command whose GO needs the key (R155): IMG_SELECT, FI_ARM, and any command with its FORCE flag set. -/
def plainKey (op : Word) (a : List Word) : Bool :=
  match op.toNat with
  | 0x0204 => true
  | 0x0A01 => true
  | 0x0803 => bitOf (arg a 0) 0
  | 0x0901 => bitOf (arg a 1) 0
  | 0x0904 => bitOf (arg a 1) 0
  | _ => false

/-- The same, with a FORWARD protected where its inner command is (R194). -/
def keyNeeded (op : Word) (a : List Word) : Bool :=
  if op = 0x0703 then plainKey (arg a 1) (a.drop 2) else plainKey op a

/-- IDENTIFY, GET_STATUS, RESET and GET_VERSIONS run in every state in which the port is live. -/
def everywhere (op : Word) : Bool :=
  match op.toNat with
  | 0x0101 | 0x0102 | 0x0104 | 0x0105 => true
  | _ => false

/-- The channel commands that HELD and SAFE refuse. -/
def changesChannel (op : Word) : Bool :=
  match op.toNat with
  | 0x0301 | 0x0302 | 0x0303 | 0x0306 => true
  | _ => false

/-- The module state refuses the opcode (R145, R183). -/
def stateRefuses (op : Word) (s : State) : Bool :=
  match s.mode with
  | .reset => true
  | .boot => !everywhere op
  | .recovery => !(everywhere op || laneOf op = 1)
  | .standby => !(everywhere op || op = 0x0103)
  | .held => changesChannel op
  | .safe => changesChannel op
  | .ready => op = 0x0301
  | .run => false
  | .degraded => false

/-- What a command is refused with before it does anything, in the order of R182, R158 and R183. -/
def verdict (c : Issued) (s : State) : Option Word :=
  match checkCommand c.op c.args s with
  | some st => some st
  | none =>
    if keyNeeded c.op c.args && !c.keyed then some stKeyRequired
    else if stateRefuses c.op s then some stBadState
    else none

/-- The head of an idle lane begins to run. -/
def startLane (k : BitVec 2) (s : State) : State :=
  match getLane s k with
  | ⟨none, c :: r⟩ =>
    let s := putLane k ⟨some c, r⟩ s
    (match verdict c s with
     | some st => finish k st [] s
     | none =>
       match runCommand c s with
       | (s, some (st, ws)) => finish k st ws s
       | (s, none) => s)
  | _ => s

def waitingCount (s : State) : Nat :=
  s.cmds.main.waiting.length + s.cmds.image.waiting.length + s.cmds.fwd.waiting.length

def pumpN : Nat → State → State
  | 0, s => s
  | n + 1, s => pumpN n (startLane 2 (startLane 1 (startLane 0 s)))

/-- A CH_DELETE that waited for its channel's tick ends with the deletion (R247), or because the channel is gone by
another hand. -/
def settleDelete (s : State) : State :=
  match s.cmds.main.running with
  | some c =>
    if c.op = 0x0303 && (findChan s (argChan c.args)).isNone then
      finish 0 (if s.cmds.deleteDone then stOk else stBadParam) [] (s.setCmds { s.cmds with deleteDone := false })
    else s
  | none => s

/-- Every lane runs on: a FORWARD to the module itself adds one command to another lane. -/
def pump (s : State) : State :=
  let s := settleDelete s
  pumpN (2 * waitingCount s + 1) s

/-- The end of a command in execution: a load, or a long image command (R135, R137, R290, R314). -/
def completeLane (k : BitVec 2) (s : State) : State :=
  match (getLane s k).running with
  | none => s
  | some c =>
    let r : State × Reply :=
      if k = 1 then imgFinish c s
      else if k ≠ 0 then goesOn s
      else if c.op = 0x0C01 then endLoad taskLoad c s
      else if c.op = 0x0C02 then endLoad modelLoad c s
      else goesOn s
    match r with
    | (s, some (st, ws)) => finish k st ws s
    | (s, none) => s

/-! ### Issuing (R160, R161) -/

/-- The arguments that GO latches: one word too many where CMD_LEN is out of range or is not the number staged,
so that the answer is BAD_LENGTH. -/
def latchedArgs (h : HostPort) : List Word :=
  if 1024 < h.cmdLen.toNat || h.cmdLen.toNat ≠ h.staged.length then List.replicate 1025 0 else h.staged

/-- CMD_CTL.GO, with whether the write had the key. -/
def goWrite (key : Bool) (s : State) : State :=
  if cmdFull s then s.setHost { s.host with reject := true }
  else
    let c : Issued := { op := s.host.cmdOp, tag := s.host.cmdTag, args := latchedArgs s.host, keyed := key, origin := .host }
    pump (enqueue c (s.setHost { s.host with staged := [] }))

/-- The four steps of R160 for one command, its words joining those staged before; the key words of R156 stand
between the other writes and GO. -/
def issueCommand (op tag : Word) (args : List Word) (s : State) : State :=
  if !hostUp s then s
  else
    let key := keyed s
    let s := s.setHost { s.host with
      cmdOp := op, cmdTag := tag, cmdLen := BitVec.ofNat 11 (min 2047 args.length), staged := (s.host.staged ++ args).take 1024, key := .idle }
    goWrite key s

end Sys2Proof.Machine
end

