-- ==== Sys2Proof/Machine/HostOps.lean ====
section
/-! DEFINITION. Host accesses: what a read of each register returns and does, and what a write does (chapter 06).
`slot` is the word slot of R148, the register's offset divided by 2. -/

namespace Sys2Proof.Machine

/-! ### Reads -/

/-- HBEAT reads 0 in RESET, BOOT and RECOVERY (R176). -/
def hbeatNow (s : State) : Word :=
  match s.mode with
  | .reset | .boot | .recovery => 0
  | _ => s.host.hbeat

/-- A register whose read has no effect. -/
def plainRead (slot : Nat) (s : State) : Word :=
  let h := s.host
  match slot with
  | 0x00 => 0x4647
  | 0x01 => hid1 s
  | 0x02 => hrev s
  | 0x03 => hstat s
  | 0x04 => pack 16 [(b2n h.strict, 0)]
  | 0x06 => irqStat s
  | 0x07 => h.irqEn.setWidth 16
  | 0x08 => h.cmdOp
  | 0x09 => h.cmdTag
  | 0x0A => h.cmdLen.setWidth 16
  | 0x0C => cmdCtl s
  | 0x0D => (h.responses.head?.map Response.status).getD 0
  | 0x0E => (h.responses.head?.map Response.tag).getD 0
  | 0x0F => rspLen s
  | 0x11 => evtCount s
  | 0x13 => h.apAddr.setWidth 16
  | 0x14 => (h.apAddr >>> 16).setWidth 16
  | 0x15 => (h.apAddr >>> 32).setWidth 16
  | 0x17 => h.apD1
  | 0x18 => apCtl s
  | 0x1A => h.time1
  | 0x1B => timeCtl s
  | 0x1C => safeStat s
  | 0x1D => safeCause s
  | 0x1E => pack 16 [(b2n h.safeRefused, 2)]
  | 0x1F => pwrStat s
  | 0x20 => pwrLimit s
  | 0x21 => (fcStat s).setWidth 16
  | 0x22 => h.fcSticky.setWidth 16
  | 0x23 => bootStat s
  | 0x24 => imgCtl s
  | 0x25 => hbeatNow s
  | 0x26 => h.hwdogPeriod.setWidth 16
  | 0x27 => fiCtl s
  | 0x28 => calStat s
  | 0x29 => linkStat s
  | 0x2A => roleStat s
  | 0x2B => s.therm.temp
  | 0x2D => h.gpioOut
  | 0x2E => h.gpioDir
  | 0x2F => h.scratch
  | _ => 0

/-- A host read: the state after it and D[15:0]. While the port is not live, or its pins are released, the data are those
of the host's own pulls and nothing else happens (R75, R81, R153). -/
def hostRead (slot : Nat) (s : State) : State × Word :=
  if !hostUp s then (s.draw, Config.hostPulls s.free)
  else
    match slot with
    | 0x10 => rspRead s
    | 0x12 => evtRead s
    | 0x16 =>
      let s := apertureRead s
      (s, s.host.apD0)
    | 0x19 => time0Read s
    | 0x2C => (s.draw, gpioIn s)
    | n => (s, plainRead n s)

/-- The data of a read, kept for the reader of the state. -/
def readInto (slot : Nat) (s : State) : State :=
  let r := hostRead slot s
  r.1.setHost { r.1.host with lastRead := r.2 }

/-- A host read of one word at an internal address: the address registers take it, and AP_DATA0 is read. -/
def readAt (a : Addr) (s : State) : State :=
  readInto 0x16 (if hostUp s then s.setHost { s.host with apAddr := a, key := .idle } else s)

/-! ### Writes with behaviour of their own -/

/-- SAFE_CTL.CLEAR (R173, R483). -/
def safeClear (key : Bool) (s : State) : State :=
  if key && s.saf.safe && s.mode = .safe && clearable s.saf.cls then
    let s := (allChans s).foldl (fun s c => removeChan c s) s
    let s := s.setSaf { s.saf with safe := false, cause := 0, cls := 0 }
    standbyDue (setMode .ready (s.setFi { s.fi with stopped := false }))
  else s.setHost { s.host with safeRefused := true }

/-- SAFE_CTL.ENTER (R174); ignored in SAFE. -/
def safeEnter (s : State) : State := if s.mode = .safe then s else moduleSafe 0x40 s

/-- A write to SAFE_CTL. REFUSED clears first, and a refusal sets it again (R9); of CLEAR and ENTER in one write the
manual gives no order. -/
def safeCtl (key : Bool) (v : Word) (s : State) : State :=
  let s := if bitOf v 2 then s.setHost { s.host with safeRefused := false } else s
  if bitOf v 0 && bitOf v 1 then
    let first := Config.freeBit s.free
    let s := s.draw
    if first then safeEnter (safeClear key s) else safeClear key (safeEnter s)
  else if bitOf v 0 then safeClear key s
  else if bitOf v 1 then safeEnter s
  else s

/-- A write to SRC_PREF (R67); a change of the active source is reported (R46). -/
def prefWrite (v : BitVec 3) (s : State) : State :=
  if 6 ≤ v.toNat then s
  else
    let was := activeSrc s
    let s := s.setPwr { s.pwr with srcPref := v }
    if activeSrc s = was then s else raisePwr s

/-- A write to IMG_CTL (R147). -/
def imgCtlWrite (key : Bool) (v : Word) (s : State) : State :=
  let s := if bitOf v 9 then s.setHost { s.host with imgRefused := false } else s
  if bitOf v 8 then switchWrite key s else s

/-- A write to HWDOG (R177). -/
def hwdogWrite (v : Word) (s : State) : State :=
  if fld v 12 4 = 0 then s.setHost { s.host with hwdogPeriod := v.setWidth 12 } else s

/-- One word joins the staging area (R161). -/
def cmdFifoWrite (v : Word) (s : State) : State :=
  if s.host.staged.length < 1024 then s.setHost { s.host with staged := s.host.staged ++ [v] } else s

def cmdClear (s : State) : State := s.setHost { s.host with staged := [] }

/-- A write to CMD_CTL: REJECT clears first; a CLEAR issues nothing. -/
def cmdCtlWrite (key : Bool) (v : Word) (s : State) : State :=
  let s := if bitOf v 9 then s.setHost { s.host with reject := false } else s
  if bitOf v 1 then cmdClear s else if bitOf v 0 then goWrite key s else s

/-- A write to AP_CTL (Table 06-8). -/
def apCtlWrite (v : Word) (s : State) : State :=
  let s := s.setHost { s.host with apBe := v.setWidth 4, apInc := bitOf v 4 }
  if bitOf v 5 then s.setHost { s.host with apErr := false, apErrCode := 0 } else s

/-- A write to TIME_CTL (R171, Table 06-9). -/
def timeCtlWrite (v : Word) (s : State) : State :=
  let l : BitVec 2 := v.setWidth 2
  s.setHost { s.host with
    lsrc := if l = 3 then s.host.lsrc else l, latched := s.host.latched && !bitOf v 2, stepped := s.host.stepped && !bitOf v 6 }

/-- A write to IRQ_STAT: the W1C bits of Table 06-5. -/
def irqStatWrite (v : Word) (s : State) : State :=
  s.setHost { s.host with
    irqCmdFree := s.host.irqCmdFree && !bitOf v 2, irqWdog := s.host.irqWdog && !bitOf v 5,
    irqTimeHalf := s.host.irqTimeHalf && !bitOf v 7 }

/-- One third of AP_ADDR replaced. -/
def apAddrWrite (k : Nat) (v : Word) (s : State) : State :=
  let a := s.host.apAddr
  s.setHost { s.host with apAddr := match k with
    | 0 => a &&& 0xFFFFFF0000 ||| v.setWidth 40
    | 1 => a &&& 0xFF0000FFFF ||| (v.setWidth 40 <<< 16)
    | _ => a &&& 0x00FFFFFFFF ||| ((v.setWidth 8).setWidth 40 <<< 32) }

/-! ### Writes -/

/-- A write to any register but HKEY, with whether the key was valid for it. RO and RSV bits ignore the write (R8). -/
def writeSlot (slot : Nat) (key : Bool) (v : Word) (s : State) : State :=
  let h := s.host
  match slot with
  | 0x04 => s.setHost { h with strict := bitOf v 0 }
  | 0x06 => irqStatWrite v s
  | 0x07 => s.setHost { h with irqEn := v.setWidth 10 }
  | 0x08 => s.setHost { h with cmdOp := v }
  | 0x09 => s.setHost { h with cmdTag := v }
  | 0x0A => s.setHost { h with cmdLen := v.setWidth 11 }
  | 0x0B => cmdFifoWrite v s
  | 0x0C => cmdCtlWrite key v s
  | 0x0F => if bitOf v 15 then removeResponse s else s
  | 0x11 => if bitOf v 15 then s.setHost { h with evtLost := false } else s
  | 0x13 => apAddrWrite 0 v s
  | 0x14 => apAddrWrite 1 v s
  | 0x15 => apAddrWrite 2 v s
  | 0x16 => s.setHost { h with apD0 := v }
  | 0x17 => apertureWrite v s
  | 0x18 => apCtlWrite v s
  | 0x1B => timeCtlWrite v s
  | 0x1C => if bitOf v 4 then s.setHost { h with benign := false } else s
  | 0x1E => safeCtl key v s
  | 0x1F => prefWrite ((v >>> 13).setWidth 3) s
  | 0x22 => s.setHost { h with fcSticky := h.fcSticky &&& ~~~(v.setWidth 8) }
  | 0x24 => imgCtlWrite key v s
  | 0x26 => hwdogWrite v s
  | 0x27 => if bitOf v 1 then disarmAll s else s
  | 0x2D => s.setHost { h with gpioOut := v }
  | 0x2E => s.setHost { h with gpioDir := v }
  | 0x2F => s.setHost { h with scratch := v }
  | _ => s

/-- An access with RD# and WR# both low: nothing is written, and a read gives 0 (R151). -/
def hostBoth (s : State) : State :=
  if hostUp s then s.setHost { s.host with lastRead := 0 } else (s.draw).setHost { s.host with lastRead := Config.hostPulls s.free }

/-- A host write (R148-R158): nothing while the port cannot be reached; any write but HKEY consumes the key. -/
def hostWrite (slot : Nat) (v : Word) (s : State) : State :=
  if !hostUp s then s
  else if slot = 0x05 then hkeyWrite v s
  else writeSlot slot (keyed s) v (useKey s)

end Sys2Proof.Machine
end

