-- ==== Sys2Proof/Machine/CommandRows.lean ====
section
/-! DEFINITION. Meanings of the host-command rows (Table 07-4): each is the whole issue of R160 of its opcode. The
checks, the lanes and the work are in Commands.lean and the files it names. -/

namespace Sys2Proof.Machine

/-- IDENTIFY. -/
def execIdentify (tag : Word) (args : List Word) (s : State) : Host.Outcome State Fault Refusal := .next (issueCommand 0x0101 tag args s)

/-- GET_STATUS. -/
def execGetStatus (tag : Word) (args : List Word) (s : State) : Host.Outcome State Fault Refusal := .next (issueCommand 0x0102 tag args s)

/-- SET_STATE (R130, R145). -/
def execSetState (tag : Word) (args : List Word) (s : State) : Host.Outcome State Fault Refusal := .next (issueCommand 0x0103 tag args s)

/-- RESET. -/
def execResetCmd (tag : Word) (args : List Word) (s : State) : Host.Outcome State Fault Refusal := .next (issueCommand 0x0104 tag args s)

/-- GET_VERSIONS. -/
def execGetVersions (tag : Word) (args : List Word) (s : State) : Host.Outcome State Fault Refusal := .next (issueCommand 0x0105 tag args s)

/-- IMG_BEGIN (R135). -/
def execImgBegin (tag : Word) (args : List Word) (s : State) : Host.Outcome State Fault Refusal := .next (issueCommand 0x0201 tag args s)

/-- IMG_DATA (R136). -/
def execImgData (tag : Word) (args : List Word) (s : State) : Host.Outcome State Fault Refusal := .next (issueCommand 0x0202 tag args s)

/-- IMG_COMMIT (R137). -/
def execImgCommit (tag : Word) (args : List Word) (s : State) : Host.Outcome State Fault Refusal := .next (issueCommand 0x0203 tag args s)

/-- IMG_SELECT (R138). -/
def execImgSelect (tag : Word) (args : List Word) (s : State) : Host.Outcome State Fault Refusal := .next (issueCommand 0x0204 tag args s)

/-- CH_CREATE (R30, R189). -/
def execChCreate (tag : Word) (args : List Word) (s : State) : Host.Outcome State Fault Refusal := .next (issueCommand 0x0301 tag args s)

/-- CH_MODIFY (R190). -/
def execChModify (tag : Word) (args : List Word) (s : State) : Host.Outcome State Fault Refusal := .next (issueCommand 0x0302 tag args s)

/-- CH_DELETE (R247). -/
def execChDelete (tag : Word) (args : List Word) (s : State) : Host.Outcome State Fault Refusal := .next (issueCommand 0x0303 tag args s)

/-- CH_QUERY (R342). -/
def execChQuery (tag : Word) (args : List Word) (s : State) : Host.Outcome State Fault Refusal := .next (issueCommand 0x0304 tag args s)

/-- CH_STATS (R195). -/
def execChStats (tag : Word) (args : List Word) (s : State) : Host.Outcome State Fault Refusal := .next (issueCommand 0x0305 tag args s)

/-- CH_KEYS (R363). -/
def execChKeys (tag : Word) (args : List Word) (s : State) : Host.Outcome State Fault Refusal := .next (issueCommand 0x0306 tag args s)

/-- PORT_CFG (R343). -/
def execPortCfg (tag : Word) (args : List Word) (s : State) : Host.Outcome State Fault Refusal := .next (issueCommand 0x0401 tag args s)

/-- VLAN_CFG (R347). -/
def execVlanCfg (tag : Word) (args : List Word) (s : State) : Host.Outcome State Fault Refusal := .next (issueCommand 0x0402 tag args s)

/-- CLASS_CFG (R348). -/
def execClassCfg (tag : Word) (args : List Word) (s : State) : Host.Outcome State Fault Refusal := .next (issueCommand 0x0403 tag args s)

/-- HWY_CFG (R366). -/
def execHwyCfg (tag : Word) (args : List Word) (s : State) : Host.Outcome State Fault Refusal := .next (issueCommand 0x0501 tag args s)

/-- SLOT_MAP (R367). -/
def execSlotMap (tag : Word) (args : List Word) (s : State) : Host.Outcome State Fault Refusal := .next (issueCommand 0x0502 tag args s)

/-- PTP_CFG (R391). -/
def execPtpCfg (tag : Word) (args : List Word) (s : State) : Host.Outcome State Fault Refusal := .next (issueCommand 0x0601 tag args s)

/-- SERVO_CFG (R384). -/
def execServoCfg (tag : Word) (args : List Word) (s : State) : Host.Outcome State Fault Refusal := .next (issueCommand 0x0602 tag args s)

/-- PROBE_CFG (R396). -/
def execProbeCfg (tag : Word) (args : List Word) (s : State) : Host.Outcome State Fault Refusal := .next (issueCommand 0x0603 tag args s)

/-- PROBE_READ (R397). -/
def execProbeRead (tag : Word) (args : List Word) (s : State) : Host.Outcome State Fault Refusal := .next (issueCommand 0x0604 tag args s)

/-- SEARCH (R441). -/
def execSearch (tag : Word) (args : List Word) (s : State) : Host.Outcome State Fault Refusal := .next (issueCommand 0x0701 tag args s)

/-- ASSIGN (R449). -/
def execAssign (tag : Word) (args : List Word) (s : State) : Host.Outcome State Fault Refusal := .next (issueCommand 0x0702 tag args s)

/-- FORWARD (R194, R450). -/
def execForward (tag : Word) (args : List Word) (s : State) : Host.Outcome State Fault Refusal := .next (issueCommand 0x0703 tag args s)

/-- TOPO_READ (Table 07-6). -/
def execTopoRead (tag : Word) (args : List Word) (s : State) : Host.Outcome State Fault Refusal := .next (issueCommand 0x0704 tag args s)

/-- SAFE_CFG (R485). -/
def execSafeCfg (tag : Word) (args : List Word) (s : State) : Host.Outcome State Fault Refusal := .next (issueCommand 0x0801 tag args s)

/-- SAFE_QUERY (R486). -/
def execSafeQuery (tag : Word) (args : List Word) (s : State) : Host.Outcome State Fault Refusal := .next (issueCommand 0x0802 tag args s)

/-- PROOF_TEST (R495). -/
def execProofTest (tag : Word) (args : List Word) (s : State) : Host.Outcome State Fault Refusal := .next (issueCommand 0x0803 tag args s)

/-- CAL_RUN (R501, R508). -/
def execCalRun (tag : Word) (args : List Word) (s : State) : Host.Outcome State Fault Refusal := .next (issueCommand 0x0901 tag args s)

/-- CAL_RESTORE_FACTORY (R506). -/
def execCalRestoreFactory (tag : Word) (args : List Word) (s : State) : Host.Outcome State Fault Refusal := .next (issueCommand 0x0902 tag args s)

/-- CAL_READ (R498). -/
def execCalRead (tag : Word) (args : List Word) (s : State) : Host.Outcome State Fault Refusal := .next (issueCommand 0x0903 tag args s)

/-- SELFTEST (R507, R512). -/
def execSelftest (tag : Word) (args : List Word) (s : State) : Host.Outcome State Fault Refusal := .next (issueCommand 0x0904 tag args s)

/-- FI_ARM (R516). -/
def execFiArm (tag : Word) (args : List Word) (s : State) : Host.Outcome State Fault Refusal := .next (issueCommand 0x0A01 tag args s)

/-- FI_DISARM (R521). -/
def execFiDisarm (tag : Word) (args : List Word) (s : State) : Host.Outcome State Fault Refusal := .next (issueCommand 0x0A02 tag args s)

/-- FI_READ (R522). -/
def execFiRead (tag : Word) (args : List Word) (s : State) : Host.Outcome State Fault Refusal := .next (issueCommand 0x0A03 tag args s)

/-- UART_CFG (R414). -/
def execUartCfg (tag : Word) (args : List Word) (s : State) : Host.Outcome State Fault Refusal := .next (issueCommand 0x0B01 tag args s)

/-- TASK_LOAD (R290). -/
def execTaskLoad (tag : Word) (args : List Word) (s : State) : Host.Outcome State Fault Refusal := .next (issueCommand 0x0C01 tag args s)

/-- MODEL_LOAD (R314). -/
def execModelLoad (tag : Word) (args : List Word) (s : State) : Host.Outcome State Fault Refusal := .next (issueCommand 0x0C02 tag args s)

/-- UNKNOWN_OPCODE (R191): a GO with an opcode of the sender's choice. -/
def execUnknownOpcode (op tag : Word) (args : List Word) (s : State) : Host.Outcome State Fault Refusal := .next (issueCommand op tag args s)

/-- COMMAND_COMPLETE (R178): the long command in execution in a lane ends, and the next of its lane starts. -/
def execCommandComplete (lane : BitVec 2) (s : State) : Host.Outcome State Fault Refusal := .next (pump (completeLane lane s))

/-- CAL_DONE (R198): accepted work ends, with its value or its failing items. -/
def execCalDone (w : WorkId) (value : W32) (fails : List Nat) (s : State) : Host.Outcome State Fault Refusal :=
  .next (workDone w value fails s)

/-- QUIET_POINT (R504): an item's waiting offset takes effect. -/
def execQuietPoint (item : Word) (s : State) : Host.Outcome State Fault Refusal := .next (applyCal item s)

/-- MARCH_ROUND (R509, R513). -/
def execMarchRound (cells : BitVec 11) (bad : List (BitVec 17)) (s : State) : Host.Outcome State Fault Refusal :=
  .next (marchRound cells bad s)

/-- REORDER_TIMEOUT (R518). -/
def execReorderTimeout (point : Word) (s : State) : Host.Outcome State Fault Refusal := .next (pump (reorderTimeout point s))

/-- TRACE_SEGMENT (R525): nothing while the trace is stopped. -/
def execTraceSegment (s : State) : Host.Outcome State Fault Refusal := .next (if s.fi.stopped then s else closeSegment s)

end Sys2Proof.Machine
end

