-- ==== Sys2Proof/Machine/DeflateRows.lean ====
section
/-! DEFINITION. Meanings of the rows of the DEFLATE engine (chapter 15). -/

namespace Sys2Proof.Machine

/-- PROD (R400, R401, R412). -/
def execProd (v : BitVec 7) (s : State) : Host.Outcome State Fault Refusal := .next (writeProd v s)

/-- ABORT (R410). -/
def execAbort (s : State) : Host.Outcome State Fault Refusal := .next (deflateAbort s)

/-- DEFLATE_JOB (R399, R401-R409). -/
def execDeflateJob (s : State) : Host.Outcome State Fault Refusal := .next (deflateJob s)

end Sys2Proof.Machine
end

