-- ==== Sys2Proof/Machine/HostRows.lean ====
section
/-! DEFINITION. Meanings of the host-port rows (chapter 06), each the access it names. -/

namespace Sys2Proof.Machine

/-- REGISTER_WRITE (R8, R9, R151, R157): a write to a word slot; with RD# low besides, the access is ignored. -/
def execRegisterWrite (slot : BitVec 6) (w : WriteCycle) (s : State) : Host.Outcome State Fault Refusal :=
  .next (if w.rdLow then hostBoth s else hostWrite slot.toNat w.value s)

/-- READ_CLEAR (R10): a word with RC fields, at its internal address. -/
def execReadClear (a : Addr) (s : State) : Host.Outcome State Fault Refusal := .next (readAt a s)

/-- HKEY (R156, R157). -/
def execHkey (v : Word) (s : State) : Host.Outcome State Fault Refusal := .next (hostWrite 0x05 v s)

/-- CMD_FIFO (R161). -/
def execCmdFifo (w : Word) (s : State) : Host.Outcome State Fault Refusal := .next (hostWrite 0x0B w s)

/-- CMD_CLEAR (R161). -/
def execCmdClear (s : State) : Host.Outcome State Fault Refusal := .next (hostWrite 0x0C 2 s)

/-- RSP_FIFO (R163). -/
def execRspFifo (s : State) : Host.Outcome State Fault Refusal := .next (readInto 0x10 s)

/-- REMOVE_HEAD_RESPONSE (R163). -/
def execRemoveHeadResponse (s : State) : Host.Outcome State Fault Refusal := .next (hostWrite 0x0F 0x8000 s)

/-- EVT_FIFO (R164). -/
def execEvtFifo (s : State) : Host.Outcome State Fault Refusal := .next (readInto 0x12 s)

/-- APERTURE_READ (R167-R169). -/
def execApertureRead (s : State) : Host.Outcome State Fault Refusal := .next (readInto 0x16 s)

/-- APERTURE_WRITE (R167-R169). -/
def execApertureWrite (d1 : Word) (s : State) : Host.Outcome State Fault Refusal := .next (hostWrite 0x17 d1 s)

/-- TIME0_READ (R171). -/
def execTime0Read (s : State) : Host.Outcome State Fault Refusal := .next (readInto 0x19 s)

/-- SAFE_CTL_CLEAR (R173, R483). -/
def execSafeCtlClear (s : State) : Host.Outcome State Fault Refusal := .next (hostWrite 0x1E 1 s)

/-- SAFE_CTL_ENTER (R174). -/
def execSafeCtlEnter (s : State) : Host.Outcome State Fault Refusal := .next (hostWrite 0x1E 2 s)

/-- SRC_PREF (R67). -/
def execSrcPref (v : BitVec 3) (s : State) : Host.Outcome State Fault Refusal := .next (hostWrite 0x1F (v.setWidth 16 <<< 13) s)

/-- SWITCH (R147). -/
def execSwitchBank (s : State) : Host.Outcome State Fault Refusal := .next (hostWrite 0x24 0x0100 s)

/-- HWDOG_SET (R177). -/
def execHwdogSet (period : BitVec 12) (s : State) : Host.Outcome State Fault Refusal := .next (hostWrite 0x26 (period.setWidth 16) s)

/-- HWDOG_KICK (R177): the timer restarts, and its rows come as its time passes. -/
def execHwdogKick (s : State) : Host.Outcome State Fault Refusal := .next (hostWrite 0x26 0xA000 s)

/-- KILL (R521). -/
def execKill (s : State) : Host.Outcome State Fault Refusal := .next (hostWrite 0x27 2 s)

end Sys2Proof.Machine
end

