-- ==== Sys2Proof/Machine/IsmRows.lean ====
section
/-! DEFINITION. Meanings of the Ismorlink rows (chapter 17). A received frame goes through `ismArrive`; the rows of
timers and of sending act while the bypass is open. A command that arrives joins its lane, and lanes run on. -/

namespace Sys2Proof.Machine

/-- A frame received with its header, and the lanes afterwards. -/
def received (h : IsmHdr) (acked : Bool) (b : IsmBody) (s : State) : Host.Outcome State Fault Refusal :=
  .next (pump (ismArrive h acked b s))

/-- What the module does of its own on Ismorlink, with the bypass open. -/
def ismOwn (f : State → State) (s : State) : Host.Outcome State Fault Refusal :=
  .next (if bypassClosed s then s else pump (f s))

/-- LINK (R433): a LINK frame during training. -/
def execLink (h : IsmHdr) (i : LinkInfo) (acked : Bool) (s : State) : Host.Outcome State Fault Refusal := received h acked (.link i) s

/-- LINK_DOWN (R433): loss of the receive clock, or code errors. -/
def execLinkDown (p : PortNo) (errors : Bool) (s : State) : Host.Outcome State Fault Refusal :=
  ismOwn (ismDown p (if errors then 4 else 1)) s

/-- ACK (R435). -/
def execAck (p : PortNo) (lseq : Word) (s : State) : Host.Outcome State Fault Refusal := ismOwn (ackArrive p lseq) s

/-- ACK_TIMEOUT (R435). -/
def execAckTimeout (p : PortNo) (s : State) : Host.Outcome State Fault Refusal := ismOwn (ackTimeout p) s

/-- HEARTBEAT (R453). -/
def execHeartbeat (h : IsmHdr) (seq : Word) (state : BitVec 4) (summitOk safe test : Bool) (s : State) : Host.Outcome State Fault Refusal :=
  received h true (.heartbeat seq state summitOk safe test) s

/-- HEARTBEAT_SEND (R452). -/
def execHeartbeatSend (s : State) : Host.Outcome State Fault Refusal := ismOwn sendHeartbeats s

/-- HB_TIMEOUT (R454). -/
def execHbTimeout (addr : Word) (s : State) : Host.Outcome State Fault Refusal := ismOwn (hbTimeout addr) s

/-- SUMMIT_LOST (R480). -/
def execSummitLost (s : State) : Host.Outcome State Fault Refusal := ismOwn summitLost s

/-- SYNC_SEND (R457). -/
def execSyncSend (s : State) : Host.Outcome State Fault Refusal := ismOwn sendSync s

/-- SYNC (R457). -/
def execSync (h : IsmHdr) (t1 : TimePair) (s : State) : Host.Outcome State Fault Refusal := received h true (.sync t1) s

/-- DELAY_REQ (R457). -/
def execDelayReq (h : IsmHdr) (t3 : TimePair) (s : State) : Host.Outcome State Fault Refusal := received h true (.delayReq t3) s

/-- DELAY_RESP (R457, R458). -/
def execDelayResp (h : IsmHdr) (t4 : TimePair) (s : State) : Host.Outcome State Fault Refusal := received h true (.delayResp t4) s

/-- SEARCH_BEGIN (R441). -/
def execSearchBegin (h : IsmHdr) (full : Bool) (s : State) : Host.Outcome State Fault Refusal := received h true (.searchBegin full) s

/-- QUERY (R442). -/
def execQuery (h : IsmHdr) (qid : Word) (len : BitVec 6) (bits : Uid) (s : State) : Host.Outcome State Fault Refusal :=
  received h true (.query qid len bits) s

/-- CLAIM (R442). -/
def execClaim (h : IsmHdr) (qid : Word) (uid : Uid) (s : State) : Host.Outcome State Fault Refusal := received h true (.claim qid uid) s

/-- MARK (R444). -/
def execMark (h : IsmHdr) (uid : Uid) (s : State) : Host.Outcome State Fault Refusal := received h true (.mark uid) s

/-- SEARCH_END (R445). -/
def execSearchEnd (h : IsmHdr) (s : State) : Host.Outcome State Fault Refusal := received h true .searchEnd s

/-- SEARCH_REPLY (R442). -/
def execSearchReply (h : IsmHdr) (a : SearchAnswer) (s : State) : Host.Outcome State Fault Refusal := received h true (.searchReply a) s

/-- SEARCH_REPLY_TIMEOUT (R442). -/
def execSearchReplyTimeout (qid : Word) (s : State) : Host.Outcome State Fault Refusal := ismOwn (replyTimeout qid) s

/-- ADDRESS (R437, R444, R445, R460). A module that leaves HELD may be due for STANDBY at once. -/
def execAddress (h : IsmHdr) (uid : Uid) (addr : Word) (hold release : Bool) (s : State) : Host.Outcome State Fault Refusal :=
  let s := ismArrive h true (.address uid addr hold release) s
  .next (pump (standbyDue s))

/-- MGMT_REQ (R438, R450). -/
def execMgmtReq (h : IsmHdr) (op tag : Word) (args : List Word) (s : State) : Host.Outcome State Fault Refusal :=
  received h true (.mgmtReq op tag args) s

/-- MGMT_RSP (R450). -/
def execMgmtRsp (h : IsmHdr) (status tag : Word) (words : List Word) (s : State) : Host.Outcome State Fault Refusal :=
  received h true (.mgmtRsp status tag words) s

/-- FORWARD_TIMEOUT (R194). -/
def execForwardTimeout (s : State) : Host.Outcome State Fault Refusal := .next (pump (forwardTimeout s))

/-- EVENT (R451). -/
def execEvent (h : IsmHdr) (record : List Word) (s : State) : Host.Outcome State Fault Refusal := received h true (.event record) s

/-- ATTACH (R447). -/
def execAttach (h : IsmHdr) (port : PortNo) (s : State) : Host.Outcome State Fault Refusal := received h true (.attach port) s

/-- LOSS (R448). -/
def execLoss (h : IsmHdr) (port : PortNo) (addr : Option Word) (uid : Uid) (s : State) : Host.Outcome State Fault Refusal :=
  received h true (.loss port addr uid) s

/-- LOSS_PING (R448). -/
def execLossPing (addr : Word) (s : State) : Host.Outcome State Fault Refusal := ismOwn (lossPing addr) s

/-- MOVE (R455). -/
def execMove (h : IsmHdr) (port : PortNo) (uid : Uid) (addr : Option Word) (s : State) : Host.Outcome State Fault Refusal :=
  received h true (.move port uid addr) s

/-- HB_LOSS (R480). -/
def execHbLoss (h : IsmHdr) (addr : Word) (s : State) : Host.Outcome State Fault Refusal := received h true (.hbLoss addr) s

/-- MISSED (R447). -/
def execMissed (h : IsmHdr) (uid : Uid) (s : State) : Host.Outcome State Fault Refusal := received h true (.missed uid) s

/-- ADDR_ACK (R438). -/
def execAddrAck (h : IsmHdr) (addr : Word) (uid : Uid) (s : State) : Host.Outcome State Fault Refusal := received h true (.addrAck addr uid) s

/-- CONFLICT (R444). -/
def execConflict (h : IsmHdr) (uid parentUid : Uid) (parent : Option Word) (port : PortNo) (s : State) : Host.Outcome State Fault Refusal :=
  received h true (.conflict uid parentUid parent port) s

/-- AUTO_SEARCH_START (R447). -/
def execAutoSearchStart (s : State) : Host.Outcome State Fault Refusal := ismOwn autoSearch s

/-- PING (R446). -/
def execPing (h : IsmHdr) (seq : Word) (s : State) : Host.Outcome State Fault Refusal := received h true (.ping seq) s

/-- PING_REPLY (R446). -/
def execPingReply (h : IsmHdr) (seq imageStatus : Word) (s : State) : Host.Outcome State Fault Refusal :=
  received h true (.pingReply seq imageStatus) s

/-- PING_TIMEOUT (R446, R448). -/
def execPingTimeout (addr : Word) (s : State) : Host.Outcome State Fault Refusal := ismOwn (pingTimeout addr) s

/-- BCAST (R461). -/
def execBcast (h : IsmHdr) (op tag : Word) (args : List Word) (deadline : W32) (s : State) : Host.Outcome State Fault Refusal :=
  received h true (.bcast op tag args deadline) s

/-- BCAST_REPLY (R461). -/
def execBcastReply (h : IsmHdr) (c : BcastCounts) (s : State) : Host.Outcome State Fault Refusal := received h true (.bcastReply c) s

/-- BCAST_DEADLINE (R461). -/
def execBcastDeadline (s : State) : Host.Outcome State Fault Refusal := .next (pump (bcastDeadline s))

end Sys2Proof.Machine
end

