-- ==== Sys2Proof/Machine/Network.lean ====
section
/-! DEFINITION. Meanings of the rows of Ethernet, the IP interfaces, sessions and highways (chapter 13) that are
not host commands. -/

namespace Sys2Proof.Machine

/-- HIGHWAY_ALIGNED (R86, R372). -/
def execHighwayAligned (n : HwyNo) (s : State) : Host.Outcome State Fault Refusal := .next (alignHwy n s)

/-- ALIGNMENT_LOSS (R86, R372). -/
def execAlignmentLoss (n : HwyNo) (cause : AlignCause) (s : State) : Host.Outcome State Fault Refusal :=
  .next (loseHwy n (match cause with
    | .clkLost => 1
    | .fsBad => 2) s)

/-- HIGHWAY_CONFIG_APPLY (R369). -/
def execHighwayConfigApply (n : HwyNo) (s : State) : Host.Outcome State Fault Refusal := .next (applyHwy n s)

/-- SLIP (R370, R371). -/
def execSlip (n : HwyNo) (transmit fast : Bool) (s : State) : Host.Outcome State Fault Refusal := .next (slipHwy n transmit fast s)

/-- HIGHWAY_FRAME (R85, R86, R366, R368, R370, R516, Table 13-6). -/
def execHighwayFrame (n : HwyNo) (f : HwyFrame) (s : State) : Host.Outcome State Fault Refusal :=
  .next (frameHwy n f.fsOk f.drift f.octets s)

/-- TRANSCEIVER_REMOVED (R95, Table 13-3). -/
def execTransceiverRemoved (p : PortNo) (overcurrent : Bool) (s : State) : Host.Outcome State Fault Refusal :=
  .next (cageRemoved p overcurrent s)

/-- TRANSCEIVER_INSERTED (R95, Table 13-3). -/
def execTransceiverInserted (p : PortNo) (powerLevel1 : Bool) (memory : SfpMemory) (s : State) : Host.Outcome State Fault Refusal :=
  .next (cageInserted p powerLevel1 memory.readable memory.diagnostics s)

/-- ETH_PORT_DOWN (R345). -/
def execEthPortDown (p : PortNo) (noCommonMode : Bool) (s : State) : Host.Outcome State Fault Refusal :=
  .next (portDown p (if noCommonMode then 2 else 1) s)

/-- ETH_PORT_UP (R344, R345). -/
def execEthPortUp (p : PortNo) (speed : BitVec 3) (s : State) : Host.Outcome State Fault Refusal := .next (portUp p speed s)

/-- FRAME_RECEIVE (R346-R358, R365): a frame reaches a port that has link. -/
def execFrameReceive (p : PortNo) (frame : List Byte) (s : State) : Host.Outcome State Fault Refusal :=
  .next (if (getPort s p).up then frameArrive p frame s else s)

/-- FRAME_TRANSMIT_DONE (R349). -/
def execFrameTransmitDone (p : PortNo) (s : State) : Host.Outcome State Fault Refusal := .next (txDone p s)

/-- MAC_AGEING (R346). -/
def execMacAgeing (vid : BitVec 12) (mac : Mac) (s : State) : Host.Outcome State Fault Refusal :=
  .next (s.setSw { s.sw with macTable := s.sw.macTable.filter (fun e => !(e.1 = vid && e.2.1 = mac)) })

/-- NEIGHBOUR_RETRY (R355). -/
def execNeighbourRetry (p : PortNo) (ip : Ip) (s : State) : Host.Outcome State Fault Refusal := .next (retryNeighbour p ip s)

/-- NEIGHBOUR_REFRESH (R355). -/
def execNeighbourRefresh (p : PortNo) (ip : Ip) (s : State) : Host.Outcome State Fault Refusal := .next (refreshNeighbour p ip s)

/-- ROUTER_COMMIT (R374): a write of the word at +0x4C. -/
def execRouterCommit (p : PortNo) (v : W32) (s : State) : Host.Outcome State Fault Refusal := .next (writeRouter p 3 v s)

/-- SENDER_REPORT (R360). -/
def execSenderReport (c : ChanNo) (s : State) : Host.Outcome State Fault Refusal :=
  .next (match findChan s c with
    | some x => senderReport x s
    | none => s)

/-- KEYS_TIMEOUT (R363). -/
def execKeysTimeout (c : ChanNo) (s : State) : Host.Outcome State Fault Refusal := .next (keysTimeout c s)

/-- OLD_CONTEXT_EXPIRY (R364). -/
def execOldContextExpiry (c : ChanNo) (s : State) : Host.Outcome State Fault Refusal :=
  .next (modChan c (fun y => { y with rxOld := none }) s)

end Sys2Proof.Machine
end

