-- ==== Sys2Proof/Machine/SafetyRows.lean ====
section
/-! DEFINITION. Meanings of the rows of functional safety (chapter 18) that are not host commands. In RESET
none of the mechanisms runs. -/

namespace Sys2Proof.Machine

/-- Something the module notices while it is out of RESET. -/
def whileAwake (f : State → State) (s : State) : Host.Outcome State Fault Refusal := .next (if awake s then f s else s)

/-- COMPARATOR_TEST (R474). -/
def execComparatorTest (flagged other : Bool) (s : State) : Host.Outcome State Fault Refusal :=
  whileAwake (comparatorTest flagged other) s

/-- CHECKER_TEST (R475). -/
def execCheckerTest (pass : Bool) (s : State) : Host.Outcome State Fault Refusal := whileAwake (checkerTest pass) s

/-- SCRUB (R477, Table 18-3). -/
def execScrub (t : DupTable) (d : Option TableDiff) (entry : BitVec 13) (s : State) : Host.Outcome State Fault Refusal :=
  whileAwake (scrub t d entry) s

/-- LOCKSTEP_MISMATCH (R473). -/
def execLockstepMismatch (s : State) : Host.Outcome State Fault Refusal := whileAwake lockstepMismatch s

/-- ECC_UNCORRECTABLE (R476). -/
def execEccUncorrectable (p : EccPlace) (s : State) : Host.Outcome State Fault Refusal := whileAwake (eccError p) s

/-- ECC_CORRECTED (R476). -/
def execEccCorrected (s : State) : Host.Outcome State Fault Refusal :=
  whileAwake (fun s => s.setSaf { s.saf with eccCorr := satAdd s.saf.eccCorr 1 }) s

/-- VOLTAGE (R478). -/
def execVoltage (s : State) : Host.Outcome State Fault Refusal := whileAwake (moduleSafe 0x31) s

/-- DIE_TEMP: a die temperature in °C, two's complement (R478). -/
def execDieTemp (celsius : BitVec 9) (s : State) : Host.Outcome State Fault Refusal :=
  whileAwake (fun s => if 135 < celsius.toInt then moduleSafe 0x32 s else s) s

end Sys2Proof.Machine
end

