-- ==== Sys2Proof/Machine/Scheduler.lean ====
section
/-! DEFINITION. Meanings of the frame scheduler's rows (chapter 08, R106-R108, R223). A row of a request
port writes the port's fields and then GO (R229). -/

namespace Sys2Proof.Machine

/-- The request port filled with a request's fields, and GO written; a master without a port does nothing. -/
def request (m : Master) (p : ReqPort) (s : State) : State :=
  if hasReqPort s m then
    let old := getReq s m
    reqGo m (putReq m { p with status := old.status, out := old.out } s)
  else s

def reqWord0 (op : Nat) (level : BitVec 3) (cls : Byte) (flow : Word) : W32 :=
  pack 32 [(op, 0), (level.toNat, 4), (cls.toNat, 8), (flow.toNat, 16)]

/-- CREATE (R206, R225, R230). -/
def execCreate (m : Master) (flow : Word) (cls : Byte) (req opt : BitVec 4) (seq : Word) (arg0 arg1 : W32) (s : State) :
    Host.Outcome State Fault Refusal :=
  let p := getReq s m
  .next (request m { p with w00 := reqWord0 1 0 cls flow, w04 := pack 32 [(req.toNat, 0), (opt.toNat, 4), (seq.toNat, 16)], arg0 := arg0, arg1 := arg1 } s)

/-- TOKEN (R204, R205, R201). -/
def execToken (m : Master) (handle : W32) (slot : BitVec 2) (s : State) : Host.Outcome State Fault Refusal :=
  let p := getReq s m
  .next (request m { p with w00 := reqWord0 2 0 0 0, w04 := pack 32 [(slot.toNat, 8)], arg0 := handle } s)

/-- ALMANAC (R214, R216). -/
def execAlmanac (m : Master) (list : BitVec 2) (handle : W32) (slot : BitVec 2) (delay period : BitVec 20) (s : State) :
    Host.Outcome State Fault Refusal :=
  let p := getReq s m
  .next (request m { p with w00 := reqWord0 3 0 0 0, w04 := pack 32 [(slot.toNat, 8), (list.toNat, 10)], arg0 := handle, delay := delay, period := period } s)

/-- SET_LEVEL (R210, R225). -/
def execSetLevel (m : Master) (flow : Word) (level : BitVec 3) (s : State) : Host.Outcome State Fault Refusal :=
  let p := getReq s m
  .next (request m { p with w00 := reqWord0 4 level 0 flow } s)

/-- RESERVE (R224). -/
def execReserve (m : Master) (flow : Word) (lu : BitVec 18) (s : State) : Host.Outcome State Fault Refusal :=
  let p := getReq s m
  .next (request m { p with w00 := reqWord0 5 0 0 flow, arg0 := lu.setWidth 32 } s)

/-- CANCEL (R206). -/
def execCancel (m : Master) (flow : Word) (s : State) : Host.Outcome State Fault Refusal :=
  let p := getReq s m
  .next (request m { p with w00 := reqWord0 6 0 0 flow } s)

/-- GRAPH_RETRY (R220). -/
def execGraphRetry (c : ChanNo) (s : State) : Host.Outcome State Fault Refusal := .next (graphRetry c s)

/-- POINT_CHANGE: a core without a task in service takes the point it waits for (R108); a withdrawn core keeps its own (R106). -/
def execPointChange (n : CoreNo) (s : State) : Host.Outcome State Fault Refusal :=
  let c := getCore s n
  .next (if corePresent s n && c.busy.isNone && !c.withdrawn then putCore n { c with point := c.target } s else s)

/-- PLAYOUT (R21, R35, R467). -/
def execPlayout (c : ChanNo) (s : State) : Host.Outcome State Fault Refusal := .next (playout c s)

/-- EGRESS_TRANSMIT (R23, R467). -/
def execEgressTransmit (c : ChanNo) (s : State) : Host.Outcome State Fault Refusal := .next (egress c s)

/-- SHEDDING (R32). -/
def execShedding (s : State) : Host.Outcome State Fault Refusal := .next (shed s)

end Sys2Proof.Machine
end

