-- ==== Sys2Proof/Machine/Serial.lean ====
section
/-! DEFINITION. Meanings of the rows of the serial ports (chapter 16) that are not host commands. -/

namespace Sys2Proof.Machine

/-- UART_DATA_WRITE (R418, R422, Table 16-5). -/
def execUartDataWrite (n : BitVec 3) (c : Byte) (s : State) : Host.Outcome State Fault Refusal :=
  .next (onUart n.toNat (uartWrite1 c) s)

/-- UART_DATA_READ (R432): the word read stands in the aperture's result. -/
def execUartDataRead (n : BitVec 3) (s : State) : Host.Outcome State Fault Refusal :=
  let r := uartPop n.toNat s
  .next (r.1.setHost { r.1.host with lastAperture := r.2 })

/-- BRK (R416). -/
def execBrk (n : BitVec 3) (on : Bool) (s : State) : Host.Outcome State Fault Refusal := .next (onUart n.toNat (setBrk on) s)

/-- RST (R425). -/
def execRst (n : BitVec 3) (level : Bool) (s : State) : Host.Outcome State Fault Refusal := .next (onUart n.toNat (setRst level) s)

/-- CLKEN (R423). -/
def execClken (n : BitVec 3) (on : Bool) (s : State) : Host.Outcome State Fault Refusal := .next (onUart n.toNat (setClken on) s)

/-- TXFLUSH (Table 16-5). -/
def execTxflush (n : BitVec 3) (s : State) : Host.Outcome State Fault Refusal := .next (onUart n.toNat txFlush s)

/-- RXFLUSH (Table 16-5). -/
def execRxflush (n : BitVec 3) (s : State) : Host.Outcome State Fault Refusal := .next (onUart n.toNat rxFlush s)

/-- CHARACTER_RECEIVED: the levels after the start bit (R415, R419, R422, R425, R427). While J1 outputs are
released the receiver sees the idle level (R430). -/
def execCharacterReceived (n : BitVec 3) (bits : List Bool) (s : State) : Host.Outcome State Fault Refusal :=
  .next (if j1Enabled s then onUart n.toNat (charReceived bits) s else s)

/-- CHARACTER_SENT (R416, R418, R427). -/
def execCharacterSent (n : BitVec 3) (errorSignal : Bool) (s : State) : Host.Outcome State Fault Refusal :=
  .next (onUart n.toNat (charSent errorSignal) s)

/-- DE_TAIL (R418). -/
def execDeTail (n : BitVec 3) (s : State) : Host.Outcome State Fault Refusal :=
  .next (onUart n.toNat (fun u => if u.deTail then { u with de := false, deTail := false } else u) s)

/-- COLLISION (R421). -/
def execCollision (n : BitVec 3) (s : State) : Host.Outcome State Fault Refusal := .next (onUart n.toNat collide s)

end Sys2Proof.Machine
end

