-- ==== Sys2Proof/Machine/TensorRows.lean ====
section
/-! DEFINITION. Meanings of the tensor rows (chapter 11). A job row runs the job whose descriptor it carries. -/

namespace Sys2Proof.Machine

/-- GEMM (R295). -/
def execGemm (e : BitVec 1) (d : JobDesc) (s : State) : Host.Outcome State Fault Refusal := .next (runTensor 1 e d s)

/-- GEMM_ACC (R295). -/
def execGemmAcc (e : BitVec 1) (d : JobDesc) (s : State) : Host.Outcome State Fault Refusal := .next (runTensor 2 e d s)

/-- EW_MUL (R311). -/
def execEwMul (e : BitVec 1) (d : JobDesc) (s : State) : Host.Outcome State Fault Refusal := .next (runTensor 3 e d s)

/-- EW_ADD (R311). -/
def execEwAdd (e : BitVec 1) (d : JobDesc) (s : State) : Host.Outcome State Fault Refusal := .next (runTensor 4 e d s)

/-- ACT (R311). -/
def execAct (e : BitVec 1) (d : JobDesc) (s : State) : Host.Outcome State Fault Refusal := .next (runTensor 5 e d s)

/-- TEST_VECTORS (R307, R144): the engine's result joins a running SELFTEST 2. -/
def execTestVectors (e : BitVec 1) (pass : Bool) (s : State) : Host.Outcome State Fault Refusal :=
  .next (if (serving s (.te e)).isSome then s else noteUnit 2 e.toNat pass (testVectors e pass s))

end Sys2Proof.Machine
end

