-- ==== Sys2Proof/Machine/CoreOps.lean ====
section
/-! DEFINITION. A voice core (chapter 10): dispatch, instruction words built slot by slot, exposed latencies
(R263, R264), delay words, the hardware loop, addressing, protection, DMA and interrupts. -/

namespace Sys2Proof.Machine

/-- A core that has run no task. -/
def Core.atReset : Core :=
  { f := List.replicate 64 0, p := List.replicate 16 0, b := List.replicate 16 0, l := List.replicate 16 0,
    e := List.replicate 4 0, lc := 0, ls := 0, le := 0, la := false, rot := false, tbFlag := false, rb := 0,
    fstat := 0, acscr := 0, stmin := 0, tb := 0, acsRan := false, threeBus := false, ie := 0, ipend := 0, ipc := 0,
    imode := false, iie := 0, dmaErr := 0, dma := [none, none, none, none], rs := [], pc := 0, word := 0, delay := 0,
    target := none, rtiMode := none, handler := false, firstPass := false, cache := [], pend := [], slots := 0, dests := [],
    posts := [], stores := [], jump := false, ended := none }

def getVc (s : State) (n : CoreNo) : Core := alGet s.vcs n Core.atReset
def putVc (n : CoreNo) (c : Core) (s : State) : State := s.setVcs (alSet s.vcs n c)

/-! ### Dispatch (R287, Table 10-9) -/

/-- Entry of a class as a PM word address. -/
def classEntry (s : State) (k : Nat) : BitVec 12 :=
  match alFind s.sch.classes k with
  | some c => (c.entry >>> 4).setWidth 12
  | none => (Config.vendorEntry k >>> 4).setWidth 12

def classBudget (s : State) (k : Nat) : Nat :=
  match alFind s.sch.classes k with
  | some c => c.budget.toNat
  | none => vendorBudget k

/-- `n` undefined 32-bit values. -/
def freeWords (s : State) (n : Nat) : List W32 := (List.range n).map (fun i => Config.free32 (s.free + i))

/-- The core at dispatch: the registers of R287, the others undefined. -/
def dispatchCore (s : State) (k : Nat) : Core :=
  let w := freeWords s 110
  let u := fun (i : Nat) => w.getD i 0
  { Core.atReset with
    f := w.take 64
    p := 0xFF00 :: (List.range 15).map (fun i => (u (64 + i)).setWidth 16)
    b := (List.range 16).map (fun i => (u (79 + i)).setWidth 16)
    e := (List.range 4).map (fun i => ((u (95 + i)).setWidth 8 : BitVec 8) ++ u (99 + i))
    ls := (u 103).setWidth 12, le := (u 104).setWidth 12, stmin := (u 105).setWidth 16, ipc := (u 106).setWidth 12
    imode := (u 107).getLsbD 0, iie := (u 108).setWidth 3, pc := classEntry s k }

/-- The dispatch block of Table 10-9, from X 0xFF00 on. -/
def dispatchBlock (s : State) (n : CoreNo) (t : Task) : List W32 :=
  [taskHandle t, pack 32 [(t.flow.toNat, 0), (t.cls.toNat, 16), (t.level.toNat, 22)],
   pack 32 [(t.seq.toNat, 0), (t.arrived.toNat, 16)], t.arg0, t.arg1, now s,
   pack 32 [(n.toNat, 0), (pointCode (getCore s n).point, 8)], BitVec.ofNat 32 (classBudget s t.cls.toNat)]

/-- A task enters service on a voice core. -/
def beginCore (n : CoreNo) (t : Task) (s : State) : State :=
  let s := startService t (.vc n) s
  let s := ((dispatchBlock s n t).zipIdx).foldl (fun s e => putX n (0xFF00 + 4 * e.2) e.1 s) s
  State.drawN 110 (putVc n (dispatchCore s t.cls.toNat) s)

/-! ### Registers -/

/-- Physical place of Fn (R275). -/
def physF (c : Core) (n : BitVec 6) : Nat :=
  if n.toNat < 32 then n.toNat else 32 + (n.toNat - 32 + c.rb.toNat) % 32

def rdF (c : Core) (n : BitVec 6) : W32 := c.f.getD (physF c n) 0
def rdP (c : Core) (n : BitVec 4) : Word := c.p.getD n.toNat 0
def rdB (c : Core) (n : BitVec 4) : Word := c.b.getD n.toNat 0
def rdL (c : Core) (n : BitVec 4) : Word := c.l.getD n.toNat 0
def rdE (c : Core) (n : BitVec 2) : Addr := c.e.getD n.toNat 0

def lstatOf (c : Core) : BitVec 9 := pack 9 [(b2n c.la, 0), (b2n c.rot, 1), (b2n c.tbFlag, 2), (c.rb.toNat, 4)]

/-- DMAST: channels busy and channel errors. -/
def dmastOf (c : Core) : BitVec 8 :=
  pack 8 [(b2n (c.dma.getD 0 none).isSome, 0), (b2n (c.dma.getD 1 none).isSome, 1), (b2n (c.dma.getD 2 none).isSome, 2),
    (b2n (c.dma.getD 3 none).isSome, 3), (c.dmaErr.toNat, 4)]

/-- A control register as MOVC reads it (Table 10-3). -/
def ctlValue (c : Core) (r : CtlReg) : W32 :=
  match r with
  | .lc => c.lc.setWidth 32
  | .ls => c.ls.setWidth 32
  | .le => c.le.setWidth 32
  | .lstat => (lstatOf c).setWidth 32
  | .fstat => c.fstat.setWidth 32
  | .acscr => c.acscr.setWidth 32
  | .stmin => c.stmin.setWidth 32
  | .tb => c.tb
  | .mode => BitVec.ofNat 32 (b2n c.threeBus)
  | .ie => c.ie.setWidth 32
  | .ipend => c.ipend.setWidth 32
  | .ipc => c.ipc.setWidth 32
  | .imode => BitVec.ofNat 32 (b2n c.imode)
  | .iie => c.iie.setWidth 32
  | .dmast => (dmastOf c).setWidth 32

/-- The loop has ended: the mode returns to dual-memory (R274). -/
def leaveLoop (c : Core) : Core := { c with la := false, threeBus := false }

/-- A control register written. Of DMAST only the error bits are written; reserved bits stay zero. -/
def setCtl (c : Core) (r : CtlReg) (v : W32) : Core :=
  match r with
  | .lc => { c with lc := v.setWidth 16 }
  | .ls => { c with ls := v.setWidth 12 }
  | .le => { c with le := v.setWidth 12 }
  | .lstat =>
    { c with la := bitOf v 0, rot := bitOf v 1, tbFlag := bitOf v 2, rb := (v >>> 4).setWidth 5,
             threeBus := c.threeBus && bitOf v 0 }
  | .fstat => { c with fstat := (v &&& 0x70F).setWidth 11 }
  | .acscr => { c with acscr := (v &&& 7).setWidth 4 }
  | .stmin => { c with stmin := v.setWidth 16 }
  | .tb => { c with tb := v }
  | .mode => { c with threeBus := bitOf v 0, firstPass := bitOf v 0, cache := [] }
  | .ie => { c with ie := v.setWidth 3 }
  | .ipend => { c with ipend := v.setWidth 3 }
  | .ipc => { c with ipc := v.setWidth 12 }
  | .imode => { c with imode := bitOf v 0 }
  | .iie => { c with iie := v.setWidth 3 }
  | .dmast => { c with dmaErr := (v >>> 4).setWidth 4 }

/-- A result reaches its register. Sticky bits are set, never cleared; bit 4 of them is SAT. -/
def applyPend (c : Core) (p : Pend) : Core :=
  match p.tgt with
  | .f k => { c with f := setAt c.f k (p.val.setWidth 32) }
  | .p n => { c with p := setAt c.p n.toNat (p.val.setWidth 16) }
  | .b n => { c with b := setAt c.b n.toNat (p.val.setWidth 16) }
  | .l n => { c with l := setAt c.l n.toNat (p.val.setWidth 16) }
  | .e n => { c with e := setAt c.e n.toNat p.val }
  | .ctl r => setCtl c r (p.val.setWidth 32)
  | .flags => { c with fstat := (c.fstat &&& 0x0F) ||| ((p.val.setWidth 11) <<< 8) }
  | .sticky => { c with fstat := c.fstat ||| (p.val.setWidth 11 &&& 0xE), acscr := c.acscr ||| (if bitOf p.val 4 then 4 else 0) }

/-- Results due by word `w` reach their registers in the order of their words (R264). -/
def applyDue (w : Nat) (c : Core) : Core :=
  let (now, later) := c.pend.partition (fun p => p.due ≤ w)
  now.foldl applyPend { c with pend := later }

/-- Every operation in flight writes its result (R280). -/
def applyAll (c : Core) : Core :=
  let last := c.pend.foldl (fun m p => max m p.due) c.word
  (List.range (last + 1 - c.word)).foldl (fun c i => applyDue (c.word + i) c) c

/-! ### One word -/

/-- What an operation does: a fault code of Table 10-8, or the core and the machine after it. -/
abbrev OpRes := Except Nat (Core × State)

/-- A result for word `i + lat`, its register named as a destination of this word (R262, R263). -/
def result (lat : Nat) (t : WTarget) (v : BitVec 40) (c : Core) : Except Nat Core :=
  if t ∈ c.dests then .error 2
  else .ok { c with dests := c.dests ++ [t], pend := c.pend ++ [⟨c.word + lat, c.word, t, v⟩] }

/-- A side result that no slot names as its destination. -/
def sideResult (lat : Nat) (t : WTarget) (v : BitVec 40) (c : Core) : Core :=
  { c with pend := c.pend ++ [⟨c.word + lat, c.word, t, v⟩] }

/-- Two results of one word for one pointer, due in the same cycle, an operation's and a post-modification's: the
manual orders results of different words alone (R264), so `first` says which of the two is kept (log 90). -/
def settleTie (first : Bool) (p : BitVec 4) (c : Core) : Core :=
  let mine := c.pend.filter (fun x => x.tgt = .p p && decide (x.issued = c.word) && decide (x.due = c.word + 1))
  match mine with
  | [a, b] => { c with pend := c.pend.erase (if first then b else a) }
  | _ => c

/-- A pointer of the word in progress has two results due in one cycle. -/
def tied (c : Core) (p : BitVec 4) : Bool :=
  (c.pend.filter (fun x => x.tgt = .p p && decide (x.issued = c.word) && decide (x.due = c.word + 1))).length = 2

/-- The 32-bit value of a result. -/
def v40 (v : W32) : BitVec 40 := v.setWidth 40

/-- A taken branch, CALL, RET or RTI: control goes to `t` after this word and two delay words (R266). -/
def jumpTo (t : BitVec 12) (c : Core) : Core := { c with delay := 3, target := some t }

/-- The word in progress is the last of the loop body. -/
def atLoopEnd (c : Core) : Bool := c.la && c.pc = c.le

/-- Loop control after a word (R275): the core, and whether a free value was used. LC = 0 with the loop active has
no stated outcome. -/
def loopStep (again : Bool) (c : Core) : Core :=
  let next := { c with pc := c.pc + 1 }
  if atLoopEnd c then
    if 1 < c.lc.toNat ∨ (c.lc = 0 ∧ again) then
      { c with pc := c.ls, lc := c.lc - 1, rb := if c.rot then c.rb - 1 else c.rb, firstPass := false }
    else leaveLoop next
  else next

/-- A taken branch that leaves [LS, LE] ends the loop (R276). -/
def branchOut (c : Core) : Core :=
  match c.target with
  | some t => if c.jump && c.la && (t < c.ls || c.le < t) then leaveLoop c else c
  | none => c

/-- Delay words counted down; at the end of the last, control goes to the target, with RTI's restores (R281). -/
def delayStep (c : Core) : Core :=
  if c.delay = 0 then c
  else if c.delay = 1 then
    let c := { c with delay := 0, pc := c.target.getD c.pc, target := none }
    match c.rtiMode with
    | some (m, ie) => { c with threeBus := m, ie := ie, rtiMode := none, handler := false, firstPass := m, cache := [] }
    | none => c
  else { c with delay := c.delay - 1 }

def storeBytes (a : Addr × Nat × W32) (s : State) : State := store s a.1.toNat ((bytes4 a.2.2).take a.2.1)

/-- Word addresses the repeat cache holds (R274). -/
def fillCache (c : Core) : Core :=
  if c.threeBus && c.firstPass && c.pc ∉ c.cache then { c with cache := (c.cache ++ [c.pc]).take 16 } else c

/-! ### DMA (R284) -/

/-- One word of a transfer; an address that does not answer gives an undefined word, and the channel's error bit. -/
def dmaWord (n : CoreNo) (d : Dma) (i : Nat) (acc : State × Bool) : State × Bool :=
  let (s, err) := acc
  let loc := (if d.inY then yBase n else xBase n) + (d.loc.toNat + 4 * i) % 0x10000
  let ext := d.ext.toNat + 4 * i
  if d.toLocal then
    match busRead (.core n) ext s with
    | .ok (s, v) => (s.withMem (memWrite32 s.mem loc v 15), err)
    | .error _ => ((s.withMem (memWrite32 s.mem loc (Config.free32 s.free) 15)).draw, true)
  else
    match busWrite (.core n) ext (readWord s loc) 15 s with
    | .ok s => (s, err)
    | .error _ => (s, true)

/-- A channel's transfer completes. -/
def dmaDone (n : CoreNo) (k : Nat) (s : State) : State :=
  match (getVc s n).dma.getD k none with
  | none => s
  | some d =>
    let (s, err) := (List.range d.count).foldl (fun acc i => dmaWord n d i acc) (s, false)
    let c := getVc s n
    putVc n { c with dma := setAt c.dma k none,
                     dmaErr := if err then c.dmaErr ||| BitVec.ofNat 4 (2 ^ k) else c.dmaErr,
                     ipend := if d.irq then c.ipend ||| 2 else c.ipend } s

def dmaAll (n : CoreNo) (s : State) : State := (List.range 4).foldl (fun s k => dmaDone n k s) s

/-- The end of an instruction word: its stores, the results now due, and the next word's address. END ends the
task once every DMA is complete (R288). -/
def endWord (n : CoreNo) (s : State) : State :=
  let c := getVc s n
  let s := c.stores.foldl (fun s a => storeBytes a s) s
  match c.ended with
  | some r =>
    let s := dmaAll n (putVc n { c with stores := [], ended := none } s)
    match serving s (.vc n) with
    | some t => taskEnds t r s
    | none => s
  | none =>
    let odd := atLoopEnd c && c.lc = 0 || c.posts.any (tied c)
    let c := c.posts.foldl (fun c p => settleTie (Config.freeBit (s.free + 1)) p c) c
    let c := delayStep (loopStep (Config.freeBit s.free) (branchOut (fillCache c)))
    let c := applyDue (c.word + 1) c
    let c := { c with word := c.word + 1, slots := 0, dests := [], posts := [], stores := [], jump := false }
    putVc n c (if odd then State.drawN 2 s else s)

/-- One operation issued in a slot: a slot already used belongs to the word before, which then ends (R261). In a
three-bus body the C slot takes PLD alone (R262). A core without a task does nothing. -/
def issue (i : Iss) (slot : Nat) (pld : Bool) (op : Task → Core → State → OpRes) (s : State) : State :=
  let n := i.core
  let s := if (serving s (.vc n)).isSome && (getVc s n).slots.getLsbD slot then endWord n s else s
  match serving s (.vc n) with
  | none => s
  | some t =>
    let c := getVc s n
    let c := { c with slots := c.slots ||| BitVec.ofNat 5 (2 ^ slot) }
    if slot = 0 && c.threeBus && !pld then coreFault n 2 s
    else
      match op t c s with
      | .error code => coreFault n code s
      | .ok (c, s) =>
        let s := putVc n c s
        if i.last then endWord n s else s

/-! ### Control flow -/

/-- What neither a delay word nor the word at LE may hold (R266, R276). -/
def mayBranch (c : Core) : Except Nat Unit :=
  if c.delay ≠ 0 then .error 1 else if atLoopEnd c then .error 6 else .ok ()

def condHolds (c : Core) (k : Cond) : Bool :=
  match k with
  | .lt v => bitOf c.fstat 8 = v
  | .eq v => bitOf c.fstat 9 = v
  | .un v => bitOf c.fstat 10 = v
  | .pZero n => rdP c n = 0

def takeBranch (taken : Bool) (t : BitVec 12) (c : Core) : Core :=
  if taken then { jumpTo t c with jump := true } else c

def opBranch (k : Cond) (t : BitVec 12) (_ : Task) (c : Core) (s : State) : OpRes := do
  mayBranch c
  .ok (takeBranch (condHolds c k) t c, s)

def opDbnz (p : BitVec 4) (t : BitVec 12) (_ : Task) (c : Core) (s : State) : OpRes := do
  mayBranch c
  let v := rdP c p - 1
  let c ← result 1 (.p p) (v.setWidth 40) c
  .ok (takeBranch (v ≠ 0) t c, s)

def opCall (t : BitVec 12) (_ : Task) (c : Core) (s : State) : OpRes := do
  mayBranch c
  if 8 ≤ c.rs.length then .error 7
  else .ok (jumpTo t { c with rs := (c.pc + 3) :: c.rs }, s)

def opRet (_ : Task) (c : Core) (s : State) : OpRes := do
  mayBranch c
  match c.rs with
  | [] => .error 7
  | a :: r => .ok (jumpTo a { c with rs := r }, s)

def loopCount (c : Core) : LoopCount → Word
  | .reg n => rdP c n
  | .imm v => v

/-- LOOP (R274-R276). A count of 0 goes on after the body, with no loop active. -/
def opLoop (count : LoopCount) (last : BitVec 12) (rot tb : Bool) (_ : Task) (c : Core) (s : State) : OpRes :=
  let first := c.pc + 1
  let size := last.toNat + 1 - first.toNat
  let v := loopCount c count
  if c.la || (tb && (decide (last < first) || decide (16 < size))) then .error 6
  else
    let st : W32 := pack 32 [(b2n (v ≠ 0), 0), (b2n rot, 1), (b2n tb, 2), (c.rb.toNat, 4)]
    let c := if v = 0 && c.delay = 0 then { c with delay := 1, target := some (last + 1) } else c
    let c := sideResult 1 (.ctl .lc) (v.setWidth 40) (sideResult 1 (.ctl .le) (last.setWidth 40) (sideResult 1 (.ctl .ls) (first.setWidth 40) c))
    let c := sideResult 1 (.ctl .lstat) (v40 st) c
    .ok (if tb && v ≠ 0 then sideResult 1 (.ctl .mode) 1 c else c, s)

/-- MODE (R274). -/
def opMode (threeBus : Bool) (_ : Task) (c : Core) (s : State) : OpRes :=
  if threeBus then .error 1 else .ok (sideResult 1 (.ctl .mode) 0 c, s)

def opEnd (r : TaskFinding) (_ : Task) (c : Core) (s : State) : OpRes :=
  if atLoopEnd c then .error 6 else .ok ({ c with ended := some r }, s)

def opSwi (_ : Task) (c : Core) (s : State) : OpRes := .ok ({ c with ipend := c.ipend ||| 4 }, s)

/-- RTI (R281). -/
def opRti (_ : Task) (c : Core) (s : State) : OpRes :=
  if c.delay ≠ 0 then .error 1 else .ok ({ jumpTo c.ipc c with rtiMode := some (c.imode, c.iie) }, s)

/-! ### Protection and addressing -/

/-- Local access of a task (R258, R259): data memory 0 X, 1 Y, 2 PM. Every task finds the dispatch block read-only. -/
def localOk (t : Task) (m : Nat) (write : Bool) (a : Nat) : Bool :=
  if m = 0 && write && decide (0xFF00 ≤ a) && decide (a < 0xFF40) then false
  else !customerClass t.cls || decide (0x8000 ≤ a)

/-- An external access of a task (R285). -/
def externalOk (t : Task) (a bytes : Nat) : Bool :=
  !customerClass t.cls ||
  (decide (0xF0000000 ≤ a) && decide (a + bytes ≤ 0x100000000)) ||
  (decide (0x3800002000 ≤ a) && decide (a + bytes ≤ 0x3800002024)) ||
  (decide (0x3810001000 ≤ a) && decide (a + bytes ≤ 0x3810001118))

/-- The post-modified pointer (R268). -/
def postMod (c : Core) (p : BitVec 4) (m : Int) : Word :=
  let q : Int := (rdP c p).toNat + m
  let b : Int := (rdB c p).toNat
  let l : Int := (rdL c p).toNat
  BitVec.ofInt 16 (if l = 0 then q else if b + l ≤ q then q - l else if q < b then q + l else q)

/-- The address an addressing mode gives, and the pointer after it (R267, R269). -/
def modeAddr (c : Core) (m : AddrMode) : Nat × Option (BitVec 4 × Word) :=
  match m with
  | .indirect p => ((rdP c p).toNat, none)
  | .offset p i => ((rdP c p + BitVec.ofInt 16 i.toInt).toNat, none)
  | .postImm p i => ((rdP c p).toNat, some (p, postMod c p i.toInt))
  | .postReg p k => ((rdP c p).toNat, some (p, postMod c p (rdP c k).toInt))

/-- The post-modification of a word's slot: no other slot post-modifies the same pointer (R262). It is not a
destination that a slot names, so that a load of the pointer itself, or an operation on it, may stand beside it. -/
def applyPost (u : Option (BitVec 4 × Word)) (c : Core) : Except Nat Core :=
  match u with
  | none => .ok c
  | some (p, v) => if p ∈ c.posts then .error 2 else .ok (sideResult 1 (.p p) (v.setWidth 40) { c with posts := c.posts ++ [p] })

/-- Checks of one local access of `n` bytes: protection, then alignment (R259, R269). -/
def checkLocal (t : Task) (m : Nat) (write : Bool) (a n : Nat) : Except Nat Unit :=
  if !localOk t m write a then .error 3 else if a % n ≠ 0 then .error 4 else .ok ()

def memBase (n : CoreNo) (m : Nat) : Nat := if m = 0 then xBase n else if m = 1 then yBase n else coreBase n.toNat

def loadBytes : LoadDst → Nat
  | .f _ => 4
  | .f16 _ => 2
  | .p _ => 2
  | .b _ => 2
  | .l _ => 2

def loadTarget (c : Core) : LoadDst → WTarget
  | .f n => .f (physF c n)
  | .f16 n => .f (physF c n)
  | .p n => .p n
  | .b n => .b n
  | .l n => .l n

/-- The value of a load: 16-bit data are sign-extended into F. -/
def loadValue (d : LoadDst) (w : W32) : BitVec 40 :=
  match d with
  | .f _ => v40 w
  | .f16 _ => v40 ((w.setWidth 16).signExtend 32)
  | .p _ => v40 (w &&& 0xFFFF)
  | .b _ => v40 (w &&& 0xFFFF)
  | .l _ => v40 (w &&& 0xFFFF)

/-- A local load from memory `m` (R263, R267). -/
def opLoad (n : CoreNo) (m : Nat) (d : LoadDst) (a : AddrMode) (t : Task) (c : Core) (s : State) : OpRes := do
  let (x, post) := modeAddr c a
  checkLocal t m false x (loadBytes d)
  let c ← result 3 (loadTarget c d) (loadValue d (readWord s (memBase n m + x))) c
  let c ← applyPost post c
  .ok (c, s)

def storeValue (c : Core) : StoreSrc → W32 × Nat
  | .f n => (rdF c n, 4)
  | .p n => ((rdP c n).setWidth 32, 2)
  | .b n => ((rdB c n).setWidth 32, 2)
  | .l n => ((rdL c n).setWidth 32, 2)

/-- A local store; later words see it (R265). -/
def opStore (n : CoreNo) (m : Nat) (r : StoreSrc) (a : AddrMode) (t : Task) (c : Core) (s : State) : OpRes := do
  let (x, post) := modeAddr c a
  let (v, k) := storeValue c r
  checkLocal t m true x k
  let c ← applyPost post { c with stores := c.stores ++ [(BitVec.ofNat 40 (memBase n m + x), k, v)] }
  .ok (c, s)

/-- PLD reads PM in three-bus mode alone (R273). -/
def opPld (n : CoreNo) (fd : BitVec 6) (a : AddrMode) (t : Task) (c : Core) (s : State) : OpRes :=
  if c.threeBus then opLoad n 2 (.f fd) a t c s else .error 1

/-! ### External access (R283-R285) -/

def extAddr (c : Core) (e : BitVec 2) (off : BitVec 12) : Addr := rdE c e + BitVec.ofInt 40 off.toInt

def checkExt (t : Task) (a bytes : Nat) : Except Nat Unit :=
  if !externalOk t a bytes then .error 5 else if a % 4 ≠ 0 then .error 4 else .ok ()

/-- XLD: an address that does not answer gives an undefined word. -/
def opXld (n : CoreNo) (fd : BitVec 6) (e : BitVec 2) (off : BitVec 12) (t : Task) (c : Core) (s : State) : OpRes := do
  let a := (extAddr c e off).toNat
  checkExt t a 4
  let (s, v) := match busRead (.core n) a s with
    | .ok r => r
    | .error _ => (s.draw, Config.free32 s.free)
  let c ← result 1 (.f (physF c fd)) (v40 v) c
  .ok (c, s)

def opXst (n : CoreNo) (fs : BitVec 6) (e : BitVec 2) (off : BitVec 12) (t : Task) (c : Core) (s : State) : OpRes := do
  let a := (extAddr c e off).toNat
  checkExt t a 4
  match busWrite (.core n) a (rdF c fs) 15 s with
  | .ok s => .ok (c, s)
  | .error _ => .ok (c, s)

def opTime (fd : BitVec 6) (_ : Task) (c : Core) (s : State) : OpRes := do
  let c ← result 1 (.f (physF c fd)) (v40 (now s)) c
  .ok (c, s)

/-- Both ranges of a transfer, and its alignment, checked at issue. -/
def checkDma (t : Task) (inY toLocal : Bool) (ext loc count : Nat) : Except Nat Unit :=
  let m := if inY then 1 else 0
  if !externalOk t ext (4 * count) then .error 5
  else if !(List.range count).all (fun i => localOk t m toLocal ((loc + 4 * i) % 0x10000)) then .error 3
  else if ext % 4 ≠ 0 || loc % 4 ≠ 0 then .error 4
  else .ok ()

/-- DMA (R284): a channel still busy first completes its transfer. A count outside 1–4,096 moves nothing and
sets the channel's error bit. -/
def opDma (n : CoreNo) (k : BitVec 2) (toLocal : Bool) (e : BitVec 2) (p : BitVec 4) (inY : Bool) (cnt : BitVec 4) (irq : Bool)
    (t : Task) (c : Core) (s : State) : OpRes := do
  let words := (rdP c cnt).toNat
  if words = 0 ∨ 4096 < words then .ok ({ c with dmaErr := c.dmaErr ||| BitVec.ofNat 4 (2 ^ k.toNat) }, s)
  else
    checkDma t inY toLocal (rdE c e).toNat (rdP c p).toNat words
    let s := dmaDone n k.toNat (putVc n c s)
    let c := getVc s n
    .ok ({ c with dma := setAt c.dma k.toNat (some ⟨toLocal, rdE c e, rdP c p, inY, words, irq⟩) }, s)

/-- WAITD: the transfers of the masked channels complete. -/
def opWaitd (n : CoreNo) (mask : BitVec 4) (_ : Task) (c : Core) (s : State) : OpRes :=
  let s := (List.range 4).foldl (fun s k => if mask.getLsbD k then dmaDone n k s else s) (putVc n c s)
  .ok (getVc s n, s)

/-! ### The M slot -/

def fzOf (c : Core) : Bool := bitOf c.fstat 0

def stickyBits (r : FRes) : BitVec 40 := pack 40 [(b2n r.fzs, 1), (b2n r.inv, 2), (b2n r.ovf, 3)]

/-- An M-slot result and its sticky bits, usable from word i + 4. -/
def mResult (d : BitVec 6) (r : FRes) (c : Core) (s : State) : OpRes := do
  let c ← result 4 (.f (physF c d)) (v40 r.w) c
  .ok (sideResult 4 .sticky (stickyBits r) c, s)

def opM1 (f : Bool → W32 → FRes) (d a : BitVec 6) (_ : Task) (c : Core) (s : State) : OpRes :=
  mResult d (f (fzOf c) (rdF c a)) c s

def opM2 (f : Bool → W32 → W32 → FRes) (d a b : BitVec 6) (_ : Task) (c : Core) (s : State) : OpRes :=
  mResult d (f (fzOf c) (rdF c a) (rdF c b)) c s

def opFused (negate : Bool) (d a b x : BitVec 6) (_ : Task) (c : Core) (s : State) : OpRes :=
  mResult d (fFused negate (fzOf c) (rdF c a) (rdF c b) (rdF c x)) c s

def opFmovi (d : BitVec 6) (v : W32) (_ : Task) (c : Core) (s : State) : OpRes :=
  mResult d ⟨v, false, false, false⟩ c s

/-- FCVT (R272). A binary16 result stands in bits [15:0]; the bits above are not given. -/
def opFcvt (k : Fcvt) (d a : BitVec 6) (_ : Task) (c : Core) (s : State) : OpRes :=
  let x := rdF c a
  match k with
  | .i16ToF32 => mResult d (i16ToF32 x) c s
  | .f32ToI16 => mResult d (f32ToI16 (fzOf c) x) c s
  | .f16ToF32 => mResult d (f16ToF32 x) c s
  | .f32ToF16 =>
    let r := f32ToF16 (fzOf c) x
    mResult d ⟨((Config.free32 s.free).setWidth 16 : Word) ++ r.1, r.2.1, false, r.2.2⟩ c s.draw

/-! ### The A slot -/

def intSrc {w : Nat} (rd : BitVec w → BitVec v) (b : IntSrc w) : BitVec v :=
  match b with
  | .reg n => rd n
  | .imm x => BitVec.ofInt v x.toInt

/-- A result of the A slot: an undefined one is a free value. -/
def aResult {w : Nat} (t : WTarget) (r : Option (BitVec w)) (c : Core) (s : State) : OpRes := do
  let any : BitVec 40 := ((Config.free32 s.free).setWidth 8 : BitVec 8) ++ Config.free32 (s.free + 1)
  let v : BitVec w := r.getD (any.setWidth w)
  let c ← result 1 t (v.setWidth 40) c
  .ok (c, if r.isSome then s else State.drawN 2 s)

/-- Integer and pointer operations; immediates are sign-extended. -/
def opInteger (o : IntOp) (_ : Task) (c : Core) (s : State) : OpRes :=
  match o with
  | .onF fn d a b => aResult (.f (physF c d)) (intFn fn (rdF c a) (intSrc (rdF c) b)) c s
  | .onP fn d a b => aResult (.p d) (intFn fn (rdP c a) (intSrc (rdP c) b)) c s
  | .onB fn d a b => aResult (.b d) (intFn fn (rdB c a) (intSrc (rdB c) b)) c s
  | .onL fn d a b => aResult (.l d) (intFn fn (rdL c a) (intSrc (rdL c) b)) c s
  | .onE fn d a b => aResult (.e d) (intFn fn (rdE c a) (intSrc (rdE c) b)) c s

def loopReg (r : CtlReg) : Bool := r = .lc || r = .ls || r = .le || r = .lstat

/-- A loop register as MOVC reads it: a write of an earlier word is usable from the next one, at the register's own
width (Tables 10-3, 10-5). -/
def movcRead (c : Core) (r : CtlReg) : W32 :=
  match (c.pend.filter (fun p => p.tgt = .ctl r && decide (p.issued < c.word))).getLast? with
  | some p => if loopReg r then ctlValue (applyPend c p) r else ctlValue c r
  | none => ctlValue c r

/-- MOVC (Table 10-3). A write cannot select three-bus mode, which LOOP alone enters (R274). -/
def opMovc (write : Bool) (r : CtlReg) (f : BitVec 6) (_ : Task) (c : Core) (s : State) : OpRes := do
  if write then
    if r = .mode ∧ bitOf (rdF c f) 0 then .ok (c, s)
    else
      let c ← result (if loopReg r then 2 else 1) (.ctl r) (v40 (rdF c f)) c
      .ok (c, s)
  else
    let c ← result 1 (.f (physF c f)) (v40 (movcRead c r)) c
    .ok (c, s)

/-- FCMP (R272): its flags are usable from word i + 2. -/
def opFcmp (a b : BitVec 6) (_ : Task) (c : Core) (s : State) : OpRes :=
  let r := fCmp (fzOf c) (rdF c a) (rdF c b)
  let c := sideResult 2 .flags (pack 40 [(b2n r.1, 0), (b2n r.2.1, 1), (b2n r.2.2.1, 2)]) c
  .ok (sideResult 2 .sticky (pack 40 [(b2n r.2.2.2, 1)]) c, s)

/-- The newest value of TB or STMIN: ACS4 in consecutive words accumulates (R277, R278). -/
def newest (c : Core) (r : CtlReg) : W32 :=
  match (c.pend.filter (fun p => p.tgt = .ctl r)).getLast? with
  | some p => p.val.setWidth 32
  | none => ctlValue c r

/-- ACS4 (R277). -/
def opAcs4 (d x b : BitVec 6) (_ : Task) (c : Core) (s : State) : OpRes := do
  if d.toNat % 4 ≠ 0 ∨ x.toNat % 4 ≠ 0 ∨ b.toNat % 4 ≠ 0 then .error 1
  else
    let fly := fun (k : Nat) => butterfly (bitOf c.acscr 1) (rdF c (x + BitVec.ofNat 6 k)) (rdF c (b + BitVec.ofNat 6 k))
    let dst := fun (k : Nat) (c : Core) => result 2 (.f (physF c (d + BitVec.ofNat 6 k))) (pack 40 [((fly k).a, 0), ((fly k).b, 16)]) c
    let bits := (List.range 4).foldl (fun m k => m + b2n (fly k).da * 2 ^ (2 * k) + b2n (fly k).db * 2 ^ (2 * k + 1)) 0
    let low := (List.range 4).foldl (fun m k => min m (min (fly k).a (fly k).b)) (newest c .stmin).toNat
    let sat := (List.range 4).any (fun k => (fly k).sat)
    let tb := (newest c .tb <<< 8) ||| BitVec.ofNat 32 bits
    let c ← dst 0 c
    let c ← dst 1 c
    let c ← dst 2 c
    let c ← dst 3 c
    let c := sideResult 2 (.ctl .stmin) (BitVec.ofNat 40 low) (sideResult 2 (.ctl .tb) (v40 tb) { c with acsRan := true })
    .ok (sideResult 2 .sticky (pack 40 [(b2n sat, 4)]) c, s)

/-- ACSSTG (R278). -/
def opAcsstg (_ : Task) (c : Core) (s : State) : OpRes :=
  let nb := bitOf c.acscr 0 && c.acsRan && decide (0x4000 ≤ c.stmin.toNat)
  .ok ({ c with acscr := (c.acscr &&& 13) ||| (if nb then 2 else 0), stmin := 0xFFFF, acsRan := false,
                pend := c.pend.filter (fun p => p.tgt ≠ .ctl .stmin) }, s)

def opMovtb (d : BitVec 6) (_ : Task) (c : Core) (s : State) : OpRes := do
  let c ← result 1 (.f (physF c d)) (v40 c.tb) c
  .ok (c, s)

/-! ### Interrupts (R279, R280) -/

/-- A source becomes pending in a core that runs a task. -/
def setPendBit (n : CoreNo) (b : BitVec 3) (s : State) : State :=
  if (serving s (.vc n)).isSome then putVc n { getVc s n with ipend := (getVc s n).ipend ||| b } s else s

/-- The IPEND bit taken; among several the manual gives no order. -/
def takenBit (s : State) (v : BitVec 3) : BitVec 3 :=
  let l := ([0, 1, 2] : List Nat).filter (fun k => v.getLsbD k)
  BitVec.ofNat 3 (2 ^ l.getD (Config.pickIndex s.free % l.length) 0)

/-- Entry into the handler at a word boundary; handlers do not nest (R281). A class without IVEC leaves the
address open. -/
def interruptEntry (n : CoreNo) (s : State) : State :=
  match serving s (.vc n) with
  | none => s
  | some t =>
    let c := getVc s n
    if c.ipend &&& c.ie = 0 ∨ c.handler ∨ c.delay ≠ 0 ∨ c.slots ≠ 0 then s
    else
      let c := applyAll c
      let ivec := (alFind s.sch.classes t.cls.toNat).bind TClass.ivec
      let pc : BitVec 12 := match ivec with
        | some v => (v >>> 4).setWidth 12
        | none => (Config.free32 (s.free + 1)).setWidth 12
      let bit := takenBit s (c.ipend &&& c.ie)
      State.drawN 2 (putVc n { c with ipc := c.pc, imode := c.threeBus, iie := c.ie, ie := 0, threeBus := false, handler := true,
                                      ipend := c.ipend &&& ~~~bit, pc := pc } s)

end Sys2Proof.Machine
end

