-- ==== Sys2Proof/Machine/Ticks.lean ====
section
/-! DEFINITION. Rows of the frame scheduler and of the queues that need the executors and the command lanes
(chapters 08 and 09): the almanac's firing, frame ticks, dispatch, budgets, drained cores, and register writes. -/

namespace Sys2Proof.Machine

/-! ### The grid moves on (R213-R215, R377) -/

/-- An entry fires, and the command lanes run on. -/
def fireNow (e : AEntry) (s : State) : State := pump (fireDue e s)

/-- A bound on the firings up to sub-grid step `g`: no entry fires twice on one step. -/
def firings (g : Int) (s : State) : Nat := sumOf (fun e => (g + 1 - entryStep s e).toNat) s.sch.entries

/-- Every entry due by sub-grid step `g` fires at its own step, in the order of R215; `n` bounds the firings. -/
def fireUntil : Nat → Int → State → State
  | 0, _, s => s
  | n + 1, g, s =>
    match nextDue s with
    | some e =>
      if entryStep s e ≤ g then fireUntil n g (fireNow e (reach (5000 * entryStep s e) s)) else s
    | none => s

/-- Time moves on to `g` ns of the grid, and what falls due before that instant fires on the way. -/
def moveTo (g : Int) (s : State) : State :=
  let k := (g - 1) / 5000
  reach g (fireUntil (firings k s) k s)

/-- The entries due by sub-grid step `g` fire in the order of R215, each at its own step, until the one numbered `no`
has fired. -/
def fireTo (no : Nat) (g : Int) : Nat → State → State
  | 0, s => s
  | n + 1, s =>
    match nextDue s with
    | some e =>
      if g < entryStep s e then s
      else
        let s := fireNow e (reach (5000 * entryStep s e) s)
        if e.no = no then s else fireTo no g n s
    | none => s

/-- Time moves on to the expiry of an entry of an enabled list, which fires with everything before it. -/
def fireAt (e : AEntry) (s : State) : State :=
  if (getList s e.list.toNat).enable then fireTo e.no (entryStep s e) (firings (entryStep s e) s) s else s

/-- What the block does with no command in its queue: the reset that a response announced, or one cycle of time
(log entry 1), in which the almanac fires what is due and the lanes run on. -/
def idle (s : State) : State :=
  if s.boot.resetSoon then enterReset 3 s
  else if s.pwr.collapse then powerGone s
  else
    let s := passCycles 1 s
    let k := gridStep s.tim
    pump (fireUntil (firings k s) k s)

/-- FRAME_TICK (R203): the channel's next list 0 tick. -/
def execFrameTick (c : ChanNo) (s : State) : Host.Outcome State Fault Refusal :=
  .next (match s.sch.entries.find? (fun e => e.chan = some c) with
    | some e => fireAt e s
    | none => s)

/-- ALMANAC_FIRE (R203, R214, R215): the earliest-due entry of a list. -/
def execAlmanacFire (list : BitVec 2) (s : State) : Host.Outcome State Fault Refusal :=
  .next (match dueEntry list s with
    | none => s
    | some e => fireAt e s)

/-- POINT_PROCEDURE at the 5 ms boundary at which the grid stands, or at the next (R107, R377). -/
def execPointProcedure (s : State) : Host.Outcome State Fault Refusal :=
  .next (pointProcedure true (moveTo (nextEdge 5000000 s.tim) s))

/-- TIME_HALF (R380, R159): time moves on to the next change of bit 31 of the time counter. -/
def execTimeHalf (s : State) : Host.Outcome State Fault Refusal :=
  let left : Nat := 2147483648 - s.tim.counter.toNat % 2147483648
  .next (noteHalf (s.mode != .reset) (moveTo (gridNs s.tim + left) s))

/-- PPS_OUT_EDGE at phase 0 (R171, R377, R394). -/
def execPpsOutEdge (s : State) : Host.Outcome State Fault Refusal :=
  .next (ppsOut (moveTo (nextEdge 1000000000 s.tim) s))

/-- DISPATCH (R207, R267, R306): an idle executor takes the task of its choice, where there is one. -/
def execDispatch (x : Executor) (s : State) : Host.Outcome State Fault Refusal :=
  .next (if executorIdle s x then
    (match chooseTask s x with
     | none => s
     | some t =>
       match x with
       | .vc n => beginCore n t s
       | .te e => beginEngine e t s)
  else s)

/-- BUDGET_EXCEEDED (R221). -/
def execBudgetExceeded (x : Executor) (s : State) : Host.Outcome State Fault Refusal := .next (budgetExceeded x s)

/-- CORE_BIST_START (R223). -/
def execCoreBistStart (n : CoreNo) (s : State) : Host.Outcome State Fault Refusal := .next (bistStart n s)

/-- The core of this BIST is drained and out of service. -/
def bistRuns (n : CoreNo) (s : State) : Bool := (getCore s n).drained && !(getCore s n).draining

/-- CORE_BIST_DONE (R223): the result joins a running SELFTEST 1. -/
def execCoreBistDone (n : CoreNo) (pass : Bool) (s : State) : Host.Outcome State Fault Refusal :=
  .next (if bistRuns n s then noteUnit 1 n.toNat pass (bistDone n pass s) else s)

/-- SPILL_HI_WRITE (R217). -/
def execSpillHiWrite (v : W32) (s : State) : Host.Outcome State Fault Refusal := .next (writeSpillHi v s)

/-- ALMANAC_LIST_WRITE (R228): lists 0 and 3 cannot be changed. -/
def execAlmanacListWrite (list : BitVec 2) (v : W32) (s : State) : Host.Outcome State Fault Refusal :=
  .next (if list = 1 || list = 2 then writeList list.toNat v s else s)

/-- DESCRIPTOR_ENABLE (R257): ENABLE = 0 written, LIMIT and NOTIFY as they are. -/
def execDescriptorEnable (q : QueueNo) (s : State) : Host.Outcome State Fault Refusal :=
  .next (writeCtl q (pack 32 [((getQ s q).limit.toNat, 0), (b2n (getQ s q).notify, 18)]) s)

/-- WATERMARK_WRITE (R248). -/
def execWatermarkWrite (q : QueueNo) (low : Bool) (v : W32) (s : State) : Host.Outcome State Fault Refusal :=
  .next (if low then writeWmLo q v s else writeWmHi q v s)

end Sys2Proof.Machine
end

