-- ==== Sys2Proof/Machine/Time.lean ====
section
/-! DEFINITION. Meanings of the rows of the time unit (chapter 14) that are not host commands. -/

namespace Sys2Proof.Machine

/-- PPS_IN_EDGE (R171, R379, R395). -/
def execPpsInEdge (s : State) : Host.Outcome State Fault Refusal := .next (pump (ppsIn s))

/-- HOLDOVER_ENTRY (R389). -/
def execHoldoverEntry (s : State) : Host.Outcome State Fault Refusal := .next (enterHoldover s)

/-- PTP_MESSAGE (R391, R392). -/
def execPtpMessage (p : PortNo) (m : PtpMsg) (s : State) : Host.Outcome State Fault Refusal := .next (pump (ptpReceive p m s))

/-- PTP_TRANSMIT (R391, R392). -/
def execPtpTransmit (p : PortNo) (k : PtpSend) (s : State) : Host.Outcome State Fault Refusal := .next (ptpSend p k s)

/-- PROBE_EVENT (R397). -/
def execProbeEvent (code : Byte) (s : State) : Host.Outcome State Fault Refusal := .next (probeEvent code s)

/-- PROBE_MARK (R397, R398): a write of PROBE_MARK. -/
def execProbeMark (v : W32) (s : State) : Host.Outcome State Fault Refusal := .next (probeMark v s)

end Sys2Proof.Machine
end

