-- ==== Sys2Proof/Machine/VoiceCore.lean ====
section
/-! DEFINITION. Meanings of the voice-core rows (chapter 10): each operation issues in its slot of the word being
built. Slots: 0 C, 1 M, 2 A, 3 X, 4 Y (Table 10-4). -/

namespace Sys2Proof.Machine

/-- BRANCH (R266). -/
def execBranch (i : Iss) (c : Cond) (target : BitVec 12) (s : State) : Host.Outcome State Fault Refusal :=
  .next (issue i 0 false (opBranch c target) s)

/-- DBNZ (R266). -/
def execDbnz (i : Iss) (p : BitVec 4) (target : BitVec 12) (s : State) : Host.Outcome State Fault Refusal :=
  .next (issue i 0 false (opDbnz p target) s)

/-- CALL (R266). -/
def execCall (i : Iss) (target : BitVec 12) (s : State) : Host.Outcome State Fault Refusal :=
  .next (issue i 0 false (opCall target) s)

/-- RET (R266). -/
def execRet (i : Iss) (s : State) : Host.Outcome State Fault Refusal :=
  .next (issue i 0 false opRet s)

/-- LOOP (R274-R276). -/
def execLoopOp (i : Iss) (count : LoopCount) (last : BitVec 12) (rot tb : Bool) (s : State) : Host.Outcome State Fault Refusal :=
  .next (issue i 0 false (opLoop count last rot tb) s)

/-- MODE (R274). -/
def execModeOp (i : Iss) (threeBus : Bool) (s : State) : Host.Outcome State Fault Refusal :=
  .next (issue i 0 false (opMode threeBus) s)

/-- END (R266, R288). -/
def execEndTask (i : Iss) (r : TaskFinding) (s : State) : Host.Outcome State Fault Refusal :=
  .next (issue i 0 false (opEnd r) s)

/-- SWI (R279). -/
def execSwi (i : Iss) (s : State) : Host.Outcome State Fault Refusal :=
  .next (issue i 0 false opSwi s)

/-- RTI (R281). -/
def execRti (i : Iss) (s : State) : Host.Outcome State Fault Refusal :=
  .next (issue i 0 false opRti s)

/-- DMA (R284). -/
def execDma (i : Iss) (k : BitVec 2) (toLocal : Bool) (e : BitVec 2) (p : BitVec 4) (inY : Bool) (count : BitVec 4) (irq : Bool) (s : State) : Host.Outcome State Fault Refusal :=
  .next (issue i 0 false (opDma i.core k toLocal e p inY count irq) s)

/-- WAITD (R284). -/
def execWaitd (i : Iss) (mask : BitVec 4) (s : State) : Host.Outcome State Fault Refusal :=
  .next (issue i 0 false (opWaitd i.core mask) s)

/-- XLD (R283). -/
def execXld (i : Iss) (fd : BitVec 6) (e : BitVec 2) (off : BitVec 12) (s : State) : Host.Outcome State Fault Refusal :=
  .next (issue i 0 false (opXld i.core fd e off) s)

/-- XST (R283). -/
def execXst (i : Iss) (fs : BitVec 6) (e : BitVec 2) (off : BitVec 12) (s : State) : Host.Outcome State Fault Refusal :=
  .next (issue i 0 false (opXst i.core fs e off) s)

/-- TIME (R285). -/
def execTimeOp (i : Iss) (fd : BitVec 6) (s : State) : Host.Outcome State Fault Refusal :=
  .next (issue i 0 false (opTime fd) s)

/-- PLD (R273). -/
def execPld (i : Iss) (fd : BitVec 6) (m : AddrMode) (s : State) : Host.Outcome State Fault Refusal :=
  .next (issue i 0 true (opPld i.core fd m) s)

/-- FMAC (R270). -/
def execFmac (i : Iss) (d a b c : BitVec 6) (s : State) : Host.Outcome State Fault Refusal :=
  .next (issue i 1 false (opFused false d a b c) s)

/-- FMSUB (R270). -/
def execFmsub (i : Iss) (d a b c : BitVec 6) (s : State) : Host.Outcome State Fault Refusal :=
  .next (issue i 1 false (opFused true d a b c) s)

/-- FMUL (R270). -/
def execFmul (i : Iss) (d a b : BitVec 6) (s : State) : Host.Outcome State Fault Refusal :=
  .next (issue i 1 false (opM2 fMul d a b) s)

/-- FADD (R270). -/
def execFadd (i : Iss) (d a b : BitVec 6) (s : State) : Host.Outcome State Fault Refusal :=
  .next (issue i 1 false (opM2 fAdd d a b) s)

/-- FSUB (R270). -/
def execFsub (i : Iss) (d a b : BitVec 6) (s : State) : Host.Outcome State Fault Refusal :=
  .next (issue i 1 false (opM2 fSub d a b) s)

/-- FMIN (R270). -/
def execFmin (i : Iss) (d a b : BitVec 6) (s : State) : Host.Outcome State Fault Refusal :=
  .next (issue i 1 false (opM2 fMin d a b) s)

/-- FMAX (R270). -/
def execFmax (i : Iss) (d a b : BitVec 6) (s : State) : Host.Outcome State Fault Refusal :=
  .next (issue i 1 false (opM2 fMax d a b) s)

/-- FABS (R270). -/
def execFabs (i : Iss) (d a : BitVec 6) (s : State) : Host.Outcome State Fault Refusal :=
  .next (issue i 1 false (opM1 fAbs d a) s)

/-- FNEG (R270). -/
def execFneg (i : Iss) (d a : BitVec 6) (s : State) : Host.Outcome State Fault Refusal :=
  .next (issue i 1 false (opM1 fNeg d a) s)

/-- FCVT (R272). -/
def execFcvt (i : Iss) (k : Fcvt) (d a : BitVec 6) (s : State) : Host.Outcome State Fault Refusal :=
  .next (issue i 1 false (opFcvt k d a) s)

/-- FMOVI (Table 10-4). -/
def execFmovi (i : Iss) (d : BitVec 6) (v : W32) (s : State) : Host.Outcome State Fault Refusal :=
  .next (issue i 1 false (opFmovi d v) s)

/-- INTEGER_OP (Table 10-4). -/
def execIntegerOp (i : Iss) (o : IntOp) (s : State) : Host.Outcome State Fault Refusal :=
  .next (issue i 2 false (opInteger o) s)

/-- MOVC (Table 10-3). -/
def execMovc (i : Iss) (write : Bool) (r : CtlReg) (f : BitVec 6) (s : State) : Host.Outcome State Fault Refusal :=
  .next (issue i 2 false (opMovc write r f) s)

/-- FCMP (R272). -/
def execFcmp (i : Iss) (a b : BitVec 6) (s : State) : Host.Outcome State Fault Refusal :=
  .next (issue i 2 false (opFcmp a b) s)

/-- ACS4 (R277). -/
def execAcs4 (i : Iss) (d x b : BitVec 6) (s : State) : Host.Outcome State Fault Refusal :=
  .next (issue i 2 false (opAcs4 d x b) s)

/-- ACSSTG (R278). -/
def execAcsstg (i : Iss) (s : State) : Host.Outcome State Fault Refusal :=
  .next (issue i 2 false opAcsstg s)

/-- MOVTB (R278). -/
def execMovtb (i : Iss) (d : BitVec 6) (s : State) : Host.Outcome State Fault Refusal :=
  .next (issue i 2 false (opMovtb d) s)

/-- LOAD (R267-R269). -/
def execLoadOp (i : Iss) (inY : Bool) (d : LoadDst) (m : AddrMode) (s : State) : Host.Outcome State Fault Refusal :=
  .next (issue i (if inY then 4 else 3) false (opLoad i.core (if inY then 1 else 0) d m) s)

/-- STORE (R265, R267-R269). -/
def execStoreOp (i : Iss) (inY : Bool) (r : StoreSrc) (m : AddrMode) (s : State) : Host.Outcome State Fault Refusal :=
  .next (issue i (if inY then 4 else 3) false (opStore i.core (if inY then 1 else 0) r m) s)

/-- BWARN (R279). -/
def execBwarn (n : CoreNo) (s : State) : Host.Outcome State Fault Refusal :=
  .next (setPendBit n 1 s)

/-- DMA_DONE (R279, R284). -/
def execDmaDone (n : CoreNo) (k : BitVec 2) (s : State) : Host.Outcome State Fault Refusal :=
  .next (if (serving s (.vc n)).isSome then dmaDone n k.toNat s else s)

/-- INTERRUPT_ENTRY (R279, R280). -/
def execInterruptEntry (n : CoreNo) (s : State) : Host.Outcome State Fault Refusal :=
  .next (interruptEntry n s)

end Sys2Proof.Machine
end

