-- ==== Sys2Proof/Machine/Dispatch.lean ====
section
/-! DEFINITION. The dispatch: one arm for each row of the table of operations. -/

namespace Sys2Proof.Machine

def exec (i : Instr) (s : State) : Host.Outcome State Fault Refusal :=
  match i with
  -- host commands (Table 07-4): the whole issue of R160, with its tag and argument words
  | .identify tag args => Sys2Proof.Machine.execIdentify tag args s
  | .getStatus tag args => Sys2Proof.Machine.execGetStatus tag args s
  | .setState tag args => Sys2Proof.Machine.execSetState tag args s
  | .resetCmd tag args => Sys2Proof.Machine.execResetCmd tag args s
  | .getVersions tag args => Sys2Proof.Machine.execGetVersions tag args s
  | .imgBegin tag args => Sys2Proof.Machine.execImgBegin tag args s
  | .imgData tag args => Sys2Proof.Machine.execImgData tag args s
  | .imgCommit tag args => Sys2Proof.Machine.execImgCommit tag args s
  | .imgSelect tag args => Sys2Proof.Machine.execImgSelect tag args s
  | .chCreate tag args => Sys2Proof.Machine.execChCreate tag args s
  | .chModify tag args => Sys2Proof.Machine.execChModify tag args s
  | .chDelete tag args => Sys2Proof.Machine.execChDelete tag args s
  | .chQuery tag args => Sys2Proof.Machine.execChQuery tag args s
  | .chStats tag args => Sys2Proof.Machine.execChStats tag args s
  | .chKeys tag args => Sys2Proof.Machine.execChKeys tag args s
  | .portCfg tag args => Sys2Proof.Machine.execPortCfg tag args s
  | .vlanCfg tag args => Sys2Proof.Machine.execVlanCfg tag args s
  | .classCfg tag args => Sys2Proof.Machine.execClassCfg tag args s
  | .hwyCfg tag args => Sys2Proof.Machine.execHwyCfg tag args s
  | .slotMap tag args => Sys2Proof.Machine.execSlotMap tag args s
  | .ptpCfg tag args => Sys2Proof.Machine.execPtpCfg tag args s
  | .servoCfg tag args => Sys2Proof.Machine.execServoCfg tag args s
  | .probeCfg tag args => Sys2Proof.Machine.execProbeCfg tag args s
  | .probeRead tag args => Sys2Proof.Machine.execProbeRead tag args s
  | .search tag args => Sys2Proof.Machine.execSearch tag args s
  | .assign tag args => Sys2Proof.Machine.execAssign tag args s
  | .forward tag args => Sys2Proof.Machine.execForward tag args s
  | .topoRead tag args => Sys2Proof.Machine.execTopoRead tag args s
  | .safeCfg tag args => Sys2Proof.Machine.execSafeCfg tag args s
  | .safeQuery tag args => Sys2Proof.Machine.execSafeQuery tag args s
  | .proofTest tag args => Sys2Proof.Machine.execProofTest tag args s
  | .calRun tag args => Sys2Proof.Machine.execCalRun tag args s
  | .calRestoreFactory tag args => Sys2Proof.Machine.execCalRestoreFactory tag args s
  | .calRead tag args => Sys2Proof.Machine.execCalRead tag args s
  | .selftest tag args => Sys2Proof.Machine.execSelftest tag args s
  | .fiArm tag args => Sys2Proof.Machine.execFiArm tag args s
  | .fiDisarm tag args => Sys2Proof.Machine.execFiDisarm tag args s
  | .fiRead tag args => Sys2Proof.Machine.execFiRead tag args s
  | .uartCfg tag args => Sys2Proof.Machine.execUartCfg tag args s
  | .taskLoad tag args => Sys2Proof.Machine.execTaskLoad tag args s
  | .modelLoad tag args => Sys2Proof.Machine.execModelLoad tag args s
  | .unknownOpcode op tag args => Sys2Proof.Machine.execUnknownOpcode op tag args s
  | .calDone w value fails => Sys2Proof.Machine.execCalDone w value fails s
  -- boot milestones and completions
  | .commandComplete lane => Sys2Proof.Machine.execCommandComplete lane s
  | .frameTransmitDone p => Sys2Proof.Machine.execFrameTransmitDone p s
  | .highwayFrame n f => Sys2Proof.Machine.execHighwayFrame n f s
  | .transceiverInserted p powerLevel1 memory => Sys2Proof.Machine.execTransceiverInserted p powerLevel1 memory s
  | .collision n => Sys2Proof.Machine.execCollision n s
  -- host-port accesses
  | .registerWrite slot w => Sys2Proof.Machine.execRegisterWrite slot w s
  | .readClear a => Sys2Proof.Machine.execReadClear a s
  | .hkey v => Sys2Proof.Machine.execHkey v s
  | .cmdFifo w => Sys2Proof.Machine.execCmdFifo w s
  | .apertureWrite d1 => Sys2Proof.Machine.execApertureWrite d1 s
  | .srcPref v => Sys2Proof.Machine.execSrcPref v s
  | .hwdogSet period => Sys2Proof.Machine.execHwdogSet period s
  -- the frame scheduler
  | .create m flow cls req opt seq arg0 arg1 => Sys2Proof.Machine.execCreate m flow cls req opt seq arg0 arg1 s
  | .token m handle slot => Sys2Proof.Machine.execToken m handle slot s
  | .almanac m list handle slot delay period => Sys2Proof.Machine.execAlmanac m list handle slot delay period s
  | .setLevel m flow level => Sys2Proof.Machine.execSetLevel m flow level s
  | .reserve m flow lu => Sys2Proof.Machine.execReserve m flow lu s
  | .cancel m flow => Sys2Proof.Machine.execCancel m flow s
  | .spillHiWrite v => Sys2Proof.Machine.execSpillHiWrite v s
  | .almanacListWrite list v => Sys2Proof.Machine.execAlmanacListWrite list v s
  | .almanacFire list => Sys2Proof.Machine.execAlmanacFire list s
  | .frameTick c => Sys2Proof.Machine.execFrameTick c s
  | .graphRetry c => Sys2Proof.Machine.execGraphRetry c s
  | .dispatch x => Sys2Proof.Machine.execDispatch x s
  | .budgetExceeded x => Sys2Proof.Machine.execBudgetExceeded x s
  | .pointProcedure => Sys2Proof.Machine.execPointProcedure s
  | .pointChange n => Sys2Proof.Machine.execPointChange n s
  | .coreBistStart n => Sys2Proof.Machine.execCoreBistStart n s
  | .coreBistDone n pass => Sys2Proof.Machine.execCoreBistDone n pass s
  -- cell memory and queues
  | .openPkt m q => Sys2Proof.Machine.execOpenPkt m q s
  | .producerData m w => Sys2Proof.Machine.execProducerData m w s
  | .closePkt m valid bad => Sys2Proof.Machine.execClosePkt m valid bad s
  | .selectQ m q deselect => Sys2Proof.Machine.execSelectQ m q deselect s
  | .consumerData m => Sys2Proof.Machine.execConsumerData m s
  | .releasePkt m => Sys2Proof.Machine.execReleasePkt m s
  | .qflush q => Sys2Proof.Machine.execQflush q s
  | .cellReturn => Sys2Proof.Machine.execCellReturn s
  | .descriptorEnable q => Sys2Proof.Machine.execDescriptorEnable q s
  | .watermarkWrite q low v => Sys2Proof.Machine.execWatermarkWrite q low v s
  | .stale m => Sys2Proof.Machine.execStale m s
  -- voice-core operations
  | .branch xi c target => Sys2Proof.Machine.execBranch xi c target s
  | .dbnz xi p target => Sys2Proof.Machine.execDbnz xi p target s
  | .call xi target => Sys2Proof.Machine.execCall xi target s
  | .ret xi => Sys2Proof.Machine.execRet xi s
  | .loopOp xi count last rot tb => Sys2Proof.Machine.execLoopOp xi count last rot tb s
  | .modeOp xi threeBus => Sys2Proof.Machine.execModeOp xi threeBus s
  | .endTask xi r => Sys2Proof.Machine.execEndTask xi r s
  | .swi xi => Sys2Proof.Machine.execSwi xi s
  | .rti xi => Sys2Proof.Machine.execRti xi s
  | .dma xi k toLocal e p inY count irq => Sys2Proof.Machine.execDma xi k toLocal e p inY count irq s
  | .waitd xi mask => Sys2Proof.Machine.execWaitd xi mask s
  | .xld xi fd e off => Sys2Proof.Machine.execXld xi fd e off s
  | .xst xi fs e off => Sys2Proof.Machine.execXst xi fs e off s
  | .timeOp xi fd => Sys2Proof.Machine.execTimeOp xi fd s
  | .pld xi fd m => Sys2Proof.Machine.execPld xi fd m s
  | .fmac xi d a b c => Sys2Proof.Machine.execFmac xi d a b c s
  | .fmsub xi d a b c => Sys2Proof.Machine.execFmsub xi d a b c s
  | .fmul xi d a b => Sys2Proof.Machine.execFmul xi d a b s
  | .fadd xi d a b => Sys2Proof.Machine.execFadd xi d a b s
  | .fsub xi d a b => Sys2Proof.Machine.execFsub xi d a b s
  | .fmin xi d a b => Sys2Proof.Machine.execFmin xi d a b s
  | .fmax xi d a b => Sys2Proof.Machine.execFmax xi d a b s
  | .fabs xi d a => Sys2Proof.Machine.execFabs xi d a s
  | .fneg xi d a => Sys2Proof.Machine.execFneg xi d a s
  | .fcvt xi k d a => Sys2Proof.Machine.execFcvt xi k d a s
  | .fmovi xi d v => Sys2Proof.Machine.execFmovi xi d v s
  | .integerOp xi o => Sys2Proof.Machine.execIntegerOp xi o s
  | .movc xi write r f => Sys2Proof.Machine.execMovc xi write r f s
  | .fcmp xi a b => Sys2Proof.Machine.execFcmp xi a b s
  | .acs4 xi d xs b => Sys2Proof.Machine.execAcs4 xi d xs b s
  | .acsstg xi => Sys2Proof.Machine.execAcsstg xi s
  | .movtb xi d => Sys2Proof.Machine.execMovtb xi d s
  | .loadOp xi inY d m => Sys2Proof.Machine.execLoadOp xi inY d m s
  | .storeOp xi inY r m => Sys2Proof.Machine.execStoreOp xi inY r m s
  | .bwarn n => Sys2Proof.Machine.execBwarn n s
  | .dmaDone n k => Sys2Proof.Machine.execDmaDone n k s
  | .interruptEntry n => Sys2Proof.Machine.execInterruptEntry n s
  -- tensor jobs
  | .gemm e d => Sys2Proof.Machine.execGemm e d s
  | .gemmAcc e d => Sys2Proof.Machine.execGemmAcc e d s
  | .ewMul e d => Sys2Proof.Machine.execEwMul e d s
  | .ewAdd e d => Sys2Proof.Machine.execEwAdd e d s
  | .act e d => Sys2Proof.Machine.execAct e d s
  | .testVectors e pass => Sys2Proof.Machine.execTestVectors e pass s
  -- the call path
  | .playout c => Sys2Proof.Machine.execPlayout c s
  | .egressTransmit c => Sys2Proof.Machine.execEgressTransmit c s
  | .shedding => Sys2Proof.Machine.execShedding s
  -- power, reset, boot
  | .sourceLost l => Sys2Proof.Machine.execSourceLost l s
  | .inputReturn p => Sys2Proof.Machine.execInputReturn p s
  | .sourceValid p cls => Sys2Proof.Machine.execSourceValid p cls s
  | .pwrfail => Sys2Proof.Machine.execPwrfail s
  | .brownOut => Sys2Proof.Machine.execBrownOut s
  | .powerGuard milliwatts => Sys2Proof.Machine.execPowerGuard milliwatts s
  | .tempSample t => Sys2Proof.Machine.execTempSample t s
  | .resetPin lowNs => Sys2Proof.Machine.execResetPin lowNs s
  | .resetEnd straps vioMv t => Sys2Proof.Machine.execResetEnd straps vioMv t s
  | .powerOnBist r => Sys2Proof.Machine.execPowerOnBist r s
  | .bootDone => Sys2Proof.Machine.execBootDone s
  | .startTimer => Sys2Proof.Machine.execStartTimer s
  | .vigilWdog => Sys2Proof.Machine.execVigilWdog s
  | .hwdogHalf => Sys2Proof.Machine.execHwdogHalf s
  | .hostWdog => Sys2Proof.Machine.execHostWdog s
  | .jtagInstruction j => Sys2Proof.Machine.execJtagInstruction j s
  | .unlockToken slot sig => Sys2Proof.Machine.execUnlockToken slot sig s
  | .vioOut => Sys2Proof.Machine.execVioOut s
  | .vioRestored => Sys2Proof.Machine.execVioRestored s
  | .vioLatch is33 => Sys2Proof.Machine.execVioLatch is33 s
  | .clockLost d => Sys2Proof.Machine.execClockLost d s
  | .refinLost => Sys2Proof.Machine.execRefinLost s
  | .refinAccepted => Sys2Proof.Machine.execRefinAccepted s
  -- highways, Ethernet, RTP
  | .highwayAligned n => Sys2Proof.Machine.execHighwayAligned n s
  | .alignmentLoss n cause => Sys2Proof.Machine.execAlignmentLoss n cause s
  | .highwayConfigApply n => Sys2Proof.Machine.execHighwayConfigApply n s
  | .slip n transmit fast => Sys2Proof.Machine.execSlip n transmit fast s
  | .transceiverRemoved p overcurrent => Sys2Proof.Machine.execTransceiverRemoved p overcurrent s
  | .ethPortDown p noCommonMode => Sys2Proof.Machine.execEthPortDown p noCommonMode s
  | .ethPortUp p speed => Sys2Proof.Machine.execEthPortUp p speed s
  | .frameReceive p frame => Sys2Proof.Machine.execFrameReceive p frame s
  | .macAgeing vid mac => Sys2Proof.Machine.execMacAgeing vid mac s
  | .neighbourRetry p ip => Sys2Proof.Machine.execNeighbourRetry p ip s
  | .neighbourRefresh p ip => Sys2Proof.Machine.execNeighbourRefresh p ip s
  | .routerCommit p v => Sys2Proof.Machine.execRouterCommit p v s
  | .senderReport c => Sys2Proof.Machine.execSenderReport c s
  | .keysTimeout c => Sys2Proof.Machine.execKeysTimeout c s
  | .oldContextExpiry c => Sys2Proof.Machine.execOldContextExpiry c s
  -- time
  | .ppsInEdge => Sys2Proof.Machine.execPpsInEdge s
  | .holdoverEntry => Sys2Proof.Machine.execHoldoverEntry s
  | .ptpMessage p m => Sys2Proof.Machine.execPtpMessage p m s
  | .ptpTransmit p k => Sys2Proof.Machine.execPtpTransmit p k s
  | .timeHalf => Sys2Proof.Machine.execTimeHalf s
  | .probeEvent code => Sys2Proof.Machine.execProbeEvent code s
  | .probeMark v => Sys2Proof.Machine.execProbeMark v s
  -- Ismorlink
  | .link h xi acked => Sys2Proof.Machine.execLink h xi acked s
  | .linkDown p errors => Sys2Proof.Machine.execLinkDown p errors s
  | .ack p lseq => Sys2Proof.Machine.execAck p lseq s
  | .ackTimeout p => Sys2Proof.Machine.execAckTimeout p s
  | .heartbeat h seq state summitOk safe test => Sys2Proof.Machine.execHeartbeat h seq state summitOk safe test s
  | .heartbeatSend => Sys2Proof.Machine.execHeartbeatSend s
  | .hbTimeout addr => Sys2Proof.Machine.execHbTimeout addr s
  | .summitLost => Sys2Proof.Machine.execSummitLost s
  | .syncSend => Sys2Proof.Machine.execSyncSend s
  | .sync h t1 => Sys2Proof.Machine.execSync h t1 s
  | .delayReq h t3 => Sys2Proof.Machine.execDelayReq h t3 s
  | .delayResp h t4 => Sys2Proof.Machine.execDelayResp h t4 s
  | .searchBegin h full => Sys2Proof.Machine.execSearchBegin h full s
  | .query h qid len bits => Sys2Proof.Machine.execQuery h qid len bits s
  | .claim h qid uid => Sys2Proof.Machine.execClaim h qid uid s
  | .mark h uid => Sys2Proof.Machine.execMark h uid s
  | .searchEnd h => Sys2Proof.Machine.execSearchEnd h s
  | .searchReply h a => Sys2Proof.Machine.execSearchReply h a s
  | .searchReplyTimeout qid => Sys2Proof.Machine.execSearchReplyTimeout qid s
  | .address h uid addr hold release => Sys2Proof.Machine.execAddress h uid addr hold release s
  | .mgmtReq h op tag args => Sys2Proof.Machine.execMgmtReq h op tag args s
  | .mgmtRsp h status tag words => Sys2Proof.Machine.execMgmtRsp h status tag words s
  | .forwardTimeout => Sys2Proof.Machine.execForwardTimeout s
  | .event h record => Sys2Proof.Machine.execEvent h record s
  | .attach h port => Sys2Proof.Machine.execAttach h port s
  | .loss h port addr uid => Sys2Proof.Machine.execLoss h port addr uid s
  | .lossPing addr => Sys2Proof.Machine.execLossPing addr s
  | .move h port uid addr => Sys2Proof.Machine.execMove h port uid addr s
  | .hbLoss h addr => Sys2Proof.Machine.execHbLoss h addr s
  | .missed h uid => Sys2Proof.Machine.execMissed h uid s
  | .addrAck h addr uid => Sys2Proof.Machine.execAddrAck h addr uid s
  | .conflict h uid parentUid parent port => Sys2Proof.Machine.execConflict h uid parentUid parent port s
  | .autoSearchStart => Sys2Proof.Machine.execAutoSearchStart s
  | .ping h seq => Sys2Proof.Machine.execPing h seq s
  | .pingReply h seq imageStatus => Sys2Proof.Machine.execPingReply h seq imageStatus s
  | .pingTimeout addr => Sys2Proof.Machine.execPingTimeout addr s
  | .bcast h op tag args deadline => Sys2Proof.Machine.execBcast h op tag args deadline s
  | .bcastReply h c => Sys2Proof.Machine.execBcastReply h c s
  | .bcastDeadline => Sys2Proof.Machine.execBcastDeadline s
  -- functional safety
  | .comparatorTest flagged other => Sys2Proof.Machine.execComparatorTest flagged other s
  | .checkerTest pass => Sys2Proof.Machine.execCheckerTest pass s
  | .scrub t d entry => Sys2Proof.Machine.execScrub t d entry s
  | .lockstepMismatch => Sys2Proof.Machine.execLockstepMismatch s
  | .eccUncorrectable p => Sys2Proof.Machine.execEccUncorrectable p s
  | .voltage => Sys2Proof.Machine.execVoltage s
  | .dieTemp celsius => Sys2Proof.Machine.execDieTemp celsius s
  -- calibration, test, injection, trace
  | .quietPoint item => Sys2Proof.Machine.execQuietPoint item s
  | .marchRound cells bad => Sys2Proof.Machine.execMarchRound cells bad s
  | .reorderTimeout point => Sys2Proof.Machine.execReorderTimeout point s
  | .traceSegment => Sys2Proof.Machine.execTraceSegment s
  -- DEFLATE
  | .prod v => Sys2Proof.Machine.execProd v s
  | .abort => Sys2Proof.Machine.execAbort s
  | .deflateJob => Sys2Proof.Machine.execDeflateJob s
  -- serial ports
  | .uartDataWrite n c => Sys2Proof.Machine.execUartDataWrite n c s
  | .uartDataRead n => Sys2Proof.Machine.execUartDataRead n s
  | .brk n on => Sys2Proof.Machine.execBrk n on s
  | .rst n level => Sys2Proof.Machine.execRst n level s
  | .clken n on => Sys2Proof.Machine.execClken n on s
  | .txflush n => Sys2Proof.Machine.execTxflush n s
  | .rxflush n => Sys2Proof.Machine.execRxflush n s
  | .characterReceived n bits => Sys2Proof.Machine.execCharacterReceived n bits s
  | .characterSent n errorSignal => Sys2Proof.Machine.execCharacterSent n errorSignal s
  | .deTail n => Sys2Proof.Machine.execDeTail n s
  -- host-port accesses and milestones without an operand
  | .cmdClear => Sys2Proof.Machine.execCmdClear s
  | .rspFifo => Sys2Proof.Machine.execRspFifo s
  | .removeHeadResponse => Sys2Proof.Machine.execRemoveHeadResponse s
  | .evtFifo => Sys2Proof.Machine.execEvtFifo s
  | .apertureRead => Sys2Proof.Machine.execApertureRead s
  | .time0Read => Sys2Proof.Machine.execTime0Read s
  | .safeCtlClear => Sys2Proof.Machine.execSafeCtlClear s
  | .safeCtlEnter => Sys2Proof.Machine.execSafeCtlEnter s
  | .switchBank => Sys2Proof.Machine.execSwitchBank s
  | .hwdogKick => Sys2Proof.Machine.execHwdogKick s
  | .kill => Sys2Proof.Machine.execKill s
  | .hostPortStart => Sys2Proof.Machine.execHostPortStart s
  | .bypassOpen => Sys2Proof.Machine.execBypassOpen s
  | .ppsOutEdge => Sys2Proof.Machine.execPpsOutEdge s
  | .eccCorrected => Sys2Proof.Machine.execEccCorrected s

end Sys2Proof.Machine
end

