-- ==== Sys2Proof/Machine/Pins.lean ====
section
/-! DEFINITION. What the module's pins on J1 show (Table 03-4): each pin's drive in every state, with the releases of R75
and the boundary register of R97. -/

namespace Sys2Proof.Machine

/-- How the module drives a pin. `active` is a level that the access, the character or the timeslot in progress gives, or
a running clock. -/
inductive Drive where
  | released
  | low
  | high
  | active
deriving DecidableEq, Repr

def level (b : Bool) : Drive := if b then .high else .low

/-- An open-drain pin: low when asserted, else released. -/
def openDrain (asserted : Bool) : Drive := if asserted then .low else .released

/-- A pin driven only while the condition holds. -/
def drivenIf (on : Bool) (d : Drive) : Drive := if on then d else .released

/-- Un_TX by mode (Table 16-3): push-pull, or open drain in single-wire and card mode; a break is a space (R416). -/
def uTxPin (u : Uart) : Drive :=
  if !u.enabled then .released
  else if u.sending.isSome then .active
  else if u.brk then .low
  else if uMode u ≤ 1 then .high
  else .released

/-- Un_DE by mode: the card's reset, or driver enable where DEEN is set. -/
def uDePin (u : Uart) : Drive := drivenIf (u.enabled && (uCard u || bitOf u.format 8)) (level (uDe u))

/-- Un_CK by mode: the bit clock (R420), or the card clock, low while CLKEN is 0 (R423). -/
def uCkPin (u : Uart) : Drive :=
  if !u.enabled then .released
  else if uMode u = 1 then .active
  else if uCard u then (if u.clken then .active else .low)
  else .released

/-- PPS_OUT rises at phase 0 and falls 10 ms later (R394); after a step the level is read off the phase (log entry 89). -/
def ppsLevel (t : TimeUnit) : Bool := decide (t.phase < 10000000)

/-- REFOUT, a 10 MHz square wave whose rising edges fall at multiples of 100 ns of phase (R102). -/
def refLevel (t : TimeUnit) : Bool := decide (t.phase % 100 < 50)

/-- The states of the TAP controller that drive TDO (Table 03-3). -/
def tapShifts (t : TapState) : Bool := t = .shiftDr || t = .shiftIr

/-- The pin under the functional logic (Table 03-4), J1 being powered and enabled. -/
def funcPin (s : State) (p : J1Pin) : Drive :=
  match p with
  | .d _ => drivenIf s.host.live .active
  | .rdy => drivenIf s.host.live .active
  | .int => openDrain (intLow s)
  | .tdmClk n => drivenIf (pinsActive s && (getHwy s n).cfg.master) .active
  | .tdmFs n => drivenIf (pinsActive s && (getHwy s n).cfg.master) .active
  | .tdmD n => drivenIf ((List.range 256).any (fun t => (tdmOctet s n t).isSome)) .active
  | .uTx n => drivenIf (pinsActive s) (uTxPin (getUart s n.toNat))
  | .uDe n => drivenIf (pinsActive s) (uDePin (getUart s n.toNat))
  | .uCk n => drivenIf (pinsActive s) (uCkPin (getUart s n.toNat))
  | .fc n => openDrain ((fcStat s).getLsbD n.toNat)
  | .gpio n => drivenIf ((gpioDriven s).getLsbD n.toNat) (level (s.host.gpioOut.getLsbD n.toNat))
  | .ppsOut => drivenIf (pinsActive s && s.tim.ppsOut) (level (ppsLevel s.tim))
  | .refout => drivenIf (pinsActive s && s.tim.refout) (level (refLevel s.tim))
  | .pwrfail => openDrain (pwrfailLow s)
  | .fault => openDrain (faultLow s)
  | .present => .low
  | .tdo => drivenIf (tapShifts s.pins.tap) .active

/-- A pin under the boundary register (R97); a cell no scan has written releases its pin (log entry 89). -/
def scanPin (s : State) (p : J1Pin) : Drive :=
  match (alFind s.pins.boundary p).getD none with
  | some b => level b
  | none => .released

/-- The pins that no boundary cell drives. -/
def outsideScan (p : J1Pin) : Bool := p = .tdo || p = .present

/-- What a pin of J1 shows. PRESENT# is tied to ground inside the module (R79). Every other pin is released while the
module is unpowered and while J1 is not enabled (R75, R77). -/
def pin (s : State) (p : J1Pin) : Drive :=
  if p = .present then .low
  else if !s.pwr.powered || !j1Enabled s then .released
  else if s.boot.jtagHold && !outsideScan p then scanPin s p
  else funcPin s p

end Sys2Proof.Machine
end

