-- ==== Sys2Proof/Safety.lean ====
section
/-! DEFINITION. The terms in which statements speak of a run: the parts of the state and what a change leaves alone. -/

namespace Sys2Proof.Machine

/-! ### What a change touches -/

/-- The parts of the state, one for each block of the module and each memory (State). -/
inductive Part where
  | hw | boot | pwr | therm | pins | clk | host | cmds | led | sch | qm | vcs | ten | sw | tdm | tim | dfl | uarts
  | ism | saf | cal | fi | mem | free | pending
deriving DecidableEq, Repr

/-- A part is the same in both states. -/
def Part.same (p : Part) (s t : State) : Prop :=
  match p with
  | .hw => t.hw = s.hw
  | .boot => t.boot = s.boot
  | .pwr => t.pwr = s.pwr
  | .therm => t.therm = s.therm
  | .pins => t.pins = s.pins
  | .clk => t.clk = s.clk
  | .host => t.host = s.host
  | .cmds => t.cmds = s.cmds
  | .led => t.led = s.led
  | .sch => t.sch = s.sch
  | .qm => t.qm = s.qm
  | .vcs => t.vcs = s.vcs
  | .ten => t.ten = s.ten
  | .sw => t.sw = s.sw
  | .tdm => t.tdm = s.tdm
  | .tim => t.tim = s.tim
  | .dfl => t.dfl = s.dfl
  | .uarts => t.uarts = s.uarts
  | .ism => t.ism = s.ism
  | .saf => t.saf = s.saf
  | .cal => t.cal = s.cal
  | .fi => t.fi = s.fi
  | .mem => t.mem = s.mem
  | .free => t.free = s.free
  | .pending => t.pending = s.pending

/-- Every part outside the list is the same in both states: `t` comes from `s` by a change of these parts alone. -/
def Touches (l : List Part) (s t : State) : Prop := ∀ p, p ∉ l → p.same s t

/-- The tables of ports, highways and serial ports have an entry for each that the module has. -/
def TablesSized (s : State) : Prop :=
  s.sw.ports.length = 4 ∧ s.tdm.length = 32 ∧ s.tim.ptp.length = 4 ∧ s.uarts.length = 8 ∧ s.ism.ports.length = 4

/-! ### What each command may touch -/

/-- Every part but the facts of the unit, the temperature and the queue. -/
def everyPart : List Part :=
  [.boot, .pwr, .pins, .clk, .host, .cmds, .led, .sch, .qm, .vcs, .ten, .sw, .tdm, .tim, .dfl, .uarts, .ism, .saf,
   .cal, .fi, .mem, .free]

/-- The parts of the state that a command may change; it leaves every other as it is. -/
def mayTouch (i : Instr) : List Part :=
  match i with
  | .identify .. | .getStatus .. | .setState .. | .resetCmd .. | .getVersions .. | .imgBegin .. | .imgData ..
  | .imgCommit .. | .imgSelect .. | .chCreate .. | .chModify .. | .chDelete .. | .chQuery .. | .chStats ..
  | .chKeys .. | .portCfg .. | .vlanCfg .. | .classCfg .. | .hwyCfg .. | .slotMap .. | .ptpCfg ..
  | .servoCfg .. | .probeCfg .. | .probeRead .. | .search .. | .assign .. | .forward .. | .topoRead ..
  | .safeCfg .. | .safeQuery .. | .proofTest .. | .calRun .. | .calRestoreFactory .. | .calRead ..
  | .selftest .. | .fiArm .. | .fiDisarm .. | .fiRead .. | .uartCfg .. | .taskLoad .. | .modelLoad ..
  | .unknownOpcode .. | .commandComplete .. | .registerWrite .. | .hkey .. | .cmdFifo .. | .apertureWrite ..
  | .srcPref .. | .hwdogSet .. | .almanacFire .. | .frameTick .. | .link .. | .linkDown .. | .ack ..
  | .ackTimeout .. | .heartbeat .. | .heartbeatSend | .hbTimeout .. | .summitLost | .syncSend | .sync ..
  | .delayReq .. | .delayResp .. | .searchBegin .. | .query .. | .claim .. | .mark .. | .searchEnd ..
  | .searchReply .. | .searchReplyTimeout .. | .address .. | .mgmtReq .. | .mgmtRsp .. | .forwardTimeout
  | .event .. | .attach .. | .loss .. | .lossPing .. | .move .. | .hbLoss .. | .missed .. | .addrAck ..
  | .conflict .. | .autoSearchStart | .ping .. | .pingReply .. | .pingTimeout .. | .bcast .. | .bcastReply ..
  | .bcastDeadline | .reorderTimeout .. | .cmdClear | .removeHeadResponse | .safeCtlClear | .safeCtlEnter
  | .switchBank | .hwdogKick | .kill | .pointProcedure | .timeHalf | .ppsInEdge | .ptpMessage .. | .ppsOutEdge =>
    everyPart
  | .calDone .. => [.boot, .pwr, .pins, .host, .cmds, .led, .qm, .sw, .tdm, .ism, .saf, .cal, .fi, .mem, .free]
  | .frameTransmitDone .. | .ethPortUp .. | .neighbourRetry .. | .neighbourRefresh .. =>
    [.host, .qm, .sw, .ism, .fi, .free]
  | .highwayFrame .. => [.host, .led, .tdm, .ism, .fi]
  | .transceiverInserted .. | .transceiverRemoved .. => [.host, .sw, .ism, .fi]
  | .collision .. | .uartDataWrite .. | .brk .. | .rst .. | .clken .. | .txflush .. | .rxflush ..
  | .characterReceived .. | .characterSent .. | .deTail .. => [.uarts]
  | .readClear .. | .rspFifo | .evtFifo | .apertureRead | .time0Read =>
    [.host, .sch, .qm, .ten, .sw, .tdm, .tim, .dfl, .uarts, .ism, .free]
  | .create .. | .token .. | .almanac .. | .setLevel .. | .reserve .. | .cancel .. | .graphRetry .. =>
    [.led, .sch, .free]
  | .spillHiWrite .. | .pointChange .. | .coreBistStart .. | .almanacListWrite .. => [.sch]
  | .dispatch .. => [.host, .led, .sch, .qm, .vcs, .ten, .ism, .fi, .mem, .free]
  | .budgetExceeded .. | .gemm .. | .gemmAcc .. | .ewMul .. | .ewAdd .. | .act .. =>
    [.host, .led, .sch, .qm, .ten, .ism, .fi, .mem, .free]
  | .coreBistDone .. => [.boot, .host, .cmds, .led, .sch, .qm, .ism, .fi, .mem, .free]
  | .openPkt .. | .releasePkt .. | .qflush .. | .descriptorEnable .. | .watermarkWrite .. | .stale .. =>
    [.host, .qm, .ism, .fi]
  | .producerData .. => [.host, .qm, .ism, .fi, .mem, .free]
  | .closePkt .. => [.host, .sch, .qm, .ism, .fi, .mem, .free]
  | .selectQ .. | .cellReturn => [.qm]
  | .consumerData .. => [.host, .qm]
  | .branch .. | .dbnz .. | .call .. | .ret .. | .loopOp .. | .modeOp .. | .endTask .. | .swi .. | .rti ..
  | .dma .. | .waitd .. | .xld .. | .xst .. | .timeOp .. | .pld .. | .fmac .. | .fmsub .. | .fmul .. | .fadd ..
  | .fsub .. | .fmin .. | .fmax .. | .fabs .. | .fneg .. | .fcvt .. | .fmovi .. | .integerOp .. | .movc ..
  | .fcmp .. | .acs4 .. | .acsstg .. | .movtb .. | .loadOp .. | .storeOp .. | .dmaDone .. =>
    [.host, .led, .sch, .qm, .vcs, .ten, .sw, .tdm, .tim, .dfl, .uarts, .ism, .fi, .mem, .free]
  | .bwarn .. => [.vcs]
  | .interruptEntry .. => [.vcs, .free]
  | .testVectors .. => [.boot, .host, .cmds, .led, .sch, .qm, .ten, .sw, .ism, .saf, .cal, .fi, .mem, .free]
  | .playout .. => [.boot, .pwr, .pins, .host, .cmds, .led, .sch, .qm, .sw, .tdm, .ism, .saf, .fi, .mem, .free]
  | .egressTransmit .. | .comparatorTest .. | .checkerTest .. | .scrub .. | .lockstepMismatch | .voltage
  | .dieTemp .. => [.boot, .pwr, .pins, .host, .cmds, .led, .qm, .sw, .tdm, .ism, .saf, .fi, .mem, .free]
  | .shedding => [.pwr, .host, .led, .sch, .qm, .sw, .ism, .saf, .cal, .fi, .free]
  | .sourceLost .. =>
    [.boot, .pwr, .host, .led, .sch, .qm, .vcs, .ten, .sw, .tdm, .dfl, .uarts, .ism, .saf, .cal, .fi, .free]
  | .inputReturn .. => [.boot, .pwr, .host, .cmds, .ism, .cal, .fi]
  | .sourceValid .. =>
    [.boot, .pwr, .host, .cmds, .led, .sch, .qm, .vcs, .ten, .sw, .tdm, .dfl, .uarts, .ism, .saf, .cal, .fi, .free]
  | .pwrfail => [.pwr, .host, .ism, .fi]
  | .brownOut | .resetPin .. | .resetEnd .. =>
    [.boot, .pwr, .therm, .pins, .clk, .host, .cmds, .led, .sch, .qm, .vcs, .ten, .sw, .tdm, .tim, .dfl, .uarts, .ism,
    .saf, .cal, .fi, .free]
  | .startTimer | .vigilWdog | .hostWdog | .jtagInstruction .. =>
    [.boot, .pwr, .therm, .pins, .clk, .host, .cmds, .led, .sch, .qm, .vcs, .ten, .sw, .tdm, .tim, .dfl, .uarts, .ism,
    .saf, .cal, .fi]
  | .powerGuard .. => [.pwr, .host, .led, .ism, .cal, .fi]
  | .tempSample .. =>
    [.boot, .therm, .host, .led, .sch, .qm, .vcs, .ten, .sw, .tdm, .dfl, .uarts, .ism, .saf, .cal, .fi, .free]
  | .powerOnBist .. =>
    [.boot, .pwr, .pins, .host, .cmds, .led, .sch, .qm, .vcs, .ten, .sw, .tdm, .dfl, .uarts, .ism, .saf, .cal, .fi,
    .mem, .free]
  | .bootDone => [.boot, .host, .led, .sch, .qm, .vcs, .ten, .sw, .tdm, .dfl, .uarts, .ism, .saf, .cal, .fi, .free]
  | .hwdogHalf | .hostPortStart => [.host]
  | .unlockToken .. => [.boot, .saf]
  | .vioOut => [.pins, .host, .tdm, .ism, .fi]
  | .vioRestored => [.pins, .host, .ism, .fi]
  | .vioLatch .. => [.pins, .host]
  | .clockLost .. =>
    [.boot, .pwr, .pins, .clk, .host, .cmds, .led, .sch, .qm, .ten, .sw, .tdm, .tim, .ism, .saf, .cal, .fi, .mem,
    .free]
  | .refinLost | .refinAccepted => [.clk, .host, .ism, .fi]
  | .highwayAligned .. | .alignmentLoss .. => [.host, .tdm, .ism, .fi]
  | .highwayConfigApply .. => [.host, .tdm, .ism, .cal, .fi]
  | .slip .. => [.tdm]
  | .ethPortDown .. => [.host, .sw, .ism, .cal, .fi]
  | .frameReceive .. => [.host, .led, .sch, .qm, .sw, .ism, .fi, .mem, .free]
  | .macAgeing .. | .routerCommit .. => [.sw]
  | .senderReport .. => [.host, .led, .qm, .sw, .ism, .fi, .free]
  | .keysTimeout .. => [.host, .led, .ism, .fi]
  | .oldContextExpiry .. => [.led]
  | .holdoverEntry => [.host, .tim, .ism, .cal, .fi]
  | .ptpTransmit .. => [.host, .qm, .sw, .tim, .ism, .fi, .free]
  | .probeEvent .. | .probeMark .. => [.tim]
  | .eccUncorrectable .. =>
    [.boot, .pwr, .pins, .host, .cmds, .led, .sch, .qm, .ten, .sw, .tdm, .ism, .saf, .fi, .mem, .free]
  | .quietPoint .. => [.cal]
  | .marchRound .. => [.host, .cmds, .qm, .ism, .fi, .free]
  | .traceSegment => [.fi, .mem]
  | .prod .. => [.dfl]
  | .abort | .deflateJob => [.dfl, .mem, .free]
  | .uartDataRead .. => [.host, .uarts]
  | .bypassOpen => [.boot]
  | .eccCorrected => [.saf]

/-! ### Families -/

/-- What a voice core or a tensor engine does by its own program: the operations of Table 10-4 and the jobs of
Table 11-9, with the interrupts and transfers of a core. -/
def ranByExecutor (i : Instr) : Bool :=
  match i with
  | .branch .. | .dbnz .. | .call .. | .ret .. | .loopOp .. | .modeOp .. | .endTask .. | .swi .. | .rti .. | .dma ..
  | .waitd .. | .xld .. | .xst .. | .timeOp .. | .pld .. | .fmac .. | .fmsub .. | .fmul .. | .fadd .. | .fsub ..
  | .fmin .. | .fmax .. | .fabs .. | .fneg .. | .fcvt .. | .fmovi .. | .integerOp .. | .movc .. | .fcmp .. | .acs4 ..
  | .acsstg .. | .movtb .. | .loadOp .. | .storeOp .. | .bwarn .. | .dmaDone .. | .interruptEntry .. | .gemm ..
  | .gemmAcc .. | .ewMul .. | .ewAdd .. | .act .. => true
  | _ => false

/-! ### Voice cores -/

/-- Core `i.core` runs task `t` and can take an operation in slot `slot` of the word being built: the slot is free (R261),
and a C slot is not in three-bus mode (R262). -/
def CanIssue (i : Iss) (slot : Nat) (t : Task) (s : State) : Prop :=
  serving s (.vc i.core) = some t ∧ (getVc s i.core).slots.getLsbD slot = false ∧
  (slot = 0 → (getVc s i.core).threeBus = false)

/-- The core of the operation, with its slot of the word taken. -/
def slotTaken (i : Iss) (slot : Nat) (s : State) : Core :=
  { getVc s i.core with slots := (getVc s i.core).slots ||| BitVec.ofNat 5 (2 ^ slot) }

/-- The operation has made core `c` of its core; the word ends with its last operation. -/
def issued (i : Iss) (c : Core) (s : State) : State :=
  if i.last then endWord i.core (putVc i.core c s) else putVc i.core c s

/-- The core with results on their way: each with its latency in words (R263, Table 10-5). -/
def sending (c : Core) (l : List (Nat × WTarget × BitVec 40)) : Core :=
  { c with pend := c.pend ++ l.map (fun r => ⟨c.word + r.1, c.word, r.2.1, r.2.2⟩) }

/-- The same, the first register being the word's destination (R262). -/
def naming (c : Core) (d : WTarget) (lat : Nat) (v : BitVec 40) (l : List (Nat × WTarget × BitVec 40)) : Core :=
  sending { c with dests := c.dests ++ [d] } ((lat, d, v) :: l)

/-- What a command answers. -/
abbrev Answer := Host.Outcome State Fault Refusal

/-! ### Host commands -/

/-- A command issued now runs at once: the host reaches its port, nothing is staged, every lane is idle, and there is
room for a response (R160, R178, R179). -/
def CommandReady (s : State) : Prop :=
  hostUp s = true ∧ s.host.staged = [] ∧ s.cmds.main = Lane.idle ∧ s.cmds.image = Lane.idle ∧ s.cmds.fwd = Lane.idle ∧
  s.host.responses.length < 32

/-- The state in which an issued command runs: its registers written, the key used, the command in its lane (R160). -/
def started (op tag : Word) (args : List Word) (s : State) : State :=
  putLane (laneOf op) ⟨some ⟨op, tag, args, keyed s, .host⟩, []⟩ (s.setHost { s.host with
    cmdOp := op, cmdTag := tag, cmdLen := BitVec.ofNat 11 (min 2047 args.length), staged := [], key := .idle })

/-- The command has left its lane, and its response waits behind those before it (R162). -/
def answered (op tag st : Word) (ws : List Word) (w : State) : State := queueResponse st tag ws (clearLane (laneOf op) w)

/-- The opcodes of Table 07-4. -/
def opcodes : List Word :=
  [0x0101, 0x0102, 0x0103, 0x0104, 0x0105, 0x0201, 0x0202, 0x0203, 0x0204, 0x0301, 0x0302, 0x0303, 0x0304, 0x0305, 0x0306,
   0x0401, 0x0402, 0x0403, 0x0501, 0x0502, 0x0601, 0x0602, 0x0603, 0x0604, 0x0701, 0x0702, 0x0703, 0x0704, 0x0801, 0x0802,
   0x0803, 0x0901, 0x0902, 0x0903, 0x0904, 0x0A01, 0x0A02, 0x0A03, 0x0B01, 0x0C01, 0x0C02]

/-- The host-command rows, each with its opcode. -/
def commandRows : List ((Word → List Word → Instr) × Word) :=
  List.zip [Instr.identify, .getStatus, .setState, .resetCmd, .getVersions, .imgBegin, .imgData, .imgCommit, .imgSelect,
    .chCreate, .chModify, .chDelete, .chQuery, .chStats, .chKeys, .portCfg, .vlanCfg, .classCfg, .hwyCfg, .slotMap,
    .ptpCfg, .servoCfg, .probeCfg, .probeRead, .search, .assign, .forward, .topoRead, .safeCfg, .safeQuery, .proofTest,
    .calRun, .calRestoreFactory, .calRead, .selftest, .fiArm, .fiDisarm, .fiRead, .uartCfg, .taskLoad, .modelLoad]
    opcodes

/-! ### Module SAFE -/

/-- A state in which a module-scope cause leads to SAFE: in service, and no cause latched (R481). -/
def Guarded (s : State) : Prop := s.mode ∈ [Mode.ready, .run, .degraded, .held] ∧ s.saf.safe = false

/-- The module has entered SAFE: the cause and its class are latched, every channel is out of service and plays idle
code, and fault injection is stopped (R481, R482, R527). -/
def SafeEntered (cause : Byte) (s t : State) : Prop :=
  t.mode = .safe ∧ t.saf.safe = true ∧ t.saf.cause = cause ∧ t.saf.cls = causeClass cause ∧ t.fi.stopped = true ∧
  t.led.chans.map Chan.no = s.led.chans.map Chan.no ∧ ∀ c ∈ t.led.chans, c.inService = false ∧ c.playing = .idle

/-! ### Ismorlink frames -/

/-- No command runs or waits in a lane (R178). -/
def LanesIdle (s : State) : Prop := s.cmds.main = Lane.idle ∧ s.cmds.image = Lane.idle ∧ s.cmds.fwd = Lane.idle

/-- The bypass is open and the tables are of full size: the module acts on its Ismorlink ports (R89). -/
def IsmOpen (s : State) : Prop := bypassClosed s = false ∧ TablesSized s

/-- A good frame with this header that its port takes: the link trained, no receive injection, and for a reliable frame a
new link sequence number (R434, R435, R516). -/
def Takes (reliable : Bool) (h : IsmHdr) (s : State) : Prop :=
  IsmOpen s ∧ fiPoint s (0x200 + h.port.setWidth 16) = none ∧ h.crcOk = true ∧ (ismPort s h.port).st = .trained ∧
  ¬(h.port = 0 ∧ isSummit s = true) ∧ (reliable = true → (ismPort s h.port).lseqRx ≠ some h.lseq)

/-- A port is trained and its transmit point is not armed: what it sends appears on its line. -/
def CanSend (p : PortNo) (s : State) : Prop :=
  (ismPort s p).st = .trained ∧ fiPoint s (0x204 + p.setWidth 16) = none

/-- The last frame on the line of a port has this body. -/
def Sent (p : PortNo) (b : IsmBody) (t : State) : Prop :=
  ∃ f, (ismPort t p).line.head? = some (f, ismBytes f) ∧ f.body = b

end Sys2Proof.Machine
end

