-- ==== Sys2Proof/Certificates/Slice0/Obligations.lean ====
section
/-! DEFINITION. The statements about the module, from the manual's rules. Each is a Prop to be proved of the model. -/

open Sys2Proof
open Sys2Proof.Machine

/-! ### The block as a whole -/

/-- A command at the front of the queue is taken from it and run on the rest of the state. -/
def Obligations.StepRunsFrontCommand : Prop :=
  ∀ (c : Instr) (rest : List Instr) (s : State),
    Machine.step (s.setPending (c :: rest)) = Machine.exec c (s.setPending rest)

/-- Every command, and every step, answers a next state. With no command waiting the block takes the reset that a response announced, or
loses the supply that a brown-out ended, or lives through one 2 ns cycle of its time clock and fires what the almanac
has due by then; the queue stays empty. The cycle is the model's choice (log entry 1). -/
def Obligations.EveryStepGoesOn : Prop :=
  (∀ (c : Instr) (s : State), ∃ t, Machine.exec c s = .next t) ∧
  ∀ s : State, (∃ t, Machine.step s = .next t) ∧
    (s.pending = [] →
      (s.boot.resetSoon = true → s.mode ≠ .reset → Machine.step s = .next (resetBlocks 3 s)) ∧
      (s.boot.resetSoon = false → s.pwr.collapse = true → Machine.step s = .next (powerGone s)) ∧
      (s.boot.resetSoon = false → s.pwr.collapse = false →
        let u := passCycles 1 s
        Machine.step s = .next (pump (fireUntil (firings (gridStep u.tim) u) (gridStep u.tim) u))) ∧
      ∃ t, Machine.step s = .next t ∧ t.pending = [])

/-- A command changes only the parts of the state that its entry in `mayTouch` names. -/
def Obligations.CommandsTouchOnlyTheirParts : Prop :=
  ∀ (c : Instr) (s t : State), Machine.exec c s = .next t → Touches (mayTouch c) s t

/-- Memory keeps its canonical form, and the tables of the four ports, the 32 highways and the eight serial ports keep an
entry for each: an invariant of every step. -/
def Obligations.StepKeepsInvariant : Prop :=
  ∀ s t : State, Memory.wf s.mem → TablesSized s → Machine.step s = .next t → Memory.wf t.mem ∧ TablesSized t

/-- The facts of the unit, its factory record among them, never change, and the rollback counter only rises. -/
def Obligations.StepKeepsUnitAndRollback : Prop :=
  ∀ s t : State, Machine.step s = .next t →
    t.hw = s.hw ∧ s.boot.rollback.toNat ≤ t.boot.rollback.toNat ∧ t.pending = s.pending.drop 1

/-- State.reset has memory in canonical form, tables of full size and nothing in its queue. Reset values that the manual states for the
registers of the host port (Tables 06-2 to 06-12, 02-9 and 04-2). -/
def Obligations.ResetState : Prop :=
  (Memory.wf State.reset.mem ∧ TablesSized State.reset ∧ State.reset.pending = []) ∧
  (let s := State.reset
   (∀ n, n ∈ [0x04, 0x06, 0x07, 0x08, 0x09, 0x0A, 0x0C, 0x0D, 0x0E, 0x0F, 0x11, 0x13, 0x14, 0x15, 0x17, 0x1A, 0x1B,
       0x1C, 0x1D, 0x1E, 0x21, 0x22, 0x25, 0x26, 0x27, 0x29, 0x2B, 0x2D, 0x2E, 0x2F] → plainRead n s = 0) ∧
   plainRead 0x00 s = 0x4647 ∧ plainRead 0x18 s = 0x000F ∧ (hstat s).setWidth 4 = (1 : BitVec 4))

/-- No operation of a voice core, and no job of a tensor engine, changes the module state, the power entry, the
temperature, the pins, the clocks, the command lanes, the safety state or the calibration. -/
def Obligations.CoresCannotReachSafetyState : Prop :=
  ∀ (c : Instr) (s t : State), ranByExecutor c = true → Machine.exec c s = .next t →
    t.boot = s.boot ∧ t.pwr = s.pwr ∧ t.therm = s.therm ∧ t.pins = s.pins ∧ t.clk = s.clk ∧ t.cmds = s.cmds ∧
    t.saf = s.saf ∧ t.cal = s.cal

/-! ### The host port (chapter 06) -/

/-- While the host port is not live, or the pins of J1 are released, every write at it and every command issued through
it leaves the module as it is, and a read gives what the host's own pulls give (R75, R81, R153). An access with RD#
and WR# both low is ignored: nothing is written, and the read gives 0 (R151). -/
def Obligations.HostPortNotLive : Prop :=
  (∀ (s : State) (slot : BitVec 6) (v : Word), hostUp s = true →
    exec (.registerWrite slot ⟨v, true⟩) s = .next (s.setHost { s.host with lastRead := 0 })) ∧
  ∀ s : State, hostUp s = false →
    (∀ slot v, exec (.registerWrite slot ⟨v, false⟩) s = .next s) ∧
    (∀ slot v, exec (.registerWrite slot ⟨v, true⟩) s =
      .next (s.draw.setHost { s.host with lastRead := Config.hostPulls s.free })) ∧
    (∀ v, exec (.hkey v) s = .next s) ∧ (∀ v, exec (.cmdFifo v) s = .next s) ∧
    (∀ v, exec (.apertureWrite v) s = .next s) ∧ (∀ v, exec (.hwdogSet v) s = .next s) ∧
    (∀ v, exec (.srcPref v) s = .next s) ∧
    (∀ i, i ∈ [Instr.cmdClear, .removeHeadResponse, .safeCtlClear, .safeCtlEnter, .switchBank, .hwdogKick, .kill] →
      exec i s = .next s) ∧
    (∀ op tag args, exec (.unknownOpcode op tag args) s = .next s) ∧
    (∀ r ∈ commandRows, ∀ tag args, exec (r.1 tag args) s = .next s) ∧
    (∀ i, i ∈ [Instr.rspFifo, .evtFifo, .apertureRead, .time0Read] →
      exec i s = .next (s.draw.setHost { s.host with lastRead := Config.hostPulls s.free })) ∧
    (∀ a, exec (.readClear a) s = .next (s.draw.setHost { s.host with lastRead := Config.hostPulls s.free }))

/-- A write to a register whose fields are RW sets them, ignores its RSV bits, and consumes the key; nothing else
changes (R8, R157; Tables 06-4 to 06-11). A write of 1 to a W1C bit clears it and a write of 0 leaves it; the RW
fields of the same register take the value written (R8, R9, R171; Tables 06-5, 06-6, 06-8 to 06-11). A write to a
register whose bits are all RO or RSV, or to a slot without a register, only consumes the key. -/
def Obligations.RegisterWrites : Prop :=
  (∀ (s : State) (v : Word), hostUp s = true →
     let h := { s.host with key := .idle }
     let w := fun (slot : BitVec 6) => exec (.registerWrite slot ⟨v, false⟩) s
     w 0x04 = .next (s.setHost { h with strict := v.getLsbD 0 }) ∧
     w 0x07 = .next (s.setHost { h with irqEn := v.setWidth 10 }) ∧
     w 0x08 = .next (s.setHost { h with cmdOp := v }) ∧
     w 0x09 = .next (s.setHost { h with cmdTag := v }) ∧
     w 0x0A = .next (s.setHost { h with cmdLen := v.setWidth 11 }) ∧
     w 0x13 = .next (s.setHost { h with apAddr := s.host.apAddr &&& 0xFFFFFF0000 ||| v.setWidth 40 }) ∧
     w 0x14 = .next (s.setHost { h with apAddr := s.host.apAddr &&& 0xFF0000FFFF ||| v.setWidth 40 <<< 16 }) ∧
     w 0x15 = .next (s.setHost { h with apAddr := s.host.apAddr &&& 0x00FFFFFFFF ||| (v.setWidth 8).setWidth 40 <<< 32 }) ∧
     w 0x16 = .next (s.setHost { h with apD0 := v }) ∧
     w 0x2D = .next (s.setHost { h with gpioOut := v }) ∧
     w 0x2E = .next (s.setHost { h with gpioDir := v }) ∧
     w 0x2F = .next (s.setHost { h with scratch := v })) ∧
  (∀ (s : State) (v : Word), hostUp s = true →
     let h := { s.host with key := .idle }
     let w := fun (slot : BitVec 6) => exec (.registerWrite slot ⟨v, false⟩) s
     w 0x06 = .next (s.setHost { h with irqCmdFree := s.host.irqCmdFree && !v.getLsbD 2,
                                        irqWdog := s.host.irqWdog && !v.getLsbD 5,
                                        irqTimeHalf := s.host.irqTimeHalf && !v.getLsbD 7 }) ∧
     w 0x11 = .next (s.setHost { h with evtLost := s.host.evtLost && !v.getLsbD 15 }) ∧
     w 0x18 = .next (s.setHost { h with apBe := v.setWidth 4, apInc := v.getLsbD 4,
                                        apErr := s.host.apErr && !v.getLsbD 5,
                                        apErrCode := if v.getLsbD 5 then 0 else s.host.apErrCode }) ∧
     w 0x1B = .next (s.setHost { h with lsrc := if v.setWidth 2 = (3 : BitVec 2) then s.host.lsrc else v.setWidth 2,
                                        latched := s.host.latched && !v.getLsbD 2,
                                        stepped := s.host.stepped && !v.getLsbD 6 }) ∧
     w 0x1C = .next (s.setHost { h with benign := s.host.benign && !v.getLsbD 4 }) ∧
     w 0x22 = .next (s.setHost { h with fcSticky := s.host.fcSticky &&& ~~~(v.setWidth 8) })) ∧
  (∀ (s : State) (slot : BitVec 6) (v : Word), hostUp s = true →
     slot.toNat ∈ [0x00, 0x01, 0x02, 0x03, 0x0D, 0x0E, 0x10, 0x12, 0x19, 0x1A, 0x1D, 0x20, 0x21, 0x23, 0x25, 0x28, 0x29,
       0x2A, 0x2B, 0x2C] ∨ 0x30 ≤ slot.toNat →
     exec (.registerWrite slot ⟨v, false⟩) s = .next (s.setHost { s.host with key := .idle }))

/-- The key sequence: 0xA55A always starts it, 0x5AA5 within 1 ms of it arms the key, any other value clears it, and
the writes of CMD_FIFO and CMD_CTL consume it. A write under an armed key is a protected one until 1 ms after the first word.
The 1 ms are counted in cycles of uptime (log entry 7). CMD_FIFO appends to the staging area up to
1,024 words; CMD_CTL.CLEAR empties it. -/
def Obligations.KeyAndStaging : Prop :=
  (∀ (s : State) (v : Word), hostUp s = true →
     exec (.hkey 0xA55A) s = .next (s.setHost { s.host with key := .first s.tim.up }) ∧
     (∀ t, s.host.key = .first t →
       exec (.hkey 0x5AA5) s = .next (s.setHost { s.host with key := (if s.tim.up ≤ t + 500000 then .armed t else .idle : KeyState) })) ∧
     ((∀ t, s.host.key ≠ .first t) → exec (.hkey 0x5AA5) s = .next (s.setHost { s.host with key := .idle })) ∧
     (v ≠ 0xA55A → v ≠ 0x5AA5 → exec (.hkey v) s = .next (s.setHost { s.host with key := .idle })) ∧
     (keyed s = true ↔ ∃ t, s.host.key = .armed t ∧ s.tim.up ≤ t + 500000)) ∧
  (∀ (s : State) (w : Word), hostUp s = true →
     (s.host.staged.length < 1024 →
       exec (.cmdFifo w) s = .next (s.setHost { s.host with key := .idle, staged := s.host.staged ++ [w] })) ∧
     (1024 ≤ s.host.staged.length → exec (.cmdFifo w) s = .next (s.setHost { s.host with key := .idle })) ∧
     exec .cmdClear s = .next (s.setHost { s.host with key := .idle, staged := [] }))

/-- RSP_STAT, RSP_TAG and RSP_LEN describe the head response; RSP_FIFO gives its words in turn and then 0;
RSP_LEN.VALID removes it, and sets CMD_FREE where the removal ends FULL; with no response they read 0 and nothing
changes (R163, R179). EVT_FIFO gives the words of the head record in turn; the record leaves with its last word; with
none waiting the read gives 0 (R164). -/
def Obligations.ResponseAndEventPaths : Prop :=
  (∀ s : State, hostUp s = true →
     (∀ r l, s.host.responses = r :: l →
       plainRead 0x0D s = r.status ∧ plainRead 0x0E s = r.tag ∧
       (r.words.length < 4096 → plainRead 0x0F s = 0x8000 + BitVec.ofNat 16 r.words.length) ∧
       exec .rspFifo s = .next (s.setHost { s.host with
         rspPos := min r.words.length (s.host.rspPos + 1), lastRead := r.words.getD s.host.rspPos 0 }) ∧
       exec .removeHeadResponse s = .next (s.setHost { s.host with
         key := .idle, responses := l, rspPos := 0,
         irqCmdFree := s.host.irqCmdFree || (cmdFull s && decide (unanswered s < 8) && decide (l.length < 32)) })) ∧
     (s.host.responses = [] →
       plainRead 0x0D s = 0 ∧ plainRead 0x0E s = 0 ∧ plainRead 0x0F s = 0 ∧
       exec .rspFifo s = .next (s.setHost { s.host with lastRead := 0 }) ∧
       exec .removeHeadResponse s = .next (s.setHost { s.host with key := .idle, rspPos := 0 }))) ∧
  (∀ s : State, hostUp s = true →
     (s.host.evtChip = [] → exec .evtFifo s = .next (s.setHost { s.host with lastRead := 0 })) ∧
     (∀ r l, s.host.evtChip = r :: l → s.host.evtPos + 1 < r.length →
       exec .evtFifo s = .next (s.setHost { s.host with evtPos := s.host.evtPos + 1, lastRead := r.getD s.host.evtPos 0 })) ∧
     (∀ r l, s.host.evtChip = r :: l → r.length ≤ s.host.evtPos + 1 → s.host.evtBack = [] →
       exec .evtFifo s = .next (s.setHost { s.host with evtChip := l, evtPos := 0, lastRead := r.getD s.host.evtPos 0 })) ∧
     (∀ r l b k, s.host.evtChip = r :: l → r.length ≤ s.host.evtPos + 1 → s.host.evtBack = b :: k →
       ∃ t, exec .evtFifo s = .next t ∧ t.host.evtPos = 0 ∧ t.host.lastRead = r.getD s.host.evtPos 0 ∧
         t.host.evtChip ++ t.host.evtBack = l ++ b :: k))

/-- An aperture access of DRAM at a four-byte address moves one little-endian word under the byte enables, and INC
moves the address on by 4 (R166-R168). A failed access sets ERR, keeps the code of the first failure, reads as zero,
changes nothing else, and INC moves the address on all the same: ALIGN for an address that is not a multiple of four,
ABSENT in BOOT, RECOVERY and STANDBY, PROT for a write to the fault-injection or vigil region (R168-R170, Table
06-8). -/
def Obligations.ApertureAccess : Prop :=
  (∀ (s : State) (a : Addr) (d1 : Word), hostUp s = true → apertureShut s = false →
     a.toNat % 4 = 0 → a.toNat < 0x200000000 →
     let inc := fun (b : Addr) => if s.host.apInc then b + 4 else b
     let v := memRead32 s.mem a.toNat
     (s.host.apAddr = a →
       exec .apertureRead s = .next (s.setHost { s.host with
         apAddr := inc a, apD0 := v.setWidth 16, apD1 := (v >>> 16).setWidth 16, lastAperture := v, lastRead := v.setWidth 16 }) ∧
       exec (.apertureWrite d1) s = .next ((s.withMem (memWrite32 s.mem a.toNat (d1 ++ s.host.apD0) s.host.apBe)).setHost
         { s.host with key := .idle, apAddr := inc a, apD1 := d1 })) ∧
     exec (.readClear a) s = .next (s.setHost { s.host with
       key := .idle, apAddr := inc a, apD0 := v.setWidth 16, apD1 := (v >>> 16).setWidth 16, lastAperture := v,
       lastRead := v.setWidth 16 })) ∧
  (∀ (s : State) (d1 : Word) (code : BitVec 2), hostUp s = true →
     let a := s.host.apAddr
     let inc := if s.host.apInc then a + 4 else a
     let first := if s.host.apErr then s.host.apErrCode else code
     ((code = 3 ∧ a.toNat % 4 ≠ 0) ∨ (code = 1 ∧ a.toNat % 4 = 0 ∧ s.mode ∈ [Mode.boot, .recovery, .standby]) →
       exec .apertureRead s = .next (s.setHost { s.host with
         apAddr := inc, apErr := true, apErrCode := first, apD0 := 0, apD1 := 0, lastAperture := 0, lastRead := 0 })) ∧
     ((code = 3 ∧ a.toNat % 4 ≠ 0) ∨ (code = 1 ∧ a.toNat % 4 = 0 ∧ s.mode ∈ [Mode.boot, .recovery, .standby]) ∨
       (code = 2 ∧ a.toNat % 4 = 0 ∧ apertureShut s = false ∧
         (a.toNat / 0x10000000 = 0x386 ∨ a.toNat / 0x10000000 = 0x3F0)) →
       exec (.apertureWrite d1) s = .next (s.setHost { s.host with
         key := .idle, apAddr := inc, apErr := true, apErrCode := first, apD1 := d1 })))

/-- With LSRC = 0 a read of TIME0 gives counter bits [15:0] and latches bits [31:16] of the same instant into TIME1;
with another source it captures nothing (R171, R379). SRC_PREF takes the codes of Table 02-9 and ignores the others;
a change of the active source raises a PWR event (R46, R67). HWDOG with KICK 0x0 sets the period, with 0xA keeps it
(R177). IMG_CTL.SWITCH under the key selects the bank that is not running where its stored result is GOOD, and the
module resets; while PWRFAIL# is asserted the selection waits for its end (R55); without the key or for another bank it
sets IMG_CTL.REFUSED and changes nothing else (R147, R158). -/
def Obligations.TimePowerAndBankRegisters : Prop :=
  (∀ s : State, hostUp s = true →
     (s.host.lsrc = 0 → exec .time0Read s = .next ((s.setTim { s.tim with stepLatch := s.tim.stepSum }).setHost { s.host with
       time0 := s.tim.counter.setWidth 16, time1 := (s.tim.counter >>> 16).setWidth 16,
       lastRead := s.tim.counter.setWidth 16 })) ∧
     (s.host.lsrc ≠ 0 → exec .time0Read s = .next (s.setHost { s.host with lastRead := s.host.time0 }))) ∧
  (∀ s : State, hostUp s = true →
     let u := s.setHost { s.host with key := .idle }
     (∀ v : BitVec 3, v.toNat < 6 →
       let t := u.setPwr { s.pwr with srcPref := v }
       (activeSrc t = activeSrc s → exec (.srcPref v) s = .next t) ∧
       (activeSrc t ≠ activeSrc s → exec (.srcPref v) s = .next (raise 0x05 [pwrStat t, pwrLimit t] t))) ∧
     (∀ v : BitVec 3, 6 ≤ v.toNat → exec (.srcPref v) s = .next u) ∧
     (∀ p : BitVec 12, exec (.hwdogSet p) s = .next (s.setHost { s.host with key := .idle, hwdogPeriod := p })) ∧
     exec .hwdogKick s = .next u) ∧
  (∀ s : State, hostUp s = true →
     (keyed s = true → isGood s (otherBank s) = true →
       let v := if s.boot.active = some (otherBank s) ∧ s.boot.pref = otherBank s then none else some (otherBank s)
       (s.pwr.pwrfail = false → exec .switchBank s = .next ((s.setHost { s.host with key := .idle }).setBoot
         { s.boot with pendingSel := v, resetSoon := true })) ∧
       (s.pwr.pwrfail = true → exec .switchBank s = .next ((s.setHost { s.host with key := .idle }).setBoot
         { s.boot with selWaits := some v, resetSoon := true }))) ∧
     (keyed s = false ∨ isGood s (otherBank s) = false →
       exec .switchBank s = .next (s.setHost { s.host with key := .idle, imgRefused := true })))

/-- SAFE_CTL.CLEAR without the key, outside SAFE, or for a class that is not clearable sets REFUSED and changes
nothing else; ENTER is ignored in SAFE (R173, R174). SAFE_CTL.CLEAR under the key, in SAFE with a clearable class,
deletes every channel and gives READY with the safe state and its cause cleared (R173, R483, Table 05-7). FI_CTL.KILL
disarms every point: where no point holds a unit, the next state has every point disarmed, with its configuration and
counters kept, and raises FI_ARMED with no point armed; with none armed it only consumes the key (R521). -/
def Obligations.SafeControlAndKill : Prop :=
  (∀ s : State, hostUp s = true →
     (keyed s = false ∨ s.mode ≠ .safe ∨ s.saf.safe = false ∨ s.saf.cls ∉ [9, 10, 11] →
       exec .safeCtlClear s = .next (s.setHost { s.host with key := .idle, safeRefused := true })) ∧
     (s.mode = .safe → exec .safeCtlEnter s = .next (s.setHost { s.host with key := .idle }))) ∧
  (∀ s : State, hostUp s = true → keyed s = true → s.mode = .safe → s.saf.safe = true →
     s.saf.cls ∈ [9, 10, 11] → poeStandby s = false → tooHot s = false →
     ∃ t, exec .safeCtlClear s = .next t ∧ t.mode = .ready ∧ t.saf.safe = false ∧ t.saf.cause = 0 ∧ t.led.chans = []) ∧
  (∀ s : State, hostUp s = true → (s.fi.points.map Prod.fst).Nodup → (∀ e ∈ s.fi.points, e.2.held = []) →
     armedPoints s ≠ 0 →
     let u := (s.setHost { s.host with key := .idle }).setFi { s.fi with
       points := s.fi.points.map (fun e => (e.1, { e.2 with armed := false })) }
     exec .kill s = .next (raise 0x0E [0, 0] u)) ∧
  (∀ s : State, hostUp s = true → armedPoints s = 0 → exec .kill s = .next (s.setHost { s.host with key := .idle }))

/-! ### Voice cores (chapter 10) -/

/-- An M-slot operation rounds its result to its F register, with the sticky bits of FSTAT, for use four words later
(R263, R270-R272, Table 10-5): the fused, dyadic and monadic operations, and FMOVI. FCVT converts between 16-bit
integer, binary32 and binary16 (R272); of a binary16 result the manual gives bits [15:0], and the bits above are a
free value. A second result for one register in one word is the fault CONFLICT, and the task ends with it (R262,
R286). -/
def Obligations.ArithmeticResults : Prop :=
  (∀ (i : Iss) (t : Task) (s : State) (d a b x : BitVec 6) (v : W32), CanIssue i 1 t s →
     let c := slotTaken i 1 s
     let fz := c.fstat.getLsbD 0
     WTarget.f (physF c d) ∉ c.dests →
     let m := fun (r : FRes) => Host.Outcome.next (issued i (naming c (.f (physF c d)) 4 (r.w.setWidth 40)
       [(4, .sticky, pack 40 [(b2n r.fzs, 1), (b2n r.inv, 2), (b2n r.ovf, 3)])]) s)
     exec (.fmac i d a b x) s = m (fFused false fz (rdF c a) (rdF c b) (rdF c x)) ∧
     exec (.fmsub i d a b x) s = m (fFused true fz (rdF c a) (rdF c b) (rdF c x)) ∧
     exec (.fmul i d a b) s = m (fMul fz (rdF c a) (rdF c b)) ∧
     exec (.fadd i d a b) s = m (fAdd fz (rdF c a) (rdF c b)) ∧
     exec (.fsub i d a b) s = m (fSub fz (rdF c a) (rdF c b)) ∧
     exec (.fmin i d a b) s = m (fMin fz (rdF c a) (rdF c b)) ∧
     exec (.fmax i d a b) s = m (fMax fz (rdF c a) (rdF c b)) ∧
     exec (.fabs i d a) s = m (fAbs fz (rdF c a)) ∧
     exec (.fneg i d a) s = m (fNeg fz (rdF c a)) ∧
     exec (.fmovi i d v) s = m ⟨v, false, false, false⟩) ∧
  (∀ (i : Iss) (t : Task) (s : State) (d a : BitVec 6), CanIssue i 1 t s →
     let c := slotTaken i 1 s
     let fz := c.fstat.getLsbD 0
     WTarget.f (physF c d) ∉ c.dests →
     let m := fun (r : FRes) (s : State) => Host.Outcome.next (issued i (naming c (.f (physF c d)) 4 (r.w.setWidth 40)
       [(4, .sticky, pack 40 [(b2n r.fzs, 1), (b2n r.inv, 2), (b2n r.ovf, 3)])]) s)
     let h := f32ToF16 fz (rdF c a)
     exec (.fcvt i .i16ToF32 d a) s = m (i16ToF32 (rdF c a)) s ∧
     exec (.fcvt i .f32ToI16 d a) s = m (f32ToI16 fz (rdF c a)) s ∧
     exec (.fcvt i .f16ToF32 d a) s = m (f16ToF32 (rdF c a)) s ∧
     exec (.fcvt i .f32ToF16 d a) s =
       m ⟨((Config.free32 s.free).setWidth 16 : Word) ++ h.1, h.2.1, false, h.2.2⟩ s.draw) ∧
  (∀ (i : Iss) (t : Task) (s : State) (d a b x : BitVec 6) (v : W32) (k : Fcvt), CanIssue i 1 t s →
     WTarget.f (physF (slotTaken i 1 s) d) ∈ (getVc s i.core).dests →
     ∀ c ∈ [Instr.fmac i d a b x, .fmsub i d a b x, .fmul i d a b, .fadd i d a b, .fsub i d a b, .fmin i d a b,
         .fmax i d a b, .fabs i d a, .fneg i d a, .fcvt i k d a, .fmovi i d v],
       exec c s = .next (coreFault i.core 2 s))

/-- A-slot operations: integer results on F, P, B, L and E registers, MOVC and MOVTB for the next word, the loop registers
and the flags of FCMP two words later (Tables 10-3 to 10-5, R264, R272, R278). A result that the manual leaves undefined
is some value, and the word goes on. A MOVC that would select three-bus mode writes nothing (log entry 50). -/
def Obligations.IntegerSlotResults : Prop :=
  ∀ (i : Iss) (t : Task) (s : State) (d a b : BitVec 6) (r : CtlReg), CanIssue i 2 t s →
    let c := slotTaken i 2 s
    (∀ (fn : IntFn) (k : IntSrc 6) (v : W32), intFn fn (rdF c a) (intSrc (rdF c) k) = some v →
      WTarget.f (physF c d) ∉ c.dests →
      exec (.integerOp i (.onF fn d a k)) s = .next (issued i (naming c (.f (physF c d)) 1 (v.setWidth 40) []) s)) ∧
    (∀ (fn : IntFn) (p q : BitVec 4) (k : IntSrc 4) (v : Word),
      (intFn fn (rdP c q) (intSrc (rdP c) k) = some v → WTarget.p p ∉ c.dests →
        exec (.integerOp i (.onP fn p q k)) s = .next (issued i (naming c (.p p) 1 (v.setWidth 40) []) s)) ∧
      (intFn fn (rdB c q) (intSrc (rdB c) k) = some v → WTarget.b p ∉ c.dests →
        exec (.integerOp i (.onB fn p q k)) s = .next (issued i (naming c (.b p) 1 (v.setWidth 40) []) s)) ∧
      (intFn fn (rdL c q) (intSrc (rdL c) k) = some v → WTarget.l p ∉ c.dests →
        exec (.integerOp i (.onL fn p q k)) s = .next (issued i (naming c (.l p) 1 (v.setWidth 40) []) s))) ∧
    (∀ (fn : IntFn) (e g : BitVec 2) (k : IntSrc 2) (v : Addr), intFn fn (rdE c g) (intSrc (rdE c) k) = some v →
      WTarget.e e ∉ c.dests →
      exec (.integerOp i (.onE fn e g k)) s = .next (issued i (naming c (.e e) 1 v []) s)) ∧
    (∀ (fn : IntFn) (k : IntSrc 6), intFn fn (rdF c a) (intSrc (rdF c) k) = none → WTarget.f (physF c d) ∉ c.dests →
      ∃ v : W32, exec (.integerOp i (.onF fn d a k)) s =
        .next (issued i (naming c (.f (physF c d)) 1 (v.setWidth 40) []) (State.drawN 2 s))) ∧
    (WTarget.f (physF c d) ∉ c.dests →
      exec (.movc i false r d) s = .next (issued i (naming c (.f (physF c d)) 1 ((movcRead c r).setWidth 40) []) s) ∧
      exec (.movtb i d) s = .next (issued i (naming c (.f (physF c d)) 1 (c.tb.setWidth 40) []) s)) ∧
    (WTarget.ctl r ∉ c.dests → (r = .mode → (rdF c d).getLsbD 0 = false) →
      exec (.movc i true r d) s = .next (issued i
        (naming c (.ctl r) (if r ∈ [CtlReg.lc, .ls, .le, .lstat] then 2 else 1) ((rdF c d).setWidth 40) []) s)) ∧
    ((rdF c d).getLsbD 0 = true → exec (.movc i true .mode d) s = .next (issued i c s)) ∧
    (let f := fCmp (c.fstat.getLsbD 0) (rdF c a) (rdF c b)
     exec (.fcmp i a b) s = .next (issued i (sending c
      [(2, .flags, pack 40 [(b2n f.1, 0), (b2n f.2.1, 1), (b2n f.2.2.1, 2)]), (2, .sticky, pack 40 [(b2n f.2.2.2, 1)])]) s))

/-- ACS4 runs four butterflies on four registers, and ACSSTG ends the stage (R277, R278): the four destinations get the
survivors two words later, and with them STMIN has the least metric of the stage and TB the decision bits; register
numbers that are not multiples of 4 are the fault ILLEGAL. ACSSTG sets NB where NORM is set, an ACS4 has run since the
last stage and STMIN has reached 0x4000, clears it elsewhere, and sets STMIN to 0xFFFF. -/
def Obligations.ViterbiStage : Prop :=
  ∀ (i : Iss) (t : Task) (s : State) (d x b : BitVec 6), CanIssue i 2 t s →
    let c := slotTaken i 2 s
    (d.toNat % 4 = 0 → x.toNat % 4 = 0 → b.toNat % 4 = 0 →
      let fly := fun (k : Nat) => butterfly (c.acscr.getLsbD 1) (rdF c (x + BitVec.ofNat 6 k)) (rdF c (b + BitVec.ofNat 6 k))
      let dst := fun (k : Nat) => WTarget.f (physF c (d + BitVec.ofNat 6 k))
      dst 0 ∉ c.dests → dst 1 ∉ c.dests → dst 2 ∉ c.dests → dst 3 ∉ c.dests →
      ∃ u : Core, exec (.acs4 i d x b) s = .next (issued i u s) ∧
        (∀ k, k < 4 → (⟨c.word + 2, c.word, dst k, pack 40 [((fly k).a, 0), ((fly k).b, 16)]⟩ : Pend) ∈ u.pend) ∧
        (⟨c.word + 2, c.word, .ctl .stmin, BitVec.ofNat 40 ((List.range 4).foldl
          (fun m k => min m (min (fly k).a (fly k).b)) (newest c .stmin).toNat)⟩ : Pend) ∈ u.pend ∧
        (⟨c.word + 2, c.word, .ctl .tb, ((newest c .tb <<< 8) ||| BitVec.ofNat 32 ((List.range 4).foldl
          (fun m k => m + b2n (fly k).da * 2 ^ (2 * k) + b2n (fly k).db * 2 ^ (2 * k + 1)) 0)).setWidth 40⟩ : Pend) ∈ u.pend ∧
        u.acsRan = true ∧ u.f = c.f ∧ u.p = c.p ∧ u.dests = c.dests ++ [dst 0, dst 1, dst 2, dst 3]) ∧
    (d.toNat % 4 ≠ 0 ∨ x.toNat % 4 ≠ 0 ∨ b.toNat % 4 ≠ 0 → exec (.acs4 i d x b) s = .next (coreFault i.core 1 s)) ∧
    exec (.acsstg i) s = .next (issued i { c with
      acscr := (c.acscr &&& 13) ||| (if c.acscr.getLsbD 0 && c.acsRan && decide (0x4000 ≤ c.stmin.toNat) then 2 else 0),
      stmin := 0xFFFF, acsRan := false, pend := c.pend.filter (fun p => p.tgt ≠ .ctl .stmin) } s)

/-- A local load gives its register the bytes at the address three words later, a store waits for the end of its
word; a post-modified pointer is usable from the next word, the loaded register among the pointers too (R262, R263,
R265, R267, R268). An access that its task may not make is the fault MEMPROT, and one off its alignment ALIGN (R258, R259,
R269). PLD reads PM in three-bus mode, post-modifying as the others do; outside it PLD is the fault ILLEGAL (R273). -/
def Obligations.LoadsAndStores : Prop :=
  (∀ (i : Iss) (t : Task) (s : State) (inY : Bool) (m : AddrMode),
     let slot := if inY then 4 else 3
     let mem := if inY then 1 else 0
     CanIssue i slot t s →
     let c := slotTaken i slot s
     let x := (modeAddr c m).1
     let moved := fun (c : Core) => match (modeAddr c m).2 with
       | none => c
       | some (p, v) => sending { c with posts := c.posts ++ [p] } [(1, .p p, v.setWidth 40)]
     (∀ p v, (modeAddr c m).2 = some (p, v) → p ∉ c.posts) →
     (∀ d : LoadDst, localOk t mem false x = true → x % loadBytes d = 0 → loadTarget c d ∉ c.dests →
       exec (.loadOp i inY d m) s = .next (issued i
         (moved (naming c (loadTarget c d) 3 (loadValue d (memRead32 s.mem (memBase i.core mem + x))) [])) s)) ∧
     (∀ r : StoreSrc, localOk t mem true x = true → x % (storeValue c r).2 = 0 →
       exec (.storeOp i inY r m) s = .next (issued i
         (moved { c with stores := c.stores ++ [(BitVec.ofNat 40 (memBase i.core mem + x), (storeValue c r).2, (storeValue c r).1)] }) s)) ∧
     (∀ d : LoadDst, (localOk t mem false x = false → exec (.loadOp i inY d m) s = .next (coreFault i.core 3 s)) ∧
       (localOk t mem false x = true → x % loadBytes d ≠ 0 → exec (.loadOp i inY d m) s = .next (coreFault i.core 4 s))) ∧
     (∀ r : StoreSrc, (localOk t mem true x = false → exec (.storeOp i inY r m) s = .next (coreFault i.core 3 s)) ∧
       (localOk t mem true x = true → x % (storeValue c r).2 ≠ 0 →
         exec (.storeOp i inY r m) s = .next (coreFault i.core 4 s)))) ∧
  (∀ (i : Iss) (t : Task) (s : State) (fd : BitVec 6) (m : AddrMode), serving s (.vc i.core) = some t →
     (getVc s i.core).slots.getLsbD 0 = false →
     let c := slotTaken i 0 s
     let x := (modeAddr c m).1
     (c.threeBus = false → exec (.pld i fd m) s = .next (coreFault i.core 1 s)) ∧
     (c.threeBus = true → localOk t 2 false x = true → x % 4 = 0 → WTarget.f (physF c fd) ∉ c.dests →
       (∀ p v, (modeAddr c m).2 = some (p, v) → p ∉ c.posts) →
       let n := naming c (.f (physF c fd)) 3 ((memRead32 s.mem (memBase i.core 2 + x)).setWidth 40) []
       exec (.pld i fd m) s = .next (issued i (match (modeAddr c m).2 with
         | none => n
         | some (p, v) => sending { n with posts := n.posts ++ [p] } [(1, .p p, v.setWidth 40)]) s)))

/-- External accesses of a core: XLD and XST move one word at En + offset through the internal bus; TIME gives the
time counter (R283, R285). DMA takes a free channel for a transfer of the count in its register, and a count outside 1 to
4,096 sets the channel's error bit; WAITD lets the transfers of the masked channels complete; DMA_DONE completes one:
its words are moved, here those of a transfer of one word in either direction, the channel is free and, where the
transfer asks for it, the DMA interrupt is pending (R279, R284). -/
def Obligations.ExternalAccessAndDma : Prop :=
  (∀ (i : Iss) (t : Task) (s : State) (f : BitVec 6) (e : BitVec 2) (off : BitVec 12), CanIssue i 0 t s →
     let c := slotTaken i 0 s
     let a := (rdE c e + BitVec.ofInt 40 off.toInt).toNat
     (WTarget.f (physF c f) ∉ c.dests →
       exec (.timeOp i f) s = .next (issued i (naming c (.f (physF c f)) 1 (s.tim.counter.setWidth 40) []) s)) ∧
     (externalOk t a 4 = true → a % 4 = 0 →
       (∀ u v, WTarget.f (physF c f) ∉ c.dests → busRead (.core i.core) a s = .ok (u, v) →
         exec (.xld i f e off) s = .next (issued i (naming c (.f (physF c f)) 1 (v.setWidth 40) []) u)) ∧
       (∀ u, busWrite (.core i.core) a (rdF c f) 15 s = .ok u → exec (.xst i f e off) s = .next (issued i c u))) ∧
     (externalOk t a 4 = false → exec (.xld i f e off) s = .next (coreFault i.core 5 s) ∧
       exec (.xst i f e off) s = .next (coreFault i.core 5 s)) ∧
     (externalOk t a 4 = true → a % 4 ≠ 0 → exec (.xld i f e off) s = .next (coreFault i.core 4 s) ∧
       exec (.xst i f e off) s = .next (coreFault i.core 4 s))) ∧
  (∀ (i : Iss) (t : Task) (s : State) (k : BitVec 2) (toLocal : Bool) (e : BitVec 2) (p : BitVec 4) (inY : Bool)
     (cnt mask : BitVec 4) (irq : Bool), CanIssue i 0 t s →
     let c := slotTaken i 0 s
     let words := (rdP c cnt).toNat
     (0 < words → words ≤ 4096 → c.dma.getD k.toNat none = none → getVc (putVc i.core c s) i.core = c →
       checkDma t inY toLocal (rdE c e).toNat (rdP c p).toNat words = .ok () →
       exec (.dma i k toLocal e p inY cnt irq) s = .next (issued i { c with
         dma := c.dma.set k.toNat (some ⟨toLocal, rdE c e, rdP c p, inY, words, irq⟩) } (putVc i.core c s))) ∧
     (words = 0 ∨ 4096 < words → exec (.dma i k toLocal e p inY cnt irq) s =
       .next (issued i { c with dmaErr := c.dmaErr ||| BitVec.ofNat 4 (2 ^ k.toNat) } s)) ∧
     (let u := (List.range 4).foldl (fun s k => if mask.getLsbD k then dmaDone i.core k s else s) (putVc i.core c s)
      exec (.waitd i mask) s = .next (issued i (getVc u i.core) u)) ∧
     (∀ (d : Dma) (v : W32) (u : State), (getVc s i.core).dma.getD k.toNat none = some d → d.count = 1 →
       k.toNat < (getVc s i.core).dma.length →
       let loc := (if d.inY then yBase i.core else xBase i.core) + d.loc.toNat
       let done := fun (u : State) => putVc i.core { getVc u i.core with
         dma := (getVc u i.core).dma.set k.toNat none,
         ipend := if d.irq then (getVc u i.core).ipend ||| 2 else (getVc u i.core).ipend } u
       (d.toLocal = true → busRead (.core i.core) d.ext.toNat s = .ok (u, v) →
         exec (.dmaDone i.core k) s = .next (done (u.withMem (memWrite32 u.mem loc v 15)))) ∧
       (d.toLocal = false → busWrite (.core i.core) d.ext.toNat (memRead32 s.mem loc) 15 s = .ok u →
         exec (.dmaDone i.core k) s = .next (done u))) ∧
     (∀ d : Dma, (getVc s i.core).dma.getD k.toNat none = some d → k.toNat < (getVc s i.core).dma.length → d.count = 0 →
       exec (.dmaDone i.core k) s = .next (putVc i.core { getVc s i.core with
         dma := (getVc s i.core).dma.set k.toNat none,
         ipend := if d.irq then (getVc s i.core).ipend ||| 2 else (getVc s i.core).ipend } s)))

/-- Branches take effect after two delay words: BRANCH on its condition, DBNZ on a count that does not reach zero, CALL
and RET through the return stack of eight; each is a fault in a delay word (R266). -/
def Obligations.BranchesTakeTwoDelayWords : Prop :=
  ∀ (i : Iss) (t : Task) (s : State) (k : Cond) (p : BitVec 4) (g : BitVec 12), CanIssue i 0 t s →
    let c := slotTaken i 0 s
    let jump := fun (g : BitVec 12) (c : Core) => { c with delay := 3, target := some g }
    (c.delay = 0 → (c.la && c.pc = c.le) = false →
      exec (.branch i k g) s = .next (issued i (if condHolds c k then { jump g c with jump := true } else c) s) ∧
      (WTarget.p p ∉ c.dests →
        let n := naming c (.p p) 1 ((rdP c p - 1).setWidth 40) []
        exec (.dbnz i p g) s = .next (issued i (if rdP c p ≠ 1 then { jump g n with jump := true } else n) s)) ∧
      (c.rs.length < 8 → exec (.call i g) s = .next (issued i (jump g { c with rs := (c.pc + 3) :: c.rs }) s)) ∧
      (8 ≤ c.rs.length → exec (.call i g) s = .next (coreFault i.core 7 s)) ∧
      (∀ r l, c.rs = r :: l → exec (.ret i) s = .next (issued i (jump r { c with rs := l }) s)) ∧
      (c.rs = [] → exec (.ret i) s = .next (coreFault i.core 7 s))) ∧
    (c.delay ≠ 0 → exec (.branch i k g) s = .next (coreFault i.core 1 s) ∧
      exec (.dbnz i p g) s = .next (coreFault i.core 1 s) ∧ exec (.call i g) s = .next (coreFault i.core 1 s) ∧
      exec (.ret i) s = .next (coreFault i.core 1 s) ∧ exec (.rti i) s = .next (coreFault i.core 1 s))

/-- LOOP sets up the hardware loop for the next word; with a count of 0 it sets the same registers with no loop active,
and execution goes on after the body; a loop with TB enters three-bus mode with its body; a loop inside a loop, and a
three-bus body of more than 16 words, are the fault LOOP; MODE leaves three-bus mode and may not enter it. END marks
the word as the task's last; SWI makes its interrupt pending; RTI goes back to IPC after two delay words, with IMODE
and IIE to restore (R274-R276, R279, R281, R288). -/
def Obligations.LoopModeAndEnd : Prop :=
  ∀ (i : Iss) (t : Task) (s : State) (n : LoopCount) (last : BitVec 12) (rot tb : Bool) (r : TaskFinding), CanIssue i 0 t s →
    let c := slotTaken i 0 s
    let v := loopCount c n
    let fits := tb = true → (c.pc + 1).toNat ≤ last.toNat ∧ last.toNat + 1 ≤ (c.pc + 1).toNat + 16
    let regs : List (Nat × WTarget × BitVec 40) := [(1, WTarget.ctl .ls, (c.pc + 1).setWidth 40), (1, .ctl .le, last.setWidth 40),
      (1, .ctl .lc, v.setWidth 40),
      (1, .ctl .lstat, (pack 32 [(b2n (v != 0), 0), (b2n rot, 1), (b2n tb, 2), (c.rb.toNat, 4)] : W32).setWidth 40)]
    (c.la = false → fits → v ≠ 0 → exec (.loopOp i n last rot tb) s =
      .next (issued i (sending c (regs ++ if tb then [(1, .ctl .mode, 1)] else [])) s)) ∧
    (c.la = false → fits → v = 0 → c.delay = 0 → exec (.loopOp i n last rot tb) s =
      .next (issued i (sending { c with delay := 1, target := some (last + 1) } regs) s)) ∧
    (c.la = true ∨ ¬fits → exec (.loopOp i n last rot tb) s = .next (coreFault i.core 6 s)) ∧
    exec (.modeOp i false) s = .next (issued i (sending c [(1, .ctl .mode, 0)]) s) ∧
    exec (.modeOp i true) s = .next (coreFault i.core 1 s) ∧
    ((c.la && c.pc = c.le) = false → exec (.endTask i r) s = .next (issued i { c with ended := some r } s)) ∧
    ((c.la && c.pc = c.le) = true → exec (.endTask i r) s = .next (coreFault i.core 6 s)) ∧
    exec (.swi i) s = .next (issued i { c with ipend := c.ipend ||| 4 } s) ∧
    (c.delay = 0 → exec (.rti i) s = .next (issued i { c with
      delay := 3, target := some c.ipc, rtiMode := some (c.imode, c.iie) } s))

/-- BWARN makes the budget warning pending in a core that runs a task. An enabled pending interrupt is taken between
words outside delay words: every result in flight is written, IPC, IMODE and IIE save the state, IE becomes 0 and the
mode dual-memory, and the handler is at the class's IVEC (R279, R280); handlers do not nest (R281). Outside a loop the end of a word writes its
stores, brings the results now due to their registers, and goes on with the next word, or after the last delay word
with the branch target (R261, R264-R266). -/
def Obligations.WordsAndInterrupts : Prop :=
  (∀ (n : CoreNo) (t : Task) (s : State), serving s (.vc n) = some t →
     let c := getVc s n
     exec (.bwarn n) s = .next (putVc n { c with ipend := c.ipend ||| 1 } s) ∧
     (∀ k ivec, c.ipend &&& c.ie ≠ 0 → c.handler = false → c.delay = 0 → c.slots = 0 →
       alFind s.sch.classes t.cls.toNat = some k → k.ivec = some ivec →
       let u := applyAll c
       exec (.interruptEntry n) s = .next (State.drawN 2 (putVc n { u with
         ipc := u.pc, imode := u.threeBus, iie := u.ie, ie := 0, threeBus := false, handler := true,
         ipend := u.ipend &&& ~~~takenBit s (u.ipend &&& u.ie), pc := (ivec >>> 4).setWidth 12 } s))) ∧
     (c.ipend &&& c.ie = 0 ∨ c.handler = true ∨ c.delay ≠ 0 ∨ c.slots ≠ 0 → exec (.interruptEntry n) s = .next s)) ∧
  (∀ (n : CoreNo) (s : State), let c := getVc s n
     c.ended = none → (∀ p ∈ c.posts, tied c p = false) → c.la = false → c.threeBus = false → c.stores = [] → c.rtiMode = none → c.jump = false →
     let next := if c.delay = 1 then c.target.getD (c.pc + 1) else c.pc + 1
     endWord n s = putVc n { applyDue (c.word + 1) { c with
         pc := next, delay := c.delay - 1, target := if c.delay = 1 then none else c.target } with
       word := c.word + 1, slots := 0, dests := [], posts := [], stores := [], jump := false } s)
/-! ### Host commands (chapter 07) -/

/-- What a command is refused with, in the order of the checks: its length and arguments with BAD_OPCODE, BAD_LENGTH or
BAD_PARAM, the key with KEY_REQUIRED, the module state with BAD_STATE (R155, R158, R182, R183, R191). The response carries no
words, and nothing changes but the host port. FULL refuses the issue itself with REJECT (R179). Every command row is the
issue of its opcode. -/
def Obligations.CommandRefusals : Prop :=
  (∀ (op tag : Word) (args : List Word) (s : State), CommandReady s →
    let w := started op tag args s
    let refused := fun (st : Word) => exec (.unknownOpcode op tag args) s = .next (answered op tag st [] w)
    (1024 < args.length → refused stBadLength) ∧
    (args.length ≤ 1024 →
      (op ∉ opcodes → refused stBadOpcode) ∧
      (∀ st, checkCommand op args w = some st → refused st) ∧
      (checkCommand op args w = none → keyNeeded op args = true → keyed s = false → refused stKeyRequired) ∧
      (checkCommand op args w = none → (keyNeeded op args = true → keyed s = true) → stateRefuses op s = true →
        refused stBadState))) ∧
  (∀ (op tag : Word) (args : List Word) (s : State), hostUp s = true → s.host.staged = [] → cmdFull s = true →
    exec (.unknownOpcode op tag args) s = .next (s.setHost { s.host with
      cmdOp := op, cmdTag := tag, cmdLen := BitVec.ofNat 11 (min 2047 args.length), staged := args.take 1024, key := .idle,
      reject := true })) ∧
  (∀ r ∈ commandRows,
    ∀ (tag : Word) (args : List Word) (s : State), exec (r.1 tag args) s = exec (.unknownOpcode r.2 tag args) s)

/-- IDENTIFY, GET_STATUS and GET_VERSIONS answer with their words, RESET with OK before its reset, and SET_STATE moves
between READY, RUN or DEGRADED, and STANDBY (Table 07-4, R130, R145). -/
def Obligations.IdentityAndStateCommands : Prop :=
  ∀ (tag : Word) (s : State), CommandReady s → s.mode ≠ .reset →
    let ok := fun (op : Word) (ws : List Word) => (.next (answered op tag stOk ws (started op tag [] s)) : Answer)
    let set := fun (v : Word) => exec (.setState tag [v]) s
    let at' := fun (v : Word) => started 0x0103 tag [v] s
    exec (.identify tag []) s = ok 0x0101 ([hid1 s, hrev s] ++ words4 s.hw.uid ++ [roleStat s, s.ism.addr.getD 0, hpvNow s]) ∧
    exec (.getStatus tag []) s = ok 0x0102 (
      [hstat s, BitVec.ofNat 16 s.led.chans.length] ++ words2 (BitVec.ofNat 32 (luAdmitted s)) ++
      [BitVec.ofNat 16 (tuAdmitted s), pwrLimit s] ++ words2 (BitVec.ofNat 32 (luCeil s)) ++
      [BitVec.ofNat 16 (tuCeil s), BitVec.ofNat 16 (coresDrained s), BitVec.ofNat 16 (coresWithdrawn s), s.therm.temp]) ∧
    exec (.getVersions tag []) s = ok 0x0105 (versionWords s) ∧
    exec (.resetCmd tag []) s = .next (answered 0x0104 tag stOk [] (resetSoon (started 0x0104 tag [] s))) ∧
    (proofRuns s = false →
      (s.mode = .ready → (s.host.strict && s.boot.unqual) = false →
        set 5 = .next (answered 0x0103 tag stOk [] (setMode (if wdrn s then .degraded else .run) (at' 5)))) ∧
      (s.mode = .ready → s.host.strict = true → s.boot.unqual = true →
        set 5 = .next (answered 0x0103 tag stSafetyLock [] (at' 5))) ∧
      (s.mode ∈ [Mode.run, .degraded] → s.led.chans = [] →
        set 4 = .next (answered 0x0103 tag stOk [] (setMode .ready (at' 4)))) ∧
      (s.mode ∈ [Mode.run, .degraded] → s.led.chans ≠ [] → set 4 = .next (answered 0x0103 tag stBadState [] (at' 4))) ∧
      (s.mode = .ready → set 9 = .next (answered 0x0103 tag stOk [] (enterStandby (at' 9)))) ∧
      (s.mode = .standby → poeStandby s = true → set 4 = .next (answered 0x0103 tag stPowerLimit [] (at' 4))) ∧
      (s.mode = .standby → poeStandby s = false →
        set 4 = .next (answered 0x0103 tag stOk [] (((at' 4).setBoot { s.boot with mode := .boot, bistDone := false })))))

/-- The image commands on the module itself (SCOPE 0): IMG_BEGIN erases the bank that does not run and opens a session;
IMG_DATA appends at the count; IMG_COMMIT closes the session and stores the bank's result; IMG_SELECT prefers a GOOD bank at
the next reset, and in mode 1 resets after its response (R135-R138). COMMAND_COMPLETE ends the erase and the check. -/
def Obligations.ImageCommands : Prop :=
  ∀ (tag : Word) (s : State), CommandReady s → s.mode ∉ [Mode.reset, .boot, .standby] →
    let b := otherBank s
    let done := fun (op : Word) (st : Word) (w : State) => (.next
      (answered op tag st (if st = stOk then [stOk, 0, 0, 0] else []) w) : Answer)
    (s.boot.session = none → s.pwr.pwrfail = false →
      ∃ u, exec (.imgBegin tag [0]) s = .next u ∧ u.boot.session = some ⟨b, 0⟩ ∧ bankOf u b = Bank.blank ∧
        bankOf u (!b) = bankOf s (!b) ∧ resOf u b = .empty ∧ resOf u (!b) = resOf s (!b) ∧
        (∀ a, s.boot.active = some a → u.boot.pref = a) ∧ u.host.responses = s.host.responses ∧
        exec (.commandComplete 1) u = done 0x0201 stOk u) ∧
    (∀ (x : Session) (n : Nat) (l : List Word), s.boot.session = some x → s.pwr.pwrfail = false → 1 ≤ n → n ≤ 2040 →
      l.length = (n + 1) / 2 → x.count + n ≤ bankMax →
      let a := [0, BitVec.ofNat 16 x.count, BitVec.ofNat 16 (x.count / 65536), BitVec.ofNat 16 n] ++ l
      let w := putBank x.bankB { erased := false, bytes := (bankOf s x.bankB).bytes ++ wordBytes l n } (started 0x0202 tag a s)
      exec (.imgData tag a) s = done 0x0202 stOk (w.setBoot { w.boot with session := some { x with count := x.count + n } })) ∧
    (∀ x, s.boot.session = some x → s.pwr.pwrfail = false →
      let u := (started 0x0203 tag [0] s).setBoot { s.boot with session := none }
      exec (.imgCommit tag [0]) s = .next u ∧
      exec (.commandComplete 1) u = done 0x0203 (commitStatus (checkBank s b)) (putRes b (checkBank s b) u)) ∧
    (∀ k : Bool, keyed s = true →
      let v : Word := if k then 1 else 0
      let w := fun (m : Word) => started 0x0204 tag [0, v, m] s
      (isGood s k = true →
        exec (.imgSelect tag [0, v, 0]) s = done 0x0204 stOk (selectBank k (w 0)) ∧
        exec (.imgSelect tag [0, v, 1]) s = done 0x0204 stOk (resetSoon (selectBank k (w 1)))) ∧
      (isGood s k = false → exec (.imgSelect tag [0, v, 0]) s = done 0x0204 stBadParam (w 0)))

/-- CH_CREATE admits a channel with the profile of its words and answers its phase and its load; CH_MODIFY keeps the
channel's profile, holds the new one for the channel's tick and answers with the new load (R30, R189, R190). CH_DELETE
removes a channel at once where no task of it is in service; where one is, the command stays in its lane unanswered.
CH_QUERY and CH_STATS answer the channel's words, the counters cleared where CLEAR asks for it. CH_KEYS puts the keys of
its direction in place, and the channel is in service once it has both (R195, R247, R342, R362-R364). -/
def Obligations.Channels : Prop :=
  (∀ (tag : Word) (args : List Word) (s : State) (e : BitVec 1), CommandReady s → args.length = 23 →
     let c := argChan args
     let p := profileOf args
     profileOk args p = true → c.toNat < channelLimit s → profileFits s c p = true → s.led.shedding = none →
     (s.mode ∈ [Mode.run, .degraded] → findChan s c = none → workRefusesCreate s p.hwy = none → graphsFit s p = true →
       s.sch.entries.length < almanacSize →
       fitLoad s c (luCost p) (tuCost s p) none = .ok e →
       ∃ u x, exec (.chCreate tag args) s = .next u ∧ u.led.chans = s.led.chans ++ [x] ∧ x.no = c ∧ x.prof = p ∧
         x.phase = BitVec.ofNat 6 (choosePhase s) ∧ x.lu = luCost p ∧ x.tu = tuCost s p ∧ x.te = e ∧ x.safe = none ∧
         x.inService = !p.srtp ∧
         u.host.responses = s.host.responses ++ [⟨stOk, tag, [x.phase.setWidth 16, BitVec.ofNat 16 x.lu, BitVec.ofNat 16 x.tu]⟩]) ∧
     (∀ x, s.mode ∈ [Mode.ready, .run, .degraded] → findChan s c = some x → x.safe = none → fixedPart p = fixedPart x.prof →
       fitLoad s c (luCost p) (tuCost s p) (if tuCost s p = x.tu then some x.te else none) = .ok e →
       let y := { x with nextProf := some p, lu := luCost p, tu := tuCost s p, te := e,
                         neuralZero := x.neuralZero || decide (e ≠ x.te) }
       exec (.chModify tag args) s = .next (answered 0x0302 tag stOk [x.phase.setWidth 16, BitVec.ofNat 16 y.lu, BitVec.ofNat 16 y.tu]
         (pointsChanged (putChan y (started 0x0302 tag args s)))))) ∧
  (∀ (tag : Word) (s : State) (c : ChanNo) (x : Chan), CommandReady s → findChan s c = some x → c.toNat < channelLimit s →
     s.mode ∈ [Mode.ready, .run, .degraded] →
     let n : Word := c.setWidth 16
     (chanInService s c = false →
       ∃ u, exec (.chDelete tag [n]) s = .next u ∧ u = answered 0x0303 tag stOk [] (removeChan c (started 0x0303 tag [n] s)) ∧
         findChan u c = none) ∧
     (chanInService s c = true → exec (.chDelete tag [n]) s = .next (started 0x0303 tag [n] s)) ∧
     exec (.chQuery tag [n]) s = .next (answered 0x0304 tag stOk ([chanState x, x.phase.setWidth 16] ++ profileWords x.no x.prof)
       (started 0x0304 tag [n] s)) ∧
     exec (.chStats tag [n, 0]) s = .next (answered 0x0305 tag stOk (statsWords x) (started 0x0305 tag [n, 0] s)) ∧
     exec (.chStats tag [n, 1]) s = .next (answered 0x0305 tag stOk (statsWords x)
       (putChan { x with rx := 0, tx := 0, lost := 0, late := 0, discards := 0, authFail := 0 } (started 0x0305 tag [n, 1] s))) ∧
     (∀ (k salt : List Word) (lo hi : Word), x.prof.srtp = true → x.safe = none → k.length = 8 → salt.length = 7 →
       let ctx := newCtx k salt (hi ++ lo)
       let a := fun (d : Word) => [n, d] ++ k ++ salt ++ [lo, hi]
       (x.rxCtx = none → x.txCtx = none →
         exec (.chKeys tag (a 0)) s = .next (answered 0x0306 tag stOk []
           (putChan { x with rxOld := none, rxCtx := some ctx } (started 0x0306 tag (a 0) s))) ∧
         exec (.chKeys tag (a 1)) s = .next (answered 0x0306 tag stOk []
           (putChan { x with txCtx := some ctx } (started 0x0306 tag (a 1) s)))) ∧
       (∀ r, x.rxCtx = some r → x.txCtx = none → x.keysLate = false → s.clk.cryptoLost = false →
         exec (.chKeys tag (a 1)) s = .next (answered 0x0306 tag stOk []
           (putChan { x with txCtx := some ctx, inService := true } (started 0x0306 tag (a 1) s)))) ∧
       (∀ r, x.txCtx = some r → x.rxCtx = none → x.keysLate = false → s.clk.cryptoLost = false →
         exec (.chKeys tag (a 0)) s = .next (answered 0x0306 tag stOk []
           (putChan { x with rxOld := none, rxCtx := some ctx, inService := true } (started 0x0306 tag (a 0) s))))))

/-- The configuration commands of ports, VLANs, classes, highways and serial ports put their words in force: PORT_CFG where no
channel is bound to the port's interface; HWY_CFG and SLOT_MAP wait for the frame boundary (R343, R347, R348, R366,
R367, R414). Removing a VLAN that does not exist answers OK and leaves the table as it was: the model's choice (log
entry 100). -/
def Obligations.NetworkConfiguration : Prop :=
  ∀ (tag : Word) (s : State), CommandReady s → s.mode ∈ [Mode.ready, .run, .degraded, .held, .safe] →
    let ok := fun (op : Word) (a : List Word) (f : State → State) =>
      (.next (answered op tag stOk [] (f (started op tag a s))) : Answer)
    (∀ (p : PortNo) (mode : BitVec 3) (flags plen : Word) (ip : List Word) (vlan : BitVec 12), flags.toNat ≤ 1 → ip.length = 8 →
      let a := [p.setWidth 16, mode.setWidth 16, flags] ++ ip ++ [plen, vlan.setWidth 16]
      modeAllowed p (mode.setWidth 16) = true → ifaceOk (argIp a 3) plen.toNat = true → vlan.toNat ≤ 4094 →
      ifaceClash s p (argIp a 3) vlan = false → TablesSized s →
      (hasIf (getPort s p) = true → s.led.chans.any (fun c => c.port = p) = false) →
      ∃ u, exec (.portCfg tag a) s = .next (answered 0x0401 tag stOk [] u) ∧ (getPort u p).mode = mode ∧
        (getPort u p).ptpTs = flags.getLsbD 0 ∧ (getPort u p).addr = argIp a 3 ∧ (getPort u p).plen = plen.setWidth 8 ∧
        (getPort u p).vlan = vlan) ∧
    (∀ (vid : BitVec 12) (m t : BitVec 5), 1 ≤ vid.toNat → vid.toNat ≤ 4094 →
      let others := s.sw.vlans.filter (fun v => v.vid ≠ vid)
      let a := fun (d : Word) => [vid.setWidth 16, m.setWidth 16, t.setWidth 16, d]
      (others.length < 4094 → exec (.vlanCfg tag (a 0)) s = ok 0x0402 (a 0) (fun w =>
        w.setSw { s.sw with vlans := others ++ [⟨vid, m, t &&& m⟩] })) ∧
      exec (.vlanCfg tag (a 1)) s = ok 0x0402 (a 1) (fun w => w.setSw { s.sw with vlans := others })) ∧
    (∀ (k : BitVec 3) (rr : Bool) (weight pcps : Byte), weight ≠ 0 →
      let a := [k.setWidth 16, if rr then 1 else 0, weight.setWidth 16, 0, pcps.setWidth 16]
      exec (.classCfg tag a) s = ok 0x0403 a (fun w => w.setSw { s.sw with
        classes := setAt s.sw.classes k.toNat ⟨rr, weight, false⟩,
        pcpClass := (List.range 8).map (fun i => if pcps.getLsbD i then k else s.sw.pcpClass.getD i 0) })) ∧
    (∀ (n : HwyNo) (flags : BitVec 3) (idle : Byte) (off : BitVec 11), s.led.chans.any (fun c => c.prof.hwy = n) = false →
      let a := [n.setWidth 16, flags.setWidth 16, idle.setWidth 16, off.setWidth 16]
      exec (.hwyCfg tag a) s = ok 0x0501 a (putHwy n { getHwy s n with
        nextCfg := some ⟨flags.getLsbD 0, flags.getLsbD 1, flags.getLsbD 2, idle, off⟩ })) ∧
    (∀ (n : HwyNo) (f c : Nat), 1 ≤ c → f + c ≤ 256 →
      let a := [n.setWidth 16, BitVec.ofNat 16 f, BitVec.ofNat 16 c, 1]
      exec (.slotMap tag a) s = ok 0x0502 a (putHwy n { getHwy s n with
        nextOwn := some (ownedSlots (getHwy s n) ||| slotMask f c) })) ∧
    (∀ (n : BitVec 3) (div fmt w3 ck : Word) (en : Bool), div ≠ 0 → formatOk n.toNat fmt w3 ck = true →
      let a := [n.setWidth 16, div, fmt, w3, ck, if en then 1 else 0]
      exec (.uartCfg tag a) s = ok 0x0B01 a (putUart n.toNat (configure a (getUart s n.toNat))))

/-- PTP_CFG, SERVO_CFG, PROBE_CFG and PROBE_READ (R384, R391, R396, R397). The gains and the step threshold that SERVO_CFG
gives wait for the next offset (R385). -/
def Obligations.TimeConfiguration : Prop :=
  ∀ (tag : Word) (s : State), CommandReady s → s.mode ∈ [Mode.ready, .run, .degraded, .held, .safe] →
    let ok := fun (op : Word) (a : List Word) (f : State → State) =>
      (.next (answered op tag stOk [] (f (started op tag a s))) : Answer)
    (∀ (p : PortNo) (role trans : BitVec 2) (two : Bool) (dom : BitVec 7) (ls prio : Word), trans ≠ 3 →
      -4 ≤ ls.toInt → ls.toInt ≤ 1 → s.cal.waiting = [] →
      (role = 1 → ∀ q : PortNo, q ≠ p → (getPtp s q).role ≠ 1) →
      let a := [p.setWidth 16, role.setWidth 16, 0, trans.setWidth 16, if two then 1 else 0, dom.setWidth 16, ls, prio]
      let x := { getPtp s p with role := role, profile := false, transport := trans, twoStep := two, domain := dom.setWidth 8,
                                 logSync := ls.toInt, prio1 := (prio >>> 8).setWidth 8, prio2 := prio.setWidth 8 }
      exec (.ptpCfg tag a) s = ok 0x0601 a (putPtp p (if (getPtp s p).role = role then x else
        { x with syncT := none, syncWait := none, reqT := none, pathDelay := none, upstream := 248 }))) ∧
    (∀ (kp ki : Word) (thr : W32) (fl : BitVec 3), (16 ≤ thr.toNat → thr.toNat ≤ 500000000) → (thr = 0 ∨ 16 ≤ thr.toNat) →
      (s.tim.src = 2 → isSummit s = false) →
      let a := [s.tim.src.setWidth 16, kp, ki, thr.setWidth 16, (thr >>> 16).setWidth 16, fl.setWidth 16,
        s.clk.refSel.setWidth 16, 0, 0]
      s.tim.src.toNat ≤ 4 → s.clk.refSel ≠ 3 →
      exec (.servoCfg tag a) s = ok 0x0602 a (fun w => w.setTim { s.tim with
        nextKp := kp, nextKi := ki, nextStepThr := if thr = 0 then 1000 else thr.toNat, nextNoStep := fl.getLsbD 0,
        refout := fl.getLsbD 1, ppsOut := fl.getLsbD 2 })) ∧
    (∀ (k start stop : Byte) (en : Bool), probeCode (start.setWidth 16) = true → probeCode (stop.setWidth 16) = true →
      let a := [k.setWidth 16, start.setWidth 16, stop.setWidth 16, if en then 1 else 0]
      exec (.probeCfg tag a) s = ok 0x0603 a (putProbe k.toNat
        ⟨start, stop, en, none, 0, false, false, false, 0, 0⟩) ∧
      exec (.probeRead tag [k.setWidth 16, 1, 0]) s = .next (answered 0x0604 tag stOk (probeWords (getProbe s k.toNat))
        (started 0x0604 tag [k.setWidth 16, 1, 0] s)))

/-- SEARCH begins a walk on the summit, ASSIGN gives a listed module its address and the address to its children as their
parent's, TOPO_READ gives the entries. A FORWARD of GET_VERSIONS to the module itself carries its response; a FORWARD to a
listed module goes out by its route and stays in its lane, and one to an address that no entry has is UNREACHABLE (R194,
R441, R449, R450, Table 07-6). On a spur SEARCH, ASSIGN, TOPO_READ and FORWARD answer BAD_STATE. -/
def Obligations.TopologyCommands : Prop :=
  ∀ (tag : Word) (s : State), CommandReady s → s.mode ∈ [Mode.ready, .run, .degraded, .held, .safe] →
    (∀ full : Bool, let a : List Word := [if full then 1 else 0]
      (isSummit s = true → s.ism.walk = none →
        ∃ u, exec (.search tag a) s = .next (answered 0x0701 tag stAccepted [] u) ∧
          u = startSearch tag .host full (started 0x0701 tag a s)) ∧
      (isSummit s = true → s.ism.walk.isSome = true →
        exec (.search tag a) s = .next (answered 0x0701 tag stBusy [] (started 0x0701 tag a s))) ∧
      (isSummit s = false → exec (.search tag a) s = .next (answered 0x0701 tag stBadState [] (started 0x0701 tag a s)))) ∧
    (∀ (u : Uid) (new : Word) (e : TopoEntry), new ≠ 0 → isSummit s = true → s.ism.walk = none → trainedDn s = [] →
      topoByUid s u = some e → s.ism.table.any (fun x => x.addr = new && x.uid ≠ u) = false →
      let a := words4 u ++ [new]
      exec (.assign tag a) s = .next (answered 0x0702 tag stOk [] ((started 0x0702 tag a s).setIsm { s.ism with
        table := s.ism.table.map (fun x => { x with
          addr := if x.uid = u then new else x.addr, parent := if x.parent = e.addr && e.addr ≠ 0 then new else x.parent }) }))) ∧
    (∀ first count : Word, isSummit s = true → 1 ≤ count.toNat → count.toNat ≤ 113 →
      exec (.topoRead tag [first, count]) s = .next (answered 0x0704 tag stOk
        (words2 (BitVec.ofNat 32 s.ism.table.length) ++ ((s.ism.table.drop first.toNat).take count.toNat).flatMap topoWords)
        (started 0x0704 tag [first, count] s))) ∧
    (isSummit s = true →
      ∃ u, exec (.forward tag [0, 0x0105]) s = .next u ∧
        u.host.responses = s.host.responses ++ [⟨stOk, tag, [stOk, 8] ++ versionWords s⟩]) ∧
    (∀ (dest op : Word) (l : List Word), isSummit s = true → dest ≠ 0 → op ≠ 0x0703 → l.length ≤ 1022 →
      (plainKey op l = true → keyed s = true) →
      let a := [dest, op] ++ l
      ((topoByAddr s dest).isSome = true → exec (.forward tag a) s =
        .next (sendForward ⟨0x0703, tag, a, keyed s, .host⟩ (started 0x0703 tag a s))) ∧
      (topoByAddr s dest = none → exec (.forward tag a) s =
        .next (answered 0x0703 tag stUnreachable [] (started 0x0703 tag a s)))) ∧
    (isSummit s = false →
      (∀ (u : Uid) (new : Word), new ≠ 0 → exec (.assign tag (words4 u ++ [new])) s =
        .next (answered 0x0702 tag stBadState [] (started 0x0702 tag (words4 u ++ [new]) s))) ∧
      exec (.forward tag [0, 0x0105]) s = .next (answered 0x0703 tag stBadState [] (started 0x0703 tag [0, 0x0105] s)) ∧
      exec (.topoRead tag [0, 1]) s = .next (answered 0x0704 tag stBadState [] (started 0x0704 tag [0, 1] s)))

/-- SAFE_CFG sets the policies and the storm limit in READY and is SAFETY_LOCK elsewhere; SAFE_QUERY gives the state of the
module, a group or a channel; PROOF_TEST with no channel is accepted, and CAL_DONE ends it (R485, R486, R495, R496). -/
def Obligations.SafetyCommands : Prop :=
  ∀ (tag : Word) (s : State), CommandReady s → s.mode ∈ [Mode.ready, .run, .degraded, .held, .safe] →
    let cfg := fun (a : List Word) (f : State → State) =>
      exec (.safeCfg tag a) s = .next (answered 0x0801 tag stOk [] (f (started 0x0801 tag a s)))
    let query := fun (a ws : List Word) =>
      exec (.safeQuery tag a) s = .next (answered 0x0802 tag stOk ws (started 0x0802 tag a s))
    (s.mode = .ready →
      (∀ (g : BitVec 10) (on : Bool), cfg [1, g.setWidth 16, if on then 1 else 0, 0] (fun w => w.setSaf { s.saf with
        groupPolicy := s.saf.groupPolicy.filter (fun x => x ≠ g) ++ (if on then [g] else []) })) ∧
      (∀ n : Word, 2 ≤ n.toNat → n.toNat ≤ 64 → cfg [2, n, 0, 0] (fun w => w.setSaf { s.saf with stormLimit := n.toNat })) ∧
      (∀ v : BitVec 2, v ≠ 3 → cfg [3, v.setWidth 16, 0, 0] (fun w => w.setSaf { s.saf with summitPolicy := v }))) ∧
    (s.mode ≠ .ready → exec (.safeCfg tag [2, 8, 0, 0]) s =
      .next (answered 0x0801 tag stSafetyLock [] (started 0x0801 tag [2, 8, 0, 0] s))) ∧
    query [0, 0] ([if s.saf.safe then 1 else 0, if s.saf.safe then s.saf.cause.setWidth 16 else 0,
      if s.saf.safe then (causeClass s.saf.cause).setWidth 16 else 0] ++
      words2 s.saf.tagFail ++ words2 s.saf.liveFail ++ words2 s.saf.benign) ∧
    (∀ g : BitVec 10, query [1, g.setWidth 16] (safeWords (alFind s.saf.groupSafe g) (alGet s.saf.groupTag g 0)
      (alGet s.saf.groupLive g 0) (alGet s.saf.groupBenign g 0))) ∧
    (∀ x, findChan s x.no = some x → x.no.toNat < channelLimit s →
      query [2, x.no.setWidth 16] (safeWords x.safe x.tagFail x.liveFail x.benign)) ∧
    (s.mode ∈ [Mode.ready, .run] → proofRuns s = false → testBit s = false → s.saf.safe = false → s.led.chans = [] →
      s.cmds.works = [] →
      let w := newWork ⟨0x0803, tag, [0], keyed s, .host⟩ 0 0
      let u := answered 0x0803 tag stAccepted [] (addWork w (started 0x0803 tag [0] s))
      exec (.proofTest tag [0]) s = .next u ∧
      exec (.calDone .proof 0 []) u = .next (calDoneEvent w stOk 7 0 ((u.setPins { s.pins with proofStep6 := false }).setCmds
        { u.cmds with works := [] })))

/-- CAL_RUN sets an overlay item at once where the item is not in use, and at the item's quiet point where it is; of a
measured item it starts the measurement, which releases a highway's driver or holds PWR_LIMIT. CAL_READ gives factory
value, offset and their sum; CAL_RESTORE_FACTORY deletes the overlay; SELFTEST is accepted with its units to test. CAL_DONE
ends the CAL_RUN of an offset in force, and with a failing block the module enters SAFE with cause 0x20 (R198, R498, R501,
R504, R506, R508, R510, R512). -/
def Obligations.CalibrationCommands : Prop :=
  ∀ (tag : Word) (s : State), CommandReady s → s.mode ∈ [Mode.ready, .run, .degraded, .held, .safe] →
    (∀ (item : Word) (v : W32) (lo hi : Int), calItem item = some (.overlay, lo, hi) → lo ≤ v.toInt → v.toInt ≤ hi →
      s.pwr.pwrfail = false → s.cmds.works = [] → s.cal.waiting = [] →
      let a := [item, 0, 2, v.setWidth 16, (v >>> 16).setWidth 16]
      (calInUse s item = false →
        ∃ u, exec (.calRun tag a) s = .next u ∧ u.cal.overlay = alSet s.cal.overlay item v.toInt ∧ u.cal.overlayOk = true ∧
          u.cal.offsets = alSet s.cal.offsets item v.toInt ∧ u.cal.waiting = [] ∧
          u.host.responses = s.host.responses ++ [⟨stAccepted, tag, []⟩] ∧
          ∃ t, exec (.calDone .cal 0 []) u = .next t ∧ t.cmds.works = []) ∧
      (calInUse s item = true →
        ∃ u, exec (.calRun tag a) s = .next u ∧ u.cal.overlay = alSet s.cal.overlay item v.toInt ∧
          u.cal.offsets = s.cal.offsets ∧ u.cal.waiting = [(item, v.toInt)] ∧
          ∃ t, exec (.quietPoint item) u = .next t ∧ t.cal.offsets = alSet s.cal.offsets item v.toInt ∧ t.cal.waiting = [])) ∧
    (∀ n : HwyNo, calBusy s = false → s.led.chans.any (fun c => c.prof.hwy = n) = false →
      let a : List Word := [0x0500 + n.setWidth 16, 0, 0]
      let x := getHwy s n
      exec (.calRun tag a) s = .next (answered 0x0901 tag stAccepted []
        (addWork (newWork ⟨0x0901, tag, a, keyed s, .host⟩ (0x0500 + n.toNat) (if x.aligned then 1 else 0))
          (putHwy n { x with trimRun := x.trimRun || x.aligned, aligned := false, goodPulses := 0, line := [] }
            (started 0x0901 tag a s))))) ∧
    (∀ item ∈ [(0x0600 : Word), 0x0601, 0x0602], calBusy s = false → s.led.chans = [] →
      (calItem item).map Prod.fst = some .measured →
      let a : List Word := [item, 0, 0]
      exec (.calRun tag a) s = .next (answered 0x0901 tag stAccepted []
        (addWork (newWork ⟨0x0901, tag, a, keyed s, .host⟩ item.toNat 1)
          ((started 0x0901 tag a s).setPwr { s.pwr with held := some (effCeil s) })))) ∧
    (∀ (item : Word) (k : ItemKind) (lo hi : Int), calItem item = some (k, lo, hi) →
      exec (.calRead tag [item]) s = .next (answered 0x0903 tag stOk
        (i32 (alGet s.hw.factory item 0) ++ i32 (alGet s.cal.offsets item 0) ++
         i32 (alGet s.hw.factory item 0 + alGet s.cal.offsets item 0) ++ i32 hi) (started 0x0903 tag [item] s))) ∧
    (s.cmds.works = [] → s.pwr.pwrfail = false →
      ∃ u, exec (.calRestoreFactory tag []) s = .next u ∧ u.cal.overlay = [] ∧ u.cal.overlayOk = false ∧
        u.host.responses = s.host.responses ++ [⟨stAccepted, tag, []⟩]) ∧
    (∀ n : Word, 16 ≤ n.toNat → n.toNat ≤ 1024 → findWork s 0x0904 (some 3) = none →
      let a := [3, 0, n, 0]
      exec (.selftest tag a) s = .next (answered 0x0904 tag stAccepted []
        (addWork (newWork ⟨0x0904, tag, a, keyed s, .host⟩ 3 n.toNat)
          ((started 0x0904 tag a s).setQm { s.qm with marched := [] })))) ∧
    (∀ n : CoreNo, n.toNat < coreCount s → (getCore s n).withdrawn = false → (getCore s n).drained = false →
      findWork s 0x0904 (some 1) = none →
      let a := [1, 0, n.setWidth 16, 0]
      exec (.selftest tag a) s = .next (answered 0x0904 tag stAccepted []
        (addWork { newWork ⟨0x0904, tag, a, keyed s, .host⟩ 1 n.toNat with todo := [n.toNat] }
          (requestDrain n (started 0x0904 tag a s))))) ∧
    (∀ e : BitVec 1, engineUp s e = true → findWork s 0x0904 (some 2) = none →
      let a := [2, 0, e.setWidth 16, 0]
      exec (.selftest tag a) s = .next (answered 0x0904 tag stAccepted []
        (addWork { newWork ⟨0x0904, tag, a, keyed s, .host⟩ 2 e.toNat with todo := [e.toNat] } (started 0x0904 tag a s)))) ∧
    (s.led.chans = [] → s.cmds.works = [] → s.mode ≠ .safe → s.saf.safe = false →
      let a : List Word := [4, 0, 0, 0]
      let w := { newWork ⟨0x0904, tag, a, keyed s, .host⟩ 4 0 with todo := List.range 8 }
      let u := answered 0x0904 tag stAccepted [] (addWork w (started 0x0904 tag a s))
      exec (.selftest tag a) s = .next u ∧
      ∀ b, b < 8 → ∃ t, exec (.calDone (.selftest 4) 0 [b]) u = .next t ∧ SafeEntered 0x20 u t ∧ t.cmds.works = [])

/-- FI_ARM arms a point that is not armed, under the key, and raises FI_ARMED; of one that is armed it is BUSY. FI_DISARM
disarms a point that holds nothing, with FI_ARMED where it was the last, and with 0xFFFF every point; FI_READ gives its
state and counters (R516, R521, R522). -/
def Obligations.InjectionCommands : Prop :=
  ∀ (tag : Word) (s : State) (p : Word), CommandReady s → s.mode ∈ [Mode.ready, .run, .degraded, .held, .safe] →
    pointKnown p = true →
    (∀ (mode param : Word) (pat : Bool) (rate : W32), keyed s = true → mode.toNat ≤ 2 → paramOk mode param = true →
      proofRuns s = false → fiPoint s p = none →
      let a := [p, mode, if pat then 1 else 0, rate.setWidth 16, (rate >>> 16).setWidth 16, param]
      exec (.fiArm tag a) s = .next (answered 0x0A01 tag stOk [] (raiseFiArmed true (putFi p
        ⟨true, mode.setWidth 2, pat, rate, param, 0, 0, 0, []⟩ (started 0x0A01 tag a s))))) ∧
    (∀ x, fiPoint s p = some x → keyed s = true → proofRuns s = false →
      let a := [p, 0, 0, 0, 0, 0]
      exec (.fiArm tag a) s = .next (answered 0x0A01 tag stBusy [] (started 0x0A01 tag a s))) ∧
    (∀ x, fiPoint s p = some x → x.held = [] →
      armedPoints (putFi p { x with armed := false, held := [] } s) ≠ 0 →
      exec (.fiDisarm tag [p]) s = .next (answered 0x0A02 tag stOk []
        (putFi p { x with armed := false, held := [] } (started 0x0A02 tag [p] s)))) ∧
    (∀ x, fiPoint s p = some x → x.held = [] →
      armedPoints (putFi p { x with armed := false, held := [] } s) = 0 →
      exec (.fiDisarm tag [p]) s = .next (answered 0x0A02 tag stOk []
        (raiseFiArmed false (putFi p { x with armed := false, held := [] } (started 0x0A02 tag [p] s))))) ∧
    exec (.fiDisarm tag [0xFFFF]) s = .next (answered 0x0A02 tag stOk [] (disarmAll (started 0x0A02 tag [0xFFFF] s))) ∧
    (let x := alGet s.fi.points p fiDefault
     exec (.fiRead tag [p]) s = .next (answered 0x0A03 tag stOk ([if x.armed then 1 else 0] ++ words2 x.triggers ++ words2 x.acted)
      (started 0x0A03 tag [p] s)))

/-- TASK_LOAD and MODEL_LOAD with LENGTH = 0 unload at once; an object outside the DRAM window is BAD_PARAM. A load whose checks pass goes on until COMMAND_COMPLETE, and is
then in place: the code in every core with its class entry, OVR = 0 and the class not stopped; the model in its slot (R222,
R289, R290, R313, R314). -/
def Obligations.TaskAndModelLoads : Prop :=
  ∀ (tag : Word) (s : State) (lo mid hi : Word) (len : W32) (k : Word), CommandReady s →
    s.mode ∈ [Mode.ready, .run, .degraded, .held, .safe] →
    let a := fun (n : W32) => [lo, mid, hi, n.setWidth 16, (n >>> 16).setWidth 16, k]
    (objectRange (a len) = false →
      exec (.taskLoad tag (a len)) s = .next (answered 0x0C01 tag stBadParam [] (started 0x0C01 tag (a len) s)) ∧
      exec (.modelLoad tag (a len)) s = .next (answered 0x0C02 tag stBadParam [] (started 0x0C02 tag (a len) s))) ∧
    (32 ≤ k.toNat → k.toNat ≤ 63 →
      (taskExists s k.toNat = false → objectRange (a 0) = true → exec (.taskLoad tag (a 0)) s =
        .next (answered 0x0C01 tag stOk [] (unloadTask k.toNat (started 0x0C01 tag (a 0) s)))) ∧
      (taskExists s k.toNat = true → objectRange (a 0) = true → exec (.taskLoad tag (a 0)) s =
        .next (answered 0x0C01 tag stBusy [] (started 0x0C01 tag (a 0) s))) ∧
      (∀ l, len ≠ 0 → objectBytes s (a len) = some l → taskObjectOk l = true →
        versionFits (le16 l 4) (runningInfo s).tav = true → taskExists s k.toNat = false →
        s.sch.classes.any (fun e => e.1 ≠ k.toNat && pmOverlap (taskClass l) e.2) = false →
        exec (.taskLoad tag (a len)) s = .next (started 0x0C01 tag (a len) s) ∧
        exec (.commandComplete 0) (started 0x0C01 tag (a len) s) =
          .next (answered 0x0C01 tag stOk [] (installTask k.toNat l (started 0x0C01 tag (a len) s))))) ∧
    (1 ≤ k.toNat → k.toNat ≤ 15 → slotBusy s k.toNat = false →
      (objectRange (a 0) = true → exec (.modelLoad tag (a 0)) s = .next (answered 0x0C02 tag stOk []
        ((started 0x0C02 tag (a 0) s).setTen { s.ten with slots := alErase s.ten.slots k.toNat }))) ∧
      (∀ l, len ≠ 0 → objectBytes s (a len) = some l → modelOk l = true →
        versionFits (le16 l 4) (runningInfo s).mfv = true →
        storeUsed (alErase s.ten.slots k.toNat) + modelSize l.length ≤ storeHigh - storeLow →
        exec (.modelLoad tag (a len)) s = .next (started 0x0C02 tag (a len) s) ∧
        exec (.commandComplete 0) (started 0x0C02 tag (a len) s) =
          .next (answered 0x0C02 tag stOk [] (installModel k.toNat l (started 0x0C02 tag (a len) s)))))

/-! ### The frame scheduler (chapter 08) -/

/-- The six requests of a port, each with its effect and its result in the port's STATUS: CREATE enters a task and gives its
handle, TOKEN delivers an operand once, ALMANAC inserts an entry, SET_LEVEL, RESERVE and CANCEL act on a flow (R200-R206,
R210, R214, R224, R225, R229, R230). The host and a core that runs a customer class are held to customer flows, in what
they name and in whose task a handle is. -/
def Obligations.SchedulerRequests : Prop :=
  ∀ (m : Master) (s : State) (flow : Word), hasReqPort s m = true →
    let mine := restricted s m = true → customerFlow flow = true
    let status := fun (t : State) => (getReq t m).status
    (∀ (cls : Byte) (req opt : BitVec 4) (seq : Word) (arg0 arg1 : W32), mine → (restricted s m = true → 32 ≤ cls.toNat) →
      cls.toNat ≤ 63 → classLoaded s cls.toNat = true → req &&& opt = 0 → traffic s = true → cls.toNat ∉ s.sch.stopped →
      (customerFlow flow = true → (reservation s flow).isSome = true) → (residents s).length < storeSlots →
      ∃ t x, exec (.create m flow cls req opt seq arg0 arg1) s = .next t ∧ x ∈ t.sch.tasks ∧ x.flow = flow ∧
        x.cls = cls.setWidth 6 ∧ x.req = req ∧ x.opt = opt ∧ x.seq = seq ∧ x.arg0 = arg0 ∧ x.arg1 = arg1 ∧
        x.arrived = (getFlow s flow).pend &&& (req ||| opt) ∧ x.createTime = now s ∧ status t = stOk ∧
        (getReq t m).out = taskHandle x) ∧
    (∀ (h : W32) (k : BitVec 2),
      (handleTask s h = none → ∃ t, exec (.token m h k) s = .next t ∧ t.sch.stray = satAdd s.sch.stray 1 ∧
        t.sch.tasks = s.sch.tasks ∧ status t = stOk) ∧
      (∀ x, handleTask s h = some x → declares x k.toNat = true → (restricted s m = true → customerFlow x.flow = true) →
        ∃ t, exec (.token m h k) s = .next t ∧ status t = stOk ∧
          (x.arrived.getLsbD k.toNat = true → t.sch.stray = satAdd s.sch.stray 1) ∧
          (x.arrived.getLsbD k.toNat = false → t.sch.stray = s.sch.stray ∧ ∃ y ∈ t.sch.tasks, y.id = x.id ∧ y.gen = x.gen ∧
            y.arrived = x.arrived ||| BitVec.ofNat 4 (2 ^ k.toNat) ∧ (x.st = .wait → allArrived y = true → y.st = .ready)))) ∧
    (∀ (list k : BitVec 2) (h : W32) (delay period : BitVec 20), delay ≠ 0 → traffic s = true →
      (restricted s m = true → list = 1 ∨ list = 2) →
      (restricted s m = true → ∀ x, handleTask s h = some x → customerFlow x.flow = true) →
      s.sch.entries.length < almanacSize →
      ∃ t e, exec (.almanac m list h k delay period) s = .next t ∧ t.sch.entries = s.sch.entries ++ [e] ∧ e.list = list ∧
        e.expiry = listNow s list.toNat + delay.toNat ∧ e.period = period.toNat ∧ e.handle = h ∧ e.slot = k ∧
        e.chan = none ∧ status t = stOk ∧ (getReq t m).out = BitVec.ofNat 32 e.no) ∧
    (∀ l : BitVec 3, mine → (restricted s m = true → 3 ≤ l.toNat) →
      ∃ t, exec (.setLevel m flow l) s = .next t ∧ (getFlow t flow).level = l ∧ status t = stOk ∧
        (∀ x ∈ t.sch.tasks, x.flow = flow → x.st = .ready → x.level = l)) ∧
    (∀ lu : BitVec 18, customerFlow flow = true → traffic s = true → s.led.shedding = none →
      luAdmitted s - (reservation s flow).getD 0 + lu.toNat ≤ luCeil s →
      ∃ t, exec (.reserve m flow lu) s = .next t ∧ status t = stOk ∧
        reservation t flow = (if lu = 0 then none else some lu.toNat)) ∧
    (mine → ∃ t, exec (.cancel m flow) s = .next t ∧ status t = stOk ∧
      (∀ x ∈ t.sch.tasks, x.flow = flow → x.st = .service)) ∧
    (restricted s m = true → customerFlow flow = false →
      ∃ t, exec (.cancel m flow) s = .next t ∧ t.sch.tasks = s.sch.tasks ∧ status t = stBadParam) ∧
    (∀ (list k : BitVec 2) (h : W32) (delay period : BitVec 20) (x : Task), restricted s m = true → handleTask s h = some x →
      customerFlow x.flow = false →
      ∃ t u, exec (.almanac m list h k delay period) s = .next t ∧ t.sch.entries = s.sch.entries ∧ status t = stBadParam ∧
        exec (.token m h k) s = .next u ∧ u.sch.tasks = s.sch.tasks ∧ status u = stBadParam)

/-- The almanac fires the earliest-due entry of an enabled list, and on the way what is due before it; a channel's frame
tick advances its frame number and its entry; a failed graph is tried again before its frame is played; SPILL_HI and
the lists take what their registers admit, and a list's entries and FIRED stay (R203, R214, R215, R217, R220, R228). -/
def Obligations.SchedulerEvents : Prop :=
  ∀ s : State,
    (∀ l : BitVec 2, dueEntry l s = none → exec (.almanacFire l) s = .next s) ∧
    (∀ (l : BitVec 2) (e : AEntry), dueEntry l s = some e →
      exec (.almanacFire l) s = .next (fireTo e.no (entryStep s e) (firings (entryStep s e) s) s)) ∧
    (∀ (l : BitVec 2) (e : AEntry) (x : Task), LanesIdle s → dueEntry l s = some e → nextDue s = some e → e.chan = none →
      handleTask s e.handle = some x →
      declares x e.slot.toNat = true → x.arrived.getLsbD e.slot.toNat = false →
      ∃ t, exec (.almanacFire l) s = .next t ∧ (getList t l.toNat).fired = satAdd (getList s l.toNat).fired 1 ∧
        (e.period = 0 → ∀ y ∈ t.sch.entries, y.no ≠ e.no) ∧
        (e.period ≠ 0 → ∃ y ∈ t.sch.entries, y.no = e.no ∧ y.expiry = e.expiry + e.period) ∧
        ∃ y ∈ t.sch.tasks, y.id = x.id ∧ y.arrived = x.arrived ||| BitVec.ofNat 4 (2 ^ e.slot.toNat)) ∧
    (∀ (l : BitVec 2) (e : AEntry), LanesIdle s → dueEntry l s = some e → nextDue s = some e → e.chan = none →
      handleTask s e.handle = none →
      ∃ t, exec (.almanacFire l) s = .next t ∧ t.sch.stray = satAdd s.sch.stray 1 ∧ ∀ y ∈ t.sch.entries, y.no ≠ e.no) ∧
    (∀ (c : ChanNo) (e : AEntry) (x : Chan), s.sch.entries.find? (fun e => e.chan = some c) = some e →
      nextDue s = some e → e.period ≠ 0 → findChan s c = some x → LanesIdle s → x.safe = none → s.saf.safe = false → (x.inService = true → x.upRecorded = true) →
      ∃ t y, exec (.frameTick c) s = .next t ∧ findChan t c = some y ∧ y.frameNo = x.frameNo + 1 ∧ y.played = false ∧
        ∃ f ∈ t.sch.entries, f.no = e.no ∧ f.expiry = e.expiry + e.period) ∧
    (∀ c : ChanNo, (∀ e ∈ s.sch.entries, e.chan ≠ some c) → exec (.frameTick c) s = .next s) ∧
    (∀ (c : ChanNo) (x : Chan), findChan s c = some x →
      (x.played = true → exec (.graphRetry c) s = .next s) ∧
      (x.played = false → x.safe = none → s.saf.safe = false → x.downBuilt = true → x.upBuilt = false →
        (freePlaces s < (upClasses x).length →
          exec (.graphRetry c) s = .next (s.setSch { s.sch with fullCount := satAdd s.sch.fullCount 1 })) ∧
        ((upClasses x).length ≤ freePlaces s →
          ∃ t y, exec (.graphRetry c) s = .next t ∧ findChan t c = some y ∧ y.upBuilt = true))) ∧
    (∀ v : W32, let n := v.toNat % 2 ^ 15
      (1024 ≤ n → n ≤ 16128 → s.sch.spillLo.toNat + 512 ≤ n →
        ∃ t, exec (.spillHiWrite v) s = .next t ∧ t.sch.spillHi = BitVec.ofNat 15 n ∧
          ((residents t).length ≤ n ∨ canSpill t = false)) ∧
      (n < 1024 ∨ 16128 < n ∨ n < s.sch.spillLo.toNat + 512 → exec (.spillHiWrite v) s = .next s)) ∧
    (∀ (l : BitVec 2) (v : W32),
      (l = 1 ∨ l = 2 → ∃ y, exec (.almanacListWrite l v) s = .next (putList l.toNat y s) ∧
        y.tick = (if 2 ≤ v.toNat % 256 ∧ v.toNat % 256 ≤ 200 then v.setWidth 8 else (getList s l.toNat).tick) ∧
        y.enable = v.getLsbD 8 ∧ y.fired = (getList s l.toNat).fired) ∧
      (l = 0 ∨ l = 3 → exec (.almanacListWrite l v) s = .next s))

/-- An idle executor takes the task of its choice and serves it; a task at its budget is aborted and counted; idle cores take
their operating points at the 5 ms boundary, to which time moves on; a withdrawn core keeps its point; a drained core returns to the pool after a good BIST and is withdrawn after a
failed one (R106-R108, R207, R221, R223). -/
def Obligations.ExecutorsAndPoints : Prop :=
  ∀ s : State,
    (∀ (x : Executor) (t : Task), executorIdle s x = true → chooseTask s x = some t →
      exec (.dispatch x) s = .next (match x with
        | .vc n => beginCore n t s
        | .te e => beginEngine e t s)) ∧
    (∀ (n : CoreNo) (t : Task), executorIdle s (.vc n) = true → chooseTask s (.vc n) = some t →
      serving (beginCore n t s) (.vc n) = some { t with st := .service, exec := some (.vc n) } ∧
      (getVc (beginCore n t s) n).pc = classEntry s t.cls.toNat) ∧
    (∀ x : Executor, executorIdle s x = false ∨ chooseTask s x = none → exec (.dispatch x) s = .next s) ∧
    (∀ (x : Executor) (t : Task), serving s x = some t →
      ∃ u, exec (.budgetExceeded x) s = .next u ∧ u.sch.overrun = satAdd s.sch.overrun 1 ∧ ∀ y ∈ u.sch.tasks, y.id ≠ t.id) ∧
    (let w := moveTo (nextEdge 5000000 s.tim) s
     ∃ u, exec .pointProcedure s = .next u ∧
      ∀ (k : Nat) (n : CoreNo), (participating w)[k]? = some n → (getCore w n).busy = none →
        (getCore u n).point = pointOf (participating w).length (pointTarget w) k) ∧
    (∀ n : CoreNo, let c := getCore s n
      (c.withdrawn = true → exec (.pointChange n) s = .next s) ∧
      (corePresent s n = true → c.busy = none → c.withdrawn = false → exec (.pointChange n) s = .next (putCore n { c with point := c.target } s)) ∧
      (c.draining = true → c.busy = none → exec (.coreBistStart n) s = .next (putCore n { c with draining := false } s)) ∧
      (c.drained = true → c.draining = false → s.cmds.works = [] →
        exec (.coreBistDone n true) s = .next (nextDrain (pointsChanged (putCore n { c with drained := false } s))) ∧
        (corePresent s n = true → ∃ u, exec (.coreBistDone n false) s = .next u ∧ (getCore u n).withdrawn = true)))

/-! ### Cell memory and queues (chapter 09) -/

/-- OPEN takes an enabled queue of the master's own for one producer and otherwise says why not; DATA stores a word while the
packet has room; CLOSE commits a good packet of `4·(words−1)+VALID` bytes, a VALID of 0 read as 4, with the producer's
tag, and rewinds a bad one, one of no word and one with a VALID of 5 to 7;
1 ms without a write closes a packet as bad (R234-R238, R241, R243, R244). -/
def Obligations.QueueProducers : Prop :=
  ∀ (m : Master) (s : State), hasQueuePort s m = true →
    let p := getProd s m
    (∀ q : QueueNo, p.q = none →
      let p := { p with notOpen := false }
      (mayUse s m q = false → exec (.openPkt m q) s = .next (putProd m { p with status := stBadParam } s)) ∧
      (mayUse s m q = true → (getQ s q).enable = false →
        exec (.openPkt m q) s = .next (putProd m { p with status := stBadState } s)) ∧
      (mayUse s m q = true → (getQ s q).enable = true → producerOn s q = true →
        exec (.openPkt m q) s = .next (putProd m { p with status := stBusy } s)) ∧
      (mayUse s m q = true → (getQ s q).enable = true → producerOn s q = false →
        exec (.openPkt m q) s = .next (putProd m ⟨some q, [], 0, false, false, stOk, false, p.tagReg, p.tagReg⟩ s))) ∧
    (∀ w : W32, p.q = none → exec (.producerData m w) s = .next (putProd m { p with notOpen := true } s)) ∧
    (∀ (q : QueueNo) (w : W32), p.q = some q → p.bad = false → p.flushed = false →
      ((8 + 4 * p.words) / 248 < p.cells.length → exec (.producerData m w) s = .next (storeWord m w s)) ∧
      (p.cells.length ≤ (8 + 4 * p.words) / 248 → p.cells.length ≠ 64 → depth (getQ s q) < (getQ s q).limit.toNat →
        poolGrants s q = true → exec (.producerData m w) s = .next (storeWord m w (takeCell m q s))) ∧
      (p.cells.length ≤ (8 + 4 * p.words) / 248 → (p.cells.length = 64 ∨ (getQ s q).limit.toNat ≤ depth (getQ s q)) →
        ∃ t, exec (.producerData m w) s = .next t ∧ (getProd t m).bad = true ∧ (getQ t q).overrun = true)) ∧
    (∀ (q : QueueNo) (v : BitVec 3), p.q = some q → custQueue q = true → (getQ s q).notify = false → p.bad = false →
      p.flushed = false → v.toNat ≤ 4 → 0 < p.words →
      let n := 4 * (p.words - 1) + (if v = 0 then 4 else v.toNat)
      n ≤ 15864 →
      ∃ t, exec (.closePkt m v false) s = .next t ∧ (getProd t m).q = none ∧
        (getQ t q).pkts = (getQ s q).pkts ++ [⟨p.cells, n, now s, p.tag, false⟩]) ∧
    (∀ (q : QueueNo) (v : BitVec 3), p.q = some q → p.flushed = false → 5 ≤ v.toNat ∨ p.words = 0 →
      ∃ t, exec (.closePkt m v false) s = .next t ∧ (getProd t m).q = none ∧ (getQ t q).pkts = (getQ s q).pkts ∧
        (getQ t q).rewind = satAdd (getQ s q).rewind 1) ∧
    (∀ (q : QueueNo) (v : BitVec 3), p.q = some q → p.flushed = false →
      ∃ t, exec (.closePkt m v true) s = .next t ∧ (getProd t m).q = none ∧ (getQ t q).pkts = (getQ s q).pkts ∧
        (getQ t q).rewind = satAdd (getQ s q).rewind 1) ∧
    (∀ q : QueueNo, p.q = some q →
      ∃ t, exec (.stale m) s = .next t ∧ (getProd t m).q = none ∧ t.qm.stale = satAdd s.qm.stale 1 ∧
        (getQ t q).pkts = (getQ s q).pkts) ∧
    (p.q = none → exec (.stale m) s = .next s)

/-- SELECT takes a queue for one consumer; a DATA read moves through the head packet, RELEASE removes it; QFLUSH discards every
committed packet and its cells return one by one; ENABLE = 0 flushes and disables; the watermarks keep LO below HI
(R242-R248, R257). -/
def Obligations.QueueConsumersAndDescriptors : Prop :=
  ∀ (m : Master) (s : State) (q : QueueNo),
    (hasQueuePort s m = true →
      let c := getCons s m
      exec (.selectQ m q true) s = .next (putCons m ⟨none, 0, false, stOk, false⟩ s) ∧
      (mayUse s m q = true → (getQ s q).enable = true → consumerOn s m q = false →
        exec (.selectQ m q false) s = .next (putCons m ⟨some q, 0, false, stOk, false⟩ s)) ∧
      (mayUse s m q = false → exec (.selectQ m q false) s = .next (putCons m { c with status := stBadParam } s)) ∧
      (∀ p, c.q = some q → c.flushed = false → (getQ s q).pkts.head? = some p → 4 * c.pos < p.len →
        p.cells.getD ((8 + 4 * c.pos) / 248) 0 ∉ s.qm.eccCells →
        ∃ t, exec (.consumerData m) s = .next t ∧ getCons t m = { c with pos := c.pos + 1 } ∧ t.qm.queues = s.qm.queues ∧
          (m = .host → t.host.lastAperture =
            memRead32 s.mem (cellBase (p.cells.getD ((8 + 4 * c.pos) / 248) 0) + (8 + 4 * c.pos) % 248))) ∧
      (c.q = some q → c.flushed = false →
        ∃ t, exec (.releasePkt m) s = .next t ∧ (getQ t q).pkts = (getQ s q).pkts.drop 1 ∧ (getCons t m).pos = 0)) ∧
    (∃ t, exec (.qflush q) s = .next t ∧ (getQ t q).pkts = [] ∧ (getQ t q).openCells = 0 ∧
      t.qm.flushedPkts = satAdd s.qm.flushedPkts (getQ s q).pkts.length ∧
      ∀ a ∈ (getQ s q).pkts.flatMap Packet.cells, a ∈ t.qm.inFlush) ∧
    exec .cellReturn s = .next (s.setQm { s.qm with inFlush := s.qm.inFlush.drop 1 }) ∧
    (∃ t, exec (.descriptorEnable q) s = .next t ∧ (getQ t q).enable = false ∧ (getQ t q).pkts = [] ∧
      (getQ t q).limit = (getQ s q).limit ∧ (getQ t q).notify = (getQ s q).notify) ∧
    (∀ v : W32, let n := v.toNat % 2 ^ 17
      ∃ t u, exec (.watermarkWrite q true v) s = .next t ∧ exec (.watermarkWrite q false v) s = .next u ∧
        (getQ t q).wmLo = (if n < (getQ s q).wmHi.toNat then BitVec.ofNat 17 n else (getQ s q).wmLo) ∧
        (getQ u q).wmHi =
          (if 1 ≤ n ∧ n ≤ 98304 ∧ (getQ s q).wmLo.toNat < n then BitVec.ofNat 17 n else (getQ s q).wmHi) ∧
        (getQ t q).pkts = (getQ s q).pkts ∧ (getQ u q).pkts = (getQ s q).pkts)

/-! ### Tensor engines and the call path (chapters 11, 12 and 01) -/

/-- A job of the NEURAL task in service is the next one of its model: a loaded model's descriptors are those it was loaded
with, and a row with another does nothing. A descriptor that fails a check of Table 11-8 is recorded with its code and ends the
task; one that passes them runs with the effective PASSES and FLUSH, and a job that is not the last advances the job index
and the cycle count, with its flags sticky (R294-R312). Without a task in service nothing runs. TEST_VECTORS withdraw an
engine that fails them between tasks (R144, R307). -/
def Obligations.TensorJobs : Prop :=
  (∀ (op : Nat) (f : BitVec 1 → JobDesc → Instr), (op, f) ∈ [(1, Instr.gemm), (2, .gemmAcc), (3, .ewMul), (4, .ewAdd), (5, .act)] →
    ∀ (e : BitVec 1) (d : JobDesc) (s : State),
      (serving s (.te e) = none → exec (f e d) s = .next s) ∧
      (∀ (t : Task) (m : Nat) (rest : List Nat), serving s (.te e) = some t → (getEngine s e).models = m :: rest →
        jobNext s (getEngine s e) m d = false → exec (f e d) s = .next s) ∧
      (∀ (t : Task) (m : Nat) (rest : List Nat), serving s (.te e) = some t → (getEngine s e).models = m :: rest →
        jobNext s (getEngine s e) m d = true →
        let x := getEngine s e
        let ctx : JobCtx := ⟨e, m⟩
        let check := descError op d (spaceSize s m) (fun sp o => BitVec.ofNat 32 (spaceNat s ctx sp o 4))
        (∀ code, check = .error code → t.exec = some (.te e) →
          ∃ u, exec (f e d) s = .next u ∧ (getEngine u e).jobErr = satAdd x.jobErr 1 ∧ (getEngine u e).models = [] ∧
            ((getEngine u e).lastErr &&& 0xFF).toNat = code ∧ ∀ y ∈ u.sch.tasks, y.id ≠ t.id) ∧
        (∀ comp, check = .ok comp →
          let chosen := ((x.chan.bind (findChan s)).map (fun c => c.prof.passes.toNat)).getD 0
          let n := max 1 (if fld d.w0 10 2 = 0 then chosen else fld d.w0 10 2)
          let j : Job := ⟨ctx, op, d, n, bitOf d.w0 12 || decide (m < 16), comp⟩
          exec (f e d) s = .next (performJob j s) ∧
          (d.lastJob = false → let y := getEngine (performJob j s) e
            y.jobIndex = x.jobIndex + 1 ∧ y.cycles = x.cycles + jobCycles j ∧ y.models = x.models ∧
            (x.flushed = true → y.flushed = true) ∧ (x.ovf = true → y.ovf = true) ∧ (x.inv = true → y.inv = true) ∧
            y.lastStatus.getLsbD 0 = true))) ) ∧
  (∀ (e : BitVec 1) (s : State), s.cmds.works = [] →
    exec (.testVectors e true) s = .next s ∧
    (serving s (.te e) = none → ∃ u, exec (.testVectors e false) s = .next u ∧ engineUp u e = false))

/-- PLAYOUT plays the frame of the current number where its tag and its CRC are good, replaces a late one by a concealment
frame of its number and counts it, and takes a channel whose frame fails the check to channel safe state; a channel out of
service plays idle code. EGRESS_TRANSMIT takes the head packet of the egress queue, sends it where every cell is good and
the channel is in service, and takes the channel to channel safe state where one is not; SHEDDING deletes channels, and then reservations, until the load fits
(R21, R23, R32, R35, R467, R469). -/
def Obligations.CallPath : Prop :=
  ∀ (s : State) (c : ChanNo) (x : Chan), findChan s c = some x → x.safe = none → s.saf.safe = false →
    (x.played = true → exec (.playout c) s = .next s) ∧
    (x.played = false → x.upRecorded = true →
      let frame := if x.downDone then (findDown x x.frameNo).map DownFrame.audio else none
      (∀ f, frame = some f → f.crcOk = true → tagChan f.tag = c → tagUp f.tag = false → tagSeed f.tag = x.seed →
        tagSeed f.tag ≠ 0 → tagSeq f.tag = x.frameNo.setWidth 8 →
        ∃ t y, exec (.playout c) s = .next t ∧ findChan t c = some y ∧ y.playing = (if x.inService then .frame f else .idle) ∧
          y.played = true ∧ y.safe = none ∧ (x.inService = true → y.liveDown.misses = 0)) ∧
      (∀ f, frame = some f → f.crcOk = true →
        tagChan f.tag ≠ c ∨ tagUp f.tag = true ∨ tagSeed f.tag ≠ x.seed ∨ tagSeed f.tag = 0 →
        ∃ t y, exec (.playout c) s = .next t ∧ findChan t c = some y ∧ y.tagFail = satAdd x.tagFail 1 ∧
          y.safe = some (causeWord 0x01) ∧ y.inService = false ∧ y.playing = .idle) ∧
      (∀ f, frame = some f → f.crcOk = false →
        ∃ t y, exec (.playout c) s = .next t ∧ findChan t c = some y ∧ y.tagFail = satAdd x.tagFail 1 ∧
          y.safe = some (causeWord 0x02) ∧ y.inService = false ∧ y.playing = .idle) ∧
      (frame = none → x.liveDown.misses = 0 →
        ∃ t y f, exec (.playout c) s = .next t ∧ findChan t c = some y ∧ y.late = satAdd x.late 1 ∧
          y.playing = (if x.inService then .conceal f else .idle) ∧ f.crcOk = true ∧
          f.tag = mkTag c false (x.frameNo.setWidth 8) x.seed)) ∧
    (∀ p, headPkt s (egressQ c) = some p →
      (checkPacket s x p = none → x.inService = true →
        exec (.egressTransmit c) s = .next (sendRtp x p.udptl (pktBytes s p) (popHead (egressQ c) (noteRead .switch p s)))) ∧
      (checkPacket s x p = none → x.inService = false →
        exec (.egressTransmit c) s = .next (popHead (egressQ c) (noteRead .switch p s))) ∧
      (∀ crc, checkPacket s x p = some crc →
        ∃ t y, exec (.egressTransmit c) s = .next t ∧ findChan t c = some y ∧ y.tagFail = satAdd x.tagFail 1 ∧
          y.safe = some (causeWord (if crc then 0x02 else 0x01)))) ∧
    (headPkt s (egressQ c) = none → exec (.egressTransmit c) s = .next s) ∧
    (s.led.shedding = none → exec .shedding s = .next s) ∧
    (∀ k, s.led.shedding = some k →
      ∃ t, exec .shedding s = .next t ∧ t.led.shedding = none ∧ overCeiling t = false ∧ t.led.chans.length ≤ s.led.chans.length)

/-! ### Power, temperature, reset and boot (chapters 02, 04 and 05) -/

/-- The power inputs: sources lost, back in range or valid change their own flags and the power-source ceiling, which stays
where none is left; a source that is valid already keeps its state. PWRFAIL asserts only while no input supplies the bus; a
brown-out is a reset with CAUSE 0x1, after which the supply is gone; the guard takes a step after three windows in a row
over the class power; a temperature sample joins the samples of the last second, and their average moves the thermal
ceiling, to STANDBY above 95 °C (R44-R62, R542-R544). -/
def Obligations.PowerAndTemperature : Prop :=
  ∀ (s : State) (p : PowerIn),
    (∀ l : List PowerIn, ∃ t, exec (.sourceLost l) s = .next t ∧ (∀ r ∈ l, srcOf t r = ⟨false, false⟩) ∧
      (∀ r, r ∉ l → srcOf t r = srcOf s r) ∧
      ((∃ r ∈ l, (srcOf s r).valid = true) → (∀ r, r ∉ l → (srcOf s r).valid = false) →
        t.pwr.srcCeil = s.pwr.srcCeil ∧ t.pwr.activeAtLoss = activeSrc s)) ∧
    (∃ t, exec (.inputReturn p) s = .next t ∧ (srcOf t p).inRange = true ∧ t.pwr.powered = true ∧ t.pwr.pwrfail = false) ∧
    (∀ cls : BitVec 4, (srcOf s p).valid = true → exec (.sourceValid p cls) s = .next s) ∧
    (∀ cls : BitVec 4, (srcOf s p).valid = false → ∃ t, exec (.sourceValid p cls) s = .next t ∧ srcOf t p = ⟨true, true⟩ ∧ t.pwr.powered = true ∧
      t.pwr.pwrfail = false ∧ t.pwr.guardSteps = 0 ∧ t.pwr.srcCeil = srcCeilNow t ∧ (p = .poe → t.pwr.poeClass = cls)) ∧
    (s.pwr.powered = true → s.pwr.pwrfail = false → anyInput s = false →
      let t := s.setPwr { s.pwr with pwrfail := true }
      exec .pwrfail s = .next (raise 0x05 [pwrStat t, pwrLimit t] t)) ∧
    (anyInput s = true → exec .pwrfail s = .next s ∧ exec .brownOut s = .next s) ∧
    (anyInput s = false → s.mode ≠ .reset → ∃ t u, exec .brownOut s = .next t ∧ t.mode = .reset ∧ t.boot.cause = 1 ∧
      t.pwr.pwrfail = false ∧ t.pwr.powered = s.pwr.powered ∧ exec .brownOut t = .next u ∧ u = powerGone t ∧
      u.mode = .reset ∧ u.boot.cause = 1 ∧ u.pwr.powered = false) ∧
    (∀ mw : List Nat, s.cal.waiting = [] → poeOnly s = true → s.pwr.held = none → s.pwr.guardShed = false → s.mode ≠ .reset →
      let above := (classPower s.pwr.poeClass : Int) * 1000000 * mw.length < correctedPower (sumOf id mw) s
      (¬ above → exec (.powerGuard mw) s = .next (s.setPwr { s.pwr with guardWindows := 0 })) ∧
      (above → s.pwr.guardWindows < 2 →
        exec (.powerGuard mw) s = .next (s.setPwr { s.pwr with guardWindows := s.pwr.guardWindows + 1 })) ∧
      (above → 2 ≤ s.pwr.guardWindows → ∃ t, exec (.powerGuard mw) s = .next t ∧ t.pwr.guardWindows = 0 ∧
        t.pwr.guardSteps = s.pwr.guardSteps + 1)) ∧
    (∀ raw : Word, s.cal.waiting = [] → s.mode ∈ [Mode.ready, .run, .degraded, .held, .safe] →
      let l := s.therm.samples.filter (fun x => decide (uptime s < x.1 + 500000000)) ++ [(uptime s, raw.toInt + calEffective s 0x0100)]
      let v := meanSample l
      ∃ t, exec (.tempSample raw) s = .next t ∧ t.therm.samples = l ∧ t.therm.temp = BitVec.ofInt 16 v ∧
        t.therm.ceil = (if s.boot.wasReady then thermalMove s v else thermalAt s v) ∧
        (s.mode ≠ .safe → 12160 < (BitVec.ofInt 16 v : Word).toInt → t.mode = .standby ∧ t.led.chans = []))

/-- RESET# low for 10 µs, the vigil watchdog, the start timer in BOOT, the host watchdog, a boundary-scan instruction and the
reset that a response announced each bring RESET with a CAUSE of their own, and none of them resets again in RESET; less than
1 µs of RESET# does nothing. A boundary-scan instruction holds RESET until the TAP controller leaves it: by another
instruction, by TRST#, or after five clocks with TMS high. The exit samples straps and VIO and enters BOOT, below -45 °C the
module stays. BIST withdraws what failed, enables the switch's forwarding queues and leads to SAFE, to the bank that runs or
to RECOVERY; READY ends a trial and raises the rollback counter (R62, R75, R78, R83, R96, R97, R121, R126-R132, R138, R177,
R437, R479, R500, R514). -/
def Obligations.ResetAndBoot : Prop :=
  ∀ s : State,
    (s.mode ≠ .reset →
      (∀ n, 10000 ≤ n → exec (.resetPin n) s = .next (resetBlocks 2 s)) ∧
      (∀ n, 1000 ≤ n → n < 10000 → exec (.resetPin n) s ∈ [Host.Outcome.next s.draw, .next (resetBlocks 2 s.draw)]) ∧
      exec .vigilWdog s = .next (resetBlocks 5 s) ∧
      (s.mode = .boot → s.boot.startArmed = true → exec .startTimer s = .next (resetBlocks 4 s)) ∧
      (s.host.live = true → s.host.hwdogPeriod ≠ 0 →
        exec .hostWdog s = .next (resetBlocks 6 s) ∧ exec .hwdogHalf s = .next (s.setHost { s.host with irqWdog := true })) ∧
      (s.host.live = false ∨ s.host.hwdogPeriod = 0 → exec .hostWdog s = .next s ∧ exec .hwdogHalf s = .next s) ∧
      (s.boot.resetSoon = true → s.pending = [] → step s = .next (resetBlocks 3 s)) ∧
      (s.pwr.powered = true → ∀ j ∈ [JtagOp.extest, .intest, .clamp], ∃ t, exec (.jtagInstruction j) s = .next t ∧
        t.mode = .reset ∧ t.boot.cause = 7 ∧ t.boot.jtagHold = true ∧ t.pins.tap = .updateIr ∧ resetMayEnd t = false)) ∧
    (∀ k : BitVec 4, (resetBlocks k s).mode = .reset ∧ (resetBlocks k s).boot.cause = k ∧ (resetBlocks k s).led = State.reset.led ∧
      (resetBlocks k s).host = State.reset.host ∧ (resetBlocks k s).boot.rollback = s.boot.rollback) ∧
    (∀ n, n < 1000 → exec (.resetPin n) s = .next s) ∧
    (s.pwr.powered = false → ∀ j, exec (.jtagInstruction j) s = .next s) ∧
    (s.pwr.powered = true →
      let tapAt := fun (x : TapState) => (s.setPins { s.pins with tap := x }).setBoot { s.boot with jtagHold := false }
      exec (.jtagInstruction .other) s = .next (tapAt .updateIr) ∧ exec (.jtagInstruction .trst) s = .next (tapAt .testLogicReset) ∧
      exec (.jtagInstruction (.clocks (List.replicate 5 true))) s = .next (tapAt .testLogicReset) ∧
      ∀ l, exec (.jtagInstruction (.boundary l)) s =
        .next (s.setPins { s.pins with tap := .updateDr, boundary := scanned l s.pins.boundary })) ∧
    (s.mode = .reset → (∀ i ∈ [Instr.vigilWdog, .startTimer, .hostWdog, .hostPortStart, .bypassOpen], exec i s = .next s) ∧
      (∀ n, 10000 ≤ n → exec (.resetPin n) s = .next s) ∧
      (∀ (straps : BitVec 2) (mv : Nat) (t : Word), resetMayEnd s = true →
        (t.toInt + calEffective s 0x0100 < -5760 →
          exec (.resetEnd straps mv t) s = .next (s.setBoot { s.boot with coldHold := true })) ∧
        (-5760 ≤ t.toInt + calEffective s 0x0100 →
          ∃ u, exec (.resetEnd straps mv t) s = .next u ∧ u.mode = .boot ∧ u.pins.straps = straps ∧
            u.pins.vioClass33 = (if mv < 1000 then none else some (decide (2400 ≤ mv))) ∧ u.boot.startArmed = true ∧
            (straps = 2 → u.ism.addr = some 0)))) ∧
    (s.mode ≠ .reset → s.clk.hostLost = false → exec .hostPortStart s = .next (s.setHost { s.host with live := true })) ∧
    (s.mode ≠ .reset → exec .bypassOpen s = .next (s.setBoot { s.boot with linkLayer := true })) ∧
    (∀ r : BistResult, s.mode = .boot → s.boot.bistDone = false → poeStandby s = false → s.saf.safe = false →
      (r.safetyFail = true ∨ r.dramFail = true ∨ s.hw.factoryOk = false →
        ∃ u, exec (.powerOnBist r) s = .next u ∧ u.mode = .safe ∧ u.saf.cause = 0x50) ∧
      (r.safetyFail = false → r.dramFail = false → s.hw.factoryOk = true → s.pwr.pwrfail = false → s.boot.trial = false →
        s.boot.active = none →
        ∃ u, exec (.powerOnBist r) s = .next u ∧ (∀ n ∈ r.badCores, corePresent s n = true → (getCore u n).withdrawn = true) ∧
          (∀ e ∈ r.badEngines, engineUp u e = false) ∧ u.boot.limitsOn = true ∧
          (∀ p c, c < 8 → (getQ u (fwdQ p c)).enable = true) ∧
          (if checkBank s s.boot.pref = .good then
             u.mode = .boot ∧ u.boot.active = some s.boot.pref ∧ u.boot.running = some (pkgInfo (bankOf s s.boot.pref).bytes)
           else if checkBank s (!s.boot.pref) = .good then u.boot.active = some (!s.boot.pref) ∧ u.boot.fallback = true
           else u.mode = .recovery))) ∧
    (∀ p, s.boot.running = some p → s.mode = .boot → s.boot.bistDone = true → s.pwr.pwrfail = false → poeStandby s = false →
      tooHot s = false →
      ∃ u, exec .bootDone s = .next u ∧ u.mode = .ready ∧ u.boot.startArmed = false ∧ u.boot.wasReady = true ∧
        u.boot.rollback.toNat = max s.boot.rollback.toNat (p.svn.toNat % 256) ∧
        u.saf.qual = (!s.boot.unqual && !s.boot.debug) ∧
        (s.boot.active = some s.boot.pref → u.boot.trial = false))

/-- A lost clock acts as Table 04-3 gives: SAFE, a core or an engine withdrawn, a port, a link or a highway down, a function
withdrawn with RUN becoming DEGRADED; in RESET nothing is lost. REFIN in use is left for the TCXO and taken back. VIO out of
range takes the highways down and releases every pin but PRESENT#, and back in range it enables them; a class that the exit
from RESET did not latch is latched once. A valid token of a slot that is not revoked unlocks debug and takes QUAL (R75, R77,
R79, R99-R101, R118, R142, R530). -/
def Obligations.ClocksVioAndUnlock : Prop :=
  (∀ (s : State) (d : ClockDomain), s.mode = .reset → exec (.clockLost d) s = .next s) ∧
  ∀ s : State, s.mode ≠ .reset →
    (∀ d ∈ [ClockDomain.tcxo, .vigilOscillator, .corePll, .systemPll, .timePll, .lockstepPair, .vigilChecker, .scheduler,
      .cellMemory, .dramChannel, .fabricQuadrant], exec (.clockLost d) s = .next (moduleSafe 0x30 s)) ∧
    (∀ n : CoreNo, corePresent s n = true →
      ∃ u, exec (.clockLost (.voiceCore n)) s = .next u ∧ (getCore u n).withdrawn = true) ∧
    (∀ e : BitVec 1, ∃ u, exec (.clockLost (.tensorEngine e)) s = .next u ∧ engineUp u e = false) ∧
    (∀ (d : ClockDomain) (c : Clocks), (d, c) ∈ [(.uart, { s.clk with uartLost := true }), (.deflate, { s.clk with deflateLost := true })] →
      exec (.clockLost d) s = .next (degrade (s.setClk c))) ∧
    (∃ u, exec (.clockLost .hostPort) s = .next u ∧ u.host.live = false ∧ (s.mode = .run → u.mode = .degraded)) ∧
    (TablesSized s → (∃ u, exec (.clockLost .ethernetPll) s = .next u ∧ u.clk.ethPll = false ∧
        ∀ p : PortNo, (getPort u p).up = false ∧ (ismPort u p).st = .down) ∧
      (∀ p : PortNo, (∃ u, exec (.clockLost (.ethReceive p)) s = .next u ∧ (getPort u p).up = false) ∧
        ∃ u, exec (.clockLost (.ismReceive p)) s = .next u ∧ (ismPort u p).st = .down) ∧
      ∀ n : HwyNo, (getHwy s n).aligned = true → ∃ u, exec (.clockLost (.tdmClk n)) s = .next u ∧
        (getHwy u n).aligned = false ∧ (getHwy u n).alignLoss = satAdd (getHwy s n).alignLoss 1) ∧
    (∃ u, exec (.clockLost .crypto) s = .next u ∧ u.clk.cryptoLost = true ∧ (s.mode = .run → u.mode = .degraded)) ∧
    (s.clk.refUsed ≠ 0 → ∀ i ∈ [Instr.refinLost, .clockLost .refin],
      exec i s = .next (raise 0x0D [1, 2] (s.setClk { s.clk with refUsed := 0, refLost := true }))) ∧
    (s.clk.refSel ≠ 0 → s.clk.refUsed = 0 →
      let u := s.setClk { s.clk with refUsed := s.clk.refSel, refLost := false }
      exec .refinAccepted s = .next (if s.clk.refLost then raise 0x0D [0, 2] u else u)) ∧
    (s.clk.refUsed = 0 → exec .refinLost s = .next s) ∧
    (∀ k, s.pins.vioClass33 = some k →
      (s.pins.vioIn = true → ∃ u, exec .vioOut s = .next u ∧ u.pins.vioIn = false ∧ j1Enabled u = false ∧
        (∀ p : J1Pin, pin u p = if p = .present then .low else .released) ∧ ∀ n : HwyNo, (getHwy u n).aligned = false) ∧
      (s.pins.vioIn = false → ∃ u, exec .vioRestored s = .next u ∧ u.pins = { s.pins with vioIn := true }) ∧
      ∀ is33, exec (.vioLatch is33) s = .next s) ∧
    (∀ is33, s.pins.vioClass33 = none →
      ∃ u, exec (.vioLatch is33) s = .next u ∧ u.pins = { s.pins with vioClass33 := some is33, vioIn := true } ∧
        u.host.fcSticky = s.host.fcSticky ||| (fcStat u &&& ~~~fcStat s) ∧ exec (.vioLatch is33) u = .next u) ∧
    (∀ (slot : BitVec 2) (sig : BitVec 512), s.pwr.powered = true →
      exec (.unlockToken slot sig) s = .next (
        if s.hw.revoked.getLsbD slot.toNat = false ∧ Config.tokenValid slot s.hw.uid s.boot.challenge sig = true then
          (s.setBoot { s.boot with debug := true }).setSaf { s.saf with qual := false }
        else s))

/-! ### Functional safety (chapter 18) -/

/-- In service, a lockstep mismatch, a comparator or checker that fails its test, a rail out of range, a die above 135 °C,
an uncorrectable error in the control domain or a Link RAM and a conflict of the safety configuration put the module in
SAFE with their causes, and the tests that pass are counted; a later cause leaves the first latched (R473-R478, R481, R482). -/
def Obligations.SafetyReactions : Prop :=
  ∀ s : State,
    let enters := fun (i : Instr) (c : Byte) (f : State → Prop) => ∃ t, exec i s = .next t ∧ SafeEntered c s t ∧ f t
    (Guarded s →
      (enters .lockstepMismatch 0x10 fun t => t.saf.lockstep = satAdd s.saf.lockstep 1) ∧
      (∀ flagged, enters (.comparatorTest flagged true) 0x10 fun t => t.saf.lane = s.saf.lane + 1) ∧
      (enters (.comparatorTest false false) 0x11 fun t => t.saf.lane = s.saf.lane + 1) ∧
      (enters (.checkerTest false) 0x12 fun t => t.saf.checkerTests = s.saf.checkerTests) ∧
      (enters .voltage 0x31 fun _ => True) ∧
      (∀ c : BitVec 9, 135 < c.toInt → enters (.dieTemp c) 0x32 fun _ => True) ∧
      (∀ p ∈ [EccPlace.control, .dramControl], enters (.eccUncorrectable p) 0x20 fun t =>
        t.saf.eccUncorr = satAdd s.saf.eccUncorr 1) ∧
      (enters (.eccUncorrectable .linkRam) 0x21 fun t => t.saf.eccUncorr = satAdd s.saf.eccUncorr 1) ∧
      (∀ e, enters (.scrub .safetyCfg (some .conflict) e) 0x22 fun t => t.saf.scrubs = satAdd s.saf.scrubs 1) ∧
      (hostUp s = true → enters .safeCtlEnter 0x40 fun _ => True)) ∧
    (s.mode ≠ .reset →
      exec (.comparatorTest true false) s =
        .next (s.setSaf { s.saf with lane := s.saf.lane + 1, compTests := satAdd s.saf.compTests 1 }) ∧
      exec (.checkerTest true) s = .next (s.setSaf { s.saf with checkerTests := satAdd s.saf.checkerTests 1 }) ∧
      exec .eccCorrected s = .next (s.setSaf { s.saf with eccCorr := satAdd s.saf.eccCorr 1 }) ∧
      (∀ (t : DupTable) (e : BitVec 13),
        exec (.scrub t none e) s = .next (s.setSaf { s.saf with scrubs := satAdd s.saf.scrubs 1 }) ∧
        exec (.scrub t (some .oneBad) e) s = .next (s.setSaf { s.saf with
          scrubs := satAdd s.saf.scrubs 1, repaired := satAdd s.saf.repaired 1 })) ∧
      (∀ c : BitVec 9, c.toInt ≤ 135 → exec (.dieTemp c) s = .next s)) ∧
    (s.mode = .safe → s.saf.safe = true → ∀ i ∈ [Instr.lockstepMismatch, .comparatorTest false false, .checkerTest false,
      .voltage, .eccUncorrectable .control], ∃ t, exec i s = .next t ∧ t.mode = .safe ∧ t.saf.safe = true ∧
        t.saf.cause = s.saf.cause ∧ t.saf.cls = s.saf.cls ∧ t.led = s.led) ∧
    (s.mode = .reset → ∀ i ∈ [Instr.lockstepMismatch, .comparatorTest false false, .checkerTest false, .voltage,
      .eccUncorrectable .control, .eccCorrected], exec i s = .next s)

/-- An uncorrectable error strikes by its place: a cell's packets, a core's or an engine's task, a channel's frames; a benign
difference of a table is counted and reported, and a conflict of a channel's routing or seed puts that channel, or with
policy 1 its whole group, in channel safe state (R254, R309, R466, R469, R470, R476, R477). -/
def Obligations.ErrorsByPlace : Prop :=
  ∀ s : State, s.mode ≠ .reset →
    let counted := s.setSaf { s.saf with eccUncorr := satAdd s.saf.eccUncorr 1 }
    (∀ i : BitVec 17, i.toNat < cellTotal → i.toNat ∉ s.qm.eccCells →
      exec (.eccUncorrectable (.cell i)) s = .next (counted.setQm { s.qm with eccCells := s.qm.eccCells ++ [i.toNat] })) ∧
    (∀ (n : CoreNo) (x : Task), serving s (.vc n) = some x → ∃ t, exec (.eccUncorrectable (.coreData n)) s = .next t ∧
      t.saf.eccUncorr = satAdd s.saf.eccUncorr 1 ∧ (getCore t n).faults = satAdd (getCore s n).faults 1 ∧
      ∀ y ∈ t.sch.tasks, y.id ≠ x.id) ∧
    (∀ (e : BitVec 1) (x : Task), serving s (.te e) = some x → ∃ t, exec (.eccUncorrectable (.tensorLocal e)) s = .next t ∧
      (getEngine t e).jobErr = satAdd (getEngine s e).jobErr 1 ∧ ∀ y ∈ t.sch.tasks, y.id ≠ x.id) ∧
    (∀ n : CoreNo, serving s (.vc n) = none → exec (.eccUncorrectable (.coreData n)) s = .next counted) ∧
    (∀ n : CoreNo, corePresent s n = true → ∃ t, exec (.eccUncorrectable (.coreVendorPm n)) s = .next t ∧
      (getCore t n).withdrawn = true) ∧
    (∀ c : ChanNo, ∃ t, exec (.eccUncorrectable (.dramChannel c)) s = .next t ∧ t.saf.safe = s.saf.safe ∧
      ∀ y, findChan t c = some y → ∃ x, findChan s c = some x ∧
        y.downs = x.downs.map (fun d => { d with audio := poisonFrame d.audio }) ∧
        y.ups = x.ups.map (fun u => { u with audio := poisonFrame u.audio })) ∧
    (∀ (k : DupTable) (e : BitVec 13), ∃ t, exec (.scrub k (some .benign) e) s = .next t ∧
      t.saf.benign = satAdd s.saf.benign 1 ∧ t.host.benign = true ∧ t.saf.safe = s.saf.safe) ∧
    (∀ (k : DupTable) (x : Chan), k ≠ .safetyCfg → s.saf.safe = false → findChan s x.no = some x → x.safe = none →
      ∃ t, exec (.scrub k (some .conflict) x.no) s = .next t ∧
        (∃ y, findChan t x.no = some y ∧ y.safe = some (causeWord 0x05) ∧ y.inService = false ∧ y.playing = .idle) ∧
        (x.prof.group ∈ s.saf.groupPolicy → ∀ y ∈ s.led.chans, y.prof.group = x.prof.group →
          ∃ z, findChan t y.no = some z ∧ z.safe.isSome = true))

/-! ### Highways (R86, R367-R372) -/

/-- Two good frame pulses in a row align an enabled highway: its slip buffers are set one frame apart, with silence, and LINK
reports it, unless a trim run gave the alignment up. Two bad ones, or no clock edge, lose it, counted and reported with the
cause. An aligned frame is written into the receive buffer and the oldest frame of the transmit buffer is driven in the owned
timeslots; the module writes the mapped channels' samples. Each slip, one that SLIP tells of or one that the drift makes,
moves its own counter, no channel's lost or late count, and raises no event; a clock master does not slip. A frame boundary
applies the waiting configuration, and a highway it disables is down (R84-R86, R368-R372). -/
def Obligations.Highways : Prop :=
  ∀ (n : HwyNo) (s : State), TablesSized s →
    let x := getHwy s n
    let silence := silenceCode x.cfg.muLaw
    let down : Highway := { x with aligned := false, goodPulses := 0, badPulses := 0, line := [], alignLoss := satAdd x.alignLoss 1 }
    (x.cfg.enabled = true → x.aligned = false → pinsActive s = true → trimming s n = false →
      exec (.highwayAligned n) s = .next (
        let w := putHwy n { x with
          aligned := true, goodPulses := 0, badPulses := 0, trimRun := false, line := [], txOut := [], rxHist := [],
          rxBuf := [List.replicate 256 silence], rxGap := 2048, txBuf := [List.replicate 256 (some silence)], txGap := 2048 } s
        if x.trimRun then w else raiseLink 2 n.toNat 1 0 w)) ∧
    (x.cfg.enabled = false ∨ x.aligned = true ∨ pinsActive s = false ∨ trimming s n = true →
      exec (.highwayAligned n) s = .next s) ∧
    (∀ c : AlignCause, exec (.alignmentLoss n c) s = if x.aligned = true then
      .next (raiseLink 2 n.toNat 0 (match c with
        | .clkLost => 1
        | .fsBad => 2) (putHwy n down s))
      else .next s) ∧
    (x.cfg.enabled = false ∨ (x.nextCfg.getD x.cfg).enabled = true → exec (.highwayConfigApply n) s = .next (putHwy n { x with
      cfg := x.nextCfg.getD x.cfg, own := x.nextOwn.getD x.own, nextCfg := none, nextOwn := none,
      aligned := x.aligned && (x.nextCfg.getD x.cfg).enabled } s)) ∧
    (x.cfg.enabled = true → (x.nextCfg.getD x.cfg).enabled = false →
      ∃ t, exec (.highwayConfigApply n) s = .next t ∧ (getHwy t n).cfg = x.nextCfg.getD x.cfg ∧
        (getHwy t n).own = x.nextOwn.getD x.own ∧ (getHwy t n).aligned = false ∧ (getHwy t n).line = [] ∧
        (getHwy t n).nextCfg = none ∧ (getHwy t n).nextOwn = none) ∧
    (x.aligned = true → x.cfg.master = false →
      exec (.slip n false true) s = .next (putHwy n { x with
        rxDel := satAdd x.rxDel 1, rxBuf := slipFrames 1 0 x.rxBuf, rxGap := 1536 } s) ∧
      exec (.slip n false false) s = .next (putHwy n { x with
        rxRep := satAdd x.rxRep 1, rxBuf := slipFrames 0 1 x.rxBuf, rxGap := 2560 } s) ∧
      exec (.slip n true true) s = .next (putHwy n { x with
        txRep := satAdd x.txRep 1, txBuf := slipFrames 0 1 x.txBuf, txGap := 2560 } s) ∧
      exec (.slip n true false) s = .next (putHwy n { x with
        txDel := satAdd x.txDel 1, txBuf := slipFrames 1 0 x.txBuf, txGap := 1536 } s)) ∧
    (x.cfg.master = true → ∀ a b, exec (.slip n a b) s = .next s) ∧
    (x.cfg.enabled = false ∨ pinsActive s = false → ∀ ok d l, exec (.highwayFrame n ⟨ok, d, l⟩) s = .next s) ∧
    (x.cfg.enabled = true → pinsActive s = true → ∀ (d : Int) (l : List Byte),
      (x.aligned = false →
        exec (.highwayFrame n ⟨false, d, l⟩) s = .next (putHwy n { x with
          goodPulses := 0, badPulses := x.badPulses + 1, fsErr := satAdd x.fsErr 1 } s) ∧
        (x.goodPulses = 0 → exec (.highwayFrame n ⟨true, d, l⟩) s = .next (putHwy n { x with goodPulses := 1, badPulses := 0 } s)) ∧
        (1 ≤ x.goodPulses → trimming s n = false → exec (.highwayFrame n ⟨true, d, l⟩) s = exec (.highwayAligned n) s)) ∧
      (x.aligned = true → 1 ≤ x.badPulses → exec (.highwayFrame n ⟨false, d, l⟩) s =
        .next (raiseLink 2 n.toNat 0 2 (putHwy n { down with fsErr := satAdd x.fsErr 1 } s))) ∧
      (x.aligned = true → x.badPulses = 0 → ∃ t, exec (.highwayFrame n ⟨false, d, l⟩) s = .next t ∧
        (getHwy t n).fsErr = satAdd x.fsErr 1 ∧ (getHwy t n).badPulses = 1 ∧ (getHwy t n).aligned = true) ∧
      (x.aligned = true → fiPoint s (0x0100 + n.setWidth 16) = none → fiPoint s (0x0120 + n.setWidth 16) = none → x.txOut = [] →
        ∃ t, exec (.highwayFrame n ⟨true, d, l⟩) s = .next t ∧ t.host = s.host ∧ (getHwy t n).aligned = true ∧
          t.led.chans.map (fun c => (c.lost, c.late)) = s.led.chans.map (fun c => (c.lost, c.late)) ∧
          (x.cfg.master = true → (getHwy t n).rxDel = x.rxDel ∧ (getHwy t n).rxRep = x.rxRep ∧ (getHwy t n).txDel = x.txDel ∧
            (getHwy t n).txRep = x.txRep) ∧
          (x.cfg.master = false → -2048 ≤ d → d ≤ 2048 →
            (getHwy t n).rxDel = satAdd x.rxDel (slipsAbove (x.rxGap + d)) ∧
            (getHwy t n).rxRep = satAdd x.rxRep (slipsBelow (x.rxGap + d)) ∧
            (getHwy t n).txDel = satAdd x.txDel (slipsAbove (x.txGap - d)) ∧
            (getHwy t n).txRep = satAdd x.txRep (slipsBelow (x.txGap - d))) ∧
          ∀ (r : List Byte) (g : List (Option Byte)), d = 0 → x.rxBuf = [r] → x.txBuf = [g] →
            512 ≤ x.rxGap → x.rxGap ≤ 3584 → 512 ≤ x.txGap → x.txGap ≤ 3584 →
            (getHwy t n).rxBuf = [l] ∧ (getHwy t n).rxHist = (r :: x.rxHist).take 40 ∧
            (getHwy t n).txBuf = [(List.range 256).map (fun k => some (slotCode s n k))] ∧
            (getHwy t n).line = (List.range 256).map (fun k =>
              if x.own.getLsbD k = false then none else if s.saf.safe = true then some silence else g.getD k none)))

/-! ### Ethernet, the interfaces and sessions (chapter 13) -/

/-- A configured cage of a module whose ports are on powers a transceiver it can read at Power Level I and says in LINK why it
refuses another; TX_DISABLE holds while the cage has no supply. A link goes up at a speed its mode advertises and down with
what it was sending lost (R95, R343-R345, Table 13-3). -/
def Obligations.CagesAndLinks : Prop :=
  ∀ (p : PortNo) (s : State), TablesSized s →
    let x := getPort s p
    let withCage := fun (c : Cage) => putPort p { x with cage := c } s
    let empty : Cage := { Cage.atReset with present := true }
    (hasCage p = true → x.mode = 0 ∨ portsOn s = false → ∀ l r g,
      exec (.transceiverInserted p l ⟨r, g⟩) s = .next (withCage { empty with level1 := l, readable := r, hasDiag := g })) ∧
    (hasCage p = true → x.mode ≠ 0 → portsOn s = true → ∀ g : Bool,
      let read : Cage := { empty with readable := true, hasDiag := g, idRead := true, diagRead := g }
      (∃ t, exec (.transceiverInserted p true ⟨true, g⟩) s = .next t ∧ txDisable t p = false ∧
        t = raiseLink 3 p.toNat 1 0 (withCage { read with level1 := true, powered := true })) ∧
      exec (.transceiverInserted p false ⟨true, g⟩) s = .next (raiseLink 3 p.toNat 0 1 (withCage { read with refused := true })) ∧
      ∀ l, exec (.transceiverInserted p l ⟨false, g⟩) s = .next (raiseLink 3 p.toNat 0 4 (withCage { empty with
        level1 := l, hasDiag := g, diagRead := g, refused := true }))) ∧
    (hasCage p = false → ∀ l r g, exec (.transceiverInserted p l ⟨r, g⟩) s = .next s ∧ exec (.transceiverRemoved p l) s = .next s) ∧
    (hasCage p = true → x.cage.present = true →
      exec (.transceiverRemoved p false) s = .next (raiseLink 3 p.toNat 0 3 (withCage Cage.atReset)) ∧
      (x.cage.powered = true → exec (.transceiverRemoved p true) s =
        .next (raiseLink 3 p.toNat 0 2 (withCage { x.cage with powered := false, refused := true })))) ∧
    (x.up = true → ∀ b, ∃ t, exec (.ethPortDown p b) s = .next t ∧ (getPort t p).up = false ∧ (getPort t p).speed = 0 ∧
      (getPort t p).sending = none ∧ (getPort t p).addr = x.addr ∧ t.sw.macTable = s.sw.macTable) ∧
    (x.up = false → ∀ b, exec (.ethPortDown p b) s = .next s) ∧
    (∀ v : BitVec 3, x.up = false → s.mode ≠ .reset → s.mode ≠ .standby → s.clk.ethPll = true →
      speedAllowed p x.mode v = true → (hasCage p = true → x.cage.powered = true) →
      ∃ t, exec (.ethPortUp p v) s = .next t ∧ (getPort t p).up = true ∧ (getPort t p).speed = v) ∧
    (∀ v : BitVec 3, x.up = true ∨ s.mode = .reset ∨ s.mode = .standby ∨ speedAllowed p x.mode v = false →
      exec (.ethPortUp p v) s = .next s)

/-- A frame is counted by what is wrong with it; PAUSE is counted and discarded; a good frame's source is learned while the
table has room, and stays as it was in a full one; a frame sent is counted; an address unheard is forgotten (R344, R346, R347,
R349, Table 13-5). -/
def Obligations.FramesAndAddresses : Prop :=
  ∀ (p : PortNo) (s : State), TablesSized s →
    let x := getPort s p
    (x.up = false → ∀ f, exec (.frameReceive p f) s = .next s) ∧
    (x.up = true → fiPoint s (p.setWidth 16) = none → ∀ f : List Byte,
      (9216 < f.length → exec (.frameReceive p f) s = .next (putPort p { x with rxOversize := satAdd x.rxOversize 1 } s)) ∧
      (f.length < 64 → exec (.frameReceive p f) s = .next s) ∧
      (64 ≤ f.length → f.length ≤ 9216 → fcsGood f = false → ∃ t, exec (.frameReceive p f) s = .next t ∧
        (getPort t p).rxFcs = satAdd x.rxFcs 1 ∧ (getPort t p).rxFrames = x.rxFrames ∧ t.sw.macTable = s.sw.macTable) ∧
      (64 ≤ f.length → f.length ≤ 9216 → fcsGood f = true → (viewFrame f).etype = 0x8808 →
        be16 (viewFrame f).payload 0 = 1 → exec (.frameReceive p f) s = .next (putPort p { x with rxFrames := satAdd x.rxFrames 1 } s)) ∧
      (∀ vid, 64 ≤ f.length → f.length ≤ 9216 → fcsGood f = true →
        ¬((viewFrame f).etype = 0x8808 ∧ be16 (viewFrame f).payload 0 = 1) →
        (if (viewFrame f).tagged && (viewFrame f).vid ≠ 0 then some (viewFrame f).vid else pvid s p.toNat) = some vid →
        (vlanMember s vid p.toNat = false → exec (.frameReceive p f) s = .next (putPort p { x with
          rxFrames := satAdd x.rxFrames 1, rxNoVlan := satAdd x.rxNoVlan 1 } s)) ∧
        (vlanMember s vid p.toNat = true → isGroup (viewFrame f).src = false → s.sw.macTable.length < 16384 →
          ∃ t, exec (.frameReceive p f) s = .next t ∧ (getPort t p).rxFrames = satAdd x.rxFrames 1 ∧
            (vid, (viewFrame f).src, p) ∈ t.sw.macTable) ∧
        (vlanMember s vid p.toNat = true → isGroup (viewFrame f).src = true ∨ 16384 ≤ s.sw.macTable.length →
          ∃ t, exec (.frameReceive p f) s = .next t ∧ (getPort t p).rxFrames = satAdd x.rxFrames 1 ∧
            t.sw.macTable = s.sw.macTable))) ∧
    (∀ f, x.sending = some f → fiPoint s (4 + p.setWidth 16) = none → ∃ t, exec (.frameTransmitDone p) s = .next t ∧
      (getPort t p).txFrames = satAdd x.txFrames 1 ∧ (getPort t p).line = [f]) ∧
    (x.sending = none → exec (.frameTransmitDone p) s = .next s) ∧
    (∀ (vid : BitVec 12) (m : Mac), ∃ t, exec (.macAgeing vid m) s = .next t ∧ t.sw.ports = s.sw.ports ∧
      ∀ e, e ∈ t.sw.macTable ↔ e ∈ s.sw.macTable ∧ ¬(e.1 = vid ∧ e.2.1 = m))

/-- Neighbours are asked again while unresolved and refreshed while held, and the off-link next hop gives way there to a
ROUTER committed meanwhile; ROUTER is committed by its fourth word. A session sends its sender report as RTCP, under SRTCP
where it is protected, and sends none after a BYE or before both directions hold keys; a protected channel still without keys
at the timeout reports REASON 8 once, and the old context is dropped at its expiry (R355, R360-R364, R374). -/
def Obligations.NeighboursAndSessions : Prop :=
  ∀ s : State,
    (∀ (p : PortNo) (ip : Ip) (n : Neighbour), findNeigh s p ip = some n →
      ((getPort s p).hop ≠ ip ∨ (getPort s p).router = ip →
        exec (.neighbourRetry p ip) s = .next (if n.mac.isNone then sendResolve p ip s else s) ∧
        exec (.neighbourRefresh p ip) s = .next (if n.mac.isSome then sendResolve p ip s else s)) ∧
      ((getPort s p).hop = ip → (getPort s p).router ≠ ip → TablesSized s →
        ∀ i, (i = .neighbourRetry p ip ∧ n.mac = none) ∨ (i = .neighbourRefresh p ip ∧ n.mac.isSome = true) →
          ∃ t, exec i s = .next t ∧ findNeigh t p ip = none ∧ (getPort t p).hop = (getPort s p).router)) ∧
    (∀ (p : PortNo) (ip : Ip), findNeigh s p ip = none →
      exec (.neighbourRetry p ip) s = .next s ∧ exec (.neighbourRefresh p ip) s = .next s) ∧
    (∀ (p : PortNo) (v : W32), TablesSized s → ∃ t, exec (.routerCommit p v) s = .next t ∧
      routerWord (getPort t p).router 3 = v ∧
      (∀ k < 3, routerWord (getPort t p).router k = ((getPort s p).routerHold >>> (32 * k)).setWidth 32) ∧
      (getPort t p).routerHold = (getPort s p).routerHold) ∧
    (∀ (c : ChanNo) (x : Chan), findChan s c = some x →
      (let report := fun (l : List Byte) => l.length = 52 ∧ l.take 8 = [0x81, 200, 0, 12] ++ beBytes 4 x.prof.ssrc.toNat ∧
        (l.drop 16).take 8 = beBytes 4 x.rtpTs.toNat ++ beBytes 4 x.tx.toNat
       (x.byeSent = true ∨ (x.prof.srtp = true ∧ (x.txCtx = none ∨ x.rxCtx = none ∨ s.clk.cryptoLost = true)) →
         exec (.senderReport c) s = .next (s.drawN 8)) ∧
       (x.byeSent = false → x.prof.srtp = false →
         ∃ l, report l ∧ exec (.senderReport c) s = .next (sessionSend x true l (s.drawN 8)).2) ∧
       (∀ k : SrtpCtx, x.byeSent = false → x.prof.srtp = true → x.txCtx = some k → x.rxCtx.isSome = true →
         s.clk.cryptoLost = false → ∃ l, report l ∧ exec (.senderReport c) s = .next (sessionSend x true
           (sealRtcp k.key k.salt (0x80000000 ||| k.rtcpIndex.setWidth 32) l)
           (modChan c (fun y => { y with txCtx := some { k with rtcpIndex := k.rtcpIndex + 1 } }) (s.drawN 8))).2)) ∧
      (x.prof.srtp = true → x.rxCtx = none ∨ x.txCtx = none → x.keysLate = false → exec (.keysTimeout c) s =
        .next (raiseChState c 0 8 (modChan c (fun y => { y with keysLate := true }) s))) ∧
      (x.prof.srtp = false ∨ (x.rxCtx.isSome = true ∧ x.txCtx.isSome = true) → exec (.keysTimeout c) s = .next s) ∧
      (∃ t, exec (.oldContextExpiry c) s = .next t ∧ findChan t c = some { x with rxOld := none }))

/-! ### Time (chapter 14) -/

/-- An accepted PPS edge is captured and measured, one within 500 ms is ignored. Time moves on to the phase's next whole
second, where PPS_OUT rises and captures, and to the next change of bit 31 of the time counter, where TIME_HALF is set. Losing
the source enters holdover. An event opens the interval of every enabled probe it starts and
closes that of every one it stops; a mark does so for the one probe it names (R171, R379, R380, R389, R394-R397). -/
def Obligations.EdgesHoldoverAndProbes : Prop :=
  ∀ s : State,
    let near := ∃ e, s.tim.lastPps = some e ∧ uptime s - e < 250000000
    (LanesIdle s → near ∨ s.mode = .reset → exec .ppsInEdge s = .next s) ∧
    (LanesIdle s → ¬near → s.mode ≠ .reset → ∃ t, exec .ppsInEdge s = .next t ∧ t.tim.lastPps = some (uptime s) ∧
      (s.host.lsrc = 1 → t.host.latched = true ∧ t.host.time0 = s.tim.counter.setWidth 16 ∧
        t.host.time1 = (s.tim.counter >>> 16).setWidth 16 ∧ t.tim.stepLatch = s.tim.stepSum) ∧
      (s.tim.src = 3 → t.tim.updates = satAdd s.tim.updates 1 ∧ t.tim.offset = satI32 ((ppsOffset s).tdiv 16)) ∧
      (s.tim.src ≠ 3 → t.tim.updates = s.tim.updates ∧ t.tim.counter = s.tim.counter)) ∧
    (let u := moveTo (nextEdge 1000000000 s.tim) s
     exec .ppsOutEdge s = .next (
      if u.tim.ppsOut = true ∧ pinsActive u = true ∧ u.host.lsrc = 2 then
        (u.setTim { u.tim with stepLatch := u.tim.stepSum }).setHost { u.host with
          time0 := u.tim.counter.setWidth 16, time1 := (u.tim.counter >>> 16).setWidth 16, latched := true }
      else u)) ∧
    (nextEdge 1000000000 s.tim % 1000000000 = 0 ∧ gridNs s.tim ≤ nextEdge 1000000000 s.tim + 2 ∧
      nextEdge 1000000000 s.tim < gridNs s.tim + 1000000000) ∧
    (s.tim.src ≠ 0 → s.tim.holdover = false → ∃ t, exec .holdoverEntry s = .next t ∧ t.tim.holdover = true ∧
      t.tim.locked = false ∧ t.tim.counter = s.tim.counter ∧ (s.tim.everLocked = false → t.tim.y = s.tim.i)) ∧
    (s.tim.src = 0 ∨ s.tim.holdover = true → exec .holdoverEntry s = .next s) ∧
    (s.mode ≠ .reset →
      let u := moveTo (gridNs s.tim + ((2147483648 - s.tim.counter.toNat % 2147483648 : Nat) : Int)) s
      exec .timeHalf s = .next (u.setHost { u.host with irqTimeHalf := true })) ∧
    (s.mode = .reset → s.sch.entries = [] → exec .timeHalf s = .next s ∧ exec .ppsOutEdge s = .next s) ∧
    (∀ (k : Nat) (x : Probe), alFind s.tim.probes k = some x → x.enable = true →
      let now := s.tim.counter - s.tim.stepSum
      let opened : Probe := { x with openAt := some now, restart := if x.openAt.isSome then satAdd x.restart 1 else x.restart }
      let closed : W32 → Probe := fun o => { x with
        openAt := none, interval := if (now - o).toNat < 2 then 0 else now - o, valid := true,
        tie := decide ((now - o).toNat < 2), long := decide (2147483648 ≤ (now - o).toNat) }
      let orphan : Probe := { x with orphan := satAdd x.orphan 1 }
      (∀ code : Byte, code ≠ 0xFF → x.start = code → x.stop ≠ code →
        ∃ t, exec (.probeEvent code) s = .next t ∧ getProbe t k = opened) ∧
      (∀ code : Byte, code ≠ 0xFF → x.start ≠ code → x.stop = code →
        ∃ t, exec (.probeEvent code) s = .next t ∧
          (∀ o, x.openAt = some o → getProbe t k = closed o) ∧ (x.openAt = none → getProbe t k = orphan)) ∧
      (∀ code : Byte, x.start ≠ code → x.stop ≠ code → ∃ t, exec (.probeEvent code) s = .next t ∧ getProbe t k = x) ∧
      exec (.probeEvent 0xFF) s = .next s ∧
      (k < 256 → x.start = 0xFF → ∃ t, exec (.probeMark (BitVec.ofNat 32 k)) s = .next t ∧ getProbe t k = opened ∧
        ∀ j, j ≠ k → getProbe t j = getProbe s j) ∧
      (k < 256 → x.stop = 0xFF → ∃ t, exec (.probeMark (BitVec.ofNat 32 (256 + k))) s = .next t ∧
        (∀ o, x.openAt = some o → getProbe t k = closed o) ∧ (x.openAt = none → getProbe t k = orphan)))

/-- A slave port keeps a Sync until its Follow_Up and its path delay, a master port answers Delay_Req and sends its own
messages, and a port takes no message that its role does not (R391, R392). -/
def Obligations.PtpMessages : Prop :=
  ∀ (p : PortNo) (s : State), TablesSized s → LanesIdle s →
    let x := getPtp s p
    let rx := pairAdd (pairNow s) (-(calEffective s (0x0200 + p.setWidth 16) / 16))
    (x.role = 1 → ∀ (seq : Word) (origin : TimePair),
      exec (.ptpMessage p (.sync seq true origin)) s = .next (putPtp p { x with syncWait := some (seq, rx) } s) ∧
      (∃ t, exec (.ptpMessage p (.sync seq false origin)) s = .next t ∧ (getPtp t p).syncT = some (origin, rx) ∧
        (x.pathDelay.isSome = true → s.tim.src = 1 → t.tim.updates = satAdd s.tim.updates 1)) ∧
      (∀ t2, x.syncWait = some (seq, t2) → ∃ t, exec (.ptpMessage p (.followUp seq origin)) s = .next t ∧
        (getPtp t p).syncT = some (origin, t2) ∧ (getPtp t p).syncWait = none) ∧
      (∀ t1 t2 t3, x.syncT = some (t1, t2) → x.reqT = some (seq, t3) → exec (.ptpMessage p (.delayResp seq origin)) s =
        .next (putPtp p { x with reqT := none, pathDelay := some (8 * (pairDiff t2 t1 + pairDiff origin t3)) } s)) ∧
      (∀ cls, exec (.ptpMessage p (.announce cls)) s = .next (putPtp p { x with upstream := cls } s)) ∧
      (∃ t, exec (.ptpTransmit p .delayReq) s = .next t ∧ (getPtp t p).seqTx = x.seqTx + 1 ∧
        (getPtp t p).reqT = some (x.seqTx, pairAdd (pairNow s) (calEffective s (0x0200 + p.setWidth 16) / 16)))) ∧
    (x.role = 2 → (∀ k, k ≠ PtpSend.delayReq → ∃ t, exec (.ptpTransmit p k) s = .next t ∧
        getPtp t p = { x with seqTx := x.seqTx + 1 }) ∧
      (∀ seq who, ∃ t, exec (.ptpMessage p (.delayReq seq who)) s = .next t ∧ t.tim = s.tim) ∧
      ∀ seq two origin, exec (.ptpMessage p (.sync seq two origin)) s = .next s) ∧
    (x.role = 0 → (∀ m, exec (.ptpMessage p m) s = .next s) ∧ ∀ k, exec (.ptpTransmit p k) s = .next s)

/-! ### DEFLATE (chapter 15) -/

/-- PROD takes at most 64 jobs; the job at CONS ends with its result in its descriptor, its output in its buffer and every
other byte of memory as before; ABORT ends every submitted job (R400, R401, R408, R410, R412). -/
def Obligations.DeflateEngine : Prop :=
  ∀ s : State,
    (∀ v : BitVec 7, exec (.prod v) s = .next (s.setDfl (
      if 64 < (v - s.dfl.cons).toNat then { s.dfl with prodErr := true } else { s.dfl with prod := v }))) ∧
    (dfBusy s = false → exec .deflateJob s = .next s) ∧
    (dfBusy s = true →
      let a := descAddr s.dfl
      let d := readDesc s a
      let r := runJob s d
      ∃ t, exec .deflateJob s = .next t ∧ t.dfl.cons = s.dfl.cons + 1 ∧ t.dfl.prod = s.dfl.prod ∧
        (r.status = 1 → t.dfl.jobsOk = satAdd s.dfl.jobsOk 1 ∧ t.dfl.bytesIn = satAdd s.dfl.bytesIn r.used ∧
          t.dfl.bytesOut = satAdd s.dfl.bytesOut r.out.length ∧ t.dfl.jobsFailed = s.dfl.jobsFailed) ∧
        (r.status ≠ 1 → t.dfl.jobsFailed = satAdd s.dfl.jobsFailed 1 ∧ t.dfl.jobsOk = s.dfl.jobsOk) ∧
        (Memory.wf s.mem → inWindow a 64 = true →
          memRead32 t.mem (a + 4) = pack 32 [(r.status, 0), (b2n r.endSeen, 8)] ∧
          memRead32 t.mem (a + 0x2C) = BitVec.ofNat 32 r.out.length ∧ memRead32 t.mem (a + 0x28) = BitVec.ofNat 32 r.used ∧
          memRead32 t.mem (a + 0x30) = r.check) ∧
        (Memory.wf s.mem → r.status = 1 → ∀ i < r.out.length,
          ¬(d.ctxAddr ≠ 0 ∧ d.ctxAddr ≤ d.outAddr + i ∧ d.outAddr + i < d.ctxAddr + 36864) →
          ¬(a + 4 ≤ d.outAddr + i ∧ d.outAddr + i < a + 8) → ¬(a + 0x28 ≤ d.outAddr + i ∧ d.outAddr + i < a + 0x34) →
          memRead t.mem (d.outAddr + i) = r.out.getD i 0) ∧
        (∀ b : Nat, ¬(d.outAddr ≤ b ∧ b < d.outAddr + d.outLen) → ¬(d.ctxAddr ≠ 0 ∧ d.ctxAddr ≤ b ∧ b < d.ctxAddr + 36864) →
          ¬(a + 4 ≤ b ∧ b < a + 8) → ¬(a + 0x28 ≤ b ∧ b < a + 0x34) → memRead t.mem b = memRead s.mem b)) ∧
    (s.clk.deflateLost = true ∨ s.dfl.prod = s.dfl.cons → exec .abort s = .next s) ∧
    (s.clk.deflateLost = false → s.dfl.prod ≠ s.dfl.cons → ∃ t, exec .abort s = .next t ∧ t.dfl.cons = s.dfl.prod ∧
      t.dfl.prod = s.dfl.prod ∧ t.dfl.jobsOk = s.dfl.jobsOk ∧
      t.dfl.jobsFailed = satAdd s.dfl.jobsFailed (s.dfl.prod - s.dfl.cons).toNat)

/-! ### The serial ports (chapter 16) -/

/-- DATA and the bits of CTRL act on their own port: a character queues or overflows, a read pops one, a break and the card's
lines take their levels, the flushes empty their FIFOs. A good character of 8N1 is stored, one with a low stop bit with its
error, and a break as one; the character in progress is counted when sent, repeated on the card's error signal up to RETRY
and then given up; a collision empties the transmitter (R416, R418, R421-R423, R425, R427, R432, Table 16-5). -/
def Obligations.SerialPorts : Prop :=
  ∀ (n : BitVec 3) (s : State), TablesSized s →
    let u := getUart s n.toNat
    (s.clk.uartLost = false →
      (∀ c : Byte,
        (u.enabled = false → exec (.uartDataWrite n c) s = .next s) ∧
        (u.enabled = true → 32 ≤ u.tx.length →
          exec (.uartDataWrite n c) s = .next (putUart n.toNat { u with fTxovf := true } s)) ∧
        (u.enabled = true → u.tx.length < 32 → u.sending.isSome = true →
          exec (.uartDataWrite n c) s = .next (putUart n.toNat { u with tx := u.tx ++ [c] } s)) ∧
        (u.enabled = true → u.tx = [] → u.sending = none → u.brk = false → u.fColl = false →
          exec (.uartDataWrite n c) s = .next (putUart n.toNat { u with
            sending := some c, repeats := 0, noRepeat := false, de := uDeen u, deTail := false } s))) ∧
      exec (.brk n true) s = .next (putUart n.toNat { u with brk := true } s) ∧
      (u.tx = [] → exec (.brk n false) s = .next (putUart n.toNat { u with brk := false } s)) ∧
      (∀ v, ¬(v = true ∧ u.rstLevel = false ∧ uCard u = true ∧ uConv u = 2) →
        exec (.rst n v) s = .next (putUart n.toNat { u with rstLevel := v } s)) ∧
      (u.rstLevel = false → uCard u = true → uConv u = 2 → exec (.rst n true) s = .next (putUart n.toNat { u with
        rstLevel := true, tsWait := true, inverse := false, convDet := 0, tserr := false } s)) ∧
      (∀ v, exec (.clken n v) s = .next (putUart n.toNat { u with clken := v } s)) ∧
      (∃ t, exec (.txflush n) s = .next t ∧ (getUart t n.toNat).tx = [] ∧ (getUart t n.toNat).rx = u.rx ∧
        (getUart t n.toNat).sending = u.sending) ∧
      exec (.rxflush n) s = .next (putUart n.toNat { u with rx := [] } s)) ∧
    (∀ x l, u.rx = x :: l → exec (.uartDataRead n) s = .next ((putUart n.toNat { u with rx := l } s).setHost { s.host with
      lastAperture := rxWord x })) ∧
    (u.rx = [] → exec (.uartDataRead n) s = .next (s.setHost { s.host with lastAperture := 0 })) ∧
    (s.clk.uartLost = true → ∀ i ∈ [Instr.uartDataWrite n 0x55, .brk n true, .rst n true, .clken n true, .txflush n,
      .rxflush n, .characterSent n false, .deTail n, .collision n], exec i s = .next s) ∧
    (s.clk.uartLost = false →
      let is (i : Instr) (v : Uart) := exec i s = .next (putUart n.toNat v s)
      (j1Enabled s = true → listening u = true → uCard u = false → uBits u = 8 → uParity u = 0 → u.rx.length < 32 →
        (∀ c : Byte, is (.characterReceived n ((List.range 8).map (fun i => c.getLsbD i) ++ [true])) { u with
          rx := u.rx ++ [⟨c, false, false, false⟩], rxChars := satAdd u.rxChars 1, waitHigh := false }) ∧
        (∀ c : Byte, c ≠ 0 → is (.characterReceived n ((List.range 8).map (fun i => c.getLsbD i) ++ [false])) { u with
          rx := u.rx ++ [⟨c, false, true, false⟩], rxChars := satAdd u.rxChars 1, waitHigh := false, fFerr := true,
          errors := satAdd u.errors 1 }) ∧
        is (.characterReceived n (List.replicate 9 false)) { u with
          rx := u.rx ++ [⟨0, false, true, true⟩], rxChars := satAdd u.rxChars 1, waitHigh := true, fFerr := true,
          fBrk := true, errors := satAdd u.errors 1 }) ∧
      (j1Enabled s = false ∨ listening u = false → ∀ l, exec (.characterReceived n l) s = .next s) ∧
      (∀ c, u.sending = some c →
        (uEsig u = false → u.tx = [] → u.de = false → ∀ e, is (.characterSent n e) { u with
          sending := none, repeats := 0, noRepeat := false,
          txChars := if u.repeats = 0 then satAdd u.txChars 1 else u.txChars }) ∧
        (uEsig u = true → u.noRepeat = false → u.repeats < uRetry u → is (.characterSent n true) { u with
          repeats := u.repeats + 1, repeatCount := satAdd u.repeatCount 1,
          txChars := if u.repeats = 0 then satAdd u.txChars 1 else u.txChars }) ∧
        (uEsig u = true → u.noRepeat = false → uRetry u ≤ u.repeats → is (.characterSent n true) { u with
          sending := none, repeats := 0, fTxerr := true, tx := [],
          txChars := if u.repeats = 0 then satAdd u.txChars 1 else u.txChars })) ∧
      (u.sending = none → ∀ e, exec (.characterSent n e) s = .next s) ∧
      (u.deTail = true → is (.deTail n) { u with de := false, deTail := false }) ∧
      (u.deTail = false → exec (.deTail n) s = .next s) ∧
      (u.enabled = true → uMode u = 2 → u.sending.isSome = true → ∃ t, exec (.collision n) s = .next t ∧
        (getUart t n.toNat).fColl = true ∧ (getUart t n.toNat).sending = none ∧ (getUart t n.toNat).tx = [] ∧
        (getUart t n.toNat).rx = u.rx) ∧
      (uMode u ≠ 2 → exec (.collision n) s = .next s))

/-! ### Work in the background (chapters 19 and 20) -/

/-- A round of the cell march waits while FREE is no more than RESERVE and its size; one that finds no bad cell counts as done
and returns its cells. An incomplete group held at an Ethernet transmit point leaves reversed, and a point without one does
nothing. A closed trace segment takes the oldest slot, and none is closed while the trace is stopped (R509, R513, R518, R525,
R526). -/
def Obligations.BackgroundRounds : Prop :=
  ∀ s : State,
    (findWork s 0x0904 (some 3) = none → ∀ n l, exec (.marchRound n l) s = .next s) ∧
    (∀ w, findWork s 0x0904 (some 3) = some w →
      let size := if w.failed = 0 then w.target else w.todo.headD w.target
      (freeCells s ≤ s.qm.reserve.toNat + size → ∀ n l, exec (.marchRound n l) s = .next s) ∧
      (s.qm.reserve.toNat + size < freeCells s → ∀ n, ∃ t, exec (.marchRound n []) s = .next t ∧ t.qm.marching = [] ∧
        t.qm.retired = s.qm.retired ∧ findWork t 0x0904 (some 3) = some { w with done := w.done + 1 })) ∧
    (TablesSized s → s.cmds.main = Lane.idle → s.cmds.image = Lane.idle → s.cmds.fwd = Lane.idle → ∀ p : PortNo,
      let point : Word := 4 + p.setWidth 16
      (fiPoint s point = none → exec (.reorderTimeout point) s = .next s) ∧
      (∀ x, fiPoint s point = some x → x.held ≠ [] → ∃ t, exec (.reorderTimeout point) s = .next t ∧
        fiPoint t point = some { x with held := [] } ∧ (getPort t p).line = lineFrames x.held.reverse)) ∧
    (s.fi.stopped = true ∨ s.fi.segment = [] → exec .traceSegment s = .next s) ∧
    (s.fi.stopped = false → s.fi.segment ≠ [] → ∃ t, exec .traceSegment s = .next t ∧ t.fi.segment = [] ∧
      t.fi.segNo = s.fi.segNo + 1 ∧ t.fi.points = s.fi.points ∧
      ∃ e, alFind t.fi.slots ((s.fi.segNo - 1) % 32) = some e ∧ e.seq = BitVec.ofNat 32 s.fi.segNo)

/-! ### Ismorlink (chapter 17) -/

/-- Three good LINK frames each way train a port or block it by its role or port type; a link declared down keeps its cause;
an acknowledgement ends a frame's wait, and a frame is retried four times; heartbeats go out on every trained port, are
checked against their sequence, and their absence is reported (R433-R435, R452-R454, R480). -/
def Obligations.LinksAndHeartbeats : Prop :=
  ∀ s : State, IsmOpen s → LanesIdle s →
    (∀ (h : IsmHdr) (i : LinkInfo) (acked : Bool), fiPoint s (0x200 + h.port.setWidth 16) = none →
      let x := ismPort s h.port
      let goes (st : LinkState) (cause : BitVec 4) := ∃ t, exec (.link h i acked) s = .next t ∧
        (ismPort t h.port).st = st ∧ (ismPort t h.port).cause = cause ∧ (ismPort t h.port).nb = some i
      (h.crcOk = false → ∃ t, exec (.link h i acked) s = .next t ∧ ismPort t h.port = { x with
        goodLinks := 0, ackedLinks := 0, crcErr := satAdd x.crcErr 1 }) ∧
      (h.crcOk = true → x.st = .trained ∨ x.st = .blocked → exec (.link h i acked) s = .next s) ∧
      (h.crcOk = true → x.st = .down ∨ x.st = .training → s.clk.ethPll = true →
        (x.goodLinks < 2 ∨ x.ackedLinks < 2 ∨ acked = false → ∃ t, exec (.link h i acked) s = .next t ∧
          ismPort t h.port = { x with
            st := .training, goodLinks := x.goodLinks + 1, ackedLinks := if acked then x.ackedLinks + 1 else 0 }) ∧
        (2 ≤ x.goodLinks → 2 ≤ x.ackedLinks → acked = true →
          ((h.port ≠ 0 ∧ i.isUp = true ∧ i.role ≠ .summit) ∨ (h.port = 0 ∧ i.isUp = false ∧ isSummit s = false) →
            goes .trained 0) ∧
          (h.port = 0 → isSummit s = true → goes .blocked 2) ∧ (i.role = .summit → i.isUp = true → goes .blocked 2) ∧
          ((h.port ≠ 0 ∧ i.isUp = false) ∨ (h.port = 0 ∧ i.isUp = true ∧ i.role ≠ .summit ∧ isSummit s = false) →
            goes .blocked 3)))) ∧
    (∀ (p : PortNo) (e : Bool), (ismPort s p).st = .trained → ∃ t, exec (.linkDown p e) s = .next t ∧
      (ismPort t p).st = .down ∧ (ismPort t p).cause = (if e then 4 else 1) ∧
      (p = 0 → s.tim.src = 2 → s.tim.holdover = false → t.tim.holdover = true)) ∧
    (∀ (p : PortNo) (n : Word), let x := ismPort s p
      (x.unacked.find? (fun e => e.1.lseq = n) = none → exec (.ack p n) s = .next s) ∧
      (∀ e, x.unacked.find? (fun e => e.1.lseq = n) = some e → p ≠ 0 ∨ (∀ r, e.1.body ≠ .event r) →
        exec (.ack p n) s = .next (putIsmPort p { x with unacked := x.unacked.filter (fun y => y.1.lseq ≠ n) } s)) ∧
      (∀ e r, x.unacked.find? (fun e => e.1.lseq = n) = some e → p = 0 → e.1.body = .event r →
        ∃ t, exec (.ack p n) s = .next t ∧ t.ism.evtUp = s.ism.evtUp.drop 1) ∧
      (x.unacked = [] → exec (.ackTimeout p) s = .next s) ∧
      (∀ f k r, x.unacked = (f, k) :: r → k < 4 → CanSend p s → ∃ t, exec (.ackTimeout p) s = .next t ∧
        (ismPort t p).unacked = (f, k + 1) :: r ∧ (ismPort t p).retries = satAdd x.retries 1 ∧ Sent p f.body t) ∧
      (∀ f k r, x.unacked = (f, k) :: r → 4 ≤ k → ∃ t, exec (.ackTimeout p) s = .next t ∧ (ismPort t p).st = .down ∧
        (x.st ≠ .down → (ismPort t p).cause = 4))) ∧
    (∃ t, exec .heartbeatSend s = .next t ∧ ∀ p, CanSend p s → ¬(p = 0 ∧ isSummit s = true) →
      Sent p (.heartbeat (ismPort s p).hbSeq (modeCode s.mode) (summitOkNow s) s.saf.safe (testBit s)) t ∧
      (ismPort t p).hbSeq = (ismPort s p).hbSeq + 1) ∧
    (∀ (h : IsmHdr) (seq : Word) (st : BitVec 4) (ok safe test : Bool), Takes false h s → h.noaddr = false →
      (s.ism.monitors.find? (fun m => m.addr = h.src) = none → ∃ t,
        exec (.heartbeat h seq st ok safe test) s = .next t ∧
        t.ism.monitors = s.ism.monitors.filter (fun m => m.addr ≠ h.src) ++ [⟨h.src, h.port, seq, ok⟩] ∧
        (h.port = 0 → t.ism.summitOk = ok)) ∧
      (∀ m, s.ism.monitors.find? (fun m => m.addr = h.src) = some m → m.refSeq = seq → ∃ t,
        exec (.heartbeat h seq st ok safe test) s = .next t ∧
        (ismPort t h.port).hbMiss = satAdd (ismPort s h.port).hbMiss 1 ∧ t.ism.summitOk = s.ism.summitOk)) ∧
    (∀ a : Word,
      (s.ism.monitors.find? (fun m => m.addr = a) = none → exec (.hbTimeout a) s = .next s) ∧
      (∀ m, s.ism.monitors.find? (fun m => m.addr = a) = some m → ∃ t, exec (.hbTimeout a) s = .next t ∧
        t.ism.monitors = s.ism.monitors.filter (fun x => x.addr ≠ a) ∧
        (m.port = 0 → isSummit s = false → t.ism.summitOk = false) ∧
        (m.port ≠ 0 → isSummit s = true → s.host.evtBack = [] → recWords s.host.evtChip + 9 ≤ 2048 →
          ∃ r, t.host.evtChip = s.host.evtChip ++ [r] ∧ r.take 2 = [evSafe ++ (9 : Byte), a] ∧ t.mode = s.mode) ∧
        (m.port ≠ 0 → isSummit s = false → CanSend 0 s → Sent 0 (.hbLoss a) t))) ∧
    (∀ (h : IsmHdr) (a : Word), Takes true h s → h.port ≠ 0 →
      (isSummit s = true → s.host.evtBack = [] → recWords s.host.evtChip + 9 ≤ 2048 → ∃ t r,
        exec (.hbLoss h a) s = .next t ∧ t.host.evtChip = s.host.evtChip ++ [r] ∧
        r.take 2 = [evSafe ++ (9 : Byte), a] ∧ t.mode = s.mode) ∧
      (isSummit s = false → h.hops.toNat < 64 → CanSend 0 s →
        ∃ t, exec (.hbLoss h a) s = .next t ∧ Sent 0 (.hbLoss a) t)) ∧
    (isSummit s = true → exec .summitLost s = .next s) ∧
    (isSummit s = false → ∃ t, exec .summitLost s = .next t ∧ t.ism.summitOk = false ∧
      (s.saf.summitPolicy = 2 → Guarded s → SafeEntered 0x41 s t) ∧
      (s.saf.summitPolicy = 1 → ∀ x, findChan s x.no = some x → x.prof.priority = true → x.safe = none →
        t.saf.safe = true ∨ ∃ y, findChan t x.no = some y ∧ y.safe.isSome = true) ∧
      (s.saf.summitPolicy = 0 → t.saf = s.saf ∧ t.mode = s.mode))

/-- SYNC goes down with the time pair, a child keeps the three times and asks for its delay, a parent answers, and the delay
and offset follow Table 17-6; the first hop settles the servo after two agreeing delays (R456-R458). -/
def Obligations.TimeTransfer : Prop :=
  ∀ s : State, IsmOpen s → LanesIdle s →
    (∃ t, exec .syncSend s = .next t ∧ ∀ p ∈ dnPorts, CanSend p s → Sent p (.sync (pairNow s)) t) ∧
    (∀ (h : IsmHdr) (v : TimePair), Takes false h s →
      (h.port = 0 → CanSend 0 s → ∃ t, exec (.sync h v) s = .next t ∧ t.tim.ismT1 = some v ∧
        t.tim.ismT2 = pairNow s ∧ t.tim.ismT3 = pairNow s ∧ Sent 0 (.delayReq (pairNow s)) t) ∧
      (h.port ≠ 0 → CanSend h.port s → ∃ t, exec (.delayReq h v) s = .next t ∧ (ismPort t h.port).t3 = some v ∧
        Sent h.port (.delayResp (pairNow s)) t) ∧
      (h.port ≠ 0 → (∃ t, exec (.sync h v) s = .next t ∧ t.tim = s.tim) ∧ ∃ t, exec (.delayResp h v) s = .next t ∧ t.tim = s.tim) ∧
      (h.port = 0 → (s.tim.ismT1 = none → ∃ t, exec (.delayResp h v) s = .next t ∧ t.tim = s.tim) ∧
        ∀ t1, s.tim.ismT1 = some t1 →
          let delay := 8 * (pairDiff s.tim.ismT2 t1 + pairDiff v s.tim.ismT3)
          let off := (16 * (pairDiff s.tim.ismT2 t1 - pairDiff v s.tim.ismT3) - calEffective s 0x0400) / 2
          let settled := s.tim.ismSettled = true ∨ ∃ l, s.tim.ismLastDelay = some l ∧ (delay - l).natAbs ≤ 256
          ∃ t, exec (.delayResp h v) s = .next t ∧ (ismPort t 0).delay = satI32 delay ∧ (ismPort t 0).offset = satI32 off ∧
            t.tim.ismT1 = none ∧ t.tim.ismLastDelay = some delay ∧ (t.tim.ismSettled = true ↔ settled) ∧
            (settled → s.tim.src = 2 → t.tim.updates = satAdd s.tim.updates 1) ∧
            (¬settled ∨ s.tim.src ≠ 2 → t.tim.updates = s.tim.updates)))

/-- On a spur a search takes its epoch and role from BEGIN, answers queries and claims for its own UID, reports a conflict or
a missed claim, and takes or releases its address; frames of a child go up (R437, R438, R440-R447, R460). -/
def Obligations.SearchOnSpur : Prop :=
  ∀ (h : IsmHdr) (s : State), Takes true h s → LanesIdle s → isSummit s = false →
    let me := s.hw.uid
    let nb := (ismPort s 0).nb
    (h.port = 0 → CanSend 0 s →
      (∀ full : Bool, h.hops.toNat < 64 → ∃ t, exec (.searchBegin h full) s = .next t ∧ t.ism.epoch = h.ctx ∧
        t.ism.beginSeen = true ∧ t.ism.participant = (full || s.ism.addr.isNone) ∧ t.ism.claimed = false ∧
        t.ism.addr = (if full then none else s.ism.addr) ∧ t.ism.depth = h.hops ∧ t.ism.beginPorts = trainedDn s ∧
        ∀ p ∈ dnPorts, CanSend p s → Sent p (.searchBegin full) t) ∧
      (∀ full : Bool, h.hops = 64 → ∃ t, exec (.searchBegin h full) s = .next t ∧ t.ism.beginPorts = [] ∧
        t.ism.tooDeep = satAdd s.ism.tooDeep (trainedDn s).length) ∧
      (s.ism.beginSeen = true → s.ism.epoch = h.ctx →
        (∀ (qid : Word) (len : BitVec 6) (bits : Uid),
          let own := { emptyAnswer qid false with
            mask := if s.ism.participant && prefixIs me bits len.toNat then BitVec.ofNat 16 (2 ^ nibbleAt me len.toNat) else 0 }
          (searchPorts s = [] → ∃ t, exec (.query h qid len bits) s = .next t ∧ Sent 0 (.searchReply own) t) ∧
          (searchPorts s ≠ [] → ∃ t, exec (.query h qid len bits) s = .next t ∧
            t.ism.merges = s.ism.merges ++ [⟨qid, searchPorts s, own⟩])) ∧
        (∀ qid : Word, searchPorts s = [] → ∃ t, exec (.claim h qid me) s = .next t ∧ t.ism.claimed = true ∧
          Sent 0 (.searchReply (if s.ism.participant then { emptyAnswer qid true with
            mask := 1, uid := me, parentUid := (nb.map LinkInfo.uid).getD 0, depth := s.ism.depth.setWidth 8, lpv := s.ism.lpv }
            else emptyAnswer qid true)) t) ∧
        (∃ t, exec (.mark h me) s = .next t ∧ t.ism.claimed = true ∧ t.ism.conflict = true ∧
          Sent 0 (.conflict me ((nb.map LinkInfo.uid).getD 0) (nb.bind LinkInfo.addr) 0) t) ∧
        (∃ t, exec (.searchEnd h) s = .next t ∧ t.ism.beginSeen = false ∧ t.ism.participant = false ∧ t.ism.merges = [] ∧
          (s.ism.participant = true → s.ism.addr = none → s.ism.claimed = false → Sent 0 (.missed me) t))) ∧
      (s.ism.beginSeen = false ∨ s.ism.epoch ≠ h.ctx → ∀ qid len bits,
        ∃ t, exec (.query h qid len bits) s = .next t ∧ t.ism.merges = s.ism.merges) ∧
      (∀ (addr : Word) (hold : Bool), poeStandby s = false → tooHot s = false →
        (∃ t, exec (.address h me addr hold false) s = .next t ∧ t.ism.addr = some addr ∧ t.ism.conflict = false ∧
          (hold = true → s.mode ∈ [Mode.ready, .run, .degraded] → t.mode = .held ∧ t.led.chans = []) ∧
          (hold = false → s.mode = .held → t.mode = .ready) ∧
          (hold = false → s.mode = .run → t.mode = .run ∧ Sent 0 (.addrAck addr me) t)) ∧
        (∃ t, exec (.address h me addr hold true) s = .next t ∧ t.ism.addr = none ∧ t.ism.conflict = true) ∧
        (∀ u, u ≠ me → ∃ t, exec (.address h u addr hold false) s = .next t ∧ t.ism.addr = s.ism.addr))) ∧
    (h.port ≠ 0 → h.hops.toNat < 64 → CanSend 0 s → ∀ (port : PortNo) (u : Uid) (a : Word),
      ∀ e ∈ [(Instr.attach h port, IsmBody.attach port), (.loss h port (some a) u, .loss port (some a) u),
        (.move h port u none, .move port u none), (.missed h u, .missed u), (.addrAck h a u, .addrAck a u),
        (.pingReply h a 0, .pingReply a 0), (.mgmtRsp h a a [a], .mgmtRsp a a [a])],
        ∃ t, exec e.1 s = .next t ∧ Sent 0 e.2 t) ∧
    (h.port ≠ 0 → h.hops.toNat < 64 → CanSend 0 s → ∀ u pu parent port, ∃ t, exec (.conflict h u pu parent port) s = .next t ∧
      Sent 0 (.conflict u pu parent (if h.hops = 1 then h.port - 1 else port)) t)

/-- The summit hears of new links, losses, moves and missed modules, learns routes, reports conflicts, starts the search that
waits and pings what may be lost; replies of a hop are merged, and a wait that ends is answered without the missing
(R438, R442, R444, R446-R448, R455). -/
def Obligations.SummitTopology : Prop :=
  ∀ s : State, IsmOpen s → LanesIdle s →
    (∀ h : IsmHdr, Takes true h s → h.port ≠ 0 → isSummit s = true →
      (∀ port, ∃ t, exec (.attach h port) s = .next t ∧ t.ism.searchDue = true ∧
        (h.noaddr = false → s.host.evtBack = [] → recWords s.host.evtChip + 7 ≤ 1984 → ∃ r,
          t.host.evtChip = s.host.evtChip ++ [r] ∧ r.take 3 = [evAttach ++ (7 : Byte), h.src, 1] ∧
          r.drop 5 = [h.src, port.setWidth 16])) ∧
      (∀ u, ∃ t, exec (.missed h u) s = .next t ∧ t.ism.searchDue = true) ∧
      (∀ port a u w, s.ism.walk = some w → w.pinging = false → (h.src, port) ∉ w.late →
        ∃ t, exec (.loss h port a u) s = .next t ∧ t.ism.walk = some { w with emptyBranches := w.emptyBranches + 1 }) ∧
      (∀ port u a e, topoByUid s u = some e → ∃ t, exec (.move h port u a) s = .next t ∧
        ∃ y ∈ t.ism.table, y.uid = u ∧ y.parent = h.src ∧ y.port = port) ∧
      (∀ a u, ∃ t, exec (.addrAck h a u) s = .next t ∧ routeOf t a = some h.port) ∧
      (∀ u pu parent port, let port' := if h.hops = 1 then h.port - 1 else port
        (∀ w, s.ism.walk = some w → w.pinging = false → ∃ t, exec (.conflict h u pu parent port) s = .next t ∧
          t.ism.walk = some { w with reported := w.reported ++ [(u, parent, port')] }) ∧
        (s.ism.walk = none → s.host.evtBack = [] → recWords s.host.evtChip + 11 ≤ 1984 →
          ∃ t r, exec (.conflict h u pu parent port) s = .next t ∧ t.host.evtChip = s.host.evtChip ++ [r] ∧
            r.take 3 = [evConflict ++ (11 : Byte), 0, 3] ∧ r.drop 5 = words4 u ++ [parent.getD 0, pack 16 [(port'.toNat, 0), (b2n parent.isNone, 15)]])) ∧
      (∀ seq st, s.ism.walk = none → ∃ t, exec (.pingReply h seq st) s = .next t ∧
        (∀ e ∈ t.ism.table, e.addr = h.src → e.imageStatus = st) ∧ ∀ e ∈ t.ism.lossPings, e.1 ≠ h.src)) ∧
    (∀ (h : IsmHdr) (a : SearchAnswer) (m : Merge), Takes true h s → h.port ≠ 0 →
      s.ism.merges.find? (fun m => m.qid = a.qid && h.port ∈ m.waiting) = some m →
      let a' := if a.claim && a.depth.toNat = s.ism.depth.toNat + 1 then { a with parentPort := h.port - 1 } else a
      let left := m.waiting.filter (fun q => q ≠ h.port)
      (left ≠ [] → ∃ t, exec (.searchReply h a) s = .next t ∧ ⟨a.qid, left, mergeAnswers m.answer a'⟩ ∈ t.ism.merges) ∧
      (left = [] → isSummit s = false → CanSend 0 s → ∃ t, exec (.searchReply h a) s = .next t ∧
        Sent 0 (.searchReply (mergeAnswers m.answer a')) t ∧ ∀ x ∈ t.ism.merges, x.qid ≠ a.qid)) ∧
    (∀ qid, (s.ism.merges.find? (fun m => m.qid = qid) = none → exec (.searchReplyTimeout qid) s = .next s) ∧
      ∀ m, s.ism.merges.find? (fun m => m.qid = qid) = some m → isSummit s = false → CanSend 0 s →
        ∃ t, exec (.searchReplyTimeout qid) s = .next t ∧ Sent 0 (.searchReply m.answer) t ∧
          ∀ x ∈ t.ism.merges, x.qid ≠ qid) ∧
    (isSummit s = true → s.ism.autoSearch = true → s.ism.searchDue = true → s.ism.walk = none →
      ∃ t, exec .autoSearchStart s = .next t ∧ t.ism.epoch = s.ism.epoch + 1 ∧ t.ism.searchDue = false ∧
        t.ism.walk.isSome = true) ∧
    (isSummit s = false ∨ s.ism.autoSearch = false ∨ s.ism.searchDue = false ∨ s.ism.walk.isSome = true →
      exec .autoSearchStart s = .next s) ∧
    (∀ a : Word,
      (isSummit s = false → exec (.lossPing a) s = .next s) ∧
      (isSummit s = true → ∃ t, exec (.lossPing a) s = .next t ∧ ∀ x ∈ subtree s a,
        s.ism.lossPings.any (fun e => e.1 = x) = false → (∀ e, topoByAddr s x = some e → e.silent = false) →
        (x, 0) ∈ t.ism.lossPings) ∧
      (s.ism.walk = none → ∃ t, exec (.pingTimeout a) s = .next t ∧ t.ism.lossPings = missPing a s.ism.lossPings ∧
        (∀ e, topoByAddr s a = some e → s.ism.lossPings.any (fun x => x.1 = a) = true →
          (missPing a s.ism.lossPings).any (fun x => x.1 = a) = false →
          ∃ y, topoByAddr t a = some y ∧ y.silent = true)))

/-- A command for another module joins its lane there, its answer comes back to the FORWARD or the FORWARD times out; events
of spurs are stored at the summit; pings are answered; a broadcast is run by every spur and its replies are gathered until
the last or the deadline (R194, R438, R446, R450, R451, R461). -/
def Obligations.RemoteCommands : Prop :=
  ∀ s : State, IsmOpen s →
    (∀ (h : IsmHdr) (op tag : Word) (args : List Word), Takes true h s → h.port = 0 →
      (∀ c r, s.ism.addr = some h.dest → laneOf op = 0 → s.cmds.main = ⟨some c, r⟩ → c.op ≠ 0x0303 →
        s.cmds.image = Lane.idle → s.cmds.fwd = Lane.idle → ∃ t, exec (.mgmtReq h op tag args) s = .next t ∧
          t.cmds.main = ⟨some c, r ++ [⟨op, tag, args, true, .forwarded h.src tag⟩]⟩) ∧
      (s.ism.addr = some h.dest → LanesIdle s → CanSend 0 s → ∃ t, exec (.mgmtReq h 0x0105 tag []) s = .next t ∧
        Sent 0 (.mgmtRsp stOk tag (versionWords s)) t) ∧
      (s.ism.addr ≠ some h.dest → LanesIdle s → routeOf s h.dest = none → ∃ t, exec (.mgmtReq h op tag args) s = .next t ∧
        t.ism.noroute = satAdd s.ism.noroute 1) ∧
      (∀ p, s.ism.addr ≠ some h.dest → LanesIdle s → routeOf s h.dest = some p → CanSend p s → h.hops.toNat < 64 →
        (∃ t, exec (.mgmtReq h op tag args) s = .next t ∧ Sent p (.mgmtReq op tag args) t) ∧
        ∀ seq, ∃ t, exec (.ping h seq) s = .next t ∧ Sent p (.ping seq) t) ∧
      (∀ seq, s.ism.addr = some h.dest → LanesIdle s → CanSend 0 s → ∃ t, exec (.ping h seq) s = .next t ∧
        Sent 0 (.pingReply seq s.ism.imageStatus) t) ∧
      (∀ c r dl, laneOf op = 1 → s.cmds.image = ⟨some c, r⟩ → s.cmds.main = Lane.idle → s.cmds.fwd = Lane.idle →
        ∃ t, exec (.bcast h op tag args dl) s = .next t ∧
          t.cmds.image = ⟨some c, r ++ [⟨op, tag, args.set 0 0, true, .broadcast⟩]⟩ ∧
          t.ism.gathers = s.ism.gathers.filter (fun x => x.tag ≠ tag) ++
            [⟨op, tag, if h.hops.toNat < 64 then trainedDn s else [], none, ⟨0, 0, 0⟩, false⟩]) ∧
      (∀ dl, laneOf op ≠ 1 → LanesIdle s → ∃ t, exec (.bcast h op tag args dl) s = .next t ∧
        t.ism.gathers = s.ism.gathers ∧ t.cmds = s.cmds)) ∧
    (∀ (h : IsmHdr) (c : Issued) (st : Word) (ws : List Word), Takes true h s → h.port ≠ 0 → isSummit s = true →
      s.cmds.main = Lane.idle → s.cmds.image = Lane.idle → s.cmds.fwd = ⟨some c, []⟩ → arg c.args 0 = h.src →
      ∃ t, exec (.mgmtRsp h st c.tag ws) s = .next t ∧ t.cmds.fwd = Lane.idle ∧
        t.host.responses = s.host.responses ++ [⟨stOk, c.tag, [st, BitVec.ofNat 16 ws.length] ++ ws⟩]) ∧
    (∀ c, s.cmds.main = Lane.idle → s.cmds.image = Lane.idle → s.cmds.fwd = ⟨some c, []⟩ →
      (arg c.args 0 = 0 → exec .forwardTimeout s = .next s) ∧
      (arg c.args 0 ≠ 0 → c.origin = .host → ∃ t, exec .forwardTimeout s = .next t ∧ t.cmds.fwd = Lane.idle ∧
        t.host.responses = s.host.responses ++ [⟨stTimeout, c.tag, []⟩])) ∧
    (∀ (h : IsmHdr) (r : List Word), Takes true h s → h.port ≠ 0 → LanesIdle s →
      (isSummit s = true → s.host.evtBack = [] → recWords s.host.evtChip + r.length ≤ 1984 →
        ∃ t, exec (.event h r) s = .next t ∧ t.host.evtChip = s.host.evtChip ++ [r.set 2 (arg r 2 ||| 1)]) ∧
      (isSummit s = false → s.ism.evtUp.length < 56 → ∃ t, exec (.event h r) s = .next t ∧ t.ism.evtUp = s.ism.evtUp ++ [r]) ∧
      (isSummit s = false → 64 ≤ s.ism.evtUp.length → ∃ t, exec (.event h r) s = .next t ∧ t.ism.evtUp = s.ism.evtUp ∧
        t.ism.evtDrop = satAdd s.ism.evtDrop 1)) ∧
    (∀ (h : IsmHdr) (c : BcastCounts) (g : Gather), Takes true h s → h.port ≠ 0 → LanesIdle s → s.ism.gathers = [g] →
      g.tag = h.ctx → h.port ∈ g.waiting →
      let g' := { g with waiting := g.waiting.filter (fun q => q ≠ h.port),
                         counts := ⟨g.counts.addressed + c.addressed, g.counts.ok + c.ok, g.counts.other + c.other⟩ }
      (g'.waiting ≠ [] ∨ g.own = none → ∃ t, exec (.bcastReply h c) s = .next t ∧ t.ism.gathers = [g']) ∧
      (g'.waiting = [] → g.own.isSome = true → g.atSummit = false → CanSend 0 s → ∃ t, exec (.bcastReply h c) s = .next t ∧
        t.ism.gathers = [] ∧ Sent 0 (.bcastReply (ownCounts g')) t)) ∧
    (∀ g, LanesIdle s → s.ism.gathers = [g] → g.atSummit = false → CanSend 0 s →
      ∃ t, exec .bcastDeadline s = .next t ∧ t.ism.gathers = [] ∧ Sent 0 (.bcastReply (ownCounts { g with
        waiting := [], counts := { g.counts with addressed := g.counts.addressed + g.waiting.length } })) t) ∧
    (LanesIdle s → s.ism.gathers = [] → exec .bcastDeadline s = .next s)
end

