-- ==== Sys2Proof/Laws/Parts.lean ====
section
/-! SUPPORT. Lists of parts of the state, each what some operations may touch; every longer list that Laws/Keeps*.lean
names stands here. -/

namespace Sys2Proof.Machine

def parts01 : List Part := [.boot, .host, .cmds, .ism, .fi, .free]
def parts02 : List Part := [.pwr, .host, .led, .ism, .cal, .fi]
def parts03 : List Part := [.host, .cmds, .qm, .ism, .fi, .free]
def parts04 : List Part := [.host, .cmds, .ism, .cal, .fi, .free]
def parts05 : List Part := [.host, .led, .qm, .ism, .fi, .free]
def parts06 : List Part := [.host, .qm, .sw, .ism, .fi, .free]
def parts07 : List Part := [.host, .qm, .ism, .fi, .mem, .free]
def parts08 : List Part := [.boot, .pwr, .host, .cmds, .ism, .cal, .fi]
def parts09 : List Part := [.boot, .clk, .host, .led, .ism, .fi, .free]
def parts10 : List Part := [.pwr, .pins, .host, .cmds, .tdm, .ism, .fi]
def parts11 : List Part := [.pwr, .host, .cmds, .tdm, .ism, .cal, .fi]
def parts12 : List Part := [.clk, .host, .sw, .tim, .ism, .cal, .fi]
def parts13 : List Part := [.host, .led, .qm, .sw, .ism, .fi, .free]
def parts14 : List Part := [.host, .sch, .qm, .ism, .fi, .mem, .free]
def parts15 : List Part := [.host, .qm, .sw, .tim, .ism, .fi, .free]
def parts16 : List Part := [.boot, .host, .cmds, .sch, .ten, .ism, .fi, .mem]
def parts17 : List Part := [.host, .led, .sch, .qm, .ism, .fi, .mem, .free]
def parts18 : List Part := [.host, .sch, .qm, .sw, .ism, .fi, .mem, .free]
def parts19 : List Part := [.boot, .host, .led, .sch, .qm, .ism, .fi, .mem, .free]
def parts20 : List Part := [.host, .led, .sch, .qm, .ten, .ism, .fi, .mem, .free]
def parts21 : List Part := [.host, .led, .sch, .qm, .sw, .ism, .fi, .mem, .free]
def parts22 : List Part := [.sch, .qm, .sw, .tdm, .tim, .dfl, .uarts, .ism, .free]
def parts23 : List Part := [.boot, .host, .cmds, .led, .sch, .qm, .ism, .fi, .mem, .free]
def parts24 : List Part := [.host, .led, .sch, .qm, .vcs, .ten, .ism, .fi, .mem, .free]
def parts25 : List Part := [.host, .led, .sch, .qm, .sw, .ism, .saf, .cal, .fi, .free]
def parts26 : List Part := [.sch, .qm, .ten, .sw, .tdm, .tim, .dfl, .uarts, .ism, .free]
def parts27 : List Part := [.boot, .host, .led, .sch, .qm, .sw, .ism, .saf, .cal, .fi, .free]
def parts28 : List Part := [.pwr, .host, .led, .sch, .qm, .sw, .ism, .saf, .cal, .fi, .free]
def parts29 : List Part := [.host, .cmds, .led, .sch, .qm, .sw, .ism, .saf, .cal, .fi, .free]
def parts30 : List Part := [.host, .sch, .qm, .ten, .sw, .tdm, .tim, .dfl, .uarts, .ism, .free]
def parts31 : List Part := [.boot, .host, .led, .sch, .qm, .ten, .sw, .ism, .saf, .cal, .fi, .mem, .free]
def parts32 : List Part := [.pwr, .host, .cmds, .led, .sch, .qm, .sw, .tdm, .ism, .saf, .cal, .fi, .free]
def parts33 : List Part := [.host, .led, .sch, .qm, .sw, .tdm, .tim, .dfl, .uarts, .ism, .fi, .mem, .free]
def parts34 : List Part := [.boot, .pwr, .pins, .host, .cmds, .led, .qm, .sw, .tdm, .ism, .saf, .fi, .mem, .free]
def parts35 : List Part := [.boot, .host, .cmds, .led, .sch, .qm, .ten, .sw, .ism, .saf, .cal, .fi, .mem, .free]
def parts36 : List Part := [.host, .led, .sch, .qm, .ten, .sw, .tdm, .tim, .dfl, .uarts, .ism, .fi, .mem, .free]
def parts37 : List Part := [.boot, .pwr, .pins, .host, .cmds, .led, .sch, .qm, .sw, .tdm, .ism, .saf, .fi, .mem, .free]
def parts38 : List Part := [.boot, .pwr, .pins, .host, .cmds, .led, .qm, .sw, .tdm, .ism, .saf, .cal, .fi, .mem, .free]
def parts39 : List Part := [.host, .led, .sch, .qm, .vcs, .ten, .sw, .tdm, .tim, .dfl, .uarts, .ism, .fi, .mem, .free]
def parts40 : List Part := [.boot, .pwr, .pins, .host, .cmds, .led, .sch, .qm, .ten, .sw, .tdm, .ism, .saf, .fi, .mem, .free]
def parts41 : List Part := [.boot, .pwr, .pins, .host, .cmds, .led, .sch, .qm, .sw, .tdm, .ism, .saf, .cal, .fi, .mem, .free]
def parts42 : List Part := [.boot, .host, .led, .sch, .qm, .vcs, .ten, .sw, .tdm, .dfl, .uarts, .ism, .saf, .cal, .fi, .free]
def parts43 : List Part := [.boot, .pwr, .pins, .host, .cmds, .led, .sch, .qm, .sw, .tdm, .tim, .ism, .saf, .cal, .fi, .mem, .free]
def parts44 : List Part := [.boot, .pwr, .host, .led, .sch, .qm, .vcs, .ten, .sw, .tdm, .dfl, .uarts, .ism, .saf, .cal, .fi, .free]
def parts45 : List Part := [.boot, .therm, .host, .led, .sch, .qm, .vcs, .ten, .sw, .tdm, .dfl, .uarts, .ism, .saf, .cal, .fi, .free]
def parts46 : List Part := [.boot, .pwr, .pins, .clk, .host, .cmds, .led, .sch, .qm, .sw, .tdm, .tim, .ism, .saf, .cal, .fi, .mem, .free]
def parts47 : List Part := [.boot, .pwr, .host, .cmds, .led, .sch, .qm, .vcs, .ten, .sw, .tdm, .dfl, .uarts, .ism, .saf, .cal, .fi, .free]
def parts48 : List Part := [.boot, .pwr, .pins, .clk, .host, .cmds, .led, .sch, .qm, .ten, .sw, .tdm, .tim, .ism, .saf, .cal, .fi, .mem, .free]
def parts49 : List Part := [.boot, .pwr, .pins, .host, .cmds, .led, .sch, .qm, .vcs, .ten, .sw, .tdm, .dfl, .uarts, .ism, .saf, .cal, .fi, .mem, .free]
def parts50 : List Part := [.boot, .pwr, .therm, .pins, .clk, .host, .cmds, .led, .sch, .qm, .vcs, .ten, .sw, .tdm, .tim, .dfl, .uarts, .ism, .saf, .cal, .fi]
def parts51 : List Part := [.boot, .pwr, .therm, .pins, .clk, .host, .cmds, .led, .sch, .qm, .vcs, .ten, .sw, .tdm, .tim, .dfl, .uarts, .ism, .saf, .cal, .fi, .free]
def parts52 : List Part := [.boot, .pwr, .pins, .clk, .host, .cmds, .led, .sch, .qm, .vcs, .ten, .sw, .tdm, .tim, .dfl, .uarts, .ism, .saf, .cal, .fi, .mem, .free]
def parts53 : List Part := [.boot, .pwr, .therm, .pins, .clk, .host, .cmds, .led, .sch, .qm, .vcs, .ten, .sw, .tdm, .tim, .dfl, .uarts, .ism, .saf, .cal, .fi, .mem, .free]

end Sys2Proof.Machine
end

