-- ==== Sys2Proof/Laws/Keeps.lean ====
section
/-! SUPPORT. What every operation of the model keeps, said once: every part of the state that it does not name, the
canonical form of memory, and that the rollback counter and the count of free values only rise. -/

namespace Sys2Proof.Machine

/-! ### Memory -/

theorem memWrite_mem {m : List Host.Cell} {a : Nat} {b : Byte} {x : Host.Cell} (hx : x ∈ memWrite m a b) :
    x ∈ m ∨ (x = (a, b) ∧ b ≠ 0) := by
  induction m with
  | nil =>
    unfold memWrite at hx
    split at hx <;> simp_all
  | cons y r ih => grind [memWrite]

/-- A write of one byte keeps the canonical form. -/
theorem memWrite_wf {m : List Host.Cell} {a : Nat} {b : Byte} (h : Memory.wf m) : Memory.wf (memWrite m a b) := by
  induction m with
  | nil => unfold memWrite; split <;> simp_all [Memory.wf]
  | cons y r ih =>
    obtain ⟨a', b'⟩ := y
    obtain ⟨hp, hz⟩ := h
    have hr : Memory.wf r := ⟨(List.pairwise_cons.1 hp).2, fun x hx => hz x (List.mem_cons_of_mem _ hx)⟩
    have hlt := (List.pairwise_cons.1 hp).1
    unfold memWrite
    split
    · split
      · exact ⟨hp, hz⟩
      · refine ⟨List.pairwise_cons.2 ⟨fun x hx => ?_, hp⟩, fun x hx => ?_⟩
        · rcases List.mem_cons.1 hx with rfl | hx
          · assumption
          · have := hlt x hx; simp only at this ⊢; omega
        · rcases List.mem_cons.1 hx with rfl | hx
          · assumption
          · exact hz x hx
    · split
      · split
        · exact hr
        · subst a
          refine ⟨List.pairwise_cons.2 ⟨hlt, hr.1⟩, fun x hx => ?_⟩
          rcases List.mem_cons.1 hx with rfl | hx
          · assumption
          · exact hr.2 x hx
      · have hw := ih hr
        refine ⟨List.pairwise_cons.2 ⟨fun x hx => ?_, hw.1⟩, fun x hx => ?_⟩
        · rcases memWrite_mem hx with hx | ⟨rfl, _⟩
          · exact hlt x hx
          · simp only; omega
        · rcases List.mem_cons.1 hx with rfl | hx
          · exact hz _ (List.mem_cons_self ..)
          · exact hw.2 x hx

theorem memWriteList_wf {m : List Host.Cell} {a : Nat} {l : List Byte} (h : Memory.wf m) :
    Memory.wf (memWriteList m a l) := by
  induction l generalizing m a with
  | nil => exact h
  | cons b r ih => exact ih (memWrite_wf h)

theorem memWrite32_wf {m : List Host.Cell} {a : Nat} {v : W32} {be : BitVec 4} (h : Memory.wf m) :
    Memory.wf (memWrite32 m a v be) := by
  unfold memWrite32
  dsimp only
  repeat' first | assumption | apply memWrite_wf | split

/-- Bytes taken out of the list leave it canonical. -/
theorem memFilter_wf {m : List Host.Cell} {p : Host.Cell → Bool} (h : Memory.wf m) : Memory.wf (m.filter p) :=
  ⟨h.1.sublist List.filter_sublist, fun x hx => h.2 x (List.mem_filter.1 hx).1⟩

/-- A read of the byte just written gives it. -/
theorem memRead_memWrite_same {m : List Host.Cell} {a : Nat} {b : Byte} (h : Memory.wf m) :
    memRead (memWrite m a b) a = b := by
  induction m with
  | nil => unfold memWrite; split <;> simp_all [memRead]
  | cons y r ih =>
    obtain ⟨a', b'⟩ := y
    obtain ⟨hp, hz⟩ := h
    have hlt := (List.pairwise_cons.1 hp).1
    have hr : Memory.wf r := ⟨(List.pairwise_cons.1 hp).2, fun x hx => hz x (List.mem_cons_of_mem _ hx)⟩
    have absent : ∀ l : List Host.Cell, (∀ x ∈ l, a < x.1) → memRead l a = 0 := by
      intro l hl
      induction l with
      | nil => rfl
      | cons z t iht =>
        obtain ⟨a'', b''⟩ := z
        have h1 := hl _ (List.mem_cons_self ..)
        simp only at h1
        unfold memRead
        rw [if_neg (by omega)]
        exact iht fun x hx => hl x (List.mem_cons_of_mem _ hx)
    unfold memWrite
    split
    · split
      · rename_i h0
        rw [h0]
        apply absent
        intro x hx
        rcases List.mem_cons.1 hx with rfl | hx
        · assumption
        · have := hlt x hx; simp only at this; omega
      · simp [memRead]
    · split
      · subst a
        split
        · rename_i h0
          rw [h0]
          exact absent r hlt
        · simp [memRead]
      · unfold memRead
        rw [if_neg (by omega)]
        exact ih hr

/-- A write leaves every other byte alone. -/
theorem memRead_memWrite_ne {m : List Host.Cell} {a c : Nat} {b : Byte} (h : c ≠ a) :
    memRead (memWrite m a b) c = memRead m c := by
  induction m with
  | nil => unfold memWrite; split <;> simp [memRead]; omega
  | cons y r ih =>
    obtain ⟨a', b'⟩ := y
    unfold memWrite
    split
    · split
      · rfl
      · simp [memRead]; omega
    · split
      · subst a
        split
        · conv => rhs; unfold memRead
          rw [if_neg (by omega)]
        · unfold memRead; rw [if_neg (by omega), if_neg (by omega)]
      · unfold memRead; rw [ih]

/-! ### What a change keeps -/

theorem Part.same_trans {p : Part} {s t u : State} (h : p.same s t) (k : p.same t u) : p.same s u := by
  cases p <;> exact Eq.trans k h

/-- Every part of `a` is in `b`. -/
def Part.within (a b : List Part) : Bool := a.all (fun p => b.contains p)

theorem Part.within_mem {a b : List Part} (h : Part.within a b = true) {p : Part} (hp : p ∈ a) : p ∈ b := by
  have := List.all_eq_true.1 h p hp
  simpa using this

theorem Part.within_trans {a b c : List Part} (h : Part.within a b = true) (k : Part.within b c = true) :
    Part.within a c = true := by
  refine List.all_eq_true.2 fun p hp => ?_
  simpa using Part.within_mem k (Part.within_mem h hp)

/-- `t` comes from `s` by a change of the parts in `L` that keeps the form of memory and the sizes of the tables, and
lowers neither the rollback counter nor the count of free values. -/
structure Keeps (L : List Part) (s t : State) : Prop where
  frame : Touches L s t
  mem : Memory.wf s.mem → Memory.wf t.mem
  rollback : s.boot.rollback.toNat ≤ t.boot.rollback.toNat
  free : s.free ≤ t.free
  sized : TablesSized s → TablesSized t

theorem Keeps.refl (L : List Part) (s : State) : Keeps L s s :=
  ⟨fun p _ => by cases p <;> rfl, id, Nat.le_refl _, Nat.le_refl _, id⟩

section
variable {L : List Part}

/-- A change whose result may be missing keeps where it gives one. -/
def KeepsO (L : List Part) {α : Type} (s : State) (o : Option (State × α)) : Prop := ∀ t a, o = some (t, a) → Keeps L s t

def KeepsE (L : List Part) {ε : Type} (s : State) (o : Except ε State) : Prop := ∀ t, o = .ok t → Keeps L s t

def KeepsEP (L : List Part) {ε α : Type} (s : State) (o : Except ε (State × α)) : Prop := ∀ t a, o = .ok (t, a) → Keeps L s t

def KeepsN (L : List Part) (s : State) (o : Host.Outcome State Fault Refusal) : Prop := ∀ t, o = .next t → Keeps L s t

def KeepsR (L : List Part) {ε α : Type} (s : State) (o : Except ε (α × State)) : Prop := ∀ a t, o = .ok (a, t) → Keeps L s t

theorem KeepsR.error {ε α : Type} {s : State} {e : ε} : KeepsR L s (.error e : Except ε (α × State)) := by
  intro a t h; cases h
theorem KeepsR.ok {ε α : Type} {s : State} {p : α × State} (h : Keeps L s p.2) : KeepsR L s (.ok p : Except ε (α × State)) := by
  intro a t e; cases e; exact h
theorem KeepsR.bind {ε α β : Type} {s : State} {x : Except ε β} {f : β → Except ε (α × State)} (h : ∀ b, KeepsR L s (f b)) :
    KeepsR L s (x >>= f) := by
  cases x with
  | error e => exact KeepsR.error
  | ok b => exact h b
theorem KeepsR.ite {ε α : Type} {s : State} {p q : Except ε (α × State)} {c : Prop} [Decidable c] (h : KeepsR L s p)
    (k : KeepsR L s q) : KeepsR L s (if c then p else q) := by split <;> assumption
theorem Keeps.of_okr {ε α : Type} {s t : State} {a : α} {o : Except ε (α × State)} (e : o = .ok (a, t)) (h : KeepsR L s o) :
    Keeps L s t := h a t e

theorem KeepsO.none {α : Type} {s : State} : KeepsO L s (Option.none : Option (State × α)) := by
  intro t a h; cases h
theorem KeepsO.some {α : Type} {s : State} {p : State × α} (h : Keeps L s p.1) : KeepsO L s (some p) := by
  intro t' a' e; cases e; exact h
theorem KeepsO.map {α β : Type} {s : State} {o : Option β} {f : β → State × α} (h : ∀ b, Keeps L s (f b).1) :
    KeepsO L s (o.map f) := by
  intro t a e
  cases o with
  | none => cases e
  | some b => injection e with e; have := h b; rw [e] at this; exact this
theorem KeepsE.error {ε : Type} {s : State} {e : ε} : KeepsE L s (.error e) := by
  intro t h; cases h
theorem KeepsE.ok {ε : Type} {s t : State} (h : Keeps L s t) : KeepsE L s (.ok t : Except ε State) := by
  intro t' e; cases e; exact h
theorem KeepsEP.error {ε α : Type} {s : State} {e : ε} : KeepsEP L s (.error e : Except ε (State × α)) := by
  intro t a h; cases h
theorem KeepsEP.ok {ε α : Type} {s : State} {p : State × α} (h : Keeps L s p.1) : KeepsEP L s (.ok p : Except ε (State × α)) := by
  intro t' a' e; cases e; exact h
theorem KeepsN.next {s t : State} (h : Keeps L s t) : KeepsN L s (.next t) := by
  intro t' e; cases e; exact h

theorem KeepsO.ite {α : Type} {s : State} {p q : Option (State × α)} {c : Prop} [Decidable c] (h : KeepsO L s p) (k : KeepsO L s q) :
    KeepsO L s (if c then p else q) := by split <;> assumption
theorem KeepsE.ite {ε : Type} {s : State} {p q : Except ε State} {c : Prop} [Decidable c] (h : KeepsE L s p) (k : KeepsE L s q) :
    KeepsE L s (if c then p else q) := by split <;> assumption
theorem KeepsEP.ite {ε α : Type} {s : State} {p q : Except ε (State × α)} {c : Prop} [Decidable c] (h : KeepsEP L s p)
    (k : KeepsEP L s q) : KeepsEP L s (if c then p else q) := by split <;> assumption

theorem Keeps.of_fst {α : Type} {s t : State} {a : α} {p : State × α} (e : p = (t, a)) (h : Keeps L s p.1) :
    Keeps L s t := by rw [e] at h; exact h
theorem Keeps.of_snd {α : Type} {s t : State} {a : α} {p : α × State} (e : p = (a, t)) (h : Keeps L s p.2) :
    Keeps L s t := by rw [e] at h; exact h
theorem Keeps.of_some {α : Type} {s t : State} {a : α} {o : Option (State × α)} (e : o = some (t, a)) (h : KeepsO L s o) :
    Keeps L s t := h t a e
theorem Keeps.of_ok {ε : Type} {s t : State} {o : Except ε State} (e : o = .ok t) (h : KeepsE L s o) : Keeps L s t := h t e
theorem Keeps.of_okp {ε α : Type} {s t : State} {a : α} {o : Except ε (State × α)} (e : o = .ok (t, a)) (h : KeepsEP L s o) :
    Keeps L s t := h t a e

theorem Keeps.foldl {α : Type} {s₀ s : State} {l : List α} {f : State → α → State}
    (hf : ∀ t a, Keeps L s₀ t → Keeps L s₀ (f t a)) (hs : Keeps L s₀ s) : Keeps L s₀ (l.foldl f s) := by
  induction l generalizing s with
  | nil => exact hs
  | cons a r ih => exact ih (hf s a hs)

theorem Keeps.foldlP {α β : Type} {s₀ : State} {p : State × β} {l : List α} {f : State × β → α → State × β}
    (hf : ∀ t b a, Keeps L s₀ t → Keeps L s₀ (f (t, b) a).1) (hs : Keeps L s₀ p.1) : Keeps L s₀ (l.foldl f p).1 := by
  induction l generalizing p with
  | nil => exact hs
  | cons a r ih => exact ih (hf p.1 p.2 a hs)

theorem Keeps.ite {s₀ s t : State} {c : Prop} [Decidable c] (h : Keeps L s₀ s) (k : Keeps L s₀ t) :
    Keeps L s₀ (if c then s else t) := by split <;> assumption

theorem Keeps.ite_fst {α : Type} {s₀ : State} {p q : State × α} {c : Prop} [Decidable c] (h : Keeps L s₀ p.1) (k : Keeps L s₀ q.1) :
    Keeps L s₀ (if c then p else q).1 := by split <;> assumption

theorem Keeps.ite_snd {α : Type} {s₀ : State} {p q : α × State} {c : Prop} [Decidable c] (h : Keeps L s₀ p.2) (k : Keeps L s₀ q.2) :
    Keeps L s₀ (if c then p else q).2 := by split <;> assumption

/-! ### The setters -/

/-- A change of one part, which `L` names. -/
theorem Keeps.step {s₀ s t : State} (x : Part) (h : Keeps L s₀ s) (hL : Part.within [x] L = true)
    (hp : ∀ p, p ≠ x → p.same s t) (hm : Memory.wf s.mem → Memory.wf t.mem)
    (hr : s.boot.rollback.toNat ≤ t.boot.rollback.toNat) (hf : s.free ≤ t.free)
    (hz : TablesSized s → TablesSized t) : Keeps L s₀ t :=
  ⟨fun p hn => Part.same_trans (h.frame p hn)
      (hp p fun e => hn (Part.within_mem hL (e ▸ List.mem_cons_self ..))),
    fun w => hm (h.mem w), Nat.le_trans h.rollback hr, Nat.le_trans h.free hf, fun w => hz (h.sized w)⟩

variable {s₀ s : State}

theorem State.setBoot_keeps {b : Boot} (h : Keeps L s₀ s) (hL : Part.within [.boot] L = true)
    (hb : s.boot.rollback.toNat ≤ b.rollback.toNat) : Keeps L s₀ (s.setBoot b) :=
  h.step .boot hL (fun p _ => by cases p <;> first | rfl | contradiction) id hb (Nat.le_refl _) id
theorem State.withMem_keeps {m : List Host.Cell} (h : Keeps L s₀ s) (hL : Part.within [.mem] L = true)
    (hm : Memory.wf s.mem → Memory.wf m) : Keeps L s₀ (s.withMem m) :=
  h.step .mem hL (fun p _ => by cases p <;> first | rfl | contradiction) hm (Nat.le_refl _) (Nat.le_refl _) id
theorem State.draw_keeps (h : Keeps L s₀ s) (hL : Part.within [.free] L = true) : Keeps L s₀ s.draw :=
  h.step .free hL (fun p _ => by cases p <;> first | rfl | contradiction) id (Nat.le_refl _) (Nat.le_succ _) id
theorem State.drawN_keeps {n : Nat} (h : Keeps L s₀ s) (hL : Part.within [.free] L = true) : Keeps L s₀ (s.drawN n) :=
  h.step .free hL (fun p _ => by cases p <;> first | rfl | contradiction) id (Nat.le_refl _) (Nat.le_add_right ..) id
theorem State.setPwr_keeps {x : Power} (h : Keeps L s₀ s) (hL : Part.within [.pwr] L = true) : Keeps L s₀ (s.setPwr x) :=
  h.step .pwr hL (fun p _ => by cases p <;> first | rfl | contradiction) id (Nat.le_refl _) (Nat.le_refl _) id
theorem State.setTherm_keeps {x : Thermal} (h : Keeps L s₀ s) (hL : Part.within [.therm] L = true) : Keeps L s₀ (s.setTherm x) :=
  h.step .therm hL (fun p _ => by cases p <;> first | rfl | contradiction) id (Nat.le_refl _) (Nat.le_refl _) id
theorem State.setPins_keeps {x : Pins} (h : Keeps L s₀ s) (hL : Part.within [.pins] L = true) : Keeps L s₀ (s.setPins x) :=
  h.step .pins hL (fun p _ => by cases p <;> first | rfl | contradiction) id (Nat.le_refl _) (Nat.le_refl _) id
theorem State.setClk_keeps {x : Clocks} (h : Keeps L s₀ s) (hL : Part.within [.clk] L = true) : Keeps L s₀ (s.setClk x) :=
  h.step .clk hL (fun p _ => by cases p <;> first | rfl | contradiction) id (Nat.le_refl _) (Nat.le_refl _) id
theorem State.setHost_keeps {x : HostPort} (h : Keeps L s₀ s) (hL : Part.within [.host] L = true) : Keeps L s₀ (s.setHost x) :=
  h.step .host hL (fun p _ => by cases p <;> first | rfl | contradiction) id (Nat.le_refl _) (Nat.le_refl _) id
theorem State.setCmds_keeps {x : Commands} (h : Keeps L s₀ s) (hL : Part.within [.cmds] L = true) : Keeps L s₀ (s.setCmds x) :=
  h.step .cmds hL (fun p _ => by cases p <;> first | rfl | contradiction) id (Nat.le_refl _) (Nat.le_refl _) id
theorem State.setLed_keeps {x : Ledger} (h : Keeps L s₀ s) (hL : Part.within [.led] L = true) : Keeps L s₀ (s.setLed x) :=
  h.step .led hL (fun p _ => by cases p <;> first | rfl | contradiction) id (Nat.le_refl _) (Nat.le_refl _) id
theorem State.setSch_keeps {x : Sched} (h : Keeps L s₀ s) (hL : Part.within [.sch] L = true) : Keeps L s₀ (s.setSch x) :=
  h.step .sch hL (fun p _ => by cases p <;> first | rfl | contradiction) id (Nat.le_refl _) (Nat.le_refl _) id
theorem State.setQm_keeps {x : Queues} (h : Keeps L s₀ s) (hL : Part.within [.qm] L = true) : Keeps L s₀ (s.setQm x) :=
  h.step .qm hL (fun p _ => by cases p <;> first | rfl | contradiction) id (Nat.le_refl _) (Nat.le_refl _) id
theorem State.setVcs_keeps {x : AL CoreNo Core} (h : Keeps L s₀ s) (hL : Part.within [.vcs] L = true) : Keeps L s₀ (s.setVcs x) :=
  h.step .vcs hL (fun p _ => by cases p <;> first | rfl | contradiction) id (Nat.le_refl _) (Nat.le_refl _) id
theorem State.setTen_keeps {x : Tensor} (h : Keeps L s₀ s) (hL : Part.within [.ten] L = true) : Keeps L s₀ (s.setTen x) :=
  h.step .ten hL (fun p _ => by cases p <;> first | rfl | contradiction) id (Nat.le_refl _) (Nat.le_refl _) id
theorem State.setSw_keeps {x : Switch} (h : Keeps L s₀ s) (hL : Part.within [.sw] L = true)
    (hz : s.sw.ports.length = 4 → x.ports.length = 4) : Keeps L s₀ (s.setSw x) :=
  h.step .sw hL (fun p _ => by cases p <;> first | rfl | contradiction) id (Nat.le_refl _) (Nat.le_refl _) (fun w => ⟨hz w.1, w.2⟩)
theorem State.setTdm_keeps {x : List Highway} (h : Keeps L s₀ s) (hL : Part.within [.tdm] L = true)
    (hz : s.tdm.length = 32 → x.length = 32) : Keeps L s₀ (s.setTdm x) :=
  h.step .tdm hL (fun p _ => by cases p <;> first | rfl | contradiction) id (Nat.le_refl _) (Nat.le_refl _) (fun w => ⟨w.1, hz w.2.1, w.2.2⟩)
theorem State.setTim_keeps {x : TimeUnit} (h : Keeps L s₀ s) (hL : Part.within [.tim] L = true)
    (hz : s.tim.ptp.length = 4 → x.ptp.length = 4) : Keeps L s₀ (s.setTim x) :=
  h.step .tim hL (fun p _ => by cases p <;> first | rfl | contradiction) id (Nat.le_refl _) (Nat.le_refl _) (fun w => ⟨w.1, w.2.1, hz w.2.2.1, w.2.2.2⟩)
theorem State.setDfl_keeps {x : Deflate} (h : Keeps L s₀ s) (hL : Part.within [.dfl] L = true) : Keeps L s₀ (s.setDfl x) :=
  h.step .dfl hL (fun p _ => by cases p <;> first | rfl | contradiction) id (Nat.le_refl _) (Nat.le_refl _) id
theorem State.setUarts_keeps {x : List Uart} (h : Keeps L s₀ s) (hL : Part.within [.uarts] L = true)
    (hz : s.uarts.length = 8 → x.length = 8) : Keeps L s₀ (s.setUarts x) :=
  h.step .uarts hL (fun p _ => by cases p <;> first | rfl | contradiction) id (Nat.le_refl _) (Nat.le_refl _) (fun w => ⟨w.1, w.2.1, w.2.2.1, hz w.2.2.2.1, w.2.2.2.2⟩)
theorem State.setIsm_keeps {x : Ismorlink} (h : Keeps L s₀ s) (hL : Part.within [.ism] L = true)
    (hz : s.ism.ports.length = 4 → x.ports.length = 4) : Keeps L s₀ (s.setIsm x) :=
  h.step .ism hL (fun p _ => by cases p <;> first | rfl | contradiction) id (Nat.le_refl _) (Nat.le_refl _) (fun w => ⟨w.1, w.2.1, w.2.2.1, w.2.2.2.1, hz w.2.2.2.2⟩)
theorem State.setSaf_keeps {x : Safety} (h : Keeps L s₀ s) (hL : Part.within [.saf] L = true) : Keeps L s₀ (s.setSaf x) :=
  h.step .saf hL (fun p _ => by cases p <;> first | rfl | contradiction) id (Nat.le_refl _) (Nat.le_refl _) id
theorem State.setCal_keeps {x : Calib} (h : Keeps L s₀ s) (hL : Part.within [.cal] L = true) : Keeps L s₀ (s.setCal x) :=
  h.step .cal hL (fun p _ => by cases p <;> first | rfl | contradiction) id (Nat.le_refl _) (Nat.le_refl _) id
theorem State.setFi_keeps {x : Inject} (h : Keeps L s₀ s) (hL : Part.within [.fi] L = true) : Keeps L s₀ (s.setFi x) :=
  h.step .fi hL (fun p _ => by cases p <;> first | rfl | contradiction) id (Nat.le_refl _) (Nat.le_refl _) id

end

end Sys2Proof.Machine
end

