-- ==== Sys2Proof/Laws/KeepsOps.lean ====
section
/-! SUPPORT. What the operations of Machine/Ops.lean keep (Laws/Keeps.lean). -/

namespace Sys2Proof.Machine

theorem store_keeps {L : List Part} {s₀ : State} {s : State} {a : Nat} {l : List Byte} (hs : Keeps L s₀ s) (hL : Part.within [.mem] L = true) :
    Keeps L s₀ (store s a l) := by
  unfold store
  with_reducible repeat' first | intro _ | assumption | apply State.withMem_keeps | apply memWriteList_wf | apply memWrite32_wf | apply memWrite_wf | apply memFilter_wf | exact Part.within_trans (by decide) hL | dsimp only | split

theorem setMode_keeps {L : List Part} {s₀ : State} {m : Mode} {s : State} (hs : Keeps L s₀ s) (hL : Part.within [.boot] L = true) :
    Keeps L s₀ (setMode m s) := by
  unfold setMode
  with_reducible repeat' first | intro _ | assumption | apply State.setBoot_keeps | exact Part.within_trans (by decide) hL | dsimp only | split | exact Nat.le_refl _

theorem putCore_keeps {L : List Part} {s₀ : State} {n : CoreNo} {c : CoreSt} {s : State} (hs : Keeps L s₀ s) (hL : Part.within [.sch] L = true) :
    Keeps L s₀ (putCore n c s) := by
  unfold putCore
  with_reducible repeat' first | intro _ | assumption | apply State.setSch_keeps | exact Part.within_trans (by decide) hL | dsimp only | split

theorem putSrc_keeps {L : List Part} {s₀ : State} {p : PowerIn} {x : PSource} {s : State} (hs : Keeps L s₀ s) (hL : Part.within [.pwr] L = true) :
    Keeps L s₀ (putSrc p x s) := by
  unfold putSrc
  with_reducible repeat' first | intro _ | assumption | apply State.setPwr_keeps | exact Part.within_trans (by decide) hL | dsimp only | split

theorem putChan_keeps {L : List Part} {s₀ : State} {x : Chan} {s : State} (hs : Keeps L s₀ s) (hL : Part.within [.led] L = true) :
    Keeps L s₀ (putChan x s) := by
  unfold putChan
  with_reducible repeat' first | intro _ | assumption | apply State.setLed_keeps | apply Keeps.ite | exact Part.within_trans (by decide) hL | dsimp only | split

theorem modChan_keeps {L : List Part} {s₀ : State} {c : ChanNo} {f : Chan → Chan} {s : State} (hs : Keeps L s₀ s) (hL : Part.within [.led] L = true) :
    Keeps L s₀ (modChan c f s) := by
  unfold modChan
  with_reducible repeat' first | intro _ | assumption | apply State.setLed_keeps | apply Keeps.ite | exact Part.within_trans (by decide) hL | dsimp only | split

theorem traceRecord_keeps {L : List Part} {s₀ : State} {r : List Word} {s : State} (hs : Keeps L s₀ s) (hL : Part.within [.fi] L = true) :
    Keeps L s₀ (traceRecord r s) := by
  unfold traceRecord
  with_reducible repeat' first | intro _ | assumption | apply State.setFi_keeps | apply Keeps.ite | exact Part.within_trans (by decide) hL | dsimp only | split

theorem putFi_keeps {L : List Part} {s₀ : State} {p : Word} {x : FiPoint} {s : State} (hs : Keeps L s₀ s) (hL : Part.within [.fi] L = true) :
    Keeps L s₀ (putFi p x s) := by
  unfold putFi
  with_reducible repeat' first | intro _ | assumption | apply State.setFi_keeps | exact Part.within_trans (by decide) hL | dsimp only | split

theorem fiTrace_keeps {L : List Part} {s₀ : State} {p : Word} {x : FiPoint} {s : State} (hs : Keeps L s₀ s) (hL : Part.within [.fi] L = true) :
    Keeps L s₀ (fiTrace p x s) := by
  unfold fiTrace
  with_reducible repeat' first | intro _ | assumption | apply traceRecord_keeps | exact Part.within_trans (by decide) hL | dsimp only | split

theorem fiStep_keeps {L : List Part} {s₀ : State} {p : Word} {u : HeldUnit} {s : State} (hs : Keeps L s₀ s) (hL : Part.within [.fi] L = true) :
    Keeps L s₀ (fiStep p u s).2 := by
  unfold fiStep
  with_reducible repeat' first | intro _ | assumption | apply fiTrace_keeps | apply putFi_keeps | apply Keeps.ite | apply Keeps.ite_fst | apply Keeps.ite_snd | exact Part.within_trans (by decide) hL | dsimp only | split

theorem putIsmPort_keeps {L : List Part} {s₀ : State} {p : PortNo} {x : IsmPort} {s : State} (hs : Keeps L s₀ s) (hL : Part.within [.ism] L = true) :
    Keeps L s₀ (putIsmPort p x s) := by
  unfold putIsmPort
  with_reducible repeat' first | exact id | (intro h; simpa only [setAt, List.length_set, List.length_map, List.length_replicate] using h) | exact fun _ => rfl | with_unfolding_all exact id | intro _ | assumption | apply State.setIsm_keeps | exact Part.within_trans (by decide) hL | dsimp only | split

theorem ismLine_keeps {L : List Part} {s₀ : State} {p : PortNo} {f : IsmFrame} {bytes : List Byte} {s : State} (hs : Keeps L s₀ s) (hL : Part.within [.ism] L = true) :
    Keeps L s₀ (ismLine p f bytes s) := by
  unfold ismLine
  with_reducible repeat' first | intro _ | assumption | apply putIsmPort_keeps | exact Part.within_trans (by decide) hL | dsimp only | split

theorem ismLineAll_keeps {L : List Part} {s₀ : State} {p : PortNo} {l : List HeldUnit} {s : State} (hs : Keeps L s₀ s) (hL : Part.within [.ism] L = true) :
    Keeps L s₀ (ismLineAll p l s) := by
  unfold ismLineAll
  with_reducible repeat' first | intro _ | assumption | apply ismLine_keeps | apply Keeps.foldl | exact Part.within_trans (by decide) hL | dsimp only | split

theorem ismTransmit_keeps {L : List Part} {s₀ : State} {p : PortNo} {f : IsmFrame} {s : State} (hs : Keeps L s₀ s) (hL : Part.within [.ism, .fi] L = true) :
    Keeps L s₀ (ismTransmit p f s) := by
  unfold ismTransmit
  with_reducible repeat' first | intro _ | assumption | apply fiStep_keeps | apply ismLine_keeps | apply ismLineAll_keeps | exact Part.within_trans (by decide) hL | dsimp only | split | (refine Keeps.of_snd (by assumption) ?_; apply fiStep_keeps)

theorem ismQueue_keeps {L : List Part} {s₀ : State} {p : PortNo} {f : IsmFrame} {s : State} (hs : Keeps L s₀ s) (hL : Part.within [.ism, .fi] L = true) :
    Keeps L s₀ (ismQueue p f s) := by
  unfold ismQueue
  with_reducible repeat' first | intro _ | assumption | apply ismTransmit_keeps | apply putIsmPort_keeps | apply Keeps.ite | apply Keeps.ite_fst | apply Keeps.ite_snd | exact Part.within_trans (by decide) hL | dsimp only | split

theorem ismSend_keeps {L : List Part} {s₀ : State} {p : PortNo} {dest : Word} {ctx : Word} {body : IsmBody} {s : State} (hs : Keeps L s₀ s) (hL : Part.within [.ism, .fi] L = true) :
    Keeps L s₀ (ismSend p dest ctx body s) := by
  unfold ismSend
  with_reducible repeat' first | intro _ | assumption | apply ismQueue_keeps | apply Keeps.ite | exact Part.within_trans (by decide) hL | dsimp only | split

theorem sendHeadEvent_keeps {L : List Part} {s₀ : State} {s : State} (hs : Keeps L s₀ s) (hL : Part.within [.ism, .fi] L = true) :
    Keeps L s₀ (sendHeadEvent s) := by
  unfold sendHeadEvent
  with_reducible repeat' first | intro _ | assumption | apply ismSend_keeps | exact Part.within_trans (by decide) hL | dsimp only | split

theorem rollUp_keeps {L : List Part} {s₀ : State} {code : Byte} {r : List Word} {s : State} (hs : Keeps L s₀ s) (hL : Part.within [.ism, .fi] L = true) :
    Keeps L s₀ (rollUp code r s) := by
  unfold rollUp
  with_reducible repeat' first | exact id | (intro h; simpa only [setAt, List.length_set, List.length_map, List.length_replicate] using h) | exact fun _ => rfl | with_unfolding_all exact id | intro _ | assumption | apply State.setIsm_keeps | apply sendHeadEvent_keeps | apply Keeps.ite | exact Part.within_trans (by decide) hL | dsimp only | split

theorem raiseRaw_keeps {L : List Part} {s₀ : State} {code : Byte} {payload : List Word} {forwarded : Bool} {s : State} (hs : Keeps L s₀ s) (hL : Part.within [.host, .ism, .fi] L = true) :
    Keeps L s₀ (raiseRaw code payload forwarded s).1 := by
  unfold raiseRaw
  with_reducible repeat' first | intro _ | assumption | apply traceRecord_keeps | apply State.setHost_keeps | apply rollUp_keeps | apply Keeps.ite | apply Keeps.ite_fst | apply Keeps.ite_snd | exact Part.within_trans (by decide) hL | dsimp only | split

theorem raise_keeps {L : List Part} {s₀ : State} {code : Byte} {payload : List Word} {s : State} (hs : Keeps L s₀ s) (hL : Part.within [.host, .ism, .fi] L = true) :
    Keeps L s₀ (raise code payload s) := by
  unfold raise
  with_reducible repeat' first | intro _ | assumption | apply raiseRaw_keeps | exact Part.within_trans (by decide) hL | dsimp only | split | (refine Keeps.of_fst (by assumption) ?_; apply raiseRaw_keeps)

theorem raisePwr_keeps {L : List Part} {s₀ : State} {s : State} (hs : Keeps L s₀ s) (hL : Part.within [.host, .ism, .fi] L = true) :
    Keeps L s₀ (raisePwr s) := by
  unfold raisePwr
  with_reducible repeat' first | intro _ | assumption | apply raise_keeps | exact Part.within_trans (by decide) hL | dsimp only | split

theorem raiseLink_keeps {L : List Part} {s₀ : State} {kind : Nat} {index : Nat} {up : Nat} {cause : Nat} {s : State} (hs : Keeps L s₀ s) (hL : Part.within [.host, .ism, .fi] L = true) :
    Keeps L s₀ (raiseLink kind index up cause s) := by
  unfold raiseLink
  with_reducible repeat' first | intro _ | assumption | apply raise_keeps | exact Part.within_trans (by decide) hL | dsimp only | split

theorem raiseChState_keeps {L : List Part} {s₀ : State} {c : ChanNo} {st : Nat} {reason : Nat} {s : State} (hs : Keeps L s₀ s) (hL : Part.within [.host, .ism, .fi] L = true) :
    Keeps L s₀ (raiseChState c st reason s) := by
  unfold raiseChState
  with_reducible repeat' first | intro _ | assumption | apply raise_keeps | exact Part.within_trans (by decide) hL | dsimp only | split

theorem raiseHoldover_keeps {L : List Part} {s₀ : State} {entered : Bool} {cause : Nat} {s : State} (hs : Keeps L s₀ s) (hL : Part.within [.host, .ism, .fi] L = true) :
    Keeps L s₀ (raiseHoldover entered cause s) := by
  unfold raiseHoldover
  with_reducible repeat' first | intro _ | assumption | apply raise_keeps | exact Part.within_trans (by decide) hL | dsimp only | split

theorem raiseFiArmed_keeps {L : List Part} {s₀ : State} {armed : Bool} {s : State} (hs : Keeps L s₀ s) (hL : Part.within [.host, .ism, .fi] L = true) :
    Keeps L s₀ (raiseFiArmed armed s) := by
  unfold raiseFiArmed
  with_reducible repeat' first | intro _ | assumption | apply raise_keeps | exact Part.within_trans (by decide) hL | dsimp only | split

end Sys2Proof.Machine
end

