-- ==== Sys2Proof/Laws/KeepsSchedOps.lean ====
section
/-! SUPPORT. What the operations of Machine/SchedOps.lean keep (Laws/Keeps.lean). -/

namespace Sys2Proof.Machine

theorem setTasks_keeps {L : List Part} {s₀ : State} {l : List Task} {s : State} (hs : Keeps L s₀ s) (hL : Part.within [.sch] L = true) :
    Keeps L s₀ (setTasks l s) := by
  unfold setTasks
  with_reducible repeat' first | intro _ | assumption | apply State.setSch_keeps | exact Part.within_trans (by decide) hL | dsimp only | split

theorem putTask_keeps {L : List Part} {s₀ : State} {t : Task} {s : State} (hs : Keeps L s₀ s) (hL : Part.within [.sch] L = true) :
    Keeps L s₀ (putTask t s) := by
  unfold putTask
  with_reducible repeat' first | intro _ | assumption | apply setTasks_keeps | apply Keeps.ite | exact Part.within_trans (by decide) hL | dsimp only | split

theorem dropTask_keeps {L : List Part} {s₀ : State} {id : Nat} {s : State} (hs : Keeps L s₀ s) (hL : Part.within [.sch] L = true) :
    Keeps L s₀ (dropTask id s) := by
  unfold dropTask
  with_reducible repeat' first | intro _ | assumption | apply State.setSch_keeps | exact Part.within_trans (by decide) hL | dsimp only | split

theorem nextOrd_keeps {L : List Part} {s₀ : State} {s : State} (hs : Keeps L s₀ s) (hL : Part.within [.sch] L = true) :
    Keeps L s₀ (nextOrd s) := by
  unfold nextOrd
  with_reducible repeat' first | intro _ | assumption | apply State.setSch_keeps | exact Part.within_trans (by decide) hL | dsimp only | split

theorem spillOne_keeps {L : List Part} {s₀ : State} {s : State} (hs : Keeps L s₀ s) (hL : Part.within [.sch] L = true) :
    Keeps L s₀ (spillOne s) := by
  unfold spillOne
  with_reducible repeat' first | intro _ | assumption | apply putTask_keeps | exact Part.within_trans (by decide) hL | dsimp only | split

theorem spillDown_keeps {L : List Part} {s₀ : State} {lo : Nat} {k : Nat} {s : State} (hs : Keeps L s₀ s) (hL : Part.within [.sch] L = true) :
    Keeps L s₀ (spillDown lo k s) := by
  induction k generalizing s with
  | zero => exact hs
  | succ k ih =>
    unfold spillDown
    with_reducible repeat' first | intro _ | assumption | apply ih | apply spillOne_keeps | apply Keeps.ite | exact Part.within_trans (by decide) hL | dsimp only | split

theorem spillCheck_keeps {L : List Part} {s₀ : State} {s : State} (hs : Keeps L s₀ s) (hL : Part.within [.sch] L = true) :
    Keeps L s₀ (spillCheck s) := by
  unfold spillCheck
  with_reducible repeat' first | intro _ | assumption | apply spillDown_keeps | apply Keeps.ite | exact Part.within_trans (by decide) hL | dsimp only | split

theorem putFlow_keeps {L : List Part} {s₀ : State} {f : Word} {x : Flow} {s : State} (hs : Keeps L s₀ s) (hL : Part.within [.sch] L = true) :
    Keeps L s₀ (putFlow f x s) := by
  unfold putFlow
  with_reducible repeat' first | intro _ | assumption | apply State.setSch_keeps | exact Part.within_trans (by decide) hL | dsimp only | split

theorem setFlowLevel_keeps {L : List Part} {s₀ : State} {f : Word} {l : BitVec 3} {s : State} (hs : Keeps L s₀ s) (hL : Part.within [.sch] L = true) :
    Keeps L s₀ (setFlowLevel f l s) := by
  unfold setFlowLevel
  with_reducible repeat' first | intro _ | assumption | apply putFlow_keeps | apply setTasks_keeps | apply Keeps.ite | exact Part.within_trans (by decide) hL | dsimp only | split

theorem makeReady_keeps {L : List Part} {s₀ : State} {t : Task} {s : State} (hs : Keeps L s₀ s) (hL : Part.within [.sch] L = true) :
    Keeps L s₀ (makeReady t s) := by
  unfold makeReady
  with_reducible repeat' first | intro _ | assumption | apply nextOrd_keeps | apply putTask_keeps | exact Part.within_trans (by decide) hL | dsimp only | split

theorem enterStore_keeps {L : List Part} {s₀ : State} {t : Task} {s : State} (hs : Keeps L s₀ s) (hL : Part.within [.sch, .free] L = true) :
    Keeps L s₀ (enterStore t s) := by
  unfold enterStore
  with_reducible repeat' first | intro _ | assumption | apply State.draw_keeps | apply makeReady_keeps | apply putTask_keeps | apply Keeps.ite | exact Part.within_trans (by decide) hL | dsimp only | split

theorem pullBack_keeps {L : List Part} {s₀ : State} {t : Task} {s : State} (hs : Keeps L s₀ s) (hL : Part.within [.sch, .free] L = true) :
    Keeps L s₀ (pullBack t s) := by
  unfold pullBack
  with_reducible repeat' first | intro _ | assumption | apply putTask_keeps | apply State.setSch_keeps | apply enterStore_keeps | apply spillOne_keeps | apply nextOrd_keeps | apply Keeps.ite | exact Part.within_trans (by decide) hL | dsimp only | split

theorem takeOperand_keeps {L : List Part} {s₀ : State} {t : Task} {k : Nat} {s : State} (hs : Keeps L s₀ s) (hL : Part.within [.sch, .free] L = true) :
    Keeps L s₀ (takeOperand t k s) := by
  unfold takeOperand
  with_reducible repeat' first | intro _ | assumption | apply makeReady_keeps | apply putTask_keeps | apply pullBack_keeps | apply Keeps.ite | exact Part.within_trans (by decide) hL | dsimp only | split

theorem stray_keeps {L : List Part} {s₀ : State} {s : State} (hs : Keeps L s₀ s) (hL : Part.within [.sch] L = true) :
    Keeps L s₀ (stray s) := by
  unfold stray
  with_reducible repeat' first | intro _ | assumption | apply State.setSch_keeps | exact Part.within_trans (by decide) hL | dsimp only | split

theorem giveOperand_keeps {L : List Part} {s₀ : State} {t : Task} {k : Nat} {s : State} (hs : Keeps L s₀ s) (hL : Part.within [.sch, .free] L = true) :
    Keeps L s₀ (giveOperand t k s) := by
  unfold giveOperand
  with_reducible repeat' first | intro _ | assumption | apply stray_keeps | apply takeOperand_keeps | apply Keeps.ite | exact Part.within_trans (by decide) hL | dsimp only | split

theorem admitPulled_keeps {L : List Part} {s₀ : State} {k : Nat} {s : State} (hs : Keeps L s₀ s) (hL : Part.within [.sch, .free] L = true) :
    Keeps L s₀ (admitPulled k s) := by
  induction k generalizing s with
  | zero => exact hs
  | succ k ih =>
    unfold admitPulled
    with_reducible repeat' first | intro _ | assumption | apply ih | apply enterStore_keeps | apply Keeps.ite | exact Part.within_trans (by decide) hL | dsimp only | split

theorem settleStore_keeps {L : List Part} {s₀ : State} {s : State} (hs : Keeps L s₀ s) (hL : Part.within [.sch, .free] L = true) :
    Keeps L s₀ (settleStore s) := by
  unfold settleStore
  with_reducible repeat' first | intro _ | assumption | apply spillCheck_keeps | apply admitPulled_keeps | exact Part.within_trans (by decide) hL | dsimp only | split

theorem dataToken_keeps {L : List Part} {s₀ : State} {f : Word} {s : State} (hs : Keeps L s₀ s) (hL : Part.within [.sch, .free] L = true) :
    Keeps L s₀ (dataToken f s) := by
  unfold dataToken
  with_reducible repeat' first | intro _ | assumption | apply settleStore_keeps | apply takeOperand_keeps | apply putFlow_keeps | exact Part.within_trans (by decide) hL | dsimp only | split

theorem createTask_keeps {L : List Part} {s₀ : State} {flow : Word} {cls : BitVec 6} {req : BitVec 4} {opt : BitVec 4} {arrived : BitVec 4} {seq : Word} {arg0 : W32} {arg1 : W32} {s : State} (hs : Keeps L s₀ s) (hL : Part.within [.sch, .free] L = true) :
    Keeps L s₀ (createTask flow cls req opt arrived seq arg0 arg1 s).1 := by
  unfold createTask
  with_reducible repeat' first | intro _ | assumption | apply State.setSch_keeps | apply State.draw_keeps | apply putFlow_keeps | apply nextOrd_keeps | apply spillOne_keeps | apply setTasks_keeps | apply enterStore_keeps | apply putTask_keeps | apply settleStore_keeps | apply Keeps.ite | apply Keeps.ite_fst | apply Keeps.ite_snd | exact Part.within_trans (by decide) hL | dsimp only | split

theorem freeExecutor_keeps {L : List Part} {s₀ : State} {t : Task} {s : State} (hs : Keeps L s₀ s) (hL : Part.within [.sch] L = true) :
    Keeps L s₀ (freeExecutor t s) := by
  unfold freeExecutor
  with_reducible repeat' first | intro _ | assumption | apply putCore_keeps | apply State.setSch_keeps | apply Keeps.ite | exact Part.within_trans (by decide) hL | dsimp only | split

theorem removeService_keeps {L : List Part} {s₀ : State} {t : Task} {s : State} (hs : Keeps L s₀ s) (hL : Part.within [.sch, .free] L = true) :
    Keeps L s₀ (removeService t s) := by
  unfold removeService
  with_reducible repeat' first | intro _ | assumption | apply settleStore_keeps | apply dropTask_keeps | apply freeExecutor_keeps | exact Part.within_trans (by decide) hL | dsimp only | split

theorem removeEnded_keeps {L : List Part} {s₀ : State} {t : Task} {s : State} (hs : Keeps L s₀ s) (hL : Part.within [.sch, .free] L = true) :
    Keeps L s₀ (removeEnded t s) := by
  unfold removeEnded
  with_reducible repeat' first | intro _ | assumption | apply putFlow_keeps | apply removeService_keeps | exact Part.within_trans (by decide) hL | dsimp only | split

theorem cancelWhere_keeps {L : List Part} {s₀ : State} {p : Task → Bool} {s : State} (hs : Keeps L s₀ s) (hL : Part.within [.sch, .free] L = true) :
    Keeps L s₀ (cancelWhere p s) := by
  unfold cancelWhere
  with_reducible repeat' first | intro _ | assumption | apply settleStore_keeps | apply dropTask_keeps | apply Keeps.foldl | exact Part.within_trans (by decide) hL | dsimp only | split

theorem cancelFlow_keeps {L : List Part} {s₀ : State} {f : Word} {s : State} (hs : Keeps L s₀ s) (hL : Part.within [.sch, .free] L = true) :
    Keeps L s₀ (cancelFlow f s) := by
  unfold cancelFlow
  with_reducible repeat' first | intro _ | assumption | apply cancelWhere_keeps | exact Part.within_trans (by decide) hL | dsimp only | split

theorem cancelGraph_keeps {L : List Part} {s₀ : State} {t : Task} {s : State} (hs : Keeps L s₀ s) (hL : Part.within [.sch, .free] L = true) :
    Keeps L s₀ (cancelGraph t s) := by
  unfold cancelGraph
  with_reducible repeat' first | intro _ | assumption | apply cancelWhere_keeps | apply Keeps.ite | exact Part.within_trans (by decide) hL | dsimp only | split

theorem startService_keeps {L : List Part} {s₀ : State} {t : Task} {x : Executor} {s : State} (hs : Keeps L s₀ s) (hL : Part.within [.sch] L = true) :
    Keeps L s₀ (startService t x s) := by
  unfold startService
  with_reducible repeat' first | intro _ | assumption | apply putTask_keeps | apply putCore_keeps | apply State.setSch_keeps | apply Keeps.ite | exact Part.within_trans (by decide) hL | dsimp only | split

theorem pointProcedure_keeps {L : List Part} {s₀ : State} {boundary : Bool} {s : State} (hs : Keeps L s₀ s) (hL : Part.within [.sch] L = true) :
    Keeps L s₀ (pointProcedure boundary s) := by
  unfold pointProcedure
  with_reducible repeat' first | intro _ | assumption | apply putCore_keeps | apply Keeps.foldl | apply Keeps.foldlP | exact Part.within_trans (by decide) hL | dsimp only | split

theorem pointsChanged_keeps {L : List Part} {s₀ : State} {s : State} (hs : Keeps L s₀ s) (hL : Part.within [.sch] L = true) :
    Keeps L s₀ (pointsChanged s) := by
  unfold pointsChanged
  with_reducible repeat' first | intro _ | assumption | apply pointProcedure_keeps | exact Part.within_trans (by decide) hL | dsimp only | split

theorem nextDrain_keeps {L : List Part} {s₀ : State} {s : State} (hs : Keeps L s₀ s) (hL : Part.within [.sch] L = true) :
    Keeps L s₀ (nextDrain s) := by
  unfold nextDrain
  with_reducible repeat' first | intro _ | assumption | apply State.setSch_keeps | apply pointsChanged_keeps | apply putCore_keeps | apply Keeps.ite | exact Part.within_trans (by decide) hL | dsimp only | split

theorem requestDrain_keeps {L : List Part} {s₀ : State} {n : CoreNo} {s : State} (hs : Keeps L s₀ s) (hL : Part.within [.sch] L = true) :
    Keeps L s₀ (requestDrain n s) := by
  unfold requestDrain
  with_reducible repeat' first | intro _ | assumption | apply nextDrain_keeps | apply State.setSch_keeps | exact Part.within_trans (by decide) hL | dsimp only | split

theorem checkCeilings_keeps {L : List Part} {s₀ : State} {cause : ShedCause} {s : State} (hs : Keeps L s₀ s) (hL : Part.within [.led] L = true) :
    Keeps L s₀ (checkCeilings cause s) := by
  unfold checkCeilings
  with_reducible repeat' first | intro _ | assumption | apply State.setLed_keeps | apply Keeps.ite | exact Part.within_trans (by decide) hL | dsimp only | split

theorem reserveLu_keeps {L : List Part} {s₀ : State} {f : Word} {lu : Nat} {s : State} (hs : Keeps L s₀ s) (hL : Part.within [.led, .sch] L = true) :
    Keeps L s₀ (reserveLu f lu s).1 := by
  unfold reserveLu
  with_reducible repeat' first | intro _ | assumption | apply pointsChanged_keeps | apply State.setLed_keeps | apply Keeps.ite | apply Keeps.ite_fst | apply Keeps.ite_snd | exact Part.within_trans (by decide) hL | dsimp only | split

theorem putList_keeps {L : List Part} {s₀ : State} {l : Nat} {x : AList} {s : State} (hs : Keeps L s₀ s) (hL : Part.within [.sch] L = true) :
    Keeps L s₀ (putList l x s) := by
  unfold putList
  with_reducible repeat' first | intro _ | assumption | apply State.setSch_keeps | exact Part.within_trans (by decide) hL | dsimp only | split

theorem insertEntry_keeps {L : List Part} {s₀ : State} {l : BitVec 2} {h : W32} {slot : BitVec 2} {delay : Nat} {period : Nat} {c : Option ChanNo} {s : State} (hs : Keeps L s₀ s) (hL : Part.within [.sch, .free] L = true) :
    Keeps L s₀ (insertEntry l h slot delay period c s).1 := by
  unfold insertEntry
  with_reducible repeat' first | intro _ | assumption | apply State.draw_keeps | apply nextOrd_keeps | apply State.setSch_keeps | apply Keeps.ite | apply Keeps.ite_fst | apply Keeps.ite_snd | exact Part.within_trans (by decide) hL | dsimp only | split

theorem dropEntry_keeps {L : List Part} {s₀ : State} {no : Nat} {s : State} (hs : Keeps L s₀ s) (hL : Part.within [.sch] L = true) :
    Keeps L s₀ (dropEntry no s) := by
  unfold dropEntry
  with_reducible repeat' first | intro _ | assumption | apply State.setSch_keeps | exact Part.within_trans (by decide) hL | dsimp only | split

theorem countFiring_keeps {L : List Part} {s₀ : State} {e : AEntry} {s : State} (hs : Keeps L s₀ s) (hL : Part.within [.sch] L = true) :
    Keeps L s₀ (countFiring e s) := by
  unfold countFiring
  with_reducible repeat' first | intro _ | assumption | apply putList_keeps | exact Part.within_trans (by decide) hL | dsimp only | split

theorem reinsert_keeps {L : List Part} {s₀ : State} {e : AEntry} {s : State} (hs : Keeps L s₀ s) (hL : Part.within [.sch] L = true) :
    Keeps L s₀ (reinsert e s) := by
  unfold reinsert
  with_reducible repeat' first | intro _ | assumption | apply dropEntry_keeps | apply nextOrd_keeps | apply State.setSch_keeps | apply Keeps.ite | exact Part.within_trans (by decide) hL | dsimp only | split

theorem fireEntry_keeps {L : List Part} {s₀ : State} {e : AEntry} {s : State} (hs : Keeps L s₀ s) (hL : Part.within [.sch, .free] L = true) :
    Keeps L s₀ (fireEntry e s) := by
  unfold fireEntry
  with_reducible repeat' first | intro _ | assumption | apply countFiring_keeps | apply dropEntry_keeps | apply stray_keeps | apply reinsert_keeps | apply settleStore_keeps | apply giveOperand_keeps | apply Keeps.ite | exact Part.within_trans (by decide) hL | dsimp only | split

theorem putReq_keeps {L : List Part} {s₀ : State} {m : Master} {p : ReqPort} {s : State} (hs : Keeps L s₀ s) (hL : Part.within [.sch] L = true) :
    Keeps L s₀ (putReq m p s) := by
  unfold putReq
  with_reducible repeat' first | intro _ | assumption | apply State.setSch_keeps | exact Part.within_trans (by decide) hL | dsimp only | split

theorem reqDone_keeps {L : List Part} {s₀ : State} {m : Master} {st : Word} {out : Option W32} {s : State} (hs : Keeps L s₀ s) (hL : Part.within [.sch] L = true) :
    Keeps L s₀ (reqDone m st out s) := by
  unfold reqDone
  with_reducible repeat' first | intro _ | assumption | apply putReq_keeps | exact Part.within_trans (by decide) hL | dsimp only | split

theorem firstLevel_keeps {L : List Part} {s₀ : State} {f : Word} {k : BitVec 6} {s : State} (hs : Keeps L s₀ s) (hL : Part.within [.sch] L = true) :
    Keeps L s₀ (firstLevel f k s) := by
  unfold firstLevel
  with_reducible repeat' first | intro _ | assumption | apply putFlow_keeps | apply Keeps.ite | exact Part.within_trans (by decide) hL | dsimp only | split

theorem reqCreate_keeps {L : List Part} {s₀ : State} {m : Master} {p : ReqPort} {s : State} (hs : Keeps L s₀ s) (hL : Part.within [.sch, .free] L = true) :
    Keeps L s₀ (reqCreate m p s) := by
  unfold reqCreate
  with_reducible repeat' first | intro _ | assumption | apply reqDone_keeps | apply firstLevel_keeps | apply createTask_keeps | apply Keeps.ite | apply Keeps.ite_fst | apply Keeps.ite_snd | exact Part.within_trans (by decide) hL | dsimp only | split | (refine Keeps.of_fst (by assumption) ?_; apply createTask_keeps)

theorem reqToken_keeps {L : List Part} {s₀ : State} {m : Master} {p : ReqPort} {s : State} (hs : Keeps L s₀ s) (hL : Part.within [.sch, .free] L = true) :
    Keeps L s₀ (reqToken m p s) := by
  unfold reqToken
  with_reducible repeat' first | intro _ | assumption | apply reqDone_keeps | apply stray_keeps | apply settleStore_keeps | apply giveOperand_keeps | apply Keeps.ite | exact Part.within_trans (by decide) hL | dsimp only | split

theorem reqAlmanac_keeps {L : List Part} {s₀ : State} {m : Master} {p : ReqPort} {s : State} (hs : Keeps L s₀ s) (hL : Part.within [.sch, .free] L = true) :
    Keeps L s₀ (reqAlmanac m p s) := by
  unfold reqAlmanac
  with_reducible repeat' first | intro _ | assumption | apply reqDone_keeps | apply insertEntry_keeps | apply Keeps.ite | apply Keeps.ite_fst | apply Keeps.ite_snd | exact Part.within_trans (by decide) hL | dsimp only | split | (refine Keeps.of_fst (by assumption) ?_; apply insertEntry_keeps)

theorem reqSetLevel_keeps {L : List Part} {s₀ : State} {m : Master} {p : ReqPort} {s : State} (hs : Keeps L s₀ s) (hL : Part.within [.sch] L = true) :
    Keeps L s₀ (reqSetLevel m p s) := by
  unfold reqSetLevel
  with_reducible repeat' first | intro _ | assumption | apply reqDone_keeps | apply setFlowLevel_keeps | apply Keeps.ite | exact Part.within_trans (by decide) hL | dsimp only | split

theorem reqReserve_keeps {L : List Part} {s₀ : State} {m : Master} {p : ReqPort} {s : State} (hs : Keeps L s₀ s) (hL : Part.within [.led, .sch] L = true) :
    Keeps L s₀ (reqReserve m p s) := by
  unfold reqReserve
  with_reducible repeat' first | intro _ | assumption | apply reqDone_keeps | apply reserveLu_keeps | apply Keeps.ite | apply Keeps.ite_fst | apply Keeps.ite_snd | exact Part.within_trans (by decide) hL | dsimp only | split | (refine Keeps.of_fst (by assumption) ?_; apply reserveLu_keeps)

theorem reqCancel_keeps {L : List Part} {s₀ : State} {m : Master} {p : ReqPort} {s : State} (hs : Keeps L s₀ s) (hL : Part.within [.sch, .free] L = true) :
    Keeps L s₀ (reqCancel m p s) := by
  unfold reqCancel
  with_reducible repeat' first | intro _ | assumption | apply reqDone_keeps | apply cancelFlow_keeps | apply Keeps.ite | exact Part.within_trans (by decide) hL | dsimp only | split

theorem reqGo_keeps {L : List Part} {s₀ : State} {m : Master} {s : State} (hs : Keeps L s₀ s) (hL : Part.within [.led, .sch, .free] L = true) :
    Keeps L s₀ (reqGo m s) := by
  unfold reqGo
  with_reducible repeat' first | intro _ | assumption | apply reqCreate_keeps | apply reqToken_keeps | apply reqAlmanac_keeps | apply reqSetLevel_keeps | apply reqReserve_keeps | apply reqCancel_keeps | apply reqDone_keeps | exact Part.within_trans (by decide) hL | dsimp only | split

theorem schGlobal_keeps {L : List Part} {s₀ : State} {s : State} {o : Nat} (hs : Keeps L s₀ s) (hL : Part.within [.sch] L = true) :
    KeepsO L s₀ (schGlobal s o) := by
  unfold schGlobal
  with_reducible repeat' first | intro _ | assumption | apply State.setSch_keeps | apply Keeps.ite | apply Keeps.ite_fst | apply Keeps.ite_snd | exact KeepsO.none | apply KeepsO.ite | apply KeepsO.some | exact Part.within_trans (by decide) hL | dsimp only | split

theorem listRead_keeps {L : List Part} {s₀ : State} {s : State} {l : Nat} {i : Nat} (hs : Keeps L s₀ s) (hL : Part.within [.sch] L = true) :
    KeepsO L s₀ (listRead s l i) := by
  unfold listRead
  with_reducible repeat' first | intro _ | assumption | apply putList_keeps | exact KeepsO.none | apply KeepsO.ite | apply KeepsO.some | exact Part.within_trans (by decide) hL | dsimp only | split

theorem reqRead_keeps {L : List Part} {s₀ : State} {s : State} {m : Master} {o : Nat} (hs : Keeps L s₀ s) (hL : Part.within [] L = true) :
    KeepsO L s₀ (reqRead s m o) := by
  unfold reqRead
  with_reducible repeat' first | intro _ | assumption | exact KeepsO.none | apply KeepsO.ite | apply KeepsO.some | exact Part.within_trans (by decide) hL | dsimp only | split

theorem schRead_keeps {L : List Part} {s₀ : State} {m : Master} {o : Nat} {s : State} (hs : Keeps L s₀ s) (hL : Part.within [.sch] L = true) :
    KeepsO L s₀ (schRead m o s) := by
  unfold schRead
  with_reducible repeat' first | intro _ | assumption | apply schGlobal_keeps | apply listRead_keeps | apply State.setSch_keeps | apply reqRead_keeps | apply Keeps.ite | apply Keeps.ite_fst | apply Keeps.ite_snd | exact KeepsO.none | apply KeepsO.ite | apply KeepsO.some | exact Part.within_trans (by decide) hL | dsimp only | split | (refine Keeps.of_some (by assumption) ?_; apply schGlobal_keeps) | (refine Keeps.of_some (by assumption) ?_; apply listRead_keeps) | (refine Keeps.of_some (by assumption) ?_; apply reqRead_keeps)

theorem writeSpillHi_keeps {L : List Part} {s₀ : State} {v : W32} {s : State} (hs : Keeps L s₀ s) (hL : Part.within [.sch] L = true) :
    Keeps L s₀ (writeSpillHi v s) := by
  unfold writeSpillHi
  with_reducible repeat' first | intro _ | assumption | apply spillCheck_keeps | apply State.setSch_keeps | apply Keeps.ite | exact Part.within_trans (by decide) hL | dsimp only | split

theorem writeSpillLo_keeps {L : List Part} {s₀ : State} {v : W32} {s : State} (hs : Keeps L s₀ s) (hL : Part.within [.sch] L = true) :
    Keeps L s₀ (writeSpillLo v s) := by
  unfold writeSpillLo
  with_reducible repeat' first | intro _ | assumption | apply State.setSch_keeps | apply Keeps.ite | exact Part.within_trans (by decide) hL | dsimp only | split

theorem writeList_keeps {L : List Part} {s₀ : State} {l : Nat} {v : W32} {s : State} (hs : Keeps L s₀ s) (hL : Part.within [.sch] L = true) :
    Keeps L s₀ (writeList l v s) := by
  unfold writeList
  with_reducible repeat' first | intro _ | assumption | apply putList_keeps | apply Keeps.ite | exact Part.within_trans (by decide) hL | dsimp only | split

theorem writeArb_keeps {L : List Part} {s₀ : State} {v : W32} {s : State} (hs : Keeps L s₀ s) (hL : Part.within [.sch] L = true) :
    Keeps L s₀ (writeArb v s) := by
  unfold writeArb
  with_reducible repeat' first | intro _ | assumption | apply State.setSch_keeps | apply Keeps.ite | exact Part.within_trans (by decide) hL | dsimp only | split

theorem reqWrite_keeps {L : List Part} {s₀ : State} {m : Master} {o : Nat} {v : W32} {be : BitVec 4} {s : State} (hs : Keeps L s₀ s) (hL : Part.within [.led, .sch, .free] L = true) :
    KeepsE L s₀ (reqWrite m o v be s) := by
  unfold reqWrite
  with_reducible repeat' first | intro _ | assumption | apply putReq_keeps | apply reqGo_keeps | exact KeepsE.error | apply KeepsE.ite | apply KeepsE.ok | exact Part.within_trans (by decide) hL | dsimp only | split

theorem schWrite_keeps {L : List Part} {s₀ : State} {m : Master} {o : Nat} {v : W32} {be : BitVec 4} {s : State} (hs : Keeps L s₀ s) (hL : Part.within [.led, .sch, .free] L = true) :
    KeepsE L s₀ (schWrite m o v be s) := by
  unfold schWrite
  with_reducible repeat' first | intro _ | assumption | apply reqWrite_keeps | apply schRead_keeps | apply writeSpillHi_keeps | apply writeSpillLo_keeps | apply State.setSch_keeps | apply writeList_keeps | apply writeArb_keeps | apply Keeps.ite | apply Keeps.ite_fst | apply Keeps.ite_snd | exact KeepsE.error | apply KeepsE.ite | apply KeepsE.ok | exact Part.within_trans (by decide) hL | dsimp only | split | (refine Keeps.of_ok (by assumption) ?_; apply reqWrite_keeps) | (refine Keeps.of_some (by assumption) ?_; apply schRead_keeps)

end Sys2Proof.Machine
end

