-- ==== Sys2Proof/Laws/KeepsQueueOps.lean ====
section
/-! SUPPORT. What the operations of Machine/QueueOps.lean keep (Laws/Keeps.lean). -/

namespace Sys2Proof.Machine

theorem putQ_keeps {L : List Part} {s₀ : State} {q : QueueNo} {x : Queue} {s : State} (hs : Keeps L s₀ s) (hL : Part.within [.qm] L = true) :
    Keeps L s₀ (putQ q x s) := by
  unfold putQ
  with_reducible repeat' first | intro _ | assumption | apply State.setQm_keeps | exact Part.within_trans (by decide) hL | dsimp only | split

theorem putProd_keeps {L : List Part} {s₀ : State} {m : Master} {x : Producer} {s : State} (hs : Keeps L s₀ s) (hL : Part.within [.qm] L = true) :
    Keeps L s₀ (putProd m x s) := by
  unfold putProd
  with_reducible repeat' first | intro _ | assumption | apply State.setQm_keeps | exact Part.within_trans (by decide) hL | dsimp only | split

theorem putCons_keeps {L : List Part} {s₀ : State} {m : Master} {x : Consumer} {s : State} (hs : Keeps L s₀ s) (hL : Part.within [.qm] L = true) :
    Keeps L s₀ (putCons m x s) := by
  unfold putCons
  with_reducible repeat' first | intro _ | assumption | apply State.setQm_keeps | exact Part.within_trans (by decide) hL | dsimp only | split

theorem noteFree_keeps {L : List Part} {s₀ : State} {s : State} (hs : Keeps L s₀ s) (hL : Part.within [.qm] L = true) :
    Keeps L s₀ (noteFree s) := by
  unfold noteFree
  with_reducible repeat' first | intro _ | assumption | apply State.setQm_keeps | apply Keeps.ite | exact Part.within_trans (by decide) hL | dsimp only | split

theorem clearCell_keeps {L : List Part} {s₀ : State} {c : Nat} {s : State} (hs : Keeps L s₀ s) (hL : Part.within [.qm, .mem] L = true) :
    Keeps L s₀ (clearCell c s) := by
  unfold clearCell
  with_reducible repeat' first | intro _ | assumption | apply State.setQm_keeps | apply State.withMem_keeps | apply memWriteList_wf | apply memWrite32_wf | apply memWrite_wf | apply memFilter_wf | exact Part.within_trans (by decide) hL | dsimp only | split

theorem latchFc_keeps {L : List Part} {s₀ : State} {before : Byte} {s : State} (hs : Keeps L s₀ s) (hL : Part.within [.host] L = true) :
    Keeps L s₀ (latchFc before s) := by
  unfold latchFc
  with_reducible repeat' first | intro _ | assumption | apply State.setHost_keeps | exact Part.within_trans (by decide) hL | dsimp only | split

theorem raiseWatermark_keeps {L : List Part} {s₀ : State} {q : QueueNo} {x : Queue} {s : State} (hs : Keeps L s₀ s) (hL : Part.within [.host, .ism, .fi] L = true) :
    Keeps L s₀ (raiseWatermark q x s) := by
  unfold raiseWatermark
  with_reducible repeat' first | intro _ | assumption | apply raise_keeps | exact Part.within_trans (by decide) hL | dsimp only | split

theorem evalWm_keeps {L : List Part} {s₀ : State} {q : QueueNo} {s : State} (hs : Keeps L s₀ s) (hL : Part.within [.host, .qm, .ism, .fi] L = true) :
    Keeps L s₀ (evalWm q s) := by
  unfold evalWm
  with_reducible repeat' first | intro _ | assumption | apply putQ_keeps | apply raiseWatermark_keeps | apply latchFc_keeps | apply Keeps.ite | exact Part.within_trans (by decide) hL | dsimp only | split

theorem changeQ_keeps {L : List Part} {s₀ : State} {q : QueueNo} {x : Queue} {s : State} (hs : Keeps L s₀ s) (hL : Part.within [.host, .qm, .ism, .fi] L = true) :
    Keeps L s₀ (changeQ q x s) := by
  unfold changeQ
  with_reducible repeat' first | intro _ | assumption | apply evalWm_keeps | apply putQ_keeps | exact Part.within_trans (by decide) hL | dsimp only | split

theorem rewindPkt_keeps {L : List Part} {s₀ : State} {m : Master} {s : State} (hs : Keeps L s₀ s) (hL : Part.within [.host, .qm, .ism, .fi] L = true) :
    Keeps L s₀ (rewindPkt m s) := by
  unfold rewindPkt
  with_reducible repeat' first | intro _ | assumption | apply putProd_keeps | apply changeQ_keeps | apply Keeps.ite | exact Part.within_trans (by decide) hL | dsimp only | split

theorem stampCell_keeps {L : List Part} {s₀ : State} {tag : W32} {c : Nat} {s : State} (hs : Keeps L s₀ s) (hL : Part.within [.mem] L = true) :
    Keeps L s₀ (stampCell tag c s) := by
  unfold stampCell
  with_reducible repeat' first | intro _ | assumption | apply State.withMem_keeps | apply memWriteList_wf | apply memWrite32_wf | apply memWrite_wf | apply memFilter_wf | exact Part.within_trans (by decide) hL | dsimp only | split

theorem clearTail_keeps {L : List Part} {s₀ : State} {cells : List Nat} {len : Nat} {words : Nat} {s : State} (hs : Keeps L s₀ s) (hL : Part.within [.mem] L = true) :
    Keeps L s₀ (clearTail cells len words s) := by
  unfold clearTail
  with_reducible repeat' first | intro _ | assumption | apply State.withMem_keeps | apply Keeps.foldl | apply memWriteList_wf | apply memWrite32_wf | apply memWrite_wf | apply memFilter_wf | exact Part.within_trans (by decide) hL | dsimp only | split

theorem commitToken_keeps {L : List Part} {s₀ : State} {q : QueueNo} {s : State} (hs : Keeps L s₀ s) (hL : Part.within [.sch, .free] L = true) :
    Keeps L s₀ (commitToken q s) := by
  unfold commitToken
  with_reducible repeat' first | intro _ | assumption | apply dataToken_keeps | apply Keeps.ite | exact Part.within_trans (by decide) hL | dsimp only | split

theorem linkPkt_keeps {L : List Part} {s₀ : State} {q : QueueNo} {p : Packet} {s : State} (hs : Keeps L s₀ s) (hL : Part.within [.sch, .qm, .free] L = true) :
    Keeps L s₀ (linkPkt q p s) := by
  unfold linkPkt
  with_reducible repeat' first | intro _ | assumption | apply commitToken_keeps | apply putQ_keeps | exact Part.within_trans (by decide) hL | dsimp only | split

theorem linkHeld_keeps {L : List Part} {s₀ : State} {l : List HeldUnit} {s : State} (hs : Keeps L s₀ s) (hL : Part.within [.sch, .qm, .free] L = true) :
    Keeps L s₀ (linkHeld l s) := by
  unfold linkHeld
  with_reducible repeat' first | intro _ | assumption | apply linkPkt_keeps | apply Keeps.foldl | exact Part.within_trans (by decide) hL | dsimp only | split

theorem corruptPkt_keeps {L : List Part} {s₀ : State} {point : Word} {p : Packet} {n : Nat} {unit : Nat} {recalc : Bool} {s : State} (hs : Keeps L s₀ s) (hL : Part.within [.mem] L = true) :
    Keeps L s₀ (corruptPkt point p n unit recalc s) := by
  unfold corruptPkt
  with_reducible repeat' first | intro _ | assumption | apply State.withMem_keeps | apply stampCell_keeps | apply Keeps.foldl | apply Keeps.ite | apply memWriteList_wf | apply memWrite32_wf | apply memWrite_wf | apply memFilter_wf | exact Part.within_trans (by decide) hL | dsimp only | split

theorem passQueuePoint_keeps {L : List Part} {s₀ : State} {q : QueueNo} {p : Packet} {s : State} (hs : Keeps L s₀ s) (hL : Part.within parts14 L = true) :
    Keeps L s₀ (passQueuePoint q p s) := by
  unfold passQueuePoint
  with_reducible repeat' first | intro _ | assumption | apply fiStep_keeps | apply linkPkt_keeps | apply changeQ_keeps | apply corruptPkt_keeps | apply linkHeld_keeps | apply Keeps.ite | apply Keeps.ite_fst | apply Keeps.ite_snd | exact Part.within_trans (by decide) hL | dsimp only | split | (refine Keeps.of_snd (by assumption) ?_; apply fiStep_keeps)

theorem commitPkt_keeps {L : List Part} {s₀ : State} {m : Master} {q : QueueNo} {len : Nat} {time : W32} {s : State} (hs : Keeps L s₀ s) (hL : Part.within parts14 L = true) :
    Keeps L s₀ (commitPkt m q len time s) := by
  unfold commitPkt
  with_reducible repeat' first | intro _ | assumption | apply clearTail_keeps | apply State.withMem_keeps | apply stampCell_keeps | apply putProd_keeps | apply passQueuePoint_keeps | apply Keeps.foldl | apply memWriteList_wf | apply memWrite32_wf | apply memWrite_wf | apply memFilter_wf | exact Part.within_trans (by decide) hL | dsimp only | split

theorem closePkt_keeps {L : List Part} {s₀ : State} {m : Master} {valid : Nat} {bad : Bool} {time : Option W32} {s : State} (hs : Keeps L s₀ s) (hL : Part.within parts14 L = true) :
    Keeps L s₀ (closePkt m valid bad time s) := by
  unfold closePkt
  with_reducible repeat' first | intro _ | assumption | apply putProd_keeps | apply rewindPkt_keeps | apply commitPkt_keeps | apply Keeps.ite | exact Part.within_trans (by decide) hL | dsimp only | split

theorem openPkt_keeps {L : List Part} {s₀ : State} {m : Master} {q : QueueNo} {s : State} (hs : Keeps L s₀ s) (hL : Part.within [.host, .qm, .ism, .fi] L = true) :
    Keeps L s₀ (openPkt m q s) := by
  unfold openPkt
  with_reducible repeat' first | intro _ | assumption | apply rewindPkt_keeps | apply putProd_keeps | apply Keeps.ite | exact Part.within_trans (by decide) hL | dsimp only | split

theorem refuseCell_keeps {L : List Part} {s₀ : State} {m : Master} {q : QueueNo} {big : Bool} {s : State} (hs : Keeps L s₀ s) (hL : Part.within [.qm] L = true) :
    Keeps L s₀ (refuseCell m q big s) := by
  unfold refuseCell
  with_reducible repeat' first | intro _ | assumption | apply State.setQm_keeps | apply putProd_keeps | apply putQ_keeps | apply Keeps.ite | exact Part.within_trans (by decide) hL | dsimp only | split

theorem takeCell_keeps {L : List Part} {s₀ : State} {m : Master} {q : QueueNo} {s : State} (hs : Keeps L s₀ s) (hL : Part.within parts07 L = true) :
    Keeps L s₀ (takeCell m q s) := by
  unfold takeCell
  with_reducible repeat' first | intro _ | assumption | apply clearCell_keeps | apply State.draw_keeps | apply noteFree_keeps | apply putProd_keeps | apply changeQ_keeps | exact Part.within_trans (by decide) hL | dsimp only | split

theorem storeWord_keeps {L : List Part} {s₀ : State} {m : Master} {w : W32} {s : State} (hs : Keeps L s₀ s) (hL : Part.within [.qm, .mem] L = true) :
    Keeps L s₀ (storeWord m w s) := by
  unfold storeWord
  with_reducible repeat' first | intro _ | assumption | apply State.withMem_keeps | apply putProd_keeps | apply memWriteList_wf | apply memWrite32_wf | apply memWrite_wf | apply memFilter_wf | exact Part.within_trans (by decide) hL | dsimp only | split

theorem dataWrite_keeps {L : List Part} {s₀ : State} {m : Master} {w : W32} {s : State} (hs : Keeps L s₀ s) (hL : Part.within parts07 L = true) :
    Keeps L s₀ (dataWrite m w s) := by
  unfold dataWrite
  with_reducible repeat' first | intro _ | assumption | apply putProd_keeps | apply refuseCell_keeps | apply storeWord_keeps | apply takeCell_keeps | apply Keeps.ite | exact Part.within_trans (by decide) hL | dsimp only | split

theorem writePacket_keeps {L : List Part} {s₀ : State} {m : Master} {q : QueueNo} {l : List Byte} {tag : W32} {time : Option W32} {bad : Bool} {s : State} (hs : Keeps L s₀ s) (hL : Part.within parts14 L = true) :
    Keeps L s₀ (writePacket m q l tag time bad s) := by
  unfold writePacket
  with_reducible repeat' first | intro _ | assumption | apply putProd_keeps | apply openPkt_keeps | apply dataWrite_keeps | apply closePkt_keeps | apply Keeps.foldl | apply Keeps.ite | exact Part.within_trans (by decide) hL | dsimp only | split

theorem noteRead_keeps {L : List Part} {s₀ : State} {m : Master} {p : Packet} {s : State} (hs : Keeps L s₀ s) (hL : Part.within [.qm] L = true) :
    Keeps L s₀ (noteRead m p s) := by
  unfold noteRead
  with_reducible repeat' first | intro _ | assumption | apply State.setQm_keeps | apply putCons_keeps | apply Keeps.ite | exact Part.within_trans (by decide) hL | dsimp only | split

theorem selectQueue_keeps {L : List Part} {s₀ : State} {m : Master} {q : QueueNo} {deselect : Bool} {s : State} (hs : Keeps L s₀ s) (hL : Part.within [.qm] L = true) :
    Keeps L s₀ (selectQueue m q deselect s) := by
  unfold selectQueue
  with_reducible repeat' first | intro _ | assumption | apply putCons_keeps | apply Keeps.ite | exact Part.within_trans (by decide) hL | dsimp only | split

theorem dataRead_keeps {L : List Part} {s₀ : State} {m : Master} {s : State} (hs : Keeps L s₀ s) (hL : Part.within [.qm] L = true) :
    Keeps L s₀ (dataRead m s).1 := by
  unfold dataRead
  with_reducible repeat' first | intro _ | assumption | apply State.setQm_keeps | apply putCons_keeps | apply Keeps.ite | apply Keeps.ite_fst | apply Keeps.ite_snd | exact Part.within_trans (by decide) hL | dsimp only | split

theorem popHead_keeps {L : List Part} {s₀ : State} {q : QueueNo} {s : State} (hs : Keeps L s₀ s) (hL : Part.within [.host, .qm, .ism, .fi] L = true) :
    Keeps L s₀ (popHead q s) := by
  unfold popHead
  with_reducible repeat' first | intro _ | assumption | apply changeQ_keeps | exact Part.within_trans (by decide) hL | dsimp only | split

theorem releaseHead_keeps {L : List Part} {s₀ : State} {m : Master} {s : State} (hs : Keeps L s₀ s) (hL : Part.within [.host, .qm, .ism, .fi] L = true) :
    Keeps L s₀ (releaseHead m s) := by
  unfold releaseHead
  with_reducible repeat' first | intro _ | assumption | apply putCons_keeps | apply popHead_keeps | apply Keeps.ite | exact Part.within_trans (by decide) hL | dsimp only | split

theorem flushQueue_keeps {L : List Part} {s₀ : State} {q : QueueNo} {s : State} (hs : Keeps L s₀ s) (hL : Part.within [.host, .qm, .ism, .fi] L = true) :
    Keeps L s₀ (flushQueue q s) := by
  unfold flushQueue
  with_reducible repeat' first | intro _ | assumption | apply putFi_keeps | apply State.setQm_keeps | apply changeQ_keeps | apply Keeps.ite | apply Keeps.ite_fst | apply Keeps.ite_snd | exact Part.within_trans (by decide) hL | dsimp only | split

theorem cellReturn_keeps {L : List Part} {s₀ : State} {s : State} (hs : Keeps L s₀ s) (hL : Part.within [.qm] L = true) :
    Keeps L s₀ (cellReturn s) := by
  unfold cellReturn
  with_reducible repeat' first | intro _ | assumption | apply State.setQm_keeps | exact Part.within_trans (by decide) hL | dsimp only | split

theorem disableQueue_keeps {L : List Part} {s₀ : State} {q : QueueNo} {s : State} (hs : Keeps L s₀ s) (hL : Part.within [.host, .qm, .ism, .fi] L = true) :
    Keeps L s₀ (disableQueue q s) := by
  unfold disableQueue
  with_reducible repeat' first | intro _ | assumption | apply flushQueue_keeps | apply putQ_keeps | exact Part.within_trans (by decide) hL | dsimp only | split

theorem qmGlobal_keeps {L : List Part} {s₀ : State} {s : State} {o : Nat} (hs : Keeps L s₀ s) (hL : Part.within [.qm] L = true) :
    KeepsO L s₀ (qmGlobal s o) := by
  unfold qmGlobal
  with_reducible repeat' first | intro _ | assumption | apply State.setQm_keeps | exact KeepsO.none | apply KeepsO.ite | apply KeepsO.some | exact Part.within_trans (by decide) hL | dsimp only | split

theorem descRead_keeps {L : List Part} {s₀ : State} {q : QueueNo} {i : Nat} {s : State} (hs : Keeps L s₀ s) (hL : Part.within [.qm] L = true) :
    Keeps L s₀ (descRead q i s).1 := by
  unfold descRead
  with_reducible repeat' first | intro _ | assumption | apply putQ_keeps | exact Part.within_trans (by decide) hL | dsimp only | split

theorem linkRead_keeps {L : List Part} {s₀ : State} {c : Nat} {s : State} (hs : Keeps L s₀ s) (hL : Part.within [.free] L = true) :
    Keeps L s₀ (linkRead c s).1 := by
  unfold linkRead
  with_reducible repeat' first | intro _ | assumption | apply State.draw_keeps | apply Keeps.ite | apply Keeps.ite_fst | apply Keeps.ite_snd | exact Part.within_trans (by decide) hL | dsimp only | split

theorem prodRead_keeps {L : List Part} {s₀ : State} {m : Master} {o : Nat} {s : State} (hs : Keeps L s₀ s) (hL : Part.within [] L = true) :
    KeepsO L s₀ (prodRead m o s) := by
  unfold prodRead
  with_reducible repeat' first | intro _ | assumption | exact KeepsO.none | apply KeepsO.ite | apply KeepsO.some | exact Part.within_trans (by decide) hL | dsimp only | split

theorem consRead_keeps {L : List Part} {s₀ : State} {m : Master} {o : Nat} {s : State} (hs : Keeps L s₀ s) (hL : Part.within [.qm] L = true) :
    KeepsO L s₀ (consRead m o s) := by
  unfold consRead
  with_reducible repeat' first | intro _ | assumption | apply dataRead_keeps | apply Keeps.ite | apply Keeps.ite_fst | apply Keeps.ite_snd | exact KeepsO.none | apply KeepsO.ite | apply KeepsO.some | exact Part.within_trans (by decide) hL | dsimp only | split | (refine Keeps.of_fst (by assumption) ?_; apply dataRead_keeps)

theorem qmRead_keeps {L : List Part} {s₀ : State} {m : Master} {o : Nat} {s : State} (hs : Keeps L s₀ s) (hL : Part.within [.qm, .free] L = true) :
    KeepsO L s₀ (qmRead m o s) := by
  unfold qmRead
  with_reducible repeat' first | intro _ | assumption | apply qmGlobal_keeps | apply prodRead_keeps | apply consRead_keeps | apply descRead_keeps | apply linkRead_keeps | apply Keeps.ite | apply Keeps.ite_fst | apply Keeps.ite_snd | exact KeepsO.none | apply KeepsO.ite | apply KeepsO.some | exact Part.within_trans (by decide) hL | dsimp only | split | (refine Keeps.of_some (by assumption) ?_; apply qmGlobal_keeps) | (refine Keeps.of_some (by assumption) ?_; apply prodRead_keeps) | (refine Keeps.of_some (by assumption) ?_; apply consRead_keeps) | (refine Keeps.of_fst (by assumption) ?_; apply descRead_keeps) | (refine Keeps.of_fst (by assumption) ?_; apply linkRead_keeps)

theorem writeCtl_keeps {L : List Part} {s₀ : State} {q : QueueNo} {w : W32} {s : State} (hs : Keeps L s₀ s) (hL : Part.within [.host, .qm, .ism, .fi] L = true) :
    Keeps L s₀ (writeCtl q w s) := by
  unfold writeCtl
  with_reducible repeat' first | intro _ | assumption | apply flushQueue_keeps | apply putQ_keeps | apply Keeps.ite | exact Part.within_trans (by decide) hL | dsimp only | split

theorem rewatch_keeps {L : List Part} {s₀ : State} {q : QueueNo} {x : Queue} {s : State} (hs : Keeps L s₀ s) (hL : Part.within [.host, .qm, .ism, .fi] L = true) :
    Keeps L s₀ (rewatch q x s) := by
  unfold rewatch
  with_reducible repeat' first | intro _ | assumption | apply latchFc_keeps | apply evalWm_keeps | apply putQ_keeps | exact Part.within_trans (by decide) hL | dsimp only | split

theorem writeWmHi_keeps {L : List Part} {s₀ : State} {q : QueueNo} {w : W32} {s : State} (hs : Keeps L s₀ s) (hL : Part.within [.host, .qm, .ism, .fi] L = true) :
    Keeps L s₀ (writeWmHi q w s) := by
  unfold writeWmHi
  with_reducible repeat' first | intro _ | assumption | apply rewatch_keeps | apply Keeps.ite | exact Part.within_trans (by decide) hL | dsimp only | split

theorem writeWmLo_keeps {L : List Part} {s₀ : State} {q : QueueNo} {w : W32} {s : State} (hs : Keeps L s₀ s) (hL : Part.within [.host, .qm, .ism, .fi] L = true) :
    Keeps L s₀ (writeWmLo q w s) := by
  unfold writeWmLo
  with_reducible repeat' first | intro _ | assumption | apply rewatch_keeps | apply Keeps.ite | exact Part.within_trans (by decide) hL | dsimp only | split

theorem writeQStat_keeps {L : List Part} {s₀ : State} {q : QueueNo} {w : W32} {s : State} (hs : Keeps L s₀ s) (hL : Part.within [.host, .qm, .ism, .fi] L = true) :
    Keeps L s₀ (writeQStat q w s) := by
  unfold writeQStat
  with_reducible repeat' first | intro _ | assumption | apply putQ_keeps | apply flushQueue_keeps | apply Keeps.ite | exact Part.within_trans (by decide) hL | dsimp only | split

theorem writeNotify_keeps {L : List Part} {s₀ : State} {q : QueueNo} {w : W32} {s : State} (hs : Keeps L s₀ s) (hL : Part.within [.qm] L = true) :
    Keeps L s₀ (writeNotify q w s) := by
  unfold writeNotify
  with_reducible repeat' first | intro _ | assumption | apply putQ_keeps | apply Keeps.ite | exact Part.within_trans (by decide) hL | dsimp only | split

theorem descWrite_keeps {L : List Part} {s₀ : State} {m : Master} {q : QueueNo} {i : Nat} {v : W32} {be : BitVec 4} {s : State} (hs : Keeps L s₀ s) (hL : Part.within [.host, .qm, .ism, .fi] L = true) :
    KeepsE L s₀ (descWrite m q i v be s) := by
  unfold descWrite
  with_reducible repeat' first | intro _ | assumption | apply writeCtl_keeps | apply writeWmHi_keeps | apply writeWmLo_keeps | apply writeQStat_keeps | apply writeNotify_keeps | apply Keeps.ite | exact KeepsE.error | apply KeepsE.ite | apply KeepsE.ok | exact Part.within_trans (by decide) hL | dsimp only | split

theorem qmWrite_keeps {L : List Part} {s₀ : State} {m : Master} {o : Nat} {v : W32} {be : BitVec 4} {s : State} (hs : Keeps L s₀ s) (hL : Part.within parts14 L = true) :
    KeepsE L s₀ (qmWrite m o v be s) := by
  unfold qmWrite
  with_reducible repeat' first | intro _ | assumption | apply State.setQm_keeps | apply openPkt_keeps | apply dataWrite_keeps | apply closePkt_keeps | apply putProd_keeps | apply selectQueue_keeps | apply releaseHead_keeps | apply descWrite_keeps | apply Keeps.ite | exact KeepsE.error | apply KeepsE.ite | apply KeepsE.ok | exact Part.within_trans (by decide) hL | dsimp only | split | (refine Keeps.of_ok (by assumption) ?_; apply descWrite_keeps)

end Sys2Proof.Machine
end

