-- ==== Sys2Proof/Laws/KeepsNet.lean ====
section
/-! SUPPORT. What the operations of Machine/Net.lean keep (Laws/Keeps.lean). -/

namespace Sys2Proof.Machine

theorem putPort_keeps {L : List Part} {s₀ : State} {p : PortNo} {x : EthPort} {s : State} (hs : Keeps L s₀ s) (hL : Part.within [.sw] L = true) :
    Keeps L s₀ (putPort p x s) := by
  unfold putPort
  with_reducible repeat' first | exact id | (intro h; simpa only [setAt, List.length_set, List.length_map, List.length_replicate] using h) | exact fun _ => rfl | with_unfolding_all exact id | intro _ | assumption | apply State.setSw_keeps | exact Part.within_trans (by decide) hL | dsimp only | split

theorem startTx_keeps {L : List Part} {s₀ : State} {p : PortNo} {s : State} (hs : Keeps L s₀ s) (hL : Part.within parts06 L = true) :
    Keeps L s₀ (startTx p s) := by
  unfold startTx
  with_reducible repeat' first | intro _ | assumption | apply putPort_keeps | apply State.draw_keeps | apply popHead_keeps | apply noteRead_keeps | apply Keeps.ite | exact Part.within_trans (by decide) hL | dsimp only | split

theorem engineSend_keeps {L : List Part} {s₀ : State} {p : PortNo} {c : Nat} {f : List Byte} {s : State} (hs : Keeps L s₀ s) (hL : Part.within parts06 L = true) :
    Keeps L s₀ (engineSend p c f s) := by
  unfold engineSend
  with_reducible repeat' first | intro _ | assumption | apply startTx_keeps | apply putPort_keeps | apply Keeps.ite | apply Keeps.ite_fst | apply Keeps.ite_snd | exact Part.within_trans (by decide) hL | dsimp only | split

theorem txDone_keeps {L : List Part} {s₀ : State} {p : PortNo} {s : State} (hs : Keeps L s₀ s) (hL : Part.within parts06 L = true) :
    Keeps L s₀ (txDone p s) := by
  unfold txDone
  with_reducible repeat' first | intro _ | assumption | apply putPort_keeps | apply fiStep_keeps | apply startTx_keeps | exact Part.within_trans (by decide) hL | dsimp only | split | (refine Keeps.of_snd (by assumption) ?_; apply fiStep_keeps)

theorem flushTx_keeps {L : List Part} {s₀ : State} {p : PortNo} {k : Nat} {s : State} (hs : Keeps L s₀ s) (hL : Part.within parts06 L = true) :
    Keeps L s₀ (flushTx p k s) := by
  induction k generalizing s with
  | zero => exact hs
  | succ k ih =>
    unfold flushTx
    with_reducible repeat' first | intro _ | assumption | apply ih | apply txDone_keeps | apply putPort_keeps | apply Keeps.ite | exact Part.within_trans (by decide) hL | dsimp only | split

theorem drainPort_keeps {L : List Part} {s₀ : State} {p : PortNo} {s : State} (hs : Keeps L s₀ s) (hL : Part.within parts06 L = true) :
    Keeps L s₀ (drainPort p s) := by
  unfold drainPort
  with_reducible repeat' first | intro _ | assumption | apply flushTx_keeps | apply putPort_keeps | exact Part.within_trans (by decide) hL | dsimp only | split

theorem forwardTo_keeps {L : List Part} {s₀ : State} {inp : PortNo} {p : PortNo} {cls : Nat} {f : List Byte} {time : W32} {bad : Bool} {s : State} (hs : Keeps L s₀ s) (hL : Part.within parts18 L = true) :
    Keeps L s₀ (forwardTo inp p cls f time bad s) := by
  unfold forwardTo
  with_reducible repeat' first | intro _ | assumption | apply putPort_keeps | apply startTx_keeps | apply writePacket_keeps | apply Keeps.ite | exact Part.within_trans (by decide) hL | dsimp only | split

theorem learn_keeps {L : List Part} {s₀ : State} {vid : BitVec 12} {src : Mac} {p : PortNo} {s : State} (hs : Keeps L s₀ s) (hL : Part.within [.sw] L = true) :
    Keeps L s₀ (learn vid src p s) := by
  unfold learn
  with_reducible repeat' first | exact id | (intro h; simpa only [setAt, List.length_set, List.length_map, List.length_replicate] using h) | exact fun _ => rfl | with_unfolding_all exact id | intro _ | assumption | apply State.setSw_keeps | apply Keeps.ite | apply Keeps.ite_fst | apply Keeps.ite_snd | exact Part.within_trans (by decide) hL | dsimp only | split

theorem takeRouter_keeps {L : List Part} {s₀ : State} {p : PortNo} {s : State} (hs : Keeps L s₀ s) (hL : Part.within [.sw] L = true) :
    Keeps L s₀ (takeRouter p s) := by
  unfold takeRouter
  with_reducible repeat' first | intro _ | assumption | apply putPort_keeps | apply Keeps.ite | exact Part.within_trans (by decide) hL | dsimp only | split

theorem offLinkHop_keeps {L : List Part} {s₀ : State} {p : PortNo} {s : State} (hs : Keeps L s₀ s) (hL : Part.within [.sw] L = true) :
    Keeps L s₀ (offLinkHop p s) := by
  unfold offLinkHop
  with_reducible repeat' first | intro _ | assumption | apply takeRouter_keeps | apply Keeps.ite | exact Part.within_trans (by decide) hL | dsimp only | split

theorem sendIn_keeps {L : List Part} {s₀ : State} {p : PortNo} {cls : Nat} {pcp : BitVec 3} {dst : Mac} {etype : Nat} {payload : List Byte} {s : State} (hs : Keeps L s₀ s) (hL : Part.within parts06 L = true) :
    Keeps L s₀ (sendIn p cls pcp dst etype payload s) := by
  unfold sendIn
  with_reducible repeat' first | intro _ | assumption | apply engineSend_keeps | exact Part.within_trans (by decide) hL | dsimp only | split

theorem sendL2_keeps {L : List Part} {s₀ : State} {p : PortNo} {pcp : BitVec 3} {dst : Mac} {etype : Nat} {payload : List Byte} {s : State} (hs : Keeps L s₀ s) (hL : Part.within parts06 L = true) :
    Keeps L s₀ (sendL2 p pcp dst etype payload s) := by
  unfold sendL2
  with_reducible repeat' first | intro _ | assumption | apply sendIn_keeps | exact Part.within_trans (by decide) hL | dsimp only | split

theorem sendResolve_keeps {L : List Part} {s₀ : State} {p : PortNo} {ip : Ip} {s : State} (hs : Keeps L s₀ s) (hL : Part.within parts06 L = true) :
    Keeps L s₀ (sendResolve p ip s) := by
  unfold sendResolve
  with_reducible repeat' first | intro _ | assumption | apply sendL2_keeps | apply Keeps.ite | exact Part.within_trans (by decide) hL | dsimp only | split

theorem resolve_keeps {L : List Part} {s₀ : State} {p : PortNo} {ip : Ip} {s : State} (hs : Keeps L s₀ s) (hL : Part.within parts06 L = true) :
    Keeps L s₀ (resolve p ip s).2 := by
  unfold resolve
  with_reducible repeat' first | exact id | (intro h; simpa only [setAt, List.length_set, List.length_map, List.length_replicate] using h) | exact fun _ => rfl | with_unfolding_all exact id | intro _ | assumption | apply sendResolve_keeps | apply State.setSw_keeps | apply Keeps.ite | apply Keeps.ite_fst | apply Keeps.ite_snd | exact Part.within_trans (by decide) hL | dsimp only | split

theorem sendIp_keeps {L : List Part} {s₀ : State} {p : PortNo} {pcp : BitVec 3} {dst : Ip} {packet : List Byte} {s : State} (hs : Keeps L s₀ s) (hL : Part.within parts06 L = true) :
    Keeps L s₀ (sendIp p pcp dst packet s).2 := by
  unfold sendIp
  with_reducible repeat' first | intro _ | assumption | apply offLinkHop_keeps | apply resolve_keeps | apply putPort_keeps | apply sendL2_keeps | apply Keeps.ite | apply Keeps.ite_fst | apply Keeps.ite_snd | exact Part.within_trans (by decide) hL | dsimp only | split | (refine Keeps.of_snd (by assumption) ?_; apply resolve_keeps)

theorem sendUdp_keeps {L : List Part} {s₀ : State} {p : PortNo} {pcp : BitVec 3} {dst : Ip} {sp : Word} {dp : Word} {l : List Byte} {s : State} (hs : Keeps L s₀ s) (hL : Part.within parts06 L = true) :
    Keeps L s₀ (sendUdp p pcp dst sp dp l s).2 := by
  unfold sendUdp
  with_reducible repeat' first | intro _ | assumption | apply sendIp_keeps | apply State.draw_keeps | apply Keeps.ite | apply Keeps.ite_fst | apply Keeps.ite_snd | exact Part.within_trans (by decide) hL | dsimp only | split | (refine Keeps.of_snd (by assumption) ?_; apply sendIp_keeps)

theorem neighbourHeard_keeps {L : List Part} {s₀ : State} {p : PortNo} {ip : Ip} {mac : Mac} {s : State} (hs : Keeps L s₀ s) (hL : Part.within [.sw] L = true) :
    Keeps L s₀ (neighbourHeard p ip mac s) := by
  unfold neighbourHeard
  with_reducible repeat' first | exact id | (intro h; simpa only [setAt, List.length_set, List.length_map, List.length_replicate] using h) | exact fun _ => rfl | with_unfolding_all exact id | intro _ | assumption | apply State.setSw_keeps | apply Keeps.ite | exact Part.within_trans (by decide) hL | dsimp only | split

theorem arpArrive_keeps {L : List Part} {s₀ : State} {p : PortNo} {l : List Byte} {s : State} (hs : Keeps L s₀ s) (hL : Part.within parts06 L = true) :
    Keeps L s₀ (arpArrive p l s) := by
  unfold arpArrive
  with_reducible repeat' first | intro _ | assumption | apply sendL2_keeps | apply neighbourHeard_keeps | apply Keeps.ite | exact Part.within_trans (by decide) hL | dsimp only | split

theorem ndArrive_keeps {L : List Part} {s₀ : State} {p : PortNo} {src : Ip} {l : List Byte} {mac : Mac} {s : State} (hs : Keeps L s₀ s) (hL : Part.within parts06 L = true) :
    Keeps L s₀ (ndArrive p src l mac s) := by
  unfold ndArrive
  with_reducible repeat' first | intro _ | assumption | apply sendL2_keeps | apply neighbourHeard_keeps | apply Keeps.ite | exact Part.within_trans (by decide) hL | dsimp only | split

theorem echoReply_keeps {L : List Part} {s₀ : State} {p : PortNo} {src : Ip} {size : Nat} {v6 : Bool} {l : List Byte} {s : State} (hs : Keeps L s₀ s) (hL : Part.within parts06 L = true) :
    Keeps L s₀ (echoReply p src size v6 l s) := by
  unfold echoReply
  with_reducible repeat' first | intro _ | assumption | apply putPort_keeps | apply sendIp_keeps | apply State.draw_keeps | apply Keeps.ite | apply Keeps.ite_fst | apply Keeps.ite_snd | exact Part.within_trans (by decide) hL | dsimp only | split | (refine Keeps.of_snd (by assumption) ?_; apply sendIp_keeps)

theorem writeRouter_keeps {L : List Part} {s₀ : State} {p : PortNo} {i : Nat} {v : W32} {s : State} (hs : Keeps L s₀ s) (hL : Part.within [.sw] L = true) :
    Keeps L s₀ (writeRouter p i v s) := by
  unfold writeRouter
  with_reducible repeat' first | intro _ | assumption | apply putPort_keeps | apply Keeps.ite | exact Part.within_trans (by decide) hL | dsimp only | split

theorem portCounter_keeps {L : List Part} {s₀ : State} {p : PortNo} {i : Nat} {s : State} (hs : Keeps L s₀ s) (hL : Part.within [.sw] L = true) :
    Keeps L s₀ (portCounter p i s).1 := by
  unfold portCounter
  with_reducible repeat' first | intro _ | assumption | apply putPort_keeps | exact Part.within_trans (by decide) hL | dsimp only | split

theorem swRead_keeps {L : List Part} {s₀ : State} {o : Nat} {s : State} (hs : Keeps L s₀ s) (hL : Part.within [.sw] L = true) :
    KeepsO L s₀ (swRead o s) := by
  unfold swRead
  with_reducible repeat' first | exact id | (intro h; simpa only [setAt, List.length_set, List.length_map, List.length_replicate] using h) | exact fun _ => rfl | with_unfolding_all exact id | intro _ | assumption | apply portCounter_keeps | apply State.setSw_keeps | apply Keeps.ite | apply Keeps.ite_fst | apply Keeps.ite_snd | exact KeepsO.none | apply KeepsO.ite | apply KeepsO.some | exact Part.within_trans (by decide) hL | dsimp only | split | (refine Keeps.of_fst (by assumption) ?_; apply portCounter_keeps)

theorem swWrite_keeps {L : List Part} {s₀ : State} {o : Nat} {v : W32} {be : BitVec 4} {s : State} (hs : Keeps L s₀ s) (hL : Part.within [.sw] L = true) :
    KeepsE L s₀ (swWrite o v be s) := by
  unfold swWrite
  with_reducible repeat' first | intro _ | assumption | apply swRead_keeps | apply writeRouter_keeps | apply Keeps.ite | apply Keeps.ite_fst | apply Keeps.ite_snd | exact KeepsE.error | apply KeepsE.ite | apply KeepsE.ok | exact Part.within_trans (by decide) hL | dsimp only | split | (refine Keeps.of_some (by assumption) ?_; apply swRead_keeps)

theorem putHwy_keeps {L : List Part} {s₀ : State} {n : HwyNo} {x : Highway} {s : State} (hs : Keeps L s₀ s) (hL : Part.within [.tdm] L = true) :
    Keeps L s₀ (putHwy n x s) := by
  unfold putHwy
  with_reducible repeat' first | exact id | (intro h; simpa only [setAt, List.length_set, List.length_map, List.length_replicate] using h) | exact fun _ => rfl | with_unfolding_all exact id | intro _ | assumption | apply State.setTdm_keeps | exact Part.within_trans (by decide) hL | dsimp only | split

theorem hwyRead_keeps {L : List Part} {s₀ : State} {n : HwyNo} {i : Nat} {s : State} (hs : Keeps L s₀ s) (hL : Part.within [.tdm] L = true) :
    KeepsO L s₀ (hwyRead n i s) := by
  unfold hwyRead
  with_reducible repeat' first | intro _ | assumption | apply putHwy_keeps | apply Keeps.ite | apply Keeps.ite_fst | apply Keeps.ite_snd | exact KeepsO.none | apply KeepsO.ite | apply KeepsO.some | exact Part.within_trans (by decide) hL | dsimp only | split

theorem tdmRead_keeps {L : List Part} {s₀ : State} {o : Nat} {s : State} (hs : Keeps L s₀ s) (hL : Part.within [.tdm] L = true) :
    KeepsO L s₀ (tdmRead o s) := by
  unfold tdmRead
  with_reducible repeat' first | intro _ | assumption | apply hwyRead_keeps | apply Keeps.ite | apply Keeps.ite_fst | apply Keeps.ite_snd | exact KeepsO.none | apply KeepsO.ite | apply KeepsO.some | exact Part.within_trans (by decide) hL | dsimp only | split | (refine Keeps.of_some (by assumption) ?_; apply hwyRead_keeps)

theorem tdmWrite_keeps {L : List Part} {s₀ : State} {o : Nat} {s : State} (hs : Keeps L s₀ s) (hL : Part.within [.tdm] L = true) :
    KeepsE L s₀ (tdmWrite o s) := by
  unfold tdmWrite
  with_reducible repeat' first | intro _ | assumption | apply tdmRead_keeps | exact KeepsE.error | apply KeepsE.ite | apply KeepsE.ok | exact Part.within_trans (by decide) hL | dsimp only | split | (refine Keeps.of_some (by assumption) ?_; apply tdmRead_keeps)

end Sys2Proof.Machine
end

