-- ==== Sys2Proof/Laws/KeepsRtp.lean ====
section
/-! SUPPORT. What the operations of Machine/Rtp.lean keep (Laws/Keeps.lean). -/

namespace Sys2Proof.Machine

theorem toIngress_keeps {L : List Part} {s₀ : State} {m : Master} {c : ChanNo} {l : List Byte} {time : W32} {bad : Bool} {s : State} (hs : Keeps L s₀ s) (hL : Part.within parts14 L = true) :
    Keeps L s₀ (toIngress m c l time bad s) := by
  unfold toIngress
  with_reducible repeat' first | intro _ | assumption | apply writePacket_keeps | exact Part.within_trans (by decide) hL | dsimp only | split

theorem countRx_keeps {L : List Part} {s₀ : State} {c : ChanNo} {s : State} (hs : Keeps L s₀ s) (hL : Part.within [.led] L = true) :
    Keeps L s₀ (countRx c s) := by
  unfold countRx
  with_reducible repeat' first | intro _ | assumption | apply modChan_keeps | exact Part.within_trans (by decide) hL | dsimp only | split

theorem countAuthFail_keeps {L : List Part} {s₀ : State} {c : ChanNo} {s : State} (hs : Keeps L s₀ s) (hL : Part.within [.led] L = true) :
    Keeps L s₀ (countAuthFail c s) := by
  unfold countAuthFail
  with_reducible repeat' first | intro _ | assumption | apply modChan_keeps | exact Part.within_trans (by decide) hL | dsimp only | split

theorem countDiscard_keeps {L : List Part} {s₀ : State} {c : ChanNo} {s : State} (hs : Keeps L s₀ s) (hL : Part.within [.led] L = true) :
    Keeps L s₀ (countDiscard c s) := by
  unfold countDiscard
  with_reducible repeat' first | intro _ | assumption | apply modChan_keeps | exact Part.within_trans (by decide) hL | dsimp only | split

theorem rtpArrive_keeps {L : List Part} {s₀ : State} {x : Chan} {l : List Byte} {time : W32} {s : State} (hs : Keeps L s₀ s) (hL : Part.within parts17 L = true) :
    Keeps L s₀ (rtpArrive x l time s) := by
  unfold rtpArrive
  with_reducible repeat' first | intro _ | assumption | apply modChan_keeps | apply toIngress_keeps | apply countRx_keeps | apply countDiscard_keeps | apply countAuthFail_keeps | apply Keeps.ite | exact Part.within_trans (by decide) hL | dsimp only | split

theorem rtcpArrive_keeps {L : List Part} {s₀ : State} {x : Chan} {l : List Byte} {s : State} (hs : Keeps L s₀ s) (hL : Part.within [.led] L = true) :
    Keeps L s₀ (rtcpArrive x l s) := by
  unfold rtcpArrive
  with_reducible repeat' first | intro _ | assumption | apply countAuthFail_keeps | apply modChan_keeps | apply Keeps.ite | exact Part.within_trans (by decide) hL | dsimp only | split

theorem udpArrive_keeps {L : List Part} {s₀ : State} {vid : BitVec 12} {u : UdpView} {time : W32} {bad : Bool} {s : State} (hs : Keeps L s₀ s) (hL : Part.within parts21 L = true) :
    Keeps L s₀ (udpArrive vid u time bad s) := by
  unfold udpArrive
  with_reducible repeat' first | exact id | (intro h; simpa only [setAt, List.length_set, List.length_map, List.length_replicate] using h) | exact fun _ => rfl | with_unfolding_all exact id | intro _ | assumption | apply State.setSw_keeps | apply rtcpArrive_keeps | apply toIngress_keeps | apply rtpArrive_keeps | apply Keeps.ite | exact Part.within_trans (by decide) hL | dsimp only | split

theorem engineArrive_keeps {L : List Part} {s₀ : State} {inp : PortNo} {vid : BitVec 12} {v : EthView} {time : W32} {bad : Bool} {s : State} (hs : Keeps L s₀ s) (hL : Part.within parts21 L = true) :
    Keeps L s₀ (engineArrive inp vid v time bad s) := by
  unfold engineArrive
  with_reducible repeat' first | intro _ | assumption | apply arpArrive_keeps | apply udpArrive_keeps | apply echoReply_keeps | apply ndArrive_keeps | apply Keeps.foldl | apply Keeps.ite | exact Part.within_trans (by decide) hL | dsimp only | split

theorem ethReceive_keeps {L : List Part} {s₀ : State} {p : PortNo} {f : List Byte} {s : State} (hs : Keeps L s₀ s) (hL : Part.within parts21 L = true) :
    Keeps L s₀ (ethReceive p f s) := by
  unfold ethReceive
  with_reducible repeat' first | intro _ | assumption | apply putPort_keeps | apply learn_keeps | apply forwardTo_keeps | apply engineArrive_keeps | apply Keeps.foldl | apply Keeps.ite | exact Part.within_trans (by decide) hL | dsimp only | split

theorem ethReceiveAll_keeps {L : List Part} {s₀ : State} {p : PortNo} {l : List HeldUnit} {s : State} (hs : Keeps L s₀ s) (hL : Part.within parts21 L = true) :
    Keeps L s₀ (ethReceiveAll p l s) := by
  unfold ethReceiveAll
  with_reducible repeat' first | intro _ | assumption | apply ethReceive_keeps | apply Keeps.foldl | exact Part.within_trans (by decide) hL | dsimp only | split

theorem frameArrive_keeps {L : List Part} {s₀ : State} {p : PortNo} {f : List Byte} {s : State} (hs : Keeps L s₀ s) (hL : Part.within parts21 L = true) :
    Keeps L s₀ (frameArrive p f s) := by
  unfold frameArrive
  with_reducible repeat' first | intro _ | assumption | apply fiStep_keeps | apply ethReceive_keeps | apply ethReceiveAll_keeps | exact Part.within_trans (by decide) hL | dsimp only | split | (refine Keeps.of_snd (by assumption) ?_; apply fiStep_keeps)

theorem sessionSend_keeps {L : List Part} {s₀ : State} {x : Chan} {rtcp : Bool} {l : List Byte} {s : State} (hs : Keeps L s₀ s) (hL : Part.within parts06 L = true) :
    Keeps L s₀ (sessionSend x rtcp l s).2 := by
  unfold sessionSend
  with_reducible repeat' first | intro _ | assumption | apply sendUdp_keeps | apply Keeps.ite | apply Keeps.ite_fst | apply Keeps.ite_snd | exact Part.within_trans (by decide) hL | dsimp only | split | (refine Keeps.of_snd (by assumption) ?_; apply sendUdp_keeps)

theorem sendRtp_keeps {L : List Part} {s₀ : State} {x : Chan} {udptl : Bool} {l : List Byte} {s : State} (hs : Keeps L s₀ s) (hL : Part.within parts13 L = true) :
    Keeps L s₀ (sendRtp x udptl l s) := by
  unfold sendRtp
  with_reducible repeat' first | intro _ | assumption | apply modChan_keeps | apply sessionSend_keeps | exact Part.within_trans (by decide) hL | dsimp only | split | (refine Keeps.of_snd (by assumption) ?_; apply sessionSend_keeps)

theorem sendRtcp_keeps {L : List Part} {s₀ : State} {x : Chan} {l : List Byte} {s : State} (hs : Keeps L s₀ s) (hL : Part.within parts13 L = true) :
    Keeps L s₀ (sendRtcp x l s) := by
  unfold sendRtcp
  with_reducible repeat' first | intro _ | assumption | apply modChan_keeps | apply sessionSend_keeps | apply Keeps.ite | apply Keeps.ite_fst | apply Keeps.ite_snd | exact Part.within_trans (by decide) hL | dsimp only | split | (refine Keeps.of_snd (by assumption) ?_; apply sessionSend_keeps)

theorem sendBye_keeps {L : List Part} {s₀ : State} {c : ChanNo} {reason : List Byte} {s : State} (hs : Keeps L s₀ s) (hL : Part.within parts13 L = true) :
    Keeps L s₀ (sendBye c reason s) := by
  unfold sendBye
  with_reducible repeat' first | intro _ | assumption | apply modChan_keeps | apply sendRtcp_keeps | apply Keeps.ite | exact Part.within_trans (by decide) hL | dsimp only | split

theorem senderReport_keeps {L : List Part} {s₀ : State} {x : Chan} {s : State} (hs : Keeps L s₀ s) (hL : Part.within parts13 L = true) :
    Keeps L s₀ (senderReport x s) := by
  unfold senderReport
  with_reducible repeat' first | intro _ | assumption | apply State.drawN_keeps | apply sendRtcp_keeps | exact Part.within_trans (by decide) hL | dsimp only | split

end Sys2Proof.Machine
end

