-- ==== Sys2Proof/Laws/KeepsPack.lean ====
section
/-! SUPPORT. What the operations of Machine/Pack.lean keep (Laws/Keeps.lean). -/

namespace Sys2Proof.Machine

theorem writeRtp_keeps {L : List Part} {s₀ : State} {m : Master} {x : Chan} {marker : Bool} {pt : Nat} {ts : W32} {payload : List Byte} {tag : W32} {s : State} (hs : Keeps L s₀ s) (hL : Part.within parts17 L = true) :
    Keeps L s₀ (writeRtp m x marker pt ts payload tag s) := by
  unfold writeRtp
  with_reducible repeat' first | intro _ | assumption | apply modChan_keeps | apply writePacket_keeps | apply Keeps.ite | exact Part.within_trans (by decide) hL | dsimp only | split

theorem sendEvent_keeps {L : List Part} {s₀ : State} {m : Master} {c : ChanNo} {marker : Bool} {fin : Bool} {s : State} (hs : Keeps L s₀ s) (hL : Part.within parts17 L = true) :
    Keeps L s₀ (sendEvent m c marker fin s) := by
  unfold sendEvent
  with_reducible repeat' first | intro _ | assumption | apply writeRtp_keeps | apply Keeps.ite | exact Part.within_trans (by decide) hL | dsimp only | split

theorem startDigit_keeps {L : List Part} {s₀ : State} {m : Master} {c : ChanNo} {seq : Word} {code : Word} {h : Heard} {s : State} (hs : Keeps L s₀ s) (hL : Part.within parts17 L = true) :
    Keeps L s₀ (startDigit m c seq code h s) := by
  unfold startDigit
  with_reducible repeat' first | intro _ | assumption | apply sendEvent_keeps | apply modChan_keeps | exact Part.within_trans (by decide) hL | dsimp only | split

theorem endDigit_keeps {L : List Part} {s₀ : State} {m : Master} {c : ChanNo} {s : State} (hs : Keeps L s₀ s) (hL : Part.within parts17 L = true) :
    Keeps L s₀ (endDigit m c s) := by
  unfold endDigit
  with_reducible repeat' first | intro _ | assumption | apply sendEvent_keeps | apply modChan_keeps | exact Part.within_trans (by decide) hL | dsimp only | split

theorem dtmfTick_keeps {L : List Part} {s₀ : State} {m : Master} {c : ChanNo} {s : State} (hs : Keeps L s₀ s) (hL : Part.within parts17 L = true) :
    Keeps L s₀ (dtmfTick m c s) := by
  unfold dtmfTick
  with_reducible repeat' first | intro _ | assumption | apply modChan_keeps | apply sendEvent_keeps | apply Keeps.ite | exact Part.within_trans (by decide) hL | dsimp only | split

theorem sendRun_keeps {L : List Part} {s₀ : State} {m : Master} {c : ChanNo} {ts : W32} {l : List UpFrame} {r : VoiceRun} {s : State} (hs : Keeps L s₀ s) (hL : Part.within parts17 L = true) :
    Keeps L s₀ (sendRun m c ts l r s) := by
  unfold sendRun
  with_reducible repeat' first | intro _ | assumption | apply writeRtp_keeps | apply State.drawN_keeps | apply Keeps.ite | exact Part.within_trans (by decide) hL | dsimp only | split

theorem sendFrames_keeps {L : List Part} {s₀ : State} {m : Master} {x : Chan} {l : List UpFrame} {s : State} (hs : Keeps L s₀ s) (hL : Part.within parts17 L = true) :
    Keeps L s₀ (sendFrames m x l s) := by
  unfold sendFrames
  with_reducible repeat' first | intro _ | assumption | apply modChan_keeps | apply sendRun_keeps | apply writeRtp_keeps | apply State.draw_keeps | apply Keeps.foldl | apply Keeps.foldlP | apply Keeps.ite | exact Part.within_trans (by decide) hL | dsimp only | split

theorem buildPacket_keeps {L : List Part} {s₀ : State} {m : Master} {c : ChanNo} {s : State} (hs : Keeps L s₀ s) (hL : Part.within parts17 L = true) :
    Keeps L s₀ (buildPacket m c s) := by
  unfold buildPacket
  with_reducible repeat' first | intro _ | assumption | apply sendFrames_keeps | apply modChan_keeps | apply Keeps.ite | exact Part.within_trans (by decide) hL | dsimp only | split

theorem faxPacket_keeps {L : List Part} {s₀ : State} {m : Master} {c : ChanNo} {u : UpFrame} {s : State} (hs : Keeps L s₀ s) (hL : Part.within parts17 L = true) :
    Keeps L s₀ (faxPacket m c u s) := by
  unfold faxPacket
  with_reducible repeat' first | intro _ | assumption | apply writePacket_keeps | apply modChan_keeps | apply Keeps.ite | exact Part.within_trans (by decide) hL | dsimp only | split

theorem placeUp_keeps {L : List Part} {s₀ : State} {m : Master} {c : ChanNo} {u : UpFrame} {s : State} (hs : Keeps L s₀ s) (hL : Part.within parts17 L = true) :
    Keeps L s₀ (placeUp m c u s) := by
  unfold placeUp
  with_reducible repeat' first | intro _ | assumption | apply modChan_keeps | apply faxPacket_keeps | apply buildPacket_keeps | apply dtmfTick_keeps | apply Keeps.ite | exact Part.within_trans (by decide) hL | dsimp only | split

theorem placeConcealed_keeps {L : List Part} {s₀ : State} {c : ChanNo} {seq : Word} {s : State} (hs : Keeps L s₀ s) (hL : Part.within parts17 L = true) :
    Keeps L s₀ (placeConcealed c seq s) := by
  unfold placeConcealed
  with_reducible repeat' first | intro _ | assumption | apply placeUp_keeps | apply State.draw_keeps | exact Part.within_trans (by decide) hL | dsimp only | split

theorem settleUp_keeps {L : List Part} {s₀ : State} {c : ChanNo} {seq : Word} {s : State} (hs : Keeps L s₀ s) (hL : Part.within parts17 L = true) :
    Keeps L s₀ (settleUp c seq s) := by
  unfold settleUp
  with_reducible repeat' first | intro _ | assumption | apply placeConcealed_keeps | apply Keeps.ite | exact Part.within_trans (by decide) hL | dsimp only | split

theorem loseGraph_keeps {L : List Part} {s₀ : State} {t : Task} {s : State} (hs : Keeps L s₀ s) (hL : Part.within parts17 L = true) :
    Keeps L s₀ (loseGraph t s) := by
  unfold loseGraph
  with_reducible repeat' first | intro _ | assumption | apply cancelGraph_keeps | apply settleUp_keeps | apply Keeps.ite | exact Part.within_trans (by decide) hL | dsimp only | split

end Sys2Proof.Machine
end

