-- ==== Sys2Proof/Laws/KeepsChan.lean ====
section
/-! SUPPORT. What the operations of Machine/Chan.lean keep (Laws/Keeps.lean). -/

namespace Sys2Proof.Machine

theorem applyCal_keeps {L : List Part} {s₀ : State} {item : Word} {s : State} (hs : Keeps L s₀ s) (hL : Part.within [.cal] L = true) :
    Keeps L s₀ (applyCal item s) := by
  unfold applyCal
  with_reducible repeat' first | intro _ | assumption | apply State.setCal_keeps | exact Part.within_trans (by decide) hL | dsimp only | split

theorem settleCal_keeps {L : List Part} {s₀ : State} {s : State} (hs : Keeps L s₀ s) (hL : Part.within [.cal] L = true) :
    Keeps L s₀ (settleCal s) := by
  unfold settleCal
  with_reducible repeat' first | intro _ | assumption | apply applyCal_keeps | apply Keeps.foldl | apply Keeps.foldlP | apply Keeps.ite | exact Part.within_trans (by decide) hL | dsimp only | split

theorem offerCal_keeps {L : List Part} {s₀ : State} {item : Word} {v : Int} {s : State} (hs : Keeps L s₀ s) (hL : Part.within [.cal] L = true) :
    Keeps L s₀ (offerCal item v s) := by
  unfold offerCal
  with_reducible repeat' first | intro _ | assumption | apply settleCal_keeps | apply State.setCal_keeps | exact Part.within_trans (by decide) hL | dsimp only | split

theorem closeSegment_keeps {L : List Part} {s₀ : State} {s : State} (hs : Keeps L s₀ s) (hL : Part.within [.fi, .mem] L = true) :
    Keeps L s₀ (closeSegment s) := by
  unfold closeSegment
  with_reducible repeat' first | intro _ | assumption | apply store_keeps | apply State.setFi_keeps | exact Part.within_trans (by decide) hL | dsimp only | split

theorem safeRecord_keeps {L : List Part} {s₀ : State} {scope : Nat} {id : Nat} {cause : Byte} {s : State} (hs : Keeps L s₀ s) (hL : Part.within [.host, .ism, .fi] L = true) :
    Keeps L s₀ (safeRecord scope id cause s).1 := by
  unfold safeRecord
  with_reducible repeat' first | intro _ | assumption | apply raiseRaw_keeps | exact Part.within_trans (by decide) hL | dsimp only | split | (refine Keeps.of_fst (by assumption) ?_; apply raiseRaw_keeps)

theorem calDoneEvent_keeps {L : List Part} {s₀ : State} {w : Work} {status : Word} {done : Nat} {failed : Nat} {s : State} (hs : Keeps L s₀ s) (hL : Part.within [.host, .ism, .fi] L = true) :
    Keeps L s₀ (calDoneEvent w status done failed s) := by
  unfold calDoneEvent
  with_reducible repeat' first | intro _ | assumption | apply raiseRaw_keeps | exact Part.within_trans (by decide) hL | dsimp only | split | (refine Keeps.of_fst (by assumption) ?_; apply raiseRaw_keeps)

theorem powerReport_keeps {L : List Part} {s₀ : State} {before : Word} {s : State} (hs : Keeps L s₀ s) (hL : Part.within [.host, .ism, .fi] L = true) :
    Keeps L s₀ (powerReport before s) := by
  unfold powerReport
  with_reducible repeat' first | intro _ | assumption | apply raisePwr_keeps | apply Keeps.ite | exact Part.within_trans (by decide) hL | dsimp only | split

theorem endWorkSafe_keeps {L : List Part} {s₀ : State} {s : State} (hs : Keeps L s₀ s) (hL : Part.within parts10 L = true) :
    Keeps L s₀ (endWorkSafe s) := by
  unfold endWorkSafe
  with_reducible repeat' first | exact id | (intro h; simpa only [setAt, List.length_set, List.length_map, List.length_replicate] using h) | exact fun _ => rfl | with_unfolding_all exact id | intro _ | assumption | apply State.setCmds_keeps | apply powerReport_keeps | apply State.setPwr_keeps | apply State.setPins_keeps | apply State.setTdm_keeps | apply calDoneEvent_keeps | apply Keeps.foldl | exact Part.within_trans (by decide) hL | dsimp only | split

theorem moduleSafe_keeps {L : List Part} {s₀ : State} {cause : Byte} {s : State} (hs : Keeps L s₀ s) (hL : Part.within parts34 L = true) :
    Keeps L s₀ (moduleSafe cause s) := by
  unfold moduleSafe
  with_reducible repeat' first | intro _ | assumption | apply safeRecord_keeps | apply State.setSaf_keeps | apply sendBye_keeps | apply State.setLed_keeps | apply setMode_keeps | apply raiseChState_keeps | apply endWorkSafe_keeps | apply closeSegment_keeps | apply State.setFi_keeps | apply Keeps.foldl | apply Keeps.foldlP | apply Keeps.ite | apply Keeps.ite_fst | apply Keeps.ite_snd | exact Part.within_trans (by decide) hL | dsimp only | split | (refine Keeps.of_fst (by assumption) ?_; apply safeRecord_keeps)

theorem raiseSafe_keeps {L : List Part} {s₀ : State} {scope : Nat} {id : Nat} {cause : Byte} {s : State} (hs : Keeps L s₀ s) (hL : Part.within parts34 L = true) :
    Keeps L s₀ (raiseSafe scope id cause s) := by
  unfold raiseSafe
  with_reducible repeat' first | intro _ | assumption | apply safeRecord_keeps | apply moduleSafe_keeps | exact Part.within_trans (by decide) hL | dsimp only | split | (refine Keeps.of_fst (by assumption) ?_; apply safeRecord_keeps)

theorem chanSafeOne_keeps {L : List Part} {s₀ : State} {c : ChanNo} {cause : Byte} {s : State} (hs : Keeps L s₀ s) (hL : Part.within parts13 L = true) :
    Keeps L s₀ (chanSafeOne c cause s) := by
  unfold chanSafeOne
  with_reducible repeat' first | intro _ | assumption | apply modChan_keeps | apply flushQueue_keeps | apply sendBye_keeps | apply raiseChState_keeps | apply Keeps.ite | exact Part.within_trans (by decide) hL | dsimp only | split

theorem countStorm_keeps {L : List Part} {s₀ : State} {s : State} (hs : Keeps L s₀ s) (hL : Part.within parts34 L = true) :
    Keeps L s₀ (countStorm s) := by
  unfold countStorm
  with_reducible repeat' first | intro _ | assumption | apply State.setSaf_keeps | apply moduleSafe_keeps | apply Keeps.ite | exact Part.within_trans (by decide) hL | dsimp only | split

theorem chanSafe_keeps {L : List Part} {s₀ : State} {c : ChanNo} {cause : Byte} {s : State} (hs : Keeps L s₀ s) (hL : Part.within parts34 L = true) :
    Keeps L s₀ (chanSafe c cause s) := by
  unfold chanSafe
  with_reducible repeat' first | intro _ | assumption | apply State.setSaf_keeps | apply chanSafeOne_keeps | apply countStorm_keeps | apply raiseSafe_keeps | apply Keeps.foldl | apply Keeps.ite | exact Part.within_trans (by decide) hL | dsimp only | split

theorem tagFailure_keeps {L : List Part} {s₀ : State} {c : ChanNo} {crc : Bool} {s : State} (hs : Keeps L s₀ s) (hL : Part.within parts34 L = true) :
    Keeps L s₀ (tagFailure c crc s) := by
  unfold tagFailure
  with_reducible repeat' first | intro _ | assumption | apply modChan_keeps | apply State.setSaf_keeps | apply chanSafe_keeps | apply Keeps.ite | exact Part.within_trans (by decide) hL | dsimp only | split

theorem liveFailure_keeps {L : List Part} {s₀ : State} {c : ChanNo} {wrongSeq : Bool} {s : State} (hs : Keeps L s₀ s) (hL : Part.within parts34 L = true) :
    Keeps L s₀ (liveFailure c wrongSeq s) := by
  unfold liveFailure
  with_reducible repeat' first | intro _ | assumption | apply modChan_keeps | apply State.setSaf_keeps | apply chanSafe_keeps | apply Keeps.ite | exact Part.within_trans (by decide) hL | dsimp only | split

theorem removeChan_keeps {L : List Part} {s₀ : State} {c : ChanNo} {s : State} (hs : Keeps L s₀ s) (hL : Part.within parts25 L = true) :
    Keeps L s₀ (removeChan c s) := by
  unfold removeChan
  with_reducible repeat' first | intro _ | assumption | apply sendBye_keeps | apply disableQueue_keeps | apply cancelWhere_keeps | apply State.setSch_keeps | apply State.setLed_keeps | apply State.setSaf_keeps | apply settleCal_keeps | apply pointsChanged_keeps | apply Keeps.ite | exact Part.within_trans (by decide) hL | dsimp only | split

theorem dropChan_keeps {L : List Part} {s₀ : State} {reason : Nat} {c : ChanNo} {s : State} (hs : Keeps L s₀ s) (hL : Part.within parts25 L = true) :
    Keeps L s₀ (dropChan reason c s) := by
  unfold dropChan
  with_reducible repeat' first | intro _ | assumption | apply raiseChState_keeps | apply removeChan_keeps | exact Part.within_trans (by decide) hL | dsimp only | split

theorem dropChans_keeps {L : List Part} {s₀ : State} {reason : Nat} {l : List ChanNo} {s : State} (hs : Keeps L s₀ s) (hL : Part.within parts25 L = true) :
    Keeps L s₀ (dropChans reason l s) := by
  unfold dropChans
  with_reducible repeat' first | intro _ | assumption | apply dropChan_keeps | apply Keeps.foldl | exact Part.within_trans (by decide) hL | dsimp only | split

theorem shedReservation_keeps {L : List Part} {s₀ : State} {s : State} (hs : Keeps L s₀ s) (hL : Part.within [.led, .sch, .free] L = true) :
    Keeps L s₀ (shedReservation s) := by
  unfold shedReservation
  with_reducible repeat' first | intro _ | assumption | apply State.setLed_keeps | apply cancelFlow_keeps | apply State.setSch_keeps | exact Part.within_trans (by decide) hL | dsimp only | split

theorem shedLoop_keeps {L : List Part} {s₀ : State} {reason : Nat} {k : Nat} {s : State} (hs : Keeps L s₀ s) (hL : Part.within parts25 L = true) :
    Keeps L s₀ (shedLoop reason k s) := by
  induction k generalizing s with
  | zero => exact hs
  | succ k ih =>
    unfold shedLoop
    with_reducible repeat' first | intro _ | assumption | apply ih | apply dropChan_keeps | apply shedReservation_keeps | apply Keeps.ite | exact Part.within_trans (by decide) hL | dsimp only | split

theorem endShedding_keeps {L : List Part} {s₀ : State} {s : State} (hs : Keeps L s₀ s) (hL : Part.within [.pwr, .led] L = true) :
    Keeps L s₀ (endShedding s) := by
  unfold endShedding
  with_reducible repeat' first | intro _ | assumption | apply State.setLed_keeps | apply State.setPwr_keeps | exact Part.within_trans (by decide) hL | dsimp only | split

theorem shed_keeps {L : List Part} {s₀ : State} {s : State} (hs : Keeps L s₀ s) (hL : Part.within parts28 L = true) :
    Keeps L s₀ (shed s) := by
  unfold shed
  with_reducible repeat' first | intro _ | assumption | apply shedLoop_keeps | apply pointsChanged_keeps | apply endShedding_keeps | exact Part.within_trans (by decide) hL | dsimp only | split

theorem degrade_keeps {L : List Part} {s₀ : State} {s : State} (hs : Keeps L s₀ s) (hL : Part.within [.boot] L = true) :
    Keeps L s₀ (degrade s) := by
  unfold degrade
  with_reducible repeat' first | intro _ | assumption | apply setMode_keeps | apply Keeps.ite | exact Part.within_trans (by decide) hL | dsimp only | split

theorem loseTask_keeps {L : List Part} {s₀ : State} {t : Task} {s : State} (hs : Keeps L s₀ s) (hL : Part.within parts17 L = true) :
    Keeps L s₀ (loseTask t s) := by
  unfold loseTask
  with_reducible repeat' first | intro _ | assumption | apply removeService_keeps | apply loseGraph_keeps | exact Part.within_trans (by decide) hL | dsimp only | split

theorem withdrawCore_keeps {L : List Part} {s₀ : State} {n : CoreNo} {s : State} (hs : Keeps L s₀ s) (hL : Part.within parts19 L = true) :
    Keeps L s₀ (withdrawCore n s) := by
  unfold withdrawCore
  with_reducible repeat' first | intro _ | assumption | apply loseTask_keeps | apply putCore_keeps | apply powerReport_keeps | apply checkCeilings_keeps | apply degrade_keeps | apply nextDrain_keeps | apply pointsChanged_keeps | apply Keeps.ite | exact Part.within_trans (by decide) hL | dsimp only | split

theorem replaceChans_keeps {L : List Part} {s₀ : State} {e : BitVec 1} {s : State} (hs : Keeps L s₀ s) (hL : Part.within parts25 L = true) :
    Keeps L s₀ (replaceChans e s) := by
  unfold replaceChans
  with_reducible repeat' first | intro _ | assumption | apply modChan_keeps | apply dropChans_keeps | apply Keeps.foldl | apply Keeps.foldlP | apply Keeps.ite | apply Keeps.ite_fst | apply Keeps.ite_snd | exact Part.within_trans (by decide) hL | dsimp only | split

theorem loseNeural_keeps {L : List Part} {s₀ : State} {e : BitVec 1} {s : State} (hs : Keeps L s₀ s) (hL : Part.within parts17 L = true) :
    Keeps L s₀ (loseNeural e s) := by
  unfold loseNeural
  with_reducible repeat' first | intro _ | assumption | apply loseTask_keeps | apply Keeps.foldl | exact Part.within_trans (by decide) hL | dsimp only | split

theorem withdrawEngine_keeps {L : List Part} {s₀ : State} {e : BitVec 1} {s : State} (hs : Keeps L s₀ s) (hL : Part.within parts31 L = true) :
    Keeps L s₀ (withdrawEngine e s) := by
  unfold withdrawEngine
  with_reducible repeat' first | intro _ | assumption | apply loseNeural_keeps | apply State.setSch_keeps | apply State.setTen_keeps | apply degrade_keeps | apply checkCeilings_keeps | apply replaceChans_keeps | apply Keeps.ite | exact Part.within_trans (by decide) hL | dsimp only | split

theorem retireCells_keeps {L : List Part} {s₀ : State} {l : List Nat} {s : State} (hs : Keeps L s₀ s) (hL : Part.within [.qm] L = true) :
    Keeps L s₀ (retireCells l s) := by
  unfold retireCells
  with_reducible repeat' first | intro _ | assumption | apply noteFree_keeps | apply State.setQm_keeps | exact Part.within_trans (by decide) hL | dsimp only | split

end Sys2Proof.Machine
end

