-- ==== Sys2Proof/Laws/KeepsVoice.lean ====
section
/-! SUPPORT. What the operations of Machine/Voice.lean keep (Laws/Keeps.lean). -/

namespace Sys2Proof.Machine

theorem createGraph_keeps {L : List Part} {s₀ : State} {flow : Word} {seq : Word} {l : List (BitVec 6)} {req : BitVec 4} {opt : BitVec 4} {arrived : BitVec 4} {s : State} (hs : Keeps L s₀ s) (hL : Part.within [.sch, .free] L = true) :
    Keeps L s₀ (createGraph flow seq l req opt arrived s) := by
  unfold createGraph
  with_reducible repeat' first | intro _ | assumption | apply createTask_keeps | apply Keeps.foldl | apply Keeps.foldlP | exact Part.within_trans (by decide) hL | dsimp only | split | (refine Keeps.of_fst (by assumption) ?_; apply createTask_keeps)

theorem countFull_keeps {L : List Part} {s₀ : State} {s : State} (hs : Keeps L s₀ s) (hL : Part.within [.sch] L = true) :
    Keeps L s₀ (countFull s) := by
  unfold countFull
  with_reducible repeat' first | intro _ | assumption | apply State.setSch_keeps | exact Part.within_trans (by decide) hL | dsimp only | split

theorem buildDown_keeps {L : List Part} {s₀ : State} {c : ChanNo} {s : State} (hs : Keeps L s₀ s) (hL : Part.within [.led, .sch, .free] L = true) :
    Keeps L s₀ (buildDown c s) := by
  unfold buildDown
  with_reducible repeat' first | intro _ | assumption | apply countFull_keeps | apply modChan_keeps | apply createGraph_keeps | apply Keeps.ite | exact Part.within_trans (by decide) hL | dsimp only | split

theorem buildUp_keeps {L : List Part} {s₀ : State} {c : ChanNo} {s : State} (hs : Keeps L s₀ s) (hL : Part.within [.led, .sch, .free] L = true) :
    Keeps L s₀ (buildUp c s) := by
  unfold buildUp
  with_reducible repeat' first | intro _ | assumption | apply countFull_keeps | apply modChan_keeps | apply createGraph_keeps | apply Keeps.ite | exact Part.within_trans (by decide) hL | dsimp only | split

theorem giveXref_keeps {L : List Part} {s₀ : State} {c : ChanNo} {seq : Word} {s : State} (hs : Keeps L s₀ s) (hL : Part.within [.sch, .free] L = true) :
    Keeps L s₀ (giveXref c seq s) := by
  unfold giveXref
  with_reducible repeat' first | intro _ | assumption | apply settleStore_keeps | apply takeOperand_keeps | exact Part.within_trans (by decide) hL | dsimp only | split

theorem missFrame_keeps {L : List Part} {s₀ : State} {c : ChanNo} {up : Bool} {wrong : Bool} {s : State} (hs : Keeps L s₀ s) (hL : Part.within parts34 L = true) :
    Keeps L s₀ (missFrame c up wrong s) := by
  unfold missFrame
  with_reducible repeat' first | intro _ | assumption | apply modChan_keeps | apply liveFailure_keeps | apply Keeps.ite | exact Part.within_trans (by decide) hL | dsimp only | split

theorem hitFrame_keeps {L : List Part} {s₀ : State} {c : ChanNo} {up : Bool} {s : State} (hs : Keeps L s₀ s) (hL : Part.within [.led] L = true) :
    Keeps L s₀ (hitFrame c up s) := by
  unfold hitFrame
  with_reducible repeat' first | intro _ | assumption | apply modChan_keeps | apply Keeps.ite | exact Part.within_trans (by decide) hL | dsimp only | split

theorem raiseTone_keeps {L : List Part} {s₀ : State} {c : ChanNo} {up : Bool} {on : Bool} {set : BitVec 3} {code : Word} {dur : Word} {s : State} (hs : Keeps L s₀ s) (hL : Part.within [.host, .ism, .fi] L = true) :
    Keeps L s₀ (raiseTone c up on set code dur s) := by
  unfold raiseTone
  with_reducible repeat' first | intro _ | assumption | apply raise_keeps | exact Part.within_trans (by decide) hL | dsimp only | split

theorem endRtpEvent_keeps {L : List Part} {s₀ : State} {x : Chan} {s : State} (hs : Keeps L s₀ s) (hL : Part.within [.host, .ism, .fi] L = true) :
    Keeps L s₀ (endRtpEvent x s) := by
  unfold endRtpEvent
  with_reducible repeat' first | intro _ | assumption | apply raiseTone_keeps | apply Keeps.ite | exact Part.within_trans (by decide) hL | dsimp only | split

theorem reportEvent_keeps {L : List Part} {s₀ : State} {x : Chan} {known : Bool} {wasEnded : Bool} {fin : Bool} {code : Byte} {dur : Word} {s : State} (hs : Keeps L s₀ s) (hL : Part.within [.host, .ism, .fi] L = true) :
    Keeps L s₀ (reportEvent x known wasEnded fin code dur s) := by
  unfold reportEvent
  with_reducible repeat' first | intro _ | assumption | apply raiseTone_keeps | apply endRtpEvent_keeps | apply Keeps.ite | exact Part.within_trans (by decide) hL | dsimp only | split

theorem telephoneEvent_keeps {L : List Part} {s₀ : State} {x : Chan} {v : RtpView} {s : State} (hs : Keeps L s₀ s) (hL : Part.within [.host, .led, .ism, .fi] L = true) :
    Keeps L s₀ (telephoneEvent x v s) := by
  unfold telephoneEvent
  with_reducible repeat' first | intro _ | assumption | apply modChan_keeps | apply reportEvent_keeps | apply Keeps.ite | exact Part.within_trans (by decide) hL | dsimp only | split

theorem takeUdptl_keeps {L : List Part} {s₀ : State} {c : ChanNo} {l : List Byte} {s : State} (hs : Keeps L s₀ s) (hL : Part.within [.led] L = true) :
    Keeps L s₀ (takeUdptl c l s) := by
  unfold takeUdptl
  with_reducible repeat' first | intro _ | assumption | apply modChan_keeps | apply Keeps.ite | exact Part.within_trans (by decide) hL | dsimp only | split

theorem jbTake_keeps {L : List Part} {s₀ : State} {c : ChanNo} {l : List Byte} {tag : W32} {arr : W32} {s : State} (hs : Keeps L s₀ s) (hL : Part.within [.host, .led, .ism, .fi, .free] L = true) :
    Keeps L s₀ (jbTake c l tag arr s) := by
  unfold jbTake
  with_reducible repeat' first | intro _ | assumption | apply takeUdptl_keeps | apply countDiscard_keeps | apply telephoneEvent_keeps | apply modChan_keeps | apply State.draw_keeps | apply Keeps.ite | exact Part.within_trans (by decide) hL | dsimp only | split

theorem faxTake_keeps {L : List Part} {s₀ : State} {c : ChanNo} {l : List Byte} {_tag : W32} {_arr : W32} {s : State} (hs : Keeps L s₀ s) (hL : Part.within [.led] L = true) :
    Keeps L s₀ (faxTake c l _tag _arr s) := by
  unfold faxTake
  with_reducible repeat' first | intro _ | assumption | apply takeUdptl_keeps | apply countDiscard_keeps | apply Keeps.ite | exact Part.within_trans (by decide) hL | dsimp only | split

theorem drainIngress_keeps {L : List Part} {s₀ : State} {m : Master} {c : ChanNo} {take : List Byte → W32 → W32 → State → State} {s : State} (htake : ∀ a0 a1 a2 t, Keeps L s₀ t → Keeps L s₀ (take a0 a1 a2 t)) (hs : Keeps L s₀ s) (hL : Part.within [.host, .qm, .ism, .fi] L = true) :
    Keeps L s₀ (drainIngress m c take s) := by
  unfold drainIngress
  with_reducible repeat' first | intro _ | assumption | apply htake | apply popHead_keeps | apply noteRead_keeps | apply Keeps.foldl | exact Part.within_trans (by decide) hL | dsimp only | split

theorem putDown_keeps {L : List Part} {s₀ : State} {c : ChanNo} {d : DownFrame} {s : State} (hs : Keeps L s₀ s) (hL : Part.within [.led] L = true) :
    Keeps L s₀ (putDown c d s) := by
  unfold putDown
  with_reducible repeat' first | intro _ | assumption | apply modChan_keeps | exact Part.within_trans (by decide) hL | dsimp only | split

theorem dropDown_keeps {L : List Part} {s₀ : State} {c : ChanNo} {seq : Word} {s : State} (hs : Keeps L s₀ s) (hL : Part.within [.led] L = true) :
    Keeps L s₀ (dropDown c seq s) := by
  unfold dropDown
  with_reducible repeat' first | intro _ | assumption | apply modChan_keeps | exact Part.within_trans (by decide) hL | dsimp only | split

theorem endJb_keeps {L : List Part} {s₀ : State} {m : Master} {x : Chan} {seq : Word} {s : State} (hs : Keeps L s₀ s) (hL : Part.within parts05 L = true) :
    Keeps L s₀ (endJb m x seq s) := by
  unfold endJb
  with_reducible repeat' first | intro _ | assumption | apply drainIngress_keeps | apply jbTake_keeps | apply modChan_keeps | apply putDown_keeps | apply Keeps.ite | exact Part.within_trans (by decide) hL | dsimp only | split

theorem putRef_keeps {L : List Part} {s₀ : State} {c : ChanNo} {seq : Word} {samples : List W32} {s : State} (hs : Keeps L s₀ s) (hL : Part.within [.led] L = true) :
    Keeps L s₀ (putRef c seq samples s) := by
  unfold putRef
  with_reducible repeat' first | intro _ | assumption | apply modChan_keeps | exact Part.within_trans (by decide) hL | dsimp only | split

theorem endDecode_keeps {L : List Part} {s₀ : State} {x : Chan} {seq : Word} {r : TaskFinding} {s : State} (hs : Keeps L s₀ s) (hL : Part.within [.led, .sch, .free] L = true) :
    Keeps L s₀ (endDecode x seq r s) := by
  unfold endDecode
  with_reducible repeat' first | intro _ | assumption | apply modChan_keeps | apply putDown_keeps | apply State.draw_keeps | apply giveXref_keeps | apply putRef_keeps | exact Part.within_trans (by decide) hL | dsimp only | split

theorem faxFlags_keeps {L : List Part} {s₀ : State} {c : ChanNo} {up : Bool} {h : Heard} {s : State} (hs : Keeps L s₀ s) (hL : Part.within [.host, .led, .ism, .fi] L = true) :
    Keeps L s₀ (faxFlags c up h s) := by
  unfold faxFlags
  with_reducible repeat' first | intro _ | assumption | apply raiseTone_keeps | apply modChan_keeps | apply Keeps.ite | exact Part.within_trans (by decide) hL | dsimp only | split

theorem detectTones_keeps {L : List Part} {s₀ : State} {c : ChanNo} {up : Bool} {h : Heard} {s : State} (hs : Keeps L s₀ s) (hL : Part.within [.host, .led, .ism, .fi, .free] L = true) :
    Keeps L s₀ (detectTones c up h s).1 := by
  unfold detectTones
  with_reducible repeat' first | intro _ | assumption | apply modChan_keeps | apply State.draw_keeps | apply raiseTone_keeps | apply Keeps.foldl | apply Keeps.foldlP | exact Part.within_trans (by decide) hL | dsimp only | split

theorem sendDigits_keeps {L : List Part} {s₀ : State} {m : Master} {c : ChanNo} {seq : Word} {h : Heard} {news : List (BitVec 3 × ToneNews)} {s : State} (hs : Keeps L s₀ s) (hL : Part.within parts17 L = true) :
    Keeps L s₀ (sendDigits m c seq h news s) := by
  unfold sendDigits
  with_reducible repeat' first | intro _ | assumption | apply startDigit_keeps | apply endDigit_keeps | apply Keeps.foldl | apply Keeps.foldlP | apply Keeps.ite | exact Part.within_trans (by decide) hL | dsimp only | split

theorem modUp_keeps {L : List Part} {s₀ : State} {c : ChanNo} {seq : Word} {f : UpFrame → UpFrame} {s : State} (hs : Keeps L s₀ s) (hL : Part.within [.led] L = true) :
    Keeps L s₀ (modUp c seq f s) := by
  unfold modUp
  with_reducible repeat' first | intro _ | assumption | apply modChan_keeps | apply Keeps.ite | exact Part.within_trans (by decide) hL | dsimp only | split

theorem endEc_keeps {L : List Part} {s₀ : State} {x : Chan} {seq : Word} {r : TaskFinding} {s : State} (hs : Keeps L s₀ s) (hL : Part.within [.led, .free] L = true) :
    Keeps L s₀ (endEc x seq r s) := by
  unfold endEc
  with_reducible repeat' first | intro _ | assumption | apply modChan_keeps | apply modUp_keeps | apply State.draw_keeps | exact Part.within_trans (by decide) hL | dsimp only | split

theorem endToneUp_keeps {L : List Part} {s₀ : State} {m : Master} {x : Chan} {seq : Word} {r : TaskFinding} {s : State} (hs : Keeps L s₀ s) (hL : Part.within parts17 L = true) :
    Keeps L s₀ (endToneUp m x seq r s) := by
  unfold endToneUp
  with_reducible repeat' first | intro _ | assumption | apply detectTones_keeps | apply faxFlags_keeps | apply sendDigits_keeps | apply modUp_keeps | exact Part.within_trans (by decide) hL | dsimp only | split | (refine Keeps.of_fst (by assumption) ?_; apply detectTones_keeps)

theorem endEncode_keeps {L : List Part} {s₀ : State} {x : Chan} {seq : Word} {r : TaskFinding} {s : State} (hs : Keeps L s₀ s) (hL : Part.within [.host, .led, .ism, .fi] L = true) :
    Keeps L s₀ (endEncode x seq r s) := by
  unfold endEncode
  with_reducible repeat' first | intro _ | assumption | apply faxFlags_keeps | apply modChan_keeps | apply modUp_keeps | apply Keeps.ite | exact Part.within_trans (by decide) hL | dsimp only | split

theorem endPacketise_keeps {L : List Part} {s₀ : State} {m : Master} {x : Chan} {seq : Word} {r : TaskFinding} {s : State} (hs : Keeps L s₀ s) (hL : Part.within parts17 L = true) :
    Keeps L s₀ (endPacketise m x seq r s) := by
  unfold endPacketise
  with_reducible repeat' first | intro _ | assumption | apply placeUp_keeps | exact Part.within_trans (by decide) hL | dsimp only | split

theorem endFaxDown_keeps {L : List Part} {s₀ : State} {m : Master} {x : Chan} {seq : Word} {r : TaskFinding} {s : State} (hs : Keeps L s₀ s) (hL : Part.within parts05 L = true) :
    Keeps L s₀ (endFaxDown m x seq r s) := by
  unfold endFaxDown
  with_reducible repeat' first | intro _ | assumption | apply drainIngress_keeps | apply faxTake_keeps | apply modChan_keeps | apply State.draw_keeps | apply putDown_keeps | exact Part.within_trans (by decide) hL | dsimp only | split

theorem endFaxUp_keeps {L : List Part} {s₀ : State} {x : Chan} {seq : Word} {r : TaskFinding} {s : State} (hs : Keeps L s₀ s) (hL : Part.within [.led] L = true) :
    Keeps L s₀ (endFaxUp x seq r s) := by
  unfold endFaxUp
  with_reducible repeat' first | intro _ | assumption | apply modChan_keeps | apply modUp_keeps | exact Part.within_trans (by decide) hL | dsimp only | split

theorem classEnd_keeps {L : List Part} {s₀ : State} {t : Task} {m : Master} {r : TaskFinding} {s : State} (hs : Keeps L s₀ s) (hL : Part.within parts17 L = true) :
    Keeps L s₀ (classEnd t m r s) := by
  unfold classEnd
  with_reducible repeat' first | intro _ | assumption | apply endJb_keeps | apply endDecode_keeps | apply faxFlags_keeps | apply detectTones_keeps | apply endEc_keeps | apply endToneUp_keeps | apply endEncode_keeps | apply endPacketise_keeps | apply endFaxDown_keeps | apply endFaxUp_keeps | apply Keeps.ite | apply Keeps.ite_fst | apply Keeps.ite_snd | exact Part.within_trans (by decide) hL | dsimp only | split | (refine Keeps.of_fst (by assumption) ?_; apply detectTones_keeps)

theorem downEnds_keeps {L : List Part} {s₀ : State} {c : ChanNo} {seq : Word} {s : State} (hs : Keeps L s₀ s) (hL : Part.within [.led] L = true) :
    Keeps L s₀ (downEnds c seq s) := by
  unfold downEnds
  with_reducible repeat' first | intro _ | assumption | apply modChan_keeps | apply dropDown_keeps | apply Keeps.ite | exact Part.within_trans (by decide) hL | dsimp only | split

theorem taskEnds_keeps {L : List Part} {s₀ : State} {t : Task} {r : TaskFinding} {s : State} (hs : Keeps L s₀ s) (hL : Part.within parts17 L = true) :
    Keeps L s₀ (taskEnds t r s) := by
  unfold taskEnds
  with_reducible repeat' first | intro _ | assumption | apply classEnd_keeps | apply downEnds_keeps | apply removeEnded_keeps | apply settleStore_keeps | apply giveOperand_keeps | apply Keeps.ite | exact Part.within_trans (by decide) hL | dsimp only | split

theorem assemble_keeps {L : List Part} {s₀ : State} {x : Chan} {s : State} (hs : Keeps L s₀ s) (hL : Part.within [.led] L = true) :
    Keeps L s₀ (assemble x s) := by
  unfold assemble
  with_reducible repeat' first | intro _ | assumption | apply modChan_keeps | exact Part.within_trans (by decide) hL | dsimp only | split

theorem endRemovedTones_keeps {L : List Part} {s₀ : State} {x : Chan} {p : Profile} {s : State} (hs : Keeps L s₀ s) (hL : Part.within parts17 L = true) :
    Keeps L s₀ (endRemovedTones x p s) := by
  unfold endRemovedTones
  with_reducible repeat' first | intro _ | assumption | apply raiseTone_keeps | apply modChan_keeps | apply endRtpEvent_keeps | apply endDigit_keeps | apply Keeps.foldl | apply Keeps.foldlP | apply Keeps.ite | exact Part.within_trans (by decide) hL | dsimp only | split

theorem restartJitter_keeps {L : List Part} {s₀ : State} {c : ChanNo} {s : State} (hs : Keeps L s₀ s) (hL : Part.within [.led] L = true) :
    Keeps L s₀ (restartJitter c s) := by
  unfold restartJitter
  with_reducible repeat' first | intro _ | assumption | apply modChan_keeps | exact Part.within_trans (by decide) hL | dsimp only | split

theorem changeSrtp_keeps {L : List Part} {s₀ : State} {x : Chan} {p : Profile} {s : State} (hs : Keeps L s₀ s) (hL : Part.within [.host, .led, .ism, .fi] L = true) :
    Keeps L s₀ (changeSrtp x p s) := by
  unfold changeSrtp
  with_reducible repeat' first | intro _ | assumption | apply modChan_keeps | apply raiseChState_keeps | apply Keeps.ite | exact Part.within_trans (by decide) hL | dsimp only | split

theorem leaveFax_keeps {L : List Part} {s₀ : State} {c : ChanNo} {s : State} (hs : Keeps L s₀ s) (hL : Part.within [.led] L = true) :
    Keeps L s₀ (leaveFax c s) := by
  unfold leaveFax
  with_reducible repeat' first | intro _ | assumption | apply restartJitter_keeps | apply modChan_keeps | exact Part.within_trans (by decide) hL | dsimp only | split

theorem applyProfile_keeps {L : List Part} {s₀ : State} {c : ChanNo} {s : State} (hs : Keeps L s₀ s) (hL : Part.within parts17 L = true) :
    Keeps L s₀ (applyProfile c s) := by
  unfold applyProfile
  with_reducible repeat' first | intro _ | assumption | apply changeSrtp_keeps | apply endRemovedTones_keeps | apply modChan_keeps | apply leaveFax_keeps | apply restartJitter_keeps | apply Keeps.ite | exact Part.within_trans (by decide) hL | dsimp only | split

theorem faxTick_keeps {L : List Part} {s₀ : State} {c : ChanNo} {s : State} (hs : Keeps L s₀ s) (hL : Part.within [.led] L = true) :
    Keeps L s₀ (faxTick c s) := by
  unfold faxTick
  with_reducible repeat' first | intro _ | assumption | apply leaveFax_keeps | apply modChan_keeps | apply Keeps.ite | exact Part.within_trans (by decide) hL | dsimp only | split

theorem liveTick_keeps {L : List Part} {s₀ : State} {c : ChanNo} {s : State} (hs : Keeps L s₀ s) (hL : Part.within parts34 L = true) :
    Keeps L s₀ (liveTick c s) := by
  unfold liveTick
  with_reducible repeat' first | intro _ | assumption | apply hitFrame_keeps | apply missFrame_keeps | apply Keeps.ite | exact Part.within_trans (by decide) hL | dsimp only | split

theorem nextFrame_keeps {L : List Part} {s₀ : State} {c : ChanNo} {s : State} (hs : Keeps L s₀ s) (hL : Part.within [.led] L = true) :
    Keeps L s₀ (nextFrame c s) := by
  unfold nextFrame
  with_reducible repeat' first | intro _ | assumption | apply modChan_keeps | exact Part.within_trans (by decide) hL | dsimp only | split

theorem frameTick_keeps {L : List Part} {s₀ : State} {c : ChanNo} {s : State} (hs : Keeps L s₀ s) (hL : Part.within parts37 L = true) :
    Keeps L s₀ (frameTick c s) := by
  unfold frameTick
  with_reducible repeat' first | intro _ | assumption | apply liveTick_keeps | apply nextFrame_keeps | apply faxTick_keeps | apply applyProfile_keeps | apply assemble_keeps | apply dataToken_keeps | apply buildUp_keeps | apply buildDown_keeps | apply Keeps.ite | exact Part.within_trans (by decide) hL | dsimp only | split

theorem graphRetry_keeps {L : List Part} {s₀ : State} {c : ChanNo} {s : State} (hs : Keeps L s₀ s) (hL : Part.within [.led, .sch, .free] L = true) :
    Keeps L s₀ (graphRetry c s) := by
  unfold graphRetry
  with_reducible repeat' first | intro _ | assumption | apply buildUp_keeps | apply buildDown_keeps | apply Keeps.ite | exact Part.within_trans (by decide) hL | dsimp only | split

theorem countLate_keeps {L : List Part} {s₀ : State} {c : ChanNo} {s : State} (hs : Keeps L s₀ s) (hL : Part.within [.led] L = true) :
    Keeps L s₀ (countLate c s) := by
  unfold countLate
  with_reducible repeat' first | intro _ | assumption | apply modChan_keeps | exact Part.within_trans (by decide) hL | dsimp only | split

theorem startPlaying_keeps {L : List Part} {s₀ : State} {c : ChanNo} {p : Playing} {s : State} (hs : Keeps L s₀ s) (hL : Part.within [.led] L = true) :
    Keeps L s₀ (startPlaying c p s) := by
  unfold startPlaying
  with_reducible repeat' first | intro _ | assumption | apply modChan_keeps | exact Part.within_trans (by decide) hL | dsimp only | split

theorem playFrame_keeps {L : List Part} {s₀ : State} {x : Chan} {f : AFrame} {s : State} (hs : Keeps L s₀ s) (hL : Part.within parts34 L = true) :
    Keeps L s₀ (playFrame x f s) := by
  unfold playFrame
  with_reducible repeat' first | intro _ | assumption | apply tagFailure_keeps | apply startPlaying_keeps | apply hitFrame_keeps | apply missFrame_keeps | apply Keeps.ite | exact Part.within_trans (by decide) hL | dsimp only | split

theorem concealDown_keeps {L : List Part} {s₀ : State} {x : Chan} {s : State} (hs : Keeps L s₀ s) (hL : Part.within parts37 L = true) :
    Keeps L s₀ (concealDown x s) := by
  unfold concealDown
  with_reducible repeat' first | intro _ | assumption | apply startPlaying_keeps | apply countLate_keeps | apply State.draw_keeps | apply putRef_keeps | apply giveXref_keeps | apply missFrame_keeps | apply Keeps.ite | exact Part.within_trans (by decide) hL | dsimp only | split

theorem upWindow_keeps {L : List Part} {s₀ : State} {x : Chan} {s : State} (hs : Keeps L s₀ s) (hL : Part.within parts17 L = true) :
    Keeps L s₀ (upWindow x s) := by
  unfold upWindow
  with_reducible repeat' first | intro _ | assumption | apply countLate_keeps | apply placeConcealed_keeps | apply Keeps.ite | exact Part.within_trans (by decide) hL | dsimp only | split

theorem playout_keeps {L : List Part} {s₀ : State} {c : ChanNo} {s : State} (hs : Keeps L s₀ s) (hL : Part.within parts37 L = true) :
    Keeps L s₀ (playout c s) := by
  unfold playout
  with_reducible repeat' first | intro _ | assumption | apply modChan_keeps | apply upWindow_keeps | apply dropDown_keeps | apply playFrame_keeps | apply concealDown_keeps | apply Keeps.ite | exact Part.within_trans (by decide) hL | dsimp only | split

theorem egress_keeps {L : List Part} {s₀ : State} {c : ChanNo} {s : State} (hs : Keeps L s₀ s) (hL : Part.within parts34 L = true) :
    Keeps L s₀ (egress c s) := by
  unfold egress
  with_reducible repeat' first | intro _ | assumption | apply popHead_keeps | apply noteRead_keeps | apply tagFailure_keeps | apply sendRtp_keeps | apply Keeps.ite | exact Part.within_trans (by decide) hL | dsimp only | split

end Sys2Proof.Machine
end

