-- ==== Sys2Proof/Laws/KeepsHighway.lean ====
section
/-! SUPPORT. What the operations of Machine/Highway.lean keep (Laws/Keeps.lean). -/

namespace Sys2Proof.Machine

theorem alignHwy_keeps {L : List Part} {s₀ : State} {n : HwyNo} {s : State} (hs : Keeps L s₀ s) (hL : Part.within [.host, .tdm, .ism, .fi] L = true) :
    Keeps L s₀ (alignHwy n s) := by
  unfold alignHwy
  with_reducible repeat' first | intro _ | assumption | apply putHwy_keeps | apply raiseLink_keeps | apply Keeps.ite | exact Part.within_trans (by decide) hL | dsimp only | split

theorem loseHwy_keeps {L : List Part} {s₀ : State} {n : HwyNo} {cause : Nat} {s : State} (hs : Keeps L s₀ s) (hL : Part.within [.host, .tdm, .ism, .fi] L = true) :
    Keeps L s₀ (loseHwy n cause s) := by
  unfold loseHwy
  with_reducible repeat' first | intro _ | assumption | apply raiseLink_keeps | apply putHwy_keeps | apply Keeps.ite | exact Part.within_trans (by decide) hL | dsimp only | split

theorem slipHwy_keeps {L : List Part} {s₀ : State} {n : HwyNo} {transmit : Bool} {fast : Bool} {s : State} (hs : Keeps L s₀ s) (hL : Part.within [.tdm] L = true) :
    Keeps L s₀ (slipHwy n transmit fast s) := by
  unfold slipHwy
  with_reducible repeat' first | intro _ | assumption | apply putHwy_keeps | apply Keeps.ite | exact Part.within_trans (by decide) hL | dsimp only | split

theorem advancePlay_keeps {L : List Part} {s₀ : State} {n : HwyNo} {s : State} (hs : Keeps L s₀ s) (hL : Part.within [.led] L = true) :
    Keeps L s₀ (advancePlay n s) := by
  unfold advancePlay
  with_reducible repeat' first | intro _ | assumption | apply State.setLed_keeps | apply Keeps.ite | exact Part.within_trans (by decide) hL | dsimp only | split

theorem writeFrames_keeps {L : List Part} {s₀ : State} {n : HwyNo} {k : Nat} {s : State} (hs : Keeps L s₀ s) (hL : Part.within [.led, .tdm] L = true) :
    Keeps L s₀ (writeFrames n k s) := by
  induction k generalizing s with
  | zero => exact hs
  | succ k ih =>
    unfold writeFrames
    with_reducible repeat' first | intro _ | assumption | apply ih | apply advancePlay_keeps | apply putHwy_keeps | exact Part.within_trans (by decide) hL | dsimp only | split

theorem rxUnit_keeps {L : List Part} {s₀ : State} {n : HwyNo} {octets : List Byte} {s : State} (hs : Keeps L s₀ s) (hL : Part.within [.fi] L = true) :
    Keeps L s₀ (rxUnit n octets s).2 := by
  unfold rxUnit
  with_reducible repeat' first | intro _ | assumption | apply fiStep_keeps | exact Part.within_trans (by decide) hL | dsimp only | split | (refine Keeps.of_snd (by assumption) ?_; apply fiStep_keeps)

theorem txUnit_keeps {L : List Part} {s₀ : State} {n : HwyNo} {f : List (Option Byte)} {s : State} (hs : Keeps L s₀ s) (hL : Part.within [.fi] L = true) :
    Keeps L s₀ (txUnit n f s).2 := by
  unfold txUnit
  with_reducible repeat' first | intro _ | assumption | apply fiStep_keeps | exact Part.within_trans (by decide) hL | dsimp only | split | (refine Keeps.of_snd (by assumption) ?_; apply fiStep_keeps)

theorem releaseHwy_keeps {L : List Part} {s₀ : State} {p : Word} {l : List HeldUnit} {s : State} (hs : Keeps L s₀ s) (hL : Part.within [.tdm] L = true) :
    Keeps L s₀ (releaseHwy p l s) := by
  unfold releaseHwy
  with_reducible repeat' first | intro _ | assumption | apply putHwy_keeps | apply Keeps.ite | exact Part.within_trans (by decide) hL | dsimp only | split

theorem driveHeld_keeps {L : List Part} {s₀ : State} {n : HwyNo} {drift : Int} {s : State} (hs : Keeps L s₀ s) (hL : Part.within [.led, .tdm] L = true) :
    Keeps L s₀ (driveHeld n drift s) := by
  unfold driveHeld
  with_reducible repeat' first | intro _ | assumption | apply writeFrames_keeps | apply putHwy_keeps | exact Part.within_trans (by decide) hL | dsimp only | split

theorem driveNext_keeps {L : List Part} {s₀ : State} {n : HwyNo} {drift : Int} {s : State} (hs : Keeps L s₀ s) (hL : Part.within [.led, .tdm, .fi] L = true) :
    Keeps L s₀ (driveNext n drift s) := by
  unfold driveNext
  with_reducible repeat' first | intro _ | assumption | apply writeFrames_keeps | apply putHwy_keeps | apply txUnit_keeps | exact Part.within_trans (by decide) hL | dsimp only | split | (refine Keeps.of_snd (by assumption) ?_; apply txUnit_keeps)

theorem passFrames_keeps {L : List Part} {s₀ : State} {n : HwyNo} {drift : Int} {octets : List Byte} {s : State} (hs : Keeps L s₀ s) (hL : Part.within [.led, .tdm, .fi] L = true) :
    Keeps L s₀ (passFrames n drift octets s) := by
  unfold passFrames
  with_reducible repeat' first | intro _ | assumption | apply rxUnit_keeps | apply putHwy_keeps | apply driveNext_keeps | apply driveHeld_keeps | apply Keeps.ite | apply Keeps.ite_fst | apply Keeps.ite_snd | exact Part.within_trans (by decide) hL | dsimp only | split | (refine Keeps.of_snd (by assumption) ?_; apply rxUnit_keeps)

theorem frameHwy_keeps {L : List Part} {s₀ : State} {n : HwyNo} {fsOk : Bool} {drift : Int} {octets : List Byte} {s : State} (hs : Keeps L s₀ s) (hL : Part.within [.host, .led, .tdm, .ism, .fi] L = true) :
    Keeps L s₀ (frameHwy n fsOk drift octets s) := by
  unfold frameHwy
  with_reducible repeat' first | intro _ | assumption | apply putHwy_keeps | apply alignHwy_keeps | apply loseHwy_keeps | apply passFrames_keeps | apply Keeps.ite | exact Part.within_trans (by decide) hL | dsimp only | split

end Sys2Proof.Machine
end

