-- ==== Sys2Proof/Laws/KeepsCmdOps.lean ====
section
/-! SUPPORT. What the operations of Machine/CmdOps.lean keep (Laws/Keeps.lean). -/

namespace Sys2Proof.Machine

theorem answer_keeps {L : List Part} {s₀ : State} {st : Word} {s : State} (hs : Keeps L s₀ s) (hL : Part.within [] L = true) :
    Keeps L s₀ (answer st s).1 := by
  unfold answer
  with_reducible repeat' first | intro _ | assumption | exact Part.within_trans (by decide) hL | dsimp only | split

theorem answerOk_keeps {L : List Part} {s₀ : State} {l : List Word} {s : State} (hs : Keeps L s₀ s) (hL : Part.within [] L = true) :
    Keeps L s₀ (answerOk l s).1 := by
  unfold answerOk
  with_reducible repeat' first | intro _ | assumption | exact Part.within_trans (by decide) hL | dsimp only | split

theorem goesOn_keeps {L : List Part} {s₀ : State} {s : State} (hs : Keeps L s₀ s) (hL : Part.within [] L = true) :
    Keeps L s₀ (goesOn s).1 := by
  unfold goesOn
  with_reducible repeat' first | intro _ | assumption | exact Part.within_trans (by decide) hL | dsimp only | split

end Sys2Proof.Machine
end

