-- ==== Sys2Proof/Laws/KeepsTimeOps.lean ====
section
/-! SUPPORT. What the operations of Machine/TimeOps.lean keep (Laws/Keeps.lean). -/

namespace Sys2Proof.Machine

theorem noteHalf_keeps {L : List Part} {s₀ : State} {changed : Bool} {s : State} (hs : Keeps L s₀ s) (hL : Part.within [.host] L = true) :
    Keeps L s₀ (noteHalf changed s) := by
  unfold noteHalf
  with_reducible repeat' first | intro _ | assumption | apply State.setHost_keeps | apply Keeps.ite | exact Part.within_trans (by decide) hL | dsimp only | split

theorem advanceHbeat_keeps {L : List Part} {s₀ : State} {n : Nat} {s : State} (hs : Keeps L s₀ s) (hL : Part.within [.host] L = true) :
    Keeps L s₀ (advanceHbeat n s) := by
  unfold advanceHbeat
  with_reducible repeat' first | intro _ | assumption | apply State.setHost_keeps | exact Part.within_trans (by decide) hL | dsimp only | split

theorem advanceTime_ptp {n : Nat} {t : TimeUnit} : (advanceTime n t).ptp = t.ptp := by
  delta advanceTime
  exact rfl

theorem passCycles_keeps {L : List Part} {s₀ : State} {n : Nat} {s : State} (hs : Keeps L s₀ s) (hL : Part.within [.host, .tim] L = true) :
    Keeps L s₀ (passCycles n s) := by
  unfold passCycles
  refine Keeps.ite hs (advanceHbeat_keeps (noteHalf_keeps (State.setTim_keeps hs (Part.within_trans (by decide) hL) fun h => ?_)
    (Part.within_trans (by decide) hL)) (Part.within_trans (by decide) hL))
  rw [advanceTime_ptp]
  exact h

theorem reach_keeps {L : List Part} {s₀ : State} {g : Int} {s : State} (hs : Keeps L s₀ s) (hL : Part.within [.host, .tim] L = true) :
    Keeps L s₀ (reach g s) := by
  unfold reach
  with_reducible repeat' first | intro _ | assumption | apply passCycles_keeps | exact Part.within_trans (by decide) hL | dsimp only | split

theorem capturePps_keeps {L : List Part} {s₀ : State} {s : State} (hs : Keeps L s₀ s) (hL : Part.within [.host, .tim] L = true) :
    Keeps L s₀ (capturePps s) := by
  unfold capturePps
  with_reducible repeat' first | exact id | (intro h; simpa only [setAt, List.length_set, List.length_map, List.length_replicate] using h) | exact fun _ => rfl | with_unfolding_all exact id | intro _ | assumption | apply State.setTim_keeps | apply State.setHost_keeps | exact Part.within_trans (by decide) hL | dsimp only | split

theorem chanTick_keeps {L : List Part} {s₀ : State} {c : ChanNo} {s : State} (hs : Keeps L s₀ s) (hL : Part.within parts41 L = true) :
    Keeps L s₀ (chanTick c s) := by
  unfold chanTick
  with_reducible repeat' first | intro _ | assumption | apply removeChan_keeps | apply State.setCmds_keeps | apply frameTick_keeps | apply Keeps.ite | exact Part.within_trans (by decide) hL | dsimp only | split

theorem fireDue_keeps {L : List Part} {s₀ : State} {e : AEntry} {s : State} (hs : Keeps L s₀ s) (hL : Part.within parts41 L = true) :
    Keeps L s₀ (fireDue e s) := by
  unfold fireDue
  with_reducible repeat' first | intro _ | assumption | apply chanTick_keeps | apply reinsert_keeps | apply countFiring_keeps | apply fireEntry_keeps | exact Part.within_trans (by decide) hL | dsimp only | split

theorem firePassed_keeps {L : List Part} {s₀ : State} {e : AEntry} {s : State} (hs : Keeps L s₀ s) (hL : Part.within parts41 L = true) :
    Keeps L s₀ (firePassed e s) := by
  unfold firePassed
  with_reducible repeat' first | intro _ | assumption | apply fireDue_keeps | apply State.setSch_keeps | apply Keeps.ite | exact Part.within_trans (by decide) hL | dsimp only | split

theorem exemptAll_keeps {L : List Part} {s₀ : State} {s : State} (hs : Keeps L s₀ s) (hL : Part.within [.led] L = true) :
    Keeps L s₀ (exemptAll s) := by
  unfold exemptAll
  with_reducible repeat' first | intro _ | assumption | apply State.setLed_keeps | exact Part.within_trans (by decide) hL | dsimp only | split

theorem shiftHighways_keeps {L : List Part} {s₀ : State} {d : Int} {s : State} (hs : Keeps L s₀ s) (hL : Part.within [.tdm] L = true) :
    Keeps L s₀ (shiftHighways d s) := by
  unfold shiftHighways
  with_reducible repeat' first | exact id | (intro h; simpa only [setAt, List.length_set, List.length_map, List.length_replicate] using h) | exact fun _ => rfl | with_unfolding_all exact id | intro _ | assumption | apply State.setTdm_keeps | apply Keeps.ite | exact Part.within_trans (by decide) hL | dsimp only | split

theorem gridsFollow_keeps {L : List Part} {s₀ : State} {s : State} (hs : Keeps L s₀ s) (hL : Part.within parts41 L = true) :
    Keeps L s₀ (gridsFollow s) := by
  unfold gridsFollow
  with_reducible repeat' first | intro _ | assumption | apply exemptAll_keeps | apply firePassed_keeps | apply Keeps.foldl | exact Part.within_trans (by decide) hL | dsimp only | split

theorem noteLocked_keeps {L : List Part} {s₀ : State} {s : State} (hs : Keeps L s₀ s) (hL : Part.within [.tim] L = true) :
    Keeps L s₀ (noteLocked s) := by
  unfold noteLocked
  with_reducible repeat' first | exact id | (intro h; simpa only [setAt, List.length_set, List.length_map, List.length_replicate] using h) | exact fun _ => rfl | with_unfolding_all exact id | intro _ | assumption | apply State.setTim_keeps | apply Keeps.foldl | apply Keeps.foldlP | apply Keeps.ite | apply Keeps.ite_fst | apply Keeps.ite_snd | exact Part.within_trans (by decide) hL | dsimp only | split

theorem unlock_keeps {L : List Part} {s₀ : State} {s : State} (hs : Keeps L s₀ s) (hL : Part.within [.tim, .cal] L = true) :
    Keeps L s₀ (unlock s) := by
  unfold unlock
  with_reducible repeat' first | exact id | (intro h; simpa only [setAt, List.length_set, List.length_map, List.length_replicate] using h) | exact fun _ => rfl | with_unfolding_all exact id | intro _ | assumption | apply noteLocked_keeps | apply settleCal_keeps | apply State.setTim_keeps | exact Part.within_trans (by decide) hL | dsimp only | split

theorem stepTime_keeps {L : List Part} {s₀ : State} {d : Int} {s : State} (hs : Keeps L s₀ s) (hL : Part.within parts43 L = true) :
    Keeps L s₀ (stepTime d s) := by
  unfold stepTime
  with_reducible repeat' first | exact id | (intro h; simpa only [setAt, List.length_set, List.length_map, List.length_replicate] using h) | exact fun _ => rfl | with_unfolding_all exact id | intro _ | assumption | apply unlock_keeps | apply State.setTim_keeps | apply noteHalf_keeps | apply gridsFollow_keeps | apply shiftHighways_keeps | apply raise_keeps | apply State.setHost_keeps | exact Part.within_trans (by decide) hL | dsimp only | split

theorem servoLoop_keeps {L : List Part} {s₀ : State} {th : Int} {s : State} (hs : Keeps L s₀ s) (hL : Part.within [.tim] L = true) :
    Keeps L s₀ (servoLoop th s) := by
  unfold servoLoop
  with_reducible repeat' first | exact id | (intro h; simpa only [setAt, List.length_set, List.length_map, List.length_replicate] using h) | exact fun _ => rfl | with_unfolding_all exact id | intro _ | assumption | apply State.setTim_keeps | apply Keeps.ite | exact Part.within_trans (by decide) hL | dsimp only | split

theorem lockRuns_keeps {L : List Part} {s₀ : State} {th : Int} {s : State} (hs : Keeps L s₀ s) (hL : Part.within [.tim, .cal] L = true) :
    Keeps L s₀ (lockRuns th s) := by
  unfold lockRuns
  with_reducible repeat' first | exact id | (intro h; simpa only [setAt, List.length_set, List.length_map, List.length_replicate] using h) | exact fun _ => rfl | with_unfolding_all exact id | intro _ | assumption | apply State.setTim_keeps | apply unlock_keeps | apply Keeps.ite | exact Part.within_trans (by decide) hL | dsimp only | split

theorem endHoldover_keeps {L : List Part} {s₀ : State} {s : State} (hs : Keeps L s₀ s) (hL : Part.within [.host, .tim, .ism, .fi] L = true) :
    Keeps L s₀ (endHoldover s) := by
  unfold endHoldover
  with_reducible repeat' first | exact id | (intro h; simpa only [setAt, List.length_set, List.length_map, List.length_replicate] using h) | exact fun _ => rfl | with_unfolding_all exact id | intro _ | assumption | apply raiseHoldover_keeps | apply State.setTim_keeps | apply Keeps.ite | exact Part.within_trans (by decide) hL | dsimp only | split

theorem servoOffset_keeps {L : List Part} {s₀ : State} {src : BitVec 3} {th : Int} {s : State} (hs : Keeps L s₀ s) (hL : Part.within parts43 L = true) :
    Keeps L s₀ (servoOffset src th s) := by
  unfold servoOffset
  with_reducible repeat' first | exact id | (intro h; simpa only [setAt, List.length_set, List.length_map, List.length_replicate] using h) | exact fun _ => rfl | with_unfolding_all exact id | intro _ | assumption | apply State.setTim_keeps | apply endHoldover_keeps | apply stepTime_keeps | apply noteLocked_keeps | apply servoLoop_keeps | apply lockRuns_keeps | apply Keeps.ite | exact Part.within_trans (by decide) hL | dsimp only | split

theorem enterHoldover_keeps {L : List Part} {s₀ : State} {s : State} (hs : Keeps L s₀ s) (hL : Part.within [.host, .tim, .ism, .cal, .fi] L = true) :
    Keeps L s₀ (enterHoldover s) := by
  unfold enterHoldover
  with_reducible repeat' first | exact id | (intro h; simpa only [setAt, List.length_set, List.length_map, List.length_replicate] using h) | exact fun _ => rfl | with_unfolding_all exact id | intro _ | assumption | apply unlock_keeps | apply raiseHoldover_keeps | apply State.setTim_keeps | apply Keeps.ite | exact Part.within_trans (by decide) hL | dsimp only | split

theorem changeSrc_keeps {L : List Part} {s₀ : State} {src : BitVec 3} {s : State} (hs : Keeps L s₀ s) (hL : Part.within [.host, .tim, .ism, .cal, .fi] L = true) :
    Keeps L s₀ (changeSrc src s) := by
  unfold changeSrc
  with_reducible repeat' first | exact id | (intro h; simpa only [setAt, List.length_set, List.length_map, List.length_replicate] using h) | exact fun _ => rfl | with_unfolding_all exact id | intro _ | assumption | apply endHoldover_keeps | apply unlock_keeps | apply State.setTim_keeps | apply settleCal_keeps | apply Keeps.ite | exact Part.within_trans (by decide) hL | dsimp only | split

theorem changeRef_keeps {L : List Part} {s₀ : State} {r : BitVec 2} {s : State} (hs : Keeps L s₀ s) (hL : Part.within [.clk, .host, .ism, .fi] L = true) :
    Keeps L s₀ (changeRef r s) := by
  unfold changeRef
  with_reducible repeat' first | intro _ | assumption | apply State.setClk_keeps | apply raiseHoldover_keeps | apply Keeps.ite | exact Part.within_trans (by decide) hL | dsimp only | split

theorem runServoCfg_keeps {L : List Part} {s₀ : State} {c : Issued} {s : State} (hs : Keeps L s₀ s) (hL : Part.within parts46 L = true) :
    Keeps L s₀ (runServoCfg c s).1 := by
  unfold runServoCfg
  with_reducible repeat' first | exact id | (intro h; simpa only [setAt, List.length_set, List.length_map, List.length_replicate] using h) | exact fun _ => rfl | with_unfolding_all exact id | intro _ | assumption | apply answer_keeps | apply servoOffset_keeps | apply State.setTim_keeps | apply changeSrc_keeps | apply changeRef_keeps | apply Keeps.ite | apply Keeps.ite_fst | apply Keeps.ite_snd | exact Part.within_trans (by decide) hL | dsimp only | split | (refine Keeps.of_fst (by assumption) ?_; apply answer_keeps)

theorem putPtp_keeps {L : List Part} {s₀ : State} {p : PortNo} {x : PtpPort} {s : State} (hs : Keeps L s₀ s) (hL : Part.within [.tim] L = true) :
    Keeps L s₀ (putPtp p x s) := by
  unfold putPtp
  with_reducible repeat' first | exact id | (intro h; simpa only [setAt, List.length_set, List.length_map, List.length_replicate] using h) | exact fun _ => rfl | with_unfolding_all exact id | intro _ | assumption | apply State.setTim_keeps | exact Part.within_trans (by decide) hL | dsimp only | split

theorem runPtpCfg_keeps {L : List Part} {s₀ : State} {c : Issued} {s : State} (hs : Keeps L s₀ s) (hL : Part.within [.tim, .cal] L = true) :
    Keeps L s₀ (runPtpCfg c s).1 := by
  unfold runPtpCfg
  with_reducible repeat' first | intro _ | assumption | apply answer_keeps | apply settleCal_keeps | apply putPtp_keeps | apply Keeps.ite | apply Keeps.ite_fst | apply Keeps.ite_snd | exact Part.within_trans (by decide) hL | dsimp only | split | (refine Keeps.of_fst (by assumption) ?_; apply answer_keeps)

theorem ptpSendOut_keeps {L : List Part} {s₀ : State} {p : PortNo} {isEvent : Bool} {l : List Byte} {s : State} (hs : Keeps L s₀ s) (hL : Part.within parts06 L = true) :
    Keeps L s₀ (ptpSendOut p isEvent l s) := by
  unfold ptpSendOut
  with_reducible repeat' first | intro _ | assumption | apply engineSend_keeps | apply sendIn_keeps | apply State.draw_keeps | apply Keeps.ite | exact Part.within_trans (by decide) hL | dsimp only | split

theorem ptpSend_keeps {L : List Part} {s₀ : State} {p : PortNo} {k : PtpSend} {s : State} (hs : Keeps L s₀ s) (hL : Part.within parts15 L = true) :
    Keeps L s₀ (ptpSend p k s) := by
  unfold ptpSend
  with_reducible repeat' first | intro _ | assumption | apply ptpSendOut_keeps | apply State.draw_keeps | apply putPtp_keeps | apply Keeps.ite | apply Keeps.ite_fst | apply Keeps.ite_snd | exact Part.within_trans (by decide) hL | dsimp only | split

theorem ptpOffset_keeps {L : List Part} {s₀ : State} {p : PortNo} {t1 : TimePair} {t2 : TimePair} {s : State} (hs : Keeps L s₀ s) (hL : Part.within parts43 L = true) :
    Keeps L s₀ (ptpOffset p t1 t2 s) := by
  unfold ptpOffset
  with_reducible repeat' first | intro _ | assumption | apply putPtp_keeps | apply servoOffset_keeps | exact Part.within_trans (by decide) hL | dsimp only | split

theorem ptpReceive_keeps {L : List Part} {s₀ : State} {p : PortNo} {m : PtpMsg} {s : State} (hs : Keeps L s₀ s) (hL : Part.within parts43 L = true) :
    Keeps L s₀ (ptpReceive p m s) := by
  unfold ptpReceive
  with_reducible repeat' first | intro _ | assumption | apply putPtp_keeps | apply ptpOffset_keeps | apply ptpSendOut_keeps | apply State.draw_keeps | apply Keeps.ite | apply Keeps.ite_fst | apply Keeps.ite_snd | exact Part.within_trans (by decide) hL | dsimp only | split

theorem ppsIn_keeps {L : List Part} {s₀ : State} {s : State} (hs : Keeps L s₀ s) (hL : Part.within parts43 L = true) :
    Keeps L s₀ (ppsIn s) := by
  unfold ppsIn
  with_reducible repeat' first | exact id | (intro h; simpa only [setAt, List.length_set, List.length_map, List.length_replicate] using h) | exact fun _ => rfl | with_unfolding_all exact id | intro _ | assumption | apply State.setTim_keeps | apply capturePps_keeps | apply servoOffset_keeps | apply Keeps.ite | exact Part.within_trans (by decide) hL | dsimp only | split

theorem ppsOut_keeps {L : List Part} {s₀ : State} {s : State} (hs : Keeps L s₀ s) (hL : Part.within [.host, .tim] L = true) :
    Keeps L s₀ (ppsOut s) := by
  unfold ppsOut
  with_reducible repeat' first | intro _ | assumption | apply capturePps_keeps | apply Keeps.ite | exact Part.within_trans (by decide) hL | dsimp only | split

theorem putProbe_keeps {L : List Part} {s₀ : State} {k : Nat} {x : Probe} {s : State} (hs : Keeps L s₀ s) (hL : Part.within [.tim] L = true) :
    Keeps L s₀ (putProbe k x s) := by
  unfold putProbe
  with_reducible repeat' first | exact id | (intro h; simpa only [setAt, List.length_set, List.length_map, List.length_replicate] using h) | exact fun _ => rfl | with_unfolding_all exact id | intro _ | assumption | apply State.setTim_keeps | exact Part.within_trans (by decide) hL | dsimp only | split

theorem probeEvent_keeps {L : List Part} {s₀ : State} {code : Byte} {s : State} (hs : Keeps L s₀ s) (hL : Part.within [.tim] L = true) :
    Keeps L s₀ (probeEvent code s) := by
  unfold probeEvent
  with_reducible repeat' first | exact id | (intro h; simpa only [setAt, List.length_set, List.length_map, List.length_replicate] using h) | exact fun _ => rfl | with_unfolding_all exact id | intro _ | assumption | apply State.setTim_keeps | apply Keeps.ite | apply Keeps.ite_fst | apply Keeps.ite_snd | exact Part.within_trans (by decide) hL | dsimp only | split

theorem probeMark_keeps {L : List Part} {s₀ : State} {v : W32} {s : State} (hs : Keeps L s₀ s) (hL : Part.within [.tim] L = true) :
    Keeps L s₀ (probeMark v s) := by
  unfold probeMark
  with_reducible repeat' first | intro _ | assumption | apply putProbe_keeps | exact Part.within_trans (by decide) hL | dsimp only | split

theorem runProbeCfg_keeps {L : List Part} {s₀ : State} {c : Issued} {s : State} (hs : Keeps L s₀ s) (hL : Part.within [.tim] L = true) :
    Keeps L s₀ (runProbeCfg c s).1 := by
  unfold runProbeCfg
  with_reducible repeat' first | intro _ | assumption | apply answer_keeps | apply putProbe_keeps | exact Part.within_trans (by decide) hL | dsimp only | split | (refine Keeps.of_fst (by assumption) ?_; apply answer_keeps)

theorem runProbeRead_keeps {L : List Part} {s₀ : State} {c : Issued} {s : State} (hs : Keeps L s₀ s) (hL : Part.within [.tim] L = true) :
    Keeps L s₀ (runProbeRead c s).1 := by
  unfold runProbeRead
  with_reducible repeat' first | exact id | (intro h; simpa only [setAt, List.length_set, List.length_map, List.length_replicate] using h) | exact fun _ => rfl | with_unfolding_all exact id | intro _ | assumption | apply State.setTim_keeps | apply answerOk_keeps | apply Keeps.ite | apply Keeps.ite_fst | apply Keeps.ite_snd | exact Part.within_trans (by decide) hL | dsimp only | split | (refine Keeps.of_fst (by assumption) ?_; apply answerOk_keeps)

theorem timeRead_keeps {L : List Part} {s₀ : State} {o : Nat} {s : State} (hs : Keeps L s₀ s) (hL : Part.within [.tim] L = true) :
    KeepsO L s₀ (timeRead o s) := by
  unfold timeRead
  with_reducible repeat' first | exact id | (intro h; simpa only [setAt, List.length_set, List.length_map, List.length_replicate] using h) | exact fun _ => rfl | with_unfolding_all exact id | intro _ | assumption | apply State.setTim_keeps | exact KeepsO.none | apply KeepsO.ite | apply KeepsO.some | exact Part.within_trans (by decide) hL | dsimp only | split

theorem timeWrite_keeps {L : List Part} {s₀ : State} {o : Nat} {v : W32} {be : BitVec 4} {s : State} (hs : Keeps L s₀ s) (hL : Part.within [.tim] L = true) :
    KeepsE L s₀ (timeWrite o v be s) := by
  unfold timeWrite
  with_reducible repeat' first | intro _ | assumption | apply probeMark_keeps | apply Keeps.ite | exact KeepsE.error | apply KeepsE.ite | apply KeepsE.ok | exact Part.within_trans (by decide) hL | dsimp only | split

end Sys2Proof.Machine
end

