-- ==== Sys2Proof/Laws/KeepsIsmOps.lean ====
section
/-! SUPPORT. What the operations of Machine/IsmOps.lean keep (Laws/Keeps.lean). -/

namespace Sys2Proof.Machine

theorem sendUp_keeps {L : List Part} {s₀ : State} {ctx : Word} {b : IsmBody} {s : State} (hs : Keeps L s₀ s) (hL : Part.within [.ism, .fi] L = true) :
    Keeps L s₀ (sendUp ctx b s) := by
  unfold sendUp
  with_reducible repeat' first | intro _ | assumption | apply ismSend_keeps | exact Part.within_trans (by decide) hL | dsimp only | split

theorem sendDown_keeps {L : List Part} {s₀ : State} {ctx : Word} {b : IsmBody} {s : State} (hs : Keeps L s₀ s) (hL : Part.within [.ism, .fi] L = true) :
    Keeps L s₀ (sendDown ctx b s) := by
  unfold sendDown
  with_reducible repeat' first | intro _ | assumption | apply ismSend_keeps | apply Keeps.foldl | exact Part.within_trans (by decide) hL | dsimp only | split

theorem relay_keeps {L : List Part} {s₀ : State} {p : PortNo} {f : IsmFrame} {s : State} (hs : Keeps L s₀ s) (hL : Part.within [.ism, .fi] L = true) :
    Keeps L s₀ (relay p f s) := by
  unfold relay
  with_reducible repeat' first | intro _ | assumption | apply ismQueue_keeps | apply Keeps.ite | exact Part.within_trans (by decide) hL | dsimp only | split

theorem relayDown_keeps {L : List Part} {s₀ : State} {ports : List PortNo} {f : IsmFrame} {s : State} (hs : Keeps L s₀ s) (hL : Part.within [.ism, .fi] L = true) :
    Keeps L s₀ (relayDown ports f s) := by
  unfold relayDown
  with_reducible repeat' first | intro _ | assumption | apply relay_keeps | apply Keeps.foldl | exact Part.within_trans (by decide) hL | dsimp only | split

theorem modIsmPort_keeps {L : List Part} {s₀ : State} {p : PortNo} {g : IsmPort → IsmPort} {s : State} (hs : Keeps L s₀ s) (hL : Part.within [.ism] L = true) :
    Keeps L s₀ (modIsmPort p g s) := by
  unfold modIsmPort
  with_reducible repeat' first | intro _ | assumption | apply putIsmPort_keeps | exact Part.within_trans (by decide) hL | dsimp only | split

theorem modTopo_keeps {L : List Part} {s₀ : State} {a : Word} {g : TopoEntry → TopoEntry} {s : State} (hs : Keeps L s₀ s) (hL : Part.within [.ism] L = true) :
    Keeps L s₀ (modTopo a g s) := by
  unfold modTopo
  with_reducible repeat' first | exact id | (intro h; simpa only [setAt, List.length_set, List.length_map, List.length_replicate] using h) | exact fun _ => rfl | with_unfolding_all exact id | intro _ | assumption | apply State.setIsm_keeps | apply Keeps.ite | exact Part.within_trans (by decide) hL | dsimp only | split

theorem byRoute_keeps {L : List Part} {s₀ : State} {f : IsmFrame} {s : State} (hs : Keeps L s₀ s) (hL : Part.within [.ism, .fi] L = true) :
    Keeps L s₀ (byRoute f s) := by
  unfold byRoute
  with_reducible repeat' first | exact id | (intro h; simpa only [setAt, List.length_set, List.length_map, List.length_replicate] using h) | exact fun _ => rfl | with_unfolding_all exact id | intro _ | assumption | apply relay_keeps | apply State.setIsm_keeps | exact Part.within_trans (by decide) hL | dsimp only | split

theorem sendPing_keeps {L : List Part} {s₀ : State} {a : Word} {s : State} (hs : Keeps L s₀ s) (hL : Part.within [.ism, .fi] L = true) :
    Keeps L s₀ (sendPing a s) := by
  unfold sendPing
  with_reducible repeat' first | intro _ | assumption | apply ismSend_keeps | exact Part.within_trans (by decide) hL | dsimp only | split

theorem sendHeartbeats_keeps {L : List Part} {s₀ : State} {s : State} (hs : Keeps L s₀ s) (hL : Part.within [.ism, .fi] L = true) :
    Keeps L s₀ (sendHeartbeats s) := by
  unfold sendHeartbeats
  with_reducible repeat' first | intro _ | assumption | apply ismSend_keeps | apply putIsmPort_keeps | apply Keeps.foldl | apply Keeps.ite | exact Part.within_trans (by decide) hL | dsimp only | split

theorem setSummitOk_keeps {L : List Part} {s₀ : State} {v : Bool} {s : State} (hs : Keeps L s₀ s) (hL : Part.within [.ism, .fi] L = true) :
    Keeps L s₀ (setSummitOk v s) := by
  unfold setSummitOk
  with_reducible repeat' first | exact id | (intro h; simpa only [setAt, List.length_set, List.length_map, List.length_replicate] using h) | exact fun _ => rfl | with_unfolding_all exact id | intro _ | assumption | apply sendHeartbeats_keeps | apply State.setIsm_keeps | apply Keeps.ite | exact Part.within_trans (by decide) hL | dsimp only | split

theorem heartbeatArrive_keeps {L : List Part} {s₀ : State} {p : PortNo} {f : IsmFrame} {seq : Word} {ok : Bool} {s : State} (hs : Keeps L s₀ s) (hL : Part.within [.ism, .fi] L = true) :
    Keeps L s₀ (heartbeatArrive p f seq ok s) := by
  unfold heartbeatArrive
  with_reducible repeat' first | exact id | (intro h; simpa only [setAt, List.length_set, List.length_map, List.length_replicate] using h) | exact fun _ => rfl | with_unfolding_all exact id | intro _ | assumption | apply putIsmPort_keeps | apply State.setIsm_keeps | apply setSummitOk_keeps | apply modIsmPort_keeps | apply Keeps.ite | exact Part.within_trans (by decide) hL | dsimp only | split

theorem storeRemote_keeps {L : List Part} {s₀ : State} {r : List Word} {s : State} (hs : Keeps L s₀ s) (hL : Part.within [.host] L = true) :
    Keeps L s₀ (storeRemote r s) := by
  unfold storeRemote
  with_reducible repeat' first | intro _ | assumption | apply State.setHost_keeps | exact Part.within_trans (by decide) hL | dsimp only | split

theorem raiseRemote_keeps {L : List Part} {s₀ : State} {code : Byte} {src : Option Word} {payload : List Word} {s : State} (hs : Keeps L s₀ s) (hL : Part.within [.host, .fi] L = true) :
    Keeps L s₀ (raiseRemote code src payload s).1 := by
  unfold raiseRemote
  with_reducible repeat' first | intro _ | assumption | apply traceRecord_keeps | apply State.setHost_keeps | exact Part.within_trans (by decide) hL | dsimp only | split

theorem spurLost_keeps {L : List Part} {s₀ : State} {a : Word} {s : State} (hs : Keeps L s₀ s) (hL : Part.within parts34 L = true) :
    Keeps L s₀ (spurLost a s) := by
  unfold spurLost
  with_reducible repeat' first | intro _ | assumption | apply raiseRemote_keeps | apply moduleSafe_keeps | exact Part.within_trans (by decide) hL | dsimp only | split | (refine Keeps.of_fst (by assumption) ?_; apply raiseRemote_keeps)

theorem summitLost_keeps {L : List Part} {s₀ : State} {s : State} (hs : Keeps L s₀ s) (hL : Part.within parts34 L = true) :
    Keeps L s₀ (summitLost s) := by
  unfold summitLost
  with_reducible repeat' first | intro _ | assumption | apply setSummitOk_keeps | apply chanSafe_keeps | apply moduleSafe_keeps | apply Keeps.foldl | apply Keeps.ite | exact Part.within_trans (by decide) hL | dsimp only | split

theorem modWalk_keeps {L : List Part} {s₀ : State} {g : Walk → Walk} {s : State} (hs : Keeps L s₀ s) (hL : Part.within [.ism] L = true) :
    Keeps L s₀ (modWalk g s) := by
  unfold modWalk
  with_reducible repeat' first | exact id | (intro h; simpa only [setAt, List.length_set, List.length_map, List.length_replicate] using h) | exact fun _ => rfl | with_unfolding_all exact id | intro _ | assumption | apply State.setIsm_keeps | exact Part.within_trans (by decide) hL | dsimp only | split

theorem modMerges_keeps {L : List Part} {s₀ : State} {l : List Merge} {s : State} (hs : Keeps L s₀ s) (hL : Part.within [.ism] L = true) :
    Keeps L s₀ (modMerges l s) := by
  unfold modMerges
  with_reducible repeat' first | exact id | (intro h; simpa only [setAt, List.length_set, List.length_map, List.length_replicate] using h) | exact fun _ => rfl | with_unfolding_all exact id | intro _ | assumption | apply State.setIsm_keeps | exact Part.within_trans (by decide) hL | dsimp only | split

theorem assignFound_keeps {L : List Part} {s₀ : State} {a : SearchAnswer} {s : State} (hs : Keeps L s₀ s) (hL : Part.within [.ism, .fi] L = true) :
    Keeps L s₀ (assignFound a s) := by
  unfold assignFound
  with_reducible repeat' first | exact id | (intro h; simpa only [setAt, List.length_set, List.length_map, List.length_replicate] using h) | exact fun _ => rfl | with_unfolding_all exact id | intro _ | assumption | apply modTopo_keeps | apply sendDown_keeps | apply State.setIsm_keeps | apply modWalk_keeps | exact Part.within_trans (by decide) hL | dsimp only | split

theorem raiseConflict_keeps {L : List Part} {s₀ : State} {u : Uid} {parent : Option Word} {port : PortNo} {s : State} (hs : Keeps L s₀ s) (hL : Part.within [.host, .fi] L = true) :
    Keeps L s₀ (raiseConflict u parent port s) := by
  unfold raiseConflict
  with_reducible repeat' first | intro _ | assumption | apply raiseRemote_keeps | exact Part.within_trans (by decide) hL | dsimp only | split | (refine Keeps.of_fst (by assumption) ?_; apply raiseRemote_keeps)

theorem searchDone_keeps {L : List Part} {s₀ : State} {w : Walk} {s : State} (hs : Keeps L s₀ s) (hL : Part.within [.host, .ism, .fi] L = true) :
    Keeps L s₀ (searchDone w s) := by
  unfold searchDone
  with_reducible repeat' first | exact id | (intro h; simpa only [setAt, List.length_set, List.length_map, List.length_replicate] using h) | exact fun _ => rfl | with_unfolding_all exact id | intro _ | assumption | apply State.setIsm_keeps | apply raiseRaw_keeps | exact Part.within_trans (by decide) hL | dsimp only | split | (refine Keeps.of_fst (by assumption) ?_; apply raiseRaw_keeps)

theorem endWalk_keeps {L : List Part} {s₀ : State} {w : Walk} {s : State} (hs : Keeps L s₀ s) (hL : Part.within [.host, .ism, .fi] L = true) :
    Keeps L s₀ (endWalk w s) := by
  unfold endWalk
  with_reducible repeat' first | exact id | (intro h; simpa only [setAt, List.length_set, List.length_map, List.length_replicate] using h) | exact fun _ => rfl | with_unfolding_all exact id | intro _ | assumption | apply assignFound_keeps | apply sendDown_keeps | apply State.setIsm_keeps | apply raiseConflict_keeps | apply modWalk_keeps | apply searchDone_keeps | apply sendPing_keeps | apply Keeps.foldl | apply Keeps.foldlP | apply Keeps.ite | apply Keeps.ite_fst | apply Keeps.ite_snd | exact Part.within_trans (by decide) hL | dsimp only | split

theorem walkSettle_keeps {L : List Part} {s₀ : State} {s : State} (hs : Keeps L s₀ s) (hL : Part.within [.host, .ism, .fi] L = true) :
    Keeps L s₀ (walkSettle s) := by
  unfold walkSettle
  with_reducible repeat' first | intro _ | assumption | apply endWalk_keeps | apply Keeps.ite | exact Part.within_trans (by decide) hL | dsimp only | split

theorem markConflict_keeps {L : List Part} {s₀ : State} {u : Uid} {s : State} (hs : Keeps L s₀ s) (hL : Part.within [.ism, .fi] L = true) :
    Keeps L s₀ (markConflict u s) := by
  unfold markConflict
  with_reducible repeat' first | intro _ | assumption | apply modWalk_keeps | apply sendDown_keeps | exact Part.within_trans (by decide) hL | dsimp only | split

theorem walkAnswer_keeps {L : List Part} {s₀ : State} {q : Asked} {a : SearchAnswer} {s : State} (hs : Keeps L s₀ s) (hL : Part.within [.ism, .fi] L = true) :
    Keeps L s₀ (walkAnswer q a s) := by
  unfold walkAnswer
  with_reducible repeat' first | intro _ | assumption | apply modWalk_keeps | apply sendPing_keeps | apply markConflict_keeps | apply Keeps.ite | apply Keeps.ite_fst | apply Keeps.ite_snd | exact Part.within_trans (by decide) hL | dsimp only | split

theorem askNext_keeps {L : List Part} {s₀ : State} {s : State} (hs : Keeps L s₀ s) (hL : Part.within [.ism, .fi] L = true) :
    Keeps L s₀ (askNext s) := by
  unfold askNext
  with_reducible repeat' first | intro _ | assumption | apply modWalk_keeps | apply walkAnswer_keeps | apply modMerges_keeps | apply ismSend_keeps | apply Keeps.foldl | apply Keeps.ite | exact Part.within_trans (by decide) hL | dsimp only | split

theorem askAll_keeps {L : List Part} {s₀ : State} {k : Nat} {s : State} (hs : Keeps L s₀ s) (hL : Part.within [.ism, .fi] L = true) :
    Keeps L s₀ (askAll k s) := by
  induction k generalizing s with
  | zero => exact hs
  | succ k ih =>
    unfold askAll
    with_reducible repeat' first | intro _ | assumption | apply ih | apply askNext_keeps | exact Part.within_trans (by decide) hL | dsimp only | split

theorem walkOn_keeps {L : List Part} {s₀ : State} {s : State} (hs : Keeps L s₀ s) (hL : Part.within [.host, .ism, .fi] L = true) :
    Keeps L s₀ (walkOn s) := by
  unfold walkOn
  with_reducible repeat' first | intro _ | assumption | apply walkSettle_keeps | apply askAll_keeps | exact Part.within_trans (by decide) hL | dsimp only | split

theorem startSearch_keeps {L : List Part} {s₀ : State} {tag : Word} {origin : Origin} {full : Bool} {s : State} (hs : Keeps L s₀ s) (hL : Part.within [.host, .ism, .fi] L = true) :
    Keeps L s₀ (startSearch tag origin full s) := by
  unfold startSearch
  with_reducible repeat' first | exact id | (intro h; simpa only [setAt, List.length_set, List.length_map, List.length_replicate] using h) | exact fun _ => rfl | with_unfolding_all exact id | intro _ | assumption | apply State.setIsm_keeps | apply walkOn_keeps | apply ismSend_keeps | apply Keeps.foldl | apply Keeps.ite | exact Part.within_trans (by decide) hL | dsimp only | split

theorem pingAnswered_keeps {L : List Part} {s₀ : State} {a : Word} {s : State} (hs : Keeps L s₀ s) (hL : Part.within [.host, .ism, .fi] L = true) :
    Keeps L s₀ (pingAnswered a s) := by
  unfold pingAnswered
  with_reducible repeat' first | exact id | (intro h; simpa only [setAt, List.length_set, List.length_map, List.length_replicate] using h) | exact fun _ => rfl | with_unfolding_all exact id | intro _ | assumption | apply State.setIsm_keeps | apply modWalk_keeps | apply searchDone_keeps | apply walkOn_keeps | apply markConflict_keeps | apply Keeps.foldl | apply Keeps.foldlP | apply Keeps.ite | exact Part.within_trans (by decide) hL | dsimp only | split

theorem goSilent_keeps {L : List Part} {s₀ : State} {a : Word} {s : State} (hs : Keeps L s₀ s) (hL : Part.within [.host, .ism, .fi] L = true) :
    Keeps L s₀ (goSilent a s) := by
  unfold goSilent
  with_reducible repeat' first | intro _ | assumption | apply raise_keeps | apply modTopo_keeps | apply Keeps.ite | exact Part.within_trans (by decide) hL | dsimp only | split

theorem pingTimeout_keeps {L : List Part} {s₀ : State} {a : Word} {s : State} (hs : Keeps L s₀ s) (hL : Part.within [.host, .ism, .fi] L = true) :
    Keeps L s₀ (pingTimeout a s) := by
  unfold pingTimeout
  with_reducible repeat' first | exact id | (intro h; simpa only [setAt, List.length_set, List.length_map, List.length_replicate] using h) | exact fun _ => rfl | with_unfolding_all exact id | intro _ | assumption | apply State.setIsm_keeps | apply goSilent_keeps | apply sendPing_keeps | apply modWalk_keeps | apply searchDone_keeps | apply walkOn_keeps | apply Keeps.ite | exact Part.within_trans (by decide) hL | dsimp only | split

theorem sendMerge_keeps {L : List Part} {s₀ : State} {m : Merge} {s : State} (hs : Keeps L s₀ s) (hL : Part.within [.host, .ism, .fi] L = true) :
    Keeps L s₀ (sendMerge m s) := by
  unfold sendMerge
  with_reducible repeat' first | intro _ | assumption | apply modMerges_keeps | apply walkOn_keeps | apply walkAnswer_keeps | apply sendUp_keeps | apply Keeps.ite | exact Part.within_trans (by decide) hL | dsimp only | split

theorem settleMerges_keeps {L : List Part} {s₀ : State} {k : Nat} {s : State} (hs : Keeps L s₀ s) (hL : Part.within [.host, .ism, .fi] L = true) :
    Keeps L s₀ (settleMerges k s) := by
  induction k generalizing s with
  | zero => exact hs
  | succ k ih =>
    unfold settleMerges
    with_reducible repeat' first | intro _ | assumption | apply ih | apply sendMerge_keeps | exact Part.within_trans (by decide) hL | dsimp only | split

theorem dropMergePort_keeps {L : List Part} {s₀ : State} {p : PortNo} {s : State} (hs : Keeps L s₀ s) (hL : Part.within [.host, .ism, .fi] L = true) :
    Keeps L s₀ (dropMergePort p s) := by
  unfold dropMergePort
  with_reducible repeat' first | intro _ | assumption | apply modMerges_keeps | apply settleMerges_keeps | exact Part.within_trans (by decide) hL | dsimp only | split

theorem replyArrive_keeps {L : List Part} {s₀ : State} {p : PortNo} {a : SearchAnswer} {s : State} (hs : Keeps L s₀ s) (hL : Part.within [.host, .ism, .fi] L = true) :
    Keeps L s₀ (replyArrive p a s) := by
  unfold replyArrive
  with_reducible repeat' first | intro _ | assumption | apply sendMerge_keeps | apply modMerges_keeps | apply Keeps.ite | exact Part.within_trans (by decide) hL | dsimp only | split

theorem replyTimeout_keeps {L : List Part} {s₀ : State} {qid : Word} {s : State} (hs : Keeps L s₀ s) (hL : Part.within [.host, .ism, .fi] L = true) :
    Keeps L s₀ (replyTimeout qid s) := by
  unfold replyTimeout
  with_reducible repeat' first | intro _ | assumption | apply sendMerge_keeps | exact Part.within_trans (by decide) hL | dsimp only | split

theorem answerQuery_keeps {L : List Part} {s₀ : State} {f : IsmFrame} {own : SearchAnswer} {s : State} (hs : Keeps L s₀ s) (hL : Part.within [.ism, .fi] L = true) :
    Keeps L s₀ (answerQuery f own s) := by
  unfold answerQuery
  with_reducible repeat' first | intro _ | assumption | apply sendUp_keeps | apply relayDown_keeps | apply modMerges_keeps | apply Keeps.ite | exact Part.within_trans (by decide) hL | dsimp only | split

theorem beginArrive_keeps {L : List Part} {s₀ : State} {f : IsmFrame} {full : Bool} {s : State} (hs : Keeps L s₀ s) (hL : Part.within [.host, .ism, .fi] L = true) :
    Keeps L s₀ (beginArrive f full s) := by
  unfold beginArrive
  with_reducible repeat' first | exact id | (intro h; simpa only [setAt, List.length_set, List.length_map, List.length_replicate] using h) | exact fun _ => rfl | with_unfolding_all exact id | intro _ | assumption | apply State.setIsm_keeps | apply raiseLink_keeps | apply modIsmPort_keeps | apply relayDown_keeps | apply Keeps.foldl | apply Keeps.ite | exact Part.within_trans (by decide) hL | dsimp only | split

theorem queryArrive_keeps {L : List Part} {s₀ : State} {f : IsmFrame} {qid : Word} {len : Nat} {b : Uid} {s : State} (hs : Keeps L s₀ s) (hL : Part.within [.ism, .fi] L = true) :
    Keeps L s₀ (queryArrive f qid len b s) := by
  unfold queryArrive
  with_reducible repeat' first | intro _ | assumption | apply answerQuery_keeps | apply Keeps.ite | exact Part.within_trans (by decide) hL | dsimp only | split

theorem claimArrive_keeps {L : List Part} {s₀ : State} {f : IsmFrame} {qid : Word} {u : Uid} {s : State} (hs : Keeps L s₀ s) (hL : Part.within [.ism, .fi] L = true) :
    Keeps L s₀ (claimArrive f qid u s) := by
  unfold claimArrive
  with_reducible repeat' first | exact id | (intro h; simpa only [setAt, List.length_set, List.length_map, List.length_replicate] using h) | exact fun _ => rfl | with_unfolding_all exact id | intro _ | assumption | apply State.setIsm_keeps | apply answerQuery_keeps | apply Keeps.ite | exact Part.within_trans (by decide) hL | dsimp only | split

theorem markArrive_keeps {L : List Part} {s₀ : State} {f : IsmFrame} {u : Uid} {s : State} (hs : Keeps L s₀ s) (hL : Part.within [.host, .ism, .fi, .free] L = true) :
    Keeps L s₀ (markArrive f u s) := by
  unfold markArrive
  with_reducible repeat' first | exact id | (intro h; simpa only [setAt, List.length_set, List.length_map, List.length_replicate] using h) | exact fun _ => rfl | with_unfolding_all exact id | intro _ | assumption | apply relayDown_keeps | apply State.setIsm_keeps | apply State.draw_keeps | apply sendUp_keeps | apply raise_keeps | apply Keeps.ite | exact Part.within_trans (by decide) hL | dsimp only | split

theorem endArrive_keeps {L : List Part} {s₀ : State} {f : IsmFrame} {s : State} (hs : Keeps L s₀ s) (hL : Part.within [.ism, .fi] L = true) :
    Keeps L s₀ (endArrive f s) := by
  unfold endArrive
  with_reducible repeat' first | exact id | (intro h; simpa only [setAt, List.length_set, List.length_map, List.length_replicate] using h) | exact fun _ => rfl | with_unfolding_all exact id | intro _ | assumption | apply relayDown_keeps | apply State.setIsm_keeps | apply sendUp_keeps | apply Keeps.ite | exact Part.within_trans (by decide) hL | dsimp only | split

theorem enterHeld_keeps {L : List Part} {s₀ : State} {s : State} (hs : Keeps L s₀ s) (hL : Part.within parts27 L = true) :
    Keeps L s₀ (enterHeld s) := by
  unfold enterHeld
  with_reducible repeat' first | intro _ | assumption | apply setMode_keeps | apply dropChans_keeps | exact Part.within_trans (by decide) hL | dsimp only | split

theorem addressArrive_keeps {L : List Part} {s₀ : State} {f : IsmFrame} {u : Uid} {addr : Word} {hold : Bool} {release : Bool} {s : State} (hs : Keeps L s₀ s) (hL : Part.within parts27 L = true) :
    Keeps L s₀ (addressArrive f u addr hold release s) := by
  unfold addressArrive
  with_reducible repeat' first | exact id | (intro h; simpa only [setAt, List.length_set, List.length_map, List.length_replicate] using h) | exact fun _ => rfl | with_unfolding_all exact id | intro _ | assumption | apply relayDown_keeps | apply State.setIsm_keeps | apply sendUp_keeps | apply enterHeld_keeps | apply setMode_keeps | apply Keeps.ite | exact Part.within_trans (by decide) hL | dsimp only | split

theorem attachAt_keeps {L : List Part} {s₀ : State} {parent : Word} {port : PortNo} {s : State} (hs : Keeps L s₀ s) (hL : Part.within [.ism] L = true) :
    Keeps L s₀ (attachAt parent port s) := by
  unfold attachAt
  with_reducible repeat' first | exact id | (intro h; simpa only [setAt, List.length_set, List.length_map, List.length_replicate] using h) | exact fun _ => rfl | with_unfolding_all exact id | intro _ | assumption | apply modWalk_keeps | apply State.setIsm_keeps | apply Keeps.ite | apply Keeps.ite_fst | apply Keeps.ite_snd | exact Part.within_trans (by decide) hL | dsimp only | split

theorem attachFrom_keeps {L : List Part} {s₀ : State} {f : IsmFrame} {port : PortNo} {s : State} (hs : Keeps L s₀ s) (hL : Part.within [.host, .ism, .fi] L = true) :
    Keeps L s₀ (attachFrom f port s) := by
  unfold attachFrom
  with_reducible repeat' first | intro _ | assumption | apply raiseRemote_keeps | apply attachAt_keeps | apply Keeps.ite | apply Keeps.ite_fst | apply Keeps.ite_snd | exact Part.within_trans (by decide) hL | dsimp only | split | (refine Keeps.of_fst (by assumption) ?_; apply raiseRemote_keeps)

theorem lossAt_keeps {L : List Part} {s₀ : State} {parent : Word} {port : PortNo} {s : State} (hs : Keeps L s₀ s) (hL : Part.within [.ism] L = true) :
    Keeps L s₀ (lossAt parent port s) := by
  unfold lossAt
  with_reducible repeat' first | intro _ | assumption | apply modWalk_keeps | apply Keeps.ite | apply Keeps.ite_fst | apply Keeps.ite_snd | exact Part.within_trans (by decide) hL | dsimp only | split

theorem lossPing_keeps {L : List Part} {s₀ : State} {a : Word} {s : State} (hs : Keeps L s₀ s) (hL : Part.within [.ism, .fi] L = true) :
    Keeps L s₀ (lossPing a s) := by
  unfold lossPing
  with_reducible repeat' first | exact id | (intro h; simpa only [setAt, List.length_set, List.length_map, List.length_replicate] using h) | exact fun _ => rfl | with_unfolding_all exact id | intro _ | assumption | apply State.setIsm_keeps | apply sendPing_keeps | apply Keeps.foldl | apply Keeps.foldlP | apply Keeps.ite | apply Keeps.ite_fst | apply Keeps.ite_snd | exact Part.within_trans (by decide) hL | dsimp only | split

theorem moveAt_keeps {L : List Part} {s₀ : State} {parent : Word} {port : PortNo} {u : Uid} {s : State} (hs : Keeps L s₀ s) (hL : Part.within [.ism] L = true) :
    Keeps L s₀ (moveAt parent port u s) := by
  unfold moveAt
  with_reducible repeat' first | exact id | (intro h; simpa only [setAt, List.length_set, List.length_map, List.length_replicate] using h) | exact fun _ => rfl | with_unfolding_all exact id | intro _ | assumption | apply State.setIsm_keeps | apply modTopo_keeps | apply Keeps.ite | exact Part.within_trans (by decide) hL | dsimp only | split

theorem conflictAt_keeps {L : List Part} {s₀ : State} {u : Uid} {parent : Option Word} {port : PortNo} {s : State} (hs : Keeps L s₀ s) (hL : Part.within [.host, .ism, .fi] L = true) :
    Keeps L s₀ (conflictAt u parent port s) := by
  unfold conflictAt
  with_reducible repeat' first | intro _ | assumption | apply raiseConflict_keeps | apply modWalk_keeps | apply Keeps.ite | apply Keeps.ite_fst | apply Keeps.ite_snd | exact Part.within_trans (by decide) hL | dsimp only | split

theorem ownAttach_keeps {L : List Part} {s₀ : State} {p : PortNo} {s : State} (hs : Keeps L s₀ s) (hL : Part.within [.host, .ism, .fi] L = true) :
    Keeps L s₀ (ownAttach p s) := by
  unfold ownAttach
  with_reducible repeat' first | intro _ | assumption | apply raise_keeps | apply attachAt_keeps | apply sendUp_keeps | apply Keeps.ite | exact Part.within_trans (by decide) hL | dsimp only | split

theorem ownLoss_keeps {L : List Part} {s₀ : State} {p : PortNo} {nb : Option LinkInfo} {s : State} (hs : Keeps L s₀ s) (hL : Part.within [.ism, .fi] L = true) :
    Keeps L s₀ (ownLoss p nb s) := by
  unfold ownLoss
  with_reducible repeat' first | intro _ | assumption | apply lossAt_keeps | apply sendUp_keeps | apply Keeps.ite | exact Part.within_trans (by decide) hL | dsimp only | split

theorem ownMove_keeps {L : List Part} {s₀ : State} {p : PortNo} {i : LinkInfo} {s : State} (hs : Keeps L s₀ s) (hL : Part.within [.ism, .fi] L = true) :
    Keeps L s₀ (ownMove p i s) := by
  unfold ownMove
  with_reducible repeat' first | intro _ | assumption | apply moveAt_keeps | apply sendUp_keeps | apply Keeps.ite | exact Part.within_trans (by decide) hL | dsimp only | split

theorem blockPort_keeps {L : List Part} {s₀ : State} {p : PortNo} {cause : Nat} {s : State} (hs : Keeps L s₀ s) (hL : Part.within [.host, .ism, .fi] L = true) :
    Keeps L s₀ (blockPort p cause s) := by
  unfold blockPort
  with_reducible repeat' first | intro _ | assumption | apply raiseLink_keeps | apply modIsmPort_keeps | exact Part.within_trans (by decide) hL | dsimp only | split

theorem trainPort_keeps {L : List Part} {s₀ : State} {p : PortNo} {i : LinkInfo} {s : State} (hs : Keeps L s₀ s) (hL : Part.within [.host, .tim, .ism, .fi, .free] L = true) :
    Keeps L s₀ (trainPort p i s) := by
  unfold trainPort
  with_reducible repeat' first | exact id | (intro h; simpa only [setAt, List.length_set, List.length_map, List.length_replicate] using h) | exact fun _ => rfl | with_unfolding_all exact id | intro _ | assumption | apply State.draw_keeps | apply modIsmPort_keeps | apply blockPort_keeps | apply raiseLink_keeps | apply sendHeadEvent_keeps | apply State.setTim_keeps | apply ownMove_keeps | apply ownAttach_keeps | apply Keeps.ite | exact Part.within_trans (by decide) hL | dsimp only | split

theorem linkArrive_keeps {L : List Part} {s₀ : State} {p : PortNo} {i : LinkInfo} {acked : Bool} {s : State} (hs : Keeps L s₀ s) (hL : Part.within [.host, .tim, .ism, .fi, .free] L = true) :
    Keeps L s₀ (linkArrive p i acked s) := by
  unfold linkArrive
  with_reducible repeat' first | intro _ | assumption | apply putIsmPort_keeps | apply trainPort_keeps | apply Keeps.ite | exact Part.within_trans (by decide) hL | dsimp only | split

theorem dropGatherPort_keeps {L : List Part} {s₀ : State} {p : PortNo} {s : State} (hs : Keeps L s₀ s) (hL : Part.within [.ism] L = true) :
    Keeps L s₀ (dropGatherPort p s) := by
  unfold dropGatherPort
  with_reducible repeat' first | exact id | (intro h; simpa only [setAt, List.length_set, List.length_map, List.length_replicate] using h) | exact fun _ => rfl | with_unfolding_all exact id | intro _ | assumption | apply State.setIsm_keeps | exact Part.within_trans (by decide) hL | dsimp only | split

theorem ismDown_keeps {L : List Part} {s₀ : State} {p : PortNo} {cause : Nat} {s : State} (hs : Keeps L s₀ s) (hL : Part.within [.host, .tim, .ism, .cal, .fi] L = true) :
    Keeps L s₀ (ismDown p cause s) := by
  unfold ismDown
  with_reducible repeat' first | exact id | (intro h; simpa only [setAt, List.length_set, List.length_map, List.length_replicate] using h) | exact fun _ => rfl | with_unfolding_all exact id | intro _ | assumption | apply putIsmPort_keeps | apply raiseLink_keeps | apply enterHoldover_keeps | apply applyCal_keeps | apply State.setTim_keeps | apply dropGatherPort_keeps | apply dropMergePort_keeps | apply ownLoss_keeps | apply Keeps.ite | exact Part.within_trans (by decide) hL | dsimp only | split

theorem ackArrive_keeps {L : List Part} {s₀ : State} {p : PortNo} {lseq : Word} {s : State} (hs : Keeps L s₀ s) (hL : Part.within [.ism, .fi] L = true) :
    Keeps L s₀ (ackArrive p lseq s) := by
  unfold ackArrive
  with_reducible repeat' first | exact id | (intro h; simpa only [setAt, List.length_set, List.length_map, List.length_replicate] using h) | exact fun _ => rfl | with_unfolding_all exact id | intro _ | assumption | apply putIsmPort_keeps | apply sendHeadEvent_keeps | apply State.setIsm_keeps | exact Part.within_trans (by decide) hL | dsimp only | split

theorem ackTimeout_keeps {L : List Part} {s₀ : State} {p : PortNo} {s : State} (hs : Keeps L s₀ s) (hL : Part.within [.host, .tim, .ism, .cal, .fi] L = true) :
    Keeps L s₀ (ackTimeout p s) := by
  unfold ackTimeout
  with_reducible repeat' first | intro _ | assumption | apply ismTransmit_keeps | apply putIsmPort_keeps | apply ismDown_keeps | apply Keeps.ite | apply Keeps.ite_fst | apply Keeps.ite_snd | exact Part.within_trans (by decide) hL | dsimp only | split

theorem sendSync_keeps {L : List Part} {s₀ : State} {s : State} (hs : Keeps L s₀ s) (hL : Part.within [.ism, .fi] L = true) :
    Keeps L s₀ (sendSync s) := by
  unfold sendSync
  with_reducible repeat' first | intro _ | assumption | apply sendDown_keeps | exact Part.within_trans (by decide) hL | dsimp only | split

theorem syncArrive_keeps {L : List Part} {s₀ : State} {p : PortNo} {t1 : TimePair} {s : State} (hs : Keeps L s₀ s) (hL : Part.within [.tim, .ism, .fi] L = true) :
    Keeps L s₀ (syncArrive p t1 s) := by
  unfold syncArrive
  with_reducible repeat' first | exact id | (intro h; simpa only [setAt, List.length_set, List.length_map, List.length_replicate] using h) | exact fun _ => rfl | with_unfolding_all exact id | intro _ | assumption | apply ismSend_keeps | apply State.setTim_keeps | apply Keeps.ite | exact Part.within_trans (by decide) hL | dsimp only | split

theorem delayReqArrive_keeps {L : List Part} {s₀ : State} {p : PortNo} {t3 : TimePair} {s : State} (hs : Keeps L s₀ s) (hL : Part.within [.ism, .fi] L = true) :
    Keeps L s₀ (delayReqArrive p t3 s) := by
  unfold delayReqArrive
  with_reducible repeat' first | intro _ | assumption | apply ismSend_keeps | apply modIsmPort_keeps | apply Keeps.ite | exact Part.within_trans (by decide) hL | dsimp only | split

theorem delayRespArrive_keeps {L : List Part} {s₀ : State} {p : PortNo} {t4 : TimePair} {s : State} (hs : Keeps L s₀ s) (hL : Part.within parts43 L = true) :
    Keeps L s₀ (delayRespArrive p t4 s) := by
  unfold delayRespArrive
  with_reducible repeat' first | exact id | (intro h; simpa only [setAt, List.length_set, List.length_map, List.length_replicate] using h) | exact fun _ => rfl | with_unfolding_all exact id | intro _ | assumption | apply modIsmPort_keeps | apply State.setTim_keeps | apply servoOffset_keeps | apply Keeps.ite | exact Part.within_trans (by decide) hL | dsimp only | split

theorem runSearch_keeps {L : List Part} {s₀ : State} {c : Issued} {s : State} (hs : Keeps L s₀ s) (hL : Part.within [.host, .ism, .fi] L = true) :
    Keeps L s₀ (runSearch c s).1 := by
  unfold runSearch
  with_reducible repeat' first | intro _ | assumption | apply answer_keeps | apply startSearch_keeps | apply Keeps.ite | apply Keeps.ite_fst | apply Keeps.ite_snd | exact Part.within_trans (by decide) hL | dsimp only | split | (refine Keeps.of_fst (by assumption) ?_; apply answer_keeps)

theorem runAssign_keeps {L : List Part} {s₀ : State} {c : Issued} {s : State} (hs : Keeps L s₀ s) (hL : Part.within [.ism, .fi] L = true) :
    Keeps L s₀ (runAssign c s).1 := by
  unfold runAssign
  with_reducible repeat' first | exact id | (intro h; simpa only [setAt, List.length_set, List.length_map, List.length_replicate] using h) | exact fun _ => rfl | with_unfolding_all exact id | intro _ | assumption | apply answer_keeps | apply State.setIsm_keeps | apply sendDown_keeps | apply Keeps.ite | apply Keeps.ite_fst | apply Keeps.ite_snd | exact Part.within_trans (by decide) hL | dsimp only | split | (refine Keeps.of_fst (by assumption) ?_; apply answer_keeps)

theorem runTopoRead_keeps {L : List Part} {s₀ : State} {c : Issued} {s : State} (hs : Keeps L s₀ s) (hL : Part.within [] L = true) :
    Keeps L s₀ (runTopoRead c s).1 := by
  unfold runTopoRead
  with_reducible repeat' first | intro _ | assumption | apply answer_keeps | apply answerOk_keeps | apply Keeps.ite | apply Keeps.ite_fst | apply Keeps.ite_snd | exact Part.within_trans (by decide) hL | dsimp only | split | (refine Keeps.of_fst (by assumption) ?_; apply answer_keeps) | (refine Keeps.of_fst (by assumption) ?_; apply answerOk_keeps)

theorem ismPortRead_keeps {L : List Part} {s₀ : State} {p : PortNo} {o : Nat} {s : State} (hs : Keeps L s₀ s) (hL : Part.within [.ism] L = true) :
    KeepsO L s₀ (ismPortRead p o s) := by
  unfold ismPortRead
  with_reducible repeat' first | intro _ | assumption | apply putIsmPort_keeps | apply Keeps.ite | apply Keeps.ite_fst | apply Keeps.ite_snd | exact KeepsO.none | apply KeepsO.ite | apply KeepsO.some | exact Part.within_trans (by decide) hL | dsimp only | split

theorem ismRead_keeps {L : List Part} {s₀ : State} {o : Nat} {s : State} (hs : Keeps L s₀ s) (hL : Part.within [.ism] L = true) :
    KeepsO L s₀ (ismRead o s) := by
  unfold ismRead
  with_reducible repeat' first | exact id | (intro h; simpa only [setAt, List.length_set, List.length_map, List.length_replicate] using h) | exact fun _ => rfl | with_unfolding_all exact id | intro _ | assumption | apply ismPortRead_keeps | apply State.setIsm_keeps | apply Keeps.ite | apply Keeps.ite_fst | apply Keeps.ite_snd | exact KeepsO.none | apply KeepsO.ite | apply KeepsO.some | exact Part.within_trans (by decide) hL | dsimp only | split | (refine Keeps.of_some (by assumption) ?_; apply ismPortRead_keeps)

theorem ismWrite_keeps {L : List Part} {s₀ : State} {o : Nat} {v : W32} {be : BitVec 4} {s : State} (hs : Keeps L s₀ s) (hL : Part.within [.ism] L = true) :
    KeepsE L s₀ (ismWrite o v be s) := by
  unfold ismWrite
  with_reducible repeat' first | exact id | (intro h; simpa only [setAt, List.length_set, List.length_map, List.length_replicate] using h) | exact fun _ => rfl | with_unfolding_all exact id | intro _ | assumption | apply State.setIsm_keeps | apply ismRead_keeps | apply Keeps.ite | apply Keeps.ite_fst | apply Keeps.ite_snd | exact KeepsE.error | apply KeepsE.ite | apply KeepsE.ok | exact Part.within_trans (by decide) hL | dsimp only | split | (refine Keeps.of_some (by assumption) ?_; apply ismRead_keeps)

end Sys2Proof.Machine
end

