-- ==== Sys2Proof/Laws/KeepsLanes.lean ====
section
/-! SUPPORT. What the operations of Machine/Lanes.lean keep (Laws/Keeps.lean). -/

namespace Sys2Proof.Machine

theorem putLane_keeps {L : List Part} {s₀ : State} {k : BitVec 2} {l : Lane} {s : State} (hs : Keeps L s₀ s) (hL : Part.within [.cmds] L = true) :
    Keeps L s₀ (putLane k l s) := by
  unfold putLane
  with_reducible repeat' first | intro _ | assumption | apply State.setCmds_keeps | exact Part.within_trans (by decide) hL | dsimp only | split

theorem withFree_keeps {L : List Part} {s₀ : State} {f : State → State} {s : State} (hf : ∀ t, Keeps L s₀ t → Keeps L s₀ (f t)) (hs : Keeps L s₀ s) (hL : Part.within [.host] L = true) :
    Keeps L s₀ (withFree f s) := by
  unfold withFree
  with_reducible repeat' first | intro _ | assumption | apply hf | apply State.setHost_keeps | apply Keeps.ite | exact Part.within_trans (by decide) hL | dsimp only | split

theorem enqueue_keeps {L : List Part} {s₀ : State} {c : Issued} {s : State} (hs : Keeps L s₀ s) (hL : Part.within [.cmds] L = true) :
    Keeps L s₀ (enqueue c s) := by
  unfold enqueue
  with_reducible repeat' first | intro _ | assumption | apply putLane_keeps | exact Part.within_trans (by decide) hL | dsimp only | split

theorem queueResponse_keeps {L : List Part} {s₀ : State} {st : Word} {tag : Word} {ws : List Word} {s : State} (hs : Keeps L s₀ s) (hL : Part.within [.host] L = true) :
    Keeps L s₀ (queueResponse st tag ws s) := by
  unfold queueResponse
  with_reducible repeat' first | intro _ | assumption | apply State.setHost_keeps | exact Part.within_trans (by decide) hL | dsimp only | split

theorem clearLane_keeps {L : List Part} {s₀ : State} {k : BitVec 2} {s : State} (hs : Keeps L s₀ s) (hL : Part.within [.cmds] L = true) :
    Keeps L s₀ (clearLane k s) := by
  unfold clearLane
  with_reducible repeat' first | intro _ | assumption | apply putLane_keeps | exact Part.within_trans (by decide) hL | dsimp only | split

theorem answerForward_keeps {L : List Part} {s₀ : State} {tag : Word} {st : Word} {ws : List Word} {s : State} (hs : Keeps L s₀ s) (hL : Part.within [.host, .cmds] L = true) :
    Keeps L s₀ (answerForward tag st ws s) := by
  unfold answerForward
  with_reducible repeat' first | intro _ | assumption | apply withFree_keeps | apply queueResponse_keeps | apply clearLane_keeps | apply Keeps.ite | exact Part.within_trans (by decide) hL | dsimp only | split

theorem dropGather_keeps {L : List Part} {s₀ : State} {tag : Word} {s : State} (hs : Keeps L s₀ s) (hL : Part.within [.ism] L = true) :
    Keeps L s₀ (dropGather tag s) := by
  unfold dropGather
  with_reducible repeat' first | exact id | (intro h; simpa only [setAt, List.length_set, List.length_map, List.length_replicate] using h) | exact fun _ => rfl | with_unfolding_all exact id | intro _ | assumption | apply State.setIsm_keeps | exact Part.within_trans (by decide) hL | dsimp only | split

theorem summitRespond_keeps {L : List Part} {s₀ : State} {c : Issued} {ws : List Word} {s : State} (hs : Keeps L s₀ s) (hL : Part.within [.host, .cmds] L = true) :
    Keeps L s₀ (summitRespond c ws s) := by
  unfold summitRespond
  with_reducible repeat' first | intro _ | assumption | apply queueResponse_keeps | apply answerForward_keeps | exact Part.within_trans (by decide) hL | dsimp only | split

theorem endGather_keeps {L : List Part} {s₀ : State} {g : Gather} {s : State} (hs : Keeps L s₀ s) (hL : Part.within [.boot, .host, .cmds, .ism, .fi] L = true) :
    Keeps L s₀ (endGather g s) := by
  unfold endGather
  with_reducible repeat' first | intro _ | assumption | apply dropGather_keeps | apply withFree_keeps | apply summitRespond_keeps | apply clearLane_keeps | apply State.setBoot_keeps | apply sendUp_keeps | apply Keeps.ite | exact Part.within_trans (by decide) hL | dsimp only | split | exact Nat.le_refl _

theorem settleGather_keeps {L : List Part} {s₀ : State} {tag : Word} {s : State} (hs : Keeps L s₀ s) (hL : Part.within [.boot, .host, .cmds, .ism, .fi] L = true) :
    Keeps L s₀ (settleGather tag s) := by
  unfold settleGather
  with_reducible repeat' first | intro _ | assumption | apply endGather_keeps | apply Keeps.ite | exact Part.within_trans (by decide) hL | dsimp only | split

theorem modGather_keeps {L : List Part} {s₀ : State} {tag : Word} {f : Gather → Gather} {s : State} (hs : Keeps L s₀ s) (hL : Part.within [.ism] L = true) :
    Keeps L s₀ (modGather tag f s) := by
  unfold modGather
  with_reducible repeat' first | exact id | (intro h; simpa only [setAt, List.length_set, List.length_map, List.length_replicate] using h) | exact fun _ => rfl | with_unfolding_all exact id | intro _ | assumption | apply State.setIsm_keeps | apply Keeps.ite | exact Part.within_trans (by decide) hL | dsimp only | split

theorem ownBroadcast_keeps {L : List Part} {s₀ : State} {tag : Word} {st : Word} {s : State} (hs : Keeps L s₀ s) (hL : Part.within [.boot, .host, .cmds, .ism, .fi] L = true) :
    Keeps L s₀ (ownBroadcast tag st s) := by
  unfold ownBroadcast
  with_reducible repeat' first | exact id | (intro h; simpa only [setAt, List.length_set, List.length_map, List.length_replicate] using h) | exact fun _ => rfl | with_unfolding_all exact id | intro _ | assumption | apply State.setIsm_keeps | apply settleGather_keeps | apply modGather_keeps | apply Keeps.ite | exact Part.within_trans (by decide) hL | dsimp only | split

theorem childCounts_keeps {L : List Part} {s₀ : State} {tag : Word} {p : PortNo} {c : BcastCounts} {s : State} (hs : Keeps L s₀ s) (hL : Part.within [.boot, .host, .cmds, .ism, .fi] L = true) :
    Keeps L s₀ (childCounts tag p c s) := by
  unfold childCounts
  with_reducible repeat' first | intro _ | assumption | apply settleGather_keeps | apply modGather_keeps | apply Keeps.ite | exact Part.within_trans (by decide) hL | dsimp only | split

theorem gatherDeadline_keeps {L : List Part} {s₀ : State} {g : Gather} {s : State} (hs : Keeps L s₀ s) (hL : Part.within [.boot, .host, .cmds, .ism, .fi] L = true) :
    Keeps L s₀ (gatherDeadline g s) := by
  unfold gatherDeadline
  with_reducible repeat' first | intro _ | assumption | apply modGather_keeps | apply endGather_keeps | apply Keeps.ite | exact Part.within_trans (by decide) hL | dsimp only | split

theorem bcastDeadline_keeps {L : List Part} {s₀ : State} {s : State} (hs : Keeps L s₀ s) (hL : Part.within [.boot, .host, .cmds, .ism, .fi] L = true) :
    Keeps L s₀ (bcastDeadline s) := by
  unfold bcastDeadline
  with_reducible repeat' first | intro _ | assumption | apply gatherDeadline_keeps | apply Keeps.foldl | exact Part.within_trans (by decide) hL | dsimp only | split

theorem respond_keeps {L : List Part} {s₀ : State} {c : Issued} {st : Word} {ws : List Word} {s : State} (hs : Keeps L s₀ s) (hL : Part.within [.boot, .host, .cmds, .ism, .fi] L = true) :
    Keeps L s₀ (respond c st ws s) := by
  unfold respond
  with_reducible repeat' first | intro _ | assumption | apply queueResponse_keeps | apply answerForward_keeps | apply sendUp_keeps | apply ownBroadcast_keeps | apply Keeps.ite | exact Part.within_trans (by decide) hL | dsimp only | split

theorem finish_keeps {L : List Part} {s₀ : State} {k : BitVec 2} {st : Word} {ws : List Word} {s : State} (hs : Keeps L s₀ s) (hL : Part.within [.boot, .host, .cmds, .ism, .fi] L = true) :
    Keeps L s₀ (finish k st ws s) := by
  unfold finish
  with_reducible repeat' first | intro _ | assumption | apply withFree_keeps | apply respond_keeps | apply clearLane_keeps | exact Part.within_trans (by decide) hL | dsimp only | split

end Sys2Proof.Machine
end

