-- ==== Sys2Proof/Laws/KeepsIsmArrive.lean ====
section
/-! SUPPORT. What the operations of Machine/IsmArrive.lean keep (Laws/Keeps.lean). -/

namespace Sys2Proof.Machine

theorem upward_keeps {L : List Part} {s₀ : State} {f : IsmFrame} {atSummit : State → State} {s : State} (hatSummit : ∀ t, Keeps L s₀ t → Keeps L s₀ (atSummit t)) (hs : Keeps L s₀ s) (hL : Part.within [.ism, .fi] L = true) :
    Keeps L s₀ (upward f atSummit s) := by
  unfold upward
  with_reducible repeat' first | intro _ | assumption | apply hatSummit | apply relay_keeps | apply Keeps.ite | exact Part.within_trans (by decide) hL | dsimp only | split

theorem fromParent_keeps {L : List Part} {s₀ : State} {p : PortNo} {f : State → State} {s : State} (hf : ∀ t, Keeps L s₀ t → Keeps L s₀ (f t)) (hs : Keeps L s₀ s) (hL : Part.within [] L = true) :
    Keeps L s₀ (fromParent p f s) := by
  unfold fromParent
  with_reducible repeat' first | intro _ | assumption | apply hf | apply Keeps.ite | exact Part.within_trans (by decide) hL | dsimp only | split

theorem fromChild_keeps {L : List Part} {s₀ : State} {p : PortNo} {f : State → State} {s : State} (hf : ∀ t, Keeps L s₀ t → Keeps L s₀ (f t)) (hs : Keeps L s₀ s) (hL : Part.within [] L = true) :
    Keeps L s₀ (fromChild p f s) := by
  unfold fromChild
  with_reducible repeat' first | intro _ | assumption | apply hf | apply Keeps.ite | exact Part.within_trans (by decide) hL | dsimp only | split

theorem addressed_keeps {L : List Part} {s₀ : State} {f : IsmFrame} {here : State → State} {s : State} (hhere : ∀ t, Keeps L s₀ t → Keeps L s₀ (here t)) (hs : Keeps L s₀ s) (hL : Part.within [.ism, .fi] L = true) :
    Keeps L s₀ (addressed f here s) := by
  unfold addressed
  with_reducible repeat' first | intro _ | assumption | apply hhere | apply byRoute_keeps | apply Keeps.ite | exact Part.within_trans (by decide) hL | dsimp only | split

theorem forwardAnswer_keeps {L : List Part} {s₀ : State} {src : Word} {st : Word} {tag : Word} {ws : List Word} {s : State} (hs : Keeps L s₀ s) (hL : Part.within [.host, .cmds] L = true) :
    Keeps L s₀ (forwardAnswer src st tag ws s) := by
  unfold forwardAnswer
  with_reducible repeat' first | intro _ | assumption | apply answerForward_keeps | apply Keeps.ite | exact Part.within_trans (by decide) hL | dsimp only | split

theorem bcastArrive_keeps {L : List Part} {s₀ : State} {f : IsmFrame} {op : Word} {tag : Word} {args : List Word} {s : State} (hs : Keeps L s₀ s) (hL : Part.within [.cmds, .ism, .fi] L = true) :
    Keeps L s₀ (bcastArrive f op tag args s) := by
  unfold bcastArrive
  with_reducible repeat' first | exact id | (intro h; simpa only [setAt, List.length_set, List.length_map, List.length_replicate] using h) | exact fun _ => rfl | with_unfolding_all exact id | intro _ | assumption | apply relayDown_keeps | apply State.setIsm_keeps | apply enqueue_keeps | apply Keeps.ite | exact Part.within_trans (by decide) hL | dsimp only | split

theorem pingReplyAt_keeps {L : List Part} {s₀ : State} {src : Word} {st : Word} {s : State} (hs : Keeps L s₀ s) (hL : Part.within [.host, .ism, .fi] L = true) :
    Keeps L s₀ (pingReplyAt src st s) := by
  unfold pingReplyAt
  with_reducible repeat' first | intro _ | assumption | apply pingAnswered_keeps | apply modTopo_keeps | exact Part.within_trans (by decide) hL | dsimp only | split

theorem ismDispatch_keeps {L : List Part} {s₀ : State} {p : PortNo} {f : IsmFrame} {s : State} (hs : Keeps L s₀ s) (hL : Part.within parts43 L = true) :
    Keeps L s₀ (ismDispatch p f s) := by
  unfold ismDispatch
  with_reducible repeat' first | exact id | (intro h; simpa only [setAt, List.length_set, List.length_map, List.length_replicate] using h) | exact fun _ => rfl | with_unfolding_all exact id | intro _ | assumption | apply heartbeatArrive_keeps | apply syncArrive_keeps | apply delayReqArrive_keeps | apply delayRespArrive_keeps | apply fromParent_keeps | apply beginArrive_keeps | apply queryArrive_keeps | apply claimArrive_keeps | apply markArrive_keeps | apply endArrive_keeps | apply fromChild_keeps | apply replyArrive_keeps | apply addressArrive_keeps | apply addressed_keeps | apply enqueue_keeps | apply upward_keeps | apply forwardAnswer_keeps | apply storeRemote_keeps | apply rollUp_keeps | apply attachFrom_keeps | apply lossAt_keeps | apply moveAt_keeps | apply spurLost_keeps | apply State.setIsm_keeps | apply conflictAt_keeps | apply sendUp_keeps | apply pingReplyAt_keeps | apply bcastArrive_keeps | apply childCounts_keeps | apply Keeps.ite | exact Part.within_trans (by decide) hL | dsimp only | split

theorem learnRoute_keeps {L : List Part} {s₀ : State} {p : PortNo} {f : IsmFrame} {s : State} (hs : Keeps L s₀ s) (hL : Part.within [.ism] L = true) :
    Keeps L s₀ (learnRoute p f s) := by
  unfold learnRoute
  with_reducible repeat' first | exact id | (intro h; simpa only [setAt, List.length_set, List.length_map, List.length_replicate] using h) | exact fun _ => rfl | with_unfolding_all exact id | intro _ | assumption | apply State.setIsm_keeps | apply modTopo_keeps | apply Keeps.ite | exact Part.within_trans (by decide) hL | dsimp only | split

theorem crcError_keeps {L : List Part} {s₀ : State} {p : PortNo} {s : State} (hs : Keeps L s₀ s) (hL : Part.within [.ism] L = true) :
    Keeps L s₀ (crcError p s) := by
  unfold crcError
  with_reducible repeat' first | intro _ | assumption | apply modIsmPort_keeps | exact Part.within_trans (by decide) hL | dsimp only | split

theorem ismTake_keeps {L : List Part} {s₀ : State} {p : PortNo} {f : IsmFrame} {good : Bool} {acked : Bool} {s : State} (hs : Keeps L s₀ s) (hL : Part.within parts43 L = true) :
    Keeps L s₀ (ismTake p f good acked s) := by
  unfold ismTake
  with_reducible repeat' first | intro _ | assumption | apply linkArrive_keeps | apply crcError_keeps | apply modIsmPort_keeps | apply ismDispatch_keeps | apply learnRoute_keeps | apply Keeps.ite | exact Part.within_trans (by decide) hL | dsimp only | split

theorem ismTakeAll_keeps {L : List Part} {s₀ : State} {p : PortNo} {l : List HeldUnit} {s : State} (hs : Keeps L s₀ s) (hL : Part.within parts43 L = true) :
    Keeps L s₀ (ismTakeAll p l s) := by
  unfold ismTakeAll
  with_reducible repeat' first | intro _ | assumption | apply ismTake_keeps | apply Keeps.foldl | exact Part.within_trans (by decide) hL | dsimp only | split

theorem ismAltered_keeps {L : List Part} {s₀ : State} {p : PortNo} {f : Option IsmFrame} {acked : Bool} {s : State} (hs : Keeps L s₀ s) (hL : Part.within parts43 L = true) :
    Keeps L s₀ (ismAltered p f acked s) := by
  unfold ismAltered
  with_reducible repeat' first | intro _ | assumption | apply ismTake_keeps | apply crcError_keeps | exact Part.within_trans (by decide) hL | dsimp only | split

theorem ismArrive_keeps {L : List Part} {s₀ : State} {h : IsmHdr} {acked : Bool} {b : IsmBody} {s : State} (hs : Keeps L s₀ s) (hL : Part.within parts43 L = true) :
    Keeps L s₀ (ismArrive h acked b s) := by
  unfold ismArrive
  with_reducible repeat' first | intro _ | assumption | apply fiStep_keeps | apply ismTake_keeps | apply ismAltered_keeps | apply ismTakeAll_keeps | apply Keeps.ite | apply Keeps.ite_fst | apply Keeps.ite_snd | exact Part.within_trans (by decide) hL | dsimp only | split | (refine Keeps.of_snd (by assumption) ?_; apply fiStep_keeps)

theorem hbTimeout_keeps {L : List Part} {s₀ : State} {a : Word} {s : State} (hs : Keeps L s₀ s) (hL : Part.within parts34 L = true) :
    Keeps L s₀ (hbTimeout a s) := by
  unfold hbTimeout
  with_reducible repeat' first | exact id | (intro h; simpa only [setAt, List.length_set, List.length_map, List.length_replicate] using h) | exact fun _ => rfl | with_unfolding_all exact id | intro _ | assumption | apply State.setIsm_keeps | apply setSummitOk_keeps | apply spurLost_keeps | apply sendUp_keeps | apply Keeps.ite | exact Part.within_trans (by decide) hL | dsimp only | split

theorem autoSearch_keeps {L : List Part} {s₀ : State} {s : State} (hs : Keeps L s₀ s) (hL : Part.within [.host, .ism, .fi] L = true) :
    Keeps L s₀ (autoSearch s) := by
  unfold autoSearch
  with_reducible repeat' first | intro _ | assumption | apply startSearch_keeps | apply Keeps.ite | exact Part.within_trans (by decide) hL | dsimp only | split

theorem forwardTimeout_keeps {L : List Part} {s₀ : State} {s : State} (hs : Keeps L s₀ s) (hL : Part.within [.boot, .host, .cmds, .ism, .fi] L = true) :
    Keeps L s₀ (forwardTimeout s) := by
  unfold forwardTimeout
  with_reducible repeat' first | intro _ | assumption | apply finish_keeps | apply Keeps.ite | exact Part.within_trans (by decide) hL | dsimp only | split

end Sys2Proof.Machine
end

