-- ==== Sys2Proof/Laws/KeepsInjectOps.lean ====
section
/-! SUPPORT. What the operations of Machine/InjectOps.lean keep (Laws/Keeps.lean). -/

namespace Sys2Proof.Machine

theorem releaseUnits_keeps {L : List Part} {s₀ : State} {p : Word} {l : List HeldUnit} {s : State} (hs : Keeps L s₀ s) (hL : Part.within parts43 L = true) :
    Keeps L s₀ (releaseUnits p l s) := by
  unfold releaseUnits
  with_reducible repeat' first | intro _ | assumption | apply ethReceiveAll_keeps | apply putPort_keeps | apply ismTakeAll_keeps | apply ismLineAll_keeps | apply releaseHwy_keeps | apply linkHeld_keeps | apply Keeps.ite | exact Part.within_trans (by decide) hL | dsimp only | split

theorem disarmPoint_keeps {L : List Part} {s₀ : State} {p : Word} {s : State} (hs : Keeps L s₀ s) (hL : Part.within parts43 L = true) :
    Keeps L s₀ (disarmPoint p s) := by
  unfold disarmPoint
  with_reducible repeat' first | intro _ | assumption | apply putFi_keeps | apply releaseUnits_keeps | apply Keeps.ite | exact Part.within_trans (by decide) hL | dsimp only | split

theorem disarmed_keeps {L : List Part} {s₀ : State} {before : Nat} {s : State} (hs : Keeps L s₀ s) (hL : Part.within [.host, .ism, .fi] L = true) :
    Keeps L s₀ (disarmed before s) := by
  unfold disarmed
  with_reducible repeat' first | intro _ | assumption | apply raiseFiArmed_keeps | apply Keeps.ite | exact Part.within_trans (by decide) hL | dsimp only | split

theorem disarmAll_keeps {L : List Part} {s₀ : State} {s : State} (hs : Keeps L s₀ s) (hL : Part.within parts43 L = true) :
    Keeps L s₀ (disarmAll s) := by
  unfold disarmAll
  with_reducible repeat' first | intro _ | assumption | apply disarmed_keeps | apply disarmPoint_keeps | apply Keeps.foldl | apply Keeps.foldlP | exact Part.within_trans (by decide) hL | dsimp only | split

theorem reorderTimeout_keeps {L : List Part} {s₀ : State} {p : Word} {s : State} (hs : Keeps L s₀ s) (hL : Part.within parts43 L = true) :
    Keeps L s₀ (reorderTimeout p s) := by
  unfold reorderTimeout
  with_reducible repeat' first | intro _ | assumption | apply releaseUnits_keeps | apply putFi_keeps | apply Keeps.ite | exact Part.within_trans (by decide) hL | dsimp only | split

theorem runFiArm_keeps {L : List Part} {s₀ : State} {c : Issued} {s : State} (hs : Keeps L s₀ s) (hL : Part.within [.host, .ism, .fi] L = true) :
    Keeps L s₀ (runFiArm c s).1 := by
  unfold runFiArm
  with_reducible repeat' first | intro _ | assumption | apply answer_keeps | apply raiseFiArmed_keeps | apply putFi_keeps | apply Keeps.ite | apply Keeps.ite_fst | apply Keeps.ite_snd | exact Part.within_trans (by decide) hL | dsimp only | split | (refine Keeps.of_fst (by assumption) ?_; apply answer_keeps)

theorem runFiDisarm_keeps {L : List Part} {s₀ : State} {c : Issued} {s : State} (hs : Keeps L s₀ s) (hL : Part.within parts43 L = true) :
    Keeps L s₀ (runFiDisarm c s).1 := by
  unfold runFiDisarm
  with_reducible repeat' first | intro _ | assumption | apply answer_keeps | apply disarmAll_keeps | apply disarmed_keeps | apply disarmPoint_keeps | apply Keeps.ite | apply Keeps.ite_fst | apply Keeps.ite_snd | exact Part.within_trans (by decide) hL | dsimp only | split | (refine Keeps.of_fst (by assumption) ?_; apply answer_keeps)

theorem runFiRead_keeps {L : List Part} {s₀ : State} {c : Issued} {s : State} (hs : Keeps L s₀ s) (hL : Part.within [] L = true) :
    Keeps L s₀ (runFiRead c s).1 := by
  unfold runFiRead
  with_reducible repeat' first | intro _ | assumption | apply answerOk_keeps | exact Part.within_trans (by decide) hL | dsimp only | split | (refine Keeps.of_fst (by assumption) ?_; apply answerOk_keeps)

end Sys2Proof.Machine
end

