-- ==== Sys2Proof/Laws/KeepsTaskOps.lean ====
section
/-! SUPPORT. What the operations of Machine/TaskOps.lean keep (Laws/Keeps.lean). -/

namespace Sys2Proof.Machine

theorem putEngine_keeps {L : List Part} {s₀ : State} {e : BitVec 1} {x : Engine} {s : State} (hs : Keeps L s₀ s) (hL : Part.within [.ten] L = true) :
    Keeps L s₀ (putEngine e x s) := by
  unfold putEngine
  with_reducible repeat' first | intro _ | assumption | apply State.setTen_keeps | apply Keeps.ite | exact Part.within_trans (by decide) hL | dsimp only | split

theorem countOverrun_keeps {L : List Part} {s₀ : State} {k : BitVec 6} {s : State} (hs : Keeps L s₀ s) (hL : Part.within [.sch] L = true) :
    Keeps L s₀ (countOverrun k s) := by
  unfold countOverrun
  with_reducible repeat' first | intro _ | assumption | apply State.setSch_keeps | apply Keeps.ite | exact Part.within_trans (by decide) hL | dsimp only | split

theorem abortService_keeps {L : List Part} {s₀ : State} {t : Task} {s : State} (hs : Keeps L s₀ s) (hL : Part.within parts20 L = true) :
    Keeps L s₀ (abortService t s) := by
  unfold abortService
  with_reducible repeat' first | intro _ | assumption | apply removeService_keeps | apply countOverrun_keeps | apply loseGraph_keeps | apply putEngine_keeps | exact Part.within_trans (by decide) hL | dsimp only | split

theorem putX_keeps {L : List Part} {s₀ : State} {n : CoreNo} {o : Nat} {v : W32} {s : State} (hs : Keeps L s₀ s) (hL : Part.within [.mem] L = true) :
    Keeps L s₀ (putX n o v s) := by
  unfold putX
  with_reducible repeat' first | intro _ | assumption | apply State.withMem_keeps | apply memWriteList_wf | apply memWrite32_wf | apply memWrite_wf | apply memFilter_wf | exact Part.within_trans (by decide) hL | dsimp only | split

theorem coreFault_keeps {L : List Part} {s₀ : State} {n : CoreNo} {code : Nat} {s : State} (hs : Keeps L s₀ s) (hL : Part.within parts20 L = true) :
    Keeps L s₀ (coreFault n code s) := by
  unfold coreFault
  with_reducible repeat' first | intro _ | assumption | apply putCore_keeps | apply putX_keeps | apply traceRecord_keeps | apply abortService_keeps | apply Keeps.foldl | apply Keeps.foldlP | exact Part.within_trans (by decide) hL | dsimp only | split

theorem jobError_keeps {L : List Part} {s₀ : State} {e : BitVec 1} {code : Nat} {s : State} (hs : Keeps L s₀ s) (hL : Part.within parts20 L = true) :
    Keeps L s₀ (jobError e code s) := by
  unfold jobError
  with_reducible repeat' first | intro _ | assumption | apply putEngine_keeps | apply abortService_keeps | exact Part.within_trans (by decide) hL | dsimp only | split

theorem budgetExceeded_keeps {L : List Part} {s₀ : State} {x : Executor} {s : State} (hs : Keeps L s₀ s) (hL : Part.within parts20 L = true) :
    Keeps L s₀ (budgetExceeded x s) := by
  unfold budgetExceeded
  with_reducible repeat' first | intro _ | assumption | apply coreFault_keeps | apply abortService_keeps | exact Part.within_trans (by decide) hL | dsimp only | split

theorem bistStart_keeps {L : List Part} {s₀ : State} {n : CoreNo} {s : State} (hs : Keeps L s₀ s) (hL : Part.within [.sch] L = true) :
    Keeps L s₀ (bistStart n s) := by
  unfold bistStart
  with_reducible repeat' first | intro _ | assumption | apply putCore_keeps | apply Keeps.ite | exact Part.within_trans (by decide) hL | dsimp only | split

theorem bistDone_keeps {L : List Part} {s₀ : State} {n : CoreNo} {pass : Bool} {s : State} (hs : Keeps L s₀ s) (hL : Part.within parts19 L = true) :
    Keeps L s₀ (bistDone n pass s) := by
  unfold bistDone
  with_reducible repeat' first | intro _ | assumption | apply nextDrain_keeps | apply pointsChanged_keeps | apply putCore_keeps | apply withdrawCore_keeps | apply Keeps.ite | exact Part.within_trans (by decide) hL | dsimp only | split

end Sys2Proof.Machine
end

