-- ==== Sys2Proof/Laws/KeepsSafeOps.lean ====
section
/-! SUPPORT. What the operations of Machine/SafeOps.lean keep (Laws/Keeps.lean). -/

namespace Sys2Proof.Machine

theorem lockstepMismatch_keeps {L : List Part} {s₀ : State} {s : State} (hs : Keeps L s₀ s) (hL : Part.within parts34 L = true) :
    Keeps L s₀ (lockstepMismatch s) := by
  unfold lockstepMismatch
  with_reducible repeat' first | intro _ | assumption | apply moduleSafe_keeps | apply State.setSaf_keeps | exact Part.within_trans (by decide) hL | dsimp only | split

theorem comparatorTest_keeps {L : List Part} {s₀ : State} {flagged : Bool} {other : Bool} {s : State} (hs : Keeps L s₀ s) (hL : Part.within parts34 L = true) :
    Keeps L s₀ (comparatorTest flagged other s) := by
  unfold comparatorTest
  with_reducible repeat' first | intro _ | assumption | apply State.setSaf_keeps | apply lockstepMismatch_keeps | apply moduleSafe_keeps | apply Keeps.ite | exact Part.within_trans (by decide) hL | dsimp only | split

theorem checkerTest_keeps {L : List Part} {s₀ : State} {pass : Bool} {s : State} (hs : Keeps L s₀ s) (hL : Part.within parts34 L = true) :
    Keeps L s₀ (checkerTest pass s) := by
  unfold checkerTest
  with_reducible repeat' first | intro _ | assumption | apply State.setSaf_keeps | apply moduleSafe_keeps | apply Keeps.ite | exact Part.within_trans (by decide) hL | dsimp only | split

theorem countBenign_keeps {L : List Part} {s₀ : State} {t : DupTable} {entry : BitVec 13} {s : State} (hs : Keeps L s₀ s) (hL : Part.within [.led, .saf] L = true) :
    Keeps L s₀ (countBenign t entry s) := by
  unfold countBenign
  with_reducible repeat' first | intro _ | assumption | apply State.setSaf_keeps | apply modChan_keeps | exact Part.within_trans (by decide) hL | dsimp only | split

theorem tableDiff_keeps {L : List Part} {s₀ : State} {t : DupTable} {d : TableDiff} {entry : BitVec 13} {s : State} (hs : Keeps L s₀ s) (hL : Part.within parts34 L = true) :
    Keeps L s₀ (tableDiff t d entry s) := by
  unfold tableDiff
  with_reducible repeat' first | intro _ | assumption | apply countBenign_keeps | apply raise_keeps | apply State.setHost_keeps | apply State.draw_keeps | apply State.setSaf_keeps | apply chanSafe_keeps | apply moduleSafe_keeps | exact Part.within_trans (by decide) hL | dsimp only | split

theorem scrub_keeps {L : List Part} {s₀ : State} {t : DupTable} {d : Option TableDiff} {entry : BitVec 13} {s : State} (hs : Keeps L s₀ s) (hL : Part.within parts34 L = true) :
    Keeps L s₀ (scrub t d entry s) := by
  unfold scrub
  with_reducible repeat' first | intro _ | assumption | apply State.setSaf_keeps | apply tableDiff_keeps | exact Part.within_trans (by decide) hL | dsimp only | split

theorem eccError_keeps {L : List Part} {s₀ : State} {p : EccPlace} {s : State} (hs : Keeps L s₀ s) (hL : Part.within parts40 L = true) :
    Keeps L s₀ (eccError p s) := by
  unfold eccError
  with_reducible repeat' first | intro _ | assumption | apply State.setSaf_keeps | apply State.setQm_keeps | apply coreFault_keeps | apply withdrawCore_keeps | apply jobError_keeps | apply modChan_keeps | apply moduleSafe_keeps | apply Keeps.ite | exact Part.within_trans (by decide) hL | dsimp only | split

theorem runSafeCfg_keeps {L : List Part} {s₀ : State} {c : Issued} {s : State} (hs : Keeps L s₀ s) (hL : Part.within [.saf] L = true) :
    Keeps L s₀ (runSafeCfg c s).1 := by
  unfold runSafeCfg
  with_reducible repeat' first | intro _ | assumption | apply answer_keeps | apply State.setSaf_keeps | apply Keeps.ite | apply Keeps.ite_fst | apply Keeps.ite_snd | exact Part.within_trans (by decide) hL | dsimp only | split | (refine Keeps.of_fst (by assumption) ?_; apply answer_keeps)

theorem runSafeQuery_keeps {L : List Part} {s₀ : State} {c : Issued} {s : State} (hs : Keeps L s₀ s) (hL : Part.within [] L = true) :
    Keeps L s₀ (runSafeQuery c s).1 := by
  unfold runSafeQuery
  with_reducible repeat' first | intro _ | assumption | apply answerOk_keeps | apply answer_keeps | apply Keeps.ite | apply Keeps.ite_fst | apply Keeps.ite_snd | exact Part.within_trans (by decide) hL | dsimp only | split | (refine Keeps.of_fst (by assumption) ?_; apply answerOk_keeps) | (refine Keeps.of_fst (by assumption) ?_; apply answer_keeps)

end Sys2Proof.Machine
end

