-- ==== Sys2Proof/Laws/KeepsTensorOps.lean ====
section
/-! SUPPORT. What the operations of Machine/TensorOps.lean keep (Laws/Keeps.lean). -/

namespace Sys2Proof.Machine

theorem endNeural_keeps {L : List Part} {s₀ : State} {e : BitVec 1} {s : State} (hs : Keeps L s₀ s) (hL : Part.within parts20 L = true) :
    Keeps L s₀ (endNeural e s) := by
  unfold endNeural
  with_reducible repeat' first | intro _ | assumption | apply modUp_keeps | apply modChan_keeps | apply putEngine_keeps | apply taskEnds_keeps | apply Keeps.foldl | apply Keeps.foldlP | exact Part.within_trans (by decide) hL | dsimp only | split

theorem beginEngine_keeps {L : List Part} {s₀ : State} {e : BitVec 1} {t : Task} {s : State} (hs : Keeps L s₀ s) (hL : Part.within parts20 L = true) :
    Keeps L s₀ (beginEngine e t s) := by
  unfold beginEngine
  with_reducible repeat' first | intro _ | assumption | apply startService_keeps | apply putEngine_keeps | apply State.draw_keeps | apply endNeural_keeps | apply Keeps.ite | exact Part.within_trans (by decide) hL | dsimp only | split

theorem putSpaceByte_keeps {L : List Part} {s₀ : State} {j : JobCtx} {sp : Nat} {o : Nat} {b : Byte} {s : State} (hs : Keeps L s₀ s) (hL : Part.within [.ten, .mem] L = true) :
    Keeps L s₀ (putSpaceByte j sp o b s) := by
  unfold putSpaceByte
  with_reducible repeat' first | intro _ | assumption | apply State.withMem_keeps | apply putEngine_keeps | apply Keeps.ite | apply memWriteList_wf | apply memWrite32_wf | apply memWrite_wf | apply memFilter_wf | exact Part.within_trans (by decide) hL | dsimp only | split

theorem putSpaceNat_keeps {L : List Part} {s₀ : State} {j : JobCtx} {sp : Nat} {o : Nat} {n : Nat} {v : Nat} {s : State} (hs : Keeps L s₀ s) (hL : Part.within [.ten, .mem] L = true) :
    Keeps L s₀ (putSpaceNat j sp o n v s) := by
  unfold putSpaceNat
  with_reducible repeat' first | intro _ | assumption | apply putSpaceByte_keeps | apply Keeps.foldl | exact Part.within_trans (by decide) hL | dsimp only | split

theorem writeOut_keeps {L : List Part} {s₀ : State} {j : Job} {o : Out} {i : Nat} {s : State} (hs : Keeps L s₀ s) (hL : Part.within [.ten, .mem] L = true) :
    Keeps L s₀ (writeOut j o i s) := by
  unfold writeOut
  with_reducible repeat' first | intro _ | assumption | apply putSpaceNat_keeps | exact Part.within_trans (by decide) hL | dsimp only | split

theorem copyFrame_keeps {L : List Part} {s₀ : State} {j : JobCtx} {s : State} (hs : Keeps L s₀ s) (hL : Part.within [.ten, .mem] L = true) :
    Keeps L s₀ (copyFrame j s) := by
  unfold copyFrame
  with_reducible repeat' first | intro _ | assumption | apply putSpaceByte_keeps | apply Keeps.foldl | exact Part.within_trans (by decide) hL | dsimp only | split

theorem endModel_keeps {L : List Part} {s₀ : State} {j : JobCtx} {s : State} (hs : Keeps L s₀ s) (hL : Part.within parts20 L = true) :
    Keeps L s₀ (endModel j s) := by
  unfold endModel
  with_reducible repeat' first | intro _ | assumption | apply copyFrame_keeps | apply putEngine_keeps | apply endNeural_keeps | apply Keeps.ite | exact Part.within_trans (by decide) hL | dsimp only | split

theorem performJob_keeps {L : List Part} {s₀ : State} {j : Job} {s : State} (hs : Keeps L s₀ s) (hL : Part.within parts20 L = true) :
    Keeps L s₀ (performJob j s) := by
  unfold performJob
  with_reducible repeat' first | intro _ | assumption | apply writeOut_keeps | apply State.drawN_keeps | apply putEngine_keeps | apply endModel_keeps | apply Keeps.foldl | apply Keeps.foldlP | apply Keeps.ite | apply Keeps.ite_fst | apply Keeps.ite_snd | exact Part.within_trans (by decide) hL | dsimp only | split

theorem runTensor_keeps {L : List Part} {s₀ : State} {op : Nat} {e : BitVec 1} {d : JobDesc} {s : State} (hs : Keeps L s₀ s) (hL : Part.within parts20 L = true) :
    Keeps L s₀ (runTensor op e d s) := by
  unfold runTensor
  with_reducible repeat' first | intro _ | assumption | apply jobError_keeps | apply performJob_keeps | apply Keeps.ite | exact Part.within_trans (by decide) hL | dsimp only | split

theorem testVectors_keeps {L : List Part} {s₀ : State} {e : BitVec 1} {pass : Bool} {s : State} (hs : Keeps L s₀ s) (hL : Part.within parts31 L = true) :
    Keeps L s₀ (testVectors e pass s) := by
  unfold testVectors
  with_reducible repeat' first | intro _ | assumption | apply withdrawEngine_keeps | apply Keeps.ite | exact Part.within_trans (by decide) hL | dsimp only | split

end Sys2Proof.Machine
end

