-- ==== Sys2Proof/Laws/KeepsCalOps.lean ====
section
/-! SUPPORT. What the operations of Machine/CalOps.lean keep (Laws/Keeps.lean). -/

namespace Sys2Proof.Machine

theorem addWork_keeps {L : List Part} {s₀ : State} {w : Work} {s : State} (hs : Keeps L s₀ s) (hL : Part.within [.cmds] L = true) :
    Keeps L s₀ (addWork w s) := by
  unfold addWork
  with_reducible repeat' first | intro _ | assumption | apply State.setCmds_keeps | exact Part.within_trans (by decide) hL | dsimp only | split

theorem modWork_keeps {L : List Part} {s₀ : State} {w : Work} {s : State} (hs : Keeps L s₀ s) (hL : Part.within [.cmds] L = true) :
    Keeps L s₀ (modWork w s) := by
  unfold modWork
  with_reducible repeat' first | intro _ | assumption | apply State.setCmds_keeps | apply Keeps.ite | exact Part.within_trans (by decide) hL | dsimp only | split

theorem dropWork_keeps {L : List Part} {s₀ : State} {w : Work} {s : State} (hs : Keeps L s₀ s) (hL : Part.within [.cmds] L = true) :
    Keeps L s₀ (dropWork w s) := by
  unfold dropWork
  with_reducible repeat' first | intro _ | assumption | apply State.setCmds_keeps | exact Part.within_trans (by decide) hL | dsimp only | split

theorem endWork_keeps {L : List Part} {s₀ : State} {w : Work} {st : Word} {s : State} (hs : Keeps L s₀ s) (hL : Part.within [.host, .cmds, .ism, .fi] L = true) :
    Keeps L s₀ (endWork w st s) := by
  unfold endWork
  with_reducible repeat' first | intro _ | assumption | apply calDoneEvent_keeps | apply dropWork_keeps | exact Part.within_trans (by decide) hL | dsimp only | split

theorem accept_keeps {L : List Part} {s₀ : State} {w : Work} {s : State} (hs : Keeps L s₀ s) (hL : Part.within [.cmds] L = true) :
    Keeps L s₀ (accept w s).1 := by
  unfold accept
  with_reducible repeat' first | intro _ | assumption | apply answer_keeps | apply addWork_keeps | exact Part.within_trans (by decide) hL | dsimp only | split | (refine Keeps.of_fst (by assumption) ?_; apply answer_keeps)

theorem outOfServiceGate_keeps {L : List Part} {s₀ : State} {users : List ChanNo} {named : List ChanNo} {force : Bool} {s : State} (hs : Keeps L s₀ s) (hL : Part.within parts25 L = true) :
    KeepsE L s₀ (outOfServiceGate users named force s) := by
  unfold outOfServiceGate
  with_reducible repeat' first | intro _ | assumption | apply dropChans_keeps | apply Keeps.ite | exact KeepsE.error | apply KeepsE.ite | apply KeepsE.ok | exact Part.within_trans (by decide) hL | dsimp only | split

theorem startMeasure_keeps {L : List Part} {s₀ : State} {c : Issued} {item : Word} {s : State} (hs : Keeps L s₀ s) (hL : Part.within [.pwr, .cmds, .tdm] L = true) :
    Keeps L s₀ (startMeasure c item s).1 := by
  unfold startMeasure
  with_reducible repeat' first | intro _ | assumption | apply accept_keeps | apply putHwy_keeps | apply State.setPwr_keeps | apply Keeps.ite | apply Keeps.ite_fst | apply Keeps.ite_snd | exact Part.within_trans (by decide) hL | dsimp only | split | (refine Keeps.of_fst (by assumption) ?_; apply accept_keeps)

theorem runCalRun_keeps {L : List Part} {s₀ : State} {c : Issued} {s : State} (hs : Keeps L s₀ s) (hL : Part.within parts32 L = true) :
    Keeps L s₀ (runCalRun c s).1 := by
  unfold runCalRun
  with_reducible repeat' first | intro _ | assumption | apply answer_keeps | apply State.setCal_keeps | apply accept_keeps | apply offerCal_keeps | apply outOfServiceGate_keeps | apply startMeasure_keeps | apply Keeps.ite | apply Keeps.ite_fst | apply Keeps.ite_snd | exact Part.within_trans (by decide) hL | dsimp only | split | (refine Keeps.of_fst (by assumption) ?_; apply answer_keeps) | (refine Keeps.of_fst (by assumption) ?_; apply accept_keeps) | (refine Keeps.of_ok (by assumption) ?_; apply outOfServiceGate_keeps) | (refine Keeps.of_fst (by assumption) ?_; apply startMeasure_keeps)

theorem endMeasure_keeps {L : List Part} {s₀ : State} {item : Word} {s : State} (hs : Keeps L s₀ s) (hL : Part.within [.pwr, .host, .tdm, .ism, .fi] L = true) :
    Keeps L s₀ (endMeasure item s) := by
  unfold endMeasure
  with_reducible repeat' first | intro _ | assumption | apply putHwy_keeps | apply powerReport_keeps | apply State.setPwr_keeps | apply Keeps.ite | exact Part.within_trans (by decide) hL | dsimp only | split

theorem calRunDone_keeps {L : List Part} {s₀ : State} {v : Int} {s : State} (hs : Keeps L s₀ s) (hL : Part.within parts11 L = true) :
    Keeps L s₀ (calRunDone v s) := by
  unfold calRunDone
  with_reducible repeat' first | intro _ | assumption | apply endWork_keeps | apply endMeasure_keeps | apply offerCal_keeps | apply modWork_keeps | apply Keeps.ite | exact Part.within_trans (by decide) hL | dsimp only | split

theorem restoreFactory_keeps {L : List Part} {s₀ : State} {s : State} (hs : Keeps L s₀ s) (hL : Part.within [.cmds, .cal] L = true) :
    Keeps L s₀ (restoreFactory s) := by
  unfold restoreFactory
  with_reducible repeat' first | intro _ | assumption | apply State.setCal_keeps | apply offerCal_keeps | apply modWork_keeps | apply Keeps.foldl | exact Part.within_trans (by decide) hL | dsimp only | split

theorem runCalRestore_keeps {L : List Part} {s₀ : State} {c : Issued} {s : State} (hs : Keeps L s₀ s) (hL : Part.within [.cmds, .cal] L = true) :
    Keeps L s₀ (runCalRestore c s).1 := by
  unfold runCalRestore
  with_reducible repeat' first | intro _ | assumption | apply answer_keeps | apply accept_keeps | apply State.setCal_keeps | apply restoreFactory_keeps | apply Keeps.ite | apply Keeps.ite_fst | apply Keeps.ite_snd | exact Part.within_trans (by decide) hL | dsimp only | split | (refine Keeps.of_fst (by assumption) ?_; apply answer_keeps) | (refine Keeps.of_fst (by assumption) ?_; apply accept_keeps)

theorem restoreDone_keeps {L : List Part} {s₀ : State} {s : State} (hs : Keeps L s₀ s) (hL : Part.within [.host, .cmds, .ism, .fi] L = true) :
    Keeps L s₀ (restoreDone s) := by
  unfold restoreDone
  with_reducible repeat' first | intro _ | assumption | apply endWork_keeps | apply Keeps.ite | exact Part.within_trans (by decide) hL | dsimp only | split

theorem runCalRead_keeps {L : List Part} {s₀ : State} {c : Issued} {s : State} (hs : Keeps L s₀ s) (hL : Part.within [] L = true) :
    Keeps L s₀ (runCalRead c s).1 := by
  unfold runCalRead
  with_reducible repeat' first | intro _ | assumption | apply answerOk_keeps | apply Keeps.ite | apply Keeps.ite_fst | apply Keeps.ite_snd | exact Part.within_trans (by decide) hL | dsimp only | split | (refine Keeps.of_fst (by assumption) ?_; apply answerOk_keeps)

theorem runSelftest_keeps {L : List Part} {s₀ : State} {c : Issued} {s : State} (hs : Keeps L s₀ s) (hL : Part.within parts29 L = true) :
    Keeps L s₀ (runSelftest c s).1 := by
  unfold runSelftest
  with_reducible repeat' first | intro _ | assumption | apply answer_keeps | apply accept_keeps | apply requestDrain_keeps | apply outOfServiceGate_keeps | apply State.setQm_keeps | apply Keeps.foldl | apply Keeps.foldlP | apply Keeps.ite | apply Keeps.ite_fst | apply Keeps.ite_snd | exact Part.within_trans (by decide) hL | dsimp only | split | (refine Keeps.of_fst (by assumption) ?_; apply answer_keeps) | (refine Keeps.of_fst (by assumption) ?_; apply accept_keeps) | (refine Keeps.of_ok (by assumption) ?_; apply outOfServiceGate_keeps)

theorem recordTest_keeps {L : List Part} {s₀ : State} {t : Nat} {bad : Option Nat} {s : State} (hs : Keeps L s₀ s) (hL : Part.within [.cal] L = true) :
    Keeps L s₀ (recordTest t bad s) := by
  unfold recordTest
  with_reducible repeat' first | intro _ | assumption | apply State.setCal_keeps | exact Part.within_trans (by decide) hL | dsimp only | split

theorem noteUnit_keeps {L : List Part} {s₀ : State} {t : Nat} {n : Nat} {pass : Bool} {s : State} (hs : Keeps L s₀ s) (hL : Part.within [.cmds] L = true) :
    Keeps L s₀ (noteUnit t n pass s) := by
  unfold noteUnit
  with_reducible repeat' first | intro _ | assumption | apply modWork_keeps | apply Keeps.ite | exact Part.within_trans (by decide) hL | dsimp only | split

theorem unitsDone_keeps {L : List Part} {s₀ : State} {t : Nat} {gone : Nat → Bool} {s : State} (hs : Keeps L s₀ s) (hL : Part.within parts04 L = true) :
    Keeps L s₀ (unitsDone t gone s) := by
  unfold unitsDone
  with_reducible repeat' first | intro _ | assumption | apply endWork_keeps | apply recordTest_keeps | apply State.draw_keeps | apply Keeps.ite | exact Part.within_trans (by decide) hL | dsimp only | split

theorem dramDone_keeps {L : List Part} {s₀ : State} {fails : List Nat} {s : State} (hs : Keeps L s₀ s) (hL : Part.within parts38 L = true) :
    Keeps L s₀ (dramDone fails s) := by
  unfold dramDone
  with_reducible repeat' first | intro _ | assumption | apply endWork_keeps | apply recordTest_keeps | apply moduleSafe_keeps | apply modWork_keeps | exact Part.within_trans (by decide) hL | dsimp only | split

theorem marchDone_keeps {L : List Part} {s₀ : State} {s : State} (hs : Keeps L s₀ s) (hL : Part.within parts04 L = true) :
    Keeps L s₀ (marchDone s) := by
  unfold marchDone
  with_reducible repeat' first | intro _ | assumption | apply endWork_keeps | apply recordTest_keeps | apply State.draw_keeps | apply Keeps.ite | exact Part.within_trans (by decide) hL | dsimp only | split

theorem marchRound_keeps {L : List Part} {s₀ : State} {cells : BitVec 11} {bad : List (BitVec 17)} {s : State} (hs : Keeps L s₀ s) (hL : Part.within parts03 L = true) :
    Keeps L s₀ (marchRound cells bad s) := by
  unfold marchRound
  with_reducible repeat' first | intro _ | assumption | apply State.setQm_keeps | apply State.draw_keeps | apply noteFree_keeps | apply changeQ_keeps | apply retireCells_keeps | apply modWork_keeps | apply Keeps.ite | exact Part.within_trans (by decide) hL | dsimp only | split

theorem runProofTest_keeps {L : List Part} {s₀ : State} {c : Issued} {s : State} (hs : Keeps L s₀ s) (hL : Part.within parts29 L = true) :
    Keeps L s₀ (runProofTest c s).1 := by
  unfold runProofTest
  with_reducible repeat' first | intro _ | assumption | apply answer_keeps | apply outOfServiceGate_keeps | apply accept_keeps | apply Keeps.ite | apply Keeps.ite_fst | apply Keeps.ite_snd | exact Part.within_trans (by decide) hL | dsimp only | split | (refine Keeps.of_fst (by assumption) ?_; apply answer_keeps) | (refine Keeps.of_ok (by assumption) ?_; apply outOfServiceGate_keeps) | (refine Keeps.of_fst (by assumption) ?_; apply accept_keeps)

theorem proofDone_keeps {L : List Part} {s₀ : State} {step : Nat} {fails : List Nat} {s : State} (hs : Keeps L s₀ s) (hL : Part.within parts34 L = true) :
    Keeps L s₀ (proofDone step fails s) := by
  unfold proofDone
  with_reducible repeat' first | intro _ | assumption | apply State.setPins_keeps | apply moduleSafe_keeps | apply modWork_keeps | apply endWork_keeps | apply Keeps.ite | exact Part.within_trans (by decide) hL | dsimp only | split

theorem workDone_keeps {L : List Part} {s₀ : State} {w : WorkId} {value : W32} {fails : List Nat} {s : State} (hs : Keeps L s₀ s) (hL : Part.within parts38 L = true) :
    Keeps L s₀ (workDone w value fails s) := by
  unfold workDone
  with_reducible repeat' first | intro _ | assumption | apply calRunDone_keeps | apply restoreDone_keeps | apply unitsDone_keeps | apply marchDone_keeps | apply dramDone_keeps | apply proofDone_keeps | exact Part.within_trans (by decide) hL | dsimp only | split

end Sys2Proof.Machine
end

