-- ==== Sys2Proof/Laws/KeepsNetCmds.lean ====
section
/-! SUPPORT. What the operations of Machine/NetCmds.lean keep (Laws/Keeps.lean). -/

namespace Sys2Proof.Machine

theorem cageCheck_keeps {L : List Part} {s₀ : State} {p : PortNo} {s : State} (hs : Keeps L s₀ s) (hL : Part.within [.host, .sw, .ism, .fi] L = true) :
    Keeps L s₀ (cageCheck p s) := by
  unfold cageCheck
  with_reducible repeat' first | intro _ | assumption | apply raiseLink_keeps | apply putPort_keeps | apply Keeps.ite | exact Part.within_trans (by decide) hL | dsimp only | split

theorem cageRemoved_keeps {L : List Part} {s₀ : State} {p : PortNo} {overcurrent : Bool} {s : State} (hs : Keeps L s₀ s) (hL : Part.within [.host, .sw, .ism, .fi] L = true) :
    Keeps L s₀ (cageRemoved p overcurrent s) := by
  unfold cageRemoved
  with_reducible repeat' first | intro _ | assumption | apply raiseLink_keeps | apply putPort_keeps | apply Keeps.ite | exact Part.within_trans (by decide) hL | dsimp only | split

theorem cageInserted_keeps {L : List Part} {s₀ : State} {p : PortNo} {level1 : Bool} {readable : Bool} {hasDiag : Bool} {s : State} (hs : Keeps L s₀ s) (hL : Part.within [.host, .sw, .ism, .fi] L = true) :
    Keeps L s₀ (cageInserted p level1 readable hasDiag s) := by
  unfold cageInserted
  with_reducible repeat' first | intro _ | assumption | apply cageCheck_keeps | apply putPort_keeps | apply Keeps.ite | exact Part.within_trans (by decide) hL | dsimp only | split

theorem cageUnpowered_keeps {L : List Part} {s₀ : State} {p : PortNo} {s : State} (hs : Keeps L s₀ s) (hL : Part.within [.sw] L = true) :
    Keeps L s₀ (cageUnpowered p s) := by
  unfold cageUnpowered
  with_reducible repeat' first | intro _ | assumption | apply putPort_keeps | apply Keeps.ite | exact Part.within_trans (by decide) hL | dsimp only | split

theorem portDown_keeps {L : List Part} {s₀ : State} {p : PortNo} {cause : Nat} {s : State} (hs : Keeps L s₀ s) (hL : Part.within [.host, .sw, .ism, .cal, .fi] L = true) :
    Keeps L s₀ (portDown p cause s) := by
  unfold portDown
  with_reducible repeat' first | intro _ | assumption | apply putPort_keeps | apply applyCal_keeps | apply raiseLink_keeps | apply Keeps.ite | exact Part.within_trans (by decide) hL | dsimp only | split

theorem portUp_keeps {L : List Part} {s₀ : State} {p : PortNo} {speed : BitVec 3} {s : State} (hs : Keeps L s₀ s) (hL : Part.within parts06 L = true) :
    Keeps L s₀ (portUp p speed s) := by
  unfold portUp
  with_reducible repeat' first | intro _ | assumption | apply startTx_keeps | apply raiseLink_keeps | apply putPort_keeps | apply Keeps.ite | exact Part.within_trans (by decide) hL | dsimp only | split

theorem runPortCfg_keeps {L : List Part} {s₀ : State} {c : Issued} {s : State} (hs : Keeps L s₀ s) (hL : Part.within [.host, .sw, .ism, .cal, .fi] L = true) :
    Keeps L s₀ (runPortCfg c s).1 := by
  unfold runPortCfg
  with_reducible repeat' first | exact id | (intro h; simpa only [setAt, List.length_set, List.length_map, List.length_replicate] using h) | exact fun _ => rfl | with_unfolding_all exact id | intro _ | assumption | apply answer_keeps | apply portDown_keeps | apply putPort_keeps | apply State.setSw_keeps | apply cageCheck_keeps | apply Keeps.ite | apply Keeps.ite_fst | apply Keeps.ite_snd | exact Part.within_trans (by decide) hL | dsimp only | split | (refine Keeps.of_fst (by assumption) ?_; apply answer_keeps)

theorem runVlanCfg_keeps {L : List Part} {s₀ : State} {c : Issued} {s : State} (hs : Keeps L s₀ s) (hL : Part.within [.sw] L = true) :
    Keeps L s₀ (runVlanCfg c s).1 := by
  unfold runVlanCfg
  with_reducible repeat' first | exact id | (intro h; simpa only [setAt, List.length_set, List.length_map, List.length_replicate] using h) | exact fun _ => rfl | with_unfolding_all exact id | intro _ | assumption | apply answer_keeps | apply State.setSw_keeps | apply Keeps.ite | apply Keeps.ite_fst | apply Keeps.ite_snd | exact Part.within_trans (by decide) hL | dsimp only | split | (refine Keeps.of_fst (by assumption) ?_; apply answer_keeps)

theorem runClassCfg_keeps {L : List Part} {s₀ : State} {c : Issued} {s : State} (hs : Keeps L s₀ s) (hL : Part.within [.sw] L = true) :
    Keeps L s₀ (runClassCfg c s).1 := by
  unfold runClassCfg
  with_reducible repeat' first | exact id | (intro h; simpa only [setAt, List.length_set, List.length_map, List.length_replicate] using h) | exact fun _ => rfl | with_unfolding_all exact id | intro _ | assumption | apply answer_keeps | apply State.setSw_keeps | apply Keeps.ite | apply Keeps.ite_fst | apply Keeps.ite_snd | exact Part.within_trans (by decide) hL | dsimp only | split | (refine Keeps.of_fst (by assumption) ?_; apply answer_keeps)

theorem runHwyCfg_keeps {L : List Part} {s₀ : State} {c : Issued} {s : State} (hs : Keeps L s₀ s) (hL : Part.within [.tdm] L = true) :
    Keeps L s₀ (runHwyCfg c s).1 := by
  unfold runHwyCfg
  with_reducible repeat' first | intro _ | assumption | apply answer_keeps | apply putHwy_keeps | apply Keeps.ite | apply Keeps.ite_fst | apply Keeps.ite_snd | exact Part.within_trans (by decide) hL | dsimp only | split | (refine Keeps.of_fst (by assumption) ?_; apply answer_keeps)

theorem runSlotMap_keeps {L : List Part} {s₀ : State} {c : Issued} {s : State} (hs : Keeps L s₀ s) (hL : Part.within [.tdm] L = true) :
    Keeps L s₀ (runSlotMap c s).1 := by
  unfold runSlotMap
  with_reducible repeat' first | intro _ | assumption | apply answer_keeps | apply putHwy_keeps | apply Keeps.ite | apply Keeps.ite_fst | apply Keeps.ite_snd | exact Part.within_trans (by decide) hL | dsimp only | split | (refine Keeps.of_fst (by assumption) ?_; apply answer_keeps)

theorem applyHwy_keeps {L : List Part} {s₀ : State} {n : HwyNo} {s : State} (hs : Keeps L s₀ s) (hL : Part.within [.host, .tdm, .ism, .cal, .fi] L = true) :
    Keeps L s₀ (applyHwy n s) := by
  unfold applyHwy
  with_reducible repeat' first | intro _ | assumption | apply putHwy_keeps | apply settleCal_keeps | apply applyCal_keeps | apply raiseLink_keeps | apply Keeps.ite | exact Part.within_trans (by decide) hL | dsimp only | split

theorem resolveAgain_keeps {L : List Part} {s₀ : State} {p : PortNo} {ip : Ip} {s : State} (hs : Keeps L s₀ s) (hL : Part.within parts06 L = true) :
    Keeps L s₀ (resolveAgain p ip s) := by
  unfold resolveAgain
  with_reducible repeat' first | exact id | (intro h; simpa only [setAt, List.length_set, List.length_map, List.length_replicate] using h) | exact fun _ => rfl | with_unfolding_all exact id | intro _ | assumption | apply sendResolve_keeps | apply takeRouter_keeps | apply State.setSw_keeps | apply resolve_keeps | apply Keeps.ite | apply Keeps.ite_fst | apply Keeps.ite_snd | exact Part.within_trans (by decide) hL | dsimp only | split | (refine Keeps.of_snd (by assumption) ?_; apply resolve_keeps)

theorem retryNeighbour_keeps {L : List Part} {s₀ : State} {p : PortNo} {ip : Ip} {s : State} (hs : Keeps L s₀ s) (hL : Part.within parts06 L = true) :
    Keeps L s₀ (retryNeighbour p ip s) := by
  unfold retryNeighbour
  with_reducible repeat' first | intro _ | assumption | apply resolveAgain_keeps | apply Keeps.ite | exact Part.within_trans (by decide) hL | dsimp only | split

theorem refreshNeighbour_keeps {L : List Part} {s₀ : State} {p : PortNo} {ip : Ip} {s : State} (hs : Keeps L s₀ s) (hL : Part.within parts06 L = true) :
    Keeps L s₀ (refreshNeighbour p ip s) := by
  unfold refreshNeighbour
  with_reducible repeat' first | intro _ | assumption | apply resolveAgain_keeps | apply Keeps.ite | exact Part.within_trans (by decide) hL | dsimp only | split

theorem keysTimeout_keeps {L : List Part} {s₀ : State} {c : ChanNo} {s : State} (hs : Keeps L s₀ s) (hL : Part.within [.host, .led, .ism, .fi] L = true) :
    Keeps L s₀ (keysTimeout c s) := by
  unfold keysTimeout
  with_reducible repeat' first | intro _ | assumption | apply raiseChState_keeps | apply modChan_keeps | apply Keeps.ite | exact Part.within_trans (by decide) hL | dsimp only | split

theorem runChKeys_keeps {L : List Part} {s₀ : State} {c : Issued} {s : State} (hs : Keeps L s₀ s) (hL : Part.within [.host, .led, .ism, .fi] L = true) :
    Keeps L s₀ (runChKeys c s).1 := by
  unfold runChKeys
  with_reducible repeat' first | intro _ | assumption | apply answer_keeps | apply putChan_keeps | apply raiseChState_keeps | apply Keeps.ite | apply Keeps.ite_fst | apply Keeps.ite_snd | exact Part.within_trans (by decide) hL | dsimp only | split | (refine Keeps.of_fst (by assumption) ?_; apply answer_keeps)

end Sys2Proof.Machine
end

