-- ==== Sys2Proof/Laws/KeepsBootOps.lean ====
section
/-! SUPPORT. What the operations of Machine/BootOps.lean keep (Laws/Keeps.lean). -/

namespace Sys2Proof.Machine

theorem putBank_keeps {L : List Part} {s₀ : State} {b : Bool} {x : Bank} {s : State} (hs : Keeps L s₀ s) (hL : Part.within [.boot] L = true) :
    Keeps L s₀ (putBank b x s) := by
  unfold putBank
  with_reducible repeat' first | intro _ | assumption | apply State.setBoot_keeps | apply Keeps.ite | exact Part.within_trans (by decide) hL | dsimp only | split | exact Nat.le_refl _

theorem putRes_keeps {L : List Part} {s₀ : State} {b : Bool} {r : CheckRes} {s : State} (hs : Keeps L s₀ s) (hL : Part.within [.boot] L = true) :
    Keeps L s₀ (putRes b r s) := by
  unfold putRes
  with_reducible repeat' first | intro _ | assumption | apply State.setBoot_keeps | apply Keeps.ite | exact Part.within_trans (by decide) hL | dsimp only | split | exact Nat.le_refl _

theorem bootAfterReset_rollback {cause : BitVec 4} {b : Boot} : (bootAfterReset cause b).rollback = b.rollback := by
  unfold bootAfterReset applySelection
  dsimp only
  repeat' split
  all_goals rfl

theorem resetBlocks_keeps {L : List Part} {s₀ : State} {cause : BitVec 4} {s : State} (hs : Keeps L s₀ s) (hL : Part.within parts50 L = true) :
    Keeps L s₀ (resetBlocks cause s) := by
  refine ⟨fun p hp => Part.same_trans (hs.frame p hp) ?_, hs.mem, ?_, hs.free, fun _ => ⟨rfl, rfl, rfl, rfl, rfl⟩⟩
  · by_cases hq : p ∈ parts50
    · exact absurd (Part.within_mem hL hq) hp
    · cases p <;> first | rfl | exact absurd (by decide) hq
  · show s₀.boot.rollback.toNat ≤ (bootAfterReset cause s.boot).rollback.toNat
    rw [bootAfterReset_rollback]
    exact hs.rollback

theorem enterReset_keeps {L : List Part} {s₀ : State} {cause : BitVec 4} {s : State} (hs : Keeps L s₀ s) (hL : Part.within parts50 L = true) :
    Keeps L s₀ (enterReset cause s) := by
  unfold enterReset
  with_reducible repeat' first | intro _ | assumption | apply resetBlocks_keeps | apply Keeps.ite | exact Part.within_trans (by decide) hL | dsimp only | split

theorem dueReset_keeps {L : List Part} {s₀ : State} {s : State} (hs : Keeps L s₀ s) (hL : Part.within parts50 L = true) :
    Keeps L s₀ (dueReset s) := by
  unfold dueReset
  with_reducible repeat' first | intro _ | assumption | apply enterReset_keeps | apply Keeps.ite | exact Part.within_trans (by decide) hL | dsimp only | split

theorem resetSoon_keeps {L : List Part} {s₀ : State} {s : State} (hs : Keeps L s₀ s) (hL : Part.within [.boot] L = true) :
    Keeps L s₀ (resetSoon s) := by
  unfold resetSoon
  with_reducible repeat' first | intro _ | assumption | apply State.setBoot_keeps | exact Part.within_trans (by decide) hL | dsimp only | split | exact Nat.le_refl _

theorem endTrial_keeps {L : List Part} {s₀ : State} {s : State} (hs : Keeps L s₀ s) (hL : Part.within [.boot] L = true) :
    Keeps L s₀ (endTrial s) := by
  unfold endTrial
  with_reducible repeat' first | intro _ | assumption | apply State.setBoot_keeps | exact Part.within_trans (by decide) hL | dsimp only | split | exact Nat.le_refl _

theorem raiseRollback_keeps {L : List Part} {s₀ : State} {svn : Byte} {s : State} (hs : Keeps L s₀ s) (hL : Part.within [.boot] L = true) :
    Keeps L s₀ (raiseRollback svn s) := by
  unfold raiseRollback
  split
  · exact hs
  · have h := State.setBoot_keeps (b := { s.boot with rollback := svn }) hs (Part.within_trans (by decide) hL)
      (Nat.le_of_lt (Nat.lt_of_not_le ‹_›))
    dsimp only
    with_reducible repeat' first | exact h | apply Keeps.ite | apply putRes_keeps | exact Part.within_trans (by decide) hL

theorem readyWrites_keeps {L : List Part} {s₀ : State} {svn : Byte} {s : State} (hs : Keeps L s₀ s) (hL : Part.within [.boot] L = true) :
    Keeps L s₀ (readyWrites svn s) := by
  unfold readyWrites
  with_reducible repeat' first | intro _ | assumption | apply State.setBoot_keeps | apply raiseRollback_keeps | apply endTrial_keeps | apply Keeps.ite | exact Part.within_trans (by decide) hL | dsimp only | split | exact Nat.le_refl _

theorem enterRecovery_keeps {L : List Part} {s₀ : State} {s : State} (hs : Keeps L s₀ s) (hL : Part.within [.boot] L = true) :
    Keeps L s₀ (enterRecovery s) := by
  unfold enterRecovery
  with_reducible repeat' first | intro _ | assumption | apply State.setBoot_keeps | apply setMode_keeps | exact Part.within_trans (by decide) hL | dsimp only | split | exact Nat.le_refl _

theorem checkStored_keeps {L : List Part} {s₀ : State} {b : Bool} {s : State} (hs : Keeps L s₀ s) (hL : Part.within [.boot] L = true) :
    Keeps L s₀ (checkStored b s) := by
  unfold checkStored
  with_reducible repeat' first | intro _ | assumption | apply putRes_keeps | exact Part.within_trans (by decide) hL | dsimp only | split

theorem bootFrom_keeps {L : List Part} {s₀ : State} {b : Bool} {s : State} (hs : Keeps L s₀ s) (hL : Part.within [.boot, .ism] L = true) :
    Keeps L s₀ (bootFrom b s) := by
  unfold bootFrom
  with_reducible repeat' first | exact id | (intro h; simpa only [setAt, List.length_set, List.length_map, List.length_replicate] using h) | exact fun _ => rfl | with_unfolding_all exact id | intro _ | assumption | apply State.setIsm_keeps | apply State.setBoot_keeps | exact Part.within_trans (by decide) hL | dsimp only | split | exact Nat.le_refl _

theorem chooseBank_keeps {L : List Part} {s₀ : State} {s : State} (hs : Keeps L s₀ s) (hL : Part.within [.boot, .ism] L = true) :
    Keeps L s₀ (chooseBank s) := by
  unfold chooseBank
  with_reducible repeat' first | intro _ | assumption | apply endTrial_keeps | apply State.setBoot_keeps | apply checkStored_keeps | apply bootFrom_keeps | apply enterRecovery_keeps | apply Keeps.ite | exact Part.within_trans (by decide) hL | dsimp only | split | exact Nat.le_refl _

theorem chooseWhenFree_keeps {L : List Part} {s₀ : State} {s : State} (hs : Keeps L s₀ s) (hL : Part.within [.boot, .ism] L = true) :
    Keeps L s₀ (chooseWhenFree s) := by
  unfold chooseWhenFree
  with_reducible repeat' first | intro _ | assumption | apply chooseBank_keeps | apply Keeps.ite | exact Part.within_trans (by decide) hL | dsimp only | split

theorem enterStandby_keeps {L : List Part} {s₀ : State} {s : State} (hs : Keeps L s₀ s) (hL : Part.within parts42 L = true) :
    Keeps L s₀ (enterStandby s) := by
  unfold enterStandby
  with_reducible repeat' first | exact id | (intro h; simpa only [setAt, List.length_set, List.length_map, List.length_replicate] using h) | exact fun _ => rfl | with_unfolding_all exact id | intro _ | assumption | apply drainPort_keeps | apply dropChans_keeps | apply State.setSch_keeps | apply State.setVcs_keeps | apply State.setTen_keeps | apply cageUnpowered_keeps | apply portDown_keeps | apply State.setQm_keeps | apply State.setTdm_keeps | apply State.setUarts_keeps | apply State.setDfl_keeps | apply setMode_keeps | apply Keeps.foldl | exact Part.within_trans (by decide) hL | dsimp only | split

theorem standbyDue_keeps {L : List Part} {s₀ : State} {s : State} (hs : Keeps L s₀ s) (hL : Part.within parts42 L = true) :
    Keeps L s₀ (standbyDue s) := by
  unfold standbyDue
  with_reducible repeat' first | intro _ | assumption | apply enterStandby_keeps | apply Keeps.ite | exact Part.within_trans (by decide) hL | dsimp only | split

theorem exitStandby_keeps {L : List Part} {s₀ : State} {s : State} (hs : Keeps L s₀ s) (hL : Part.within [.boot] L = true) :
    Keeps L s₀ (exitStandby s) := by
  unfold exitStandby
  with_reducible repeat' first | intro _ | assumption | apply State.setBoot_keeps | apply setMode_keeps | apply Keeps.ite | exact Part.within_trans (by decide) hL | dsimp only | split | exact Nat.le_refl _

theorem beginBoot_keeps {L : List Part} {s₀ : State} {straps : BitVec 2} {vioMv : Nat} {s : State} (hs : Keeps L s₀ s) (hL : Part.within [.boot, .pins, .ism, .free] L = true) :
    Keeps L s₀ (beginBoot straps vioMv s) := by
  unfold beginBoot
  with_reducible repeat' first | exact id | (intro h; simpa only [setAt, List.length_set, List.length_map, List.length_replicate] using h) | exact fun _ => rfl | with_unfolding_all exact id | intro _ | assumption | apply State.setPins_keeps | apply State.draw_keeps | apply State.setIsm_keeps | apply State.setBoot_keeps | apply Keeps.ite | exact Part.within_trans (by decide) hL | dsimp only | split | exact Nat.le_refl _

theorem resetEnd_keeps {L : List Part} {s₀ : State} {straps : BitVec 2} {vioMv : Nat} {t : Word} {s : State} (hs : Keeps L s₀ s) (hL : Part.within parts51 L = true) :
    Keeps L s₀ (resetEnd straps vioMv t s) := by
  unfold resetEnd
  with_reducible repeat' first | intro _ | assumption | apply dueReset_keeps | apply State.setBoot_keeps | apply beginBoot_keeps | apply Keeps.ite | exact Part.within_trans (by decide) hL | dsimp only | split | exact Nat.le_refl _

theorem withdrawQuietCore_keeps {L : List Part} {s₀ : State} {n : CoreNo} {s : State} (hs : Keeps L s₀ s) (hL : Part.within [.sch] L = true) :
    Keeps L s₀ (withdrawQuietCore n s) := by
  unfold withdrawQuietCore
  with_reducible repeat' first | intro _ | assumption | apply putCore_keeps | apply Keeps.ite | exact Part.within_trans (by decide) hL | dsimp only | split

theorem withdrawQuietEngine_keeps {L : List Part} {s₀ : State} {e : BitVec 1} {s : State} (hs : Keeps L s₀ s) (hL : Part.within [.sch] L = true) :
    Keeps L s₀ (withdrawQuietEngine e s) := by
  unfold withdrawQuietEngine
  with_reducible repeat' first | intro _ | assumption | apply State.setSch_keeps | apply Keeps.ite | exact Part.within_trans (by decide) hL | dsimp only | split

theorem bistUnits_keeps {L : List Part} {s₀ : State} {r : BistResult} {s : State} (hs : Keeps L s₀ s) (hL : Part.within [.sch, .qm, .cal] L = true) :
    Keeps L s₀ (bistUnits r s) := by
  unfold bistUnits
  with_reducible repeat' first | intro _ | assumption | apply recordTest_keeps | apply withdrawQuietCore_keeps | apply withdrawQuietEngine_keeps | apply pointsChanged_keeps | apply retireCells_keeps | apply Keeps.foldl | apply Keeps.foldlP | exact Part.within_trans (by decide) hL | dsimp only | split

theorem enableForwarding_keeps {L : List Part} {s₀ : State} {s : State} (hs : Keeps L s₀ s) (hL : Part.within [.qm] L = true) :
    Keeps L s₀ (enableForwarding s) := by
  unfold enableForwarding
  with_reducible repeat' first | intro _ | assumption | apply putQ_keeps | apply Keeps.foldl | exact Part.within_trans (by decide) hL | dsimp only | split

theorem limitsFromBist_keeps {L : List Part} {s₀ : State} {before : Word} {s : State} (hs : Keeps L s₀ s) (hL : Part.within [.boot, .host, .ism, .fi] L = true) :
    Keeps L s₀ (limitsFromBist before s) := by
  unfold limitsFromBist
  with_reducible repeat' first | intro _ | assumption | apply powerReport_keeps | apply State.setBoot_keeps | apply Keeps.ite | exact Part.within_trans (by decide) hL | dsimp only | split | exact Nat.le_refl _

theorem powerOnBist_keeps {L : List Part} {s₀ : State} {r : BistResult} {s : State} (hs : Keeps L s₀ s) (hL : Part.within parts49 L = true) :
    Keeps L s₀ (powerOnBist r s) := by
  unfold powerOnBist
  with_reducible repeat' first | intro _ | assumption | apply enterStandby_keeps | apply State.setBoot_keeps | apply limitsFromBist_keeps | apply bistUnits_keeps | apply enableForwarding_keeps | apply latchFc_keeps | apply moduleSafe_keeps | apply chooseWhenFree_keeps | apply Keeps.ite | exact Part.within_trans (by decide) hL | dsimp only | split | exact Nat.le_refl _

theorem readySearch_keeps {L : List Part} {s₀ : State} {s : State} (hs : Keeps L s₀ s) (hL : Part.within [.host, .ism, .fi] L = true) :
    Keeps L s₀ (readySearch s) := by
  unfold readySearch
  with_reducible repeat' first | exact id | (intro h; simpa only [setAt, List.length_set, List.length_map, List.length_replicate] using h) | exact fun _ => rfl | with_unfolding_all exact id | intro _ | assumption | apply State.setIsm_keeps | apply startSearch_keeps | apply Keeps.ite | exact Part.within_trans (by decide) hL | dsimp only | split

theorem bootDone_keeps {L : List Part} {s₀ : State} {s : State} (hs : Keeps L s₀ s) (hL : Part.within parts42 L = true) :
    Keeps L s₀ (bootDone s) := by
  unfold bootDone
  with_reducible repeat' first | intro _ | assumption | apply latchFc_keeps | apply State.setBoot_keeps | apply State.setSaf_keeps | apply readyWrites_keeps | apply raise_keeps | apply standbyDue_keeps | apply readySearch_keeps | apply cageCheck_keeps | apply Keeps.foldl | apply Keeps.ite | exact Part.within_trans (by decide) hL | dsimp only | split | exact Nat.le_refl _

theorem modSrc_keeps {L : List Part} {s₀ : State} {p : PowerIn} {f : PSource → PSource} {s : State} (hs : Keeps L s₀ s) (hL : Part.within [.pwr] L = true) :
    Keeps L s₀ (modSrc p f s) := by
  unfold modSrc
  with_reducible repeat' first | intro _ | assumption | apply putSrc_keeps | exact Part.within_trans (by decide) hL | dsimp only | split

theorem programSelection_keeps {L : List Part} {s₀ : State} {s : State} (hs : Keeps L s₀ s) (hL : Part.within [.boot] L = true) :
    Keeps L s₀ (programSelection s) := by
  unfold programSelection
  repeat' first | with_reducible intro _ | with_reducible assumption | with_reducible exact Keeps.refl _ | with_reducible apply State.setBoot_keeps | exact Part.within_trans (by decide) hL | dsimp only | split | exact Nat.le_refl _ | refine Keeps.of_fst (by assumption) ?_ | refine Keeps.of_snd (by assumption) ?_

theorem releasePwrfail_keeps {L : List Part} {s₀ : State} {s : State} (hs : Keeps L s₀ s) (hL : Part.within parts08 L = true) :
    Keeps L s₀ (releasePwrfail s) := by
  unfold releasePwrfail
  with_reducible repeat' first | intro _ | assumption | apply programSelection_keeps | apply State.setPwr_keeps | apply readyWrites_keeps | apply restoreFactory_keeps | apply raisePwr_keeps | apply chooseWhenFree_keeps | apply Keeps.ite | exact Part.within_trans (by decide) hL | dsimp only | split

theorem sourceLost_keeps {L : List Part} {s₀ : State} {l : List PowerIn} {s : State} (hs : Keeps L s₀ s) (hL : Part.within parts44 L = true) :
    Keeps L s₀ (sourceLost l s) := by
  unfold sourceLost
  with_reducible repeat' first | intro _ | assumption | apply modSrc_keeps | apply State.setPwr_keeps | apply standbyDue_keeps | apply raisePwr_keeps | apply checkCeilings_keeps | apply Keeps.foldl | apply Keeps.ite | exact Part.within_trans (by decide) hL | dsimp only | split

theorem inputReturn_keeps {L : List Part} {s₀ : State} {p : PowerIn} {s : State} (hs : Keeps L s₀ s) (hL : Part.within parts08 L = true) :
    Keeps L s₀ (inputReturn p s) := by
  unfold inputReturn
  with_reducible repeat' first | intro _ | assumption | apply modSrc_keeps | apply releasePwrfail_keeps | apply State.setPwr_keeps | exact Part.within_trans (by decide) hL | dsimp only | split

theorem cancelShedding_keeps {L : List Part} {s₀ : State} {s : State} (hs : Keeps L s₀ s) (hL : Part.within [.pwr, .led] L = true) :
    Keeps L s₀ (cancelShedding s) := by
  unfold cancelShedding
  with_reducible repeat' first | intro _ | assumption | apply endShedding_keeps | apply Keeps.ite | exact Part.within_trans (by decide) hL | dsimp only | split

theorem sourceValid_keeps {L : List Part} {s₀ : State} {p : PowerIn} {cls : BitVec 4} {s : State} (hs : Keeps L s₀ s) (hL : Part.within parts47 L = true) :
    Keeps L s₀ (sourceValid p cls s) := by
  unfold sourceValid
  with_reducible repeat' first | intro _ | assumption | apply modSrc_keeps | apply State.setPwr_keeps | apply releasePwrfail_keeps | apply raisePwr_keeps | apply cancelShedding_keeps | apply checkCeilings_keeps | apply exitStandby_keeps | apply standbyDue_keeps | apply Keeps.ite | exact Part.within_trans (by decide) hL | dsimp only | split

theorem pwrfailAssert_keeps {L : List Part} {s₀ : State} {s : State} (hs : Keeps L s₀ s) (hL : Part.within [.pwr, .host, .ism, .fi] L = true) :
    Keeps L s₀ (pwrfailAssert s) := by
  unfold pwrfailAssert
  with_reducible repeat' first | intro _ | assumption | apply raisePwr_keeps | apply State.setPwr_keeps | apply Keeps.ite | exact Part.within_trans (by decide) hL | dsimp only | split

theorem cutErase_keeps {L : List Part} {s₀ : State} {s : State} (hs : Keeps L s₀ s) (hL : Part.within [.boot, .free] L = true) :
    Keeps L s₀ (cutErase s) := by
  unfold cutErase
  with_reducible repeat' first | intro _ | assumption | apply State.draw_keeps | apply putBank_keeps | apply Keeps.ite | exact Part.within_trans (by decide) hL | dsimp only | split

theorem powerGone_keeps {L : List Part} {s₀ : State} {s : State} (hs : Keeps L s₀ s) (hL : Part.within [.boot, .pwr, .pins] L = true) :
    Keeps L s₀ (powerGone s) := by
  unfold powerGone
  with_reducible repeat' first | intro _ | assumption | apply State.setBoot_keeps | apply State.setPins_keeps | apply State.setPwr_keeps | exact Part.within_trans (by decide) hL | dsimp only | split | exact Nat.le_refl _

theorem brownOut_keeps {L : List Part} {s₀ : State} {s : State} (hs : Keeps L s₀ s) (hL : Part.within parts51 L = true) :
    Keeps L s₀ (brownOut s) := by
  unfold brownOut
  with_reducible repeat' first | intro _ | assumption | apply powerGone_keeps | apply enterReset_keeps | apply cutErase_keeps | apply State.setPwr_keeps | apply Keeps.ite | exact Part.within_trans (by decide) hL | dsimp only | split

theorem powerWindow_keeps {L : List Part} {s₀ : State} {s : State} (hs : Keeps L s₀ s) (hL : Part.within [.cal] L = true) :
    Keeps L s₀ (powerWindow s) := by
  unfold powerWindow
  with_reducible repeat' first | intro _ | assumption | apply applyCal_keeps | exact Part.within_trans (by decide) hL | dsimp only | split

theorem guardStep_keeps {L : List Part} {s₀ : State} {s : State} (hs : Keeps L s₀ s) (hL : Part.within [.pwr, .host, .led, .ism, .fi] L = true) :
    Keeps L s₀ (guardStep s) := by
  unfold guardStep
  with_reducible repeat' first | intro _ | assumption | apply checkCeilings_keeps | apply State.setPwr_keeps | apply raisePwr_keeps | exact Part.within_trans (by decide) hL | dsimp only | split

theorem powerGuard_keeps {L : List Part} {s₀ : State} {mw : List Nat} {s : State} (hs : Keeps L s₀ s) (hL : Part.within parts02 L = true) :
    Keeps L s₀ (powerGuard mw s) := by
  unfold powerGuard
  with_reducible repeat' first | intro _ | assumption | apply powerWindow_keeps | apply State.setPwr_keeps | apply guardStep_keeps | apply Keeps.ite | exact Part.within_trans (by decide) hL | dsimp only | split

theorem sampleWindow_keeps {L : List Part} {s₀ : State} {s : State} (hs : Keeps L s₀ s) (hL : Part.within [.cal] L = true) :
    Keeps L s₀ (sampleWindow s) := by
  unfold sampleWindow
  with_reducible repeat' first | intro _ | assumption | apply applyCal_keeps | exact Part.within_trans (by decide) hL | dsimp only | split

theorem thermalReport_keeps {L : List Part} {s₀ : State} {t : Int} {s : State} (hs : Keeps L s₀ s) (hL : Part.within [.therm, .host, .led, .ism, .fi] L = true) :
    Keeps L s₀ (thermalReport t s) := by
  unfold thermalReport
  with_reducible repeat' first | intro _ | assumption | apply State.setTherm_keeps | apply raise_keeps | apply powerReport_keeps | apply checkCeilings_keeps | apply Keeps.ite | exact Part.within_trans (by decide) hL | dsimp only | split

theorem followTemp_keeps {L : List Part} {s₀ : State} {t : Int} {s : State} (hs : Keeps L s₀ s) (hL : Part.within [.therm, .host, .led, .ism, .fi] L = true) :
    Keeps L s₀ (followTemp t s) := by
  unfold followTemp
  with_reducible repeat' first | intro _ | assumption | apply thermalReport_keeps | apply State.setTherm_keeps | apply Keeps.ite | exact Part.within_trans (by decide) hL | dsimp only | split

theorem tempSample_keeps {L : List Part} {s₀ : State} {raw : Word} {s : State} (hs : Keeps L s₀ s) (hL : Part.within parts45 L = true) :
    Keeps L s₀ (tempSample raw s) := by
  unfold tempSample
  with_reducible repeat' first | intro _ | assumption | apply sampleWindow_keeps | apply State.setTherm_keeps | apply State.setBoot_keeps | apply followTemp_keeps | apply exitStandby_keeps | apply standbyDue_keeps | apply Keeps.ite | exact Part.within_trans (by decide) hL | dsimp only | split | exact Nat.le_refl _

theorem setState_keeps {L : List Part} {s₀ : State} {target : Nat} {s : State} (hs : Keeps L s₀ s) (hL : Part.within parts42 L = true) :
    Keeps L s₀ (setState target s).1 := by
  unfold setState
  with_reducible repeat' first | intro _ | assumption | apply setMode_keeps | apply exitStandby_keeps | apply enterStandby_keeps | apply Keeps.ite | apply Keeps.ite_fst | apply Keeps.ite_snd | exact Part.within_trans (by decide) hL | dsimp only | split

end Sys2Proof.Machine
end

