-- ==== Sys2Proof/Laws/KeepsClockOps.lean ====
section
/-! SUPPORT. What the operations of Machine/ClockOps.lean keep (Laws/Keeps.lean). -/

namespace Sys2Proof.Machine

theorem withdrawFunction_keeps {L : List Part} {s₀ : State} {f : Clocks → Clocks} {s : State} (hs : Keeps L s₀ s) (hL : Part.within [.boot, .clk] L = true) :
    Keeps L s₀ (withdrawFunction f s) := by
  unfold withdrawFunction
  with_reducible repeat' first | intro _ | assumption | apply degrade_keeps | apply State.setClk_keeps | exact Part.within_trans (by decide) hL | dsimp only | split

theorem srtpOut_keeps {L : List Part} {s₀ : State} {c : ChanNo} {s : State} (hs : Keeps L s₀ s) (hL : Part.within [.host, .led, .ism, .fi, .free] L = true) :
    Keeps L s₀ (srtpOut c s) := by
  unfold srtpOut
  with_reducible repeat' first | intro _ | assumption | apply raiseChState_keeps | apply modChan_keeps | apply State.draw_keeps | apply Keeps.ite | exact Part.within_trans (by decide) hL | dsimp only | split

theorem cryptoLost_keeps {L : List Part} {s₀ : State} {s : State} (hs : Keeps L s₀ s) (hL : Part.within parts09 L = true) :
    Keeps L s₀ (cryptoLost s) := by
  unfold cryptoLost
  with_reducible repeat' first | intro _ | assumption | apply withdrawFunction_keeps | apply srtpOut_keeps | apply Keeps.foldl | exact Part.within_trans (by decide) hL | dsimp only | split

theorem ethPllLost_keeps {L : List Part} {s₀ : State} {s : State} (hs : Keeps L s₀ s) (hL : Part.within parts12 L = true) :
    Keeps L s₀ (ethPllLost s) := by
  unfold ethPllLost
  with_reducible repeat' first | intro _ | assumption | apply State.setClk_keeps | apply portDown_keeps | apply ismDown_keeps | apply Keeps.foldl | exact Part.within_trans (by decide) hL | dsimp only | split

theorem refinLost_keeps {L : List Part} {s₀ : State} {s : State} (hs : Keeps L s₀ s) (hL : Part.within [.clk, .host, .ism, .fi] L = true) :
    Keeps L s₀ (refinLost s) := by
  unfold refinLost
  with_reducible repeat' first | intro _ | assumption | apply raiseHoldover_keeps | apply State.setClk_keeps | apply Keeps.ite | exact Part.within_trans (by decide) hL | dsimp only | split

theorem refinAccepted_keeps {L : List Part} {s₀ : State} {s : State} (hs : Keeps L s₀ s) (hL : Part.within [.clk, .host, .ism, .fi] L = true) :
    Keeps L s₀ (refinAccepted s) := by
  unfold refinAccepted
  with_reducible repeat' first | intro _ | assumption | apply State.setClk_keeps | apply raiseHoldover_keeps | apply Keeps.ite | exact Part.within_trans (by decide) hL | dsimp only | split

theorem clockLost_keeps {L : List Part} {s₀ : State} {d : ClockDomain} {s : State} (hs : Keeps L s₀ s) (hL : Part.within parts48 L = true) :
    Keeps L s₀ (clockLost d s) := by
  unfold clockLost
  with_reducible repeat' first | intro _ | assumption | apply moduleSafe_keeps | apply withdrawCore_keeps | apply withdrawEngine_keeps | apply ethPllLost_keeps | apply refinLost_keeps | apply loseHwy_keeps | apply portDown_keeps | apply ismDown_keeps | apply withdrawFunction_keeps | apply cryptoLost_keeps | apply State.setHost_keeps | exact Part.within_trans (by decide) hL | dsimp only | split

theorem vioHwy_keeps {L : List Part} {s₀ : State} {n : HwyNo} {s : State} (hs : Keeps L s₀ s) (hL : Part.within [.host, .tdm, .ism, .fi] L = true) :
    Keeps L s₀ (vioHwy n s) := by
  unfold vioHwy
  with_reducible repeat' first | intro _ | assumption | apply loseHwy_keeps | apply raiseLink_keeps | apply Keeps.ite | exact Part.within_trans (by decide) hL | dsimp only | split

theorem vioOut_keeps {L : List Part} {s₀ : State} {s : State} (hs : Keeps L s₀ s) (hL : Part.within [.pins, .host, .tdm, .ism, .fi] L = true) :
    Keeps L s₀ (vioOut s) := by
  unfold vioOut
  with_reducible repeat' first | intro _ | assumption | apply State.setPins_keeps | apply raiseLink_keeps | apply vioHwy_keeps | apply Keeps.foldl | apply Keeps.ite | exact Part.within_trans (by decide) hL | dsimp only | split

theorem vioRestored_keeps {L : List Part} {s₀ : State} {s : State} (hs : Keeps L s₀ s) (hL : Part.within [.pins, .host, .ism, .fi] L = true) :
    Keeps L s₀ (vioRestored s) := by
  unfold vioRestored
  with_reducible repeat' first | intro _ | assumption | apply latchFc_keeps | apply raiseLink_keeps | apply State.setPins_keeps | apply Keeps.ite | exact Part.within_trans (by decide) hL | dsimp only | split

theorem vioLatch_keeps {L : List Part} {s₀ : State} {is33 : Bool} {s : State} (hs : Keeps L s₀ s) (hL : Part.within [.pins, .host] L = true) :
    Keeps L s₀ (vioLatch is33 s) := by
  unfold vioLatch
  with_reducible repeat' first | intro _ | assumption | apply latchFc_keeps | apply State.setPins_keeps | apply Keeps.ite | exact Part.within_trans (by decide) hL | dsimp only | split

theorem resetPin_keeps {L : List Part} {s₀ : State} {lowNs : Nat} {s : State} (hs : Keeps L s₀ s) (hL : Part.within parts51 L = true) :
    Keeps L s₀ (resetPin lowNs s) := by
  unfold resetPin
  with_reducible repeat' first | intro _ | assumption | apply enterReset_keeps | apply State.draw_keeps | apply Keeps.ite | exact Part.within_trans (by decide) hL | dsimp only | split

theorem startTimer_keeps {L : List Part} {s₀ : State} {s : State} (hs : Keeps L s₀ s) (hL : Part.within parts50 L = true) :
    Keeps L s₀ (startTimer s) := by
  unfold startTimer
  with_reducible repeat' first | intro _ | assumption | apply enterReset_keeps | apply Keeps.ite | exact Part.within_trans (by decide) hL | dsimp only | split

theorem hwdogHalf_keeps {L : List Part} {s₀ : State} {s : State} (hs : Keeps L s₀ s) (hL : Part.within [.host] L = true) :
    Keeps L s₀ (hwdogHalf s) := by
  unfold hwdogHalf
  with_reducible repeat' first | intro _ | assumption | apply State.setHost_keeps | apply Keeps.ite | exact Part.within_trans (by decide) hL | dsimp only | split

theorem hostWdog_keeps {L : List Part} {s₀ : State} {s : State} (hs : Keeps L s₀ s) (hL : Part.within parts50 L = true) :
    Keeps L s₀ (hostWdog s) := by
  unfold hostWdog
  with_reducible repeat' first | intro _ | assumption | apply enterReset_keeps | apply Keeps.ite | exact Part.within_trans (by decide) hL | dsimp only | split

theorem setTap_keeps {L : List Part} {s₀ : State} {t : TapState} {s : State} (hs : Keeps L s₀ s) (hL : Part.within [.pins] L = true) :
    Keeps L s₀ (setTap t s) := by
  unfold setTap
  with_reducible repeat' first | intro _ | assumption | apply State.setPins_keeps | exact Part.within_trans (by decide) hL | dsimp only | split

theorem jtagFree_keeps {L : List Part} {s₀ : State} {s : State} (hs : Keeps L s₀ s) (hL : Part.within [.boot] L = true) :
    Keeps L s₀ (jtagFree s) := by
  unfold jtagFree
  with_reducible repeat' first | intro _ | assumption | apply State.setBoot_keeps | exact Part.within_trans (by decide) hL | dsimp only | split | exact Nat.le_refl _

theorem jtagHeld_keeps {L : List Part} {s₀ : State} {s : State} (hs : Keeps L s₀ s) (hL : Part.within parts50 L = true) :
    Keeps L s₀ (jtagHeld s) := by
  unfold jtagHeld
  with_reducible repeat' first | intro _ | assumption | apply setTap_keeps | apply enterReset_keeps | apply State.setBoot_keeps | exact Part.within_trans (by decide) hL | dsimp only | split | exact Nat.le_refl _

theorem tapClock_keeps {L : List Part} {s₀ : State} {tms : Bool} {s : State} (hs : Keeps L s₀ s) (hL : Part.within [.boot, .pins] L = true) :
    Keeps L s₀ (tapClock tms s) := by
  unfold tapClock
  with_reducible repeat' first | intro _ | assumption | apply setTap_keeps | apply jtagFree_keeps | apply Keeps.ite | exact Part.within_trans (by decide) hL | dsimp only | split

theorem jtag_keeps {L : List Part} {s₀ : State} {j : JtagOp} {s : State} (hs : Keeps L s₀ s) (hL : Part.within parts50 L = true) :
    Keeps L s₀ (jtag j s) := by
  unfold jtag
  with_reducible repeat' first | intro _ | assumption | apply jtagFree_keeps | apply setTap_keeps | apply jtagHeld_keeps | apply State.setPins_keeps | apply tapClock_keeps | apply Keeps.foldl | apply Keeps.ite | exact Part.within_trans (by decide) hL | dsimp only | split

theorem unlockToken_keeps {L : List Part} {s₀ : State} {slot : BitVec 2} {sig : BitVec 512} {s : State} (hs : Keeps L s₀ s) (hL : Part.within [.boot, .saf] L = true) :
    Keeps L s₀ (unlockToken slot sig s) := by
  unfold unlockToken
  with_reducible repeat' first | intro _ | assumption | apply State.setSaf_keeps | apply State.setBoot_keeps | apply Keeps.ite | exact Part.within_trans (by decide) hL | dsimp only | split | exact Nat.le_refl _

theorem hostPortStart_keeps {L : List Part} {s₀ : State} {s : State} (hs : Keeps L s₀ s) (hL : Part.within [.host] L = true) :
    Keeps L s₀ (hostPortStart s) := by
  unfold hostPortStart
  with_reducible repeat' first | intro _ | assumption | apply State.setHost_keeps | apply Keeps.ite | exact Part.within_trans (by decide) hL | dsimp only | split

theorem bypassOpen_keeps {L : List Part} {s₀ : State} {s : State} (hs : Keeps L s₀ s) (hL : Part.within [.boot] L = true) :
    Keeps L s₀ (bypassOpen s) := by
  unfold bypassOpen
  with_reducible repeat' first | intro _ | assumption | apply State.setBoot_keeps | apply Keeps.ite | exact Part.within_trans (by decide) hL | dsimp only | split | exact Nat.le_refl _

end Sys2Proof.Machine
end

