-- ==== Sys2Proof/Laws/KeepsBoot.lean ====
section
/-! SUPPORT. What the operations of Machine/Boot.lean keep (Laws/Keeps.lean). -/

namespace Sys2Proof.Machine

theorem execSourceLost_keeps {L : List Part} {s₀ : State} {l : List PowerIn} {s : State} (hs : Keeps L s₀ s) (hL : Part.within parts44 L = true) :
    KeepsN L s₀ (execSourceLost l s) := by
  unfold execSourceLost
  with_reducible repeat' first | intro _ | assumption | apply sourceLost_keeps | apply KeepsN.next | exact Part.within_trans (by decide) hL | dsimp only | split

theorem execInputReturn_keeps {L : List Part} {s₀ : State} {p : PowerIn} {s : State} (hs : Keeps L s₀ s) (hL : Part.within parts08 L = true) :
    KeepsN L s₀ (execInputReturn p s) := by
  unfold execInputReturn
  with_reducible repeat' first | intro _ | assumption | apply inputReturn_keeps | apply KeepsN.next | exact Part.within_trans (by decide) hL | dsimp only | split

theorem execSourceValid_keeps {L : List Part} {s₀ : State} {p : PowerIn} {cls : BitVec 4} {s : State} (hs : Keeps L s₀ s) (hL : Part.within parts47 L = true) :
    KeepsN L s₀ (execSourceValid p cls s) := by
  unfold execSourceValid
  with_reducible repeat' first | intro _ | assumption | apply sourceValid_keeps | apply KeepsN.next | exact Part.within_trans (by decide) hL | dsimp only | split

theorem execPwrfail_keeps {L : List Part} {s₀ : State} {s : State} (hs : Keeps L s₀ s) (hL : Part.within [.pwr, .host, .ism, .fi] L = true) :
    KeepsN L s₀ (execPwrfail s) := by
  unfold execPwrfail
  with_reducible repeat' first | intro _ | assumption | apply pwrfailAssert_keeps | apply KeepsN.next | exact Part.within_trans (by decide) hL | dsimp only | split

theorem execBrownOut_keeps {L : List Part} {s₀ : State} {s : State} (hs : Keeps L s₀ s) (hL : Part.within parts51 L = true) :
    KeepsN L s₀ (execBrownOut s) := by
  unfold execBrownOut
  with_reducible repeat' first | intro _ | assumption | apply brownOut_keeps | apply KeepsN.next | exact Part.within_trans (by decide) hL | dsimp only | split

theorem execPowerGuard_keeps {L : List Part} {s₀ : State} {milliwatts : List Nat} {s : State} (hs : Keeps L s₀ s) (hL : Part.within parts02 L = true) :
    KeepsN L s₀ (execPowerGuard milliwatts s) := by
  unfold execPowerGuard
  with_reducible repeat' first | intro _ | assumption | apply powerGuard_keeps | apply KeepsN.next | exact Part.within_trans (by decide) hL | dsimp only | split

theorem execTempSample_keeps {L : List Part} {s₀ : State} {t : Word} {s : State} (hs : Keeps L s₀ s) (hL : Part.within parts45 L = true) :
    KeepsN L s₀ (execTempSample t s) := by
  unfold execTempSample
  with_reducible repeat' first | intro _ | assumption | apply tempSample_keeps | apply KeepsN.next | exact Part.within_trans (by decide) hL | dsimp only | split

theorem execResetPin_keeps {L : List Part} {s₀ : State} {lowNs : Nat} {s : State} (hs : Keeps L s₀ s) (hL : Part.within parts51 L = true) :
    KeepsN L s₀ (execResetPin lowNs s) := by
  unfold execResetPin
  with_reducible repeat' first | intro _ | assumption | apply resetPin_keeps | apply KeepsN.next | exact Part.within_trans (by decide) hL | dsimp only | split

theorem execResetEnd_keeps {L : List Part} {s₀ : State} {straps : BitVec 2} {vioMv : Nat} {t : Word} {s : State} (hs : Keeps L s₀ s) (hL : Part.within parts51 L = true) :
    KeepsN L s₀ (execResetEnd straps vioMv t s) := by
  unfold execResetEnd
  with_reducible repeat' first | intro _ | assumption | apply resetEnd_keeps | apply KeepsN.next | exact Part.within_trans (by decide) hL | dsimp only | split

theorem execPowerOnBist_keeps {L : List Part} {s₀ : State} {r : BistResult} {s : State} (hs : Keeps L s₀ s) (hL : Part.within parts49 L = true) :
    KeepsN L s₀ (execPowerOnBist r s) := by
  unfold execPowerOnBist
  with_reducible repeat' first | intro _ | assumption | apply powerOnBist_keeps | apply KeepsN.next | exact Part.within_trans (by decide) hL | dsimp only | split

theorem execBootDone_keeps {L : List Part} {s₀ : State} {s : State} (hs : Keeps L s₀ s) (hL : Part.within parts42 L = true) :
    KeepsN L s₀ (execBootDone s) := by
  unfold execBootDone
  with_reducible repeat' first | intro _ | assumption | apply bootDone_keeps | apply KeepsN.next | exact Part.within_trans (by decide) hL | dsimp only | split

theorem execStartTimer_keeps {L : List Part} {s₀ : State} {s : State} (hs : Keeps L s₀ s) (hL : Part.within parts50 L = true) :
    KeepsN L s₀ (execStartTimer s) := by
  unfold execStartTimer
  with_reducible repeat' first | intro _ | assumption | apply startTimer_keeps | apply KeepsN.next | exact Part.within_trans (by decide) hL | dsimp only | split

theorem execVigilWdog_keeps {L : List Part} {s₀ : State} {s : State} (hs : Keeps L s₀ s) (hL : Part.within parts50 L = true) :
    KeepsN L s₀ (execVigilWdog s) := by
  unfold execVigilWdog
  with_reducible repeat' first | intro _ | assumption | apply enterReset_keeps | apply KeepsN.next | exact Part.within_trans (by decide) hL | dsimp only | split

theorem execHwdogHalf_keeps {L : List Part} {s₀ : State} {s : State} (hs : Keeps L s₀ s) (hL : Part.within [.host] L = true) :
    KeepsN L s₀ (execHwdogHalf s) := by
  unfold execHwdogHalf
  with_reducible repeat' first | intro _ | assumption | apply hwdogHalf_keeps | apply KeepsN.next | exact Part.within_trans (by decide) hL | dsimp only | split

theorem execHostWdog_keeps {L : List Part} {s₀ : State} {s : State} (hs : Keeps L s₀ s) (hL : Part.within parts50 L = true) :
    KeepsN L s₀ (execHostWdog s) := by
  unfold execHostWdog
  with_reducible repeat' first | intro _ | assumption | apply hostWdog_keeps | apply KeepsN.next | exact Part.within_trans (by decide) hL | dsimp only | split

theorem execJtagInstruction_keeps {L : List Part} {s₀ : State} {j : JtagOp} {s : State} (hs : Keeps L s₀ s) (hL : Part.within parts50 L = true) :
    KeepsN L s₀ (execJtagInstruction j s) := by
  unfold execJtagInstruction
  with_reducible repeat' first | intro _ | assumption | apply jtag_keeps | apply KeepsN.next | exact Part.within_trans (by decide) hL | dsimp only | split

theorem execUnlockToken_keeps {L : List Part} {s₀ : State} {slot : BitVec 2} {sig : BitVec 512} {s : State} (hs : Keeps L s₀ s) (hL : Part.within [.boot, .saf] L = true) :
    KeepsN L s₀ (execUnlockToken slot sig s) := by
  unfold execUnlockToken
  with_reducible repeat' first | intro _ | assumption | apply unlockToken_keeps | apply KeepsN.next | exact Part.within_trans (by decide) hL | dsimp only | split

theorem execVioOut_keeps {L : List Part} {s₀ : State} {s : State} (hs : Keeps L s₀ s) (hL : Part.within [.pins, .host, .tdm, .ism, .fi] L = true) :
    KeepsN L s₀ (execVioOut s) := by
  unfold execVioOut
  with_reducible repeat' first | intro _ | assumption | apply vioOut_keeps | apply KeepsN.next | exact Part.within_trans (by decide) hL | dsimp only | split

theorem execVioRestored_keeps {L : List Part} {s₀ : State} {s : State} (hs : Keeps L s₀ s) (hL : Part.within [.pins, .host, .ism, .fi] L = true) :
    KeepsN L s₀ (execVioRestored s) := by
  unfold execVioRestored
  with_reducible repeat' first | intro _ | assumption | apply vioRestored_keeps | apply KeepsN.next | exact Part.within_trans (by decide) hL | dsimp only | split

theorem execVioLatch_keeps {L : List Part} {s₀ : State} {is33 : Bool} {s : State} (hs : Keeps L s₀ s) (hL : Part.within [.pins, .host] L = true) :
    KeepsN L s₀ (execVioLatch is33 s) := by
  unfold execVioLatch
  with_reducible repeat' first | intro _ | assumption | apply vioLatch_keeps | apply KeepsN.next | exact Part.within_trans (by decide) hL | dsimp only | split

theorem execClockLost_keeps {L : List Part} {s₀ : State} {d : ClockDomain} {s : State} (hs : Keeps L s₀ s) (hL : Part.within parts48 L = true) :
    KeepsN L s₀ (execClockLost d s) := by
  unfold execClockLost
  with_reducible repeat' first | intro _ | assumption | apply clockLost_keeps | apply Keeps.ite | apply KeepsN.next | exact Part.within_trans (by decide) hL | dsimp only | split

theorem execRefinLost_keeps {L : List Part} {s₀ : State} {s : State} (hs : Keeps L s₀ s) (hL : Part.within [.clk, .host, .ism, .fi] L = true) :
    KeepsN L s₀ (execRefinLost s) := by
  unfold execRefinLost
  with_reducible repeat' first | intro _ | assumption | apply refinLost_keeps | apply KeepsN.next | exact Part.within_trans (by decide) hL | dsimp only | split

theorem execRefinAccepted_keeps {L : List Part} {s₀ : State} {s : State} (hs : Keeps L s₀ s) (hL : Part.within [.clk, .host, .ism, .fi] L = true) :
    KeepsN L s₀ (execRefinAccepted s) := by
  unfold execRefinAccepted
  with_reducible repeat' first | intro _ | assumption | apply refinAccepted_keeps | apply KeepsN.next | exact Part.within_trans (by decide) hL | dsimp only | split

theorem execHostPortStart_keeps {L : List Part} {s₀ : State} {s : State} (hs : Keeps L s₀ s) (hL : Part.within [.host] L = true) :
    KeepsN L s₀ (execHostPortStart s) := by
  unfold execHostPortStart
  with_reducible repeat' first | intro _ | assumption | apply hostPortStart_keeps | apply KeepsN.next | exact Part.within_trans (by decide) hL | dsimp only | split

theorem execBypassOpen_keeps {L : List Part} {s₀ : State} {s : State} (hs : Keeps L s₀ s) (hL : Part.within [.boot] L = true) :
    KeepsN L s₀ (execBypassOpen s) := by
  unfold execBypassOpen
  with_reducible repeat' first | intro _ | assumption | apply bypassOpen_keeps | apply KeepsN.next | exact Part.within_trans (by decide) hL | dsimp only | split

end Sys2Proof.Machine
end

