-- ==== Sys2Proof/Laws/KeepsDeflateOps.lean ====
section
/-! SUPPORT. What the operations of Machine/DeflateOps.lean keep (Laws/Keeps.lean). -/

namespace Sys2Proof.Machine

theorem writeJob_keeps {L : List Part} {s₀ : State} {d : DfDesc} {r : DfResult} {s : State} (hs : Keeps L s₀ s) (hL : Part.within [.mem, .free] L = true) :
    Keeps L s₀ (writeJob d r s) := by
  unfold writeJob
  with_reducible repeat' first | intro _ | assumption | apply store_keeps | apply State.draw_keeps | apply Keeps.ite | exact Part.within_trans (by decide) hL | dsimp only | split

theorem writeStatus_keeps {L : List Part} {s₀ : State} {a : Nat} {r : DfResult} {s : State} (hs : Keeps L s₀ s) (hL : Part.within [.mem] L = true) :
    Keeps L s₀ (writeStatus a r s) := by
  unfold writeStatus
  with_reducible repeat' first | intro _ | assumption | apply State.withMem_keeps | apply memWriteList_wf | apply memWrite32_wf | apply memWrite_wf | apply memFilter_wf | exact Part.within_trans (by decide) hL | dsimp only | split

theorem countJob_keeps {L : List Part} {s₀ : State} {r : DfResult} {s : State} (hs : Keeps L s₀ s) (hL : Part.within [.dfl] L = true) :
    Keeps L s₀ (countJob r s) := by
  unfold countJob
  with_reducible repeat' first | intro _ | assumption | apply State.setDfl_keeps | apply Keeps.ite | exact Part.within_trans (by decide) hL | dsimp only | split

theorem nextCons_keeps {L : List Part} {s₀ : State} {s : State} (hs : Keeps L s₀ s) (hL : Part.within [.dfl] L = true) :
    Keeps L s₀ (nextCons s) := by
  unfold nextCons
  with_reducible repeat' first | intro _ | assumption | apply State.setDfl_keeps | exact Part.within_trans (by decide) hL | dsimp only | split

theorem deflateJob_keeps {L : List Part} {s₀ : State} {s : State} (hs : Keeps L s₀ s) (hL : Part.within [.dfl, .mem, .free] L = true) :
    Keeps L s₀ (deflateJob s) := by
  unfold deflateJob
  with_reducible repeat' first | intro _ | assumption | apply countJob_keeps | apply writeJob_keeps | apply nextCons_keeps | apply writeStatus_keeps | apply Keeps.ite | exact Part.within_trans (by decide) hL | dsimp only | split

theorem abortOne_keeps {L : List Part} {s₀ : State} {running : Bool} {s : State} (hs : Keeps L s₀ s) (hL : Part.within [.dfl, .mem, .free] L = true) :
    Keeps L s₀ (abortOne running s) := by
  unfold abortOne
  with_reducible repeat' first | intro _ | assumption | apply countJob_keeps | apply writeJob_keeps | apply nextCons_keeps | apply writeStatus_keeps | apply Keeps.ite | exact Part.within_trans (by decide) hL | dsimp only | split

theorem abortRest_keeps {L : List Part} {s₀ : State} {k : Nat} {s : State} (hs : Keeps L s₀ s) (hL : Part.within [.dfl, .mem, .free] L = true) :
    Keeps L s₀ (abortRest k s) := by
  induction k generalizing s with
  | zero => exact hs
  | succ k ih =>
    unfold abortRest
    with_reducible repeat' first | intro _ | assumption | apply ih | apply abortOne_keeps | apply Keeps.ite | exact Part.within_trans (by decide) hL | dsimp only | split

theorem deflateAbort_keeps {L : List Part} {s₀ : State} {s : State} (hs : Keeps L s₀ s) (hL : Part.within [.dfl, .mem, .free] L = true) :
    Keeps L s₀ (deflateAbort s) := by
  unfold deflateAbort
  with_reducible repeat' first | intro _ | assumption | apply abortRest_keeps | apply abortOne_keeps | apply Keeps.ite | exact Part.within_trans (by decide) hL | dsimp only | split

theorem writeProd_keeps {L : List Part} {s₀ : State} {v : BitVec 7} {s : State} (hs : Keeps L s₀ s) (hL : Part.within [.dfl] L = true) :
    Keeps L s₀ (writeProd v s) := by
  unfold writeProd
  with_reducible repeat' first | intro _ | assumption | apply State.setDfl_keeps | apply Keeps.ite | exact Part.within_trans (by decide) hL | dsimp only | split

theorem deflateRead_keeps {L : List Part} {s₀ : State} {o : Nat} {s : State} (hs : Keeps L s₀ s) (hL : Part.within [.dfl] L = true) :
    KeepsO L s₀ (deflateRead o s) := by
  unfold deflateRead
  with_reducible repeat' first | intro _ | assumption | apply State.setDfl_keeps | exact KeepsO.none | apply KeepsO.ite | apply KeepsO.some | exact Part.within_trans (by decide) hL | dsimp only | split

theorem deflateWrite_keeps {L : List Part} {s₀ : State} {o : Nat} {v : W32} {be : BitVec 4} {s : State} (hs : Keeps L s₀ s) (hL : Part.within [.dfl, .mem, .free] L = true) :
    KeepsE L s₀ (deflateWrite o v be s) := by
  unfold deflateWrite
  with_reducible repeat' first | intro _ | assumption | apply State.setDfl_keeps | apply writeProd_keeps | apply deflateAbort_keeps | apply Keeps.ite | exact KeepsE.error | apply KeepsE.ite | apply KeepsE.ok | exact Part.within_trans (by decide) hL | dsimp only | split

end Sys2Proof.Machine
end

