-- ==== Sys2Proof/Laws/KeepsUartOps.lean ====
section
/-! SUPPORT. What the operations of Machine/UartOps.lean keep (Laws/Keeps.lean). -/

namespace Sys2Proof.Machine

theorem putUart_keeps {L : List Part} {s₀ : State} {n : Nat} {u : Uart} {s : State} (hs : Keeps L s₀ s) (hL : Part.within [.uarts] L = true) :
    Keeps L s₀ (putUart n u s) := by
  unfold putUart
  with_reducible repeat' first | exact id | (intro h; simpa only [setAt, List.length_set, List.length_map, List.length_replicate] using h) | exact fun _ => rfl | with_unfolding_all exact id | intro _ | assumption | apply State.setUarts_keeps | exact Part.within_trans (by decide) hL | dsimp only | split

theorem onUart_keeps {L : List Part} {s₀ : State} {n : Nat} {f : Uart → Uart} {s : State} (hs : Keeps L s₀ s) (hL : Part.within [.uarts] L = true) :
    Keeps L s₀ (onUart n f s) := by
  unfold onUart
  with_reducible repeat' first | intro _ | assumption | apply putUart_keeps | apply Keeps.ite | exact Part.within_trans (by decide) hL | dsimp only | split

theorem runUartCfg_keeps {L : List Part} {s₀ : State} {c : Issued} {s : State} (hs : Keeps L s₀ s) (hL : Part.within [.uarts] L = true) :
    Keeps L s₀ (runUartCfg c s).1 := by
  unfold runUartCfg
  with_reducible repeat' first | intro _ | assumption | apply answer_keeps | apply putUart_keeps | exact Part.within_trans (by decide) hL | dsimp only | split | (refine Keeps.of_fst (by assumption) ?_; apply answer_keeps)

theorem uartPop_keeps {L : List Part} {s₀ : State} {n : Nat} {s : State} (hs : Keeps L s₀ s) (hL : Part.within [.uarts] L = true) :
    Keeps L s₀ (uartPop n s).1 := by
  unfold uartPop
  with_reducible repeat' first | intro _ | assumption | apply putUart_keeps | exact Part.within_trans (by decide) hL | dsimp only | split

theorem uartRead_keeps {L : List Part} {s₀ : State} {n : Nat} {o : Nat} {s : State} (hs : Keeps L s₀ s) (hL : Part.within [.uarts, .free] L = true) :
    KeepsO L s₀ (uartRead n o s) := by
  unfold uartRead
  with_reducible repeat' first | intro _ | assumption | apply uartPop_keeps | apply State.draw_keeps | apply putUart_keeps | exact KeepsO.none | apply KeepsO.ite | apply KeepsO.some | exact Part.within_trans (by decide) hL | dsimp only | split | (refine Keeps.of_fst (by assumption) ?_; apply uartPop_keeps)

theorem uartWrite_keeps {L : List Part} {s₀ : State} {n : Nat} {o : Nat} {v : W32} {be : BitVec 4} {s : State} (hs : Keeps L s₀ s) (hL : Part.within [.uarts] L = true) :
    KeepsE L s₀ (uartWrite n o v be s) := by
  unfold uartWrite
  with_reducible repeat' first | intro _ | assumption | apply onUart_keeps | apply Keeps.ite | exact KeepsE.error | apply KeepsE.ite | apply KeepsE.ok | exact Part.within_trans (by decide) hL | dsimp only | split

end Sys2Proof.Machine
end

