-- ==== Sys2Proof/Laws/KeepsBus.lean ====
section
/-! SUPPORT. What the operations of Machine/Bus.lean keep (Laws/Keeps.lean). -/

namespace Sys2Proof.Machine

theorem tensorStatRead_keeps {L : List Part} {s₀ : State} {e : BitVec 1} {o : Nat} {s : State} (hs : Keeps L s₀ s) (hL : Part.within [.ten] L = true) :
    KeepsO L s₀ (tensorStatRead e o s) := by
  unfold tensorStatRead
  with_reducible repeat' first | intro _ | assumption | apply putEngine_keeps | apply Keeps.ite | apply Keeps.ite_fst | apply Keeps.ite_snd | exact KeepsO.none | apply KeepsO.ite | apply KeepsO.some | exact Part.within_trans (by decide) hL | dsimp only | split

theorem ctlRead_keeps {L : List Part} {s₀ : State} {m : Master} {r : Nat} {o : Nat} {s : State} (hs : Keeps L s₀ s) (hL : Part.within parts22 L = true) :
    KeepsO L s₀ (ctlRead m r o s) := by
  unfold ctlRead
  repeat' first | split | exact KeepsO.none | exact KeepsO.map fun _ => hs
  · exact schRead_keeps hs (Part.within_trans (by decide) hL)
  · exact qmRead_keeps hs (Part.within_trans (by decide) hL)
  · exact timeRead_keeps hs (Part.within_trans (by decide) hL)
  · exact deflateRead_keeps hs (Part.within_trans (by decide) hL)
  · exact uartRead_keeps hs (Part.within_trans (by decide) hL)
  · exact ismRead_keeps hs (Part.within_trans (by decide) hL)
  · exact swRead_keeps hs (Part.within_trans (by decide) hL)
  · exact tdmRead_keeps hs (Part.within_trans (by decide) hL)

theorem ctlWrite_keeps {L : List Part} {s₀ : State} {m : Master} {r : Nat} {o : Nat} {v : W32} {be : BitVec 4} {s : State} (hs : Keeps L s₀ s) (hL : Part.within parts33 L = true) :
    KeepsE L s₀ (ctlWrite m r o v be s) := by
  unfold ctlWrite
  with_reducible repeat' first | intro _ | assumption | apply schWrite_keeps | apply qmWrite_keeps | apply timeWrite_keeps | apply deflateWrite_keeps | apply uartWrite_keeps | apply ismWrite_keeps | apply swWrite_keeps | apply tdmWrite_keeps | apply Keeps.ite | exact KeepsE.error | apply KeepsE.ite | apply KeepsE.ok | exact Part.within_trans (by decide) hL | dsimp only | split | (refine Keeps.of_ok (by assumption) ?_; apply schWrite_keeps) | (refine Keeps.of_ok (by assumption) ?_; apply qmWrite_keeps) | (refine Keeps.of_ok (by assumption) ?_; apply timeWrite_keeps) | (refine Keeps.of_ok (by assumption) ?_; apply deflateWrite_keeps) | (refine Keeps.of_ok (by assumption) ?_; apply uartWrite_keeps) | (refine Keeps.of_ok (by assumption) ?_; apply ismWrite_keeps) | (refine Keeps.of_ok (by assumption) ?_; apply swWrite_keeps) | (refine Keeps.of_ok (by assumption) ?_; apply tdmWrite_keeps)

theorem busRead_keeps {L : List Part} {s₀ : State} {m : Master} {a : Nat} {s : State} (hs : Keeps L s₀ s) (hL : Part.within parts26 L = true) :
    KeepsEP L s₀ (busRead m a s) := by
  unfold busRead
  with_reducible repeat' first | intro _ | assumption | apply tensorStatRead_keeps | apply ctlRead_keeps | apply Keeps.ite | apply Keeps.ite_fst | apply Keeps.ite_snd | exact KeepsEP.error | apply KeepsEP.ite | apply KeepsEP.ok | exact Part.within_trans (by decide) hL | dsimp only | split | (refine Keeps.of_some (by assumption) ?_; apply tensorStatRead_keeps) | (refine Keeps.of_some (by assumption) ?_; apply ctlRead_keeps)

theorem busWrite_keeps {L : List Part} {s₀ : State} {m : Master} {a : Nat} {v : W32} {be : BitVec 4} {s : State} (hs : Keeps L s₀ s) (hL : Part.within parts33 L = true) :
    KeepsE L s₀ (busWrite m a v be s) := by
  unfold busWrite
  with_reducible repeat' first | intro _ | assumption | apply State.withMem_keeps | apply ctlWrite_keeps | apply Keeps.ite | exact KeepsE.error | apply KeepsE.ite | apply KeepsE.ok | apply memWriteList_wf | apply memWrite32_wf | apply memWrite_wf | apply memFilter_wf | exact Part.within_trans (by decide) hL | dsimp only | split | (refine Keeps.of_ok (by assumption) ?_; apply ctlWrite_keeps)

end Sys2Proof.Machine
end

