-- ==== Sys2Proof/Laws/KeepsCellQueues.lean ====
section
/-! SUPPORT. What the operations of Machine/CellQueues.lean keep (Laws/Keeps.lean). -/

namespace Sys2Proof.Machine

theorem execOpenPkt_keeps {L : List Part} {s₀ : State} {m : Master} {q : QueueNo} {s : State} (hs : Keeps L s₀ s) (hL : Part.within [.host, .qm, .ism, .fi] L = true) :
    KeepsN L s₀ (execOpenPkt m q s) := by
  unfold execOpenPkt
  with_reducible repeat' first | intro _ | assumption | apply openPkt_keeps | apply Keeps.ite | apply KeepsN.next | exact Part.within_trans (by decide) hL | dsimp only | split

theorem execProducerData_keeps {L : List Part} {s₀ : State} {m : Master} {w : W32} {s : State} (hs : Keeps L s₀ s) (hL : Part.within parts07 L = true) :
    KeepsN L s₀ (execProducerData m w s) := by
  unfold execProducerData
  with_reducible repeat' first | intro _ | assumption | apply dataWrite_keeps | apply Keeps.ite | apply KeepsN.next | exact Part.within_trans (by decide) hL | dsimp only | split

theorem execClosePkt_keeps {L : List Part} {s₀ : State} {m : Master} {valid : BitVec 3} {bad : Bool} {s : State} (hs : Keeps L s₀ s) (hL : Part.within parts14 L = true) :
    KeepsN L s₀ (execClosePkt m valid bad s) := by
  unfold execClosePkt
  with_reducible repeat' first | intro _ | assumption | apply closePkt_keeps | apply Keeps.ite | apply KeepsN.next | exact Part.within_trans (by decide) hL | dsimp only | split

theorem execSelectQ_keeps {L : List Part} {s₀ : State} {m : Master} {q : QueueNo} {deselect : Bool} {s : State} (hs : Keeps L s₀ s) (hL : Part.within [.qm] L = true) :
    KeepsN L s₀ (execSelectQ m q deselect s) := by
  unfold execSelectQ
  with_reducible repeat' first | intro _ | assumption | apply selectQueue_keeps | apply Keeps.ite | apply KeepsN.next | exact Part.within_trans (by decide) hL | dsimp only | split

theorem execConsumerData_keeps {L : List Part} {s₀ : State} {m : Master} {s : State} (hs : Keeps L s₀ s) (hL : Part.within [.host, .qm] L = true) :
    KeepsN L s₀ (execConsumerData m s) := by
  unfold execConsumerData
  with_reducible repeat' first | intro _ | assumption | apply dataRead_keeps | apply State.setHost_keeps | apply Keeps.ite | apply Keeps.ite_fst | apply Keeps.ite_snd | apply KeepsN.next | exact Part.within_trans (by decide) hL | dsimp only | split | (refine Keeps.of_fst (by assumption) ?_; apply dataRead_keeps)

theorem execReleasePkt_keeps {L : List Part} {s₀ : State} {m : Master} {s : State} (hs : Keeps L s₀ s) (hL : Part.within [.host, .qm, .ism, .fi] L = true) :
    KeepsN L s₀ (execReleasePkt m s) := by
  unfold execReleasePkt
  with_reducible repeat' first | intro _ | assumption | apply releaseHead_keeps | apply Keeps.ite | apply KeepsN.next | exact Part.within_trans (by decide) hL | dsimp only | split

theorem execQflush_keeps {L : List Part} {s₀ : State} {q : QueueNo} {s : State} (hs : Keeps L s₀ s) (hL : Part.within [.host, .qm, .ism, .fi] L = true) :
    KeepsN L s₀ (execQflush q s) := by
  unfold execQflush
  with_reducible repeat' first | intro _ | assumption | apply flushQueue_keeps | apply KeepsN.next | exact Part.within_trans (by decide) hL | dsimp only | split

theorem execCellReturn_keeps {L : List Part} {s₀ : State} {s : State} (hs : Keeps L s₀ s) (hL : Part.within [.qm] L = true) :
    KeepsN L s₀ (execCellReturn s) := by
  unfold execCellReturn
  with_reducible repeat' first | intro _ | assumption | apply cellReturn_keeps | apply KeepsN.next | exact Part.within_trans (by decide) hL | dsimp only | split

theorem execStale_keeps {L : List Part} {s₀ : State} {m : Master} {s : State} (hs : Keeps L s₀ s) (hL : Part.within [.host, .qm, .ism, .fi] L = true) :
    KeepsN L s₀ (execStale m s) := by
  unfold execStale
  with_reducible repeat' first | intro _ | assumption | apply rewindPkt_keeps | apply State.setQm_keeps | apply Keeps.ite | apply KeepsN.next | exact Part.within_trans (by decide) hL | dsimp only | split

end Sys2Proof.Machine
end

