-- ==== Sys2Proof/Laws/KeepsChCmds.lean ====
section
/-! SUPPORT. What the operations of Machine/ChCmds.lean keep (Laws/Keeps.lean). -/

namespace Sys2Proof.Machine

theorem enableQueue_keeps {L : List Part} {s₀ : State} {q : QueueNo} {s : State} (hs : Keeps L s₀ s) (hL : Part.within [.qm] L = true) :
    Keeps L s₀ (enableQueue q s) := by
  unfold enableQueue
  with_reducible repeat' first | intro _ | assumption | apply putQ_keeps | exact Part.within_trans (by decide) hL | dsimp only | split

theorem addChan_keeps {L : List Part} {s₀ : State} {x : Chan} {s : State} (hs : Keeps L s₀ s) (hL : Part.within [.led, .sch, .qm, .free] L = true) :
    Keeps L s₀ (addChan x s) := by
  unfold addChan
  with_reducible repeat' first | intro _ | assumption | apply State.setLed_keeps | apply enableQueue_keeps | apply insertEntry_keeps | apply pointsChanged_keeps | exact Part.within_trans (by decide) hL | dsimp only | split | (refine Keeps.of_fst (by assumption) ?_; apply insertEntry_keeps)

theorem runChCreate_keeps {L : List Part} {s₀ : State} {c : Issued} {s : State} (hs : Keeps L s₀ s) (hL : Part.within [.led, .sch, .qm, .free] L = true) :
    Keeps L s₀ (runChCreate c s).1 := by
  unfold runChCreate
  with_reducible repeat' first | intro _ | assumption | apply answer_keeps | apply answerOk_keeps | apply addChan_keeps | apply State.drawN_keeps | apply Keeps.ite | apply Keeps.ite_fst | apply Keeps.ite_snd | exact Part.within_trans (by decide) hL | dsimp only | split | (refine Keeps.of_fst (by assumption) ?_; apply answer_keeps) | (refine Keeps.of_fst (by assumption) ?_; apply answerOk_keeps)

theorem runChModify_keeps {L : List Part} {s₀ : State} {c : Issued} {s : State} (hs : Keeps L s₀ s) (hL : Part.within [.led, .sch] L = true) :
    Keeps L s₀ (runChModify c s).1 := by
  unfold runChModify
  with_reducible repeat' first | intro _ | assumption | apply answer_keeps | apply answerOk_keeps | apply pointsChanged_keeps | apply putChan_keeps | apply Keeps.ite | apply Keeps.ite_fst | apply Keeps.ite_snd | exact Part.within_trans (by decide) hL | dsimp only | split | (refine Keeps.of_fst (by assumption) ?_; apply answer_keeps) | (refine Keeps.of_fst (by assumption) ?_; apply answerOk_keeps)

theorem runChDelete_keeps {L : List Part} {s₀ : State} {c : Issued} {s : State} (hs : Keeps L s₀ s) (hL : Part.within parts25 L = true) :
    Keeps L s₀ (runChDelete c s).1 := by
  unfold runChDelete
  with_reducible repeat' first | intro _ | assumption | apply answer_keeps | apply goesOn_keeps | apply removeChan_keeps | apply Keeps.ite | apply Keeps.ite_fst | apply Keeps.ite_snd | exact Part.within_trans (by decide) hL | dsimp only | split | (refine Keeps.of_fst (by assumption) ?_; apply answer_keeps) | (refine Keeps.of_fst (by assumption) ?_; apply goesOn_keeps)

theorem runChQuery_keeps {L : List Part} {s₀ : State} {c : Issued} {s : State} (hs : Keeps L s₀ s) (hL : Part.within [] L = true) :
    Keeps L s₀ (runChQuery c s).1 := by
  unfold runChQuery
  with_reducible repeat' first | intro _ | assumption | apply answer_keeps | apply answerOk_keeps | exact Part.within_trans (by decide) hL | dsimp only | split | (refine Keeps.of_fst (by assumption) ?_; apply answer_keeps) | (refine Keeps.of_fst (by assumption) ?_; apply answerOk_keeps)

theorem runChStats_keeps {L : List Part} {s₀ : State} {c : Issued} {s : State} (hs : Keeps L s₀ s) (hL : Part.within [.led] L = true) :
    Keeps L s₀ (runChStats c s).1 := by
  unfold runChStats
  with_reducible repeat' first | intro _ | assumption | apply answer_keeps | apply answerOk_keeps | apply putChan_keeps | apply Keeps.ite | apply Keeps.ite_fst | apply Keeps.ite_snd | exact Part.within_trans (by decide) hL | dsimp only | split | (refine Keeps.of_fst (by assumption) ?_; apply answer_keeps) | (refine Keeps.of_fst (by assumption) ?_; apply answerOk_keeps)

end Sys2Proof.Machine
end

