-- ==== Sys2Proof/Laws/KeepsImgOps.lean ====
section
/-! SUPPORT. What the operations of Machine/ImgOps.lean keep (Laws/Keeps.lean). -/

namespace Sys2Proof.Machine

theorem imgBeginLocal_keeps {L : List Part} {s₀ : State} {s : State} (hs : Keeps L s₀ s) (hL : Part.within [.boot] L = true) :
    Keeps L s₀ (imgBeginLocal s).1 := by
  unfold imgBeginLocal
  with_reducible repeat' first | intro _ | assumption | apply State.setBoot_keeps | apply putRes_keeps | apply putBank_keeps | apply Keeps.ite | apply Keeps.ite_fst | apply Keeps.ite_snd | exact Part.within_trans (by decide) hL | dsimp only | split | exact Nat.le_refl _

theorem imgDataLocal_keeps {L : List Part} {s₀ : State} {a : List Word} {s : State} (hs : Keeps L s₀ s) (hL : Part.within [.boot] L = true) :
    Keeps L s₀ (imgDataLocal a s).1 := by
  unfold imgDataLocal
  with_reducible repeat' first | intro _ | assumption | apply putBank_keeps | apply State.setBoot_keeps | apply Keeps.ite | apply Keeps.ite_fst | apply Keeps.ite_snd | exact Part.within_trans (by decide) hL | dsimp only | split | exact Nat.le_refl _

theorem imgCommitLocal_keeps {L : List Part} {s₀ : State} {s : State} (hs : Keeps L s₀ s) (hL : Part.within [.boot] L = true) :
    Keeps L s₀ (imgCommitLocal s).1 := by
  unfold imgCommitLocal
  with_reducible repeat' first | intro _ | assumption | apply State.setBoot_keeps | exact Part.within_trans (by decide) hL | dsimp only | split | exact Nat.le_refl _

theorem selectBank_keeps {L : List Part} {s₀ : State} {b : Bool} {s : State} (hs : Keeps L s₀ s) (hL : Part.within [.boot] L = true) :
    Keeps L s₀ (selectBank b s) := by
  unfold selectBank
  with_reducible repeat' first | intro _ | assumption | apply State.setBoot_keeps | apply Keeps.ite | exact Part.within_trans (by decide) hL | dsimp only | split | exact Nat.le_refl _

theorem imgSelectLocal_keeps {L : List Part} {s₀ : State} {b : Bool} {s : State} (hs : Keeps L s₀ s) (hL : Part.within [.boot] L = true) :
    Keeps L s₀ (imgSelectLocal b s).1 := by
  unfold imgSelectLocal
  with_reducible repeat' first | intro _ | assumption | apply selectBank_keeps | apply Keeps.ite | apply Keeps.ite_fst | apply Keeps.ite_snd | exact Part.within_trans (by decide) hL | dsimp only | split

theorem startBroadcast_keeps {L : List Part} {s₀ : State} {c : Issued} {s : State} (hs : Keeps L s₀ s) (hL : Part.within [.ism, .fi, .free] L = true) :
    Keeps L s₀ (startBroadcast c s) := by
  unfold startBroadcast
  with_reducible repeat' first | exact id | (intro h; simpa only [setAt, List.length_set, List.length_map, List.length_replicate] using h) | exact fun _ => rfl | with_unfolding_all exact id | intro _ | assumption | apply State.setIsm_keeps | apply State.draw_keeps | apply sendDown_keeps | apply Keeps.ite | exact Part.within_trans (by decide) hL | dsimp only | split

theorem imgResult_keeps {L : List Part} {s₀ : State} {c : Issued} {st : Word} {s : State} (hs : Keeps L s₀ s) (hL : Part.within [.boot, .host, .cmds, .ism, .fi] L = true) :
    Keeps L s₀ (imgResult c st s).1 := by
  unfold imgResult
  with_reducible repeat' first | intro _ | assumption | apply goesOn_keeps | apply ownBroadcast_keeps | apply Keeps.ite | apply Keeps.ite_fst | apply Keeps.ite_snd | exact Part.within_trans (by decide) hL | dsimp only | split | (refine Keeps.of_fst (by assumption) ?_; apply goesOn_keeps)

theorem runImage_keeps {L : List Part} {s₀ : State} {f : State → State × Option Word} {c : Issued} {s : State} (hf : ∀ t, Keeps L s₀ t → Keeps L s₀ (f t).1) (hs : Keeps L s₀ s) (hL : Part.within parts01 L = true) :
    Keeps L s₀ (runImage f c s).1 := by
  unfold runImage
  with_reducible repeat' first | intro _ | assumption | apply hf | apply startBroadcast_keeps | apply goesOn_keeps | apply settleGather_keeps | apply imgResult_keeps | apply Keeps.ite | apply Keeps.ite_fst | apply Keeps.ite_snd | exact Part.within_trans (by decide) hL | dsimp only | split | (refine Keeps.of_fst (by assumption) ?_; apply goesOn_keeps) | (refine Keeps.of_fst (by assumption) ?_; apply imgResult_keeps) | (refine Keeps.of_fst (by assumption) ?_; apply hf)

theorem runImgBegin_keeps {L : List Part} {s₀ : State} {c : Issued} {s : State} (hs : Keeps L s₀ s) (hL : Part.within parts01 L = true) :
    Keeps L s₀ (runImgBegin c s).1 := by
  unfold runImgBegin
  with_reducible repeat' first | intro _ | assumption | apply runImage_keeps | apply imgBeginLocal_keeps | exact Part.within_trans (by decide) hL | dsimp only | split | (refine Keeps.of_fst (by assumption) ?_; apply runImage_keeps) | (refine Keeps.of_fst (by assumption) ?_; apply imgBeginLocal_keeps)

theorem runImgData_keeps {L : List Part} {s₀ : State} {c : Issued} {s : State} (hs : Keeps L s₀ s) (hL : Part.within parts01 L = true) :
    Keeps L s₀ (runImgData c s).1 := by
  unfold runImgData
  with_reducible repeat' first | intro _ | assumption | apply runImage_keeps | apply imgDataLocal_keeps | exact Part.within_trans (by decide) hL | dsimp only | split | (refine Keeps.of_fst (by assumption) ?_; apply runImage_keeps) | (refine Keeps.of_fst (by assumption) ?_; apply imgDataLocal_keeps)

theorem runImgCommit_keeps {L : List Part} {s₀ : State} {c : Issued} {s : State} (hs : Keeps L s₀ s) (hL : Part.within parts01 L = true) :
    Keeps L s₀ (runImgCommit c s).1 := by
  unfold runImgCommit
  with_reducible repeat' first | intro _ | assumption | apply runImage_keeps | apply imgCommitLocal_keeps | exact Part.within_trans (by decide) hL | dsimp only | split | (refine Keeps.of_fst (by assumption) ?_; apply runImage_keeps) | (refine Keeps.of_fst (by assumption) ?_; apply imgCommitLocal_keeps)

theorem runImgSelect_keeps {L : List Part} {s₀ : State} {c : Issued} {s : State} (hs : Keeps L s₀ s) (hL : Part.within parts01 L = true) :
    Keeps L s₀ (runImgSelect c s).1 := by
  unfold runImgSelect
  with_reducible repeat' first | intro _ | assumption | apply runImage_keeps | apply imgSelectLocal_keeps | apply resetSoon_keeps | apply Keeps.ite | apply Keeps.ite_fst | apply Keeps.ite_snd | exact Part.within_trans (by decide) hL | dsimp only | split | (refine Keeps.of_fst (by assumption) ?_; apply runImage_keeps) | (refine Keeps.of_fst (by assumption) ?_; apply imgSelectLocal_keeps)

theorem imgFinish_keeps {L : List Part} {s₀ : State} {c : Issued} {s : State} (hs : Keeps L s₀ s) (hL : Part.within [.boot, .host, .cmds, .ism, .fi] L = true) :
    Keeps L s₀ (imgFinish c s).1 := by
  unfold imgFinish
  with_reducible repeat' first | intro _ | assumption | apply goesOn_keeps | apply imgResult_keeps | apply checkStored_keeps | apply Keeps.ite | apply Keeps.ite_fst | apply Keeps.ite_snd | exact Part.within_trans (by decide) hL | dsimp only | split | (refine Keeps.of_fst (by assumption) ?_; apply goesOn_keeps) | (refine Keeps.of_fst (by assumption) ?_; apply imgResult_keeps)

theorem switchWrite_keeps {L : List Part} {s₀ : State} {keyed : Bool} {s : State} (hs : Keeps L s₀ s) (hL : Part.within [.boot, .host] L = true) :
    Keeps L s₀ (switchWrite keyed s) := by
  unfold switchWrite
  with_reducible repeat' first | intro _ | assumption | apply resetSoon_keeps | apply selectBank_keeps | apply State.setHost_keeps | apply Keeps.ite | exact Part.within_trans (by decide) hL | dsimp only | split

end Sys2Proof.Machine
end

