-- ==== Sys2Proof/Laws/KeepsLoadOps.lean ====
section
/-! SUPPORT. What the operations of Machine/LoadOps.lean keep (Laws/Keeps.lean). -/

namespace Sys2Proof.Machine

theorem installTask_keeps {L : List Part} {s₀ : State} {k : Nat} {l : List Byte} {s : State} (hs : Keeps L s₀ s) (hL : Part.within [.sch, .mem] L = true) :
    Keeps L s₀ (installTask k l s) := by
  unfold installTask
  with_reducible repeat' first | intro _ | assumption | apply store_keeps | apply State.setSch_keeps | apply Keeps.foldl | exact Part.within_trans (by decide) hL | dsimp only | split

theorem unloadTask_keeps {L : List Part} {s₀ : State} {k : Nat} {s : State} (hs : Keeps L s₀ s) (hL : Part.within [.sch] L = true) :
    Keeps L s₀ (unloadTask k s) := by
  unfold unloadTask
  with_reducible repeat' first | intro _ | assumption | apply State.setSch_keeps | exact Part.within_trans (by decide) hL | dsimp only | split

theorem taskLoad_keeps {L : List Part} {s₀ : State} {a : List Word} {s : State} (hs : Keeps L s₀ s) (hL : Part.within [.sch, .mem] L = true) :
    KeepsE L s₀ (taskLoad a s) := by
  unfold taskLoad
  with_reducible repeat' first | intro _ | assumption | apply unloadTask_keeps | apply installTask_keeps | apply Keeps.ite | exact KeepsE.error | apply KeepsE.ite | apply KeepsE.ok | exact Part.within_trans (by decide) hL | dsimp only | split

theorem packStore_keeps {L : List Part} {s₀ : State} {s : State} (hs : Keeps L s₀ s) (hL : Part.within [.ten, .mem] L = true) :
    Keeps L s₀ (packStore s) := by
  unfold packStore
  with_reducible repeat' first | intro _ | assumption | apply store_keeps | apply State.setTen_keeps | apply Keeps.foldl | apply Keeps.foldlP | exact Part.within_trans (by decide) hL | dsimp only | split

theorem installModel_keeps {L : List Part} {s₀ : State} {k : Nat} {l : List Byte} {s : State} (hs : Keeps L s₀ s) (hL : Part.within [.ten, .mem] L = true) :
    Keeps L s₀ (installModel k l s) := by
  unfold installModel
  with_reducible repeat' first | intro _ | assumption | apply State.setTen_keeps | apply packStore_keeps | apply store_keeps | apply Keeps.foldl | apply Keeps.ite | exact Part.within_trans (by decide) hL | dsimp only | split

theorem modelLoad_keeps {L : List Part} {s₀ : State} {a : List Word} {s : State} (hs : Keeps L s₀ s) (hL : Part.within [.ten, .mem] L = true) :
    KeepsE L s₀ (modelLoad a s) := by
  unfold modelLoad
  with_reducible repeat' first | intro _ | assumption | apply State.setTen_keeps | apply installModel_keeps | apply Keeps.ite | exact KeepsE.error | apply KeepsE.ite | apply KeepsE.ok | exact Part.within_trans (by decide) hL | dsimp only | split

theorem startLoad_keeps {L : List Part} {s₀ : State} {f : List Word → State → Except Word State} {c : Issued} {s : State} (hf : ∀ a0 t, Keeps L s₀ t → KeepsE L s₀ (f a0 t)) (hs : Keeps L s₀ s) (hL : Part.within [] L = true) :
    Keeps L s₀ (startLoad f c s).1 := by
  unfold startLoad
  with_reducible repeat' first | intro _ | assumption | apply hf | apply answer_keeps | apply goesOn_keeps | apply Keeps.ite | apply Keeps.ite_fst | apply Keeps.ite_snd | exact Part.within_trans (by decide) hL | dsimp only | split | (refine Keeps.of_fst (by assumption) ?_; apply answer_keeps) | (refine Keeps.of_fst (by assumption) ?_; apply goesOn_keeps) | (refine Keeps.of_ok (by assumption) ?_; apply hf)

theorem endLoad_keeps {L : List Part} {s₀ : State} {f : List Word → State → Except Word State} {c : Issued} {s : State} (hf : ∀ a0 t, Keeps L s₀ t → KeepsE L s₀ (f a0 t)) (hs : Keeps L s₀ s) (hL : Part.within [] L = true) :
    Keeps L s₀ (endLoad f c s).1 := by
  unfold endLoad
  with_reducible repeat' first | intro _ | assumption | apply hf | apply answer_keeps | exact Part.within_trans (by decide) hL | dsimp only | split | (refine Keeps.of_fst (by assumption) ?_; apply answer_keeps) | (refine Keeps.of_ok (by assumption) ?_; apply hf)

theorem runTaskLoad_keeps {L : List Part} {s₀ : State} {c : Issued} {s : State} (hs : Keeps L s₀ s) (hL : Part.within [.sch, .mem] L = true) :
    Keeps L s₀ (runTaskLoad c s).1 := by
  unfold runTaskLoad
  with_reducible repeat' first | intro _ | assumption | apply startLoad_keeps | apply taskLoad_keeps | exact Part.within_trans (by decide) hL | dsimp only | split | (refine Keeps.of_fst (by assumption) ?_; apply startLoad_keeps) | (refine Keeps.of_ok (by assumption) ?_; apply taskLoad_keeps)

theorem runModelLoad_keeps {L : List Part} {s₀ : State} {c : Issued} {s : State} (hs : Keeps L s₀ s) (hL : Part.within [.ten, .mem] L = true) :
    Keeps L s₀ (runModelLoad c s).1 := by
  unfold runModelLoad
  with_reducible repeat' first | intro _ | assumption | apply startLoad_keeps | apply modelLoad_keeps | exact Part.within_trans (by decide) hL | dsimp only | split | (refine Keeps.of_fst (by assumption) ?_; apply startLoad_keeps) | (refine Keeps.of_ok (by assumption) ?_; apply modelLoad_keeps)

end Sys2Proof.Machine
end

