-- ==== Sys2Proof/Laws/KeepsRegOps.lean ====
section
/-! SUPPORT. What the operations of Machine/RegOps.lean keep (Laws/Keeps.lean). -/

namespace Sys2Proof.Machine

theorem hkeyWrite_keeps {L : List Part} {s₀ : State} {v : Word} {s : State} (hs : Keeps L s₀ s) (hL : Part.within [.host] L = true) :
    Keeps L s₀ (hkeyWrite v s) := by
  unfold hkeyWrite
  with_reducible repeat' first | intro _ | assumption | apply State.setHost_keeps | apply Keeps.ite | exact Part.within_trans (by decide) hL | dsimp only | split

theorem useKey_keeps {L : List Part} {s₀ : State} {s : State} (hs : Keeps L s₀ s) (hL : Part.within [.host] L = true) :
    Keeps L s₀ (useKey s) := by
  unfold useKey
  with_reducible repeat' first | intro _ | assumption | apply State.setHost_keeps | exact Part.within_trans (by decide) hL | dsimp only | split

theorem rspRead_keeps {L : List Part} {s₀ : State} {s : State} (hs : Keeps L s₀ s) (hL : Part.within [.host] L = true) :
    Keeps L s₀ (rspRead s).1 := by
  unfold rspRead
  with_reducible repeat' first | intro _ | assumption | apply State.setHost_keeps | exact Part.within_trans (by decide) hL | dsimp only | split

theorem removeResponse_keeps {L : List Part} {s₀ : State} {s : State} (hs : Keeps L s₀ s) (hL : Part.within [.host] L = true) :
    Keeps L s₀ (removeResponse s) := by
  unfold removeResponse
  with_reducible repeat' first | intro _ | assumption | apply withFree_keeps | apply State.setHost_keeps | exact Part.within_trans (by decide) hL | dsimp only | split

theorem evtRead_keeps {L : List Part} {s₀ : State} {s : State} (hs : Keeps L s₀ s) (hL : Part.within [.host] L = true) :
    Keeps L s₀ (evtRead s).1 := by
  unfold evtRead
  with_reducible repeat' first | intro _ | assumption | apply State.setHost_keeps | apply Keeps.ite | apply Keeps.ite_fst | apply Keeps.ite_snd | exact Part.within_trans (by decide) hL | dsimp only | split

theorem apFail_keeps {L : List Part} {s₀ : State} {e : AccErr} {s : State} (hs : Keeps L s₀ s) (hL : Part.within [.host] L = true) :
    Keeps L s₀ (apFail e s) := by
  unfold apFail
  with_reducible repeat' first | intro _ | assumption | apply State.setHost_keeps | apply Keeps.ite | exact Part.within_trans (by decide) hL | dsimp only | split

theorem apNext_keeps {L : List Part} {s₀ : State} {s : State} (hs : Keeps L s₀ s) (hL : Part.within [.host] L = true) :
    Keeps L s₀ (apNext s) := by
  unfold apNext
  with_reducible repeat' first | intro _ | assumption | apply State.setHost_keeps | apply Keeps.ite | exact Part.within_trans (by decide) hL | dsimp only | split

theorem apertureBusRead_keeps {L : List Part} {s₀ : State} {a : Addr} {s : State} (hs : Keeps L s₀ s) (hL : Part.within parts26 L = true) :
    KeepsEP L s₀ (apertureBusRead a s) := by
  unfold apertureBusRead
  with_reducible repeat' first | intro _ | assumption | apply busRead_keeps | apply Keeps.ite | apply Keeps.ite_fst | apply Keeps.ite_snd | exact KeepsEP.error | apply KeepsEP.ite | apply KeepsEP.ok | exact Part.within_trans (by decide) hL | dsimp only | split | (refine Keeps.of_okp (by assumption) ?_; apply busRead_keeps)

theorem apertureBusWrite_keeps {L : List Part} {s₀ : State} {a : Addr} {v : W32} {be : BitVec 4} {s : State} (hs : Keeps L s₀ s) (hL : Part.within parts33 L = true) :
    KeepsE L s₀ (apertureBusWrite a v be s) := by
  unfold apertureBusWrite
  with_reducible repeat' first | intro _ | assumption | apply busWrite_keeps | apply Keeps.ite | exact KeepsE.error | apply KeepsE.ite | apply KeepsE.ok | exact Part.within_trans (by decide) hL | dsimp only | split | (refine Keeps.of_ok (by assumption) ?_; apply busWrite_keeps)

theorem apertureLoad_keeps {L : List Part} {s₀ : State} {a : Addr} {s : State} (hs : Keeps L s₀ s) (hL : Part.within parts30 L = true) :
    Keeps L s₀ (apertureLoad a s) := by
  unfold apertureLoad
  with_reducible repeat' first | intro _ | assumption | apply apertureBusRead_keeps | apply State.setHost_keeps | apply apFail_keeps | exact Part.within_trans (by decide) hL | dsimp only | split | (refine Keeps.of_okp (by assumption) ?_; apply apertureBusRead_keeps)

theorem apertureRead_keeps {L : List Part} {s₀ : State} {s : State} (hs : Keeps L s₀ s) (hL : Part.within parts30 L = true) :
    Keeps L s₀ (apertureRead s) := by
  unfold apertureRead
  with_reducible repeat' first | intro _ | assumption | apply apNext_keeps | apply apertureLoad_keeps | exact Part.within_trans (by decide) hL | dsimp only | split

theorem apertureWrite_keeps {L : List Part} {s₀ : State} {d1 : Word} {s : State} (hs : Keeps L s₀ s) (hL : Part.within parts33 L = true) :
    Keeps L s₀ (apertureWrite d1 s) := by
  unfold apertureWrite
  with_reducible repeat' first | intro _ | assumption | apply State.setHost_keeps | apply apertureBusWrite_keeps | apply apFail_keeps | apply apNext_keeps | exact Part.within_trans (by decide) hL | dsimp only | split | (refine Keeps.of_ok (by assumption) ?_; apply apertureBusWrite_keeps)

theorem time0Read_keeps {L : List Part} {s₀ : State} {s : State} (hs : Keeps L s₀ s) (hL : Part.within [.host, .tim] L = true) :
    Keeps L s₀ (time0Read s).1 := by
  unfold time0Read
  with_reducible repeat' first | exact id | (intro h; simpa only [setAt, List.length_set, List.length_map, List.length_replicate] using h) | exact fun _ => rfl | with_unfolding_all exact id | intro _ | assumption | apply State.setTim_keeps | apply State.setHost_keeps | apply Keeps.ite | apply Keeps.ite_fst | apply Keeps.ite_snd | exact Part.within_trans (by decide) hL | dsimp only | split

end Sys2Proof.Machine
end

