-- ==== Sys2Proof/Laws/KeepsStateCmds.lean ====
section
/-! SUPPORT. What the operations of Machine/StateCmds.lean keep (Laws/Keeps.lean). -/

namespace Sys2Proof.Machine

theorem runIdentify_keeps {L : List Part} {s₀ : State} {v : Issued} {s : State} (hs : Keeps L s₀ s) (hL : Part.within [] L = true) :
    Keeps L s₀ (runIdentify v s).1 := by
  unfold runIdentify
  with_reducible repeat' first | intro _ | assumption | apply answerOk_keeps | exact Part.within_trans (by decide) hL | dsimp only | split | (refine Keeps.of_fst (by assumption) ?_; apply answerOk_keeps)

theorem runGetStatus_keeps {L : List Part} {s₀ : State} {v : Issued} {s : State} (hs : Keeps L s₀ s) (hL : Part.within [] L = true) :
    Keeps L s₀ (runGetStatus v s).1 := by
  unfold runGetStatus
  with_reducible repeat' first | intro _ | assumption | apply answerOk_keeps | exact Part.within_trans (by decide) hL | dsimp only | split | (refine Keeps.of_fst (by assumption) ?_; apply answerOk_keeps)

theorem runSetState_keeps {L : List Part} {s₀ : State} {c : Issued} {s : State} (hs : Keeps L s₀ s) (hL : Part.within parts42 L = true) :
    Keeps L s₀ (runSetState c s).1 := by
  unfold runSetState
  with_reducible repeat' first | intro _ | assumption | apply setState_keeps | apply answer_keeps | exact Part.within_trans (by decide) hL | dsimp only | split | (refine Keeps.of_fst (by assumption) ?_; apply setState_keeps) | (refine Keeps.of_fst (by assumption) ?_; apply answer_keeps)

theorem runReset_keeps {L : List Part} {s₀ : State} {v : Issued} {s : State} (hs : Keeps L s₀ s) (hL : Part.within [.boot] L = true) :
    Keeps L s₀ (runReset v s).1 := by
  unfold runReset
  with_reducible repeat' first | intro _ | assumption | apply answer_keeps | apply resetSoon_keeps | exact Part.within_trans (by decide) hL | dsimp only | split | (refine Keeps.of_fst (by assumption) ?_; apply answer_keeps)

theorem runGetVersions_keeps {L : List Part} {s₀ : State} {v : Issued} {s : State} (hs : Keeps L s₀ s) (hL : Part.within [] L = true) :
    Keeps L s₀ (runGetVersions v s).1 := by
  unfold runGetVersions
  with_reducible repeat' first | intro _ | assumption | apply answerOk_keeps | exact Part.within_trans (by decide) hL | dsimp only | split | (refine Keeps.of_fst (by assumption) ?_; apply answerOk_keeps)

theorem sendForward_keeps {L : List Part} {s₀ : State} {c : Issued} {s : State} (hs : Keeps L s₀ s) (hL : Part.within [.ism, .fi] L = true) :
    Keeps L s₀ (sendForward c s) := by
  unfold sendForward
  with_reducible repeat' first | exact id | (intro h; simpa only [setAt, List.length_set, List.length_map, List.length_replicate] using h) | exact fun _ => rfl | with_unfolding_all exact id | intro _ | assumption | apply ismSend_keeps | apply State.setIsm_keeps | exact Part.within_trans (by decide) hL | dsimp only | split

theorem runForward_keeps {L : List Part} {s₀ : State} {c : Issued} {s : State} (hs : Keeps L s₀ s) (hL : Part.within [.cmds, .ism, .fi] L = true) :
    Keeps L s₀ (runForward c s).1 := by
  unfold runForward
  with_reducible repeat' first | intro _ | assumption | apply answer_keeps | apply goesOn_keeps | apply enqueue_keeps | apply sendForward_keeps | apply Keeps.ite | apply Keeps.ite_fst | apply Keeps.ite_snd | exact Part.within_trans (by decide) hL | dsimp only | split | (refine Keeps.of_fst (by assumption) ?_; apply answer_keeps) | (refine Keeps.of_fst (by assumption) ?_; apply goesOn_keeps)

end Sys2Proof.Machine
end

