-- ==== Sys2Proof/Laws/KeepsCommands.lean ====
section
/-! SUPPORT. What the operations of Machine/Commands.lean keep (Laws/Keeps.lean). -/

namespace Sys2Proof.Machine

theorem runCommand_keeps {L : List Part} {s₀ : State} {c : Issued} {s : State} (hs : Keeps L s₀ s) (hL : Part.within parts52 L = true) :
    Keeps L s₀ (runCommand c s).1 := by
  unfold runCommand
  with_reducible repeat' first | intro _ | assumption | apply runIdentify_keeps | apply runGetStatus_keeps | apply runSetState_keeps | apply runReset_keeps | apply runGetVersions_keeps | apply runImgBegin_keeps | apply runImgData_keeps | apply runImgCommit_keeps | apply runImgSelect_keeps | apply runChCreate_keeps | apply runChModify_keeps | apply runChDelete_keeps | apply runChQuery_keeps | apply runChStats_keeps | apply runChKeys_keeps | apply runPortCfg_keeps | apply runVlanCfg_keeps | apply runClassCfg_keeps | apply runHwyCfg_keeps | apply runSlotMap_keeps | apply runPtpCfg_keeps | apply runServoCfg_keeps | apply runProbeCfg_keeps | apply runProbeRead_keeps | apply runSearch_keeps | apply runAssign_keeps | apply runForward_keeps | apply runTopoRead_keeps | apply runSafeCfg_keeps | apply runSafeQuery_keeps | apply runProofTest_keeps | apply runCalRun_keeps | apply runCalRestore_keeps | apply runCalRead_keeps | apply runSelftest_keeps | apply runFiArm_keeps | apply runFiDisarm_keeps | apply runFiRead_keeps | apply runUartCfg_keeps | apply runTaskLoad_keeps | apply runModelLoad_keeps | apply answer_keeps | exact Part.within_trans (by decide) hL | dsimp only | split | (refine Keeps.of_fst (by assumption) ?_; apply runIdentify_keeps) | (refine Keeps.of_fst (by assumption) ?_; apply runGetStatus_keeps) | (refine Keeps.of_fst (by assumption) ?_; apply runSetState_keeps) | (refine Keeps.of_fst (by assumption) ?_; apply runReset_keeps) | (refine Keeps.of_fst (by assumption) ?_; apply runGetVersions_keeps) | (refine Keeps.of_fst (by assumption) ?_; apply runImgBegin_keeps) | (refine Keeps.of_fst (by assumption) ?_; apply runImgData_keeps) | (refine Keeps.of_fst (by assumption) ?_; apply runImgCommit_keeps) | (refine Keeps.of_fst (by assumption) ?_; apply runImgSelect_keeps) | (refine Keeps.of_fst (by assumption) ?_; apply runChCreate_keeps) | (refine Keeps.of_fst (by assumption) ?_; apply runChModify_keeps) | (refine Keeps.of_fst (by assumption) ?_; apply runChDelete_keeps) | (refine Keeps.of_fst (by assumption) ?_; apply runChQuery_keeps) | (refine Keeps.of_fst (by assumption) ?_; apply runChStats_keeps) | (refine Keeps.of_fst (by assumption) ?_; apply runChKeys_keeps) | (refine Keeps.of_fst (by assumption) ?_; apply runPortCfg_keeps) | (refine Keeps.of_fst (by assumption) ?_; apply runVlanCfg_keeps) | (refine Keeps.of_fst (by assumption) ?_; apply runClassCfg_keeps) | (refine Keeps.of_fst (by assumption) ?_; apply runHwyCfg_keeps) | (refine Keeps.of_fst (by assumption) ?_; apply runSlotMap_keeps) | (refine Keeps.of_fst (by assumption) ?_; apply runPtpCfg_keeps) | (refine Keeps.of_fst (by assumption) ?_; apply runServoCfg_keeps) | (refine Keeps.of_fst (by assumption) ?_; apply runProbeCfg_keeps) | (refine Keeps.of_fst (by assumption) ?_; apply runProbeRead_keeps) | (refine Keeps.of_fst (by assumption) ?_; apply runSearch_keeps) | (refine Keeps.of_fst (by assumption) ?_; apply runAssign_keeps) | (refine Keeps.of_fst (by assumption) ?_; apply runForward_keeps) | (refine Keeps.of_fst (by assumption) ?_; apply runTopoRead_keeps) | (refine Keeps.of_fst (by assumption) ?_; apply runSafeCfg_keeps) | (refine Keeps.of_fst (by assumption) ?_; apply runSafeQuery_keeps) | (refine Keeps.of_fst (by assumption) ?_; apply runProofTest_keeps) | (refine Keeps.of_fst (by assumption) ?_; apply runCalRun_keeps) | (refine Keeps.of_fst (by assumption) ?_; apply runCalRestore_keeps) | (refine Keeps.of_fst (by assumption) ?_; apply runCalRead_keeps) | (refine Keeps.of_fst (by assumption) ?_; apply runSelftest_keeps) | (refine Keeps.of_fst (by assumption) ?_; apply runFiArm_keeps) | (refine Keeps.of_fst (by assumption) ?_; apply runFiDisarm_keeps) | (refine Keeps.of_fst (by assumption) ?_; apply runFiRead_keeps) | (refine Keeps.of_fst (by assumption) ?_; apply runUartCfg_keeps) | (refine Keeps.of_fst (by assumption) ?_; apply runTaskLoad_keeps) | (refine Keeps.of_fst (by assumption) ?_; apply runModelLoad_keeps) | (refine Keeps.of_fst (by assumption) ?_; apply answer_keeps)

theorem startLane_keeps {L : List Part} {s₀ : State} {k : BitVec 2} {s : State} (hs : Keeps L s₀ s) (hL : Part.within parts52 L = true) :
    Keeps L s₀ (startLane k s) := by
  unfold startLane
  with_reducible repeat' first | intro _ | assumption | apply putLane_keeps | apply finish_keeps | apply runCommand_keeps | exact Part.within_trans (by decide) hL | dsimp only | split | (refine Keeps.of_fst (by assumption) ?_; apply runCommand_keeps)

theorem pumpN_keeps {L : List Part} {s₀ : State} {k : Nat} {s : State} (hs : Keeps L s₀ s) (hL : Part.within parts52 L = true) :
    Keeps L s₀ (pumpN k s) := by
  induction k generalizing s with
  | zero => exact hs
  | succ k ih =>
    unfold pumpN
    with_reducible repeat' first | intro _ | assumption | apply ih | apply startLane_keeps | exact Part.within_trans (by decide) hL | dsimp only | split

theorem settleDelete_keeps {L : List Part} {s₀ : State} {s : State} (hs : Keeps L s₀ s) (hL : Part.within [.boot, .host, .cmds, .ism, .fi] L = true) :
    Keeps L s₀ (settleDelete s) := by
  unfold settleDelete
  with_reducible repeat' first | intro _ | assumption | apply finish_keeps | apply State.setCmds_keeps | apply Keeps.ite | exact Part.within_trans (by decide) hL | dsimp only | split

theorem pump_keeps {L : List Part} {s₀ : State} {s : State} (hs : Keeps L s₀ s) (hL : Part.within parts52 L = true) :
    Keeps L s₀ (pump s) := by
  unfold pump
  with_reducible repeat' first | intro _ | assumption | apply settleDelete_keeps | apply pumpN_keeps | exact Part.within_trans (by decide) hL | dsimp only | split

theorem completeLane_keeps {L : List Part} {s₀ : State} {k : BitVec 2} {s : State} (hs : Keeps L s₀ s) (hL : Part.within parts16 L = true) :
    Keeps L s₀ (completeLane k s) := by
  unfold completeLane
  repeat' first | with_reducible intro _ | with_reducible assumption | with_reducible exact Keeps.refl _ | with_reducible apply imgFinish_keeps | with_reducible apply goesOn_keeps | with_reducible apply endLoad_keeps | with_reducible apply taskLoad_keeps | with_reducible apply modelLoad_keeps | with_reducible apply finish_keeps | with_reducible apply Keeps.ite | with_reducible apply Keeps.ite_fst | with_reducible apply Keeps.ite_snd | exact Part.within_trans (by decide) hL | dsimp only | split | (refine Keeps.of_fst (by assumption) ?_; with_reducible apply imgFinish_keeps) | (refine Keeps.of_fst (by assumption) ?_; with_reducible apply goesOn_keeps) | (refine Keeps.of_fst (by assumption) ?_; with_reducible apply endLoad_keeps) | (refine Keeps.of_ok (by assumption) ?_; with_reducible apply taskLoad_keeps) | (refine Keeps.of_ok (by assumption) ?_; with_reducible apply modelLoad_keeps) | refine Keeps.of_fst (by assumption) ?_ | refine Keeps.of_snd (by assumption) ?_

theorem goWrite_keeps {L : List Part} {s₀ : State} {key : Bool} {s : State} (hs : Keeps L s₀ s) (hL : Part.within parts52 L = true) :
    Keeps L s₀ (goWrite key s) := by
  unfold goWrite
  with_reducible repeat' first | intro _ | assumption | apply State.setHost_keeps | apply pump_keeps | apply enqueue_keeps | apply Keeps.ite | exact Part.within_trans (by decide) hL | dsimp only | split

theorem issueCommand_keeps {L : List Part} {s₀ : State} {op : Word} {tag : Word} {args : List Word} {s : State} (hs : Keeps L s₀ s) (hL : Part.within parts52 L = true) :
    Keeps L s₀ (issueCommand op tag args s) := by
  unfold issueCommand
  with_reducible repeat' first | intro _ | assumption | apply State.setHost_keeps | apply goWrite_keeps | apply Keeps.ite | exact Part.within_trans (by decide) hL | dsimp only | split

end Sys2Proof.Machine
end

