-- ==== Sys2Proof/Laws/KeepsHostOps.lean ====
section
/-! SUPPORT. What the operations of Machine/HostOps.lean keep (Laws/Keeps.lean). -/

namespace Sys2Proof.Machine

theorem hostRead_keeps {L : List Part} {s₀ : State} {slot : Nat} {s : State} (hs : Keeps L s₀ s) (hL : Part.within parts30 L = true) :
    Keeps L s₀ (hostRead slot s).1 := by
  unfold hostRead
  with_reducible repeat' first | intro _ | assumption | apply State.draw_keeps | apply rspRead_keeps | apply evtRead_keeps | apply apertureRead_keeps | apply time0Read_keeps | apply Keeps.ite | apply Keeps.ite_fst | apply Keeps.ite_snd | exact Part.within_trans (by decide) hL | dsimp only | split | (refine Keeps.of_fst (by assumption) ?_; apply rspRead_keeps) | (refine Keeps.of_fst (by assumption) ?_; apply evtRead_keeps) | (refine Keeps.of_fst (by assumption) ?_; apply time0Read_keeps)

theorem readInto_keeps {L : List Part} {s₀ : State} {slot : Nat} {s : State} (hs : Keeps L s₀ s) (hL : Part.within parts30 L = true) :
    Keeps L s₀ (readInto slot s) := by
  unfold readInto
  with_reducible repeat' first | intro _ | assumption | apply hostRead_keeps | apply State.setHost_keeps | exact Part.within_trans (by decide) hL | dsimp only | split | (refine Keeps.of_fst (by assumption) ?_; apply hostRead_keeps)

theorem readAt_keeps {L : List Part} {s₀ : State} {a : Addr} {s : State} (hs : Keeps L s₀ s) (hL : Part.within parts30 L = true) :
    Keeps L s₀ (readAt a s) := by
  unfold readAt
  with_reducible repeat' first | intro _ | assumption | apply readInto_keeps | apply State.setHost_keeps | apply Keeps.ite | exact Part.within_trans (by decide) hL | dsimp only | split

theorem safeClear_keeps {L : List Part} {s₀ : State} {key : Bool} {s : State} (hs : Keeps L s₀ s) (hL : Part.within parts42 L = true) :
    Keeps L s₀ (safeClear key s) := by
  unfold safeClear
  with_reducible repeat' first | intro _ | assumption | apply removeChan_keeps | apply State.setSaf_keeps | apply standbyDue_keeps | apply setMode_keeps | apply State.setFi_keeps | apply State.setHost_keeps | apply Keeps.foldl | apply Keeps.ite | exact Part.within_trans (by decide) hL | dsimp only | split

theorem safeEnter_keeps {L : List Part} {s₀ : State} {s : State} (hs : Keeps L s₀ s) (hL : Part.within parts34 L = true) :
    Keeps L s₀ (safeEnter s) := by
  unfold safeEnter
  with_reducible repeat' first | intro _ | assumption | apply moduleSafe_keeps | apply Keeps.ite | exact Part.within_trans (by decide) hL | dsimp only | split

theorem safeCtl_keeps {L : List Part} {s₀ : State} {key : Bool} {v : Word} {s : State} (hs : Keeps L s₀ s) (hL : Part.within parts49 L = true) :
    Keeps L s₀ (safeCtl key v s) := by
  unfold safeCtl
  with_reducible repeat' first | intro _ | assumption | apply State.setHost_keeps | apply State.draw_keeps | apply safeEnter_keeps | apply safeClear_keeps | apply Keeps.ite | exact Part.within_trans (by decide) hL | dsimp only | split

theorem prefWrite_keeps {L : List Part} {s₀ : State} {v : BitVec 3} {s : State} (hs : Keeps L s₀ s) (hL : Part.within [.pwr, .host, .ism, .fi] L = true) :
    Keeps L s₀ (prefWrite v s) := by
  unfold prefWrite
  with_reducible repeat' first | intro _ | assumption | apply State.setPwr_keeps | apply raisePwr_keeps | apply Keeps.ite | exact Part.within_trans (by decide) hL | dsimp only | split

theorem imgCtlWrite_keeps {L : List Part} {s₀ : State} {key : Bool} {v : Word} {s : State} (hs : Keeps L s₀ s) (hL : Part.within [.boot, .host] L = true) :
    Keeps L s₀ (imgCtlWrite key v s) := by
  unfold imgCtlWrite
  with_reducible repeat' first | intro _ | assumption | apply State.setHost_keeps | apply switchWrite_keeps | apply Keeps.ite | exact Part.within_trans (by decide) hL | dsimp only | split

theorem hwdogWrite_keeps {L : List Part} {s₀ : State} {v : Word} {s : State} (hs : Keeps L s₀ s) (hL : Part.within [.host] L = true) :
    Keeps L s₀ (hwdogWrite v s) := by
  unfold hwdogWrite
  with_reducible repeat' first | intro _ | assumption | apply State.setHost_keeps | apply Keeps.ite | exact Part.within_trans (by decide) hL | dsimp only | split

theorem cmdFifoWrite_keeps {L : List Part} {s₀ : State} {v : Word} {s : State} (hs : Keeps L s₀ s) (hL : Part.within [.host] L = true) :
    Keeps L s₀ (cmdFifoWrite v s) := by
  unfold cmdFifoWrite
  with_reducible repeat' first | intro _ | assumption | apply State.setHost_keeps | apply Keeps.ite | exact Part.within_trans (by decide) hL | dsimp only | split

theorem cmdClear_keeps {L : List Part} {s₀ : State} {s : State} (hs : Keeps L s₀ s) (hL : Part.within [.host] L = true) :
    Keeps L s₀ (cmdClear s) := by
  unfold cmdClear
  with_reducible repeat' first | intro _ | assumption | apply State.setHost_keeps | exact Part.within_trans (by decide) hL | dsimp only | split

theorem cmdCtlWrite_keeps {L : List Part} {s₀ : State} {key : Bool} {v : Word} {s : State} (hs : Keeps L s₀ s) (hL : Part.within parts52 L = true) :
    Keeps L s₀ (cmdCtlWrite key v s) := by
  unfold cmdCtlWrite
  with_reducible repeat' first | intro _ | assumption | apply State.setHost_keeps | apply cmdClear_keeps | apply goWrite_keeps | apply Keeps.ite | exact Part.within_trans (by decide) hL | dsimp only | split

theorem apCtlWrite_keeps {L : List Part} {s₀ : State} {v : Word} {s : State} (hs : Keeps L s₀ s) (hL : Part.within [.host] L = true) :
    Keeps L s₀ (apCtlWrite v s) := by
  unfold apCtlWrite
  with_reducible repeat' first | intro _ | assumption | apply State.setHost_keeps | apply Keeps.ite | exact Part.within_trans (by decide) hL | dsimp only | split

theorem timeCtlWrite_keeps {L : List Part} {s₀ : State} {v : Word} {s : State} (hs : Keeps L s₀ s) (hL : Part.within [.host] L = true) :
    Keeps L s₀ (timeCtlWrite v s) := by
  unfold timeCtlWrite
  with_reducible repeat' first | intro _ | assumption | apply State.setHost_keeps | apply Keeps.ite | exact Part.within_trans (by decide) hL | dsimp only | split

theorem irqStatWrite_keeps {L : List Part} {s₀ : State} {v : Word} {s : State} (hs : Keeps L s₀ s) (hL : Part.within [.host] L = true) :
    Keeps L s₀ (irqStatWrite v s) := by
  unfold irqStatWrite
  with_reducible repeat' first | intro _ | assumption | apply State.setHost_keeps | exact Part.within_trans (by decide) hL | dsimp only | split

theorem apAddrWrite_keeps {L : List Part} {s₀ : State} {k : Nat} {v : Word} {s : State} (hs : Keeps L s₀ s) (hL : Part.within [.host] L = true) :
    Keeps L s₀ (apAddrWrite k v s) := by
  unfold apAddrWrite
  with_reducible repeat' first | intro _ | assumption | apply State.setHost_keeps | exact Part.within_trans (by decide) hL | dsimp only | split

theorem writeSlot_keeps {L : List Part} {s₀ : State} {slot : Nat} {key : Bool} {v : Word} {s : State} (hs : Keeps L s₀ s) (hL : Part.within parts52 L = true) :
    Keeps L s₀ (writeSlot slot key v s) := by
  unfold writeSlot
  with_reducible repeat' first | intro _ | assumption | apply State.setHost_keeps | apply irqStatWrite_keeps | apply cmdFifoWrite_keeps | apply cmdCtlWrite_keeps | apply removeResponse_keeps | apply apAddrWrite_keeps | apply apertureWrite_keeps | apply apCtlWrite_keeps | apply timeCtlWrite_keeps | apply safeCtl_keeps | apply prefWrite_keeps | apply imgCtlWrite_keeps | apply hwdogWrite_keeps | apply disarmAll_keeps | apply Keeps.ite | exact Part.within_trans (by decide) hL | dsimp only | split

theorem hostBoth_keeps {L : List Part} {s₀ : State} {s : State} (hs : Keeps L s₀ s) (hL : Part.within [.host, .free] L = true) :
    Keeps L s₀ (hostBoth s) := by
  unfold hostBoth
  with_reducible repeat' first | intro _ | assumption | apply State.setHost_keeps | apply State.draw_keeps | apply Keeps.ite | exact Part.within_trans (by decide) hL | dsimp only | split

theorem hostWrite_keeps {L : List Part} {s₀ : State} {slot : Nat} {v : Word} {s : State} (hs : Keeps L s₀ s) (hL : Part.within parts52 L = true) :
    Keeps L s₀ (hostWrite slot v s) := by
  unfold hostWrite
  with_reducible repeat' first | intro _ | assumption | apply hkeyWrite_keeps | apply writeSlot_keeps | apply useKey_keeps | apply Keeps.ite | exact Part.within_trans (by decide) hL | dsimp only | split

end Sys2Proof.Machine
end

