-- ==== Sys2Proof/Laws/KeepsCommandRows.lean ====
section
/-! SUPPORT. What the operations of Machine/CommandRows.lean keep (Laws/Keeps.lean). -/

namespace Sys2Proof.Machine

theorem execIdentify_keeps {L : List Part} {s₀ : State} {tag : Word} {args : List Word} {s : State} (hs : Keeps L s₀ s) (hL : Part.within parts52 L = true) :
    KeepsN L s₀ (execIdentify tag args s) := by
  unfold execIdentify
  with_reducible repeat' first | intro _ | assumption | apply issueCommand_keeps | apply KeepsN.next | exact Part.within_trans (by decide) hL | dsimp only | split

theorem execGetStatus_keeps {L : List Part} {s₀ : State} {tag : Word} {args : List Word} {s : State} (hs : Keeps L s₀ s) (hL : Part.within parts52 L = true) :
    KeepsN L s₀ (execGetStatus tag args s) := by
  unfold execGetStatus
  with_reducible repeat' first | intro _ | assumption | apply issueCommand_keeps | apply KeepsN.next | exact Part.within_trans (by decide) hL | dsimp only | split

theorem execSetState_keeps {L : List Part} {s₀ : State} {tag : Word} {args : List Word} {s : State} (hs : Keeps L s₀ s) (hL : Part.within parts52 L = true) :
    KeepsN L s₀ (execSetState tag args s) := by
  unfold execSetState
  with_reducible repeat' first | intro _ | assumption | apply issueCommand_keeps | apply KeepsN.next | exact Part.within_trans (by decide) hL | dsimp only | split

theorem execResetCmd_keeps {L : List Part} {s₀ : State} {tag : Word} {args : List Word} {s : State} (hs : Keeps L s₀ s) (hL : Part.within parts52 L = true) :
    KeepsN L s₀ (execResetCmd tag args s) := by
  unfold execResetCmd
  with_reducible repeat' first | intro _ | assumption | apply issueCommand_keeps | apply KeepsN.next | exact Part.within_trans (by decide) hL | dsimp only | split

theorem execGetVersions_keeps {L : List Part} {s₀ : State} {tag : Word} {args : List Word} {s : State} (hs : Keeps L s₀ s) (hL : Part.within parts52 L = true) :
    KeepsN L s₀ (execGetVersions tag args s) := by
  unfold execGetVersions
  with_reducible repeat' first | intro _ | assumption | apply issueCommand_keeps | apply KeepsN.next | exact Part.within_trans (by decide) hL | dsimp only | split

theorem execImgBegin_keeps {L : List Part} {s₀ : State} {tag : Word} {args : List Word} {s : State} (hs : Keeps L s₀ s) (hL : Part.within parts52 L = true) :
    KeepsN L s₀ (execImgBegin tag args s) := by
  unfold execImgBegin
  with_reducible repeat' first | intro _ | assumption | apply issueCommand_keeps | apply KeepsN.next | exact Part.within_trans (by decide) hL | dsimp only | split

theorem execImgData_keeps {L : List Part} {s₀ : State} {tag : Word} {args : List Word} {s : State} (hs : Keeps L s₀ s) (hL : Part.within parts52 L = true) :
    KeepsN L s₀ (execImgData tag args s) := by
  unfold execImgData
  with_reducible repeat' first | intro _ | assumption | apply issueCommand_keeps | apply KeepsN.next | exact Part.within_trans (by decide) hL | dsimp only | split

theorem execImgCommit_keeps {L : List Part} {s₀ : State} {tag : Word} {args : List Word} {s : State} (hs : Keeps L s₀ s) (hL : Part.within parts52 L = true) :
    KeepsN L s₀ (execImgCommit tag args s) := by
  unfold execImgCommit
  with_reducible repeat' first | intro _ | assumption | apply issueCommand_keeps | apply KeepsN.next | exact Part.within_trans (by decide) hL | dsimp only | split

theorem execImgSelect_keeps {L : List Part} {s₀ : State} {tag : Word} {args : List Word} {s : State} (hs : Keeps L s₀ s) (hL : Part.within parts52 L = true) :
    KeepsN L s₀ (execImgSelect tag args s) := by
  unfold execImgSelect
  with_reducible repeat' first | intro _ | assumption | apply issueCommand_keeps | apply KeepsN.next | exact Part.within_trans (by decide) hL | dsimp only | split

theorem execChCreate_keeps {L : List Part} {s₀ : State} {tag : Word} {args : List Word} {s : State} (hs : Keeps L s₀ s) (hL : Part.within parts52 L = true) :
    KeepsN L s₀ (execChCreate tag args s) := by
  unfold execChCreate
  with_reducible repeat' first | intro _ | assumption | apply issueCommand_keeps | apply KeepsN.next | exact Part.within_trans (by decide) hL | dsimp only | split

theorem execChModify_keeps {L : List Part} {s₀ : State} {tag : Word} {args : List Word} {s : State} (hs : Keeps L s₀ s) (hL : Part.within parts52 L = true) :
    KeepsN L s₀ (execChModify tag args s) := by
  unfold execChModify
  with_reducible repeat' first | intro _ | assumption | apply issueCommand_keeps | apply KeepsN.next | exact Part.within_trans (by decide) hL | dsimp only | split

theorem execChDelete_keeps {L : List Part} {s₀ : State} {tag : Word} {args : List Word} {s : State} (hs : Keeps L s₀ s) (hL : Part.within parts52 L = true) :
    KeepsN L s₀ (execChDelete tag args s) := by
  unfold execChDelete
  with_reducible repeat' first | intro _ | assumption | apply issueCommand_keeps | apply KeepsN.next | exact Part.within_trans (by decide) hL | dsimp only | split

theorem execChQuery_keeps {L : List Part} {s₀ : State} {tag : Word} {args : List Word} {s : State} (hs : Keeps L s₀ s) (hL : Part.within parts52 L = true) :
    KeepsN L s₀ (execChQuery tag args s) := by
  unfold execChQuery
  with_reducible repeat' first | intro _ | assumption | apply issueCommand_keeps | apply KeepsN.next | exact Part.within_trans (by decide) hL | dsimp only | split

theorem execChStats_keeps {L : List Part} {s₀ : State} {tag : Word} {args : List Word} {s : State} (hs : Keeps L s₀ s) (hL : Part.within parts52 L = true) :
    KeepsN L s₀ (execChStats tag args s) := by
  unfold execChStats
  with_reducible repeat' first | intro _ | assumption | apply issueCommand_keeps | apply KeepsN.next | exact Part.within_trans (by decide) hL | dsimp only | split

theorem execChKeys_keeps {L : List Part} {s₀ : State} {tag : Word} {args : List Word} {s : State} (hs : Keeps L s₀ s) (hL : Part.within parts52 L = true) :
    KeepsN L s₀ (execChKeys tag args s) := by
  unfold execChKeys
  with_reducible repeat' first | intro _ | assumption | apply issueCommand_keeps | apply KeepsN.next | exact Part.within_trans (by decide) hL | dsimp only | split

theorem execPortCfg_keeps {L : List Part} {s₀ : State} {tag : Word} {args : List Word} {s : State} (hs : Keeps L s₀ s) (hL : Part.within parts52 L = true) :
    KeepsN L s₀ (execPortCfg tag args s) := by
  unfold execPortCfg
  with_reducible repeat' first | intro _ | assumption | apply issueCommand_keeps | apply KeepsN.next | exact Part.within_trans (by decide) hL | dsimp only | split

theorem execVlanCfg_keeps {L : List Part} {s₀ : State} {tag : Word} {args : List Word} {s : State} (hs : Keeps L s₀ s) (hL : Part.within parts52 L = true) :
    KeepsN L s₀ (execVlanCfg tag args s) := by
  unfold execVlanCfg
  with_reducible repeat' first | intro _ | assumption | apply issueCommand_keeps | apply KeepsN.next | exact Part.within_trans (by decide) hL | dsimp only | split

theorem execClassCfg_keeps {L : List Part} {s₀ : State} {tag : Word} {args : List Word} {s : State} (hs : Keeps L s₀ s) (hL : Part.within parts52 L = true) :
    KeepsN L s₀ (execClassCfg tag args s) := by
  unfold execClassCfg
  with_reducible repeat' first | intro _ | assumption | apply issueCommand_keeps | apply KeepsN.next | exact Part.within_trans (by decide) hL | dsimp only | split

theorem execHwyCfg_keeps {L : List Part} {s₀ : State} {tag : Word} {args : List Word} {s : State} (hs : Keeps L s₀ s) (hL : Part.within parts52 L = true) :
    KeepsN L s₀ (execHwyCfg tag args s) := by
  unfold execHwyCfg
  with_reducible repeat' first | intro _ | assumption | apply issueCommand_keeps | apply KeepsN.next | exact Part.within_trans (by decide) hL | dsimp only | split

theorem execSlotMap_keeps {L : List Part} {s₀ : State} {tag : Word} {args : List Word} {s : State} (hs : Keeps L s₀ s) (hL : Part.within parts52 L = true) :
    KeepsN L s₀ (execSlotMap tag args s) := by
  unfold execSlotMap
  with_reducible repeat' first | intro _ | assumption | apply issueCommand_keeps | apply KeepsN.next | exact Part.within_trans (by decide) hL | dsimp only | split

theorem execPtpCfg_keeps {L : List Part} {s₀ : State} {tag : Word} {args : List Word} {s : State} (hs : Keeps L s₀ s) (hL : Part.within parts52 L = true) :
    KeepsN L s₀ (execPtpCfg tag args s) := by
  unfold execPtpCfg
  with_reducible repeat' first | intro _ | assumption | apply issueCommand_keeps | apply KeepsN.next | exact Part.within_trans (by decide) hL | dsimp only | split

theorem execServoCfg_keeps {L : List Part} {s₀ : State} {tag : Word} {args : List Word} {s : State} (hs : Keeps L s₀ s) (hL : Part.within parts52 L = true) :
    KeepsN L s₀ (execServoCfg tag args s) := by
  unfold execServoCfg
  with_reducible repeat' first | intro _ | assumption | apply issueCommand_keeps | apply KeepsN.next | exact Part.within_trans (by decide) hL | dsimp only | split

theorem execProbeCfg_keeps {L : List Part} {s₀ : State} {tag : Word} {args : List Word} {s : State} (hs : Keeps L s₀ s) (hL : Part.within parts52 L = true) :
    KeepsN L s₀ (execProbeCfg tag args s) := by
  unfold execProbeCfg
  with_reducible repeat' first | intro _ | assumption | apply issueCommand_keeps | apply KeepsN.next | exact Part.within_trans (by decide) hL | dsimp only | split

theorem execProbeRead_keeps {L : List Part} {s₀ : State} {tag : Word} {args : List Word} {s : State} (hs : Keeps L s₀ s) (hL : Part.within parts52 L = true) :
    KeepsN L s₀ (execProbeRead tag args s) := by
  unfold execProbeRead
  with_reducible repeat' first | intro _ | assumption | apply issueCommand_keeps | apply KeepsN.next | exact Part.within_trans (by decide) hL | dsimp only | split

theorem execSearch_keeps {L : List Part} {s₀ : State} {tag : Word} {args : List Word} {s : State} (hs : Keeps L s₀ s) (hL : Part.within parts52 L = true) :
    KeepsN L s₀ (execSearch tag args s) := by
  unfold execSearch
  with_reducible repeat' first | intro _ | assumption | apply issueCommand_keeps | apply KeepsN.next | exact Part.within_trans (by decide) hL | dsimp only | split

theorem execAssign_keeps {L : List Part} {s₀ : State} {tag : Word} {args : List Word} {s : State} (hs : Keeps L s₀ s) (hL : Part.within parts52 L = true) :
    KeepsN L s₀ (execAssign tag args s) := by
  unfold execAssign
  with_reducible repeat' first | intro _ | assumption | apply issueCommand_keeps | apply KeepsN.next | exact Part.within_trans (by decide) hL | dsimp only | split

theorem execForward_keeps {L : List Part} {s₀ : State} {tag : Word} {args : List Word} {s : State} (hs : Keeps L s₀ s) (hL : Part.within parts52 L = true) :
    KeepsN L s₀ (execForward tag args s) := by
  unfold execForward
  with_reducible repeat' first | intro _ | assumption | apply issueCommand_keeps | apply KeepsN.next | exact Part.within_trans (by decide) hL | dsimp only | split

theorem execTopoRead_keeps {L : List Part} {s₀ : State} {tag : Word} {args : List Word} {s : State} (hs : Keeps L s₀ s) (hL : Part.within parts52 L = true) :
    KeepsN L s₀ (execTopoRead tag args s) := by
  unfold execTopoRead
  with_reducible repeat' first | intro _ | assumption | apply issueCommand_keeps | apply KeepsN.next | exact Part.within_trans (by decide) hL | dsimp only | split

theorem execSafeCfg_keeps {L : List Part} {s₀ : State} {tag : Word} {args : List Word} {s : State} (hs : Keeps L s₀ s) (hL : Part.within parts52 L = true) :
    KeepsN L s₀ (execSafeCfg tag args s) := by
  unfold execSafeCfg
  with_reducible repeat' first | intro _ | assumption | apply issueCommand_keeps | apply KeepsN.next | exact Part.within_trans (by decide) hL | dsimp only | split

theorem execSafeQuery_keeps {L : List Part} {s₀ : State} {tag : Word} {args : List Word} {s : State} (hs : Keeps L s₀ s) (hL : Part.within parts52 L = true) :
    KeepsN L s₀ (execSafeQuery tag args s) := by
  unfold execSafeQuery
  with_reducible repeat' first | intro _ | assumption | apply issueCommand_keeps | apply KeepsN.next | exact Part.within_trans (by decide) hL | dsimp only | split

theorem execProofTest_keeps {L : List Part} {s₀ : State} {tag : Word} {args : List Word} {s : State} (hs : Keeps L s₀ s) (hL : Part.within parts52 L = true) :
    KeepsN L s₀ (execProofTest tag args s) := by
  unfold execProofTest
  with_reducible repeat' first | intro _ | assumption | apply issueCommand_keeps | apply KeepsN.next | exact Part.within_trans (by decide) hL | dsimp only | split

theorem execCalRun_keeps {L : List Part} {s₀ : State} {tag : Word} {args : List Word} {s : State} (hs : Keeps L s₀ s) (hL : Part.within parts52 L = true) :
    KeepsN L s₀ (execCalRun tag args s) := by
  unfold execCalRun
  with_reducible repeat' first | intro _ | assumption | apply issueCommand_keeps | apply KeepsN.next | exact Part.within_trans (by decide) hL | dsimp only | split

theorem execCalRestoreFactory_keeps {L : List Part} {s₀ : State} {tag : Word} {args : List Word} {s : State} (hs : Keeps L s₀ s) (hL : Part.within parts52 L = true) :
    KeepsN L s₀ (execCalRestoreFactory tag args s) := by
  unfold execCalRestoreFactory
  with_reducible repeat' first | intro _ | assumption | apply issueCommand_keeps | apply KeepsN.next | exact Part.within_trans (by decide) hL | dsimp only | split

theorem execCalRead_keeps {L : List Part} {s₀ : State} {tag : Word} {args : List Word} {s : State} (hs : Keeps L s₀ s) (hL : Part.within parts52 L = true) :
    KeepsN L s₀ (execCalRead tag args s) := by
  unfold execCalRead
  with_reducible repeat' first | intro _ | assumption | apply issueCommand_keeps | apply KeepsN.next | exact Part.within_trans (by decide) hL | dsimp only | split

theorem execSelftest_keeps {L : List Part} {s₀ : State} {tag : Word} {args : List Word} {s : State} (hs : Keeps L s₀ s) (hL : Part.within parts52 L = true) :
    KeepsN L s₀ (execSelftest tag args s) := by
  unfold execSelftest
  with_reducible repeat' first | intro _ | assumption | apply issueCommand_keeps | apply KeepsN.next | exact Part.within_trans (by decide) hL | dsimp only | split

theorem execFiArm_keeps {L : List Part} {s₀ : State} {tag : Word} {args : List Word} {s : State} (hs : Keeps L s₀ s) (hL : Part.within parts52 L = true) :
    KeepsN L s₀ (execFiArm tag args s) := by
  unfold execFiArm
  with_reducible repeat' first | intro _ | assumption | apply issueCommand_keeps | apply KeepsN.next | exact Part.within_trans (by decide) hL | dsimp only | split

theorem execFiDisarm_keeps {L : List Part} {s₀ : State} {tag : Word} {args : List Word} {s : State} (hs : Keeps L s₀ s) (hL : Part.within parts52 L = true) :
    KeepsN L s₀ (execFiDisarm tag args s) := by
  unfold execFiDisarm
  with_reducible repeat' first | intro _ | assumption | apply issueCommand_keeps | apply KeepsN.next | exact Part.within_trans (by decide) hL | dsimp only | split

theorem execFiRead_keeps {L : List Part} {s₀ : State} {tag : Word} {args : List Word} {s : State} (hs : Keeps L s₀ s) (hL : Part.within parts52 L = true) :
    KeepsN L s₀ (execFiRead tag args s) := by
  unfold execFiRead
  with_reducible repeat' first | intro _ | assumption | apply issueCommand_keeps | apply KeepsN.next | exact Part.within_trans (by decide) hL | dsimp only | split

theorem execUartCfg_keeps {L : List Part} {s₀ : State} {tag : Word} {args : List Word} {s : State} (hs : Keeps L s₀ s) (hL : Part.within parts52 L = true) :
    KeepsN L s₀ (execUartCfg tag args s) := by
  unfold execUartCfg
  with_reducible repeat' first | intro _ | assumption | apply issueCommand_keeps | apply KeepsN.next | exact Part.within_trans (by decide) hL | dsimp only | split

theorem execTaskLoad_keeps {L : List Part} {s₀ : State} {tag : Word} {args : List Word} {s : State} (hs : Keeps L s₀ s) (hL : Part.within parts52 L = true) :
    KeepsN L s₀ (execTaskLoad tag args s) := by
  unfold execTaskLoad
  with_reducible repeat' first | intro _ | assumption | apply issueCommand_keeps | apply KeepsN.next | exact Part.within_trans (by decide) hL | dsimp only | split

theorem execModelLoad_keeps {L : List Part} {s₀ : State} {tag : Word} {args : List Word} {s : State} (hs : Keeps L s₀ s) (hL : Part.within parts52 L = true) :
    KeepsN L s₀ (execModelLoad tag args s) := by
  unfold execModelLoad
  with_reducible repeat' first | intro _ | assumption | apply issueCommand_keeps | apply KeepsN.next | exact Part.within_trans (by decide) hL | dsimp only | split

theorem execUnknownOpcode_keeps {L : List Part} {s₀ : State} {op : Word} {tag : Word} {args : List Word} {s : State} (hs : Keeps L s₀ s) (hL : Part.within parts52 L = true) :
    KeepsN L s₀ (execUnknownOpcode op tag args s) := by
  unfold execUnknownOpcode
  with_reducible repeat' first | intro _ | assumption | apply issueCommand_keeps | apply KeepsN.next | exact Part.within_trans (by decide) hL | dsimp only | split

theorem execCommandComplete_keeps {L : List Part} {s₀ : State} {lane : BitVec 2} {s : State} (hs : Keeps L s₀ s) (hL : Part.within parts52 L = true) :
    KeepsN L s₀ (execCommandComplete lane s) := by
  unfold execCommandComplete
  with_reducible repeat' first | intro _ | assumption | apply pump_keeps | apply completeLane_keeps | apply KeepsN.next | exact Part.within_trans (by decide) hL | dsimp only | split

theorem execCalDone_keeps {L : List Part} {s₀ : State} {w : WorkId} {value : W32} {fails : List Nat} {s : State} (hs : Keeps L s₀ s) (hL : Part.within parts38 L = true) :
    KeepsN L s₀ (execCalDone w value fails s) := by
  unfold execCalDone
  with_reducible repeat' first | intro _ | assumption | apply workDone_keeps | apply KeepsN.next | exact Part.within_trans (by decide) hL | dsimp only | split

theorem execQuietPoint_keeps {L : List Part} {s₀ : State} {item : Word} {s : State} (hs : Keeps L s₀ s) (hL : Part.within [.cal] L = true) :
    KeepsN L s₀ (execQuietPoint item s) := by
  unfold execQuietPoint
  with_reducible repeat' first | intro _ | assumption | apply applyCal_keeps | apply KeepsN.next | exact Part.within_trans (by decide) hL | dsimp only | split

theorem execMarchRound_keeps {L : List Part} {s₀ : State} {cells : BitVec 11} {bad : List (BitVec 17)} {s : State} (hs : Keeps L s₀ s) (hL : Part.within parts03 L = true) :
    KeepsN L s₀ (execMarchRound cells bad s) := by
  unfold execMarchRound
  with_reducible repeat' first | intro _ | assumption | apply marchRound_keeps | apply KeepsN.next | exact Part.within_trans (by decide) hL | dsimp only | split

theorem execReorderTimeout_keeps {L : List Part} {s₀ : State} {point : Word} {s : State} (hs : Keeps L s₀ s) (hL : Part.within parts52 L = true) :
    KeepsN L s₀ (execReorderTimeout point s) := by
  unfold execReorderTimeout
  with_reducible repeat' first | intro _ | assumption | apply pump_keeps | apply reorderTimeout_keeps | apply KeepsN.next | exact Part.within_trans (by decide) hL | dsimp only | split

theorem execTraceSegment_keeps {L : List Part} {s₀ : State} {s : State} (hs : Keeps L s₀ s) (hL : Part.within [.fi, .mem] L = true) :
    KeepsN L s₀ (execTraceSegment s) := by
  unfold execTraceSegment
  with_reducible repeat' first | intro _ | assumption | apply closeSegment_keeps | apply Keeps.ite | apply KeepsN.next | exact Part.within_trans (by decide) hL | dsimp only | split

end Sys2Proof.Machine
end

