-- ==== Sys2Proof/Laws/KeepsCoreOps.lean ====
section
/-! SUPPORT. What the operations of Machine/CoreOps.lean keep (Laws/Keeps.lean). -/

namespace Sys2Proof.Machine

theorem putVc_keeps {L : List Part} {s₀ : State} {n : CoreNo} {c : Core} {s : State} (hs : Keeps L s₀ s) (hL : Part.within [.vcs] L = true) :
    Keeps L s₀ (putVc n c s) := by
  unfold putVc
  with_reducible repeat' first | intro _ | assumption | apply State.setVcs_keeps | exact Part.within_trans (by decide) hL | dsimp only | split

theorem beginCore_keeps {L : List Part} {s₀ : State} {n : CoreNo} {t : Task} {s : State} (hs : Keeps L s₀ s) (hL : Part.within [.sch, .vcs, .mem, .free] L = true) :
    Keeps L s₀ (beginCore n t s) := by
  unfold beginCore
  with_reducible repeat' first | intro _ | assumption | apply startService_keeps | apply putX_keeps | apply State.drawN_keeps | apply putVc_keeps | apply Keeps.foldl | apply Keeps.foldlP | exact Part.within_trans (by decide) hL | dsimp only | split

theorem storeBytes_keeps {L : List Part} {s₀ : State} {a : Addr × Nat × W32} {s : State} (hs : Keeps L s₀ s) (hL : Part.within [.mem] L = true) :
    Keeps L s₀ (storeBytes a s) := by
  unfold storeBytes
  with_reducible repeat' first | intro _ | assumption | apply store_keeps | exact Part.within_trans (by decide) hL | dsimp only | split

theorem dmaWord_keeps {L : List Part} {s₀ : State} {n : CoreNo} {d : Dma} {i : Nat} {acc : State × Bool} (hs : Keeps L s₀ acc.1) (hL : Part.within parts36 L = true) :
    Keeps L s₀ (dmaWord n d i acc).1 := by
  unfold dmaWord
  with_reducible repeat' first | intro _ | assumption | apply busRead_keeps | apply State.withMem_keeps | apply State.draw_keeps | apply busWrite_keeps | apply Keeps.ite | apply Keeps.ite_fst | apply Keeps.ite_snd | apply memWriteList_wf | apply memWrite32_wf | apply memWrite_wf | apply memFilter_wf | exact Part.within_trans (by decide) hL | dsimp only | split | (refine Keeps.of_okp (by assumption) ?_; apply busRead_keeps) | (refine Keeps.of_ok (by assumption) ?_; apply busWrite_keeps)

theorem dmaDone_keeps {L : List Part} {s₀ : State} {n : CoreNo} {k : Nat} {s : State} (hs : Keeps L s₀ s) (hL : Part.within parts39 L = true) :
    Keeps L s₀ (dmaDone n k s) := by
  unfold dmaDone
  with_reducible repeat' first | intro _ | assumption | apply dmaWord_keeps | apply putVc_keeps | apply Keeps.foldl | apply Keeps.foldlP | apply Keeps.ite | apply Keeps.ite_fst | apply Keeps.ite_snd | exact Part.within_trans (by decide) hL | dsimp only | split | (refine Keeps.of_fst (by assumption) ?_; apply dmaWord_keeps)

theorem dmaAll_keeps {L : List Part} {s₀ : State} {n : CoreNo} {s : State} (hs : Keeps L s₀ s) (hL : Part.within parts39 L = true) :
    Keeps L s₀ (dmaAll n s) := by
  unfold dmaAll
  with_reducible repeat' first | intro _ | assumption | apply dmaDone_keeps | apply Keeps.foldl | exact Part.within_trans (by decide) hL | dsimp only | split

theorem endWord_keeps {L : List Part} {s₀ : State} {n : CoreNo} {s : State} (hs : Keeps L s₀ s) (hL : Part.within parts39 L = true) :
    Keeps L s₀ (endWord n s) := by
  unfold endWord
  with_reducible repeat' first | intro _ | assumption | apply storeBytes_keeps | apply dmaAll_keeps | apply putVc_keeps | apply taskEnds_keeps | apply State.drawN_keeps | apply Keeps.foldl | apply Keeps.ite | exact Part.within_trans (by decide) hL | dsimp only | split

theorem issue_keeps {L : List Part} {s₀ : State} {i : Iss} {slot : Nat} {pld : Bool} {op : Task → Core → State → OpRes} {s : State} (hop : ∀ a0 a1 t, Keeps L s₀ t → KeepsR L s₀ (op a0 a1 t)) (hop : ∀ a0 a1 t, Keeps L s₀ t → KeepsR L s₀ (op a0 a1 t)) (hs : Keeps L s₀ s) (hL : Part.within parts39 L = true) :
    Keeps L s₀ (issue i slot pld op s) := by
  unfold issue
  with_reducible repeat' first | intro _ | assumption | apply hop | apply hop | apply endWord_keeps | apply coreFault_keeps | apply putVc_keeps | apply Keeps.ite | exact Part.within_trans (by decide) hL | dsimp only | split | (refine Keeps.of_okr (by assumption) ?_; apply hop) | (refine Keeps.of_okr (by assumption) ?_; apply hop)

theorem opBranch_keeps {L : List Part} {s₀ : State} {k : Cond} {t : BitVec 12} {v : Task} {c : Core} {s : State} (hs : Keeps L s₀ s) (hL : Part.within [] L = true) :
    KeepsR L s₀ (opBranch k t v c s) := by
  unfold opBranch
  with_reducible repeat' first | intro _ | assumption | exact KeepsR.error | apply KeepsR.ite | apply KeepsR.ok | apply KeepsR.bind | exact Part.within_trans (by decide) hL | dsimp only | split

theorem opDbnz_keeps {L : List Part} {s₀ : State} {p : BitVec 4} {t : BitVec 12} {v : Task} {c : Core} {s : State} (hs : Keeps L s₀ s) (hL : Part.within [] L = true) :
    KeepsR L s₀ (opDbnz p t v c s) := by
  unfold opDbnz
  with_reducible repeat' first | intro _ | assumption | exact KeepsR.error | apply KeepsR.ite | apply KeepsR.ok | apply KeepsR.bind | exact Part.within_trans (by decide) hL | dsimp only | split

theorem opCall_keeps {L : List Part} {s₀ : State} {t : BitVec 12} {v : Task} {c : Core} {s : State} (hs : Keeps L s₀ s) (hL : Part.within [] L = true) :
    KeepsR L s₀ (opCall t v c s) := by
  unfold opCall
  with_reducible repeat' first | intro _ | assumption | apply Keeps.ite | apply Keeps.ite_fst | apply Keeps.ite_snd | exact KeepsR.error | apply KeepsR.ite | apply KeepsR.ok | apply KeepsR.bind | exact Part.within_trans (by decide) hL | dsimp only | split

theorem opRet_keeps {L : List Part} {s₀ : State} {v : Task} {c : Core} {s : State} (hs : Keeps L s₀ s) (hL : Part.within [] L = true) :
    KeepsR L s₀ (opRet v c s) := by
  unfold opRet
  with_reducible repeat' first | intro _ | assumption | exact KeepsR.error | apply KeepsR.ite | apply KeepsR.ok | apply KeepsR.bind | exact Part.within_trans (by decide) hL | dsimp only | split

theorem opLoop_keeps {L : List Part} {s₀ : State} {count : LoopCount} {last : BitVec 12} {rot : Bool} {tb : Bool} {v : Task} {c : Core} {s : State} (hs : Keeps L s₀ s) (hL : Part.within [] L = true) :
    KeepsR L s₀ (opLoop count last rot tb v c s) := by
  unfold opLoop
  with_reducible repeat' first | intro _ | assumption | apply Keeps.ite | apply Keeps.ite_fst | apply Keeps.ite_snd | exact KeepsR.error | apply KeepsR.ite | apply KeepsR.ok | apply KeepsR.bind | exact Part.within_trans (by decide) hL | dsimp only | split

theorem opMode_keeps {L : List Part} {s₀ : State} {threeBus : Bool} {v : Task} {c : Core} {s : State} (hs : Keeps L s₀ s) (hL : Part.within [] L = true) :
    KeepsR L s₀ (opMode threeBus v c s) := by
  unfold opMode
  with_reducible repeat' first | intro _ | assumption | apply Keeps.ite | apply Keeps.ite_fst | apply Keeps.ite_snd | exact KeepsR.error | apply KeepsR.ite | apply KeepsR.ok | apply KeepsR.bind | exact Part.within_trans (by decide) hL | dsimp only | split

theorem opEnd_keeps {L : List Part} {s₀ : State} {r : TaskFinding} {v : Task} {c : Core} {s : State} (hs : Keeps L s₀ s) (hL : Part.within [] L = true) :
    KeepsR L s₀ (opEnd r v c s) := by
  unfold opEnd
  with_reducible repeat' first | intro _ | assumption | apply Keeps.ite | apply Keeps.ite_fst | apply Keeps.ite_snd | exact KeepsR.error | apply KeepsR.ite | apply KeepsR.ok | apply KeepsR.bind | exact Part.within_trans (by decide) hL | dsimp only | split

theorem opSwi_keeps {L : List Part} {s₀ : State} {v : Task} {c : Core} {s : State} (hs : Keeps L s₀ s) (hL : Part.within [] L = true) :
    KeepsR L s₀ (opSwi v c s) := by
  unfold opSwi
  with_reducible repeat' first | intro _ | assumption | exact KeepsR.error | apply KeepsR.ite | apply KeepsR.ok | apply KeepsR.bind | exact Part.within_trans (by decide) hL | dsimp only | split

theorem opRti_keeps {L : List Part} {s₀ : State} {v : Task} {c : Core} {s : State} (hs : Keeps L s₀ s) (hL : Part.within [] L = true) :
    KeepsR L s₀ (opRti v c s) := by
  unfold opRti
  with_reducible repeat' first | intro _ | assumption | apply Keeps.ite | apply Keeps.ite_fst | apply Keeps.ite_snd | exact KeepsR.error | apply KeepsR.ite | apply KeepsR.ok | apply KeepsR.bind | exact Part.within_trans (by decide) hL | dsimp only | split

theorem opLoad_keeps {L : List Part} {s₀ : State} {n : CoreNo} {m : Nat} {d : LoadDst} {a : AddrMode} {t : Task} {c : Core} {s : State} (hs : Keeps L s₀ s) (hL : Part.within [] L = true) :
    KeepsR L s₀ (opLoad n m d a t c s) := by
  unfold opLoad
  with_reducible repeat' first | intro _ | assumption | exact KeepsR.error | apply KeepsR.ite | apply KeepsR.ok | apply KeepsR.bind | exact Part.within_trans (by decide) hL | dsimp only | split

theorem opStore_keeps {L : List Part} {s₀ : State} {n : CoreNo} {m : Nat} {r : StoreSrc} {a : AddrMode} {t : Task} {c : Core} {s : State} (hs : Keeps L s₀ s) (hL : Part.within [] L = true) :
    KeepsR L s₀ (opStore n m r a t c s) := by
  unfold opStore
  with_reducible repeat' first | intro _ | assumption | exact KeepsR.error | apply KeepsR.ite | apply KeepsR.ok | apply KeepsR.bind | exact Part.within_trans (by decide) hL | dsimp only | split

theorem opPld_keeps {L : List Part} {s₀ : State} {n : CoreNo} {fd : BitVec 6} {a : AddrMode} {t : Task} {c : Core} {s : State} (hs : Keeps L s₀ s) (hL : Part.within [] L = true) :
    KeepsR L s₀ (opPld n fd a t c s) := by
  unfold opPld
  with_reducible repeat' first | intro _ | assumption | apply opLoad_keeps | apply Keeps.ite | apply Keeps.ite_fst | apply Keeps.ite_snd | exact KeepsR.error | apply KeepsR.ite | apply KeepsR.ok | apply KeepsR.bind | exact Part.within_trans (by decide) hL | dsimp only | split | (refine Keeps.of_okr (by assumption) ?_; apply opLoad_keeps)

theorem opXld_keeps {L : List Part} {s₀ : State} {n : CoreNo} {fd : BitVec 6} {e : BitVec 2} {off : BitVec 12} {t : Task} {c : Core} {s : State} (hs : Keeps L s₀ s) (hL : Part.within parts26 L = true) :
    KeepsR L s₀ (opXld n fd e off t c s) := by
  unfold opXld
  with_reducible repeat' first | intro _ | assumption | apply busRead_keeps | apply State.draw_keeps | exact KeepsR.error | apply KeepsR.ite | apply KeepsR.ok | apply KeepsR.bind | exact Part.within_trans (by decide) hL | dsimp only | split | (refine Keeps.of_okp (by assumption) ?_; apply busRead_keeps)

theorem opXst_keeps {L : List Part} {s₀ : State} {n : CoreNo} {fs : BitVec 6} {e : BitVec 2} {off : BitVec 12} {t : Task} {c : Core} {s : State} (hs : Keeps L s₀ s) (hL : Part.within parts33 L = true) :
    KeepsR L s₀ (opXst n fs e off t c s) := by
  unfold opXst
  with_reducible repeat' first | intro _ | assumption | apply busWrite_keeps | exact KeepsR.error | apply KeepsR.ite | apply KeepsR.ok | apply KeepsR.bind | exact Part.within_trans (by decide) hL | dsimp only | split | (refine Keeps.of_ok (by assumption) ?_; apply busWrite_keeps)

theorem opTime_keeps {L : List Part} {s₀ : State} {fd : BitVec 6} {v : Task} {c : Core} {s : State} (hs : Keeps L s₀ s) (hL : Part.within [] L = true) :
    KeepsR L s₀ (opTime fd v c s) := by
  unfold opTime
  with_reducible repeat' first | intro _ | assumption | exact KeepsR.error | apply KeepsR.ite | apply KeepsR.ok | apply KeepsR.bind | exact Part.within_trans (by decide) hL | dsimp only | split

theorem opDma_keeps {L : List Part} {s₀ : State} {n : CoreNo} {k : BitVec 2} {toLocal : Bool} {e : BitVec 2} {p : BitVec 4} {inY : Bool} {cnt : BitVec 4} {irq : Bool} {t : Task} {c : Core} {s : State} (hs : Keeps L s₀ s) (hL : Part.within parts39 L = true) :
    KeepsR L s₀ (opDma n k toLocal e p inY cnt irq t c s) := by
  unfold opDma
  with_reducible repeat' first | intro _ | assumption | apply dmaDone_keeps | apply putVc_keeps | apply Keeps.ite | apply Keeps.ite_fst | apply Keeps.ite_snd | exact KeepsR.error | apply KeepsR.ite | apply KeepsR.ok | apply KeepsR.bind | exact Part.within_trans (by decide) hL | dsimp only | split

theorem opWaitd_keeps {L : List Part} {s₀ : State} {n : CoreNo} {mask : BitVec 4} {v : Task} {c : Core} {s : State} (hs : Keeps L s₀ s) (hL : Part.within parts39 L = true) :
    KeepsR L s₀ (opWaitd n mask v c s) := by
  unfold opWaitd
  with_reducible repeat' first | intro _ | assumption | apply dmaDone_keeps | apply putVc_keeps | apply Keeps.foldl | apply Keeps.foldlP | apply Keeps.ite | apply Keeps.ite_fst | apply Keeps.ite_snd | exact KeepsR.error | apply KeepsR.ite | apply KeepsR.ok | apply KeepsR.bind | exact Part.within_trans (by decide) hL | dsimp only | split

theorem mResult_keeps {L : List Part} {s₀ : State} {d : BitVec 6} {r : FRes} {c : Core} {s : State} (hs : Keeps L s₀ s) (hL : Part.within [] L = true) :
    KeepsR L s₀ (mResult d r c s) := by
  unfold mResult
  with_reducible repeat' first | intro _ | assumption | exact KeepsR.error | apply KeepsR.ite | apply KeepsR.ok | apply KeepsR.bind | exact Part.within_trans (by decide) hL | dsimp only | split

theorem opM1_keeps {L : List Part} {s₀ : State} {f : Bool → W32 → FRes} {d : BitVec 6} {a : BitVec 6} {v : Task} {c : Core} {s : State} (hs : Keeps L s₀ s) (hL : Part.within [] L = true) :
    KeepsR L s₀ (opM1 f d a v c s) := by
  unfold opM1
  with_reducible repeat' first | intro _ | assumption | apply mResult_keeps | exact KeepsR.error | apply KeepsR.ite | apply KeepsR.ok | apply KeepsR.bind | exact Part.within_trans (by decide) hL | dsimp only | split | (refine Keeps.of_okr (by assumption) ?_; apply mResult_keeps)

theorem opM2_keeps {L : List Part} {s₀ : State} {f : Bool → W32 → W32 → FRes} {d : BitVec 6} {a : BitVec 6} {b : BitVec 6} {v : Task} {c : Core} {s : State} (hs : Keeps L s₀ s) (hL : Part.within [] L = true) :
    KeepsR L s₀ (opM2 f d a b v c s) := by
  unfold opM2
  with_reducible repeat' first | intro _ | assumption | apply mResult_keeps | exact KeepsR.error | apply KeepsR.ite | apply KeepsR.ok | apply KeepsR.bind | exact Part.within_trans (by decide) hL | dsimp only | split | (refine Keeps.of_okr (by assumption) ?_; apply mResult_keeps)

theorem opFused_keeps {L : List Part} {s₀ : State} {negate : Bool} {d : BitVec 6} {a : BitVec 6} {b : BitVec 6} {x : BitVec 6} {v : Task} {c : Core} {s : State} (hs : Keeps L s₀ s) (hL : Part.within [] L = true) :
    KeepsR L s₀ (opFused negate d a b x v c s) := by
  unfold opFused
  with_reducible repeat' first | intro _ | assumption | apply mResult_keeps | exact KeepsR.error | apply KeepsR.ite | apply KeepsR.ok | apply KeepsR.bind | exact Part.within_trans (by decide) hL | dsimp only | split | (refine Keeps.of_okr (by assumption) ?_; apply mResult_keeps)

theorem opFmovi_keeps {L : List Part} {s₀ : State} {d : BitVec 6} {v : W32} {v' : Task} {c : Core} {s : State} (hs : Keeps L s₀ s) (hL : Part.within [] L = true) :
    KeepsR L s₀ (opFmovi d v v' c s) := by
  unfold opFmovi
  with_reducible repeat' first | intro _ | assumption | apply mResult_keeps | exact KeepsR.error | apply KeepsR.ite | apply KeepsR.ok | apply KeepsR.bind | exact Part.within_trans (by decide) hL | dsimp only | split | (refine Keeps.of_okr (by assumption) ?_; apply mResult_keeps)

theorem opFcvt_keeps {L : List Part} {s₀ : State} {k : Fcvt} {d : BitVec 6} {a : BitVec 6} {v : Task} {c : Core} {s : State} (hs : Keeps L s₀ s) (hL : Part.within [.free] L = true) :
    KeepsR L s₀ (opFcvt k d a v c s) := by
  unfold opFcvt
  with_reducible repeat' first | intro _ | assumption | apply mResult_keeps | apply State.draw_keeps | exact KeepsR.error | apply KeepsR.ite | apply KeepsR.ok | apply KeepsR.bind | exact Part.within_trans (by decide) hL | dsimp only | split | (refine Keeps.of_okr (by assumption) ?_; apply mResult_keeps)

theorem aResult_keeps {L : List Part} {s₀ : State} {w : Nat} {t : WTarget} {r : Option (BitVec w)} {c : Core} {s : State} (hs : Keeps L s₀ s) (hL : Part.within [.free] L = true) :
    KeepsR L s₀ (aResult t r c s) := by
  unfold aResult
  with_reducible repeat' first | intro _ | assumption | apply State.drawN_keeps | apply Keeps.ite | apply Keeps.ite_fst | apply Keeps.ite_snd | exact KeepsR.error | apply KeepsR.ite | apply KeepsR.ok | apply KeepsR.bind | exact Part.within_trans (by decide) hL | dsimp only | split

theorem opInteger_keeps {L : List Part} {s₀ : State} {o : IntOp} {v : Task} {c : Core} {s : State} (hs : Keeps L s₀ s) (hL : Part.within [.free] L = true) :
    KeepsR L s₀ (opInteger o v c s) := by
  unfold opInteger
  with_reducible repeat' first | intro _ | assumption | apply aResult_keeps | exact KeepsR.error | apply KeepsR.ite | apply KeepsR.ok | apply KeepsR.bind | exact Part.within_trans (by decide) hL | dsimp only | split | (refine Keeps.of_okr (by assumption) ?_; apply aResult_keeps)

theorem opMovc_keeps {L : List Part} {s₀ : State} {write : Bool} {r : CtlReg} {f : BitVec 6} {v : Task} {c : Core} {s : State} (hs : Keeps L s₀ s) (hL : Part.within [] L = true) :
    KeepsR L s₀ (opMovc write r f v c s) := by
  unfold opMovc
  with_reducible repeat' first | intro _ | assumption | apply Keeps.ite | apply Keeps.ite_fst | apply Keeps.ite_snd | exact KeepsR.error | apply KeepsR.ite | apply KeepsR.ok | apply KeepsR.bind | exact Part.within_trans (by decide) hL | dsimp only | split

theorem opFcmp_keeps {L : List Part} {s₀ : State} {a : BitVec 6} {b : BitVec 6} {v : Task} {c : Core} {s : State} (hs : Keeps L s₀ s) (hL : Part.within [] L = true) :
    KeepsR L s₀ (opFcmp a b v c s) := by
  unfold opFcmp
  with_reducible repeat' first | intro _ | assumption | exact KeepsR.error | apply KeepsR.ite | apply KeepsR.ok | apply KeepsR.bind | exact Part.within_trans (by decide) hL | dsimp only | split

theorem opAcs4_keeps {L : List Part} {s₀ : State} {d : BitVec 6} {x : BitVec 6} {b : BitVec 6} {v : Task} {c : Core} {s : State} (hs : Keeps L s₀ s) (hL : Part.within [] L = true) :
    KeepsR L s₀ (opAcs4 d x b v c s) := by
  unfold opAcs4
  with_reducible repeat' first | intro _ | assumption | apply Keeps.foldl | apply Keeps.foldlP | apply Keeps.ite | apply Keeps.ite_fst | apply Keeps.ite_snd | exact KeepsR.error | apply KeepsR.ite | apply KeepsR.ok | apply KeepsR.bind | exact Part.within_trans (by decide) hL | dsimp only | split

theorem opAcsstg_keeps {L : List Part} {s₀ : State} {v : Task} {c : Core} {s : State} (hs : Keeps L s₀ s) (hL : Part.within [] L = true) :
    KeepsR L s₀ (opAcsstg v c s) := by
  unfold opAcsstg
  with_reducible repeat' first | intro _ | assumption | apply Keeps.ite | apply Keeps.ite_fst | apply Keeps.ite_snd | exact KeepsR.error | apply KeepsR.ite | apply KeepsR.ok | apply KeepsR.bind | exact Part.within_trans (by decide) hL | dsimp only | split

theorem opMovtb_keeps {L : List Part} {s₀ : State} {d : BitVec 6} {v : Task} {c : Core} {s : State} (hs : Keeps L s₀ s) (hL : Part.within [] L = true) :
    KeepsR L s₀ (opMovtb d v c s) := by
  unfold opMovtb
  with_reducible repeat' first | intro _ | assumption | exact KeepsR.error | apply KeepsR.ite | apply KeepsR.ok | apply KeepsR.bind | exact Part.within_trans (by decide) hL | dsimp only | split

theorem setPendBit_keeps {L : List Part} {s₀ : State} {n : CoreNo} {b : BitVec 3} {s : State} (hs : Keeps L s₀ s) (hL : Part.within [.vcs] L = true) :
    Keeps L s₀ (setPendBit n b s) := by
  unfold setPendBit
  with_reducible repeat' first | intro _ | assumption | apply putVc_keeps | apply Keeps.ite | exact Part.within_trans (by decide) hL | dsimp only | split

theorem interruptEntry_keeps {L : List Part} {s₀ : State} {n : CoreNo} {s : State} (hs : Keeps L s₀ s) (hL : Part.within [.vcs, .free] L = true) :
    Keeps L s₀ (interruptEntry n s) := by
  unfold interruptEntry
  with_reducible repeat' first | intro _ | assumption | apply State.drawN_keeps | apply putVc_keeps | apply Keeps.ite | exact Part.within_trans (by decide) hL | dsimp only | split

end Sys2Proof.Machine
end

