-- ==== Sys2Proof/Laws/KeepsDeflateRows.lean ====
section
/-! SUPPORT. What the operations of Machine/DeflateRows.lean keep (Laws/Keeps.lean). -/

namespace Sys2Proof.Machine

theorem execProd_keeps {L : List Part} {s₀ : State} {v : BitVec 7} {s : State} (hs : Keeps L s₀ s) (hL : Part.within [.dfl] L = true) :
    KeepsN L s₀ (execProd v s) := by
  unfold execProd
  with_reducible repeat' first | intro _ | assumption | apply writeProd_keeps | apply KeepsN.next | exact Part.within_trans (by decide) hL | dsimp only | split

theorem execAbort_keeps {L : List Part} {s₀ : State} {s : State} (hs : Keeps L s₀ s) (hL : Part.within [.dfl, .mem, .free] L = true) :
    KeepsN L s₀ (execAbort s) := by
  unfold execAbort
  with_reducible repeat' first | intro _ | assumption | apply deflateAbort_keeps | apply KeepsN.next | exact Part.within_trans (by decide) hL | dsimp only | split

theorem execDeflateJob_keeps {L : List Part} {s₀ : State} {s : State} (hs : Keeps L s₀ s) (hL : Part.within [.dfl, .mem, .free] L = true) :
    KeepsN L s₀ (execDeflateJob s) := by
  unfold execDeflateJob
  with_reducible repeat' first | intro _ | assumption | apply deflateJob_keeps | apply KeepsN.next | exact Part.within_trans (by decide) hL | dsimp only | split

end Sys2Proof.Machine
end

