-- ==== Sys2Proof/Laws/KeepsHostRows.lean ====
section
/-! SUPPORT. What the operations of Machine/HostRows.lean keep (Laws/Keeps.lean). -/

namespace Sys2Proof.Machine

theorem execRegisterWrite_keeps {L : List Part} {s₀ : State} {slot : BitVec 6} {w : WriteCycle} {s : State} (hs : Keeps L s₀ s) (hL : Part.within parts52 L = true) :
    KeepsN L s₀ (execRegisterWrite slot w s) := by
  unfold execRegisterWrite
  with_reducible repeat' first | intro _ | assumption | apply hostBoth_keeps | apply hostWrite_keeps | apply Keeps.ite | apply KeepsN.next | exact Part.within_trans (by decide) hL | dsimp only | split

theorem execReadClear_keeps {L : List Part} {s₀ : State} {a : Addr} {s : State} (hs : Keeps L s₀ s) (hL : Part.within parts30 L = true) :
    KeepsN L s₀ (execReadClear a s) := by
  unfold execReadClear
  with_reducible repeat' first | intro _ | assumption | apply readAt_keeps | apply KeepsN.next | exact Part.within_trans (by decide) hL | dsimp only | split

theorem execHkey_keeps {L : List Part} {s₀ : State} {v : Word} {s : State} (hs : Keeps L s₀ s) (hL : Part.within parts52 L = true) :
    KeepsN L s₀ (execHkey v s) := by
  unfold execHkey
  with_reducible repeat' first | intro _ | assumption | apply hostWrite_keeps | apply KeepsN.next | exact Part.within_trans (by decide) hL | dsimp only | split

theorem execCmdFifo_keeps {L : List Part} {s₀ : State} {w : Word} {s : State} (hs : Keeps L s₀ s) (hL : Part.within parts52 L = true) :
    KeepsN L s₀ (execCmdFifo w s) := by
  unfold execCmdFifo
  with_reducible repeat' first | intro _ | assumption | apply hostWrite_keeps | apply KeepsN.next | exact Part.within_trans (by decide) hL | dsimp only | split

theorem execCmdClear_keeps {L : List Part} {s₀ : State} {s : State} (hs : Keeps L s₀ s) (hL : Part.within parts52 L = true) :
    KeepsN L s₀ (execCmdClear s) := by
  unfold execCmdClear
  with_reducible repeat' first | intro _ | assumption | apply hostWrite_keeps | apply KeepsN.next | exact Part.within_trans (by decide) hL | dsimp only | split

theorem execRspFifo_keeps {L : List Part} {s₀ : State} {s : State} (hs : Keeps L s₀ s) (hL : Part.within parts30 L = true) :
    KeepsN L s₀ (execRspFifo s) := by
  unfold execRspFifo
  with_reducible repeat' first | intro _ | assumption | apply readInto_keeps | apply KeepsN.next | exact Part.within_trans (by decide) hL | dsimp only | split

theorem execRemoveHeadResponse_keeps {L : List Part} {s₀ : State} {s : State} (hs : Keeps L s₀ s) (hL : Part.within parts52 L = true) :
    KeepsN L s₀ (execRemoveHeadResponse s) := by
  unfold execRemoveHeadResponse
  with_reducible repeat' first | intro _ | assumption | apply hostWrite_keeps | apply KeepsN.next | exact Part.within_trans (by decide) hL | dsimp only | split

theorem execEvtFifo_keeps {L : List Part} {s₀ : State} {s : State} (hs : Keeps L s₀ s) (hL : Part.within parts30 L = true) :
    KeepsN L s₀ (execEvtFifo s) := by
  unfold execEvtFifo
  with_reducible repeat' first | intro _ | assumption | apply readInto_keeps | apply KeepsN.next | exact Part.within_trans (by decide) hL | dsimp only | split

theorem execApertureRead_keeps {L : List Part} {s₀ : State} {s : State} (hs : Keeps L s₀ s) (hL : Part.within parts30 L = true) :
    KeepsN L s₀ (execApertureRead s) := by
  unfold execApertureRead
  with_reducible repeat' first | intro _ | assumption | apply readInto_keeps | apply KeepsN.next | exact Part.within_trans (by decide) hL | dsimp only | split

theorem execApertureWrite_keeps {L : List Part} {s₀ : State} {d1 : Word} {s : State} (hs : Keeps L s₀ s) (hL : Part.within parts52 L = true) :
    KeepsN L s₀ (execApertureWrite d1 s) := by
  unfold execApertureWrite
  with_reducible repeat' first | intro _ | assumption | apply hostWrite_keeps | apply KeepsN.next | exact Part.within_trans (by decide) hL | dsimp only | split

theorem execTime0Read_keeps {L : List Part} {s₀ : State} {s : State} (hs : Keeps L s₀ s) (hL : Part.within parts30 L = true) :
    KeepsN L s₀ (execTime0Read s) := by
  unfold execTime0Read
  with_reducible repeat' first | intro _ | assumption | apply readInto_keeps | apply KeepsN.next | exact Part.within_trans (by decide) hL | dsimp only | split

theorem execSafeCtlClear_keeps {L : List Part} {s₀ : State} {s : State} (hs : Keeps L s₀ s) (hL : Part.within parts52 L = true) :
    KeepsN L s₀ (execSafeCtlClear s) := by
  unfold execSafeCtlClear
  with_reducible repeat' first | intro _ | assumption | apply hostWrite_keeps | apply KeepsN.next | exact Part.within_trans (by decide) hL | dsimp only | split

theorem execSafeCtlEnter_keeps {L : List Part} {s₀ : State} {s : State} (hs : Keeps L s₀ s) (hL : Part.within parts52 L = true) :
    KeepsN L s₀ (execSafeCtlEnter s) := by
  unfold execSafeCtlEnter
  with_reducible repeat' first | intro _ | assumption | apply hostWrite_keeps | apply KeepsN.next | exact Part.within_trans (by decide) hL | dsimp only | split

theorem execSrcPref_keeps {L : List Part} {s₀ : State} {v : BitVec 3} {s : State} (hs : Keeps L s₀ s) (hL : Part.within parts52 L = true) :
    KeepsN L s₀ (execSrcPref v s) := by
  unfold execSrcPref
  with_reducible repeat' first | intro _ | assumption | apply hostWrite_keeps | apply KeepsN.next | exact Part.within_trans (by decide) hL | dsimp only | split

theorem execSwitchBank_keeps {L : List Part} {s₀ : State} {s : State} (hs : Keeps L s₀ s) (hL : Part.within parts52 L = true) :
    KeepsN L s₀ (execSwitchBank s) := by
  unfold execSwitchBank
  with_reducible repeat' first | intro _ | assumption | apply hostWrite_keeps | apply KeepsN.next | exact Part.within_trans (by decide) hL | dsimp only | split

theorem execHwdogSet_keeps {L : List Part} {s₀ : State} {period : BitVec 12} {s : State} (hs : Keeps L s₀ s) (hL : Part.within parts52 L = true) :
    KeepsN L s₀ (execHwdogSet period s) := by
  unfold execHwdogSet
  with_reducible repeat' first | intro _ | assumption | apply hostWrite_keeps | apply KeepsN.next | exact Part.within_trans (by decide) hL | dsimp only | split

theorem execHwdogKick_keeps {L : List Part} {s₀ : State} {s : State} (hs : Keeps L s₀ s) (hL : Part.within parts52 L = true) :
    KeepsN L s₀ (execHwdogKick s) := by
  unfold execHwdogKick
  with_reducible repeat' first | intro _ | assumption | apply hostWrite_keeps | apply KeepsN.next | exact Part.within_trans (by decide) hL | dsimp only | split

theorem execKill_keeps {L : List Part} {s₀ : State} {s : State} (hs : Keeps L s₀ s) (hL : Part.within parts52 L = true) :
    KeepsN L s₀ (execKill s) := by
  unfold execKill
  with_reducible repeat' first | intro _ | assumption | apply hostWrite_keeps | apply KeepsN.next | exact Part.within_trans (by decide) hL | dsimp only | split

end Sys2Proof.Machine
end

