-- ==== Sys2Proof/Laws/KeepsIsmRows.lean ====
section
/-! SUPPORT. What the operations of Machine/IsmRows.lean keep (Laws/Keeps.lean). -/

namespace Sys2Proof.Machine

theorem received_keeps {L : List Part} {s₀ : State} {h : IsmHdr} {acked : Bool} {b : IsmBody} {s : State} (hs : Keeps L s₀ s) (hL : Part.within parts52 L = true) :
    KeepsN L s₀ (received h acked b s) := by
  unfold received
  with_reducible repeat' first | intro _ | assumption | apply pump_keeps | apply ismArrive_keeps | apply KeepsN.next | exact Part.within_trans (by decide) hL | dsimp only | split

theorem ismOwn_keeps {L : List Part} {s₀ : State} {f : State → State} {s : State} (hf : ∀ t, Keeps L s₀ t → Keeps L s₀ (f t)) (hs : Keeps L s₀ s) (hL : Part.within parts52 L = true) :
    KeepsN L s₀ (ismOwn f s) := by
  unfold ismOwn
  with_reducible repeat' first | intro _ | assumption | apply hf | apply pump_keeps | apply Keeps.ite | apply KeepsN.next | exact Part.within_trans (by decide) hL | dsimp only | split

theorem execLink_keeps {L : List Part} {s₀ : State} {h : IsmHdr} {i : LinkInfo} {acked : Bool} {s : State} (hs : Keeps L s₀ s) (hL : Part.within parts52 L = true) :
    KeepsN L s₀ (execLink h i acked s) := by
  unfold execLink
  with_reducible repeat' first | intro _ | assumption | apply received_keeps | apply KeepsN.next | exact Part.within_trans (by decide) hL | dsimp only | split | (refine Keeps.of_next (by assumption) ?_; apply received_keeps)

theorem execLinkDown_keeps {L : List Part} {s₀ : State} {p : PortNo} {errors : Bool} {s : State} (hs : Keeps L s₀ s) (hL : Part.within parts52 L = true) :
    KeepsN L s₀ (execLinkDown p errors s) := by
  unfold execLinkDown
  with_reducible repeat' first | intro _ | assumption | apply ismOwn_keeps | apply ismDown_keeps | apply Keeps.ite | apply KeepsN.next | exact Part.within_trans (by decide) hL | dsimp only | split | (refine Keeps.of_next (by assumption) ?_; apply ismOwn_keeps)

theorem execAck_keeps {L : List Part} {s₀ : State} {p : PortNo} {lseq : Word} {s : State} (hs : Keeps L s₀ s) (hL : Part.within parts52 L = true) :
    KeepsN L s₀ (execAck p lseq s) := by
  unfold execAck
  with_reducible repeat' first | intro _ | assumption | apply ismOwn_keeps | apply ackArrive_keeps | apply KeepsN.next | exact Part.within_trans (by decide) hL | dsimp only | split | (refine Keeps.of_next (by assumption) ?_; apply ismOwn_keeps)

theorem execAckTimeout_keeps {L : List Part} {s₀ : State} {p : PortNo} {s : State} (hs : Keeps L s₀ s) (hL : Part.within parts52 L = true) :
    KeepsN L s₀ (execAckTimeout p s) := by
  unfold execAckTimeout
  with_reducible repeat' first | intro _ | assumption | apply ismOwn_keeps | apply ackTimeout_keeps | apply KeepsN.next | exact Part.within_trans (by decide) hL | dsimp only | split | (refine Keeps.of_next (by assumption) ?_; apply ismOwn_keeps)

theorem execHeartbeat_keeps {L : List Part} {s₀ : State} {h : IsmHdr} {seq : Word} {state : BitVec 4} {summitOk : Bool} {safe : Bool} {test : Bool} {s : State} (hs : Keeps L s₀ s) (hL : Part.within parts52 L = true) :
    KeepsN L s₀ (execHeartbeat h seq state summitOk safe test s) := by
  unfold execHeartbeat
  with_reducible repeat' first | intro _ | assumption | apply received_keeps | apply KeepsN.next | exact Part.within_trans (by decide) hL | dsimp only | split | (refine Keeps.of_next (by assumption) ?_; apply received_keeps)

theorem execHeartbeatSend_keeps {L : List Part} {s₀ : State} {s : State} (hs : Keeps L s₀ s) (hL : Part.within parts52 L = true) :
    KeepsN L s₀ (execHeartbeatSend s) := by
  unfold execHeartbeatSend
  with_reducible repeat' first | intro _ | assumption | apply ismOwn_keeps | apply sendHeartbeats_keeps | apply KeepsN.next | exact Part.within_trans (by decide) hL | dsimp only | split | (refine Keeps.of_next (by assumption) ?_; apply ismOwn_keeps)

theorem execHbTimeout_keeps {L : List Part} {s₀ : State} {addr : Word} {s : State} (hs : Keeps L s₀ s) (hL : Part.within parts52 L = true) :
    KeepsN L s₀ (execHbTimeout addr s) := by
  unfold execHbTimeout
  with_reducible repeat' first | intro _ | assumption | apply ismOwn_keeps | apply hbTimeout_keeps | apply KeepsN.next | exact Part.within_trans (by decide) hL | dsimp only | split | (refine Keeps.of_next (by assumption) ?_; apply ismOwn_keeps)

theorem execSummitLost_keeps {L : List Part} {s₀ : State} {s : State} (hs : Keeps L s₀ s) (hL : Part.within parts52 L = true) :
    KeepsN L s₀ (execSummitLost s) := by
  unfold execSummitLost
  with_reducible repeat' first | intro _ | assumption | apply ismOwn_keeps | apply summitLost_keeps | apply KeepsN.next | exact Part.within_trans (by decide) hL | dsimp only | split | (refine Keeps.of_next (by assumption) ?_; apply ismOwn_keeps)

theorem execSyncSend_keeps {L : List Part} {s₀ : State} {s : State} (hs : Keeps L s₀ s) (hL : Part.within parts52 L = true) :
    KeepsN L s₀ (execSyncSend s) := by
  unfold execSyncSend
  with_reducible repeat' first | intro _ | assumption | apply ismOwn_keeps | apply sendSync_keeps | apply KeepsN.next | exact Part.within_trans (by decide) hL | dsimp only | split | (refine Keeps.of_next (by assumption) ?_; apply ismOwn_keeps)

theorem execSync_keeps {L : List Part} {s₀ : State} {h : IsmHdr} {t1 : TimePair} {s : State} (hs : Keeps L s₀ s) (hL : Part.within parts52 L = true) :
    KeepsN L s₀ (execSync h t1 s) := by
  unfold execSync
  with_reducible repeat' first | intro _ | assumption | apply received_keeps | apply KeepsN.next | exact Part.within_trans (by decide) hL | dsimp only | split | (refine Keeps.of_next (by assumption) ?_; apply received_keeps)

theorem execDelayReq_keeps {L : List Part} {s₀ : State} {h : IsmHdr} {t3 : TimePair} {s : State} (hs : Keeps L s₀ s) (hL : Part.within parts52 L = true) :
    KeepsN L s₀ (execDelayReq h t3 s) := by
  unfold execDelayReq
  with_reducible repeat' first | intro _ | assumption | apply received_keeps | apply KeepsN.next | exact Part.within_trans (by decide) hL | dsimp only | split | (refine Keeps.of_next (by assumption) ?_; apply received_keeps)

theorem execDelayResp_keeps {L : List Part} {s₀ : State} {h : IsmHdr} {t4 : TimePair} {s : State} (hs : Keeps L s₀ s) (hL : Part.within parts52 L = true) :
    KeepsN L s₀ (execDelayResp h t4 s) := by
  unfold execDelayResp
  with_reducible repeat' first | intro _ | assumption | apply received_keeps | apply KeepsN.next | exact Part.within_trans (by decide) hL | dsimp only | split | (refine Keeps.of_next (by assumption) ?_; apply received_keeps)

theorem execSearchBegin_keeps {L : List Part} {s₀ : State} {h : IsmHdr} {full : Bool} {s : State} (hs : Keeps L s₀ s) (hL : Part.within parts52 L = true) :
    KeepsN L s₀ (execSearchBegin h full s) := by
  unfold execSearchBegin
  with_reducible repeat' first | intro _ | assumption | apply received_keeps | apply KeepsN.next | exact Part.within_trans (by decide) hL | dsimp only | split | (refine Keeps.of_next (by assumption) ?_; apply received_keeps)

theorem execQuery_keeps {L : List Part} {s₀ : State} {h : IsmHdr} {qid : Word} {len : BitVec 6} {bits : Uid} {s : State} (hs : Keeps L s₀ s) (hL : Part.within parts52 L = true) :
    KeepsN L s₀ (execQuery h qid len bits s) := by
  unfold execQuery
  with_reducible repeat' first | intro _ | assumption | apply received_keeps | apply KeepsN.next | exact Part.within_trans (by decide) hL | dsimp only | split | (refine Keeps.of_next (by assumption) ?_; apply received_keeps)

theorem execClaim_keeps {L : List Part} {s₀ : State} {h : IsmHdr} {qid : Word} {uid : Uid} {s : State} (hs : Keeps L s₀ s) (hL : Part.within parts52 L = true) :
    KeepsN L s₀ (execClaim h qid uid s) := by
  unfold execClaim
  with_reducible repeat' first | intro _ | assumption | apply received_keeps | apply KeepsN.next | exact Part.within_trans (by decide) hL | dsimp only | split | (refine Keeps.of_next (by assumption) ?_; apply received_keeps)

theorem execMark_keeps {L : List Part} {s₀ : State} {h : IsmHdr} {uid : Uid} {s : State} (hs : Keeps L s₀ s) (hL : Part.within parts52 L = true) :
    KeepsN L s₀ (execMark h uid s) := by
  unfold execMark
  with_reducible repeat' first | intro _ | assumption | apply received_keeps | apply KeepsN.next | exact Part.within_trans (by decide) hL | dsimp only | split | (refine Keeps.of_next (by assumption) ?_; apply received_keeps)

theorem execSearchEnd_keeps {L : List Part} {s₀ : State} {h : IsmHdr} {s : State} (hs : Keeps L s₀ s) (hL : Part.within parts52 L = true) :
    KeepsN L s₀ (execSearchEnd h s) := by
  unfold execSearchEnd
  with_reducible repeat' first | intro _ | assumption | apply received_keeps | apply KeepsN.next | exact Part.within_trans (by decide) hL | dsimp only | split | (refine Keeps.of_next (by assumption) ?_; apply received_keeps)

theorem execSearchReply_keeps {L : List Part} {s₀ : State} {h : IsmHdr} {a : SearchAnswer} {s : State} (hs : Keeps L s₀ s) (hL : Part.within parts52 L = true) :
    KeepsN L s₀ (execSearchReply h a s) := by
  unfold execSearchReply
  with_reducible repeat' first | intro _ | assumption | apply received_keeps | apply KeepsN.next | exact Part.within_trans (by decide) hL | dsimp only | split | (refine Keeps.of_next (by assumption) ?_; apply received_keeps)

theorem execSearchReplyTimeout_keeps {L : List Part} {s₀ : State} {qid : Word} {s : State} (hs : Keeps L s₀ s) (hL : Part.within parts52 L = true) :
    KeepsN L s₀ (execSearchReplyTimeout qid s) := by
  unfold execSearchReplyTimeout
  with_reducible repeat' first | intro _ | assumption | apply ismOwn_keeps | apply replyTimeout_keeps | apply KeepsN.next | exact Part.within_trans (by decide) hL | dsimp only | split | (refine Keeps.of_next (by assumption) ?_; apply ismOwn_keeps)

theorem execAddress_keeps {L : List Part} {s₀ : State} {h : IsmHdr} {uid : Uid} {addr : Word} {hold : Bool} {release : Bool} {s : State} (hs : Keeps L s₀ s) (hL : Part.within parts52 L = true) :
    KeepsN L s₀ (execAddress h uid addr hold release s) := by
  unfold execAddress
  with_reducible repeat' first | intro _ | assumption | apply ismArrive_keeps | apply pump_keeps | apply standbyDue_keeps | apply KeepsN.next | exact Part.within_trans (by decide) hL | dsimp only | split

theorem execMgmtReq_keeps {L : List Part} {s₀ : State} {h : IsmHdr} {op : Word} {tag : Word} {args : List Word} {s : State} (hs : Keeps L s₀ s) (hL : Part.within parts52 L = true) :
    KeepsN L s₀ (execMgmtReq h op tag args s) := by
  unfold execMgmtReq
  with_reducible repeat' first | intro _ | assumption | apply received_keeps | apply KeepsN.next | exact Part.within_trans (by decide) hL | dsimp only | split | (refine Keeps.of_next (by assumption) ?_; apply received_keeps)

theorem execMgmtRsp_keeps {L : List Part} {s₀ : State} {h : IsmHdr} {status : Word} {tag : Word} {words : List Word} {s : State} (hs : Keeps L s₀ s) (hL : Part.within parts52 L = true) :
    KeepsN L s₀ (execMgmtRsp h status tag words s) := by
  unfold execMgmtRsp
  with_reducible repeat' first | intro _ | assumption | apply received_keeps | apply KeepsN.next | exact Part.within_trans (by decide) hL | dsimp only | split | (refine Keeps.of_next (by assumption) ?_; apply received_keeps)

theorem execForwardTimeout_keeps {L : List Part} {s₀ : State} {s : State} (hs : Keeps L s₀ s) (hL : Part.within parts52 L = true) :
    KeepsN L s₀ (execForwardTimeout s) := by
  unfold execForwardTimeout
  with_reducible repeat' first | intro _ | assumption | apply pump_keeps | apply forwardTimeout_keeps | apply KeepsN.next | exact Part.within_trans (by decide) hL | dsimp only | split

theorem execEvent_keeps {L : List Part} {s₀ : State} {h : IsmHdr} {record : List Word} {s : State} (hs : Keeps L s₀ s) (hL : Part.within parts52 L = true) :
    KeepsN L s₀ (execEvent h record s) := by
  unfold execEvent
  with_reducible repeat' first | intro _ | assumption | apply received_keeps | apply KeepsN.next | exact Part.within_trans (by decide) hL | dsimp only | split | (refine Keeps.of_next (by assumption) ?_; apply received_keeps)

theorem execAttach_keeps {L : List Part} {s₀ : State} {h : IsmHdr} {port : PortNo} {s : State} (hs : Keeps L s₀ s) (hL : Part.within parts52 L = true) :
    KeepsN L s₀ (execAttach h port s) := by
  unfold execAttach
  with_reducible repeat' first | intro _ | assumption | apply received_keeps | apply KeepsN.next | exact Part.within_trans (by decide) hL | dsimp only | split | (refine Keeps.of_next (by assumption) ?_; apply received_keeps)

theorem execLoss_keeps {L : List Part} {s₀ : State} {h : IsmHdr} {port : PortNo} {addr : Option Word} {uid : Uid} {s : State} (hs : Keeps L s₀ s) (hL : Part.within parts52 L = true) :
    KeepsN L s₀ (execLoss h port addr uid s) := by
  unfold execLoss
  with_reducible repeat' first | intro _ | assumption | apply received_keeps | apply KeepsN.next | exact Part.within_trans (by decide) hL | dsimp only | split | (refine Keeps.of_next (by assumption) ?_; apply received_keeps)

theorem execLossPing_keeps {L : List Part} {s₀ : State} {addr : Word} {s : State} (hs : Keeps L s₀ s) (hL : Part.within parts52 L = true) :
    KeepsN L s₀ (execLossPing addr s) := by
  unfold execLossPing
  with_reducible repeat' first | intro _ | assumption | apply ismOwn_keeps | apply lossPing_keeps | apply KeepsN.next | exact Part.within_trans (by decide) hL | dsimp only | split | (refine Keeps.of_next (by assumption) ?_; apply ismOwn_keeps)

theorem execMove_keeps {L : List Part} {s₀ : State} {h : IsmHdr} {port : PortNo} {uid : Uid} {addr : Option Word} {s : State} (hs : Keeps L s₀ s) (hL : Part.within parts52 L = true) :
    KeepsN L s₀ (execMove h port uid addr s) := by
  unfold execMove
  with_reducible repeat' first | intro _ | assumption | apply received_keeps | apply KeepsN.next | exact Part.within_trans (by decide) hL | dsimp only | split | (refine Keeps.of_next (by assumption) ?_; apply received_keeps)

theorem execHbLoss_keeps {L : List Part} {s₀ : State} {h : IsmHdr} {addr : Word} {s : State} (hs : Keeps L s₀ s) (hL : Part.within parts52 L = true) :
    KeepsN L s₀ (execHbLoss h addr s) := by
  unfold execHbLoss
  with_reducible repeat' first | intro _ | assumption | apply received_keeps | apply KeepsN.next | exact Part.within_trans (by decide) hL | dsimp only | split | (refine Keeps.of_next (by assumption) ?_; apply received_keeps)

theorem execMissed_keeps {L : List Part} {s₀ : State} {h : IsmHdr} {uid : Uid} {s : State} (hs : Keeps L s₀ s) (hL : Part.within parts52 L = true) :
    KeepsN L s₀ (execMissed h uid s) := by
  unfold execMissed
  with_reducible repeat' first | intro _ | assumption | apply received_keeps | apply KeepsN.next | exact Part.within_trans (by decide) hL | dsimp only | split | (refine Keeps.of_next (by assumption) ?_; apply received_keeps)

theorem execAddrAck_keeps {L : List Part} {s₀ : State} {h : IsmHdr} {addr : Word} {uid : Uid} {s : State} (hs : Keeps L s₀ s) (hL : Part.within parts52 L = true) :
    KeepsN L s₀ (execAddrAck h addr uid s) := by
  unfold execAddrAck
  with_reducible repeat' first | intro _ | assumption | apply received_keeps | apply KeepsN.next | exact Part.within_trans (by decide) hL | dsimp only | split | (refine Keeps.of_next (by assumption) ?_; apply received_keeps)

theorem execConflict_keeps {L : List Part} {s₀ : State} {h : IsmHdr} {uid : Uid} {parentUid : Uid} {parent : Option Word} {port : PortNo} {s : State} (hs : Keeps L s₀ s) (hL : Part.within parts52 L = true) :
    KeepsN L s₀ (execConflict h uid parentUid parent port s) := by
  unfold execConflict
  with_reducible repeat' first | intro _ | assumption | apply received_keeps | apply KeepsN.next | exact Part.within_trans (by decide) hL | dsimp only | split | (refine Keeps.of_next (by assumption) ?_; apply received_keeps)

theorem execAutoSearchStart_keeps {L : List Part} {s₀ : State} {s : State} (hs : Keeps L s₀ s) (hL : Part.within parts52 L = true) :
    KeepsN L s₀ (execAutoSearchStart s) := by
  unfold execAutoSearchStart
  with_reducible repeat' first | intro _ | assumption | apply ismOwn_keeps | apply autoSearch_keeps | apply KeepsN.next | exact Part.within_trans (by decide) hL | dsimp only | split | (refine Keeps.of_next (by assumption) ?_; apply ismOwn_keeps)

theorem execPing_keeps {L : List Part} {s₀ : State} {h : IsmHdr} {seq : Word} {s : State} (hs : Keeps L s₀ s) (hL : Part.within parts52 L = true) :
    KeepsN L s₀ (execPing h seq s) := by
  unfold execPing
  with_reducible repeat' first | intro _ | assumption | apply received_keeps | apply KeepsN.next | exact Part.within_trans (by decide) hL | dsimp only | split | (refine Keeps.of_next (by assumption) ?_; apply received_keeps)

theorem execPingReply_keeps {L : List Part} {s₀ : State} {h : IsmHdr} {seq : Word} {imageStatus : Word} {s : State} (hs : Keeps L s₀ s) (hL : Part.within parts52 L = true) :
    KeepsN L s₀ (execPingReply h seq imageStatus s) := by
  unfold execPingReply
  with_reducible repeat' first | intro _ | assumption | apply received_keeps | apply KeepsN.next | exact Part.within_trans (by decide) hL | dsimp only | split | (refine Keeps.of_next (by assumption) ?_; apply received_keeps)

theorem execPingTimeout_keeps {L : List Part} {s₀ : State} {addr : Word} {s : State} (hs : Keeps L s₀ s) (hL : Part.within parts52 L = true) :
    KeepsN L s₀ (execPingTimeout addr s) := by
  unfold execPingTimeout
  with_reducible repeat' first | intro _ | assumption | apply ismOwn_keeps | apply pingTimeout_keeps | apply KeepsN.next | exact Part.within_trans (by decide) hL | dsimp only | split | (refine Keeps.of_next (by assumption) ?_; apply ismOwn_keeps)

theorem execBcast_keeps {L : List Part} {s₀ : State} {h : IsmHdr} {op : Word} {tag : Word} {args : List Word} {deadline : W32} {s : State} (hs : Keeps L s₀ s) (hL : Part.within parts52 L = true) :
    KeepsN L s₀ (execBcast h op tag args deadline s) := by
  unfold execBcast
  with_reducible repeat' first | intro _ | assumption | apply received_keeps | apply KeepsN.next | exact Part.within_trans (by decide) hL | dsimp only | split | (refine Keeps.of_next (by assumption) ?_; apply received_keeps)

theorem execBcastReply_keeps {L : List Part} {s₀ : State} {h : IsmHdr} {c : BcastCounts} {s : State} (hs : Keeps L s₀ s) (hL : Part.within parts52 L = true) :
    KeepsN L s₀ (execBcastReply h c s) := by
  unfold execBcastReply
  with_reducible repeat' first | intro _ | assumption | apply received_keeps | apply KeepsN.next | exact Part.within_trans (by decide) hL | dsimp only | split | (refine Keeps.of_next (by assumption) ?_; apply received_keeps)

theorem execBcastDeadline_keeps {L : List Part} {s₀ : State} {s : State} (hs : Keeps L s₀ s) (hL : Part.within parts52 L = true) :
    KeepsN L s₀ (execBcastDeadline s) := by
  unfold execBcastDeadline
  with_reducible repeat' first | intro _ | assumption | apply pump_keeps | apply bcastDeadline_keeps | apply KeepsN.next | exact Part.within_trans (by decide) hL | dsimp only | split

end Sys2Proof.Machine
end

