-- ==== Sys2Proof/Laws/KeepsNetwork.lean ====
section
/-! SUPPORT. What the operations of Machine/Network.lean keep (Laws/Keeps.lean). -/

namespace Sys2Proof.Machine

theorem execHighwayAligned_keeps {L : List Part} {s₀ : State} {n : HwyNo} {s : State} (hs : Keeps L s₀ s) (hL : Part.within [.host, .tdm, .ism, .fi] L = true) :
    KeepsN L s₀ (execHighwayAligned n s) := by
  unfold execHighwayAligned
  with_reducible repeat' first | intro _ | assumption | apply alignHwy_keeps | apply KeepsN.next | exact Part.within_trans (by decide) hL | dsimp only | split

theorem execAlignmentLoss_keeps {L : List Part} {s₀ : State} {n : HwyNo} {cause : AlignCause} {s : State} (hs : Keeps L s₀ s) (hL : Part.within [.host, .tdm, .ism, .fi] L = true) :
    KeepsN L s₀ (execAlignmentLoss n cause s) := by
  unfold execAlignmentLoss
  with_reducible repeat' first | intro _ | assumption | apply loseHwy_keeps | apply KeepsN.next | exact Part.within_trans (by decide) hL | dsimp only | split

theorem execHighwayConfigApply_keeps {L : List Part} {s₀ : State} {n : HwyNo} {s : State} (hs : Keeps L s₀ s) (hL : Part.within [.host, .tdm, .ism, .cal, .fi] L = true) :
    KeepsN L s₀ (execHighwayConfigApply n s) := by
  unfold execHighwayConfigApply
  with_reducible repeat' first | intro _ | assumption | apply applyHwy_keeps | apply KeepsN.next | exact Part.within_trans (by decide) hL | dsimp only | split

theorem execSlip_keeps {L : List Part} {s₀ : State} {n : HwyNo} {transmit : Bool} {fast : Bool} {s : State} (hs : Keeps L s₀ s) (hL : Part.within [.tdm] L = true) :
    KeepsN L s₀ (execSlip n transmit fast s) := by
  unfold execSlip
  with_reducible repeat' first | intro _ | assumption | apply slipHwy_keeps | apply KeepsN.next | exact Part.within_trans (by decide) hL | dsimp only | split

theorem execHighwayFrame_keeps {L : List Part} {s₀ : State} {n : HwyNo} {f : HwyFrame} {s : State} (hs : Keeps L s₀ s) (hL : Part.within [.host, .led, .tdm, .ism, .fi] L = true) :
    KeepsN L s₀ (execHighwayFrame n f s) := by
  unfold execHighwayFrame
  with_reducible repeat' first | intro _ | assumption | apply frameHwy_keeps | apply KeepsN.next | exact Part.within_trans (by decide) hL | dsimp only | split

theorem execTransceiverRemoved_keeps {L : List Part} {s₀ : State} {p : PortNo} {overcurrent : Bool} {s : State} (hs : Keeps L s₀ s) (hL : Part.within [.host, .sw, .ism, .fi] L = true) :
    KeepsN L s₀ (execTransceiverRemoved p overcurrent s) := by
  unfold execTransceiverRemoved
  with_reducible repeat' first | intro _ | assumption | apply cageRemoved_keeps | apply KeepsN.next | exact Part.within_trans (by decide) hL | dsimp only | split

theorem execTransceiverInserted_keeps {L : List Part} {s₀ : State} {p : PortNo} {powerLevel1 : Bool} {memory : SfpMemory} {s : State} (hs : Keeps L s₀ s) (hL : Part.within [.host, .sw, .ism, .fi] L = true) :
    KeepsN L s₀ (execTransceiverInserted p powerLevel1 memory s) := by
  unfold execTransceiverInserted
  with_reducible repeat' first | intro _ | assumption | apply cageInserted_keeps | apply KeepsN.next | exact Part.within_trans (by decide) hL | dsimp only | split

theorem execEthPortDown_keeps {L : List Part} {s₀ : State} {p : PortNo} {noCommonMode : Bool} {s : State} (hs : Keeps L s₀ s) (hL : Part.within [.host, .sw, .ism, .cal, .fi] L = true) :
    KeepsN L s₀ (execEthPortDown p noCommonMode s) := by
  unfold execEthPortDown
  with_reducible repeat' first | intro _ | assumption | apply portDown_keeps | apply Keeps.ite | apply KeepsN.next | exact Part.within_trans (by decide) hL | dsimp only | split

theorem execEthPortUp_keeps {L : List Part} {s₀ : State} {p : PortNo} {speed : BitVec 3} {s : State} (hs : Keeps L s₀ s) (hL : Part.within parts06 L = true) :
    KeepsN L s₀ (execEthPortUp p speed s) := by
  unfold execEthPortUp
  with_reducible repeat' first | intro _ | assumption | apply portUp_keeps | apply KeepsN.next | exact Part.within_trans (by decide) hL | dsimp only | split

theorem execFrameReceive_keeps {L : List Part} {s₀ : State} {p : PortNo} {frame : List Byte} {s : State} (hs : Keeps L s₀ s) (hL : Part.within parts21 L = true) :
    KeepsN L s₀ (execFrameReceive p frame s) := by
  unfold execFrameReceive
  with_reducible repeat' first | intro _ | assumption | apply frameArrive_keeps | apply Keeps.ite | apply KeepsN.next | exact Part.within_trans (by decide) hL | dsimp only | split

theorem execFrameTransmitDone_keeps {L : List Part} {s₀ : State} {p : PortNo} {s : State} (hs : Keeps L s₀ s) (hL : Part.within parts06 L = true) :
    KeepsN L s₀ (execFrameTransmitDone p s) := by
  unfold execFrameTransmitDone
  with_reducible repeat' first | intro _ | assumption | apply txDone_keeps | apply KeepsN.next | exact Part.within_trans (by decide) hL | dsimp only | split

theorem execMacAgeing_keeps {L : List Part} {s₀ : State} {vid : BitVec 12} {mac : Mac} {s : State} (hs : Keeps L s₀ s) (hL : Part.within [.sw] L = true) :
    KeepsN L s₀ (execMacAgeing vid mac s) := by
  unfold execMacAgeing
  with_reducible repeat' first | exact id | (intro h; simpa only [setAt, List.length_set, List.length_map, List.length_replicate] using h) | exact fun _ => rfl | with_unfolding_all exact id | intro _ | assumption | apply State.setSw_keeps | apply KeepsN.next | exact Part.within_trans (by decide) hL | dsimp only | split

theorem execNeighbourRetry_keeps {L : List Part} {s₀ : State} {p : PortNo} {ip : Ip} {s : State} (hs : Keeps L s₀ s) (hL : Part.within parts06 L = true) :
    KeepsN L s₀ (execNeighbourRetry p ip s) := by
  unfold execNeighbourRetry
  with_reducible repeat' first | intro _ | assumption | apply retryNeighbour_keeps | apply KeepsN.next | exact Part.within_trans (by decide) hL | dsimp only | split

theorem execNeighbourRefresh_keeps {L : List Part} {s₀ : State} {p : PortNo} {ip : Ip} {s : State} (hs : Keeps L s₀ s) (hL : Part.within parts06 L = true) :
    KeepsN L s₀ (execNeighbourRefresh p ip s) := by
  unfold execNeighbourRefresh
  with_reducible repeat' first | intro _ | assumption | apply refreshNeighbour_keeps | apply KeepsN.next | exact Part.within_trans (by decide) hL | dsimp only | split

theorem execRouterCommit_keeps {L : List Part} {s₀ : State} {p : PortNo} {v : W32} {s : State} (hs : Keeps L s₀ s) (hL : Part.within [.sw] L = true) :
    KeepsN L s₀ (execRouterCommit p v s) := by
  unfold execRouterCommit
  with_reducible repeat' first | intro _ | assumption | apply writeRouter_keeps | apply KeepsN.next | exact Part.within_trans (by decide) hL | dsimp only | split

theorem execSenderReport_keeps {L : List Part} {s₀ : State} {c : ChanNo} {s : State} (hs : Keeps L s₀ s) (hL : Part.within parts13 L = true) :
    KeepsN L s₀ (execSenderReport c s) := by
  unfold execSenderReport
  with_reducible repeat' first | intro _ | assumption | apply senderReport_keeps | apply KeepsN.next | exact Part.within_trans (by decide) hL | dsimp only | split

theorem execKeysTimeout_keeps {L : List Part} {s₀ : State} {c : ChanNo} {s : State} (hs : Keeps L s₀ s) (hL : Part.within [.host, .led, .ism, .fi] L = true) :
    KeepsN L s₀ (execKeysTimeout c s) := by
  unfold execKeysTimeout
  with_reducible repeat' first | intro _ | assumption | apply keysTimeout_keeps | apply KeepsN.next | exact Part.within_trans (by decide) hL | dsimp only | split

theorem execOldContextExpiry_keeps {L : List Part} {s₀ : State} {c : ChanNo} {s : State} (hs : Keeps L s₀ s) (hL : Part.within [.led] L = true) :
    KeepsN L s₀ (execOldContextExpiry c s) := by
  unfold execOldContextExpiry
  with_reducible repeat' first | intro _ | assumption | apply modChan_keeps | apply KeepsN.next | exact Part.within_trans (by decide) hL | dsimp only | split

end Sys2Proof.Machine
end

