-- ==== Sys2Proof/Laws/KeepsSafetyRows.lean ====
section
/-! SUPPORT. What the operations of Machine/SafetyRows.lean keep (Laws/Keeps.lean). -/

namespace Sys2Proof.Machine

theorem whileAwake_keeps {L : List Part} {s₀ : State} {f : State → State} {s : State} (hf : ∀ t, Keeps L s₀ t → Keeps L s₀ (f t)) (hs : Keeps L s₀ s) (hL : Part.within [] L = true) :
    KeepsN L s₀ (whileAwake f s) := by
  unfold whileAwake
  with_reducible repeat' first | intro _ | assumption | apply hf | apply Keeps.ite | apply KeepsN.next | exact Part.within_trans (by decide) hL | dsimp only | split

theorem execComparatorTest_keeps {L : List Part} {s₀ : State} {flagged : Bool} {other : Bool} {s : State} (hs : Keeps L s₀ s) (hL : Part.within parts34 L = true) :
    KeepsN L s₀ (execComparatorTest flagged other s) := by
  unfold execComparatorTest
  with_reducible repeat' first | intro _ | assumption | apply whileAwake_keeps | apply comparatorTest_keeps | apply KeepsN.next | exact Part.within_trans (by decide) hL | dsimp only | split | (refine Keeps.of_next (by assumption) ?_; apply whileAwake_keeps)

theorem execCheckerTest_keeps {L : List Part} {s₀ : State} {pass : Bool} {s : State} (hs : Keeps L s₀ s) (hL : Part.within parts34 L = true) :
    KeepsN L s₀ (execCheckerTest pass s) := by
  unfold execCheckerTest
  with_reducible repeat' first | intro _ | assumption | apply whileAwake_keeps | apply checkerTest_keeps | apply KeepsN.next | exact Part.within_trans (by decide) hL | dsimp only | split | (refine Keeps.of_next (by assumption) ?_; apply whileAwake_keeps)

theorem execScrub_keeps {L : List Part} {s₀ : State} {t : DupTable} {d : Option TableDiff} {entry : BitVec 13} {s : State} (hs : Keeps L s₀ s) (hL : Part.within parts34 L = true) :
    KeepsN L s₀ (execScrub t d entry s) := by
  unfold execScrub
  with_reducible repeat' first | intro _ | assumption | apply whileAwake_keeps | apply scrub_keeps | apply KeepsN.next | exact Part.within_trans (by decide) hL | dsimp only | split | (refine Keeps.of_next (by assumption) ?_; apply whileAwake_keeps)

theorem execLockstepMismatch_keeps {L : List Part} {s₀ : State} {s : State} (hs : Keeps L s₀ s) (hL : Part.within parts34 L = true) :
    KeepsN L s₀ (execLockstepMismatch s) := by
  unfold execLockstepMismatch
  with_reducible repeat' first | intro _ | assumption | apply whileAwake_keeps | apply lockstepMismatch_keeps | apply KeepsN.next | exact Part.within_trans (by decide) hL | dsimp only | split | (refine Keeps.of_next (by assumption) ?_; apply whileAwake_keeps)

theorem execEccUncorrectable_keeps {L : List Part} {s₀ : State} {p : EccPlace} {s : State} (hs : Keeps L s₀ s) (hL : Part.within parts40 L = true) :
    KeepsN L s₀ (execEccUncorrectable p s) := by
  unfold execEccUncorrectable
  with_reducible repeat' first | intro _ | assumption | apply whileAwake_keeps | apply eccError_keeps | apply KeepsN.next | exact Part.within_trans (by decide) hL | dsimp only | split | (refine Keeps.of_next (by assumption) ?_; apply whileAwake_keeps)

theorem execEccCorrected_keeps {L : List Part} {s₀ : State} {s : State} (hs : Keeps L s₀ s) (hL : Part.within [.saf] L = true) :
    KeepsN L s₀ (execEccCorrected s) := by
  unfold execEccCorrected
  with_reducible repeat' first | intro _ | assumption | apply whileAwake_keeps | apply State.setSaf_keeps | apply KeepsN.next | exact Part.within_trans (by decide) hL | dsimp only | split | (refine Keeps.of_next (by assumption) ?_; apply whileAwake_keeps)

theorem execVoltage_keeps {L : List Part} {s₀ : State} {s : State} (hs : Keeps L s₀ s) (hL : Part.within parts34 L = true) :
    KeepsN L s₀ (execVoltage s) := by
  unfold execVoltage
  with_reducible repeat' first | intro _ | assumption | apply whileAwake_keeps | apply moduleSafe_keeps | apply KeepsN.next | exact Part.within_trans (by decide) hL | dsimp only | split | (refine Keeps.of_next (by assumption) ?_; apply whileAwake_keeps)

theorem execDieTemp_keeps {L : List Part} {s₀ : State} {celsius : BitVec 9} {s : State} (hs : Keeps L s₀ s) (hL : Part.within parts34 L = true) :
    KeepsN L s₀ (execDieTemp celsius s) := by
  unfold execDieTemp
  with_reducible repeat' first | intro _ | assumption | apply whileAwake_keeps | apply moduleSafe_keeps | apply Keeps.ite | apply KeepsN.next | exact Part.within_trans (by decide) hL | dsimp only | split | (refine Keeps.of_next (by assumption) ?_; apply whileAwake_keeps)

end Sys2Proof.Machine
end

