-- ==== Sys2Proof/Laws/KeepsScheduler.lean ====
section
/-! SUPPORT. What the operations of Machine/Scheduler.lean keep (Laws/Keeps.lean). -/

namespace Sys2Proof.Machine

theorem request_keeps {L : List Part} {s₀ : State} {m : Master} {p : ReqPort} {s : State} (hs : Keeps L s₀ s) (hL : Part.within [.led, .sch, .free] L = true) :
    Keeps L s₀ (request m p s) := by
  unfold request
  with_reducible repeat' first | intro _ | assumption | apply reqGo_keeps | apply putReq_keeps | apply Keeps.ite | exact Part.within_trans (by decide) hL | dsimp only | split

theorem execCreate_keeps {L : List Part} {s₀ : State} {m : Master} {flow : Word} {cls : Byte} {req : BitVec 4} {opt : BitVec 4} {seq : Word} {arg0 : W32} {arg1 : W32} {s : State} (hs : Keeps L s₀ s) (hL : Part.within [.led, .sch, .free] L = true) :
    KeepsN L s₀ (execCreate m flow cls req opt seq arg0 arg1 s) := by
  unfold execCreate
  with_reducible repeat' first | intro _ | assumption | apply request_keeps | apply KeepsN.next | exact Part.within_trans (by decide) hL | dsimp only | split

theorem execToken_keeps {L : List Part} {s₀ : State} {m : Master} {handle : W32} {slot : BitVec 2} {s : State} (hs : Keeps L s₀ s) (hL : Part.within [.led, .sch, .free] L = true) :
    KeepsN L s₀ (execToken m handle slot s) := by
  unfold execToken
  with_reducible repeat' first | intro _ | assumption | apply request_keeps | apply KeepsN.next | exact Part.within_trans (by decide) hL | dsimp only | split

theorem execAlmanac_keeps {L : List Part} {s₀ : State} {m : Master} {list : BitVec 2} {handle : W32} {slot : BitVec 2} {delay : BitVec 20} {period : BitVec 20} {s : State} (hs : Keeps L s₀ s) (hL : Part.within [.led, .sch, .free] L = true) :
    KeepsN L s₀ (execAlmanac m list handle slot delay period s) := by
  unfold execAlmanac
  with_reducible repeat' first | intro _ | assumption | apply request_keeps | apply KeepsN.next | exact Part.within_trans (by decide) hL | dsimp only | split

theorem execSetLevel_keeps {L : List Part} {s₀ : State} {m : Master} {flow : Word} {level : BitVec 3} {s : State} (hs : Keeps L s₀ s) (hL : Part.within [.led, .sch, .free] L = true) :
    KeepsN L s₀ (execSetLevel m flow level s) := by
  unfold execSetLevel
  with_reducible repeat' first | intro _ | assumption | apply request_keeps | apply KeepsN.next | exact Part.within_trans (by decide) hL | dsimp only | split

theorem execReserve_keeps {L : List Part} {s₀ : State} {m : Master} {flow : Word} {lu : BitVec 18} {s : State} (hs : Keeps L s₀ s) (hL : Part.within [.led, .sch, .free] L = true) :
    KeepsN L s₀ (execReserve m flow lu s) := by
  unfold execReserve
  with_reducible repeat' first | intro _ | assumption | apply request_keeps | apply KeepsN.next | exact Part.within_trans (by decide) hL | dsimp only | split

theorem execCancel_keeps {L : List Part} {s₀ : State} {m : Master} {flow : Word} {s : State} (hs : Keeps L s₀ s) (hL : Part.within [.led, .sch, .free] L = true) :
    KeepsN L s₀ (execCancel m flow s) := by
  unfold execCancel
  with_reducible repeat' first | intro _ | assumption | apply request_keeps | apply KeepsN.next | exact Part.within_trans (by decide) hL | dsimp only | split

theorem execGraphRetry_keeps {L : List Part} {s₀ : State} {c : ChanNo} {s : State} (hs : Keeps L s₀ s) (hL : Part.within [.led, .sch, .free] L = true) :
    KeepsN L s₀ (execGraphRetry c s) := by
  unfold execGraphRetry
  with_reducible repeat' first | intro _ | assumption | apply graphRetry_keeps | apply KeepsN.next | exact Part.within_trans (by decide) hL | dsimp only | split

theorem execPointChange_keeps {L : List Part} {s₀ : State} {n : CoreNo} {s : State} (hs : Keeps L s₀ s) (hL : Part.within [.sch] L = true) :
    KeepsN L s₀ (execPointChange n s) := by
  unfold execPointChange
  with_reducible repeat' first | intro _ | assumption | apply putCore_keeps | apply Keeps.ite | apply KeepsN.next | exact Part.within_trans (by decide) hL | dsimp only | split

theorem execPlayout_keeps {L : List Part} {s₀ : State} {c : ChanNo} {s : State} (hs : Keeps L s₀ s) (hL : Part.within parts37 L = true) :
    KeepsN L s₀ (execPlayout c s) := by
  unfold execPlayout
  with_reducible repeat' first | intro _ | assumption | apply playout_keeps | apply KeepsN.next | exact Part.within_trans (by decide) hL | dsimp only | split

theorem execEgressTransmit_keeps {L : List Part} {s₀ : State} {c : ChanNo} {s : State} (hs : Keeps L s₀ s) (hL : Part.within parts34 L = true) :
    KeepsN L s₀ (execEgressTransmit c s) := by
  unfold execEgressTransmit
  with_reducible repeat' first | intro _ | assumption | apply egress_keeps | apply KeepsN.next | exact Part.within_trans (by decide) hL | dsimp only | split

theorem execShedding_keeps {L : List Part} {s₀ : State} {s : State} (hs : Keeps L s₀ s) (hL : Part.within parts28 L = true) :
    KeepsN L s₀ (execShedding s) := by
  unfold execShedding
  with_reducible repeat' first | intro _ | assumption | apply shed_keeps | apply KeepsN.next | exact Part.within_trans (by decide) hL | dsimp only | split

end Sys2Proof.Machine
end

