-- ==== Sys2Proof/Laws/KeepsSerial.lean ====
section
/-! SUPPORT. What the operations of Machine/Serial.lean keep (Laws/Keeps.lean). -/

namespace Sys2Proof.Machine

theorem execUartDataWrite_keeps {L : List Part} {s₀ : State} {n : BitVec 3} {c : Byte} {s : State} (hs : Keeps L s₀ s) (hL : Part.within [.uarts] L = true) :
    KeepsN L s₀ (execUartDataWrite n c s) := by
  unfold execUartDataWrite
  with_reducible repeat' first | intro _ | assumption | apply onUart_keeps | apply KeepsN.next | exact Part.within_trans (by decide) hL | dsimp only | split

theorem execUartDataRead_keeps {L : List Part} {s₀ : State} {n : BitVec 3} {s : State} (hs : Keeps L s₀ s) (hL : Part.within [.host, .uarts] L = true) :
    KeepsN L s₀ (execUartDataRead n s) := by
  unfold execUartDataRead
  with_reducible repeat' first | intro _ | assumption | apply uartPop_keeps | apply State.setHost_keeps | apply KeepsN.next | exact Part.within_trans (by decide) hL | dsimp only | split | (refine Keeps.of_fst (by assumption) ?_; apply uartPop_keeps)

theorem execBrk_keeps {L : List Part} {s₀ : State} {n : BitVec 3} {on : Bool} {s : State} (hs : Keeps L s₀ s) (hL : Part.within [.uarts] L = true) :
    KeepsN L s₀ (execBrk n on s) := by
  unfold execBrk
  with_reducible repeat' first | intro _ | assumption | apply onUart_keeps | apply KeepsN.next | exact Part.within_trans (by decide) hL | dsimp only | split

theorem execRst_keeps {L : List Part} {s₀ : State} {n : BitVec 3} {level : Bool} {s : State} (hs : Keeps L s₀ s) (hL : Part.within [.uarts] L = true) :
    KeepsN L s₀ (execRst n level s) := by
  unfold execRst
  with_reducible repeat' first | intro _ | assumption | apply onUart_keeps | apply KeepsN.next | exact Part.within_trans (by decide) hL | dsimp only | split

theorem execClken_keeps {L : List Part} {s₀ : State} {n : BitVec 3} {on : Bool} {s : State} (hs : Keeps L s₀ s) (hL : Part.within [.uarts] L = true) :
    KeepsN L s₀ (execClken n on s) := by
  unfold execClken
  with_reducible repeat' first | intro _ | assumption | apply onUart_keeps | apply KeepsN.next | exact Part.within_trans (by decide) hL | dsimp only | split

theorem execTxflush_keeps {L : List Part} {s₀ : State} {n : BitVec 3} {s : State} (hs : Keeps L s₀ s) (hL : Part.within [.uarts] L = true) :
    KeepsN L s₀ (execTxflush n s) := by
  unfold execTxflush
  with_reducible repeat' first | intro _ | assumption | apply onUart_keeps | apply KeepsN.next | exact Part.within_trans (by decide) hL | dsimp only | split

theorem execRxflush_keeps {L : List Part} {s₀ : State} {n : BitVec 3} {s : State} (hs : Keeps L s₀ s) (hL : Part.within [.uarts] L = true) :
    KeepsN L s₀ (execRxflush n s) := by
  unfold execRxflush
  with_reducible repeat' first | intro _ | assumption | apply onUart_keeps | apply KeepsN.next | exact Part.within_trans (by decide) hL | dsimp only | split

theorem execCharacterReceived_keeps {L : List Part} {s₀ : State} {n : BitVec 3} {bits : List Bool} {s : State} (hs : Keeps L s₀ s) (hL : Part.within [.uarts] L = true) :
    KeepsN L s₀ (execCharacterReceived n bits s) := by
  unfold execCharacterReceived
  with_reducible repeat' first | intro _ | assumption | apply onUart_keeps | apply Keeps.ite | apply KeepsN.next | exact Part.within_trans (by decide) hL | dsimp only | split

theorem execCharacterSent_keeps {L : List Part} {s₀ : State} {n : BitVec 3} {errorSignal : Bool} {s : State} (hs : Keeps L s₀ s) (hL : Part.within [.uarts] L = true) :
    KeepsN L s₀ (execCharacterSent n errorSignal s) := by
  unfold execCharacterSent
  with_reducible repeat' first | intro _ | assumption | apply onUart_keeps | apply KeepsN.next | exact Part.within_trans (by decide) hL | dsimp only | split

theorem execDeTail_keeps {L : List Part} {s₀ : State} {n : BitVec 3} {s : State} (hs : Keeps L s₀ s) (hL : Part.within [.uarts] L = true) :
    KeepsN L s₀ (execDeTail n s) := by
  unfold execDeTail
  with_reducible repeat' first | intro _ | assumption | apply onUart_keeps | apply Keeps.ite | apply KeepsN.next | exact Part.within_trans (by decide) hL | dsimp only | split

theorem execCollision_keeps {L : List Part} {s₀ : State} {n : BitVec 3} {s : State} (hs : Keeps L s₀ s) (hL : Part.within [.uarts] L = true) :
    KeepsN L s₀ (execCollision n s) := by
  unfold execCollision
  with_reducible repeat' first | intro _ | assumption | apply onUart_keeps | apply KeepsN.next | exact Part.within_trans (by decide) hL | dsimp only | split

end Sys2Proof.Machine
end

