-- ==== Sys2Proof/Laws/KeepsTensorRows.lean ====
section
/-! SUPPORT. What the operations of Machine/TensorRows.lean keep (Laws/Keeps.lean). -/

namespace Sys2Proof.Machine

theorem execGemm_keeps {L : List Part} {s₀ : State} {e : BitVec 1} {d : JobDesc} {s : State} (hs : Keeps L s₀ s) (hL : Part.within parts20 L = true) :
    KeepsN L s₀ (execGemm e d s) := by
  unfold execGemm
  with_reducible repeat' first | intro _ | assumption | apply runTensor_keeps | apply KeepsN.next | exact Part.within_trans (by decide) hL | dsimp only | split

theorem execGemmAcc_keeps {L : List Part} {s₀ : State} {e : BitVec 1} {d : JobDesc} {s : State} (hs : Keeps L s₀ s) (hL : Part.within parts20 L = true) :
    KeepsN L s₀ (execGemmAcc e d s) := by
  unfold execGemmAcc
  with_reducible repeat' first | intro _ | assumption | apply runTensor_keeps | apply KeepsN.next | exact Part.within_trans (by decide) hL | dsimp only | split

theorem execEwMul_keeps {L : List Part} {s₀ : State} {e : BitVec 1} {d : JobDesc} {s : State} (hs : Keeps L s₀ s) (hL : Part.within parts20 L = true) :
    KeepsN L s₀ (execEwMul e d s) := by
  unfold execEwMul
  with_reducible repeat' first | intro _ | assumption | apply runTensor_keeps | apply KeepsN.next | exact Part.within_trans (by decide) hL | dsimp only | split

theorem execEwAdd_keeps {L : List Part} {s₀ : State} {e : BitVec 1} {d : JobDesc} {s : State} (hs : Keeps L s₀ s) (hL : Part.within parts20 L = true) :
    KeepsN L s₀ (execEwAdd e d s) := by
  unfold execEwAdd
  with_reducible repeat' first | intro _ | assumption | apply runTensor_keeps | apply KeepsN.next | exact Part.within_trans (by decide) hL | dsimp only | split

theorem execAct_keeps {L : List Part} {s₀ : State} {e : BitVec 1} {d : JobDesc} {s : State} (hs : Keeps L s₀ s) (hL : Part.within parts20 L = true) :
    KeepsN L s₀ (execAct e d s) := by
  unfold execAct
  with_reducible repeat' first | intro _ | assumption | apply runTensor_keeps | apply KeepsN.next | exact Part.within_trans (by decide) hL | dsimp only | split

theorem execTestVectors_keeps {L : List Part} {s₀ : State} {e : BitVec 1} {pass : Bool} {s : State} (hs : Keeps L s₀ s) (hL : Part.within parts35 L = true) :
    KeepsN L s₀ (execTestVectors e pass s) := by
  unfold execTestVectors
  with_reducible repeat' first | intro _ | assumption | apply noteUnit_keeps | apply testVectors_keeps | apply Keeps.ite | apply KeepsN.next | exact Part.within_trans (by decide) hL | dsimp only | split

end Sys2Proof.Machine
end

