-- ==== Sys2Proof/Laws/KeepsTicks.lean ====
section
/-! SUPPORT. What the operations of Machine/Ticks.lean keep (Laws/Keeps.lean). -/

namespace Sys2Proof.Machine

theorem fireNow_keeps {L : List Part} {s₀ : State} {e : AEntry} {s : State} (hs : Keeps L s₀ s) (hL : Part.within parts52 L = true) :
    Keeps L s₀ (fireNow e s) := by
  unfold fireNow
  with_reducible repeat' first | intro _ | assumption | apply pump_keeps | apply fireDue_keeps | exact Part.within_trans (by decide) hL | dsimp only | split

theorem fireUntil_keeps {L : List Part} {s₀ : State} {k : Nat} {v : Int} {s : State} (hs : Keeps L s₀ s) (hL : Part.within parts52 L = true) :
    Keeps L s₀ (fireUntil k v s) := by
  induction k generalizing v s with
  | zero => exact hs
  | succ k ih =>
    unfold fireUntil
    with_reducible repeat' first | intro _ | assumption | apply ih | apply fireNow_keeps | apply reach_keeps | apply Keeps.ite | exact Part.within_trans (by decide) hL | dsimp only | split

theorem moveTo_keeps {L : List Part} {s₀ : State} {g : Int} {s : State} (hs : Keeps L s₀ s) (hL : Part.within parts52 L = true) :
    Keeps L s₀ (moveTo g s) := by
  unfold moveTo
  with_reducible repeat' first | intro _ | assumption | apply reach_keeps | apply fireUntil_keeps | exact Part.within_trans (by decide) hL | dsimp only | split

theorem fireTo_keeps {L : List Part} {s₀ : State} {no : Nat} {g : Int} {k : Nat} {s : State} (hs : Keeps L s₀ s) (hL : Part.within parts52 L = true) :
    Keeps L s₀ (fireTo no g k s) := by
  induction k generalizing s with
  | zero => exact hs
  | succ k ih =>
    unfold fireTo
    with_reducible repeat' first | intro _ | assumption | apply ih | apply fireNow_keeps | apply reach_keeps | apply Keeps.ite | exact Part.within_trans (by decide) hL | dsimp only | split

theorem fireAt_keeps {L : List Part} {s₀ : State} {e : AEntry} {s : State} (hs : Keeps L s₀ s) (hL : Part.within parts52 L = true) :
    Keeps L s₀ (fireAt e s) := by
  unfold fireAt
  with_reducible repeat' first | intro _ | assumption | apply fireTo_keeps | apply Keeps.ite | exact Part.within_trans (by decide) hL | dsimp only | split

theorem idle_keeps {L : List Part} {s₀ : State} {s : State} (hs : Keeps L s₀ s) (hL : Part.within parts53 L = true) :
    Keeps L s₀ (idle s) := by
  unfold idle
  with_reducible repeat' first | intro _ | assumption | apply enterReset_keeps | apply powerGone_keeps | apply passCycles_keeps | apply pump_keeps | apply fireUntil_keeps | apply Keeps.ite | exact Part.within_trans (by decide) hL | dsimp only | split

theorem execFrameTick_keeps {L : List Part} {s₀ : State} {c : ChanNo} {s : State} (hs : Keeps L s₀ s) (hL : Part.within parts52 L = true) :
    KeepsN L s₀ (execFrameTick c s) := by
  unfold execFrameTick
  with_reducible repeat' first | intro _ | assumption | apply fireAt_keeps | apply KeepsN.next | exact Part.within_trans (by decide) hL | dsimp only | split

theorem execAlmanacFire_keeps {L : List Part} {s₀ : State} {list : BitVec 2} {s : State} (hs : Keeps L s₀ s) (hL : Part.within parts52 L = true) :
    KeepsN L s₀ (execAlmanacFire list s) := by
  unfold execAlmanacFire
  with_reducible repeat' first | intro _ | assumption | apply fireAt_keeps | apply KeepsN.next | exact Part.within_trans (by decide) hL | dsimp only | split

theorem execPointProcedure_keeps {L : List Part} {s₀ : State} {s : State} (hs : Keeps L s₀ s) (hL : Part.within parts52 L = true) :
    KeepsN L s₀ (execPointProcedure s) := by
  unfold execPointProcedure
  with_reducible repeat' first | intro _ | assumption | apply pointProcedure_keeps | apply moveTo_keeps | apply KeepsN.next | exact Part.within_trans (by decide) hL | dsimp only | split

theorem execTimeHalf_keeps {L : List Part} {s₀ : State} {s : State} (hs : Keeps L s₀ s) (hL : Part.within parts52 L = true) :
    KeepsN L s₀ (execTimeHalf s) := by
  unfold execTimeHalf
  with_reducible repeat' first | intro _ | assumption | apply noteHalf_keeps | apply moveTo_keeps | apply KeepsN.next | exact Part.within_trans (by decide) hL | dsimp only | split

theorem execPpsOutEdge_keeps {L : List Part} {s₀ : State} {s : State} (hs : Keeps L s₀ s) (hL : Part.within parts52 L = true) :
    KeepsN L s₀ (execPpsOutEdge s) := by
  unfold execPpsOutEdge
  with_reducible repeat' first | intro _ | assumption | apply ppsOut_keeps | apply moveTo_keeps | apply KeepsN.next | exact Part.within_trans (by decide) hL | dsimp only | split

theorem execDispatch_keeps {L : List Part} {s₀ : State} {x : Executor} {s : State} (hs : Keeps L s₀ s) (hL : Part.within parts24 L = true) :
    KeepsN L s₀ (execDispatch x s) := by
  unfold execDispatch
  with_reducible repeat' first | intro _ | assumption | apply beginCore_keeps | apply beginEngine_keeps | apply Keeps.ite | apply KeepsN.next | exact Part.within_trans (by decide) hL | dsimp only | split

theorem execBudgetExceeded_keeps {L : List Part} {s₀ : State} {x : Executor} {s : State} (hs : Keeps L s₀ s) (hL : Part.within parts20 L = true) :
    KeepsN L s₀ (execBudgetExceeded x s) := by
  unfold execBudgetExceeded
  with_reducible repeat' first | intro _ | assumption | apply budgetExceeded_keeps | apply KeepsN.next | exact Part.within_trans (by decide) hL | dsimp only | split

theorem execCoreBistStart_keeps {L : List Part} {s₀ : State} {n : CoreNo} {s : State} (hs : Keeps L s₀ s) (hL : Part.within [.sch] L = true) :
    KeepsN L s₀ (execCoreBistStart n s) := by
  unfold execCoreBistStart
  with_reducible repeat' first | intro _ | assumption | apply bistStart_keeps | apply KeepsN.next | exact Part.within_trans (by decide) hL | dsimp only | split

theorem execCoreBistDone_keeps {L : List Part} {s₀ : State} {n : CoreNo} {pass : Bool} {s : State} (hs : Keeps L s₀ s) (hL : Part.within parts23 L = true) :
    KeepsN L s₀ (execCoreBistDone n pass s) := by
  unfold execCoreBistDone
  with_reducible repeat' first | intro _ | assumption | apply noteUnit_keeps | apply bistDone_keeps | apply Keeps.ite | apply KeepsN.next | exact Part.within_trans (by decide) hL | dsimp only | split

theorem execSpillHiWrite_keeps {L : List Part} {s₀ : State} {v : W32} {s : State} (hs : Keeps L s₀ s) (hL : Part.within [.sch] L = true) :
    KeepsN L s₀ (execSpillHiWrite v s) := by
  unfold execSpillHiWrite
  with_reducible repeat' first | intro _ | assumption | apply writeSpillHi_keeps | apply KeepsN.next | exact Part.within_trans (by decide) hL | dsimp only | split

theorem execAlmanacListWrite_keeps {L : List Part} {s₀ : State} {list : BitVec 2} {v : W32} {s : State} (hs : Keeps L s₀ s) (hL : Part.within [.sch] L = true) :
    KeepsN L s₀ (execAlmanacListWrite list v s) := by
  unfold execAlmanacListWrite
  with_reducible repeat' first | intro _ | assumption | apply writeList_keeps | apply Keeps.ite | apply KeepsN.next | exact Part.within_trans (by decide) hL | dsimp only | split

theorem execDescriptorEnable_keeps {L : List Part} {s₀ : State} {q : QueueNo} {s : State} (hs : Keeps L s₀ s) (hL : Part.within [.host, .qm, .ism, .fi] L = true) :
    KeepsN L s₀ (execDescriptorEnable q s) := by
  unfold execDescriptorEnable
  with_reducible repeat' first | intro _ | assumption | apply writeCtl_keeps | apply KeepsN.next | exact Part.within_trans (by decide) hL | dsimp only | split

theorem execWatermarkWrite_keeps {L : List Part} {s₀ : State} {q : QueueNo} {low : Bool} {v : W32} {s : State} (hs : Keeps L s₀ s) (hL : Part.within [.host, .qm, .ism, .fi] L = true) :
    KeepsN L s₀ (execWatermarkWrite q low v s) := by
  unfold execWatermarkWrite
  with_reducible repeat' first | intro _ | assumption | apply writeWmLo_keeps | apply writeWmHi_keeps | apply Keeps.ite | apply KeepsN.next | exact Part.within_trans (by decide) hL | dsimp only | split

end Sys2Proof.Machine
end

