-- ==== Sys2Proof/Laws/KeepsTime.lean ====
section
/-! SUPPORT. What the operations of Machine/Time.lean keep (Laws/Keeps.lean). -/

namespace Sys2Proof.Machine

theorem execPpsInEdge_keeps {L : List Part} {s₀ : State} {s : State} (hs : Keeps L s₀ s) (hL : Part.within parts52 L = true) :
    KeepsN L s₀ (execPpsInEdge s) := by
  unfold execPpsInEdge
  with_reducible repeat' first | intro _ | assumption | apply pump_keeps | apply ppsIn_keeps | apply KeepsN.next | exact Part.within_trans (by decide) hL | dsimp only | split

theorem execHoldoverEntry_keeps {L : List Part} {s₀ : State} {s : State} (hs : Keeps L s₀ s) (hL : Part.within [.host, .tim, .ism, .cal, .fi] L = true) :
    KeepsN L s₀ (execHoldoverEntry s) := by
  unfold execHoldoverEntry
  with_reducible repeat' first | intro _ | assumption | apply enterHoldover_keeps | apply KeepsN.next | exact Part.within_trans (by decide) hL | dsimp only | split

theorem execPtpMessage_keeps {L : List Part} {s₀ : State} {p : PortNo} {m : PtpMsg} {s : State} (hs : Keeps L s₀ s) (hL : Part.within parts52 L = true) :
    KeepsN L s₀ (execPtpMessage p m s) := by
  unfold execPtpMessage
  with_reducible repeat' first | intro _ | assumption | apply pump_keeps | apply ptpReceive_keeps | apply KeepsN.next | exact Part.within_trans (by decide) hL | dsimp only | split

theorem execPtpTransmit_keeps {L : List Part} {s₀ : State} {p : PortNo} {k : PtpSend} {s : State} (hs : Keeps L s₀ s) (hL : Part.within parts15 L = true) :
    KeepsN L s₀ (execPtpTransmit p k s) := by
  unfold execPtpTransmit
  with_reducible repeat' first | intro _ | assumption | apply ptpSend_keeps | apply KeepsN.next | exact Part.within_trans (by decide) hL | dsimp only | split

theorem execProbeEvent_keeps {L : List Part} {s₀ : State} {code : Byte} {s : State} (hs : Keeps L s₀ s) (hL : Part.within [.tim] L = true) :
    KeepsN L s₀ (execProbeEvent code s) := by
  unfold execProbeEvent
  with_reducible repeat' first | intro _ | assumption | apply probeEvent_keeps | apply KeepsN.next | exact Part.within_trans (by decide) hL | dsimp only | split

theorem execProbeMark_keeps {L : List Part} {s₀ : State} {v : W32} {s : State} (hs : Keeps L s₀ s) (hL : Part.within [.tim] L = true) :
    KeepsN L s₀ (execProbeMark v s) := by
  unfold execProbeMark
  with_reducible repeat' first | intro _ | assumption | apply probeMark_keeps | apply KeepsN.next | exact Part.within_trans (by decide) hL | dsimp only | split

end Sys2Proof.Machine
end

