-- ==== Sys2Proof/Laws/KeepsVoiceCore.lean ====
section
/-! SUPPORT. What the operations of Machine/VoiceCore.lean keep (Laws/Keeps.lean). -/

namespace Sys2Proof.Machine

theorem execBranch_keeps {L : List Part} {s₀ : State} {i : Iss} {c : Cond} {target : BitVec 12} {s : State} (hs : Keeps L s₀ s) (hL : Part.within parts39 L = true) :
    KeepsN L s₀ (execBranch i c target s) := by
  unfold execBranch
  with_reducible repeat' first | intro _ | assumption | apply issue_keeps | apply opBranch_keeps | apply KeepsN.next | exact Part.within_trans (by decide) hL | dsimp only | split | (refine Keeps.of_okr (by assumption) ?_; apply opBranch_keeps)

theorem execDbnz_keeps {L : List Part} {s₀ : State} {i : Iss} {p : BitVec 4} {target : BitVec 12} {s : State} (hs : Keeps L s₀ s) (hL : Part.within parts39 L = true) :
    KeepsN L s₀ (execDbnz i p target s) := by
  unfold execDbnz
  with_reducible repeat' first | intro _ | assumption | apply issue_keeps | apply opDbnz_keeps | apply KeepsN.next | exact Part.within_trans (by decide) hL | dsimp only | split | (refine Keeps.of_okr (by assumption) ?_; apply opDbnz_keeps)

theorem execCall_keeps {L : List Part} {s₀ : State} {i : Iss} {target : BitVec 12} {s : State} (hs : Keeps L s₀ s) (hL : Part.within parts39 L = true) :
    KeepsN L s₀ (execCall i target s) := by
  unfold execCall
  with_reducible repeat' first | intro _ | assumption | apply issue_keeps | apply opCall_keeps | apply KeepsN.next | exact Part.within_trans (by decide) hL | dsimp only | split | (refine Keeps.of_okr (by assumption) ?_; apply opCall_keeps)

theorem execRet_keeps {L : List Part} {s₀ : State} {i : Iss} {s : State} (hs : Keeps L s₀ s) (hL : Part.within parts39 L = true) :
    KeepsN L s₀ (execRet i s) := by
  unfold execRet
  with_reducible repeat' first | intro _ | assumption | apply issue_keeps | apply opRet_keeps | apply KeepsN.next | exact Part.within_trans (by decide) hL | dsimp only | split | (refine Keeps.of_okr (by assumption) ?_; apply opRet_keeps)

theorem execLoopOp_keeps {L : List Part} {s₀ : State} {i : Iss} {count : LoopCount} {last : BitVec 12} {rot : Bool} {tb : Bool} {s : State} (hs : Keeps L s₀ s) (hL : Part.within parts39 L = true) :
    KeepsN L s₀ (execLoopOp i count last rot tb s) := by
  unfold execLoopOp
  with_reducible repeat' first | intro _ | assumption | apply issue_keeps | apply opLoop_keeps | apply KeepsN.next | exact Part.within_trans (by decide) hL | dsimp only | split | (refine Keeps.of_okr (by assumption) ?_; apply opLoop_keeps)

theorem execModeOp_keeps {L : List Part} {s₀ : State} {i : Iss} {threeBus : Bool} {s : State} (hs : Keeps L s₀ s) (hL : Part.within parts39 L = true) :
    KeepsN L s₀ (execModeOp i threeBus s) := by
  unfold execModeOp
  with_reducible repeat' first | intro _ | assumption | apply issue_keeps | apply opMode_keeps | apply KeepsN.next | exact Part.within_trans (by decide) hL | dsimp only | split | (refine Keeps.of_okr (by assumption) ?_; apply opMode_keeps)

theorem execEndTask_keeps {L : List Part} {s₀ : State} {i : Iss} {r : TaskFinding} {s : State} (hs : Keeps L s₀ s) (hL : Part.within parts39 L = true) :
    KeepsN L s₀ (execEndTask i r s) := by
  unfold execEndTask
  with_reducible repeat' first | intro _ | assumption | apply issue_keeps | apply opEnd_keeps | apply KeepsN.next | exact Part.within_trans (by decide) hL | dsimp only | split | (refine Keeps.of_okr (by assumption) ?_; apply opEnd_keeps)

theorem execSwi_keeps {L : List Part} {s₀ : State} {i : Iss} {s : State} (hs : Keeps L s₀ s) (hL : Part.within parts39 L = true) :
    KeepsN L s₀ (execSwi i s) := by
  unfold execSwi
  with_reducible repeat' first | intro _ | assumption | apply issue_keeps | apply opSwi_keeps | apply KeepsN.next | exact Part.within_trans (by decide) hL | dsimp only | split | (refine Keeps.of_okr (by assumption) ?_; apply opSwi_keeps)

theorem execRti_keeps {L : List Part} {s₀ : State} {i : Iss} {s : State} (hs : Keeps L s₀ s) (hL : Part.within parts39 L = true) :
    KeepsN L s₀ (execRti i s) := by
  unfold execRti
  with_reducible repeat' first | intro _ | assumption | apply issue_keeps | apply opRti_keeps | apply KeepsN.next | exact Part.within_trans (by decide) hL | dsimp only | split | (refine Keeps.of_okr (by assumption) ?_; apply opRti_keeps)

theorem execDma_keeps {L : List Part} {s₀ : State} {i : Iss} {k : BitVec 2} {toLocal : Bool} {e : BitVec 2} {p : BitVec 4} {inY : Bool} {count : BitVec 4} {irq : Bool} {s : State} (hs : Keeps L s₀ s) (hL : Part.within parts39 L = true) :
    KeepsN L s₀ (execDma i k toLocal e p inY count irq s) := by
  unfold execDma
  with_reducible repeat' first | intro _ | assumption | apply issue_keeps | apply opDma_keeps | apply KeepsN.next | exact Part.within_trans (by decide) hL | dsimp only | split | (refine Keeps.of_okr (by assumption) ?_; apply opDma_keeps)

theorem execWaitd_keeps {L : List Part} {s₀ : State} {i : Iss} {mask : BitVec 4} {s : State} (hs : Keeps L s₀ s) (hL : Part.within parts39 L = true) :
    KeepsN L s₀ (execWaitd i mask s) := by
  unfold execWaitd
  with_reducible repeat' first | intro _ | assumption | apply issue_keeps | apply opWaitd_keeps | apply KeepsN.next | exact Part.within_trans (by decide) hL | dsimp only | split | (refine Keeps.of_okr (by assumption) ?_; apply opWaitd_keeps)

theorem execXld_keeps {L : List Part} {s₀ : State} {i : Iss} {fd : BitVec 6} {e : BitVec 2} {off : BitVec 12} {s : State} (hs : Keeps L s₀ s) (hL : Part.within parts39 L = true) :
    KeepsN L s₀ (execXld i fd e off s) := by
  unfold execXld
  with_reducible repeat' first | intro _ | assumption | apply issue_keeps | apply opXld_keeps | apply KeepsN.next | exact Part.within_trans (by decide) hL | dsimp only | split | (refine Keeps.of_okr (by assumption) ?_; apply opXld_keeps)

theorem execXst_keeps {L : List Part} {s₀ : State} {i : Iss} {fs : BitVec 6} {e : BitVec 2} {off : BitVec 12} {s : State} (hs : Keeps L s₀ s) (hL : Part.within parts39 L = true) :
    KeepsN L s₀ (execXst i fs e off s) := by
  unfold execXst
  with_reducible repeat' first | intro _ | assumption | apply issue_keeps | apply opXst_keeps | apply KeepsN.next | exact Part.within_trans (by decide) hL | dsimp only | split | (refine Keeps.of_okr (by assumption) ?_; apply opXst_keeps)

theorem execTimeOp_keeps {L : List Part} {s₀ : State} {i : Iss} {fd : BitVec 6} {s : State} (hs : Keeps L s₀ s) (hL : Part.within parts39 L = true) :
    KeepsN L s₀ (execTimeOp i fd s) := by
  unfold execTimeOp
  with_reducible repeat' first | intro _ | assumption | apply issue_keeps | apply opTime_keeps | apply KeepsN.next | exact Part.within_trans (by decide) hL | dsimp only | split | (refine Keeps.of_okr (by assumption) ?_; apply opTime_keeps)

theorem execPld_keeps {L : List Part} {s₀ : State} {i : Iss} {fd : BitVec 6} {m : AddrMode} {s : State} (hs : Keeps L s₀ s) (hL : Part.within parts39 L = true) :
    KeepsN L s₀ (execPld i fd m s) := by
  unfold execPld
  with_reducible repeat' first | intro _ | assumption | apply issue_keeps | apply opPld_keeps | apply KeepsN.next | exact Part.within_trans (by decide) hL | dsimp only | split | (refine Keeps.of_okr (by assumption) ?_; apply opPld_keeps)

theorem execFmac_keeps {L : List Part} {s₀ : State} {i : Iss} {d : BitVec 6} {a : BitVec 6} {b : BitVec 6} {c : BitVec 6} {s : State} (hs : Keeps L s₀ s) (hL : Part.within parts39 L = true) :
    KeepsN L s₀ (execFmac i d a b c s) := by
  unfold execFmac
  with_reducible repeat' first | intro _ | assumption | apply issue_keeps | apply opFused_keeps | apply KeepsN.next | exact Part.within_trans (by decide) hL | dsimp only | split | (refine Keeps.of_okr (by assumption) ?_; apply opFused_keeps)

theorem execFmsub_keeps {L : List Part} {s₀ : State} {i : Iss} {d : BitVec 6} {a : BitVec 6} {b : BitVec 6} {c : BitVec 6} {s : State} (hs : Keeps L s₀ s) (hL : Part.within parts39 L = true) :
    KeepsN L s₀ (execFmsub i d a b c s) := by
  unfold execFmsub
  with_reducible repeat' first | intro _ | assumption | apply issue_keeps | apply opFused_keeps | apply KeepsN.next | exact Part.within_trans (by decide) hL | dsimp only | split | (refine Keeps.of_okr (by assumption) ?_; apply opFused_keeps)

theorem execFmul_keeps {L : List Part} {s₀ : State} {i : Iss} {d : BitVec 6} {a : BitVec 6} {b : BitVec 6} {s : State} (hs : Keeps L s₀ s) (hL : Part.within parts39 L = true) :
    KeepsN L s₀ (execFmul i d a b s) := by
  unfold execFmul
  with_reducible repeat' first | intro _ | assumption | apply issue_keeps | apply opM2_keeps | apply KeepsN.next | exact Part.within_trans (by decide) hL | dsimp only | split | (refine Keeps.of_okr (by assumption) ?_; apply opM2_keeps)

theorem execFadd_keeps {L : List Part} {s₀ : State} {i : Iss} {d : BitVec 6} {a : BitVec 6} {b : BitVec 6} {s : State} (hs : Keeps L s₀ s) (hL : Part.within parts39 L = true) :
    KeepsN L s₀ (execFadd i d a b s) := by
  unfold execFadd
  with_reducible repeat' first | intro _ | assumption | apply issue_keeps | apply opM2_keeps | apply KeepsN.next | exact Part.within_trans (by decide) hL | dsimp only | split | (refine Keeps.of_okr (by assumption) ?_; apply opM2_keeps)

theorem execFsub_keeps {L : List Part} {s₀ : State} {i : Iss} {d : BitVec 6} {a : BitVec 6} {b : BitVec 6} {s : State} (hs : Keeps L s₀ s) (hL : Part.within parts39 L = true) :
    KeepsN L s₀ (execFsub i d a b s) := by
  unfold execFsub
  with_reducible repeat' first | intro _ | assumption | apply issue_keeps | apply opM2_keeps | apply KeepsN.next | exact Part.within_trans (by decide) hL | dsimp only | split | (refine Keeps.of_okr (by assumption) ?_; apply opM2_keeps)

theorem execFmin_keeps {L : List Part} {s₀ : State} {i : Iss} {d : BitVec 6} {a : BitVec 6} {b : BitVec 6} {s : State} (hs : Keeps L s₀ s) (hL : Part.within parts39 L = true) :
    KeepsN L s₀ (execFmin i d a b s) := by
  unfold execFmin
  with_reducible repeat' first | intro _ | assumption | apply issue_keeps | apply opM2_keeps | apply KeepsN.next | exact Part.within_trans (by decide) hL | dsimp only | split | (refine Keeps.of_okr (by assumption) ?_; apply opM2_keeps)

theorem execFmax_keeps {L : List Part} {s₀ : State} {i : Iss} {d : BitVec 6} {a : BitVec 6} {b : BitVec 6} {s : State} (hs : Keeps L s₀ s) (hL : Part.within parts39 L = true) :
    KeepsN L s₀ (execFmax i d a b s) := by
  unfold execFmax
  with_reducible repeat' first | intro _ | assumption | apply issue_keeps | apply opM2_keeps | apply KeepsN.next | exact Part.within_trans (by decide) hL | dsimp only | split | (refine Keeps.of_okr (by assumption) ?_; apply opM2_keeps)

theorem execFabs_keeps {L : List Part} {s₀ : State} {i : Iss} {d : BitVec 6} {a : BitVec 6} {s : State} (hs : Keeps L s₀ s) (hL : Part.within parts39 L = true) :
    KeepsN L s₀ (execFabs i d a s) := by
  unfold execFabs
  with_reducible repeat' first | intro _ | assumption | apply issue_keeps | apply opM1_keeps | apply KeepsN.next | exact Part.within_trans (by decide) hL | dsimp only | split | (refine Keeps.of_okr (by assumption) ?_; apply opM1_keeps)

theorem execFneg_keeps {L : List Part} {s₀ : State} {i : Iss} {d : BitVec 6} {a : BitVec 6} {s : State} (hs : Keeps L s₀ s) (hL : Part.within parts39 L = true) :
    KeepsN L s₀ (execFneg i d a s) := by
  unfold execFneg
  with_reducible repeat' first | intro _ | assumption | apply issue_keeps | apply opM1_keeps | apply KeepsN.next | exact Part.within_trans (by decide) hL | dsimp only | split | (refine Keeps.of_okr (by assumption) ?_; apply opM1_keeps)

theorem execFcvt_keeps {L : List Part} {s₀ : State} {i : Iss} {k : Fcvt} {d : BitVec 6} {a : BitVec 6} {s : State} (hs : Keeps L s₀ s) (hL : Part.within parts39 L = true) :
    KeepsN L s₀ (execFcvt i k d a s) := by
  unfold execFcvt
  with_reducible repeat' first | intro _ | assumption | apply issue_keeps | apply opFcvt_keeps | apply KeepsN.next | exact Part.within_trans (by decide) hL | dsimp only | split | (refine Keeps.of_okr (by assumption) ?_; apply opFcvt_keeps)

theorem execFmovi_keeps {L : List Part} {s₀ : State} {i : Iss} {d : BitVec 6} {v : W32} {s : State} (hs : Keeps L s₀ s) (hL : Part.within parts39 L = true) :
    KeepsN L s₀ (execFmovi i d v s) := by
  unfold execFmovi
  with_reducible repeat' first | intro _ | assumption | apply issue_keeps | apply opFmovi_keeps | apply KeepsN.next | exact Part.within_trans (by decide) hL | dsimp only | split | (refine Keeps.of_okr (by assumption) ?_; apply opFmovi_keeps)

theorem execIntegerOp_keeps {L : List Part} {s₀ : State} {i : Iss} {o : IntOp} {s : State} (hs : Keeps L s₀ s) (hL : Part.within parts39 L = true) :
    KeepsN L s₀ (execIntegerOp i o s) := by
  unfold execIntegerOp
  with_reducible repeat' first | intro _ | assumption | apply issue_keeps | apply opInteger_keeps | apply KeepsN.next | exact Part.within_trans (by decide) hL | dsimp only | split | (refine Keeps.of_okr (by assumption) ?_; apply opInteger_keeps)

theorem execMovc_keeps {L : List Part} {s₀ : State} {i : Iss} {write : Bool} {r : CtlReg} {f : BitVec 6} {s : State} (hs : Keeps L s₀ s) (hL : Part.within parts39 L = true) :
    KeepsN L s₀ (execMovc i write r f s) := by
  unfold execMovc
  with_reducible repeat' first | intro _ | assumption | apply issue_keeps | apply opMovc_keeps | apply KeepsN.next | exact Part.within_trans (by decide) hL | dsimp only | split | (refine Keeps.of_okr (by assumption) ?_; apply opMovc_keeps)

theorem execFcmp_keeps {L : List Part} {s₀ : State} {i : Iss} {a : BitVec 6} {b : BitVec 6} {s : State} (hs : Keeps L s₀ s) (hL : Part.within parts39 L = true) :
    KeepsN L s₀ (execFcmp i a b s) := by
  unfold execFcmp
  with_reducible repeat' first | intro _ | assumption | apply issue_keeps | apply opFcmp_keeps | apply KeepsN.next | exact Part.within_trans (by decide) hL | dsimp only | split | (refine Keeps.of_okr (by assumption) ?_; apply opFcmp_keeps)

theorem execAcs4_keeps {L : List Part} {s₀ : State} {i : Iss} {d : BitVec 6} {x : BitVec 6} {b : BitVec 6} {s : State} (hs : Keeps L s₀ s) (hL : Part.within parts39 L = true) :
    KeepsN L s₀ (execAcs4 i d x b s) := by
  unfold execAcs4
  with_reducible repeat' first | intro _ | assumption | apply issue_keeps | apply opAcs4_keeps | apply KeepsN.next | exact Part.within_trans (by decide) hL | dsimp only | split | (refine Keeps.of_okr (by assumption) ?_; apply opAcs4_keeps)

theorem execAcsstg_keeps {L : List Part} {s₀ : State} {i : Iss} {s : State} (hs : Keeps L s₀ s) (hL : Part.within parts39 L = true) :
    KeepsN L s₀ (execAcsstg i s) := by
  unfold execAcsstg
  with_reducible repeat' first | intro _ | assumption | apply issue_keeps | apply opAcsstg_keeps | apply KeepsN.next | exact Part.within_trans (by decide) hL | dsimp only | split | (refine Keeps.of_okr (by assumption) ?_; apply opAcsstg_keeps)

theorem execMovtb_keeps {L : List Part} {s₀ : State} {i : Iss} {d : BitVec 6} {s : State} (hs : Keeps L s₀ s) (hL : Part.within parts39 L = true) :
    KeepsN L s₀ (execMovtb i d s) := by
  unfold execMovtb
  with_reducible repeat' first | intro _ | assumption | apply issue_keeps | apply opMovtb_keeps | apply KeepsN.next | exact Part.within_trans (by decide) hL | dsimp only | split | (refine Keeps.of_okr (by assumption) ?_; apply opMovtb_keeps)

theorem execLoadOp_keeps {L : List Part} {s₀ : State} {i : Iss} {inY : Bool} {d : LoadDst} {m : AddrMode} {s : State} (hs : Keeps L s₀ s) (hL : Part.within parts39 L = true) :
    KeepsN L s₀ (execLoadOp i inY d m s) := by
  unfold execLoadOp
  with_reducible repeat' first | intro _ | assumption | apply issue_keeps | apply opLoad_keeps | apply Keeps.ite | apply Keeps.ite_fst | apply Keeps.ite_snd | apply KeepsN.next | exact Part.within_trans (by decide) hL | dsimp only | split | (refine Keeps.of_okr (by assumption) ?_; apply opLoad_keeps)

theorem execStoreOp_keeps {L : List Part} {s₀ : State} {i : Iss} {inY : Bool} {r : StoreSrc} {m : AddrMode} {s : State} (hs : Keeps L s₀ s) (hL : Part.within parts39 L = true) :
    KeepsN L s₀ (execStoreOp i inY r m s) := by
  unfold execStoreOp
  with_reducible repeat' first | intro _ | assumption | apply issue_keeps | apply opStore_keeps | apply Keeps.ite | apply Keeps.ite_fst | apply Keeps.ite_snd | apply KeepsN.next | exact Part.within_trans (by decide) hL | dsimp only | split | (refine Keeps.of_okr (by assumption) ?_; apply opStore_keeps)

theorem execBwarn_keeps {L : List Part} {s₀ : State} {n : CoreNo} {s : State} (hs : Keeps L s₀ s) (hL : Part.within [.vcs] L = true) :
    KeepsN L s₀ (execBwarn n s) := by
  unfold execBwarn
  with_reducible repeat' first | intro _ | assumption | apply setPendBit_keeps | apply KeepsN.next | exact Part.within_trans (by decide) hL | dsimp only | split

theorem execDmaDone_keeps {L : List Part} {s₀ : State} {n : CoreNo} {k : BitVec 2} {s : State} (hs : Keeps L s₀ s) (hL : Part.within parts39 L = true) :
    KeepsN L s₀ (execDmaDone n k s) := by
  unfold execDmaDone
  with_reducible repeat' first | intro _ | assumption | apply dmaDone_keeps | apply Keeps.ite | apply KeepsN.next | exact Part.within_trans (by decide) hL | dsimp only | split

theorem execInterruptEntry_keeps {L : List Part} {s₀ : State} {n : CoreNo} {s : State} (hs : Keeps L s₀ s) (hL : Part.within [.vcs, .free] L = true) :
    KeepsN L s₀ (execInterruptEntry n s) := by
  unfold execInterruptEntry
  with_reducible repeat' first | intro _ | assumption | apply interruptEntry_keeps | apply KeepsN.next | exact Part.within_trans (by decide) hL | dsimp only | split

end Sys2Proof.Machine
end

