-- ==== Sys2Proof/Laws/State.lean ====
section
/-! SUPPORT. What every update of one block of the state leaves, field by field, so that no proof unfolds a record
update. -/

namespace Sys2Proof.Machine

@[simp] theorem State.setBoot_hw (s : State) (x : Boot) : (s.setBoot x).hw = s.hw := rfl
@[simp] theorem State.setBoot_boot (s : State) (x : Boot) : (s.setBoot x).boot = x := rfl
@[simp] theorem State.setBoot_pwr (s : State) (x : Boot) : (s.setBoot x).pwr = s.pwr := rfl
@[simp] theorem State.setBoot_therm (s : State) (x : Boot) : (s.setBoot x).therm = s.therm := rfl
@[simp] theorem State.setBoot_pins (s : State) (x : Boot) : (s.setBoot x).pins = s.pins := rfl
@[simp] theorem State.setBoot_clk (s : State) (x : Boot) : (s.setBoot x).clk = s.clk := rfl
@[simp] theorem State.setBoot_host (s : State) (x : Boot) : (s.setBoot x).host = s.host := rfl
@[simp] theorem State.setBoot_cmds (s : State) (x : Boot) : (s.setBoot x).cmds = s.cmds := rfl
@[simp] theorem State.setBoot_led (s : State) (x : Boot) : (s.setBoot x).led = s.led := rfl
@[simp] theorem State.setBoot_sch (s : State) (x : Boot) : (s.setBoot x).sch = s.sch := rfl
@[simp] theorem State.setBoot_qm (s : State) (x : Boot) : (s.setBoot x).qm = s.qm := rfl
@[simp] theorem State.setBoot_vcs (s : State) (x : Boot) : (s.setBoot x).vcs = s.vcs := rfl
@[simp] theorem State.setBoot_ten (s : State) (x : Boot) : (s.setBoot x).ten = s.ten := rfl
@[simp] theorem State.setBoot_sw (s : State) (x : Boot) : (s.setBoot x).sw = s.sw := rfl
@[simp] theorem State.setBoot_tdm (s : State) (x : Boot) : (s.setBoot x).tdm = s.tdm := rfl
@[simp] theorem State.setBoot_tim (s : State) (x : Boot) : (s.setBoot x).tim = s.tim := rfl
@[simp] theorem State.setBoot_dfl (s : State) (x : Boot) : (s.setBoot x).dfl = s.dfl := rfl
@[simp] theorem State.setBoot_uarts (s : State) (x : Boot) : (s.setBoot x).uarts = s.uarts := rfl
@[simp] theorem State.setBoot_ism (s : State) (x : Boot) : (s.setBoot x).ism = s.ism := rfl
@[simp] theorem State.setBoot_saf (s : State) (x : Boot) : (s.setBoot x).saf = s.saf := rfl
@[simp] theorem State.setBoot_cal (s : State) (x : Boot) : (s.setBoot x).cal = s.cal := rfl
@[simp] theorem State.setBoot_fi (s : State) (x : Boot) : (s.setBoot x).fi = s.fi := rfl
@[simp] theorem State.setBoot_mem (s : State) (x : Boot) : (s.setBoot x).mem = s.mem := rfl
@[simp] theorem State.setBoot_free (s : State) (x : Boot) : (s.setBoot x).free = s.free := rfl
@[simp] theorem State.setBoot_pending (s : State) (x : Boot) : (s.setBoot x).pending = s.pending := rfl

@[simp] theorem State.setPwr_hw (s : State) (x : Power) : (s.setPwr x).hw = s.hw := rfl
@[simp] theorem State.setPwr_boot (s : State) (x : Power) : (s.setPwr x).boot = s.boot := rfl
@[simp] theorem State.setPwr_pwr (s : State) (x : Power) : (s.setPwr x).pwr = x := rfl
@[simp] theorem State.setPwr_therm (s : State) (x : Power) : (s.setPwr x).therm = s.therm := rfl
@[simp] theorem State.setPwr_pins (s : State) (x : Power) : (s.setPwr x).pins = s.pins := rfl
@[simp] theorem State.setPwr_clk (s : State) (x : Power) : (s.setPwr x).clk = s.clk := rfl
@[simp] theorem State.setPwr_host (s : State) (x : Power) : (s.setPwr x).host = s.host := rfl
@[simp] theorem State.setPwr_cmds (s : State) (x : Power) : (s.setPwr x).cmds = s.cmds := rfl
@[simp] theorem State.setPwr_led (s : State) (x : Power) : (s.setPwr x).led = s.led := rfl
@[simp] theorem State.setPwr_sch (s : State) (x : Power) : (s.setPwr x).sch = s.sch := rfl
@[simp] theorem State.setPwr_qm (s : State) (x : Power) : (s.setPwr x).qm = s.qm := rfl
@[simp] theorem State.setPwr_vcs (s : State) (x : Power) : (s.setPwr x).vcs = s.vcs := rfl
@[simp] theorem State.setPwr_ten (s : State) (x : Power) : (s.setPwr x).ten = s.ten := rfl
@[simp] theorem State.setPwr_sw (s : State) (x : Power) : (s.setPwr x).sw = s.sw := rfl
@[simp] theorem State.setPwr_tdm (s : State) (x : Power) : (s.setPwr x).tdm = s.tdm := rfl
@[simp] theorem State.setPwr_tim (s : State) (x : Power) : (s.setPwr x).tim = s.tim := rfl
@[simp] theorem State.setPwr_dfl (s : State) (x : Power) : (s.setPwr x).dfl = s.dfl := rfl
@[simp] theorem State.setPwr_uarts (s : State) (x : Power) : (s.setPwr x).uarts = s.uarts := rfl
@[simp] theorem State.setPwr_ism (s : State) (x : Power) : (s.setPwr x).ism = s.ism := rfl
@[simp] theorem State.setPwr_saf (s : State) (x : Power) : (s.setPwr x).saf = s.saf := rfl
@[simp] theorem State.setPwr_cal (s : State) (x : Power) : (s.setPwr x).cal = s.cal := rfl
@[simp] theorem State.setPwr_fi (s : State) (x : Power) : (s.setPwr x).fi = s.fi := rfl
@[simp] theorem State.setPwr_mem (s : State) (x : Power) : (s.setPwr x).mem = s.mem := rfl
@[simp] theorem State.setPwr_free (s : State) (x : Power) : (s.setPwr x).free = s.free := rfl
@[simp] theorem State.setPwr_pending (s : State) (x : Power) : (s.setPwr x).pending = s.pending := rfl

@[simp] theorem State.setTherm_hw (s : State) (x : Thermal) : (s.setTherm x).hw = s.hw := rfl
@[simp] theorem State.setTherm_boot (s : State) (x : Thermal) : (s.setTherm x).boot = s.boot := rfl
@[simp] theorem State.setTherm_pwr (s : State) (x : Thermal) : (s.setTherm x).pwr = s.pwr := rfl
@[simp] theorem State.setTherm_therm (s : State) (x : Thermal) : (s.setTherm x).therm = x := rfl
@[simp] theorem State.setTherm_pins (s : State) (x : Thermal) : (s.setTherm x).pins = s.pins := rfl
@[simp] theorem State.setTherm_clk (s : State) (x : Thermal) : (s.setTherm x).clk = s.clk := rfl
@[simp] theorem State.setTherm_host (s : State) (x : Thermal) : (s.setTherm x).host = s.host := rfl
@[simp] theorem State.setTherm_cmds (s : State) (x : Thermal) : (s.setTherm x).cmds = s.cmds := rfl
@[simp] theorem State.setTherm_led (s : State) (x : Thermal) : (s.setTherm x).led = s.led := rfl
@[simp] theorem State.setTherm_sch (s : State) (x : Thermal) : (s.setTherm x).sch = s.sch := rfl
@[simp] theorem State.setTherm_qm (s : State) (x : Thermal) : (s.setTherm x).qm = s.qm := rfl
@[simp] theorem State.setTherm_vcs (s : State) (x : Thermal) : (s.setTherm x).vcs = s.vcs := rfl
@[simp] theorem State.setTherm_ten (s : State) (x : Thermal) : (s.setTherm x).ten = s.ten := rfl
@[simp] theorem State.setTherm_sw (s : State) (x : Thermal) : (s.setTherm x).sw = s.sw := rfl
@[simp] theorem State.setTherm_tdm (s : State) (x : Thermal) : (s.setTherm x).tdm = s.tdm := rfl
@[simp] theorem State.setTherm_tim (s : State) (x : Thermal) : (s.setTherm x).tim = s.tim := rfl
@[simp] theorem State.setTherm_dfl (s : State) (x : Thermal) : (s.setTherm x).dfl = s.dfl := rfl
@[simp] theorem State.setTherm_uarts (s : State) (x : Thermal) : (s.setTherm x).uarts = s.uarts := rfl
@[simp] theorem State.setTherm_ism (s : State) (x : Thermal) : (s.setTherm x).ism = s.ism := rfl
@[simp] theorem State.setTherm_saf (s : State) (x : Thermal) : (s.setTherm x).saf = s.saf := rfl
@[simp] theorem State.setTherm_cal (s : State) (x : Thermal) : (s.setTherm x).cal = s.cal := rfl
@[simp] theorem State.setTherm_fi (s : State) (x : Thermal) : (s.setTherm x).fi = s.fi := rfl
@[simp] theorem State.setTherm_mem (s : State) (x : Thermal) : (s.setTherm x).mem = s.mem := rfl
@[simp] theorem State.setTherm_free (s : State) (x : Thermal) : (s.setTherm x).free = s.free := rfl
@[simp] theorem State.setTherm_pending (s : State) (x : Thermal) : (s.setTherm x).pending = s.pending := rfl

@[simp] theorem State.setPins_hw (s : State) (x : Pins) : (s.setPins x).hw = s.hw := rfl
@[simp] theorem State.setPins_boot (s : State) (x : Pins) : (s.setPins x).boot = s.boot := rfl
@[simp] theorem State.setPins_pwr (s : State) (x : Pins) : (s.setPins x).pwr = s.pwr := rfl
@[simp] theorem State.setPins_therm (s : State) (x : Pins) : (s.setPins x).therm = s.therm := rfl
@[simp] theorem State.setPins_pins (s : State) (x : Pins) : (s.setPins x).pins = x := rfl
@[simp] theorem State.setPins_clk (s : State) (x : Pins) : (s.setPins x).clk = s.clk := rfl
@[simp] theorem State.setPins_host (s : State) (x : Pins) : (s.setPins x).host = s.host := rfl
@[simp] theorem State.setPins_cmds (s : State) (x : Pins) : (s.setPins x).cmds = s.cmds := rfl
@[simp] theorem State.setPins_led (s : State) (x : Pins) : (s.setPins x).led = s.led := rfl
@[simp] theorem State.setPins_sch (s : State) (x : Pins) : (s.setPins x).sch = s.sch := rfl
@[simp] theorem State.setPins_qm (s : State) (x : Pins) : (s.setPins x).qm = s.qm := rfl
@[simp] theorem State.setPins_vcs (s : State) (x : Pins) : (s.setPins x).vcs = s.vcs := rfl
@[simp] theorem State.setPins_ten (s : State) (x : Pins) : (s.setPins x).ten = s.ten := rfl
@[simp] theorem State.setPins_sw (s : State) (x : Pins) : (s.setPins x).sw = s.sw := rfl
@[simp] theorem State.setPins_tdm (s : State) (x : Pins) : (s.setPins x).tdm = s.tdm := rfl
@[simp] theorem State.setPins_tim (s : State) (x : Pins) : (s.setPins x).tim = s.tim := rfl
@[simp] theorem State.setPins_dfl (s : State) (x : Pins) : (s.setPins x).dfl = s.dfl := rfl
@[simp] theorem State.setPins_uarts (s : State) (x : Pins) : (s.setPins x).uarts = s.uarts := rfl
@[simp] theorem State.setPins_ism (s : State) (x : Pins) : (s.setPins x).ism = s.ism := rfl
@[simp] theorem State.setPins_saf (s : State) (x : Pins) : (s.setPins x).saf = s.saf := rfl
@[simp] theorem State.setPins_cal (s : State) (x : Pins) : (s.setPins x).cal = s.cal := rfl
@[simp] theorem State.setPins_fi (s : State) (x : Pins) : (s.setPins x).fi = s.fi := rfl
@[simp] theorem State.setPins_mem (s : State) (x : Pins) : (s.setPins x).mem = s.mem := rfl
@[simp] theorem State.setPins_free (s : State) (x : Pins) : (s.setPins x).free = s.free := rfl
@[simp] theorem State.setPins_pending (s : State) (x : Pins) : (s.setPins x).pending = s.pending := rfl

@[simp] theorem State.setClk_hw (s : State) (x : Clocks) : (s.setClk x).hw = s.hw := rfl
@[simp] theorem State.setClk_boot (s : State) (x : Clocks) : (s.setClk x).boot = s.boot := rfl
@[simp] theorem State.setClk_pwr (s : State) (x : Clocks) : (s.setClk x).pwr = s.pwr := rfl
@[simp] theorem State.setClk_therm (s : State) (x : Clocks) : (s.setClk x).therm = s.therm := rfl
@[simp] theorem State.setClk_pins (s : State) (x : Clocks) : (s.setClk x).pins = s.pins := rfl
@[simp] theorem State.setClk_clk (s : State) (x : Clocks) : (s.setClk x).clk = x := rfl
@[simp] theorem State.setClk_host (s : State) (x : Clocks) : (s.setClk x).host = s.host := rfl
@[simp] theorem State.setClk_cmds (s : State) (x : Clocks) : (s.setClk x).cmds = s.cmds := rfl
@[simp] theorem State.setClk_led (s : State) (x : Clocks) : (s.setClk x).led = s.led := rfl
@[simp] theorem State.setClk_sch (s : State) (x : Clocks) : (s.setClk x).sch = s.sch := rfl
@[simp] theorem State.setClk_qm (s : State) (x : Clocks) : (s.setClk x).qm = s.qm := rfl
@[simp] theorem State.setClk_vcs (s : State) (x : Clocks) : (s.setClk x).vcs = s.vcs := rfl
@[simp] theorem State.setClk_ten (s : State) (x : Clocks) : (s.setClk x).ten = s.ten := rfl
@[simp] theorem State.setClk_sw (s : State) (x : Clocks) : (s.setClk x).sw = s.sw := rfl
@[simp] theorem State.setClk_tdm (s : State) (x : Clocks) : (s.setClk x).tdm = s.tdm := rfl
@[simp] theorem State.setClk_tim (s : State) (x : Clocks) : (s.setClk x).tim = s.tim := rfl
@[simp] theorem State.setClk_dfl (s : State) (x : Clocks) : (s.setClk x).dfl = s.dfl := rfl
@[simp] theorem State.setClk_uarts (s : State) (x : Clocks) : (s.setClk x).uarts = s.uarts := rfl
@[simp] theorem State.setClk_ism (s : State) (x : Clocks) : (s.setClk x).ism = s.ism := rfl
@[simp] theorem State.setClk_saf (s : State) (x : Clocks) : (s.setClk x).saf = s.saf := rfl
@[simp] theorem State.setClk_cal (s : State) (x : Clocks) : (s.setClk x).cal = s.cal := rfl
@[simp] theorem State.setClk_fi (s : State) (x : Clocks) : (s.setClk x).fi = s.fi := rfl
@[simp] theorem State.setClk_mem (s : State) (x : Clocks) : (s.setClk x).mem = s.mem := rfl
@[simp] theorem State.setClk_free (s : State) (x : Clocks) : (s.setClk x).free = s.free := rfl
@[simp] theorem State.setClk_pending (s : State) (x : Clocks) : (s.setClk x).pending = s.pending := rfl

@[simp] theorem State.setHost_hw (s : State) (x : HostPort) : (s.setHost x).hw = s.hw := rfl
@[simp] theorem State.setHost_boot (s : State) (x : HostPort) : (s.setHost x).boot = s.boot := rfl
@[simp] theorem State.setHost_pwr (s : State) (x : HostPort) : (s.setHost x).pwr = s.pwr := rfl
@[simp] theorem State.setHost_therm (s : State) (x : HostPort) : (s.setHost x).therm = s.therm := rfl
@[simp] theorem State.setHost_pins (s : State) (x : HostPort) : (s.setHost x).pins = s.pins := rfl
@[simp] theorem State.setHost_clk (s : State) (x : HostPort) : (s.setHost x).clk = s.clk := rfl
@[simp] theorem State.setHost_host (s : State) (x : HostPort) : (s.setHost x).host = x := rfl
@[simp] theorem State.setHost_cmds (s : State) (x : HostPort) : (s.setHost x).cmds = s.cmds := rfl
@[simp] theorem State.setHost_led (s : State) (x : HostPort) : (s.setHost x).led = s.led := rfl
@[simp] theorem State.setHost_sch (s : State) (x : HostPort) : (s.setHost x).sch = s.sch := rfl
@[simp] theorem State.setHost_qm (s : State) (x : HostPort) : (s.setHost x).qm = s.qm := rfl
@[simp] theorem State.setHost_vcs (s : State) (x : HostPort) : (s.setHost x).vcs = s.vcs := rfl
@[simp] theorem State.setHost_ten (s : State) (x : HostPort) : (s.setHost x).ten = s.ten := rfl
@[simp] theorem State.setHost_sw (s : State) (x : HostPort) : (s.setHost x).sw = s.sw := rfl
@[simp] theorem State.setHost_tdm (s : State) (x : HostPort) : (s.setHost x).tdm = s.tdm := rfl
@[simp] theorem State.setHost_tim (s : State) (x : HostPort) : (s.setHost x).tim = s.tim := rfl
@[simp] theorem State.setHost_dfl (s : State) (x : HostPort) : (s.setHost x).dfl = s.dfl := rfl
@[simp] theorem State.setHost_uarts (s : State) (x : HostPort) : (s.setHost x).uarts = s.uarts := rfl
@[simp] theorem State.setHost_ism (s : State) (x : HostPort) : (s.setHost x).ism = s.ism := rfl
@[simp] theorem State.setHost_saf (s : State) (x : HostPort) : (s.setHost x).saf = s.saf := rfl
@[simp] theorem State.setHost_cal (s : State) (x : HostPort) : (s.setHost x).cal = s.cal := rfl
@[simp] theorem State.setHost_fi (s : State) (x : HostPort) : (s.setHost x).fi = s.fi := rfl
@[simp] theorem State.setHost_mem (s : State) (x : HostPort) : (s.setHost x).mem = s.mem := rfl
@[simp] theorem State.setHost_free (s : State) (x : HostPort) : (s.setHost x).free = s.free := rfl
@[simp] theorem State.setHost_pending (s : State) (x : HostPort) : (s.setHost x).pending = s.pending := rfl

@[simp] theorem State.setCmds_hw (s : State) (x : Commands) : (s.setCmds x).hw = s.hw := rfl
@[simp] theorem State.setCmds_boot (s : State) (x : Commands) : (s.setCmds x).boot = s.boot := rfl
@[simp] theorem State.setCmds_pwr (s : State) (x : Commands) : (s.setCmds x).pwr = s.pwr := rfl
@[simp] theorem State.setCmds_therm (s : State) (x : Commands) : (s.setCmds x).therm = s.therm := rfl
@[simp] theorem State.setCmds_pins (s : State) (x : Commands) : (s.setCmds x).pins = s.pins := rfl
@[simp] theorem State.setCmds_clk (s : State) (x : Commands) : (s.setCmds x).clk = s.clk := rfl
@[simp] theorem State.setCmds_host (s : State) (x : Commands) : (s.setCmds x).host = s.host := rfl
@[simp] theorem State.setCmds_cmds (s : State) (x : Commands) : (s.setCmds x).cmds = x := rfl
@[simp] theorem State.setCmds_led (s : State) (x : Commands) : (s.setCmds x).led = s.led := rfl
@[simp] theorem State.setCmds_sch (s : State) (x : Commands) : (s.setCmds x).sch = s.sch := rfl
@[simp] theorem State.setCmds_qm (s : State) (x : Commands) : (s.setCmds x).qm = s.qm := rfl
@[simp] theorem State.setCmds_vcs (s : State) (x : Commands) : (s.setCmds x).vcs = s.vcs := rfl
@[simp] theorem State.setCmds_ten (s : State) (x : Commands) : (s.setCmds x).ten = s.ten := rfl
@[simp] theorem State.setCmds_sw (s : State) (x : Commands) : (s.setCmds x).sw = s.sw := rfl
@[simp] theorem State.setCmds_tdm (s : State) (x : Commands) : (s.setCmds x).tdm = s.tdm := rfl
@[simp] theorem State.setCmds_tim (s : State) (x : Commands) : (s.setCmds x).tim = s.tim := rfl
@[simp] theorem State.setCmds_dfl (s : State) (x : Commands) : (s.setCmds x).dfl = s.dfl := rfl
@[simp] theorem State.setCmds_uarts (s : State) (x : Commands) : (s.setCmds x).uarts = s.uarts := rfl
@[simp] theorem State.setCmds_ism (s : State) (x : Commands) : (s.setCmds x).ism = s.ism := rfl
@[simp] theorem State.setCmds_saf (s : State) (x : Commands) : (s.setCmds x).saf = s.saf := rfl
@[simp] theorem State.setCmds_cal (s : State) (x : Commands) : (s.setCmds x).cal = s.cal := rfl
@[simp] theorem State.setCmds_fi (s : State) (x : Commands) : (s.setCmds x).fi = s.fi := rfl
@[simp] theorem State.setCmds_mem (s : State) (x : Commands) : (s.setCmds x).mem = s.mem := rfl
@[simp] theorem State.setCmds_free (s : State) (x : Commands) : (s.setCmds x).free = s.free := rfl
@[simp] theorem State.setCmds_pending (s : State) (x : Commands) : (s.setCmds x).pending = s.pending := rfl

@[simp] theorem State.setLed_hw (s : State) (x : Ledger) : (s.setLed x).hw = s.hw := rfl
@[simp] theorem State.setLed_boot (s : State) (x : Ledger) : (s.setLed x).boot = s.boot := rfl
@[simp] theorem State.setLed_pwr (s : State) (x : Ledger) : (s.setLed x).pwr = s.pwr := rfl
@[simp] theorem State.setLed_therm (s : State) (x : Ledger) : (s.setLed x).therm = s.therm := rfl
@[simp] theorem State.setLed_pins (s : State) (x : Ledger) : (s.setLed x).pins = s.pins := rfl
@[simp] theorem State.setLed_clk (s : State) (x : Ledger) : (s.setLed x).clk = s.clk := rfl
@[simp] theorem State.setLed_host (s : State) (x : Ledger) : (s.setLed x).host = s.host := rfl
@[simp] theorem State.setLed_cmds (s : State) (x : Ledger) : (s.setLed x).cmds = s.cmds := rfl
@[simp] theorem State.setLed_led (s : State) (x : Ledger) : (s.setLed x).led = x := rfl
@[simp] theorem State.setLed_sch (s : State) (x : Ledger) : (s.setLed x).sch = s.sch := rfl
@[simp] theorem State.setLed_qm (s : State) (x : Ledger) : (s.setLed x).qm = s.qm := rfl
@[simp] theorem State.setLed_vcs (s : State) (x : Ledger) : (s.setLed x).vcs = s.vcs := rfl
@[simp] theorem State.setLed_ten (s : State) (x : Ledger) : (s.setLed x).ten = s.ten := rfl
@[simp] theorem State.setLed_sw (s : State) (x : Ledger) : (s.setLed x).sw = s.sw := rfl
@[simp] theorem State.setLed_tdm (s : State) (x : Ledger) : (s.setLed x).tdm = s.tdm := rfl
@[simp] theorem State.setLed_tim (s : State) (x : Ledger) : (s.setLed x).tim = s.tim := rfl
@[simp] theorem State.setLed_dfl (s : State) (x : Ledger) : (s.setLed x).dfl = s.dfl := rfl
@[simp] theorem State.setLed_uarts (s : State) (x : Ledger) : (s.setLed x).uarts = s.uarts := rfl
@[simp] theorem State.setLed_ism (s : State) (x : Ledger) : (s.setLed x).ism = s.ism := rfl
@[simp] theorem State.setLed_saf (s : State) (x : Ledger) : (s.setLed x).saf = s.saf := rfl
@[simp] theorem State.setLed_cal (s : State) (x : Ledger) : (s.setLed x).cal = s.cal := rfl
@[simp] theorem State.setLed_fi (s : State) (x : Ledger) : (s.setLed x).fi = s.fi := rfl
@[simp] theorem State.setLed_mem (s : State) (x : Ledger) : (s.setLed x).mem = s.mem := rfl
@[simp] theorem State.setLed_free (s : State) (x : Ledger) : (s.setLed x).free = s.free := rfl
@[simp] theorem State.setLed_pending (s : State) (x : Ledger) : (s.setLed x).pending = s.pending := rfl

@[simp] theorem State.setSch_hw (s : State) (x : Sched) : (s.setSch x).hw = s.hw := rfl
@[simp] theorem State.setSch_boot (s : State) (x : Sched) : (s.setSch x).boot = s.boot := rfl
@[simp] theorem State.setSch_pwr (s : State) (x : Sched) : (s.setSch x).pwr = s.pwr := rfl
@[simp] theorem State.setSch_therm (s : State) (x : Sched) : (s.setSch x).therm = s.therm := rfl
@[simp] theorem State.setSch_pins (s : State) (x : Sched) : (s.setSch x).pins = s.pins := rfl
@[simp] theorem State.setSch_clk (s : State) (x : Sched) : (s.setSch x).clk = s.clk := rfl
@[simp] theorem State.setSch_host (s : State) (x : Sched) : (s.setSch x).host = s.host := rfl
@[simp] theorem State.setSch_cmds (s : State) (x : Sched) : (s.setSch x).cmds = s.cmds := rfl
@[simp] theorem State.setSch_led (s : State) (x : Sched) : (s.setSch x).led = s.led := rfl
@[simp] theorem State.setSch_sch (s : State) (x : Sched) : (s.setSch x).sch = x := rfl
@[simp] theorem State.setSch_qm (s : State) (x : Sched) : (s.setSch x).qm = s.qm := rfl
@[simp] theorem State.setSch_vcs (s : State) (x : Sched) : (s.setSch x).vcs = s.vcs := rfl
@[simp] theorem State.setSch_ten (s : State) (x : Sched) : (s.setSch x).ten = s.ten := rfl
@[simp] theorem State.setSch_sw (s : State) (x : Sched) : (s.setSch x).sw = s.sw := rfl
@[simp] theorem State.setSch_tdm (s : State) (x : Sched) : (s.setSch x).tdm = s.tdm := rfl
@[simp] theorem State.setSch_tim (s : State) (x : Sched) : (s.setSch x).tim = s.tim := rfl
@[simp] theorem State.setSch_dfl (s : State) (x : Sched) : (s.setSch x).dfl = s.dfl := rfl
@[simp] theorem State.setSch_uarts (s : State) (x : Sched) : (s.setSch x).uarts = s.uarts := rfl
@[simp] theorem State.setSch_ism (s : State) (x : Sched) : (s.setSch x).ism = s.ism := rfl
@[simp] theorem State.setSch_saf (s : State) (x : Sched) : (s.setSch x).saf = s.saf := rfl
@[simp] theorem State.setSch_cal (s : State) (x : Sched) : (s.setSch x).cal = s.cal := rfl
@[simp] theorem State.setSch_fi (s : State) (x : Sched) : (s.setSch x).fi = s.fi := rfl
@[simp] theorem State.setSch_mem (s : State) (x : Sched) : (s.setSch x).mem = s.mem := rfl
@[simp] theorem State.setSch_free (s : State) (x : Sched) : (s.setSch x).free = s.free := rfl
@[simp] theorem State.setSch_pending (s : State) (x : Sched) : (s.setSch x).pending = s.pending := rfl

@[simp] theorem State.setQm_hw (s : State) (x : Queues) : (s.setQm x).hw = s.hw := rfl
@[simp] theorem State.setQm_boot (s : State) (x : Queues) : (s.setQm x).boot = s.boot := rfl
@[simp] theorem State.setQm_pwr (s : State) (x : Queues) : (s.setQm x).pwr = s.pwr := rfl
@[simp] theorem State.setQm_therm (s : State) (x : Queues) : (s.setQm x).therm = s.therm := rfl
@[simp] theorem State.setQm_pins (s : State) (x : Queues) : (s.setQm x).pins = s.pins := rfl
@[simp] theorem State.setQm_clk (s : State) (x : Queues) : (s.setQm x).clk = s.clk := rfl
@[simp] theorem State.setQm_host (s : State) (x : Queues) : (s.setQm x).host = s.host := rfl
@[simp] theorem State.setQm_cmds (s : State) (x : Queues) : (s.setQm x).cmds = s.cmds := rfl
@[simp] theorem State.setQm_led (s : State) (x : Queues) : (s.setQm x).led = s.led := rfl
@[simp] theorem State.setQm_sch (s : State) (x : Queues) : (s.setQm x).sch = s.sch := rfl
@[simp] theorem State.setQm_qm (s : State) (x : Queues) : (s.setQm x).qm = x := rfl
@[simp] theorem State.setQm_vcs (s : State) (x : Queues) : (s.setQm x).vcs = s.vcs := rfl
@[simp] theorem State.setQm_ten (s : State) (x : Queues) : (s.setQm x).ten = s.ten := rfl
@[simp] theorem State.setQm_sw (s : State) (x : Queues) : (s.setQm x).sw = s.sw := rfl
@[simp] theorem State.setQm_tdm (s : State) (x : Queues) : (s.setQm x).tdm = s.tdm := rfl
@[simp] theorem State.setQm_tim (s : State) (x : Queues) : (s.setQm x).tim = s.tim := rfl
@[simp] theorem State.setQm_dfl (s : State) (x : Queues) : (s.setQm x).dfl = s.dfl := rfl
@[simp] theorem State.setQm_uarts (s : State) (x : Queues) : (s.setQm x).uarts = s.uarts := rfl
@[simp] theorem State.setQm_ism (s : State) (x : Queues) : (s.setQm x).ism = s.ism := rfl
@[simp] theorem State.setQm_saf (s : State) (x : Queues) : (s.setQm x).saf = s.saf := rfl
@[simp] theorem State.setQm_cal (s : State) (x : Queues) : (s.setQm x).cal = s.cal := rfl
@[simp] theorem State.setQm_fi (s : State) (x : Queues) : (s.setQm x).fi = s.fi := rfl
@[simp] theorem State.setQm_mem (s : State) (x : Queues) : (s.setQm x).mem = s.mem := rfl
@[simp] theorem State.setQm_free (s : State) (x : Queues) : (s.setQm x).free = s.free := rfl
@[simp] theorem State.setQm_pending (s : State) (x : Queues) : (s.setQm x).pending = s.pending := rfl

@[simp] theorem State.setVcs_hw (s : State) (x : AL CoreNo Core) : (s.setVcs x).hw = s.hw := rfl
@[simp] theorem State.setVcs_boot (s : State) (x : AL CoreNo Core) : (s.setVcs x).boot = s.boot := rfl
@[simp] theorem State.setVcs_pwr (s : State) (x : AL CoreNo Core) : (s.setVcs x).pwr = s.pwr := rfl
@[simp] theorem State.setVcs_therm (s : State) (x : AL CoreNo Core) : (s.setVcs x).therm = s.therm := rfl
@[simp] theorem State.setVcs_pins (s : State) (x : AL CoreNo Core) : (s.setVcs x).pins = s.pins := rfl
@[simp] theorem State.setVcs_clk (s : State) (x : AL CoreNo Core) : (s.setVcs x).clk = s.clk := rfl
@[simp] theorem State.setVcs_host (s : State) (x : AL CoreNo Core) : (s.setVcs x).host = s.host := rfl
@[simp] theorem State.setVcs_cmds (s : State) (x : AL CoreNo Core) : (s.setVcs x).cmds = s.cmds := rfl
@[simp] theorem State.setVcs_led (s : State) (x : AL CoreNo Core) : (s.setVcs x).led = s.led := rfl
@[simp] theorem State.setVcs_sch (s : State) (x : AL CoreNo Core) : (s.setVcs x).sch = s.sch := rfl
@[simp] theorem State.setVcs_qm (s : State) (x : AL CoreNo Core) : (s.setVcs x).qm = s.qm := rfl
@[simp] theorem State.setVcs_vcs (s : State) (x : AL CoreNo Core) : (s.setVcs x).vcs = x := rfl
@[simp] theorem State.setVcs_ten (s : State) (x : AL CoreNo Core) : (s.setVcs x).ten = s.ten := rfl
@[simp] theorem State.setVcs_sw (s : State) (x : AL CoreNo Core) : (s.setVcs x).sw = s.sw := rfl
@[simp] theorem State.setVcs_tdm (s : State) (x : AL CoreNo Core) : (s.setVcs x).tdm = s.tdm := rfl
@[simp] theorem State.setVcs_tim (s : State) (x : AL CoreNo Core) : (s.setVcs x).tim = s.tim := rfl
@[simp] theorem State.setVcs_dfl (s : State) (x : AL CoreNo Core) : (s.setVcs x).dfl = s.dfl := rfl
@[simp] theorem State.setVcs_uarts (s : State) (x : AL CoreNo Core) : (s.setVcs x).uarts = s.uarts := rfl
@[simp] theorem State.setVcs_ism (s : State) (x : AL CoreNo Core) : (s.setVcs x).ism = s.ism := rfl
@[simp] theorem State.setVcs_saf (s : State) (x : AL CoreNo Core) : (s.setVcs x).saf = s.saf := rfl
@[simp] theorem State.setVcs_cal (s : State) (x : AL CoreNo Core) : (s.setVcs x).cal = s.cal := rfl
@[simp] theorem State.setVcs_fi (s : State) (x : AL CoreNo Core) : (s.setVcs x).fi = s.fi := rfl
@[simp] theorem State.setVcs_mem (s : State) (x : AL CoreNo Core) : (s.setVcs x).mem = s.mem := rfl
@[simp] theorem State.setVcs_free (s : State) (x : AL CoreNo Core) : (s.setVcs x).free = s.free := rfl
@[simp] theorem State.setVcs_pending (s : State) (x : AL CoreNo Core) : (s.setVcs x).pending = s.pending := rfl

@[simp] theorem State.setTen_hw (s : State) (x : Tensor) : (s.setTen x).hw = s.hw := rfl
@[simp] theorem State.setTen_boot (s : State) (x : Tensor) : (s.setTen x).boot = s.boot := rfl
@[simp] theorem State.setTen_pwr (s : State) (x : Tensor) : (s.setTen x).pwr = s.pwr := rfl
@[simp] theorem State.setTen_therm (s : State) (x : Tensor) : (s.setTen x).therm = s.therm := rfl
@[simp] theorem State.setTen_pins (s : State) (x : Tensor) : (s.setTen x).pins = s.pins := rfl
@[simp] theorem State.setTen_clk (s : State) (x : Tensor) : (s.setTen x).clk = s.clk := rfl
@[simp] theorem State.setTen_host (s : State) (x : Tensor) : (s.setTen x).host = s.host := rfl
@[simp] theorem State.setTen_cmds (s : State) (x : Tensor) : (s.setTen x).cmds = s.cmds := rfl
@[simp] theorem State.setTen_led (s : State) (x : Tensor) : (s.setTen x).led = s.led := rfl
@[simp] theorem State.setTen_sch (s : State) (x : Tensor) : (s.setTen x).sch = s.sch := rfl
@[simp] theorem State.setTen_qm (s : State) (x : Tensor) : (s.setTen x).qm = s.qm := rfl
@[simp] theorem State.setTen_vcs (s : State) (x : Tensor) : (s.setTen x).vcs = s.vcs := rfl
@[simp] theorem State.setTen_ten (s : State) (x : Tensor) : (s.setTen x).ten = x := rfl
@[simp] theorem State.setTen_sw (s : State) (x : Tensor) : (s.setTen x).sw = s.sw := rfl
@[simp] theorem State.setTen_tdm (s : State) (x : Tensor) : (s.setTen x).tdm = s.tdm := rfl
@[simp] theorem State.setTen_tim (s : State) (x : Tensor) : (s.setTen x).tim = s.tim := rfl
@[simp] theorem State.setTen_dfl (s : State) (x : Tensor) : (s.setTen x).dfl = s.dfl := rfl
@[simp] theorem State.setTen_uarts (s : State) (x : Tensor) : (s.setTen x).uarts = s.uarts := rfl
@[simp] theorem State.setTen_ism (s : State) (x : Tensor) : (s.setTen x).ism = s.ism := rfl
@[simp] theorem State.setTen_saf (s : State) (x : Tensor) : (s.setTen x).saf = s.saf := rfl
@[simp] theorem State.setTen_cal (s : State) (x : Tensor) : (s.setTen x).cal = s.cal := rfl
@[simp] theorem State.setTen_fi (s : State) (x : Tensor) : (s.setTen x).fi = s.fi := rfl
@[simp] theorem State.setTen_mem (s : State) (x : Tensor) : (s.setTen x).mem = s.mem := rfl
@[simp] theorem State.setTen_free (s : State) (x : Tensor) : (s.setTen x).free = s.free := rfl
@[simp] theorem State.setTen_pending (s : State) (x : Tensor) : (s.setTen x).pending = s.pending := rfl

@[simp] theorem State.setSw_hw (s : State) (x : Switch) : (s.setSw x).hw = s.hw := rfl
@[simp] theorem State.setSw_boot (s : State) (x : Switch) : (s.setSw x).boot = s.boot := rfl
@[simp] theorem State.setSw_pwr (s : State) (x : Switch) : (s.setSw x).pwr = s.pwr := rfl
@[simp] theorem State.setSw_therm (s : State) (x : Switch) : (s.setSw x).therm = s.therm := rfl
@[simp] theorem State.setSw_pins (s : State) (x : Switch) : (s.setSw x).pins = s.pins := rfl
@[simp] theorem State.setSw_clk (s : State) (x : Switch) : (s.setSw x).clk = s.clk := rfl
@[simp] theorem State.setSw_host (s : State) (x : Switch) : (s.setSw x).host = s.host := rfl
@[simp] theorem State.setSw_cmds (s : State) (x : Switch) : (s.setSw x).cmds = s.cmds := rfl
@[simp] theorem State.setSw_led (s : State) (x : Switch) : (s.setSw x).led = s.led := rfl
@[simp] theorem State.setSw_sch (s : State) (x : Switch) : (s.setSw x).sch = s.sch := rfl
@[simp] theorem State.setSw_qm (s : State) (x : Switch) : (s.setSw x).qm = s.qm := rfl
@[simp] theorem State.setSw_vcs (s : State) (x : Switch) : (s.setSw x).vcs = s.vcs := rfl
@[simp] theorem State.setSw_ten (s : State) (x : Switch) : (s.setSw x).ten = s.ten := rfl
@[simp] theorem State.setSw_sw (s : State) (x : Switch) : (s.setSw x).sw = x := rfl
@[simp] theorem State.setSw_tdm (s : State) (x : Switch) : (s.setSw x).tdm = s.tdm := rfl
@[simp] theorem State.setSw_tim (s : State) (x : Switch) : (s.setSw x).tim = s.tim := rfl
@[simp] theorem State.setSw_dfl (s : State) (x : Switch) : (s.setSw x).dfl = s.dfl := rfl
@[simp] theorem State.setSw_uarts (s : State) (x : Switch) : (s.setSw x).uarts = s.uarts := rfl
@[simp] theorem State.setSw_ism (s : State) (x : Switch) : (s.setSw x).ism = s.ism := rfl
@[simp] theorem State.setSw_saf (s : State) (x : Switch) : (s.setSw x).saf = s.saf := rfl
@[simp] theorem State.setSw_cal (s : State) (x : Switch) : (s.setSw x).cal = s.cal := rfl
@[simp] theorem State.setSw_fi (s : State) (x : Switch) : (s.setSw x).fi = s.fi := rfl
@[simp] theorem State.setSw_mem (s : State) (x : Switch) : (s.setSw x).mem = s.mem := rfl
@[simp] theorem State.setSw_free (s : State) (x : Switch) : (s.setSw x).free = s.free := rfl
@[simp] theorem State.setSw_pending (s : State) (x : Switch) : (s.setSw x).pending = s.pending := rfl

@[simp] theorem State.setTdm_hw (s : State) (x : List Highway) : (s.setTdm x).hw = s.hw := rfl
@[simp] theorem State.setTdm_boot (s : State) (x : List Highway) : (s.setTdm x).boot = s.boot := rfl
@[simp] theorem State.setTdm_pwr (s : State) (x : List Highway) : (s.setTdm x).pwr = s.pwr := rfl
@[simp] theorem State.setTdm_therm (s : State) (x : List Highway) : (s.setTdm x).therm = s.therm := rfl
@[simp] theorem State.setTdm_pins (s : State) (x : List Highway) : (s.setTdm x).pins = s.pins := rfl
@[simp] theorem State.setTdm_clk (s : State) (x : List Highway) : (s.setTdm x).clk = s.clk := rfl
@[simp] theorem State.setTdm_host (s : State) (x : List Highway) : (s.setTdm x).host = s.host := rfl
@[simp] theorem State.setTdm_cmds (s : State) (x : List Highway) : (s.setTdm x).cmds = s.cmds := rfl
@[simp] theorem State.setTdm_led (s : State) (x : List Highway) : (s.setTdm x).led = s.led := rfl
@[simp] theorem State.setTdm_sch (s : State) (x : List Highway) : (s.setTdm x).sch = s.sch := rfl
@[simp] theorem State.setTdm_qm (s : State) (x : List Highway) : (s.setTdm x).qm = s.qm := rfl
@[simp] theorem State.setTdm_vcs (s : State) (x : List Highway) : (s.setTdm x).vcs = s.vcs := rfl
@[simp] theorem State.setTdm_ten (s : State) (x : List Highway) : (s.setTdm x).ten = s.ten := rfl
@[simp] theorem State.setTdm_sw (s : State) (x : List Highway) : (s.setTdm x).sw = s.sw := rfl
@[simp] theorem State.setTdm_tdm (s : State) (x : List Highway) : (s.setTdm x).tdm = x := rfl
@[simp] theorem State.setTdm_tim (s : State) (x : List Highway) : (s.setTdm x).tim = s.tim := rfl
@[simp] theorem State.setTdm_dfl (s : State) (x : List Highway) : (s.setTdm x).dfl = s.dfl := rfl
@[simp] theorem State.setTdm_uarts (s : State) (x : List Highway) : (s.setTdm x).uarts = s.uarts := rfl
@[simp] theorem State.setTdm_ism (s : State) (x : List Highway) : (s.setTdm x).ism = s.ism := rfl
@[simp] theorem State.setTdm_saf (s : State) (x : List Highway) : (s.setTdm x).saf = s.saf := rfl
@[simp] theorem State.setTdm_cal (s : State) (x : List Highway) : (s.setTdm x).cal = s.cal := rfl
@[simp] theorem State.setTdm_fi (s : State) (x : List Highway) : (s.setTdm x).fi = s.fi := rfl
@[simp] theorem State.setTdm_mem (s : State) (x : List Highway) : (s.setTdm x).mem = s.mem := rfl
@[simp] theorem State.setTdm_free (s : State) (x : List Highway) : (s.setTdm x).free = s.free := rfl
@[simp] theorem State.setTdm_pending (s : State) (x : List Highway) : (s.setTdm x).pending = s.pending := rfl

@[simp] theorem State.setTim_hw (s : State) (x : TimeUnit) : (s.setTim x).hw = s.hw := rfl
@[simp] theorem State.setTim_boot (s : State) (x : TimeUnit) : (s.setTim x).boot = s.boot := rfl
@[simp] theorem State.setTim_pwr (s : State) (x : TimeUnit) : (s.setTim x).pwr = s.pwr := rfl
@[simp] theorem State.setTim_therm (s : State) (x : TimeUnit) : (s.setTim x).therm = s.therm := rfl
@[simp] theorem State.setTim_pins (s : State) (x : TimeUnit) : (s.setTim x).pins = s.pins := rfl
@[simp] theorem State.setTim_clk (s : State) (x : TimeUnit) : (s.setTim x).clk = s.clk := rfl
@[simp] theorem State.setTim_host (s : State) (x : TimeUnit) : (s.setTim x).host = s.host := rfl
@[simp] theorem State.setTim_cmds (s : State) (x : TimeUnit) : (s.setTim x).cmds = s.cmds := rfl
@[simp] theorem State.setTim_led (s : State) (x : TimeUnit) : (s.setTim x).led = s.led := rfl
@[simp] theorem State.setTim_sch (s : State) (x : TimeUnit) : (s.setTim x).sch = s.sch := rfl
@[simp] theorem State.setTim_qm (s : State) (x : TimeUnit) : (s.setTim x).qm = s.qm := rfl
@[simp] theorem State.setTim_vcs (s : State) (x : TimeUnit) : (s.setTim x).vcs = s.vcs := rfl
@[simp] theorem State.setTim_ten (s : State) (x : TimeUnit) : (s.setTim x).ten = s.ten := rfl
@[simp] theorem State.setTim_sw (s : State) (x : TimeUnit) : (s.setTim x).sw = s.sw := rfl
@[simp] theorem State.setTim_tdm (s : State) (x : TimeUnit) : (s.setTim x).tdm = s.tdm := rfl
@[simp] theorem State.setTim_tim (s : State) (x : TimeUnit) : (s.setTim x).tim = x := rfl
@[simp] theorem State.setTim_dfl (s : State) (x : TimeUnit) : (s.setTim x).dfl = s.dfl := rfl
@[simp] theorem State.setTim_uarts (s : State) (x : TimeUnit) : (s.setTim x).uarts = s.uarts := rfl
@[simp] theorem State.setTim_ism (s : State) (x : TimeUnit) : (s.setTim x).ism = s.ism := rfl
@[simp] theorem State.setTim_saf (s : State) (x : TimeUnit) : (s.setTim x).saf = s.saf := rfl
@[simp] theorem State.setTim_cal (s : State) (x : TimeUnit) : (s.setTim x).cal = s.cal := rfl
@[simp] theorem State.setTim_fi (s : State) (x : TimeUnit) : (s.setTim x).fi = s.fi := rfl
@[simp] theorem State.setTim_mem (s : State) (x : TimeUnit) : (s.setTim x).mem = s.mem := rfl
@[simp] theorem State.setTim_free (s : State) (x : TimeUnit) : (s.setTim x).free = s.free := rfl
@[simp] theorem State.setTim_pending (s : State) (x : TimeUnit) : (s.setTim x).pending = s.pending := rfl

@[simp] theorem State.setDfl_hw (s : State) (x : Deflate) : (s.setDfl x).hw = s.hw := rfl
@[simp] theorem State.setDfl_boot (s : State) (x : Deflate) : (s.setDfl x).boot = s.boot := rfl
@[simp] theorem State.setDfl_pwr (s : State) (x : Deflate) : (s.setDfl x).pwr = s.pwr := rfl
@[simp] theorem State.setDfl_therm (s : State) (x : Deflate) : (s.setDfl x).therm = s.therm := rfl
@[simp] theorem State.setDfl_pins (s : State) (x : Deflate) : (s.setDfl x).pins = s.pins := rfl
@[simp] theorem State.setDfl_clk (s : State) (x : Deflate) : (s.setDfl x).clk = s.clk := rfl
@[simp] theorem State.setDfl_host (s : State) (x : Deflate) : (s.setDfl x).host = s.host := rfl
@[simp] theorem State.setDfl_cmds (s : State) (x : Deflate) : (s.setDfl x).cmds = s.cmds := rfl
@[simp] theorem State.setDfl_led (s : State) (x : Deflate) : (s.setDfl x).led = s.led := rfl
@[simp] theorem State.setDfl_sch (s : State) (x : Deflate) : (s.setDfl x).sch = s.sch := rfl
@[simp] theorem State.setDfl_qm (s : State) (x : Deflate) : (s.setDfl x).qm = s.qm := rfl
@[simp] theorem State.setDfl_vcs (s : State) (x : Deflate) : (s.setDfl x).vcs = s.vcs := rfl
@[simp] theorem State.setDfl_ten (s : State) (x : Deflate) : (s.setDfl x).ten = s.ten := rfl
@[simp] theorem State.setDfl_sw (s : State) (x : Deflate) : (s.setDfl x).sw = s.sw := rfl
@[simp] theorem State.setDfl_tdm (s : State) (x : Deflate) : (s.setDfl x).tdm = s.tdm := rfl
@[simp] theorem State.setDfl_tim (s : State) (x : Deflate) : (s.setDfl x).tim = s.tim := rfl
@[simp] theorem State.setDfl_dfl (s : State) (x : Deflate) : (s.setDfl x).dfl = x := rfl
@[simp] theorem State.setDfl_uarts (s : State) (x : Deflate) : (s.setDfl x).uarts = s.uarts := rfl
@[simp] theorem State.setDfl_ism (s : State) (x : Deflate) : (s.setDfl x).ism = s.ism := rfl
@[simp] theorem State.setDfl_saf (s : State) (x : Deflate) : (s.setDfl x).saf = s.saf := rfl
@[simp] theorem State.setDfl_cal (s : State) (x : Deflate) : (s.setDfl x).cal = s.cal := rfl
@[simp] theorem State.setDfl_fi (s : State) (x : Deflate) : (s.setDfl x).fi = s.fi := rfl
@[simp] theorem State.setDfl_mem (s : State) (x : Deflate) : (s.setDfl x).mem = s.mem := rfl
@[simp] theorem State.setDfl_free (s : State) (x : Deflate) : (s.setDfl x).free = s.free := rfl
@[simp] theorem State.setDfl_pending (s : State) (x : Deflate) : (s.setDfl x).pending = s.pending := rfl

@[simp] theorem State.setUarts_hw (s : State) (x : List Uart) : (s.setUarts x).hw = s.hw := rfl
@[simp] theorem State.setUarts_boot (s : State) (x : List Uart) : (s.setUarts x).boot = s.boot := rfl
@[simp] theorem State.setUarts_pwr (s : State) (x : List Uart) : (s.setUarts x).pwr = s.pwr := rfl
@[simp] theorem State.setUarts_therm (s : State) (x : List Uart) : (s.setUarts x).therm = s.therm := rfl
@[simp] theorem State.setUarts_pins (s : State) (x : List Uart) : (s.setUarts x).pins = s.pins := rfl
@[simp] theorem State.setUarts_clk (s : State) (x : List Uart) : (s.setUarts x).clk = s.clk := rfl
@[simp] theorem State.setUarts_host (s : State) (x : List Uart) : (s.setUarts x).host = s.host := rfl
@[simp] theorem State.setUarts_cmds (s : State) (x : List Uart) : (s.setUarts x).cmds = s.cmds := rfl
@[simp] theorem State.setUarts_led (s : State) (x : List Uart) : (s.setUarts x).led = s.led := rfl
@[simp] theorem State.setUarts_sch (s : State) (x : List Uart) : (s.setUarts x).sch = s.sch := rfl
@[simp] theorem State.setUarts_qm (s : State) (x : List Uart) : (s.setUarts x).qm = s.qm := rfl
@[simp] theorem State.setUarts_vcs (s : State) (x : List Uart) : (s.setUarts x).vcs = s.vcs := rfl
@[simp] theorem State.setUarts_ten (s : State) (x : List Uart) : (s.setUarts x).ten = s.ten := rfl
@[simp] theorem State.setUarts_sw (s : State) (x : List Uart) : (s.setUarts x).sw = s.sw := rfl
@[simp] theorem State.setUarts_tdm (s : State) (x : List Uart) : (s.setUarts x).tdm = s.tdm := rfl
@[simp] theorem State.setUarts_tim (s : State) (x : List Uart) : (s.setUarts x).tim = s.tim := rfl
@[simp] theorem State.setUarts_dfl (s : State) (x : List Uart) : (s.setUarts x).dfl = s.dfl := rfl
@[simp] theorem State.setUarts_uarts (s : State) (x : List Uart) : (s.setUarts x).uarts = x := rfl
@[simp] theorem State.setUarts_ism (s : State) (x : List Uart) : (s.setUarts x).ism = s.ism := rfl
@[simp] theorem State.setUarts_saf (s : State) (x : List Uart) : (s.setUarts x).saf = s.saf := rfl
@[simp] theorem State.setUarts_cal (s : State) (x : List Uart) : (s.setUarts x).cal = s.cal := rfl
@[simp] theorem State.setUarts_fi (s : State) (x : List Uart) : (s.setUarts x).fi = s.fi := rfl
@[simp] theorem State.setUarts_mem (s : State) (x : List Uart) : (s.setUarts x).mem = s.mem := rfl
@[simp] theorem State.setUarts_free (s : State) (x : List Uart) : (s.setUarts x).free = s.free := rfl
@[simp] theorem State.setUarts_pending (s : State) (x : List Uart) : (s.setUarts x).pending = s.pending := rfl

@[simp] theorem State.setIsm_hw (s : State) (x : Ismorlink) : (s.setIsm x).hw = s.hw := rfl
@[simp] theorem State.setIsm_boot (s : State) (x : Ismorlink) : (s.setIsm x).boot = s.boot := rfl
@[simp] theorem State.setIsm_pwr (s : State) (x : Ismorlink) : (s.setIsm x).pwr = s.pwr := rfl
@[simp] theorem State.setIsm_therm (s : State) (x : Ismorlink) : (s.setIsm x).therm = s.therm := rfl
@[simp] theorem State.setIsm_pins (s : State) (x : Ismorlink) : (s.setIsm x).pins = s.pins := rfl
@[simp] theorem State.setIsm_clk (s : State) (x : Ismorlink) : (s.setIsm x).clk = s.clk := rfl
@[simp] theorem State.setIsm_host (s : State) (x : Ismorlink) : (s.setIsm x).host = s.host := rfl
@[simp] theorem State.setIsm_cmds (s : State) (x : Ismorlink) : (s.setIsm x).cmds = s.cmds := rfl
@[simp] theorem State.setIsm_led (s : State) (x : Ismorlink) : (s.setIsm x).led = s.led := rfl
@[simp] theorem State.setIsm_sch (s : State) (x : Ismorlink) : (s.setIsm x).sch = s.sch := rfl
@[simp] theorem State.setIsm_qm (s : State) (x : Ismorlink) : (s.setIsm x).qm = s.qm := rfl
@[simp] theorem State.setIsm_vcs (s : State) (x : Ismorlink) : (s.setIsm x).vcs = s.vcs := rfl
@[simp] theorem State.setIsm_ten (s : State) (x : Ismorlink) : (s.setIsm x).ten = s.ten := rfl
@[simp] theorem State.setIsm_sw (s : State) (x : Ismorlink) : (s.setIsm x).sw = s.sw := rfl
@[simp] theorem State.setIsm_tdm (s : State) (x : Ismorlink) : (s.setIsm x).tdm = s.tdm := rfl
@[simp] theorem State.setIsm_tim (s : State) (x : Ismorlink) : (s.setIsm x).tim = s.tim := rfl
@[simp] theorem State.setIsm_dfl (s : State) (x : Ismorlink) : (s.setIsm x).dfl = s.dfl := rfl
@[simp] theorem State.setIsm_uarts (s : State) (x : Ismorlink) : (s.setIsm x).uarts = s.uarts := rfl
@[simp] theorem State.setIsm_ism (s : State) (x : Ismorlink) : (s.setIsm x).ism = x := rfl
@[simp] theorem State.setIsm_saf (s : State) (x : Ismorlink) : (s.setIsm x).saf = s.saf := rfl
@[simp] theorem State.setIsm_cal (s : State) (x : Ismorlink) : (s.setIsm x).cal = s.cal := rfl
@[simp] theorem State.setIsm_fi (s : State) (x : Ismorlink) : (s.setIsm x).fi = s.fi := rfl
@[simp] theorem State.setIsm_mem (s : State) (x : Ismorlink) : (s.setIsm x).mem = s.mem := rfl
@[simp] theorem State.setIsm_free (s : State) (x : Ismorlink) : (s.setIsm x).free = s.free := rfl
@[simp] theorem State.setIsm_pending (s : State) (x : Ismorlink) : (s.setIsm x).pending = s.pending := rfl

@[simp] theorem State.setSaf_hw (s : State) (x : Safety) : (s.setSaf x).hw = s.hw := rfl
@[simp] theorem State.setSaf_boot (s : State) (x : Safety) : (s.setSaf x).boot = s.boot := rfl
@[simp] theorem State.setSaf_pwr (s : State) (x : Safety) : (s.setSaf x).pwr = s.pwr := rfl
@[simp] theorem State.setSaf_therm (s : State) (x : Safety) : (s.setSaf x).therm = s.therm := rfl
@[simp] theorem State.setSaf_pins (s : State) (x : Safety) : (s.setSaf x).pins = s.pins := rfl
@[simp] theorem State.setSaf_clk (s : State) (x : Safety) : (s.setSaf x).clk = s.clk := rfl
@[simp] theorem State.setSaf_host (s : State) (x : Safety) : (s.setSaf x).host = s.host := rfl
@[simp] theorem State.setSaf_cmds (s : State) (x : Safety) : (s.setSaf x).cmds = s.cmds := rfl
@[simp] theorem State.setSaf_led (s : State) (x : Safety) : (s.setSaf x).led = s.led := rfl
@[simp] theorem State.setSaf_sch (s : State) (x : Safety) : (s.setSaf x).sch = s.sch := rfl
@[simp] theorem State.setSaf_qm (s : State) (x : Safety) : (s.setSaf x).qm = s.qm := rfl
@[simp] theorem State.setSaf_vcs (s : State) (x : Safety) : (s.setSaf x).vcs = s.vcs := rfl
@[simp] theorem State.setSaf_ten (s : State) (x : Safety) : (s.setSaf x).ten = s.ten := rfl
@[simp] theorem State.setSaf_sw (s : State) (x : Safety) : (s.setSaf x).sw = s.sw := rfl
@[simp] theorem State.setSaf_tdm (s : State) (x : Safety) : (s.setSaf x).tdm = s.tdm := rfl
@[simp] theorem State.setSaf_tim (s : State) (x : Safety) : (s.setSaf x).tim = s.tim := rfl
@[simp] theorem State.setSaf_dfl (s : State) (x : Safety) : (s.setSaf x).dfl = s.dfl := rfl
@[simp] theorem State.setSaf_uarts (s : State) (x : Safety) : (s.setSaf x).uarts = s.uarts := rfl
@[simp] theorem State.setSaf_ism (s : State) (x : Safety) : (s.setSaf x).ism = s.ism := rfl
@[simp] theorem State.setSaf_saf (s : State) (x : Safety) : (s.setSaf x).saf = x := rfl
@[simp] theorem State.setSaf_cal (s : State) (x : Safety) : (s.setSaf x).cal = s.cal := rfl
@[simp] theorem State.setSaf_fi (s : State) (x : Safety) : (s.setSaf x).fi = s.fi := rfl
@[simp] theorem State.setSaf_mem (s : State) (x : Safety) : (s.setSaf x).mem = s.mem := rfl
@[simp] theorem State.setSaf_free (s : State) (x : Safety) : (s.setSaf x).free = s.free := rfl
@[simp] theorem State.setSaf_pending (s : State) (x : Safety) : (s.setSaf x).pending = s.pending := rfl

@[simp] theorem State.setCal_hw (s : State) (x : Calib) : (s.setCal x).hw = s.hw := rfl
@[simp] theorem State.setCal_boot (s : State) (x : Calib) : (s.setCal x).boot = s.boot := rfl
@[simp] theorem State.setCal_pwr (s : State) (x : Calib) : (s.setCal x).pwr = s.pwr := rfl
@[simp] theorem State.setCal_therm (s : State) (x : Calib) : (s.setCal x).therm = s.therm := rfl
@[simp] theorem State.setCal_pins (s : State) (x : Calib) : (s.setCal x).pins = s.pins := rfl
@[simp] theorem State.setCal_clk (s : State) (x : Calib) : (s.setCal x).clk = s.clk := rfl
@[simp] theorem State.setCal_host (s : State) (x : Calib) : (s.setCal x).host = s.host := rfl
@[simp] theorem State.setCal_cmds (s : State) (x : Calib) : (s.setCal x).cmds = s.cmds := rfl
@[simp] theorem State.setCal_led (s : State) (x : Calib) : (s.setCal x).led = s.led := rfl
@[simp] theorem State.setCal_sch (s : State) (x : Calib) : (s.setCal x).sch = s.sch := rfl
@[simp] theorem State.setCal_qm (s : State) (x : Calib) : (s.setCal x).qm = s.qm := rfl
@[simp] theorem State.setCal_vcs (s : State) (x : Calib) : (s.setCal x).vcs = s.vcs := rfl
@[simp] theorem State.setCal_ten (s : State) (x : Calib) : (s.setCal x).ten = s.ten := rfl
@[simp] theorem State.setCal_sw (s : State) (x : Calib) : (s.setCal x).sw = s.sw := rfl
@[simp] theorem State.setCal_tdm (s : State) (x : Calib) : (s.setCal x).tdm = s.tdm := rfl
@[simp] theorem State.setCal_tim (s : State) (x : Calib) : (s.setCal x).tim = s.tim := rfl
@[simp] theorem State.setCal_dfl (s : State) (x : Calib) : (s.setCal x).dfl = s.dfl := rfl
@[simp] theorem State.setCal_uarts (s : State) (x : Calib) : (s.setCal x).uarts = s.uarts := rfl
@[simp] theorem State.setCal_ism (s : State) (x : Calib) : (s.setCal x).ism = s.ism := rfl
@[simp] theorem State.setCal_saf (s : State) (x : Calib) : (s.setCal x).saf = s.saf := rfl
@[simp] theorem State.setCal_cal (s : State) (x : Calib) : (s.setCal x).cal = x := rfl
@[simp] theorem State.setCal_fi (s : State) (x : Calib) : (s.setCal x).fi = s.fi := rfl
@[simp] theorem State.setCal_mem (s : State) (x : Calib) : (s.setCal x).mem = s.mem := rfl
@[simp] theorem State.setCal_free (s : State) (x : Calib) : (s.setCal x).free = s.free := rfl
@[simp] theorem State.setCal_pending (s : State) (x : Calib) : (s.setCal x).pending = s.pending := rfl

@[simp] theorem State.setFi_hw (s : State) (x : Inject) : (s.setFi x).hw = s.hw := rfl
@[simp] theorem State.setFi_boot (s : State) (x : Inject) : (s.setFi x).boot = s.boot := rfl
@[simp] theorem State.setFi_pwr (s : State) (x : Inject) : (s.setFi x).pwr = s.pwr := rfl
@[simp] theorem State.setFi_therm (s : State) (x : Inject) : (s.setFi x).therm = s.therm := rfl
@[simp] theorem State.setFi_pins (s : State) (x : Inject) : (s.setFi x).pins = s.pins := rfl
@[simp] theorem State.setFi_clk (s : State) (x : Inject) : (s.setFi x).clk = s.clk := rfl
@[simp] theorem State.setFi_host (s : State) (x : Inject) : (s.setFi x).host = s.host := rfl
@[simp] theorem State.setFi_cmds (s : State) (x : Inject) : (s.setFi x).cmds = s.cmds := rfl
@[simp] theorem State.setFi_led (s : State) (x : Inject) : (s.setFi x).led = s.led := rfl
@[simp] theorem State.setFi_sch (s : State) (x : Inject) : (s.setFi x).sch = s.sch := rfl
@[simp] theorem State.setFi_qm (s : State) (x : Inject) : (s.setFi x).qm = s.qm := rfl
@[simp] theorem State.setFi_vcs (s : State) (x : Inject) : (s.setFi x).vcs = s.vcs := rfl
@[simp] theorem State.setFi_ten (s : State) (x : Inject) : (s.setFi x).ten = s.ten := rfl
@[simp] theorem State.setFi_sw (s : State) (x : Inject) : (s.setFi x).sw = s.sw := rfl
@[simp] theorem State.setFi_tdm (s : State) (x : Inject) : (s.setFi x).tdm = s.tdm := rfl
@[simp] theorem State.setFi_tim (s : State) (x : Inject) : (s.setFi x).tim = s.tim := rfl
@[simp] theorem State.setFi_dfl (s : State) (x : Inject) : (s.setFi x).dfl = s.dfl := rfl
@[simp] theorem State.setFi_uarts (s : State) (x : Inject) : (s.setFi x).uarts = s.uarts := rfl
@[simp] theorem State.setFi_ism (s : State) (x : Inject) : (s.setFi x).ism = s.ism := rfl
@[simp] theorem State.setFi_saf (s : State) (x : Inject) : (s.setFi x).saf = s.saf := rfl
@[simp] theorem State.setFi_cal (s : State) (x : Inject) : (s.setFi x).cal = s.cal := rfl
@[simp] theorem State.setFi_fi (s : State) (x : Inject) : (s.setFi x).fi = x := rfl
@[simp] theorem State.setFi_mem (s : State) (x : Inject) : (s.setFi x).mem = s.mem := rfl
@[simp] theorem State.setFi_free (s : State) (x : Inject) : (s.setFi x).free = s.free := rfl
@[simp] theorem State.setFi_pending (s : State) (x : Inject) : (s.setFi x).pending = s.pending := rfl

@[simp] theorem State.setPending_hw (s : State) (x : List Instr) : (s.setPending x).hw = s.hw := rfl
@[simp] theorem State.setPending_boot (s : State) (x : List Instr) : (s.setPending x).boot = s.boot := rfl
@[simp] theorem State.setPending_pwr (s : State) (x : List Instr) : (s.setPending x).pwr = s.pwr := rfl
@[simp] theorem State.setPending_therm (s : State) (x : List Instr) : (s.setPending x).therm = s.therm := rfl
@[simp] theorem State.setPending_pins (s : State) (x : List Instr) : (s.setPending x).pins = s.pins := rfl
@[simp] theorem State.setPending_clk (s : State) (x : List Instr) : (s.setPending x).clk = s.clk := rfl
@[simp] theorem State.setPending_host (s : State) (x : List Instr) : (s.setPending x).host = s.host := rfl
@[simp] theorem State.setPending_cmds (s : State) (x : List Instr) : (s.setPending x).cmds = s.cmds := rfl
@[simp] theorem State.setPending_led (s : State) (x : List Instr) : (s.setPending x).led = s.led := rfl
@[simp] theorem State.setPending_sch (s : State) (x : List Instr) : (s.setPending x).sch = s.sch := rfl
@[simp] theorem State.setPending_qm (s : State) (x : List Instr) : (s.setPending x).qm = s.qm := rfl
@[simp] theorem State.setPending_vcs (s : State) (x : List Instr) : (s.setPending x).vcs = s.vcs := rfl
@[simp] theorem State.setPending_ten (s : State) (x : List Instr) : (s.setPending x).ten = s.ten := rfl
@[simp] theorem State.setPending_sw (s : State) (x : List Instr) : (s.setPending x).sw = s.sw := rfl
@[simp] theorem State.setPending_tdm (s : State) (x : List Instr) : (s.setPending x).tdm = s.tdm := rfl
@[simp] theorem State.setPending_tim (s : State) (x : List Instr) : (s.setPending x).tim = s.tim := rfl
@[simp] theorem State.setPending_dfl (s : State) (x : List Instr) : (s.setPending x).dfl = s.dfl := rfl
@[simp] theorem State.setPending_uarts (s : State) (x : List Instr) : (s.setPending x).uarts = s.uarts := rfl
@[simp] theorem State.setPending_ism (s : State) (x : List Instr) : (s.setPending x).ism = s.ism := rfl
@[simp] theorem State.setPending_saf (s : State) (x : List Instr) : (s.setPending x).saf = s.saf := rfl
@[simp] theorem State.setPending_cal (s : State) (x : List Instr) : (s.setPending x).cal = s.cal := rfl
@[simp] theorem State.setPending_fi (s : State) (x : List Instr) : (s.setPending x).fi = s.fi := rfl
@[simp] theorem State.setPending_mem (s : State) (x : List Instr) : (s.setPending x).mem = s.mem := rfl
@[simp] theorem State.setPending_free (s : State) (x : List Instr) : (s.setPending x).free = s.free := rfl
@[simp] theorem State.setPending_pending (s : State) (x : List Instr) : (s.setPending x).pending = x := rfl

@[simp] theorem State.withMem_hw (s : State) (x : List Host.Cell) : (s.withMem x).hw = s.hw := rfl
@[simp] theorem State.withMem_boot (s : State) (x : List Host.Cell) : (s.withMem x).boot = s.boot := rfl
@[simp] theorem State.withMem_pwr (s : State) (x : List Host.Cell) : (s.withMem x).pwr = s.pwr := rfl
@[simp] theorem State.withMem_therm (s : State) (x : List Host.Cell) : (s.withMem x).therm = s.therm := rfl
@[simp] theorem State.withMem_pins (s : State) (x : List Host.Cell) : (s.withMem x).pins = s.pins := rfl
@[simp] theorem State.withMem_clk (s : State) (x : List Host.Cell) : (s.withMem x).clk = s.clk := rfl
@[simp] theorem State.withMem_host (s : State) (x : List Host.Cell) : (s.withMem x).host = s.host := rfl
@[simp] theorem State.withMem_cmds (s : State) (x : List Host.Cell) : (s.withMem x).cmds = s.cmds := rfl
@[simp] theorem State.withMem_led (s : State) (x : List Host.Cell) : (s.withMem x).led = s.led := rfl
@[simp] theorem State.withMem_sch (s : State) (x : List Host.Cell) : (s.withMem x).sch = s.sch := rfl
@[simp] theorem State.withMem_qm (s : State) (x : List Host.Cell) : (s.withMem x).qm = s.qm := rfl
@[simp] theorem State.withMem_vcs (s : State) (x : List Host.Cell) : (s.withMem x).vcs = s.vcs := rfl
@[simp] theorem State.withMem_ten (s : State) (x : List Host.Cell) : (s.withMem x).ten = s.ten := rfl
@[simp] theorem State.withMem_sw (s : State) (x : List Host.Cell) : (s.withMem x).sw = s.sw := rfl
@[simp] theorem State.withMem_tdm (s : State) (x : List Host.Cell) : (s.withMem x).tdm = s.tdm := rfl
@[simp] theorem State.withMem_tim (s : State) (x : List Host.Cell) : (s.withMem x).tim = s.tim := rfl
@[simp] theorem State.withMem_dfl (s : State) (x : List Host.Cell) : (s.withMem x).dfl = s.dfl := rfl
@[simp] theorem State.withMem_uarts (s : State) (x : List Host.Cell) : (s.withMem x).uarts = s.uarts := rfl
@[simp] theorem State.withMem_ism (s : State) (x : List Host.Cell) : (s.withMem x).ism = s.ism := rfl
@[simp] theorem State.withMem_saf (s : State) (x : List Host.Cell) : (s.withMem x).saf = s.saf := rfl
@[simp] theorem State.withMem_cal (s : State) (x : List Host.Cell) : (s.withMem x).cal = s.cal := rfl
@[simp] theorem State.withMem_fi (s : State) (x : List Host.Cell) : (s.withMem x).fi = s.fi := rfl
@[simp] theorem State.withMem_mem (s : State) (x : List Host.Cell) : (s.withMem x).mem = x := rfl
@[simp] theorem State.withMem_free (s : State) (x : List Host.Cell) : (s.withMem x).free = s.free := rfl
@[simp] theorem State.withMem_pending (s : State) (x : List Host.Cell) : (s.withMem x).pending = s.pending := rfl

@[simp] theorem State.draw_hw (s : State) : (s.draw).hw = s.hw := rfl
@[simp] theorem State.draw_boot (s : State) : (s.draw).boot = s.boot := rfl
@[simp] theorem State.draw_pwr (s : State) : (s.draw).pwr = s.pwr := rfl
@[simp] theorem State.draw_therm (s : State) : (s.draw).therm = s.therm := rfl
@[simp] theorem State.draw_pins (s : State) : (s.draw).pins = s.pins := rfl
@[simp] theorem State.draw_clk (s : State) : (s.draw).clk = s.clk := rfl
@[simp] theorem State.draw_host (s : State) : (s.draw).host = s.host := rfl
@[simp] theorem State.draw_cmds (s : State) : (s.draw).cmds = s.cmds := rfl
@[simp] theorem State.draw_led (s : State) : (s.draw).led = s.led := rfl
@[simp] theorem State.draw_sch (s : State) : (s.draw).sch = s.sch := rfl
@[simp] theorem State.draw_qm (s : State) : (s.draw).qm = s.qm := rfl
@[simp] theorem State.draw_vcs (s : State) : (s.draw).vcs = s.vcs := rfl
@[simp] theorem State.draw_ten (s : State) : (s.draw).ten = s.ten := rfl
@[simp] theorem State.draw_sw (s : State) : (s.draw).sw = s.sw := rfl
@[simp] theorem State.draw_tdm (s : State) : (s.draw).tdm = s.tdm := rfl
@[simp] theorem State.draw_tim (s : State) : (s.draw).tim = s.tim := rfl
@[simp] theorem State.draw_dfl (s : State) : (s.draw).dfl = s.dfl := rfl
@[simp] theorem State.draw_uarts (s : State) : (s.draw).uarts = s.uarts := rfl
@[simp] theorem State.draw_ism (s : State) : (s.draw).ism = s.ism := rfl
@[simp] theorem State.draw_saf (s : State) : (s.draw).saf = s.saf := rfl
@[simp] theorem State.draw_cal (s : State) : (s.draw).cal = s.cal := rfl
@[simp] theorem State.draw_fi (s : State) : (s.draw).fi = s.fi := rfl
@[simp] theorem State.draw_mem (s : State) : (s.draw).mem = s.mem := rfl
@[simp] theorem State.draw_free (s : State) : (s.draw).free = s.free + 1 := rfl
@[simp] theorem State.draw_pending (s : State) : (s.draw).pending = s.pending := rfl

end Sys2Proof.Machine
end

