-- ==== Sys2Proof/WellFormed.lean ====
section
/-! DEFINITION. Which terms of Instr stand for something the manual's part can be given: operands whose types allow
more than the manual does are held to its ranges. The meanings are total and do not rest on this; an ill-formed term
is no command or event of this hardware. -/

namespace Sys2Proof

/-- An argument list that the staging area can hold (Table 06-1). -/
def argsFit (l : List Word) : Bool := decide (l.length ≤ 1024)

/-- The opcodes of Table 07-4. -/
def knownOpcode (op : Word) : Bool :=
  let g := op.toNat / 256
  let k := op.toNat % 256
  decide (1 ≤ k) && decide (k ≤ (match g with
    | 0x01 => 5
    | 0x02 => 4
    | 0x03 => 6
    | 0x04 => 3
    | 0x05 => 2
    | 0x06 => 4
    | 0x07 => 4
    | 0x08 => 3
    | 0x09 => 4
    | 0x0A => 3
    | 0x0B => 1
    | 0x0C => 2
    | _ => 0))

/-- A cell of cell memory (R231). -/
def cellExists (i : BitVec 17) : Bool := decide (i.toNat < 98304)

/-- A received Ismorlink frame has made 1 to 64 hops (R438, Table 17-3). -/
def hopsOk (h : IsmHdr) : Bool := decide (1 ≤ h.hops.toNat) && decide (h.hops.toNat ≤ 64)

/-- A master with a request port at the scheduler (R229). -/
def asksScheduler (m : Master) : Bool :=
  match m with
  | .host | .firmware | .core _ => true
  | .switch | .crypto => false

/-- The operation of a descriptor is its row's (Table 11-9). -/
def jobIs (op : Nat) (d : JobDesc) : Bool := decide (d.w0.toNat % 16 = op)

/-- An event record's first word gives its length (Table 07-7). -/
def recordOk (r : List Word) : Bool := decide (5 ≤ r.length) && decide (r.length = (r.headD 0).toNat % 256)

/-- The operands of a command or event lie in the manual's ranges. -/
def Instr.wellFormed (i : Instr) : Bool :=
  match i with
  | .identify _ a | .getStatus _ a | .setState _ a | .resetCmd _ a | .getVersions _ a | .imgBegin _ a | .imgData _ a
  | .imgCommit _ a | .imgSelect _ a | .chCreate _ a | .chModify _ a | .chDelete _ a | .chQuery _ a | .chStats _ a
  | .chKeys _ a | .portCfg _ a | .vlanCfg _ a | .classCfg _ a | .hwyCfg _ a | .slotMap _ a | .ptpCfg _ a
  | .servoCfg _ a | .probeCfg _ a | .probeRead _ a | .search _ a | .assign _ a | .forward _ a | .topoRead _ a
  | .safeCfg _ a | .safeQuery _ a | .proofTest _ a | .calRun _ a | .calRestoreFactory _ a | .calRead _ a
  | .selftest _ a | .fiArm _ a | .fiDisarm _ a | .fiRead _ a | .uartCfg _ a | .taskLoad _ a | .modelLoad _ a => argsFit a
  | .unknownOpcode op _ a => argsFit a && !knownOpcode op
  | .commandComplete lane => decide (lane.toNat ≤ 2)
  | .create m .. | .token m .. | .almanac m .. | .setLevel m .. | .reserve m .. | .cancel m .. => asksScheduler m
  | .gemm _ d => jobIs 1 d
  | .gemmAcc _ d => jobIs 2 d
  | .ewMul _ d => jobIs 3 d
  | .ewAdd _ d => jobIs 4 d
  | .act _ d => jobIs 5 d
  | .sourceValid p cls => p != .poe || (decide (1 ≤ cls.toNat) && decide (cls.toNat ≤ 8))
  | .resetEnd .. => true
  | .powerOnBist r => r.badCells.all cellExists
  | .ethPortUp _ v => decide (1 ≤ v.toNat) && decide (v.toNat ≤ 4)
  | .link h _ _ | .heartbeat h .. | .sync h _ | .delayReq h _ | .delayResp h _ | .searchBegin h _ | .claim h ..
  | .mark h _ | .searchEnd h | .searchReply h _ | .address h .. | .mgmtRsp h .. | .attach h _ | .loss h .. | .move h ..
  | .hbLoss h _ | .missed h _ | .addrAck h .. | .conflict h .. | .ping h _ | .pingReply h .. | .bcastReply h _ => hopsOk h
  | .query h _ len _ => hopsOk h && decide (len.toNat % 4 = 0)
  | .mgmtReq h _ _ a | .bcast h _ _ a _ => hopsOk h && argsFit a
  | .event h r => hopsOk h && recordOk r
  | .eccUncorrectable p => (match p with
    | .cell c => cellExists c
    | _ => true)
  | .highwayFrame _ f => decide (f.drift.natAbs ≤ 2048) && decide (f.octets.length = 256)
  | .marchRound _ bad => bad.all cellExists
  | .characterReceived _ bits => decide (6 ≤ bits.length) && decide (bits.length ≤ 10)
  -- the other operands take every value of their types
  | .calDone .. | .frameTransmitDone .. | .transceiverInserted .. | .collision .. | .registerWrite ..
  | .readClear .. | .hkey .. | .cmdFifo .. | .apertureWrite .. | .srcPref .. | .hwdogSet .. | .spillHiWrite ..
  | .almanacListWrite .. | .almanacFire .. | .frameTick .. | .graphRetry .. | .dispatch .. | .budgetExceeded ..
  | .pointProcedure | .pointChange .. | .coreBistStart .. | .coreBistDone .. | .openPkt .. | .producerData ..
  | .closePkt .. | .selectQ .. | .consumerData .. | .releasePkt .. | .qflush .. | .cellReturn | .descriptorEnable .. | .watermarkWrite ..
  | .stale .. | .branch .. | .dbnz .. | .call .. | .ret .. | .loopOp .. | .modeOp .. | .endTask .. | .swi .. | .rti ..
  | .dma .. | .waitd .. | .xld .. | .xst .. | .timeOp .. | .pld .. | .fmac .. | .fmsub .. | .fmul .. | .fadd .. | .fsub ..
  | .fmin .. | .fmax .. | .fabs .. | .fneg .. | .fcvt .. | .fmovi .. | .integerOp .. | .movc .. | .fcmp .. | .acs4 ..
  | .acsstg .. | .movtb .. | .loadOp .. | .storeOp .. | .bwarn .. | .dmaDone .. | .interruptEntry .. | .testVectors ..
  | .playout .. | .egressTransmit .. | .shedding | .sourceLost .. | .inputReturn .. | .pwrfail | .brownOut | .powerGuard ..
  | .tempSample .. | .resetPin .. | .bootDone | .startTimer | .vigilWdog | .hwdogHalf | .hostWdog | .jtagInstruction ..
  | .unlockToken .. | .vioOut | .vioRestored | .vioLatch .. | .clockLost .. | .refinLost | .refinAccepted
  | .highwayAligned .. | .alignmentLoss .. | .highwayConfigApply .. | .slip .. | .transceiverRemoved .. | .ethPortDown ..
  | .frameReceive .. | .macAgeing .. | .neighbourRetry .. | .neighbourRefresh .. | .routerCommit .. | .senderReport ..
  | .keysTimeout .. | .oldContextExpiry .. | .ppsInEdge | .holdoverEntry | .ptpMessage .. | .ptpTransmit .. | .timeHalf
  | .probeEvent .. | .probeMark .. | .linkDown .. | .ack .. | .ackTimeout .. | .heartbeatSend | .hbTimeout .. | .summitLost
  | .syncSend | .searchReplyTimeout .. | .forwardTimeout | .lossPing .. | .autoSearchStart | .pingTimeout ..
  | .bcastDeadline | .comparatorTest .. | .checkerTest .. | .scrub .. | .lockstepMismatch | .voltage | .dieTemp ..
  | .quietPoint .. | .reorderTimeout .. | .traceSegment | .prod .. | .abort | .deflateJob | .uartDataWrite ..
  | .uartDataRead .. | .brk .. | .rst .. | .clken .. | .txflush .. | .rxflush .. | .characterSent .. | .deTail .. | .cmdClear
  | .rspFifo | .removeHeadResponse | .evtFifo | .apertureRead | .time0Read | .safeCtlClear | .safeCtlEnter | .switchBank
  | .hwdogKick | .kill | .hostPortStart | .bypassOpen | .ppsOutEdge | .eccCorrected => true

end Sys2Proof
end

