-- ==== Sys2Proof/Tests/Slice0.lean ====
section
/-! SUPPORT. Tests: ill-formed terms are refused, some single steps and functions give what the manual or a named
standard says, and every statement's hypotheses are met by concrete states. -/

namespace Sys2Proof.Tests

open Sys2Proof Sys2Proof.Machine

-- one theorem at a time: each evaluates states in the kernel
set_option Elab.async false

/-! ### Ill-formed terms -/

def hdr (p : PortNo) (hops : BitVec 7) : IsmHdr := ⟨p, true, hops, 0, 1, false, 1, 0⟩

def job (op : W32) : JobDesc := ⟨op, 0, 0, 0, 0, 0, 0, 0⟩

theorem test_illformed_args : (Instr.getStatus 0 (List.replicate 1025 0)).wellFormed = false := by decide +kernel

theorem test_illformed_opcode : (Instr.unknownOpcode 0x0101 0 []).wellFormed = false ∧
    (Instr.unknownOpcode 0x0106 0 []).wellFormed = true := by decide

theorem test_illformed_lane : (Instr.commandComplete 3).wellFormed = false := by decide

theorem test_illformed_master : (Instr.create .switch 0 0 0 0 0 0 0).wellFormed = false ∧
    (Instr.token .crypto 0 0).wellFormed = false := by decide

theorem test_illformed_highway : (Instr.highwayFrame 0 ⟨true, 2049, List.replicate 256 0⟩).wellFormed = false ∧
    (Instr.highwayFrame 0 ⟨true, 0, []⟩).wellFormed = false ∧
    (Instr.highwayFrame 0 ⟨true, -2048, List.replicate 256 0⟩).wellFormed = true := by decide +kernel

theorem test_illformed_jobs : (Instr.gemm 0 (job 2)).wellFormed = false ∧ (Instr.gemmAcc 0 (job 1)).wellFormed = false ∧
    (Instr.ewMul 0 (job 4)).wellFormed = false ∧ (Instr.ewAdd 0 (job 3)).wellFormed = false ∧
    (Instr.act 0 (job 6)).wellFormed = false := by decide

theorem test_illformed_poe : (Instr.sourceValid .poe 0).wellFormed = false ∧
    (Instr.sourceValid .poe 9).wellFormed = false := by decide

theorem test_illformed_cells : (Instr.powerOnBist ⟨false, false, [98304], [], []⟩).wellFormed = false ∧
    (Instr.marchRound 1 [98304]).wellFormed = false ∧ (Instr.eccUncorrectable (.cell 98304)).wellFormed = false ∧
    (Instr.eccUncorrectable (.cell 98303)).wellFormed = true := by decide

theorem test_illformed_speed : (Instr.ethPortUp 0 0).wellFormed = false ∧ (Instr.ethPortUp 0 5).wellFormed = false := by
  decide

theorem test_illformed_hops : (Instr.ping (hdr 0 0) 0).wellFormed = false ∧ (Instr.ping (hdr 0 65) 0).wellFormed = false ∧
    (Instr.ping (hdr 0 64) 0).wellFormed = true := by decide

theorem test_illformed_query : (Instr.query (hdr 0 1) 0 3 0).wellFormed = false := by decide

theorem test_illformed_carried : (Instr.mgmtReq (hdr 0 1) 0x0101 0 (List.replicate 1025 0)).wellFormed = false ∧
    (Instr.bcast (hdr 0 0) 0x0101 0 [] 0).wellFormed = false := by decide +kernel

theorem test_illformed_record : (Instr.event (hdr 1 1) [0x0506, 0, 0, 0, 0]).wellFormed = false ∧
    (Instr.event (hdr 1 1) [0x0505, 0, 0, 0, 0]).wellFormed = true := by decide

theorem test_illformed_character : (Instr.characterReceived 0 (List.replicate 5 true)).wellFormed = false ∧
    (Instr.characterReceived 0 (List.replicate 11 true)).wellFormed = false := by decide

/-! ### Functions of the standards the manual names -/

/-- The check values of the catalogue of CRCs and of Adler-32 for the bytes "123456789" (R404, R548). -/
def nine : List Byte := [0x31, 0x32, 0x33, 0x34, 0x35, 0x36, 0x37, 0x38, 0x39]

theorem test_crc32c_check : crc32c nine = 0xE3069283 := by decide +kernel

theorem test_crc32_check : crc32 nine = 0xCBF43926 := by decide +kernel

theorem test_adler32_check : adler32 nine = 0x091E01DE := by decide +kernel

/-- The first example of FIPS 180-4: "abc" (R123). -/
theorem test_sha256_abc :
    sha256 [0x61, 0x62, 0x63] = 0xBA7816BF8F01CFEA414140DE5DAE2223B00361A396177A9CB410FF61F20015AD := by decide +kernel

/-- The message "abc" under SHA-1, as FIPS 180 gives it. -/
theorem test_sha1_abc : sha1 [0x61, 0x62, 0x63] = beBytes 20 0xA9993E364706816ABA3E25717850C26C9CD0D89D := by decide +kernel

/-- The session key of RFC 3711, B.3 (R362). -/
theorem test_key_derivation :
    let key := [0xE1F9, 0x7A0D, 0x3E01, 0x8BE0, 0xD64F, 0xA32C, 0x06DE, 0x4139]
    let salt := [0x0EC6, 0x75AD, 0x498A, 0xFEEB, 0xB696, 0x0B3A, 0xABE6]
    derived key salt 0 16 = beBytes 16 0xC61E7A93744F39EE10734AFE3FF7A087 := by decide +kernel

/-- The largest values of both laws of G.711, and the codes of silence (R85, R368). -/
theorem test_g711 : toLinear (expand true 0x80) = 32124 ∧ toLinear (expand false 0xAA) = 32256 ∧
    compand true (linear 32124) = 0x80 ∧ compand false (linear (-32256)) = 0x2A ∧
    compand true 0 = 0xFF ∧ compand false 0 = 0xD5 := by decide +kernel

/-- A block of fixed codes that holds one "a" (RFC 1951). -/
theorem test_inflate_fixed : (inflateAfter [] [0x4B, 0x04, 0x00]).out = [0x61] := by decide +kernel

/-! ### Single steps -/

/-- The state after a command run alone. -/
def after (i : Instr) (s : State) : State :=
  match step (s.setPending [i]) with
  | .next t => t
  | _ => s

/-- READY with a live host port, an open bypass, VIO in range and all pins active, built from the reset state. -/
def up : State :=
  let s := State.reset
  { s with
    host := { s.host with live := true }
    pins := { s.pins with vioClass33 := some true, vioIn := true }
    boot := { s.boot with mode := .ready, running := some ⟨1, 2, 0x0100, 0x0100, 0x0100, 0x0100, 1⟩, active := some false,
                          resA := .good, bistDone := true, linkLayer := true } }

theorem test_up_is_open : (up.mode = .ready ∧ cmdFull up = false) ∧ bypassClosed up = false := by decide +kernel

/-- Table 06-2: HID0 reads 0x4647. -/
theorem test_hid0 : plainRead 0x00 up = 0x4647 := by decide +kernel

/-- R5, R166: the lowest byte of a word is at the lowest address, and AP_DATA0 holds bits [15:0]. -/
theorem test_aperture_order :
    let t := after .apertureRead (up.withMem (memWrite32 up.mem 0x100 0x44332211 15) |>.setHost { up.host with apAddr := 0x100 })
    t.host.apD0 = 0x2211 ∧ t.host.apD1 = 0x4433 ∧ memRead t.mem 0x103 = 0x44 := by decide +kernel

/-- R168: INC carries and wraps at the top of the address space; an address out of step is ALIGN (Table 06-8). -/
theorem test_aperture_wraps :
    let t := after .apertureRead (up.setHost { up.host with apAddr := 0xFFFFFFFFFF, apInc := true })
    t.host.apAddr = 3 ∧ t.host.apErr = true ∧ t.host.apErrCode = 3 := by decide +kernel

/-- R182: a length other than the layout's is BAD_LENGTH, and carries no words. -/
theorem test_bad_length : (after (.getStatus 7 [1]) up).host.responses.map Response.tag = [7] ∧
    (after (.getStatus 7 [1]) up).host.responses.map (fun r => r.words.length) = [0] := by decide +kernel

/-- Table 06-2 and R9: 1 clears a W1C bit, and 0 leaves it. -/
theorem test_w1c : (after (.registerWrite 0x06 ⟨0x0004, false⟩)
      (up.setHost { up.host with irqCmdFree := true, irqWdog := true })).host.irqCmdFree = false ∧
    (after (.registerWrite 0x06 ⟨0x0004, false⟩)
      (up.setHost { up.host with irqCmdFree := true, irqWdog := true })).host.irqWdog = true := by
  decide +kernel

/-- Binary32 (Table 11-2): 1 + 1 = 2, 1.5 × 1.5 = 2.25, and −1 negated is 1. -/
theorem test_floats : (fAdd false 0x3F800000 0x3F800000).w = 0x40000000 ∧
    (fMul false 0x3FC00000 0x3FC00000).w = 0x40100000 ∧ (fNeg false 0xBF800000).w = 0x3F800000 := by decide +kernel

/-- R277: the smaller sum survives, and a tie takes o0. -/
theorem test_butterfly : (butterfly false 0x00050003 0x00020001).a = 4 ∧
    (butterfly false 0x00050003 0x00020001).b = 5 := by decide +kernel

/-- Table 17-3: the header of a heartbeat of spur 3, 4 payload bytes, in network order (R436). -/
theorem test_heartbeat_bytes : (ismBytes ⟨0x0000, 3, false, 1, 0x1234, 0, .heartbeat 0x0102 3 true false false⟩).take 16 =
    [0x20, 1, 0, 4, 0, 0, 0, 3, 0x12, 0x34, 0, 0, 0x01, 0x02, 0x13, 0] := by decide +kernel

/-! ### Witnesses: concrete states that meet the hypotheses of each statement -/

theorem witness_EveryStepGoesOn : up.pending = [] ∧ up.boot.resetSoon = false ∧
    (up.setBoot { up.boot with resetSoon := true }).mode ≠ .reset ∧ up.pwr.collapse = false ∧
    (up.setPwr { up.pwr with collapse := true }).pwr.collapse = true := by decide +kernel

theorem witness_CommandsTouchOnlyTheirParts : (∃ t, exec (.bwarn 0) up = .next t) ∧ Part.boot ∉ mayTouch (.bwarn 0) :=
  ⟨⟨_, rfl⟩, by decide⟩

theorem witness_StepKeepsInvariant : Memory.wf State.reset.mem ∧ TablesSized State.reset ∧ ∃ t, step State.reset = .next t :=
  ⟨by decide +kernel, ⟨rfl, rfl, rfl, rfl, rfl⟩, ⟨_, rfl⟩⟩

theorem witness_StepKeepsUnitAndRollback : ∃ t, step State.reset = .next t := ⟨_, rfl⟩

theorem witness_CoresCannotReachSafetyState : ranByExecutor (.swi ⟨0, true⟩) = true ∧
    ∃ t, exec (.swi ⟨0, true⟩) up = .next t := ⟨rfl, ⟨_, rfl⟩⟩

theorem witness_HostPortNotLive : hostUp State.reset = false ∧
    hostUp (up.setPins { up.pins with vioIn := false }) = false ∧ hostUp up = true := by decide +kernel

theorem witness_RegisterWrites : hostUp up = true ∧ (0x2C : BitVec 6).toNat ∈ [0x2C] ∧ 0x30 ≤ (0x3F : BitVec 6).toNat := by
  decide +kernel

/-- `up` with the key in one of its states. -/
def withKey (k : KeyState) : State := up.setHost { up.host with key := k }

theorem witness_KeyAndStaging : hostUp up = true ∧ (withKey (.first 0)).host.key = .first 0 ∧ keyed (withKey (.armed 0)) = true ∧
    (withKey (.first 0)).tim.up ≤ 0 + 500000 ∧ up.host.key = .idle ∧ up.host.staged.length < 1024 ∧
    1024 ≤ (up.setHost { up.host with staged := List.replicate 1024 0 }).host.staged.length := by
  decide +kernel

/-- `up` with a response and event records waiting, `b` of them in the backlog. -/
def waiting (b : List (List Word)) (pos : Nat) : State :=
  up.setHost { up.host with responses := [⟨0, 7, [1, 2]⟩], evtChip := [[0x0105, 0, 0, 0, 0]], evtBack := b, evtPos := pos }

theorem witness_ResponseAndEventPaths : hostUp (waiting [] 0) = true ∧ hostUp up = true ∧
    (waiting [] 0).host.responses = [⟨0, 7, [1, 2]⟩] ∧ up.host.responses = [] ∧
    up.host.evtChip = [] ∧ (waiting [] 3).host.evtPos + 1 < 5 ∧ 5 ≤ (waiting [] 4).host.evtPos + 1 ∧
    (waiting [] 4).host.evtBack = [] ∧ (waiting [[0x0105, 0, 0, 0, 0]] 4).host.evtBack = [[0x0105, 0, 0, 0, 0]] := by
  decide +kernel

/-- `up` with the aperture's address. -/
def aimed (a : Addr) : State := up.setHost { up.host with apAddr := a }

theorem witness_ApertureAccess : hostUp (aimed 0) = true ∧ apertureShut up = false ∧ (0x1FFFFFFFC : Addr).toNat % 4 = 0 ∧
    (0x1FFFFFFFC : Addr).toNat < 0x200000000 ∧ (aimed 0x1FFFFFFFC).host.apAddr = 0x1FFFFFFFC ∧
    (aimed 0xFFFFFFFFFF).host.apAddr.toNat % 4 ≠ 0 ∧ (setMode .boot (aimed 0)).mode ∈ [Mode.boot, .recovery, .standby] ∧
    (aimed 0x3860000000).host.apAddr.toNat / 0x10000000 = 0x386 ∧ apertureShut (aimed 0x3F00000000) = false ∧
    (aimed 0x3F00000000).host.apAddr.toNat / 0x10000000 = 0x3F0 := by
  decide +kernel

/-- `up` in mode `m`, the second bank GOOD, and the key armed where asked. -/
def banked (k : Bool) (good : Bool) : State :=
  let s := if k then withKey (.armed 0) else up
  s.setBoot { s.boot with resB := if good then .good else .hash }

theorem witness_TimePowerAndBankRegisters : hostUp up = true ∧ hostUp (banked true true) = true ∧ up.host.lsrc = 0 ∧ (up.setHost { up.host with lsrc := 3 }).host.lsrc ≠ 0 ∧
    activeSrc (up.setPwr { up.pwr with srcPref := 5 }) = activeSrc up ∧
    (let s := up.setPwr { up.pwr with ac := ⟨true, true⟩, dc := ⟨true, true⟩ }
     activeSrc (s.setPwr { s.pwr with srcPref := 2 }) ≠ activeSrc s) ∧
    (keyed (banked true true) = true ∧ isGood (banked true true) (otherBank (banked true true)) = true ∧
      (banked true true).pwr.pwrfail = false ∧
      ((banked true true).setPwr { up.pwr with pwrfail := true }).pwr.pwrfail = true) ∧
    keyed (banked false true) = false ∧ isGood (banked true false) (otherBank (banked true false)) = false := by
  decide +kernel

/-- SAFE with a class, the key armed. -/
def inSafe (cls : BitVec 4) : State :=
  let s := setMode .safe (withKey (.armed 0))
  s.setSaf { s.saf with safe := true, cls := cls }

/-- `up` with point 0 of fault injection armed. -/
def armedPoint : State :=
  up.setFi { up.fi with points := [(0, { fiDefault with armed := true })] }

theorem witness_SafeControlAndKill : hostUp (inSafe 9) = true ∧ hostUp armedPoint = true ∧ armedPoints up = 0 ∧ keyed up = false ∧ up.mode ≠ .safe ∧ (inSafe 8).saf.cls ∉ [9, 10, 11] ∧
    (inSafe 9).mode = .safe ∧ keyed (inSafe 11) = true ∧ (inSafe 11).saf.safe = true ∧ (inSafe 11).saf.cls ∈ [9, 10, 11] ∧
    poeStandby (inSafe 11) = false ∧ tooHot (inSafe 11) = false ∧ armedPoints armedPoint ≠ 0 ∧
    (armedPoint.fi.points.map Prod.fst).Nodup ∧ (∀ e ∈ armedPoint.fi.points, e.2.held = []) := by
  decide +kernel

/-! ### Voice cores -/

/-- A task of a customer class in service on core 0. -/
def task0 : Task :=
  { id := 7, gen := 0, slot := 0, flow := 0x8000, cls := 32, level := 3, st := .service, req := 1, opt := 0, arrived := 1,
    seq := 0, arg0 := 0, arg1 := 0, createTime := 0, readyTime := 0, createOrd := 0, readyOrd := 0,
    exec := some (.vc 0), pullOrd := none, engine := 0 }

/-- Core 0 in the state `c`, the task in service on it. -/
def onCore (c : Core) : State :=
  let s := up.setSch { up.sch with tasks := [task0], cores := [(0, { getCore up 0 with busy := some 7 })] }
  putVc 0 c s

/-- An operation of core 0, not the last of its word. -/
def op0 : Iss := ⟨0, false⟩

def core0 : State := onCore { Core.atReset with p := List.replicate 16 0x8000 }

theorem witness_ArithmeticResults : CanIssue op0 1 task0 core0 ∧ WTarget.f (physF (slotTaken op0 1 core0) 63) ∉
      (slotTaken op0 1 core0).dests ∧
    (let s := onCore { Core.atReset with dests := [.f 63] }
     CanIssue op0 1 task0 s ∧ WTarget.f (physF (slotTaken op0 1 s) 63) ∈ (getVc s op0.core).dests) := by
  unfold CanIssue
  decide +kernel

theorem witness_IntegerSlotResults : CanIssue op0 2 task0 core0 ∧
    (let c := slotTaken op0 2 core0
     intFn .add (rdF c 0) (intSrc (rdF c) (.reg 1)) = some 0 ∧ intFn .add (rdP c 0) (intSrc (rdP c) (.reg 1)) = some 0 ∧
     intFn .sar (rdB c 0) (intSrc (rdB c) (.reg 1)) = some 0 ∧ intFn .or (rdL c 0) (intSrc (rdL c) (.reg 1)) = some 0 ∧
     intFn .sub (rdE c 3) (intSrc (rdE c) (.reg 1)) = some 0 ∧
     WTarget.f (physF c 0) ∉ c.dests ∧ WTarget.p 15 ∉ c.dests ∧ WTarget.b 15 ∉ c.dests ∧ WTarget.l 15 ∉ c.dests ∧
     WTarget.e 3 ∉ c.dests ∧ WTarget.ctl .mode ∉ c.dests ∧ (rdF c 0).getLsbD 0 = false) ∧
    (let s := onCore { Core.atReset with f := List.replicate 64 33 }
     CanIssue op0 2 task0 s ∧ intFn .shl (rdF (slotTaken op0 2 s) 0) (intSrc (rdF (slotTaken op0 2 s)) (.reg 1)) = none ∧
       (rdF (slotTaken op0 2 s) 0).getLsbD 0 = true) := by
  unfold CanIssue
  decide +kernel

theorem witness_ViterbiStage : CanIssue op0 2 task0 core0 ∧
    (let c := slotTaken op0 2 core0
     (60 : BitVec 6).toNat % 4 = 0 ∧ (∀ k ∈ [0, 1, 2, 3], WTarget.f (physF c (60 + BitVec.ofNat 6 k)) ∉ c.dests)) ∧
    (61 : BitVec 6).toNat % 4 ≠ 0 := by
  unfold CanIssue
  decide +kernel

theorem witness_LoadsAndStores :
    (∀ inY ∈ [false, true], CanIssue op0 (if inY then 4 else 3) task0 core0 ∧
      (let mem := if inY then 1 else 0
       let c := slotTaken op0 (if inY then 4 else 3) core0
       localOk task0 mem false (modeAddr c (.indirect 1)).1 = true ∧ localOk task0 mem true (modeAddr c (.indirect 1)).1 = true ∧
       (modeAddr c (.indirect 1)).2 = none ∧ (modeAddr c (.indirect 1)).1 % 4 = 0)) ∧
    serving core0 (.vc 0) = some task0 ∧ (getVc core0 0).slots.getLsbD 0 = false ∧ (slotTaken op0 0 core0).threeBus = false ∧
    (let s := onCore { Core.atReset with p := List.replicate 16 0x8000, threeBus := true }
     serving s (.vc 0) = some task0 ∧ (slotTaken op0 0 s).threeBus = true ∧ localOk task0 2 false (rdP (slotTaken op0 0 s) 1).toNat = true) := by
  unfold CanIssue
  decide +kernel

theorem witness_load_faults : ∀ inY ∈ [false, true],
    let mem := if inY then 1 else 0
    let c := slotTaken op0 (if inY then 4 else 3) core0
    (modeAddr c (.postImm 1 4)).2 = some (1, 0x8004) ∧ (1 : BitVec 4) ∉ c.posts ∧
      (modeAddr c (.offset 1 2)).1 % loadBytes (.f 0) ≠ 0 ∧ (modeAddr c (.offset 1 2)).1 % (storeValue c (.f 0)).2 ≠ 0 ∧
      localOk task0 mem false (modeAddr c (.offset 1 2)).1 = true ∧ localOk task0 mem true (modeAddr c (.offset 1 2)).1 = true ∧
      localOk task0 mem false (modeAddr c (.offset 1 0xFE)).1 = false ∧
      localOk task0 mem true (modeAddr c (.offset 1 0xFE)).1 = false := by
  decide +kernel

/-- Core 0 with E0 in the customer's DRAM window or elsewhere, P2 a count of 4,096 and P3 one of 4,097. -/
def extCore (a : Addr) : State :=
  onCore { Core.atReset with e := [a, 0, 0, 0], p := ((List.replicate 16 0).set 2 4096).set 3 4097 }

/-- Core 0 with a DMA of `n` words in flight on channel 0. -/
def transferring (toLocal : Bool) (n : Nat) : State :=
  onCore { Core.atReset with dma := [some ⟨toLocal, 0xF0000000, 0x8000, false, n, true⟩, none, none, none] }

theorem witness_ExternalAccessAndDma : CanIssue op0 0 task0 (extCore 0) ∧
    (let c := slotTaken op0 0 (extCore 0xF0000000)
     externalOk task0 (rdE c 0).toNat 4 = true ∧ (rdE c 0).toNat % 4 = 0 ∧ c.dma = [none, none, none, none] ∧
     (rdP c 2).toNat = 4096 ∧ (rdP c 0).toNat = 0 ∧ 4096 < (rdP c 3).toNat ∧ getVc (putVc 0 c (extCore 0xF0000000)) 0 = c ∧ WTarget.f (physF c 0) ∉ c.dests) ∧
    externalOk task0 (rdE (slotTaken op0 0 (extCore 0x3800000000)) 0).toNat 4 = false ∧
    (let c := slotTaken op0 0 (extCore 0xF0000002)
     externalOk task0 (rdE c 0).toNat 4 = true ∧ (rdE c 0).toNat % 4 ≠ 0) ∧
    (∀ b ∈ [false, true], ∀ n ∈ [0, 1],
      let s := transferring b n
      CanIssue op0 0 task0 s ∧ (getVc s 0).dma.getD (0 : BitVec 2).toNat none = some ⟨b, 0xF0000000, 0x8000, false, n, true⟩ ∧
        0 < (getVc s 0).dma.length) := by
  unfold CanIssue
  decide +kernel

theorem witness_dma_and_bus : (∃ u v, busRead (.core 0) 0xF0000000 (extCore 0xF0000000) = .ok (u, v)) ∧
    (∃ u, busWrite (.core 0) 0xF0000000 1 15 (extCore 0xF0000000) = .ok u) ∧
    (∃ u v, busRead (.core 0) 0xF0000000 (transferring true 1) = .ok (u, v)) ∧
    (∃ u, busWrite (.core 0) 0xF0000000 (memRead32 up.mem (xBase 0 + 0x8000)) 15 (transferring false 1) = .ok u) ∧
    checkDma task0 false true 0xF0000000 0x8000 16 = .ok () := ⟨⟨_, _, rfl⟩, ⟨_, rfl⟩, ⟨_, _, rfl⟩, ⟨_, rfl⟩, rfl⟩

theorem witness_BranchesTakeTwoDelayWords : CanIssue op0 0 task0 core0 ∧
    (let c := slotTaken op0 0 core0
     c.delay = 0 ∧ (c.la && decide (c.pc = c.le)) = false ∧ WTarget.p 0 ∉ c.dests ∧ c.rs.length < 8 ∧ c.rs = []) ∧
    (let s := onCore { Core.atReset with rs := List.replicate 8 5 }
     CanIssue op0 0 task0 s ∧ 8 ≤ (slotTaken op0 0 s).rs.length ∧ (slotTaken op0 0 s).rs = 5 :: List.replicate 7 5) ∧
    (let s := onCore { Core.atReset with delay := 1 }
     CanIssue op0 0 task0 s ∧ (slotTaken op0 0 s).delay ≠ 0) := by
  unfold CanIssue
  decide +kernel

theorem witness_LoopModeAndEnd : CanIssue op0 0 task0 core0 ∧ (slotTaken op0 0 core0).la = false ∧ (0xFFFF : Word) ≠ 0 ∧
    (slotTaken op0 0 core0).delay = 0 ∧ loopCount (slotTaken op0 0 core0) (.imm 0) = 0 ∧
    loopCount (slotTaken op0 0 core0) (.imm 0xFFFF) ≠ 0 ∧
    (((slotTaken op0 0 core0).pc + 1).toNat ≤ (16 : BitVec 12).toNat ∧
      (16 : BitVec 12).toNat + 1 ≤ ((slotTaken op0 0 core0).pc + 1).toNat + 16) ∧
    ¬ (17 : BitVec 12).toNat + 1 ≤ ((slotTaken op0 0 core0).pc + 1).toNat + 16 ∧
    (let s := onCore { Core.atReset with la := true, le := 0 }
     CanIssue op0 0 task0 s ∧ ((slotTaken op0 0 s).la && decide ((slotTaken op0 0 s).pc = (slotTaken op0 0 s).le)) = true) ∧
    (let s := onCore { Core.atReset with la := true, le := 9 }
     CanIssue op0 0 task0 s ∧ (slotTaken op0 0 s).la = true ∧
       ((slotTaken op0 0 s).la && decide ((slotTaken op0 0 s).pc = (slotTaken op0 0 s).le)) = false) := by
  unfold CanIssue
  decide +kernel

def class0 : TClass := ⟨false, 3, 1000, 0, none, 1, 0, 4⟩

/-- A core with a budget warning pending and enabled, its class loaded with an interrupt handler. -/
def interrupted : State :=
  let s := onCore { Core.atReset with ipend := 1, ie := 7 }
  s.setSch { s.sch with classes := [(32, { class0 with ivec := some 0x40 })] }

theorem witness_WordsAndInterrupts : serving core0 (.vc 0) = some task0 ∧ serving interrupted (.vc 0) = some task0 ∧
    (let c := getVc interrupted 0
     c.ipend &&& c.ie ≠ 0 ∧ c.handler = false ∧ c.delay = 0 ∧ c.slots = 0 ∧
       alFind interrupted.sch.classes task0.cls.toNat = some { class0 with ivec := some 0x40 }) ∧
    (let c := getVc core0 0
     c.ipend &&& c.ie = 0 ∧ c.ended = none ∧ c.posts = [] ∧ c.la = false ∧ c.threeBus = false ∧ c.stores = [] ∧ c.rtiMode = none ∧
       c.jump = false) ∧
    (let c := getVc (onCore { Core.atReset with ipend := 1, ie := 7, handler := true }) 0
     c.ipend &&& c.ie ≠ 0 ∧ c.handler = true) ∧
    (let c := getVc (onCore { Core.atReset with posts := [1], pend := [⟨1, 0, .p 1, 4⟩] }) 0
     ∀ p ∈ c.posts, tied c p = false) := by
  decide +kernel

/-! ### Host commands -/

/-- `up` in a mode. -/
def inMode (m : Mode) : State := setMode m up

/-- `up` with as many responses unread as make CMD_CTL.FULL. -/
def full : State := up.setHost { up.host with responses := List.replicate 32 ⟨0, 0, []⟩ }

theorem witness_CommandRefusals : CommandReady up ∧ 1024 < (List.replicate 1025 (0 : Word)).length ∧
    (0x0106 : Word) ∉ opcodes ∧
    checkCommand 0x0102 [1] (started 0x0102 0 [1] up) = some stBadLength ∧
    (checkCommand 0x0803 [1] (started 0x0803 0 [1] up) = none ∧ keyNeeded 0x0803 [1] = true ∧ keyed up = false) ∧
    (CommandReady (inMode .boot) ∧
      checkCommand 0x0304 [5] (started 0x0304 0 [5] (inMode .boot)) = none ∧ keyNeeded 0x0304 [5] = false ∧
      stateRefuses 0x0304 (inMode .boot) = true) ∧
    (hostUp full = true ∧ full.host.staged = [] ∧ cmdFull full = true) := by
  unfold CommandReady
  decide +kernel

def strictUnqual : State := (up.setHost { up.host with strict := true }).setBoot { up.boot with unqual := true }

/-- The arguments of CH_CREATE for channel `c`. -/
def profArgs (c : Word) : List Word :=
  [c, 0x0001, 0x0940, 0x0110, 3, 0x17, 20, 120, 0x0020, 4, 0, 20000, 0x7730, 0x3C4D, 0x1A2B, 0x0A28, 0x0716, 0, 0, 0, 0, 0, 0]

/-- RUN with highway 0 enabled and channel `c`'s slots owned, a port with an interface, and no channel. -/
def running : State :=
  let s := setMode .run up
  let s := putHwy 0 { getHwy s 0 with cfg := ⟨true, true, false, 0xD5, 0⟩, own := slotMask 0 256, aligned := true } s
  putPort 0 { getPort s 0 with mode := 1, addr := 0x0A010001 <<< 96, plen := 24 } s

/-- `running` with channel 5 of the profile. -/
def calling : State :=
  running.setLed { running.led with chans := [newChan running 5 (profileOf (profArgs 5)) 0] }

theorem witness_IdentityAndStateCommands : CommandReady up ∧ up.mode ≠ .reset ∧ proofRuns up = false ∧ up.mode = .ready ∧
    (up.host.strict && up.boot.unqual) = false ∧
    (CommandReady strictUnqual ∧ strictUnqual.mode = .ready ∧ strictUnqual.host.strict = true ∧ strictUnqual.boot.unqual = true) ∧
    (running.mode ∈ [Mode.run, .degraded] ∧ running.led.chans = []) ∧ calling.led.chans ≠ [] ∧
    ((inMode .standby).mode = .standby ∧ poeStandby (inMode .standby) = false ∧
      poeStandby ((inMode .standby).setPwr { up.pwr with ac := ⟨false, false⟩, poe := ⟨true, true⟩, poeClass := 3 }) = true) := by
  unfold CommandReady
  decide +kernel

/-- `up` with an image session, `n` bytes into it. -/
def inSession (n : Nat) : State := up.setBoot { up.boot with session := some ⟨true, n⟩ }

theorem witness_ImageCommands : CommandReady up ∧ up.mode ∉ [Mode.reset, .boot, .standby] ∧ up.boot.session = none ∧
    up.pwr.pwrfail = false ∧ (inSession 2040).pwr.pwrfail = false ∧ CommandReady (inSession 2040) ∧ (inSession 2040).boot.session = some ⟨true, 2040⟩ ∧
    ([0] : List Word).length = (1 + 1) / 2 ∧ (List.replicate 1020 (0 : Word)).length = (2040 + 1) / 2 ∧ 2040 + 2040 ≤ bankMax ∧
    (CommandReady (banked true true) ∧ keyed (banked true true) = true ∧ isGood (banked true true) true = true ∧
      isGood (banked true false) true = false) := by
  unfold CommandReady
  decide +kernel

/-- `calling` with SRTP in its profile, keys of one direction held where `r` is given. -/
def protectedCall (r t : Option SrtpCtx) : State :=
  calling.setLed { calling.led with chans := calling.led.chans.map (fun x =>
    { x with prof := { x.prof with srtp := true }, inService := false, rxCtx := r, txCtx := t }) }

/-- `calling` with the channel's down graph in service on core 0. -/
def inService5 : State :=
  calling.setSch { calling.sch with tasks := [{ task0 with flow := 10, cls := 1 }],
                                    cores := [(0, { getCore up 0 with busy := some 7 })] }

theorem witness_Channels :
    (let p := profileOf (profArgs 5)
     CommandReady running ∧ (profArgs 5).length = 23 ∧ argChan (profArgs 5) = 5 ∧ profileOk (profArgs 5) p = true ∧
       (5 : ChanNo).toNat < channelLimit running ∧ profileFits running 5 p = true ∧ running.led.shedding = none ∧
       findChan running 5 = none ∧ workRefusesCreate running p.hwy = none ∧ graphsFit running p = true ∧
       running.sch.entries.length < almanacSize) := by
  unfold CommandReady
  decide +kernel

theorem witness_channel_commands : profileFits calling 5 (profileOf (profArgs 5)) = true ∧ calling.led.shedding = none ∧
    (CommandReady calling ∧ (findChan calling 5).isSome = true ∧ calling.mode ∈ [Mode.ready, .run, .degraded] ∧
      (findChan calling 5).map (fun x => x.safe) = some none ∧
      (findChan calling 5).map (fun x => fixedPart x.prof) = some (fixedPart (profileOf (profArgs 5))) ∧
      chanInService calling 5 = false) ∧
    (CommandReady inService5 ∧ chanInService inService5 5 = true) := by
  unfold CommandReady
  decide +kernel

theorem witness_channel_keys :
    (CommandReady (protectedCall none none) ∧ (findChan (protectedCall none none) 5).map (fun x => (x.prof.srtp, x.safe,
      x.rxCtx, x.txCtx)) = some (true, none, none, none)) ∧
    (∀ k : SrtpCtx, ∃ r, (findChan (protectedCall (some k) none) 5).map (fun x => (x.rxCtx, x.txCtx, x.keysLate)) =
      some (some r, none, false)) ∧
    (∀ k : SrtpCtx, ∃ r, (findChan (protectedCall none (some k)) 5).map (fun x => (x.rxCtx, x.txCtx, x.keysLate)) =
      some (none, some r, false)) ∧
    up.clk.cryptoLost = false := by
  unfold CommandReady
  refine ⟨?_, fun k => ⟨k, rfl⟩, fun k => ⟨k, rfl⟩, ?_⟩ <;>
  decide +kernel

theorem witness_channel_load :
    (let p := profileOf (profArgs 5)
     ∃ e, fitLoad running 5 (luCost p) (tuCost running p) none = .ok e) ∧
    (let p := profileOf (profArgs 5)
     ∃ e, fitLoad calling 5 (luCost p) (tuCost calling p) (some 0) = .ok e) := ⟨⟨_, rfl⟩, ⟨_, rfl⟩⟩

theorem witness_NetworkConfiguration : CommandReady running ∧ running.mode ∈ [Mode.ready, .run, .degraded, .held, .safe] ∧
    TablesSized running ∧
    (let a : List Word := [1, 1, 1, 0x0A01, 0x0002, 0, 0, 0, 0, 0, 0, 24, 4094]
     modeAllowed 1 1 = true ∧ ifaceOk (argIp a 3) 24 = true ∧ ifaceClash running 1 (argIp a 3) 4094 = false ∧
       hasIf (getPort running 1) = false) ∧
    hasIf (getPort running 0) = true ∧ running.led.chans.any (fun c => c.port = 0) = false ∧
    (running.sw.vlans.filter (fun v => v.vid ≠ 4094)).length < 4094 ∧
    running.led.chans.any (fun c => c.prof.hwy = 31) = false ∧ 1 ≤ 256 ∧ 0 + 256 ≤ 256 ∧ 255 + 1 ≤ 256 ∧
    formatOk 7 3 0 0 = true := by
  unfold CommandReady TablesSized
  decide +kernel

theorem witness_TimeConfiguration : CommandReady up ∧ up.cal.waiting = [] ∧ -4 ≤ (0xFFFC : Word).toInt ∧ (1 : Word).toInt ≤ 1 ∧
    (∀ q ∈ [0, 1, 2, 3], (getPtp up q).role ≠ 1) ∧ (500000000 : W32).toNat ≤ 500000000 ∧ 16 ≤ (16 : W32).toNat ∧
    (up.tim.src = 2 → isSummit up = false) ∧ up.tim.src = 0 ∧ up.clk.refSel ≠ 3 ∧
    probeCode ((0xFF : Byte).setWidth 16) = true := by
  unfold CommandReady
  decide +kernel

/-- A summit, and what its table holds. -/
def summit (l : List TopoEntry) : State :=
  let s := up.setPins { up.pins with straps := 2 }
  s.setIsm { s.ism with addr := some 0, table := l }

def walk0 : Walk := ⟨0, .host, [], [], 0, [], 0, [], [], [], [], 0, 0, false, []⟩

def entry1 : TopoEntry := ⟨3, 0, 1, 1, false, false, 0x55, 0, 0⟩

theorem witness_TopologyCommands : CommandReady (summit []) ∧ isSummit (summit []) = true ∧ (summit []).ism.walk = none ∧
    isSummit up = false ∧ CommandReady up ∧ trainedDn (summit [entry1]) = [] ∧
    topoByUid (summit [entry1]) 0x55 = some entry1 ∧
    (summit [entry1]).ism.table.any (fun x => x.addr = 0xFFFF && x.uid ≠ 0x55) = false ∧
    ((summit []).setIsm { (summit []).ism with walk := some walk0 }).ism.walk.isSome = true ∧
    CommandReady (summit [entry1]) ∧ isSummit (summit [entry1]) = true ∧ (topoByAddr (summit [entry1]) 3).isSome = true ∧
    topoByAddr (summit [entry1]) 4 = none ∧ plainKey 0x0105 [] = false ∧ plainKey 0x0803 [1] = true := by
  unfold CommandReady
  decide +kernel

theorem witness_SafetyCommands : CommandReady up ∧ up.mode = .ready ∧ 2 ≤ (2 : Word).toNat ∧ (64 : Word).toNat ≤ 64 ∧
    running.mode ≠ .ready ∧ CommandReady running ∧ proofRuns up = false ∧ testBit up = false ∧ up.saf.safe = false ∧
    up.led.chans = [] ∧ up.cmds.works = [] ∧ CommandReady calling ∧ (5 : ChanNo).toNat < channelLimit calling ∧
    (calling.led.chans.map (fun x => (x.no, (findChan calling x.no).isSome)) = [(5, true)]) := by
  unfold CommandReady
  decide +kernel

theorem witness_CalibrationCommands : CommandReady up ∧ calItem 0x0200 = some (.overlay, -1600, 1600) ∧
    -1600 ≤ (0xFFFFF9C0 : W32).toInt ∧ (1600 : W32).toInt ≤ 1600 ∧ up.pwr.pwrfail = false ∧ up.cmds.works = [] ∧
    up.cal.waiting = [] ∧ calInUse up 0x0200 = false ∧ calInUse up 0x0100 = true ∧ calItem 0x0100 = some (.overlay, -640, 640) ∧
    calItem 0x0602 = some (.measured, -20000, 20000) ∧ findWork up 0x0904 (some 3) = none ∧ calBusy up = false ∧
    running.led.chans.any (fun c => c.prof.hwy = 0) = false ∧ (getHwy running 0).aligned = true ∧ CommandReady running ∧
    calBusy running = false ∧ (calItem 0x0600).map Prod.fst = some .measured ∧ (calItem 0x0601).map Prod.fst = some .measured ∧
    ((119 : CoreNo).toNat < coreCount up ∧ (getCore up 119).withdrawn = false ∧ (getCore up 119).drained = false) ∧
    findWork up 0x0904 (some 1) = none ∧ findWork up 0x0904 (some 2) = none ∧ engineUp up 1 = true ∧
    up.mode ≠ .safe ∧ up.saf.safe = false ∧ up.led.chans = [] := by
  unfold CommandReady
  decide +kernel

/-- `up` with the key armed and point 0 armed. -/
def injecting (l : List Word) : State :=
  (withKey (.armed 0)).setFi { up.fi with points := l.map (fun p => (p, { fiDefault with armed := true })) }

theorem witness_InjectionCommands : pointKnown 0 = true ∧ CommandReady (withKey (.armed 0)) ∧ keyed (withKey (.armed 0)) = true ∧
    (2 : Word).toNat ≤ 2 ∧ paramOk 2 15 = true ∧ proofRuns (withKey (.armed 0)) = false ∧
    fiPoint (withKey (.armed 0)) 0 = none ∧ CommandReady (injecting [0, 1]) ∧ keyed (injecting [0, 1]) = true ∧
    proofRuns (injecting [0]) = false ∧ CommandReady (injecting [0]) ∧
    fiPoint (injecting [0, 1]) 0 = some { fiDefault with armed := true } ∧
    fiPoint (injecting [0]) 0 = some { fiDefault with armed := true } ∧
    armedPoints (putFi 0 { fiDefault with armed := false, held := [] } (injecting [0, 1])) ≠ 0 ∧
    armedPoints (putFi 0 { fiDefault with armed := false, held := [] } (injecting [0])) = 0 := by
  unfold CommandReady
  decide +kernel

/-- A task object of one instruction word for PM 0x8000 (Table 10-10). -/
def object : List Byte :=
  bytes4 0x4B534154 ++ bytes4 0x00000100 ++ bytes4 1000 ++ bytes4 0x00030001 ++ bytes4 0x00018000 ++ bytes4 0 ++
  bytes4 (crc32c (List.replicate 16 0)) ++ bytes4 0 ++ List.replicate 16 0

/-- `up` with the object at the start of the customer's DRAM window. -/
def objectInPlace : State :=
  up.withMem ((List.range 12).foldl (fun m i => memWrite32 m (0xF0000000 + 4 * i) (le32 object (4 * i)) 15) up.mem)

theorem witness_TaskAndModelLoads : CommandReady objectInPlace ∧ (32 : Word).toNat = 32 ∧ (63 : Word).toNat = 63 ∧
    taskExists objectInPlace 32 = false ∧ taskExists core0 32 = true ∧ CommandReady core0 ∧
    objectBytes objectInPlace [0, 0xF000, 0, 48, 0, 32] = some object ∧ taskObjectOk object = true ∧
    versionFits (le16 object 4) (runningInfo objectInPlace).tav = true ∧
    objectInPlace.sch.classes.any (fun e => e.1 ≠ 32 && pmOverlap (taskClass object) e.2) = false ∧
    slotBusy objectInPlace 1 = false ∧ slotBusy objectInPlace 15 = false ∧
    objectRange [0, 0xF000, 0, 48, 0, 32] = true ∧ objectRange [0, 0xF000, 0, 0, 0, 32] = true ∧
    objectRange [0, 0xEFFF, 0, 48, 0, 32] = false ∧ objectRange [0xFFF0, 0xFFFF, 0, 48, 0, 32] = false := by
  unfold CommandReady
  decide +kernel

/-! ### The scheduler -/

/-- RUN with class 32 loaded and customer flow 0x4000 reserved. -/
def loaded : State :=
  let s := running.setSch { running.sch with classes := [(32, class0)] }
  s.setLed { s.led with resv := [(0x4000, 16)] }

/-- A task that waits for operand 0, under ID 7. -/
def waitingTask : Task := { task0 with flow := 0x4000, st := .wait, arrived := 0, exec := none }

/-- `loaded` with that task; `a` says which operands have arrived. -/
def pendingTask (a : BitVec 4) : State := loaded.setSch { loaded.sch with tasks := [{ waitingTask with arrived := a }] }

theorem witness_SchedulerRequests : hasReqPort loaded .host = true ∧ restricted loaded .host = true ∧
    customerFlow 0x4000 = true ∧ customerFlow 0xFEFF = true ∧ customerFlow 0x3FFF = false ∧ classLoaded loaded 32 = true ∧
    (1 : BitVec 4) &&& 2 = 0 ∧ traffic loaded = true ∧ 32 ∉ loaded.sch.stopped ∧ (reservation loaded 0x4000).isSome = true ∧
    (residents loaded).length < storeSlots ∧ handleTask loaded 7 = none ∧
    handleTask (pendingTask 0) 7 = some waitingTask ∧ declares waitingTask 0 = true ∧ waitingTask.arrived.getLsbD 0 = false ∧
    handleTask (pendingTask 1) 7 = some { waitingTask with arrived := 1 } ∧
    loaded.sch.entries.length < almanacSize ∧ loaded.led.shedding = none ∧
    luAdmitted loaded - (reservation loaded 0x4000).getD 0 + (16 : BitVec 18).toNat ≤ luCeil loaded ∧
    (let s := loaded.setSch { loaded.sch with tasks := [{ waitingTask with flow := 10 }] }
     hasReqPort s .host = true ∧ restricted s .host = true ∧ handleTask s 7 = some { waitingTask with flow := 10 } ∧
       customerFlow 10 = false) := by
  decide +kernel

/-- An almanac entry on list 0 for the handle of the task. -/
def entryFor (period : Nat) (c : Option ChanNo) : AEntry := ⟨1, 0, 5, period, 7, 0, 0, c⟩

/-- `pendingTask` with such an entry. -/
def scheduled (period : Nat) : State :=
  (pendingTask 0).setSch { (pendingTask 0).sch with entries := [entryFor period none] }

/-- `calling` with the channel's list 0 entry, its frame played or not, and its down graph built. -/
def ticking (played : Bool) : State :=
  let s := calling.setLed { calling.led with chans := calling.led.chans.map (fun x =>
    { x with played := played, downBuilt := true, upBuilt := false }) }
  s.setSch { s.sch with entries := [entryFor 40 (some 5)] }

/-- `ticking` with `n` tasks in the task store and `m` in the spill area. -/
def stored (n m : Nat) : State :=
  (ticking false).setSch { (ticking false).sch with
    tasks := List.replicate n waitingTask ++ List.replicate m { waitingTask with st := .spilled } }

theorem stored_free (n m : Nat) : freePlaces (stored n m) = (storeSlots - n) + (spillSlots - m) := by
  have h : (stored n m).sch.tasks = List.replicate n waitingTask ++ List.replicate m { waitingTask with st := .spilled } := rfl
  simp [freePlaces, residents, spilledTasks, h, waitingTask]

theorem witness_store_full : freePlaces (stored storeSlots spillSlots) = 0 ∧
    ∃ x, findChan (stored storeSlots spillSlots) 5 = some x ∧ 0 < (upClasses x).length := by
  refine ⟨by rw [stored_free, Nat.sub_self, Nat.sub_self], ?_⟩
  have h : (findChan (ticking false) 5).any (fun x => decide (0 < (upClasses x).length)) = true := by decide +kernel
  obtain ⟨x, hx, hl⟩ := Option.any_eq_true .. |>.mp h
  exact ⟨x, hx, of_decide_eq_true hl⟩

theorem witness_SchedulerEvents : dueEntry 1 loaded = none ∧ dueEntry 0 (scheduled 0) = some (entryFor 0 none) ∧
    (LanesIdle (scheduled 0) ∧ nextDue (scheduled 0) = some (entryFor 0 none)) ∧
    (LanesIdle (scheduled 3) ∧ nextDue (scheduled 3) = some (entryFor 3 none)) ∧
    dueEntry 0 (scheduled 3) = some (entryFor 3 none) ∧ handleTask (scheduled 3) 7 = some waitingTask ∧
    (let s := loaded.setSch { loaded.sch with entries := [entryFor 0 none] }
     handleTask s 7 = none ∧ LanesIdle s ∧ nextDue s = some (entryFor 0 none)) ∧
    LanesIdle (ticking true) ∧ nextDue (ticking true) = some (entryFor 40 (some 5)) ∧
    (ticking true).sch.entries.find? (fun e => e.chan = some 5) = some (entryFor 40 (some 5)) ∧
    ((findChan (ticking true) 5).map (fun x => (x.safe, x.upRecorded, x.played)) = some (none, true, true)) ∧
    (ticking true).saf.safe = false ∧
    ((findChan (ticking false) 5).map (fun x => (x.safe, x.downBuilt, x.upBuilt, x.played)) = some (none, true, false, false)) ∧
    ((findChan (ticking false) 5).map (fun x => decide ((upClasses x).length ≤ freePlaces (ticking false))) = some true) ∧
    (∀ e ∈ loaded.sch.entries, e.chan ≠ some 5) ∧ 1024 ≤ (16128 : W32).toNat % 2 ^ 15 ∧
    loaded.sch.spillLo.toNat + 512 ≤ (16128 : W32).toNat % 2 ^ 15 ∧ (16129 : W32).toNat % 2 ^ 15 > 16128 := by
  unfold LanesIdle
  decide +kernel

/-- A task ready for a voice core. -/
def readyTask : State := loaded.setSch { loaded.sch with tasks := [{ waitingTask with st := .ready, arrived := 1 }] }

/-- A core of `up` that drains, or is drained. -/
def draining (a b : Bool) : State := up.setSch { up.sch with cores := [(0, { getCore up 0 with draining := a, drained := b })] }

theorem witness_ExecutorsAndPoints : executorIdle readyTask (.vc 0) = true ∧
    chooseTask readyTask (.vc 0) = some { waitingTask with st := .ready, arrived := 1 } ∧
    executorIdle core0 (.vc 0) = false ∧ chooseTask loaded (.vc 0) = none ∧ serving core0 (.vc 0) = some task0 ∧
    (let w := moveTo (nextEdge 5000000 loaded.tim) loaded
     (participating w)[127]? = some 127 ∧ (getCore w 127).busy = none) ∧ (getCore loaded 127).busy = none ∧
    (getCore loaded 127).withdrawn = false ∧
    (up.setSch { up.sch with cores := [(0, { getCore up 0 with withdrawn := true })] } |> fun s => (getCore s 0).withdrawn) = true ∧ corePresent up 127 = true ∧
    ((getCore (draining true false) 0).draining = true ∧ (getCore (draining true false) 0).busy = none) ∧
    ((getCore (draining false true) 0).drained = true ∧ (getCore (draining false true) 0).draining = false) ∧
    (draining false true).cmds.works = [] := by
  decide +kernel

/-! ### Cells and queues -/

/-- Customer queue 16384 enabled with a limit, the host's producer on it with `cells` of a packet of `words` words. -/
def producing (limit : BitVec 17) (cells : List Nat) (words : Nat) : State :=
  let s := putQ 16384 { getQ up 16384 with enable := true, limit := limit, openCells := cells.length } up
  putProd .host { getProd s .host with q := some 16384, cells := cells, words := words } s

/-- The same queue without a producer, holding one packet. -/
def holding : State := putQ 16384 { getQ up 16384 with enable := true, limit := 8, pkts := [⟨[4], 4, 0, 0, false⟩] } up

theorem witness_QueueProducers : hasQueuePort up .host = true ∧ (getProd up .host).q = none ∧ mayUse up .host 16383 = false ∧
    mayUse up .host 32512 = false ∧ (mayUse up .host 32511 = true ∧ (getQ up 32511).enable = false) ∧
    (let s := putProd .firmware { getProd holding .firmware with q := some 16384 } holding
     mayUse s .host 16384 = true ∧ (getQ s 16384).enable = true ∧ producerOn s 16384 = true ∧ (getProd s .host).q = none) ∧
    (mayUse holding .host 16384 = true ∧ (getQ holding 16384).enable = true ∧ producerOn holding 16384 = false) ∧
    ((getProd (producing 8 [4] 3) .host).q = some 16384 ∧ (getProd (producing 8 [4] 3) .host).bad = false ∧
      (getProd (producing 8 [4] 3) .host).flushed = false ∧ (8 + 4 * 3) / 248 < [4].length) ∧
    ([4].length ≤ (8 + 4 * 60) / 248 ∧ [4].length ≠ 64 ∧
      depth (getQ (producing 8 [4] 60) 16384) < (getQ (producing 8 [4] 60) 16384).limit.toNat ∧
      poolGrants (producing 8 [4] 60) 16384 = true) ∧
    ((getQ (producing 1 [4] 60) 16384).limit.toNat ≤ depth (getQ (producing 1 [4] 60) 16384)) ∧
    (custQueue 16384 = true ∧ custQueue 32511 = true ∧ (getQ (producing 8 [4] 3) 16384).notify = false ∧
      0 < (getProd (producing 8 [4] 3) .host).words ∧ 4 * (3966 - 1) + 4 ≤ 15864) ∧
    ((0 : BitVec 3).toNat ≤ 4 ∧ (4 : BitVec 3).toNat ≤ 4 ∧ 5 ≤ (5 : BitVec 3).toNat ∧
      (getProd (producing 8 [] 0) .host).words = 0) := by
  decide +kernel

/-- The host's consumer on the queue of `holding`. -/
def consuming : State := putCons .host ⟨some 16384, 0, false, 0, false⟩ holding

theorem witness_QueueConsumersAndDescriptors : hasQueuePort holding .host = true ∧ mayUse holding .host 16384 = true ∧
    (getQ holding 16384).enable = true ∧ consumerOn holding .host 16384 = false ∧ mayUse holding .host 16383 = false ∧
    (getCons consuming .host).q = some 16384 ∧ (getCons consuming .host).flushed = false ∧
    (getQ consuming 16384).pkts.head? = some ⟨[4], 4, 0, 0, false⟩ ∧ 4 * (getCons consuming .host).pos < 4 ∧
    4 ∉ consuming.qm.eccCells := by
  decide +kernel

/-! ### Tensor engines and the call path -/

/-- A NEURAL task in service on engine 0, model 1 next. -/
def neural : State :=
  let s := running.setSch { running.sch with tasks := [{ task0 with cls := 5, flow := 10, exec := some (.te 0) }],
                                             te0Busy := some 7 }
  putEngine 0 { getEngine s 0 with models := [1] } s

theorem witness_TensorJobs : serving running (.te 0) = none ∧
    serving neural (.te 0) = some { task0 with cls := 5, flow := 10, exec := some (.te 0) } ∧
    (getEngine neural 0).models = [1] ∧ neural.cmds.works = [] ∧ (job 1).lastJob = false ∧
    jobNext neural (getEngine neural 0) 1 (job 1) = true ∧ jobNext neural (getEngine neural 0) 17 (job 1) = false ∧
    serving up (.te 1) = none := by
  decide +kernel

theorem witness_tensor_checks : descError 2 (job 1) (fun _ => 4096) (fun _ _ => 0) = .error 1 ∧
    descError 4 ⟨0x00000004, 0x00010001, 1, 0, 0, 0, 0, 0⟩ (fun _ => 4096) (fun _ _ => 0) = .ok 0 := ⟨rfl, rfl⟩

/-- Channel 5 of `calling` with seed 9 at frame 0, its down frame `f` done where there is one. -/
def framed (played : Bool) (f : Option AFrame) : State :=
  calling.setLed { calling.led with chans := calling.led.chans.map (fun x =>
    { x with seed := 9, frameNo := 0, played := played, downBuilt := f.isSome, downDone := f.isSome,
             downs := f.toList.map (fun a => ⟨0, .noise, a⟩) }) }

/-- A frame with the tag's seed `seed`, its check code good or not. -/
def frameOfSeed (seed : BitVec 10) (ok : Bool) : AFrame := ⟨mkTag 5 false 0 seed, ok, []⟩

theorem witness_CallPath_frames : ∀ f ∈ [frameOfSeed 9 true, frameOfSeed 8 true, frameOfSeed 9 false],
    (findChan (framed false (some f)) 5).map (fun x => (x.played, x.upRecorded, x.downDone)) = some (false, true, true) ∧
    ((findChan (framed false (some f)) 5).bind (fun x => findDown x x.frameNo)).map DownFrame.audio = some f := by
  decide +kernel

theorem witness_CallPath : (findChan (framed true none) 5).map (fun x => (x.safe, x.played)) = some (none, true) ∧
    (framed true none).saf.safe = false ∧
    ((findChan (framed false none) 5).map (fun x => (x.played, x.upRecorded, x.downDone, x.inService, x.liveDown.misses)) =
      some (false, true, false, true, 0)) ∧
    (let t := (frameOfSeed 9 true).tag
     tagChan t = 5 ∧ tagUp t = false ∧ tagSeed t = 9 ∧ tagSeq t = 0) ∧ tagSeed (frameOfSeed 8 true).tag ≠ 9 ∧
    headPkt (framed true none) (egressQ 5) = none ∧ (framed true none).led.shedding = none ∧
    ((framed true none).setLed { (framed true none).led with shedding := some .thermal }).led.shedding = some .thermal := by
  decide +kernel

/-! A cell with channel 5's tag (seed 9) and nothing else, and its check code, taken 31 bytes at a time. -/

def zeros31 (c : W32) : W32 := (List.replicate 31 (0 : Byte)).foldl (crcByte 0x82F63B78) c

theorem crc_zeros_0 : zeros31 0xFFFFFFFF = 0xE12C83B4 := by decide +kernel

theorem crc_zeros_1 : zeros31 0xE12C83B4 = 0x68834CCE := by decide +kernel

theorem crc_zeros_2 : zeros31 0x68834CCE = 0xC48773D2 := by decide +kernel

theorem crc_zeros_3 : zeros31 0xC48773D2 = 0x28E42C9B := by decide +kernel

theorem crc_zeros_4 : zeros31 0x28E42C9B = 0x29EF91B6 := by decide +kernel

theorem crc_zeros_5 : zeros31 0x29EF91B6 = 0xB28DFC03 := by decide +kernel

theorem crc_zeros_6 : zeros31 0xB28DFC03 = 0xA58D84B7 := by decide +kernel

theorem crc_zeros_7 : zeros31 0xA58D84B7 = 0x2D2ECB5D := by decide +kernel

theorem fold_eight (f : W32 → Byte → W32) (z l : List Byte) (c0 c1 c2 c3 c4 c5 c6 c7 c8 : W32)
    (h0 : z.foldl f c0 = c1) (h1 : z.foldl f c1 = c2) (h2 : z.foldl f c2 = c3) (h3 : z.foldl f c3 = c4)
    (h4 : z.foldl f c4 = c5) (h5 : z.foldl f c5 = c6) (h6 : z.foldl f c6 = c7) (h7 : z.foldl f c7 = c8) :
    ([0, 1, 2, 3, 4, 5, 6, 7].flatMap (fun _ : Nat => z) ++ l).foldl f c0 = l.foldl f c8 := by
  simp only [List.foldl_append, List.flatMap_cons, List.flatMap_nil, List.foldl_nil, h0, h1, h2, h3, h4, h5, h6, h7]

theorem crc_cell : crc32c ([0, 1, 2, 3, 4, 5, 6, 7].flatMap (fun _ : Nat => List.replicate 31 (0 : Byte)) ++
    [0x05, 0x20, 0x40, 0x02]) = 0x3EE9858D := by
  unfold crc32c crcOf
  rw [fold_eight _ _ _ _ _ _ _ _ _ _ _ _ crc_zeros_0 crc_zeros_1 crc_zeros_2 crc_zeros_3 crc_zeros_4 crc_zeros_5 crc_zeros_6
    crc_zeros_7]
  decide +kernel

/-- The tag and a check code in cell 4. -/
def cellMem (l : List Host.Cell) : List Host.Cell :=
  [(0x30000004F8, 0x05), (0x30000004F9, 0x20), (0x30000004FA, 0x40), (0x30000004FB, 0x02)] ++ l

def goodCode : List Host.Cell := [(0x30000004FC, 0x8D), (0x30000004FD, 0x85), (0x30000004FE, 0xE9), (0x30000004FF, 0x3E)]

theorem cellMem_is_tag : cellMem [] = memWrite32 [] (cellBase 4 + 0xF8) (mkTag 5 true 0 9) 15 := by decide +kernel

/-- A packet of that cell at the head of the egress queue of channel 5; the check code good or not. -/
def egressing (l : List Host.Cell) : State :=
  let s := (framed true none).withMem (cellMem l)
  putQ (egressQ 5) { getQ s (egressQ 5) with enable := true, limit := 32, pkts := [⟨[4], 8, 0, mkTag 5 true 0 9, false⟩] } s

theorem cellMem_bytes_good : memReadList (cellMem goodCode) (cellBase 4) 0xFC =
    [0, 1, 2, 3, 4, 5, 6, 7].flatMap (fun _ : Nat => List.replicate 31 (0 : Byte)) ++ [0x05, 0x20, 0x40, 0x02] := by
  decide +kernel

theorem cellMem_bytes_bad : memReadList (cellMem []) (cellBase 4) 0xFC =
    [0, 1, 2, 3, 4, 5, 6, 7].flatMap (fun _ : Nat => List.replicate 31 (0 : Byte)) ++ [0x05, 0x20, 0x40, 0x02] := by
  decide +kernel

theorem egressing_crc : cellCrcGood (egressing goodCode) 4 = true ∧ cellCrcGood (egressing []) 4 = false := by
  have g : fetch (egressing goodCode) (cellBase 4) 0xFC = _ := cellMem_bytes_good
  have b : fetch (egressing []) (cellBase 4) 0xFC = _ := cellMem_bytes_bad
  unfold cellCrcGood
  rw [g, b, crc_cell]
  decide +kernel

theorem witness_egress : (headPkt (egressing goodCode) (egressQ 5)).isSome = true ∧
    (∀ x, checkPacket (egressing []) x ⟨[4], 8, 0, mkTag 5 true 0 9, false⟩ = some true) ∧
    (∀ x, x.no = 5 → x.seed = 9 → checkPacket (egressing goodCode) x ⟨[4], 8, 0, mkTag 5 true 0 9, false⟩ = none) := by
  refine ⟨by decide +kernel, fun x => ?_, fun x hn hs => ?_⟩
  · simp [checkPacket, egressing_crc]
  · simp only [checkPacket, List.all_cons, List.all_nil, egressing_crc, hn, hs]
    decide +kernel

/-! ### Power, reset and clocks -/

/-- `up` without any power input, and with PoE of a class alone. -/
def unpowered : State := up.setPwr { up.pwr with ac := ⟨false, false⟩, powered := true }
def poeOnly3 (w : Nat) : State :=
  up.setPwr { up.pwr with ac := ⟨false, false⟩, poe := ⟨true, true⟩, poeClass := 6, guardWindows := w }

theorem witness_PowerAndTemperature : anyInput up = true ∧ anyInput unpowered = false ∧ unpowered.pwr.powered = true ∧
    unpowered.pwr.pwrfail = false ∧
    unpowered.mode ≠ .reset ∧ (srcOf up .dc).valid = false ∧
    (let s := up.setPwr { up.pwr with ac := ⟨true, true⟩ }
     (srcOf s .ac).valid = true ∧ ∀ r ∈ [PowerIn.dc, .poe], (srcOf s r).valid = false) ∧
    (poeOnly (poeOnly3 2) = true ∧ (poeOnly3 2).pwr.held = none ∧ (poeOnly3 2).pwr.guardShed = false ∧ (poeOnly3 2).mode ≠ .reset ∧
      (poeOnly3 2).cal.waiting = [] ∧ 2 ≤ (poeOnly3 2).pwr.guardWindows ∧ (poeOnly3 0).pwr.guardWindows < 2 ∧
      (classPower 6 : Int) * 1000000 * [1000000000].length < correctedPower (sumOf id [1000000000]) (poeOnly3 2) ∧
      ¬ (classPower 6 : Int) * 1000000 * [0].length < correctedPower (sumOf id [0]) (poeOnly3 2)) ∧
    up.mode ∈ [Mode.ready, .run, .degraded, .held, .safe] ∧ up.mode ≠ .safe ∧ up.cal.waiting = [] ∧
    12160 < (BitVec.ofInt 16 (meanSample [(0, (12161 : Word).toInt + calEffective up 0x0100)]) : Word).toInt := by
  decide +kernel

/-- BOOT before and after its self-test. -/
def booting (done : Bool) : State :=
  up.setBoot { up.boot with mode := .boot, bistDone := done, startArmed := true, active := if done then some false else none }

theorem witness_ResetAndBoot : up.mode ≠ .reset ∧ (booting false).mode = .boot ∧ (booting false).boot.startArmed = true ∧
    (up.setHost { up.host with hwdogPeriod := 1 }).host.hwdogPeriod ≠ 0 ∧ State.reset.mode = .reset ∧
    resetMayEnd (State.reset.setPwr { State.reset.pwr with ac := ⟨true, true⟩ }) = true ∧
    ((0xE97F : Word).toInt + calEffective State.reset 0x0100 < -5760 ∧
      -5760 ≤ (0xE980 : Word).toInt + calEffective State.reset 0x0100) ∧
    up.clk.hostLost = false ∧ up.host.live = true ∧ up.pwr.powered = true ∧
    (up.setPwr { up.pwr with powered := false }).pwr.powered = false ∧ (up.setHost { up.host with live := false }).host.live = false ∧
    ((up.setBoot { up.boot with resetSoon := true }).boot.resetSoon = true ∧ up.pending = []) ∧
    ((booting false).boot.bistDone = false ∧ poeStandby (booting false) = false ∧ (booting false).saf.safe = false ∧
      (booting false).hw.factoryOk = true ∧ (booting false).pwr.pwrfail = false ∧ (booting false).boot.trial = false ∧
      (booting false).boot.active = none) ∧
    ((booting true).boot.running.isSome = true ∧ (booting true).boot.bistDone = true ∧ tooHot (booting true) = false ∧
      (booting true).boot.active = some (booting true).boot.pref) := by
  decide +kernel

/-- `up` with REFIN selected, in use or lost. -/
def onRefin (used : BitVec 2) : State := up.setClk { up.clk with refSel := 1, refUsed := used }

theorem witness_ClocksVioAndUnlock : up.mode ≠ .reset ∧ corePresent up 127 = true ∧ (onRefin 1).clk.refUsed ≠ 0 ∧
    ((onRefin 0).clk.refSel ≠ 0 ∧ (onRefin 0).clk.refUsed = 0) ∧ running.mode = .run ∧ State.reset.pins.vioClass33 = none ∧
    (setMode .boot State.reset).mode ≠ .reset ∧ up.pins.vioClass33 = some true ∧ State.reset.mode = .reset ∧
    TablesSized running ∧ (getHwy running 0).aligned = true ∧ up.clk.refUsed = 0 ∧
    (∀ b ∈ [false, true], (up.setPins { up.pins with vioClass33 := some true, vioIn := b }).pins.vioIn = b) ∧
    up.pwr.powered = true := by
  unfold TablesSized
  decide +kernel

/-! ### Functional safety -/

theorem witness_SafetyReactions : Guarded up ∧ Guarded running ∧ Guarded (setMode .held up) ∧ Guarded (setMode .degraded up) ∧
    135 < (136 : BitVec 9).toInt ∧ (135 : BitVec 9).toInt ≤ 135 ∧ hostUp up = true ∧ (inSafe 9).mode = .safe ∧
    (inSafe 9).saf.safe = true ∧ State.reset.mode = .reset := by
  unfold Guarded
  decide +kernel

/-- `calling` with policy 1 for the channel's group. -/
def grouped : State :=
  calling.setSaf { calling.saf with groupPolicy := calling.led.chans.map (fun x => x.prof.group) }

theorem witness_ErrorsByPlace : up.mode ≠ .reset ∧ 98303 < cellTotal ∧ 98303 ∉ up.qm.eccCells ∧
    serving core0 (.vc 0) = some task0 ∧ core0.mode ≠ .reset ∧
    serving neural (.te 0) = some { task0 with cls := 5, flow := 10, exec := some (.te 0) } ∧ serving up (.vc 0) = none ∧
    corePresent up 0 = true ∧ grouped.saf.safe = false ∧ grouped.mode ≠ .reset ∧
    (grouped.led.chans.map (fun x => (x.safe, (findChan grouped x.no).isSome, decide (x.prof.group ∈ grouped.saf.groupPolicy))) =
      [(none, true, true)]) := by
  decide +kernel

/-! ### Highways, ports and frames -/

/-- Highway 31 of `up` in the state `x`. -/
def highway (x : Highway) : State := putHwy 31 x up

def enabledHwy : Highway := { Highway.atReset with cfg := ⟨true, false, false, 0xD5, 0⟩ }

/-- An aligned highway with one frame in each buffer, the pointers at the two ends of the distances without a slip. -/
def alignedHwy (master : Bool) (bad : Nat) : Highway :=
  { enabledHwy with cfg := { enabledHwy.cfg with master := master }, aligned := true, badPulses := bad,
                    rxBuf := [List.replicate 256 0x55], rxGap := 512, txBuf := [List.replicate 256 (some 0x55)], txGap := 3584 }

theorem witness_Highways_frames :
    (∀ m ∈ [false, true], ∀ b ∈ [0, 1], let x := getHwy (highway (alignedHwy m b)) 31
      TablesSized (highway (alignedHwy m b)) ∧ x.aligned = true ∧ x.cfg.enabled = true ∧ x.cfg.master = m ∧ x.badPulses = b ∧
        x.txOut = [] ∧ x.rxBuf = [List.replicate 256 0x55] ∧ x.txBuf = [List.replicate 256 (some 0x55)] ∧ x.rxGap = 512 ∧
        x.txGap = 3584 ∧ pinsActive (highway (alignedHwy m b)) = true) ∧
    fiPoint up (0x0100 + (31 : HwyNo).setWidth 16) = none ∧ fiPoint up (0x0120 + (31 : HwyNo).setWidth 16) = none ∧
    (getHwy (highway { enabledHwy with goodPulses := 1 }) 31).goodPulses = 1 ∧
    trimming (highway enabledHwy) 31 = false ∧
    trimming ((highway enabledHwy).setCmds { up.cmds with
      works := [newWork ⟨0x0901, 9, [0x051F, 0, 0], false, .host⟩ 0x051F 1] }) 31 = true ∧
    pinsActive (setMode .boot (highway enabledHwy)) = false := by
  unfold TablesSized
  decide +kernel

theorem witness_Highways : TablesSized (highway enabledHwy) ∧ (getHwy (highway enabledHwy) 31).cfg.enabled = true ∧
    (getHwy (highway enabledHwy) 31).aligned = false ∧ pinsActive (highway enabledHwy) = true ∧
    (getHwy up 31).cfg.enabled = false ∧
    (let s := highway { enabledHwy with aligned := true, nextCfg := some ⟨false, false, false, 0, 0⟩ }
     TablesSized s ∧ (getHwy s 31).aligned = true ∧ (getHwy s 31).cfg.enabled = true ∧
       ((getHwy s 31).nextCfg.getD (getHwy s 31).cfg).enabled = false ∧ (getHwy s 31).cfg.master = false ∧ pinsActive s = true) ∧
    (let s := highway { enabledHwy with cfg := ⟨true, true, false, 0xD5, 0⟩ }
     TablesSized s ∧ (getHwy s 31).cfg.master = true ∧ ((getHwy s 31).nextCfg.getD (getHwy s 31).cfg).enabled = true) := by
  unfold TablesSized
  decide +kernel

/-- Port `p` of `up` in a mode, with a cage, the link up or down. -/
def ported (p : PortNo) (mode : BitVec 3) (c : Cage) (linkUp : Bool) : State :=
  putPort p { getPort up p with mode := mode, cage := c, up := linkUp } up

theorem witness_CagesAndLinks : TablesSized (ported 2 0 Cage.atReset false) ∧ hasCage 2 = true ∧ hasCage 0 = false ∧
    (getPort (ported 2 0 Cage.atReset false) 2).mode = 0 ∧ (getPort (ported 2 1 Cage.atReset false) 2).mode ≠ 0 ∧
    portsOn up = true ∧ portsOn (inMode .boot) = false ∧ (inMode .standby).mode = .standby ∧ up.mode ≠ .reset ∧
    up.mode ≠ .standby ∧
    (let s := ported 2 1 ⟨true, true, true, true, true, true, true, false⟩ false
     (getPort s 2).cage.present = true ∧ (getPort s 2).cage.powered = true) ∧
    (getPort (ported 0 1 Cage.atReset true) 0).up = true ∧ (getPort (ported 0 1 Cage.atReset false) 0).up = false ∧
    up.clk.ethPll = true ∧ speedAllowed 0 1 3 = true ∧ speedAllowed 0 0 1 = false ∧ speedAllowed 2 1 4 = true := by
  unfold TablesSized
  decide +kernel

/-- Frames of 64 bytes with a good check sequence: an IPv4 frame to a unicast address, one from a group address, a MAC
control frame that is PAUSE and one that is not. -/
def ipFrame : List Byte := [2, 0, 0, 0, 0, 1, 2, 0, 0, 0, 0, 2, 8, 0] ++ List.replicate 46 0 ++ [237, 74, 179, 152]
def groupFrame : List Byte := [2, 0, 0, 0, 0, 1, 3, 0, 0, 0, 0, 2, 8, 0] ++ List.replicate 46 0 ++ [91, 227, 22, 153]
def pauseFrame : List Byte := [2, 0, 0, 0, 0, 1, 2, 0, 0, 0, 0, 2, 0x88, 8, 0, 1] ++ List.replicate 44 0 ++ [153, 51, 11, 31]
def controlFrame : List Byte := [2, 0, 0, 0, 0, 1, 2, 0, 0, 0, 0, 2, 0x88, 8] ++ List.replicate 46 0 ++ [213, 27, 157, 188]

theorem witness_frames_good : ∀ f ∈ [ipFrame, groupFrame, pauseFrame, controlFrame], f.length = 64 ∧ fcsGood f = true := by
  decide +kernel

theorem witness_full_table (e : BitVec 12 × Mac × PortNo) : 16384 ≤ (up.setSw { up.sw with
    macTable := List.replicate 16384 e }).sw.macTable.length := by
  exact Nat.le_of_eq List.length_replicate.symm

theorem witness_FramesAndAddresses : TablesSized (ported 0 1 Cage.atReset true) ∧
    (getPort (ported 0 1 Cage.atReset true) 0).up = true ∧ (getPort up 0).up = false ∧
    fiPoint (ported 0 1 Cage.atReset true) 0 = none ∧ fiPoint (ported 0 1 Cage.atReset true) 4 = none ∧
    ((viewFrame pauseFrame).etype = 0x8808 ∧ be16 (viewFrame pauseFrame).payload 0 = 1) ∧
    ((viewFrame controlFrame).etype = 0x8808 ∧ be16 (viewFrame controlFrame).payload 0 ≠ 1) ∧
    isGroup (viewFrame groupFrame).src = true ∧ (viewFrame ipFrame).etype ≠ 0x8808 ∧ (viewFrame ipFrame).tagged = false ∧
    pvid (ported 0 1 Cage.atReset true) 0 = some 1 ∧ vlanMember (ported 0 1 Cage.atReset true) 1 0 = true ∧
    vlanMember (ported 0 1 Cage.atReset true) 4094 0 = false ∧ isGroup (viewFrame ipFrame).src = false ∧
    (ported 0 1 Cage.atReset true).sw.macTable.length < 16384 ∧
    (let s := putPort 0 { getPort up 0 with up := true, sending := some ipFrame } up
     (getPort s 0).sending = some ipFrame ∧ TablesSized s) ∧
    (getPort up 0).sending = none := by
  unfold TablesSized
  decide +kernel

theorem witness_frame_lengths : 9216 < (List.replicate 9217 (0 : Byte)).length ∧ (List.replicate 63 (0 : Byte)).length < 64 ∧
    64 ≤ (List.replicate 9216 (0 : Byte)).length := by
  simp only [List.length_replicate]
  omega

theorem witness_bad_frame : fcsGood (List.replicate 60 (0 : Byte) ++ [1, 2, 3, 4]) = false := by decide +kernel

/-- `up` with a neighbour of port 0, resolved or not. -/
def neighboured (m : Option Mac) : State := up.setSw { up.sw with neighbours := [⟨0, 0x0A010002 <<< 96, m⟩] }

/-- That neighbour as the off-link next hop, with another ROUTER committed meanwhile. -/
def rerouted (m : Option Mac) : State :=
  putPort 0 { getPort up 0 with hop := 0x0A010002 <<< 96, router := 0x0A010003 <<< 96 } (neighboured m)

/-- `protectedCall` with both contexts, or with its BYE sent. -/
def sessionOf (k : Option SrtpCtx) (bye : Bool) : State :=
  (protectedCall k k).setLed { calling.led with chans := (protectedCall k k).led.chans.map (fun x => { x with byeSent := bye }) }

theorem witness_NeighboursAndSessions :
    findNeigh (neighboured none) 0 (0x0A010002 <<< 96) = some ⟨0, 0x0A010002 <<< 96, none⟩ ∧
    findNeigh (neighboured (some 2)) 0 (0x0A010002 <<< 96) = some ⟨0, 0x0A010002 <<< 96, some 2⟩ ∧
    (getPort (neighboured none) 0).hop ≠ 0x0A010002 <<< 96 ∧
    (findNeigh (rerouted none) 0 (0x0A010002 <<< 96) = some ⟨0, 0x0A010002 <<< 96, none⟩ ∧
      findNeigh (rerouted (some 2)) 0 (0x0A010002 <<< 96) = some ⟨0, 0x0A010002 <<< 96, some 2⟩ ∧
      (getPort (rerouted none) 0).hop = 0x0A010002 <<< 96 ∧ (getPort (rerouted none) 0).router ≠ 0x0A010002 <<< 96 ∧
      TablesSized (rerouted none)) ∧
    findNeigh up 0 (0x0A010002 <<< 96) = none ∧ TablesSized up ∧ (findChan calling 5).isSome = true ∧
    ((findChan (protectedCall none none) 5).map (fun x => (x.prof.srtp, x.rxCtx, x.keysLate)) = some (true, none, false)) ∧
    ((findChan (sessionOf none true) 5).map (fun x => x.byeSent) = some true) ∧
    ((findChan calling 5).map (fun x => (x.prof.srtp, x.byeSent)) = some (false, false)) := by
  unfold TablesSized
  decide +kernel

theorem witness_protected_session (k : SrtpCtx) : ∃ x, findChan (sessionOf (some k) false) 5 = some x ∧ x.byeSent = false ∧
    x.prof.srtp = true ∧ x.txCtx = some k ∧ x.rxCtx.isSome = true ∧ (sessionOf (some k) false).clk.cryptoLost = false :=
  ⟨_, rfl, rfl, rfl, rfl, rfl, rfl⟩

/-! ### Time -/

/-- `up` with the time unit as it is but for what `f` sets. -/
def timed (f : TimeUnit → TimeUnit) : State := up.setTim (f up.tim)

def probe (a b : Byte) (o : Option W32) : Probe := ⟨a, b, true, o, 0, false, false, false, 0, 0⟩

theorem witness_EdgesHoldoverAndProbes :
    (let s := timed (fun t => { t with lastPps := some 0 })
     s.tim.lastPps = some 0 ∧ uptime s - 0 < 250000000) ∧
    up.tim.lastPps = none ∧ up.mode ≠ .reset ∧ (up.setHost { up.host with lsrc := 1 }).host.lsrc = 1 ∧
    (let s := timed (fun t => { t with src := 3 })
     s.tim.src = 3 ∧ s.tim.holdover = false ∧ s.tim.everLocked = false) ∧
    (timed (fun t => { t with holdover := true })).tim.holdover = true ∧ State.reset.mode = .reset ∧
    LanesIdle up ∧ LanesIdle State.reset ∧ State.reset.sch.entries = [] ∧ LanesIdle (timed (fun t => { t with lastPps := some 0 })) ∧
    (∀ x ∈ [probe 1 2 none, probe 1 2 (some 5), probe 0xFF 3 none, probe 3 0xFF (some 1)],
      alFind (timed (fun t => { t with probes := [(255, x)] })).tim.probes 255 = some x ∧ x.enable = true) := by
  unfold LanesIdle
  decide +kernel

/-- Port 3 of PTP in a role. -/
def ptpRole (x : PtpPort) : State := putPtp 3 x up

theorem witness_PtpMessages :
    (let s := ptpRole { PtpPort.atReset with role := 1, syncWait := some (7, ⟨0, 5⟩), pathDelay := some 8 }
     TablesSized s ∧ (getPtp s 3).role = 1 ∧ (getPtp s 3).syncWait = some (7, ⟨0, 5⟩) ∧ (getPtp s 3).pathDelay.isSome = true) ∧
    (let s := ptpRole { PtpPort.atReset with role := 1, syncT := some (⟨0, 4⟩, ⟨0, 5⟩), reqT := some (7, ⟨0, 6⟩) }
     TablesSized s ∧ (getPtp s 3).syncT = some (⟨0, 4⟩, ⟨0, 5⟩) ∧ (getPtp s 3).reqT = some (7, ⟨0, 6⟩)) ∧
    (getPtp (ptpRole { PtpPort.atReset with role := 2 }) 3).role = 2 ∧ TablesSized (ptpRole { PtpPort.atReset with role := 2 }) ∧
    PtpSend.sync ≠ .delayReq ∧ (getPtp up 3).role = 0 ∧ TablesSized up ∧ LanesIdle up ∧
    LanesIdle (ptpRole { PtpPort.atReset with role := 1, pathDelay := some 8 }) ∧
    ((ptpRole { PtpPort.atReset with role := 1, pathDelay := some 8 }).setTim { up.tim with src := 1 }).tim.src = 1 := by
  unfold TablesSized LanesIdle
  decide +kernel

/-! ### DEFLATE and the serial ports -/

/-- `up` with the DEFLATE engine enabled and one job submitted. -/
def submitted : State := up.setDfl { up.dfl with enable := true, ringLo := 0xF0000000, prod := 1 }

/-- Its job: the block of fixed codes above, to be unpacked without a wrapper, its output elsewhere. -/
def unpacking : State :=
  submitted.withMem ([(0x00, 1), (0x08, 0xF0001000), (0x10, 3), (0x14, 16), (0x18, 0xF0002000), (0x1000, 0x0000044B)].foldl
    (fun m e => memWrite32 m (0xF0000000 + e.1) e.2 15) submitted.mem)

theorem witness_deflate_job : (runJob unpacking (readDesc unpacking (descAddr unpacking.dfl))).status = 1 ∧
    (runJob unpacking (readDesc unpacking (descAddr unpacking.dfl))).out = [0x61] ∧ dfBusy unpacking = true ∧
    Memory.wf unpacking.mem ∧ (runJob submitted (readDesc submitted (descAddr submitted.dfl))).status ≠ 1 := by
  decide +kernel

theorem witness_DeflateEngine : dfBusy up = false ∧ dfBusy submitted = true ∧ Memory.wf submitted.mem ∧
    inWindow (descAddr submitted.dfl) 64 = true ∧ up.dfl.prod = up.dfl.cons ∧ submitted.clk.deflateLost = false ∧
    submitted.dfl.prod ≠ submitted.dfl.cons ∧ 64 < ((65 : BitVec 7) - submitted.dfl.cons).toNat ∧
    ((64 : BitVec 7) - submitted.dfl.cons).toNat ≤ 64 := by
  decide +kernel

/-- Serial port 7 of `up` in the state `f` makes of it. -/
def serial (f : Uart → Uart) : State := putUart 7 (f (getUart up 7)) up

def on8n1 (u : Uart) : Uart := { u with enabled := true, div := 1, format := 3 }

theorem witness_SerialPorts : TablesSized (serial on8n1) ∧ (serial on8n1).clk.uartLost = false ∧
    (getUart up 7).enabled = false ∧ (getUart up 7).tx = [] ∧ (getUart up 7).rx = [] ∧
    (let u := getUart (serial on8n1) 7
     u.enabled = true ∧ u.sending = none ∧ u.brk = false ∧ u.fColl = false ∧ listening u = true ∧ uCard u = false ∧
       uBits u = 8 ∧ uParity u = 0 ∧ u.rx.length < 32 ∧ u.deTail = false ∧ uMode u ≠ 2) ∧
    j1Enabled (serial on8n1) = true ∧ j1Enabled State.reset = false ∧ listening (getUart up 7) = false ∧
    (let u := getUart (serial (fun u => { on8n1 u with tx := List.replicate 32 0, sending := some 1 })) 7
     32 ≤ u.tx.length) ∧
    (let u := getUart (serial (fun u => { on8n1 u with tx := List.replicate 31 0, sending := some 1, deTail := true })) 7
     u.tx.length < 32 ∧ u.sending.isSome = true ∧ u.deTail = true) ∧
    (let u := getUart (serial (fun u => { on8n1 u with sending := some 1, rx := [⟨5, false, false, false⟩] })) 7
     u.sending = some 1 ∧ uEsig u = false ∧ u.tx = [] ∧ u.de = false ∧ u.rx = [⟨5, false, false, false⟩]) ∧
    (let u := getUart (serial (fun u => { on8n1 u with format := 0x1860, word3 := 0x0100 })) 7
     u.rstLevel = false ∧ uCard u = true ∧ uConv u = 2 ∧ uEsig u = true ∧ u.noRepeat = false ∧ u.repeats < uRetry u) ∧
    (let u := getUart (serial (fun u => { on8n1 u with format := 0x1860, word3 := 0x0100, repeats := 1 })) 7
     uRetry u ≤ u.repeats) ∧
    (let u := getUart (serial (fun u => { on8n1 u with format := 0x0043, sending := some 1 })) 7
     u.enabled = true ∧ uMode u = 2 ∧ u.sending.isSome = true) ∧
    (up.setClk { up.clk with uartLost := true }).clk.uartLost = true := by
  unfold TablesSized
  decide +kernel

/-! ### Work in the background -/

/-- `up` with a cell march of `n` cells a round at work. -/
def marching (n : Nat) : State :=
  up.setCmds { up.cmds with works := [newWork ⟨0x0904, 9, [3, 0, 16, 0], false, .host⟩ 3 n] }

/-- A REORDER point of port 0's transmitter that holds a frame. -/
def reordering : State :=
  up.setFi { up.fi with points := [(4, { fiDefault with armed := true, mode := 2, param := 3, held := [.eth ipFrame] })] }

theorem witness_BackgroundRounds : findWork up 0x0904 (some 3) = none ∧
    findWork (marching 16) 0x0904 (some 3) = some (newWork ⟨0x0904, 9, [3, 0, 16, 0], false, .host⟩ 3 16) ∧
    (marching 16).qm.reserve.toNat + 16 < freeCells (marching 16) ∧
    (findWork (marching 96256) 0x0904 (some 3)).isSome = true ∧
    freeCells (marching 96256) ≤ (marching 96256).qm.reserve.toNat + 96256 ∧
    TablesSized reordering ∧ LanesIdle reordering ∧ fiPoint up 4 = none ∧
    (fiPoint reordering 4).map (fun x => x.held.length) = some 1 ∧ up.fi.segment = [] ∧
    (let s := up.setFi { up.fi with segment := [[0x0105, 0, 0, 0, 0]] }
     s.fi.stopped = false ∧ s.fi.segment ≠ []) := by
  unfold TablesSized LanesIdle
  decide +kernel

/-! ### Ismorlink -/

/-! The predicates of Safety.lean as Booleans, which the kernel evaluates. -/
def sizedB (s : State) : Bool :=
  decide (s.sw.ports.length = 4) && decide (s.tdm.length = 32) && decide (s.tim.ptp.length = 4) && decide (s.uarts.length = 8) &&
  decide (s.ism.ports.length = 4)

def openB (s : State) : Bool := !bypassClosed s && sizedB s

def idleB (s : State) : Bool :=
  decide (s.cmds.main = Lane.idle) && decide (s.cmds.image = Lane.idle) && decide (s.cmds.fwd = Lane.idle)

def takesB (reliable : Bool) (h : IsmHdr) (s : State) : Bool :=
  openB s && decide (fiPoint s (0x200 + h.port.setWidth 16) = none) && h.crcOk && decide ((ismPort s h.port).st = .trained) &&
  !(decide (h.port = 0) && isSummit s) && (!reliable || decide ((ismPort s h.port).lseqRx ≠ some h.lseq))

def sendB (p : PortNo) (s : State) : Bool :=
  decide ((ismPort s p).st = .trained) && decide (fiPoint s (0x204 + p.setWidth 16) = none)

theorem open_iff (s : State) : openB s = true ↔ IsmOpen s := by
  simp [openB, sizedB, IsmOpen, TablesSized, and_assoc]

theorem idle_iff (s : State) : idleB s = true ↔ LanesIdle s := by simp [idleB, LanesIdle, and_assoc]

theorem takes_iff (r : Bool) (h : IsmHdr) (s : State) : takesB r h s = true ↔ Takes r h s := by
  cases r <;> simp [takesB, open_iff, Takes, and_assoc, Classical.or_iff_not_imp_left]

theorem send_iff (p : PortNo) (s : State) : sendB p s = true ↔ CanSend p s := by simp [sendB, CanSend]

def trainedPort : IsmPort := { IsmPort.atReset with st := .trained, nb := some ⟨9, .spur, true, 0, 0, some 4⟩ }

/-- A spur with address 3 and every port trained; `f` sets the rest. -/
def spur (f : Ismorlink → Ismorlink) : State :=
  up.setIsm (f { up.ism with addr := some 3, ports := List.replicate 4 trainedPort })

/-- A summit with its three DN ports trained; `f` sets the rest. -/
def top (f : Ismorlink → Ismorlink) : State :=
  let s := summit [entry1]
  s.setIsm (f { s.ism with ports := [IsmPort.atReset, trainedPort, trainedPort, trainedPort] })

/-- A frame of spur 3 that waits for its acknowledgement. -/
def sentFrame (b : IsmBody) : IsmFrame := ⟨1, 3, false, 1, 4, 0, b⟩

theorem witness_ism_ports : IsmOpen up ∧ LanesIdle up ∧ IsmOpen (spur id) ∧ LanesIdle (spur id) ∧ IsmOpen (top id) ∧ LanesIdle (top id) ∧
    (∀ p ∈ [(0 : PortNo), 1, 2, 3], CanSend p (spur id)) ∧ (∀ p ∈ [(1 : PortNo), 2, 3], CanSend p (top id)) ∧
    (∀ p ∈ [(0 : PortNo), 3], Takes true (hdr p 1) (spur id) ∧ Takes false (hdr p 63) (spur id)) ∧
    (Takes true (hdr 3 1) (top id) ∧ Takes false (hdr 1 64) (top id)) ∧
    isSummit (spur id) = false ∧ isSummit (top id) = true ∧ (hdr 0 1).noaddr = false := by
  simp only [← open_iff, ← idle_iff, ← takes_iff, ← send_iff]
  decide +kernel

/-- Port `p` of `up` in a state. -/
def linked (p : PortNo) (x : IsmPort) : State := putIsmPort p x up

theorem witness_LinksAndHeartbeats :
    ((ismPort (top id) 0).st = .down ∧ isSummit (top id) = true ∧ fiPoint (top id) 0x200 = none) ∧
    (∀ p ∈ [(0 : PortNo), 3], let s := linked p { IsmPort.atReset with goodLinks := 2, ackedLinks := 2 }
      fiPoint s (0x200 + p.setWidth 16) = none ∧ openB s = true ∧ (ismPort s p).st = .down) ∧
    (ismPort (linked 3 { IsmPort.atReset with st := .training }) 3).goodLinks < 2 ∧
    (ismPort (linked 3 { IsmPort.atReset with st := .blocked }) 3).st = .blocked ∧ up.clk.ethPll = true ∧
    (let s := (spur id).setTim { up.tim with src := 2 }
     s.tim.src = 2 ∧ s.tim.holdover = false ∧ (ismPort s 0).st = .trained) := by
  decide +kernel

theorem witness_acknowledgements : (ismPort (spur id) 0).unacked.find? (fun e => e.1.lseq = 4) = none ∧
    (∀ e ∈ [(sentFrame (.ping 1), 3), (sentFrame (.ping 1), 4), (sentFrame (.event [0x0505, 0, 0, 0, 0]), 0)],
      let s := putIsmPort 0 { trainedPort with unacked := [e] } (spur id)
      (ismPort s 0).unacked.find? (fun e => e.1.lseq = 4) = some e ∧ sendB 0 s = true ∧ openB s = true) := by
  decide +kernel

theorem witness_heartbeats : (spur id).ism.monitors.find? (fun m => m.addr = 1) = none ∧
    (let s := spur (fun i => { i with monitors := [⟨1, 0, 7, true⟩] })
     s.ism.monitors.find? (fun m => m.addr = 1) = some ⟨1, 0, 7, true⟩ ∧ Takes false (hdr 0 1) s) ∧
    (let s := top (fun i => { i with monitors := [⟨1, 3, 7, true⟩] })
     s.ism.monitors.find? (fun m => m.addr = 1) = some ⟨1, 3, 7, true⟩ ∧ s.host.evtBack = [] ∧
       recWords s.host.evtChip + 9 ≤ 2048 ∧ isSummit s = true) := by
  simp only [← takes_iff]
  decide +kernel

theorem witness_summit_policies : ∀ k ∈ [(0 : BitVec 2), 1, 2], (up.setSaf { up.saf with summitPolicy := k }).saf.summitPolicy = k ∧
    Guarded (up.setSaf { up.saf with summitPolicy := k }) := by
  unfold Guarded
  decide +kernel

/-- A spur between SYNC and DELAY_RESP; the last delay known. -/
def syncing (settled : Bool) : State :=
  (spur id).setTim { up.tim with src := 2, ismT1 := some ⟨100, 100⟩, ismT2 := ⟨130, 130⟩, ismT3 := ⟨140, 140⟩,
                                 ismLastDelay := some 0, ismSettled := settled }

theorem witness_TimeTransfer : IsmOpen (syncing true) ∧ LanesIdle (syncing true) ∧ Takes false (hdr 0 1) (syncing true) ∧
    Takes false (hdr 3 1) (syncing true) ∧ CanSend 0 (syncing true) ∧ CanSend 3 (syncing true) ∧
    (syncing true).tim.ismT1 = some ⟨100, 100⟩ ∧ (spur id).tim.ismT1 = none ∧ (syncing true).tim.ismSettled = true ∧
    (syncing true).tim.src = 2 ∧ (syncing false).tim.ismSettled = false ∧
    (let d : Int := 8 * (pairDiff (syncing false).tim.ismT2 ⟨100, 100⟩ + pairDiff ⟨142, 142⟩ (syncing false).tim.ismT3)
     (syncing false).tim.ismLastDelay = some 0 ∧ (d - 0).natAbs ≤ 256) ∧
    (let d : Int := 8 * (pairDiff (syncing false).tim.ismT2 ⟨100, 100⟩ + pairDiff ⟨143, 143⟩ (syncing false).tim.ismT3)
     256 < (d - 0).natAbs) := by
  simp only [← open_iff, ← idle_iff, ← takes_iff, ← send_iff]
  decide +kernel

/-- A spur that has seen BEGIN of epoch 0; the DN ports of the search. -/
def searched (l : List PortNo) : State :=
  spur (fun i => { i with beginSeen := true, participant := true, addr := none, beginPorts := l })

theorem witness_SearchOnSpur : Takes true (hdr 0 63) (spur id) ∧ Takes true (hdr 0 64) (spur id) ∧ CanSend 0 (spur id) ∧
    (hdr 0 63).hops.toNat < 64 ∧ (hdr 0 64).hops = 64 ∧
    (∀ l ∈ [[], [(1 : PortNo), 3]], Takes true (hdr 0 1) (searched l) ∧ LanesIdle (searched l) ∧ CanSend 0 (searched l) ∧
      (searched l).ism.beginSeen = true ∧ (searched l).ism.epoch = (hdr 0 1).ctx ∧ searchPorts (searched l) = l) ∧
    (searched []).ism.participant = true ∧ (searched []).ism.addr = none ∧ (searched []).ism.claimed = false ∧
    (spur id).ism.beginSeen = false ∧ poeStandby (spur id) = false ∧ tooHot (spur id) = false ∧
    (spur id).mode ∈ [Mode.ready, .run, .degraded] ∧ (setMode .held (spur id)).mode = .held ∧
    (setMode .run (spur id)).mode = .run ∧ Takes true (hdr 3 63) (spur id) ∧ Takes true (hdr 3 1) (spur id) := by
  simp only [← idle_iff, ← takes_iff, ← send_iff]
  decide +kernel

theorem witness_SummitTopology : Takes true (hdr 3 1) (top id) ∧ isSummit (top id) = true ∧
    (let s := top (fun i => { i with walk := some walk0 })
     s.ism.walk = some walk0 ∧ walk0.pinging = false ∧ ((hdr 3 1).src, (2 : PortNo)) ∉ walk0.late ∧ Takes true (hdr 3 1) s) ∧
    topoByUid (top id) 0x55 = some entry1 ∧ (top id).ism.walk = none ∧ (top id).host.evtBack = [] ∧
    recWords (top id).host.evtChip + 11 ≤ 1984 ∧
    (∀ w ∈ [[(3 : PortNo)], [3, 1]], let s := spur (fun i => { i with merges := [⟨7, w, emptyAnswer 7 false⟩] })
      s.ism.merges.find? (fun m => m.qid = 7 && (3 : PortNo) ∈ m.waiting) = some ⟨7, w, emptyAnswer 7 false⟩ ∧
        s.ism.merges.find? (fun m => m.qid = 7) = some ⟨7, w, emptyAnswer 7 false⟩ ∧ Takes true (hdr 3 1) s ∧ CanSend 0 s) ∧
    (spur id).ism.merges.find? (fun m => m.qid = 7) = none ∧
    (let s := top (fun i => { i with autoSearch := true, searchDue := true })
     s.ism.autoSearch = true ∧ s.ism.searchDue = true ∧ s.ism.walk = none) ∧
    isSummit (spur id) = false ∧
    (let s := top (fun i => { i with lossPings := [(3, 2)] })
     topoByAddr s 3 = some entry1 ∧ entry1.silent = false ∧ s.ism.lossPings.any (fun x => x.1 = 3) = true ∧
       (missPing 3 s.ism.lossPings).any (fun x => x.1 = 3) = false)  ∧
    (top id).ism.lossPings.any (fun e => e.1 = 3) = false := by
  simp only [← takes_iff, ← send_iff]
  decide +kernel

/-- A command that runs in a lane. -/
def busyWith (op : Word) (args : List Word) : Issued := ⟨op, 9, args, false, .host⟩

def to3 (p : PortNo) (hops : BitVec 7) : IsmHdr := { hdr p hops with dest := 3 }

def gather0 (w : List PortNo) (own : Option Word) : Gather := ⟨0x0202, 0, w, own, ⟨0, 0, 0⟩, false⟩

theorem witness_RemoteCommands :
    (let s := (spur id).setCmds { up.cmds with main := ⟨some (busyWith 0x0C01 []), []⟩ }
     IsmOpen s ∧ Takes true (to3 0 1) s ∧ s.ism.addr = some (to3 0 1).dest ∧ laneOf 0x0105 = 0 ∧
       s.cmds.main = ⟨some (busyWith 0x0C01 []), []⟩ ∧ s.cmds.image = Lane.idle ∧ s.cmds.fwd = Lane.idle) := by
  simp only [← open_iff, ← takes_iff]
  decide +kernel

theorem witness_mgmt_here :
    (Takes true (to3 0 1) (spur id) ∧ (spur id).ism.addr = some (to3 0 1).dest ∧ LanesIdle (spur id) ∧ CanSend 0 (spur id)) := by
  simp only [← idle_iff, ← takes_iff, ← send_iff]
  decide +kernel

theorem witness_mgmt_routed :
    ((spur id).ism.addr ≠ some (hdr 0 1).dest ∧ routeOf (spur id) 0 = none ∧
      routeOf (spur (fun i => { i with routes := [(0, 3)] })) 0 = some 3 ∧ CanSend 3 (spur (fun i => { i with routes := [(0, 3)] }))) := by
  simp only [← send_iff]
  decide +kernel

theorem witness_bcast_waits :
    (let s := (spur id).setCmds { up.cmds with image := ⟨some (busyWith 0x0203 [0]), []⟩ }
     Takes true (hdr 0 64) s ∧ laneOf 0x0202 = 1 ∧ s.cmds.image = ⟨some (busyWith 0x0203 [0]), []⟩ ∧ s.cmds.main = Lane.idle) := by
  simp only [← takes_iff]
  decide +kernel

/-- The summit with a FORWARD to `a` that waits. -/
def forwarding (a : Word) : State := (top id).setCmds { up.cmds with fwd := ⟨some (busyWith 0x0703 [a, 0x0105]), []⟩ }

theorem witness_forward_answers : laneOf 0x0105 ≠ 1 ∧ Takes true (hdr 3 1) (forwarding 1) ∧ isSummit (forwarding 1) = true ∧
    (forwarding 1).cmds.main = Lane.idle ∧ (forwarding 1).cmds.image = Lane.idle ∧
    (forwarding 1).cmds.fwd = ⟨some (busyWith 0x0703 [1, 0x0105]), []⟩ ∧
    (forwarding 0).cmds.fwd = ⟨some (busyWith 0x0703 [0, 0x0105]), []⟩ := by
  simp only [← takes_iff]
  decide +kernel

theorem witness_event_at_summit :
    (Takes true (hdr 3 1) (top id) ∧ LanesIdle (top id) ∧ (top id).host.evtBack = [] ∧ recWords (top id).host.evtChip + 5 ≤ 1984) := by
  simp only [← idle_iff, ← takes_iff]
  decide +kernel

theorem witness_event_roll_up :
    ((spur id).ism.evtUp.length < 56 ∧ 64 ≤ (spur (fun i => { i with evtUp := List.replicate 64 [0x0505, 0, 0, 0, 0] })).ism.evtUp.length) := by
  decide +kernel

theorem witness_bcast_replies :
    (∀ g ∈ [gather0 [3] none, gather0 [3] (some 0), gather0 [3, 1] (some 0)], let s := spur (fun i => { i with gathers := [g] })
      Takes true (hdr 3 1) s ∧ LanesIdle s ∧ s.ism.gathers = [g] ∧ g.tag = (hdr 3 1).ctx ∧ (3 : PortNo) ∈ g.waiting ∧
        g.atSummit = false ∧ CanSend 0 s) := by
  simp only [← idle_iff, ← takes_iff, ← send_iff]
  decide +kernel

theorem witness_no_broadcast :
    (spur id).ism.gathers = [] := by
  decide +kernel


end Sys2Proof.Tests
end

section
/-! Writes at the host port (chapter 06). At a live port a write is `writeSlot` on the state whose key has been used;
`writeSlot` is said once for the registers with a bit that a condition clears, and for the slots it leaves alone. -/

namespace Sys2Proof.Machine

theorem exec_registerWrite (slot : BitVec 6) (w : WriteCycle) (s : State) :
    exec (.registerWrite slot w) s = execRegisterWrite slot w s := rfl

/-- R157: at a live port, any write but one to HKEY acts on the state whose key has been used. -/
theorem exec_registerWrite_of_up {s : State} {slot : BitVec 6} (v : Word) (up : hostUp s = true) (hkey : slot.toNat ≠ 0x05) :
    exec (.registerWrite slot ⟨v, false⟩) s = .next (writeSlot slot.toNat (keyed s) v (useKey s)) := by
  simp [exec_registerWrite, execRegisterWrite, hostWrite, up, hkey]

/-! ### Registers with a bit that a write of 1 clears -/

section
variable (key : Bool) (v : Word) (s : State)

theorem writeSlot_evtCount :
    writeSlot 0x11 key v s = s.setHost { s.host with evtLost := s.host.evtLost && !bitOf v 15 } := by
  cases clear : bitOf v 15 <;> simp [writeSlot, clear, State.setHost]

theorem writeSlot_apCtl :
    writeSlot 0x18 key v s = s.setHost { s.host with
      apBe := v.setWidth 4, apInc := bitOf v 4, apErr := s.host.apErr && !bitOf v 5,
      apErrCode := if bitOf v 5 then 0 else s.host.apErrCode } := by
  cases clear : bitOf v 5 <;> simp [writeSlot, apCtlWrite, clear, State.setHost]

theorem writeSlot_safeStat :
    writeSlot 0x1C key v s = s.setHost { s.host with benign := s.host.benign && !bitOf v 4 } := by
  cases clear : bitOf v 4 <;> simp [writeSlot, clear, State.setHost]

end

/-! ### Slots that no write changes -/

/-- The slots at which a write other than HKEY has an effect beside that on the key. -/
def writableSlots : List Nat :=
  [0x04, 0x06, 0x07, 0x08, 0x09, 0x0A, 0x0B, 0x0C, 0x0F, 0x11, 0x13, 0x14, 0x15, 0x16, 0x17, 0x18, 0x1B, 0x1C, 0x1E, 0x1F,
   0x22, 0x24, 0x26, 0x27, 0x2D, 0x2E, 0x2F]

/-- The slots below 0x30 whose bits are all RO or RSV, and those without a register there (Tables 06-2 to 06-11). -/
def readOnlySlots : List Nat :=
  [0x00, 0x01, 0x02, 0x03, 0x0D, 0x0E, 0x10, 0x12, 0x19, 0x1A, 0x1D, 0x20, 0x21, 0x23, 0x25, 0x28, 0x29, 0x2A, 0x2B, 0x2C]

theorem writeSlot_of_not_writable {slot : Nat} (h : slot ∉ writableSlots) (key : Bool) (v : Word) (s : State) :
    writeSlot slot key v s = s := by
  unfold writeSlot
  split
  case h_28 => rfl  -- the default arm; each arm before it names a writable slot
  all_goals exact absurd (by decide) h

theorem lt_of_mem_writableSlots : ∀ n ∈ writableSlots, n < 0x30 := by decide

theorem not_writable_of_mem_readOnlySlots : ∀ n ∈ readOnlySlots, n ≠ 0x05 ∧ n ∉ writableSlots := by decide

/-- A write at a slot that holds nothing writable only uses the key (R8, R157). -/
theorem exec_registerWrite_of_not_writable {s : State} {slot : BitVec 6} (v : Word) (up : hostUp s = true)
    (h : slot.toNat ∈ readOnlySlots ∨ 0x30 ≤ slot.toNat) :
    exec (.registerWrite slot ⟨v, false⟩) s = .next (useKey s) := by
  obtain ⟨hkey, hw⟩ : slot.toNat ≠ 0x05 ∧ slot.toNat ∉ writableSlots := by
    rcases h with readOnly | beyond
    · exact not_writable_of_mem_readOnlySlots _ readOnly
    · exact ⟨by omega, fun mem => absurd (lt_of_mem_writableSlots _ mem) (by omega)⟩
  rw [exec_registerWrite_of_up v up hkey, writeSlot_of_not_writable hw]

/-! ### The statement -/

/-- Settles O9: the key is used first, and the register's fields then change as the arm of `writeSlot` for its slot
says; only EVT_COUNT, AP_CTL and SAFE_STAT need a split on the bit that clears. -/
theorem registerWrites : Obligations.RegisterWrites := by
  refine ⟨fun s v up => ?rwFields, fun s v up => ?w1cBits, fun s slot v up => exec_registerWrite_of_not_writable v up⟩
  all_goals have write := fun slot : BitVec 6 => exec_registerWrite_of_up (slot := slot) v up
  case rwFields =>
    exact ⟨write 0x04 (by decide), write 0x07 (by decide), write 0x08 (by decide), write 0x09 (by decide),
      write 0x0A (by decide), write 0x13 (by decide), write 0x14 (by decide), write 0x15 (by decide),
      write 0x16 (by decide), write 0x2D (by decide), write 0x2E (by decide), write 0x2F (by decide)⟩
  case w1cBits =>
    exact ⟨write 0x06 (by decide),
      (write 0x11 (by decide)).trans (congrArg _ (writeSlot_evtCount _ v _)),
      (write 0x18 (by decide)).trans (congrArg _ (writeSlot_apCtl _ v _)),
      write 0x1B (by decide),
      (write 0x1C (by decide)).trans (congrArg _ (writeSlot_safeStat _ v _)),
      write 0x22 (by decide)⟩

end Sys2Proof.Machine
end

section
/-! Frames of single parts, read off the Keeps laws, and the channels that a deletion leaves (R247, R361). -/

namespace Sys2Proof.Machine

/-! ### Parts outside the list of a Keeps law -/

section
variable {L : List Part} {s t : State} (k : Keeps L s t)
include k

theorem Keeps.same_hw (out : Part.hw ∉ L := by decide) : t.hw = s.hw := k.frame .hw out
theorem Keeps.same_boot (out : Part.boot ∉ L := by decide) : t.boot = s.boot := k.frame .boot out
theorem Keeps.same_pwr (out : Part.pwr ∉ L := by decide) : t.pwr = s.pwr := k.frame .pwr out
theorem Keeps.same_therm (out : Part.therm ∉ L := by decide) : t.therm = s.therm := k.frame .therm out
theorem Keeps.same_led (out : Part.led ∉ L := by decide) : t.led = s.led := k.frame .led out
theorem Keeps.same_sch (out : Part.sch ∉ L := by decide) : t.sch = s.sch := k.frame .sch out
theorem Keeps.same_qm (out : Part.qm ∉ L := by decide) : t.qm = s.qm := k.frame .qm out
theorem Keeps.same_saf (out : Part.saf ∉ L := by decide) : t.saf = s.saf := k.frame .saf out

end

/-! ### Channel numbers through a deletion -/

theorem allChans_eq_of_led {s t : State} (h : t.led = s.led) : allChans t = allChans s := by
  simp [allChans, h]

theorem allChans_modChan (c : ChanNo) {f : Chan → Chan} (s : State) (hf : ∀ x, (f x).no = x.no) :
    allChans (modChan c f s) = allChans s := by
  have no_kept : ∀ x : Chan, (if x.no = c then f x else x).no = x.no := fun x => by split <;> simp [hf]
  simp [allChans, modChan, Function.comp_def, no_kept]

theorem allChans_sessionSend (x : Chan) (rtcp : Bool) (l : List Byte) (s : State) :
    allChans (sessionSend x rtcp l s).2 = allChans s :=
  allChans_eq_of_led (sessionSend_keeps (L := parts06) (.refl _ s) (by decide)).same_led

theorem allChans_sendRtcp (x : Chan) (l : List Byte) (s : State) : allChans (sendRtcp x l s) = allChans s := by
  unfold sendRtcp
  split
  · rfl
  · split
    · split
      · rfl
      · split
        · rfl
        · rw [allChans_sessionSend]
          exact allChans_modChan _ _ fun _ => rfl
    · exact allChans_sessionSend ..

theorem allChans_sendBye (c : ChanNo) (reason : List Byte) (s : State) : allChans (sendBye c reason s) = allChans s := by
  unfold sendBye
  split
  · rfl
  · split
    · rfl
    · refine (allChans_modChan _ _ ?_).trans (allChans_sendRtcp ..)
      exact fun _ => rfl

theorem allChans_removeChan (c : ChanNo) (s : State) :
    allChans (removeChan c s) = (allChans s).filter (fun n => n ≠ c) := by
  unfold removeChan
  extract_lets bye flushed cancelled _ unlisted group _ out _ freed
  have before : cancelled.led = bye.led :=
    (cancelWhere_keeps (L := [.host, .sch, .qm, .ism, .fi, .free])
      (disableQueue_keeps (disableQueue_keeps (.refl _ bye) (by decide)) (by decide)) (by decide)).same_led
  have taken : allChans out = (allChans s).filter (fun n => n ≠ c) := by
    rw [← allChans_sendBye c deletedText s, ← allChans_eq_of_led before]
    simp [allChans, out, unlisted, List.filter_map, Function.comp_def]
  have safe : freed.led = out.led := by
    unfold freed
    split <;> rfl
  have after : (settleCal (pointsChanged freed)).led = freed.led :=
    (settleCal_keeps (L := [.sch, .cal]) (pointsChanged_keeps (.refl _ freed) (by decide)) (by decide)).same_led
  rw [allChans_eq_of_led (after.trans safe), taken]

theorem allChans_dropChan (reason : Nat) (c : ChanNo) (s : State) :
    allChans (dropChan reason c s) = (allChans s).filter (fun n => n ≠ c) :=
  (allChans_eq_of_led (raiseChState_keeps (L := [.host, .ism, .fi]) (.refl _ _) (by decide)).same_led).trans
    (allChans_removeChan c s)

theorem mem_allChans_dropChans {reason : Nat} {l : List ChanNo} {s : State} {n : ChanNo} :
    n ∈ allChans (dropChans reason l s) ↔ n ∈ allChans s ∧ n ∉ l := by
  induction l generalizing s with
  | nil => simp [dropChans]
  | cons c r ih =>
    have step : n ∈ allChans (dropChans reason (c :: r) s) ↔ _ := ih (s := dropChan reason c s)
    rw [step, allChans_dropChan]
    simp [and_assoc]

theorem dropChans_allChans (reason : Nat) (s : State) : (dropChans reason (allChans s) s).led.chans = [] := by
  have none_left : allChans (dropChans reason (allChans s) s) = [] :=
    List.eq_nil_iff_forall_not_mem.2 fun n => by simp [mem_allChans_dropChans]
  exact List.map_eq_nil_iff.1 none_left

/-! ### STANDBY -/

theorem enterStandby_mode (s : State) : (enterStandby s).mode = .standby := rfl

/-- Entry to STANDBY deletes every channel (Table 05-7). -/
theorem enterStandby_chans (s : State) : (enterStandby s).led.chans = [] := by
  have drained (u : State) : (extPorts.foldl (fun s p => drainPort p s) u).led = u.led :=
    (Keeps.foldl (L := parts06) (fun _ _ k => drainPort_keeps k (by decide)) (.refl _ u)).same_led
  have down (u : State) : (extPorts.foldl (fun s p => cageUnpowered p (portDown p 1 s)) u).led = u.led :=
    (Keeps.foldl (L := [.host, .sw, .ism, .cal, .fi])
      (fun _ _ k => cageUnpowered_keeps (portDown_keeps k (by decide)) (by decide)) (.refl _ u)).same_led
  simp only [enterStandby, setMode, State.setBoot_led, State.setDfl_led, State.setUarts_led, State.setTdm_led,
    State.setQm_led, down, State.setTen_led, State.setVcs_led, State.setSch_led, drained, dropChans_allChans]

theorem standbyDue_of_not_due {s : State} (h : poeStandby s = false) (cool : tooHot s = false) : standbyDue s = s := by
  simp [standbyDue, h, cool]

theorem standbyDue_of_tooHot {s : State} (service : inService s = true) (hot : tooHot s = true) :
    standbyDue s = enterStandby s := by
  simp [standbyDue, service, hot]

end Sys2Proof.Machine
end

section
/-! Power and temperature (chapter 02): each input's flags and what an operation leaves of the power entry, the power
guard's windows, and the thermal ceiling after a sample. -/

namespace Sys2Proof.Machine

/-! ### The power inputs -/

theorem srcOf_modSrc (p r : PowerIn) (f : PSource → PSource) (s : State) :
    srcOf (modSrc p f s) r = if r = p then f (srcOf s p) else srcOf s r := by
  cases p <;> cases r <;> rfl

theorem modSrc_srcCeil (p : PowerIn) (f : PSource → PSource) (s : State) :
    (modSrc p f s).pwr.srcCeil = s.pwr.srcCeil := by
  cases p <;> rfl

theorem anySource_eq_false {s : State} (h : ∀ r, (srcOf s r).valid = false) : anySource s = false := by
  have ac : s.pwr.ac.valid = false := h .ac
  have dc : s.pwr.dc.valid = false := h .dc
  have poe : s.pwr.poe.valid = false := h .poe
  simp [anySource, ac, dc, poe]

theorem srcCeilNow_of_no_source {s : State} (h : anySource s = false) : srcCeilNow s = s.pwr.srcCeil := by
  obtain ⟨⟨ac, dc⟩, poe⟩ : (s.pwr.ac.valid = false ∧ s.pwr.dc.valid = false) ∧ s.pwr.poe.valid = false := by
    simpa [anySource] using h
  simp [srcCeilNow, ac, dc, poe]

theorem anyInput_congr {s t : State} (ac : t.pwr.ac = s.pwr.ac) (dc : t.pwr.dc = s.pwr.dc) (poe : t.pwr.poe = s.pwr.poe) :
    anyInput t = anyInput s := by
  simp [anyInput, ac, dc, poe]

/-! ### Sources lost (R44, R50, R54) -/

/-- The first act of `sourceLost`: every source of the list out of range. -/
def loseSources (l : List PowerIn) (s : State) : State :=
  l.foldl (fun s p => modSrc p (fun x => { x with inRange := false, valid := false }) s) s

theorem srcOf_loseSources (l : List PowerIn) (s : State) (r : PowerIn) :
    srcOf (loseSources l s) r = if r ∈ l then ⟨false, false⟩ else srcOf s r := by
  induction l generalizing s with
  | nil => simp [loseSources]
  | cons p l ih =>
    have rest : srcOf (loseSources (p :: l) s) r = _ := ih (modSrc p _ s)
    rw [rest, srcOf_modSrc]
    by_cases last : r ∈ l <;> by_cases first : r = p <;> simp [last, first]

theorem loseSources_srcCeil (l : List PowerIn) (s : State) : (loseSources l s).pwr.srcCeil = s.pwr.srcCeil := by
  induction l generalizing s with
  | nil => rfl
  | cons p l ih => exact (ih (modSrc p _ s)).trans (modSrc_srcCeil p _ s)

/-- The power entry where none of the lost sources was valid. -/
theorem sourceLost_of_none_valid {l : List PowerIn} {s : State} (h : l.any (fun p => (srcOf s p).valid) = false) :
    sourceLost l s = loseSources l s := by
  simp [sourceLost, h, loseSources]

/-- The power entry where one was: the ceiling follows, and with the last source the active one is kept. -/
theorem sourceLost_pwr {l : List PowerIn} {s : State} (h : l.any (fun p => (srcOf s p).valid) = true) :
    let out := loseSources l s
    let kept := if anySource out then out else out.setPwr { out.pwr with activeAtLoss := activeSrc s }
    (sourceLost l s).pwr = { kept.pwr with srcCeil := srcCeilNow kept } := by
  intro out kept
  have eq : sourceLost l s =
      standbyDue (raisePwr (checkCeilings .power (kept.setPwr { kept.pwr with srcCeil := srcCeilNow kept }))) := by
    simp only [sourceLost, h, Bool.not_true, Bool.false_eq_true, if_false]
    rfl
  rw [eq]
  exact (standbyDue_keeps (L := parts42)
    (raisePwr_keeps (checkCeilings_keeps (.refl _ _) (by decide)) (by decide)) (by decide)).same_pwr

theorem srcOf_sourceLost (l : List PowerIn) (s : State) (r : PowerIn) :
    srcOf (sourceLost l s) r = if r ∈ l then ⟨false, false⟩ else srcOf s r := by
  rw [← srcOf_loseSources]
  cases valid : l.any (fun p => (srcOf s p).valid) with
  | false => rw [sourceLost_of_none_valid valid]
  | true =>
    cases r <;> simp only [srcOf, sourceLost_pwr valid] <;> split <;> rfl

/-- R54: with the last valid source gone the power-source ceiling stays, and the source last active is kept. -/
theorem sourceLost_last {l : List PowerIn} {s : State} (lost : ∃ r ∈ l, (srcOf s r).valid = true)
    (others : ∀ r, r ∉ l → (srcOf s r).valid = false) :
    (sourceLost l s).pwr.srcCeil = s.pwr.srcCeil ∧ (sourceLost l s).pwr.activeAtLoss = activeSrc s := by
  have none_left : anySource (loseSources l s) = false := anySource_eq_false fun r => by
    rw [srcOf_loseSources]
    split
    · rfl
    · exact others r ‹_›
  have ceil : srcCeilNow (loseSources l s) = s.pwr.srcCeil :=
    (srcCeilNow_of_no_source none_left).trans (loseSources_srcCeil l s)
  rw [sourceLost_pwr (List.any_eq_true.2 lost)]
  simp only [none_left, Bool.false_eq_true, if_false]
  exact ⟨ceil, rfl⟩

/-! ### Inputs back in range and sources declared valid (R44, R49, R52, R542) -/

theorem releasePwrfail_pwr (s : State) : (releasePwrfail s).pwr = { s.pwr with pwrfail := false } := by
  unfold releasePwrfail
  split
  next released =>
    have low : s.pwr.pwrfail = false := by simpa using released
    simp [← low]
  next =>
    extract_lets _ programmed written restored
    suffices k : Keeps [.boot, .host, .cmds, .ism, .cal, .fi] (s.setPwr { s.pwr with pwrfail := false }) written from
      (raisePwr_keeps (chooseWhenFree_keeps (.ite (restoreFactory_keeps k (by decide)) k) (by decide)) (by decide)).same_pwr
    unfold written
    split
    · exact readyWrites_keeps (programSelection_keeps (.refl _ _) (by decide)) (by decide)
    · exact programSelection_keeps (.refl _ _) (by decide)

theorem cancelShedding_pwr {s : State} (h : s.pwr.guardShed = false) : (cancelShedding s).pwr = s.pwr := by
  unfold cancelShedding
  split
  · simp [endShedding, ← h]
  · rfl

/-- R542: an input back in range supplies the bus, and PWRFAIL# releases. -/
theorem inputReturn_pwr (p : PowerIn) (s : State) :
    (inputReturn p s).pwr =
      { (modSrc p (fun x => { x with inRange := true }) s).pwr with powered := true, collapse := false, pwrfail := false } :=
  releasePwrfail_pwr _

theorem srcOf_inputReturn (p : PowerIn) (s : State) : (srcOf (inputReturn p s) p).inRange = true := by
  have same : srcOf (inputReturn p s) p = srcOf (modSrc p (fun x => { x with inRange := true }) s) p := by
    cases p <;> simp only [srcOf, inputReturn_pwr]
  rw [same, srcOf_modSrc, if_pos rfl]

/-- The first acts of `sourceValid`: the source valid, the guard's steps and windows cleared. -/
def withSource (p : PowerIn) (cls : BitVec 4) (s : State) : State :=
  let t := modSrc p (fun _ => { inRange := true, valid := true }) s
  t.setPwr { t.pwr with
    powered := true, collapse := false, poeClass := if p = .poe then cls else t.pwr.poeClass, guardSteps := 0,
    guardWindows := 0, guardShed := false, activeAtLoss := none }

theorem srcOf_withSource (p : PowerIn) (cls : BitVec 4) (s : State) : srcOf (withSource p cls s) p = ⟨true, true⟩ := by
  cases p <;> rfl

/-- The power entry after a source that was not valid: the source with it, PWRFAIL# released, the ceiling of R50. -/
theorem sourceValid_pwr {p : PowerIn} {s : State} (cls : BitVec 4) (h : (srcOf s p).valid = false) :
    (sourceValid p cls s).pwr =
      { (withSource p cls s).pwr with srcCeil := srcCeilNow (withSource p cls s), pwrfail := false } := by
  let start := (withSource p cls s).setPwr { (withSource p cls s).pwr with srcCeil := srcCeilNow (withSource p cls s) }
  let checked := checkCeilings .power (releasePwrfail start)
  let reported := raisePwr (cancelShedding checked)
  have eq : sourceValid p cls s =
      if reported.mode = .standby && p ≠ .poe then exitStandby reported else standbyDue reported := by
    rw [sourceValid, h]
    rfl
  have released : checked.pwr = { start.pwr with pwrfail := false } :=
    (checkCeilings_keeps (L := [.led]) (.refl _ _) (by decide)).same_pwr.trans (releasePwrfail_pwr start)
  have cancelled : reported.pwr = checked.pwr :=
    (raisePwr_keeps (L := [.host, .ism, .fi]) (.refl _ _) (by decide)).same_pwr.trans
      (cancelShedding_pwr (by rw [released]; rfl))
  have after : (sourceValid p cls s).pwr = reported.pwr := by
    rw [eq]
    exact (Keeps.ite (L := parts42) (exitStandby_keeps (.refl _ _) (by decide))
      (standbyDue_keeps (.refl _ _) (by decide))).same_pwr
  rw [after, cancelled, released]
  rfl

/-- The ceiling of R50 is a function of the inputs, and stays when it is taken again. -/
theorem srcCeilNow_again {s t : State} {low : Bool} (hw : t.hw = s.hw)
    (pwr : t.pwr = { s.pwr with srcCeil := srcCeilNow s, pwrfail := low }) : srcCeilNow t = t.pwr.srcCeil := by
  have limit : channelLimit t = channelLimit s := by simp [channelLimit, hw]
  have class' : poeCeil t = poeCeil s := by simp [poeCeil, limit, pwr]
  simp only [srcCeilNow, limit, class', pwr]
  split
  · rfl
  · split <;> rfl

theorem sourceValid_srcCeil {p : PowerIn} {s : State} (cls : BitVec 4) (h : (srcOf s p).valid = false) :
    srcCeilNow (sourceValid p cls s) = (sourceValid p cls s).pwr.srcCeil := by
  have hw : (sourceValid p cls s).hw = s.hw := (sourceValid_keeps (L := parts47) (.refl _ s) (by decide)).same_hw
  have start : (withSource p cls s).hw = s.hw := by cases p <;> rfl
  exact srcCeilNow_again (hw.trans start.symm) (sourceValid_pwr cls h)

/-! ### Brown-out (R56) -/

theorem cutErase_pwr (s : State) : (cutErase s).pwr = s.pwr :=
  (cutErase_keeps (L := [.boot, .free]) (.refl _ s) (by decide)).same_pwr

theorem cutErase_mode (s : State) : (cutErase s).mode = s.mode := by
  unfold cutErase
  split
  · split
    · unfold putBank
      split <;> rfl
    · rfl
  · rfl

theorem enterReset_of_reset {s : State} (h : s.mode = .reset) (k : BitVec 4) : enterReset k s = s := by
  simp [enterReset, h]

theorem enterReset_of_ne {s : State} (h : s.mode ≠ .reset) (k : BitVec 4) : enterReset k s = resetBlocks k s := by
  simp [enterReset, h]

theorem brownOut_of_input {s : State} (h : anyInput s = true) : brownOut s = s := by
  simp [brownOut, h]

theorem brownOut_of_reset {s : State} (h : anyInput s = false) (m : s.mode = .reset) : brownOut s = powerGone s := by
  simp [brownOut, h, m]

/-- The module in RESET with the collapse of its supply ahead. -/
theorem brownOut_of_ne {s : State} (h : anyInput s = false) (m : s.mode ≠ .reset) :
    let r := resetBlocks 1 (cutErase s)
    brownOut s = r.setPwr { r.pwr with pwrfail := false, collapse := true } := by
  have m' : (cutErase s).mode ≠ .reset := by rwa [cutErase_mode]
  simp [brownOut, h, m, enterReset_of_ne m']

theorem brownOut_pwr {s : State} (h : anyInput s = false) (m : s.mode ≠ .reset) :
    (brownOut s).pwr = { s.pwr with
      srcPref := 0, guardSteps := 0, guardWindows := 0, guardShed := false, held := none, pwrfail := false,
      collapse := true } := by
  rw [brownOut_of_ne h m, ← cutErase_pwr s]
  rfl

/-! ### The power guard (R52, R543) -/

theorem applyCal_of_none_waiting {s : State} (h : s.cal.waiting = []) (item : Word) : applyCal item s = s := by
  simp [applyCal, h, alFind]

theorem powerWindow_of_none_waiting {s : State} (h : s.cal.waiting = []) : powerWindow s = s := by
  simp [powerWindow, applyCal_of_none_waiting h]

theorem sampleWindow_of_none_waiting {s : State} (h : s.cal.waiting = []) : sampleWindow s = s := by
  simp [sampleWindow, applyCal_of_none_waiting h]

section
variable {s : State} (waiting : s.cal.waiting = []) (alone : poeOnly s = true) (held : s.pwr.held = none)
  (done : s.pwr.guardShed = false) (m : s.mode ≠ .reset)
include waiting alone held done m

/-- A window counts only above the class power, and the third in a row is a guard step. -/
theorem powerGuard_eq (mw : List Nat) :
    powerGuard mw s =
      if overClass mw s = false then s.setPwr { s.pwr with guardWindows := 0 }
      else if s.pwr.guardWindows < 2 then s.setPwr { s.pwr with guardWindows := s.pwr.guardWindows + 1 }
      else guardStep s := by
  simp [powerGuard, powerWindow_of_none_waiting waiting, alone, held, done, m]

end

theorem guardStep_pwr (s : State) :
    ∃ b, (guardStep s).pwr = { s.pwr with guardWindows := 0, guardSteps := s.pwr.guardSteps + 1, guardShed := b } := by
  let stepped := s.setPwr { s.pwr with guardWindows := 0, guardSteps := s.pwr.guardSteps + 1 }
  have checked : (checkCeilings .power stepped).pwr = stepped.pwr :=
    (checkCeilings_keeps (L := [.led]) (.refl _ _) (by decide)).same_pwr
  refine ⟨(checkCeilings .power stepped).led.shedding.isSome, ?_⟩
  refine (raisePwr_keeps (L := [.host, .ism, .fi]) (.refl _ _) (by decide)).same_pwr.trans ?_
  simp only [State.setPwr_pwr]
  rw [checked]
  rfl

/-! ### Temperature (R59-R62, R544) -/

theorem thermalReport_therm (v : Int) (s : State) : (thermalReport v s).therm = { s.therm with ceil := thermalMove s v } := by
  unfold thermalReport
  extract_lets _ ceil _ moved
  split
  · rfl
  · exact (raise_keeps (L := [.host, .led, .ism, .fi])
      (powerReport_keeps (checkCeilings_keeps (.refl _ moved) (by decide)) (by decide)) (by decide)).same_therm

theorem followTemp_therm (v : Int) (s : State) :
    (followTemp v s).therm = { s.therm with ceil := if s.boot.wasReady then thermalMove s v else thermalAt s v } := by
  unfold followTemp
  split
  · exact thermalReport_therm v s
  · rfl

theorem followTemp_mode (v : Int) (s : State) : (followTemp v s).mode = s.mode :=
  congrArg Boot.mode (followTemp_keeps (L := [.therm, .host, .led, .ism, .fi]) (.refl _ s) (by decide)).same_boot

theorem inService_congr {s t : State} (h : t.mode = s.mode) : inService t = inService s := by
  simp [inService, h]

/-- The thermal block with a sample in it, before the ceiling follows. -/
def withSample (raw : Word) (s : State) : State :=
  let l := samplesWith (raw.toInt + calEffective s 0x0100) s
  s.setTherm { s.therm with raw := raw, samples := l, temp := BitVec.ofInt 16 (meanSample l), sampled := true }

/-- A sample out of RESET and STANDBY: the ceiling follows the average, and STANDBY where it is due. -/
theorem tempSample_eq {s : State} (raw : Word) (waiting : s.cal.waiting = []) (up : s.mode ≠ .reset)
    (on : s.mode ≠ .standby) :
    tempSample raw s =
      standbyDue (followTemp (meanSample (samplesWith (raw.toInt + calEffective s 0x0100) s)) (withSample raw s)) := by
  have on' (v : Int) : (followTemp v (withSample raw s)).mode ≠ .standby := by
    rwa [followTemp_mode]
  rw [tempSample, sampleWindow_of_none_waiting waiting]
  simp only [up, if_false]
  exact if_neg (on' _)

theorem tempSample_therm {s : State} (raw : Word) (waiting : s.cal.waiting = []) (up : s.mode ≠ .reset)
    (on : s.mode ≠ .standby) :
    let l := samplesWith (raw.toInt + calEffective s 0x0100) s
    let v := meanSample l
    (tempSample raw s).therm =
      { temp := BitVec.ofInt 16 v, raw := raw, samples := l, sampled := true,
        ceil := if s.boot.wasReady then thermalMove s v else thermalAt s v } := by
  intro l v
  rw [tempSample_eq raw waiting up on, (standbyDue_keeps (L := parts42) (.refl _ _) (by decide)).same_therm, followTemp_therm]
  rfl

/-- R61: an average above 95 °C in a state in service leads to STANDBY. -/
theorem tempSample_hot {s : State} (raw : Word) (waiting : s.cal.waiting = []) (service : inService s = true)
    (hot : 12160 < (BitVec.ofInt 16 (meanSample (samplesWith (raw.toInt + calEffective s 0x0100) s)) : Word).toInt) :
    ∃ u, tempSample raw s = enterStandby u := by
  have up : s.mode ≠ .reset := fun m => by simp [inService, m] at service
  have on : s.mode ≠ .standby := fun m => by simp [inService, m] at service
  refine ⟨_, (tempSample_eq raw waiting up on).trans (standbyDue_of_tooHot ?_ ?_)⟩
  · rwa [inService_congr (followTemp_mode _ _)]
  · simpa [tooHot, followTemp_therm, withSample] using hot

/-! ### The statement -/

/-- Settles O41: every operation's change of the power entry and of the thermal block is said once above; what follows
it (events, shedding, STANDBY) leaves both alone. That a second BROWN_OUT takes the supply, that the source last active is
kept, and how samples are averaged and rounded are the model's choices (log entries 46 and 47). -/
theorem powerAndTemperature : Obligations.PowerAndTemperature := by
  intro s p
  refine ⟨fun l => ?lost, ?inRange, fun cls valid => ?kept, fun cls valid => ?valid, fun powered high gone => ?pwrfail,
    fun present => ?supplied, fun gone m => ?brownOut, fun mw waiting alone held done m => ?guard,
    fun raw waiting m => ?sample⟩
  case lost =>
    refine ⟨sourceLost l s, rfl, fun r mem => ?_, fun r out => ?_, sourceLost_last⟩
    · rw [srcOf_sourceLost, if_pos mem]
    · rw [srcOf_sourceLost, if_neg out]
  case inRange =>
    exact ⟨inputReturn p s, rfl, srcOf_inputReturn p s, by rw [inputReturn_pwr], by rw [inputReturn_pwr]⟩
  case kept =>
    exact congrArg Host.Outcome.next (if_pos valid)
  case valid =>
    have pwr := sourceValid_pwr cls valid
    have src : srcOf (sourceValid p cls s) p = srcOf (withSource p cls s) p := by
      cases p <;> simp only [srcOf, pwr]
    refine ⟨sourceValid p cls s, rfl, src.trans (srcOf_withSource p cls s), ?_, ?_, ?_,
      (sourceValid_srcCeil cls valid).symm, ?_⟩
    all_goals rw [pwr]
    · rfl
    · rfl
    · rintro rfl
      rfl
  case pwrfail =>
    have assert : pwrfailAssert s = raisePwr (s.setPwr { s.pwr with pwrfail := true }) := by
      simp [pwrfailAssert, powered, high, gone]
    exact congrArg Host.Outcome.next assert
  case supplied =>
    have quiet : pwrfailAssert s = s := by simp [pwrfailAssert, present]
    exact ⟨congrArg Host.Outcome.next quiet, congrArg Host.Outcome.next (brownOut_of_input present)⟩
  case brownOut =>
    have pwr := brownOut_pwr gone m
    have gone' : anyInput (brownOut s) = false := by
      rwa [anyInput_congr (s := s)] <;> rw [pwr]
    have boot : (brownOut s).boot = (resetBlocks 1 (cutErase s)).boot := by rw [brownOut_of_ne gone m]; rfl
    have reset : (brownOut s).mode = .reset := congrArg Boot.mode boot
    exact ⟨brownOut s, powerGone (brownOut s), rfl, reset, congrArg Boot.cause boot, by rw [pwr], by rw [pwr],
      congrArg Host.Outcome.next (brownOut_of_reset gone' reset), rfl, reset, rfl, rfl⟩
  case guard =>
    have eq := powerGuard_eq waiting alone held done m mw
    refine ⟨fun below => ?_, fun above few => ?_, fun above many => ?_⟩
    · have under : overClass mw s = false := decide_eq_false below
      rw [if_pos under] at eq
      exact congrArg Host.Outcome.next eq
    all_goals
      have exceeds : overClass mw s = true := decide_eq_true above
      rw [exceeds, if_neg (by decide)] at eq
    · rw [if_pos few] at eq
      exact congrArg Host.Outcome.next eq
    · rw [if_neg (by omega)] at eq
      obtain ⟨b, pwr⟩ := guardStep_pwr s
      exact ⟨guardStep s, congrArg Host.Outcome.next eq, by rw [pwr], by rw [pwr]⟩
  case sample =>
    have up : s.mode ≠ .reset := fun h => by simp [h] at m
    have on : s.mode ≠ .standby := fun h => by simp [h] at m
    have therm := tempSample_therm raw waiting up on
    refine ⟨tempSample raw s, rfl, by rw [therm]; rfl, by rw [therm]; rfl, by rw [therm]; rfl, fun out hot => ?_⟩
    have service : inService s = true := by
      obtain h | h | h | h | h :
          s.mode = .ready ∨ s.mode = .run ∨ s.mode = .degraded ∨ s.mode = .held ∨ s.mode = .safe := by simpa using m
      case inr.inr.inr.inr => exact absurd h out
      all_goals simp [inService, h]
    obtain ⟨u, eq⟩ := tempSample_hot raw waiting service hot
    exact ⟨by rw [eq, enterStandby_mode], by rw [eq, enterStandby_chans]⟩

end Sys2Proof.Machine
end

section
/-! Entry to and exit from RESET (chapter 05), and the test access port that can hold it (R96, R97). -/

namespace Sys2Proof.Machine

/-! ### Reset sources (R78, R97, R121, R177) -/

theorem hostWdog_of_runs {s : State} (live : s.host.live = true) (period : s.host.hwdogPeriod ≠ 0) :
    hostWdog s = enterReset 6 s ∧ hwdogHalf s = s.setHost { s.host with irqWdog := true } := by
  have runs : hwdogRuns s = true := by
    rw [hwdogRuns, live, decide_eq_true period]
    rfl
  simp [hostWdog, hwdogHalf, runs]

theorem hostWdog_of_stopped {s : State} (h : s.host.live = false ∨ s.host.hwdogPeriod = 0) :
    hostWdog s = s ∧ hwdogHalf s = s := by
  have stopped : hwdogRuns s = false := by
    rcases h with h | h <;> simp [hwdogRuns, h]
  simp [hostWdog, hwdogHalf, stopped]

theorem hostWdog_of_reset {s : State} (m : s.mode = .reset) : hostWdog s = s := by
  simp [hostWdog, enterReset_of_reset m]

theorem startTimer_of_boot {s : State} (m : s.mode = .boot) (armed : s.boot.startArmed = true) :
    startTimer s = enterReset 4 s := by
  simp [startTimer, m, armed]

theorem startTimer_of_ne {s : State} (m : s.mode ≠ .boot) : startTimer s = s := by
  simp [startTimer, m]

theorem resetPin_short {n : Nat} (h : n < 1000) (s : State) : resetPin n s = s := by
  simp [resetPin, h]

theorem resetPin_long {n : Nat} (h : 10000 ≤ n) (s : State) : resetPin n s = enterReset 2 s := by
  have long : ¬ n < 1000 := by omega
  simp [resetPin, h, long]

/-- R78: between 1 µs and 10 µs the pin may or may not be seen. -/
theorem resetPin_between {n : Nat} (low : 1000 ≤ n) (high : n < 10000) (s : State) :
    resetPin n s = s.draw ∨ resetPin n s = enterReset 2 s.draw := by
  have h₁ : ¬ n < 1000 := by omega
  have h₂ : ¬ 10000 ≤ n := by omega
  cases seen : Config.freeBit s.free <;> simp [resetPin, h₁, h₂, seen]

theorem idle_of_resetSoon {s : State} (h : s.boot.resetSoon = true) : idle s = enterReset 3 s := by
  simp [idle, h]

/-! ### The test access port -/

theorem jtag_unpowered {s : State} (h : s.pwr.powered = false) (j : JtagOp) : jtag j s = s := by
  simp [jtag, h]

/-- The module with the TAP controller in a state and the hold of a boundary-scan instruction on or off. -/
def withTap (x : TapState) (hold : Bool) (s : State) : State :=
  (s.setPins { s.pins with tap := x }).setBoot { s.boot with jtagHold := hold }

theorem tapClock_eq (tms : Bool) (s : State) :
    tapClock tms s = withTap (tapNext s.pins.tap tms)
      (s.boot.jtagHold && tapNext s.pins.tap tms ≠ .testLogicReset) s := by
  unfold tapClock
  extract_lets x moved
  by_cases h : x = .testLogicReset
  · have freed : (s.boot.jtagHold && decide (x ≠ .testLogicReset)) = false := by simp [h]
    rw [if_pos h, freed]
    rfl
  · have kept : (s.boot.jtagHold && decide (x ≠ .testLogicReset)) = s.boot.jtagHold := by simp [h]
    rw [if_neg h, kept]
    rfl

theorem tapClock_withTap (tms : Bool) (x : TapState) (hold : Bool) (s : State) :
    tapClock tms (withTap x hold s) = withTap (tapNext x tms) (hold && tapNext x tms ≠ .testLogicReset) s :=
  tapClock_eq tms _

/-- IEEE 1149.1: five clocks with TMS high lead from every state to Test-Logic-Reset. -/
theorem tapNext_five_high (x : TapState) :
    tapNext (tapNext (tapNext (tapNext (tapNext x true) true) true) true) true = .testLogicReset := by
  cases x <;> rfl

theorem tapClock_five_high (s : State) :
    (List.replicate 5 true).foldl (fun s b => tapClock b s) s = withTap .testLogicReset false s := by
  simp only [List.replicate, List.foldl_cons, List.foldl_nil, tapClock_eq true s, tapClock_withTap, tapNext_five_high]
  simp

/-- A boundary-scan instruction out of RESET: RESET with CAUSE 7, which the TAP controller holds (R97). -/
theorem jtagHeld_of_ne {s : State} (m : s.mode ≠ .reset) :
    (jtagHeld s).mode = .reset ∧ (jtagHeld s).boot.cause = 7 ∧ (jtagHeld s).boot.jtagHold = true ∧
      (jtagHeld s).pins.tap = .updateIr ∧ resetMayEnd (jtagHeld s) = false := by
  have held : resetMayEnd (jtagHeld s) = false := by simp [resetMayEnd, jtagHeld]
  have eq : jtagHeld s = withTap .updateIr true (resetBlocks 7 s) := by
    rw [jtagHeld, enterReset_of_ne m]
    rfl
  refine ⟨?_, ?_, rfl, rfl, held⟩
  all_goals rw [eq]; rfl

/-! ### Exit from RESET (R62, R75, R83, R437) -/

theorem resetEnd_of_cold {s : State} {t : Word} (straps : BitVec 2) (mv : Nat) (m : s.mode = .reset)
    (may : resetMayEnd s = true) (cold : t.toInt + calEffective s 0x0100 < -5760) :
    resetEnd straps mv t s = s.setBoot { s.boot with coldHold := true } := by
  have due : dueReset s = s := by simp [dueReset, enterReset_of_reset m]
  rw [resetEnd, due, may]
  exact if_pos cold

theorem resetEnd_of_warm {s : State} {t : Word} (straps : BitVec 2) (mv : Nat) (m : s.mode = .reset)
    (may : resetMayEnd s = true) (warm : -5760 ≤ t.toInt + calEffective s 0x0100) :
    resetEnd straps mv t s = beginBoot straps mv s := by
  have due : dueReset s = s := by simp [dueReset, enterReset_of_reset m]
  rw [resetEnd, due, may]
  exact if_neg (Int.not_lt.2 warm)

theorem beginBoot_pins (straps : BitVec 2) (mv : Nat) (s : State) :
    (beginBoot straps mv s).pins.straps = straps ∧
      (beginBoot straps mv s).pins.vioClass33 = if mv < 1000 then none else some (decide (2400 ≤ mv)) := by
  unfold beginBoot
  dsimp only [State.setBoot_pins]
  split <;> exact ⟨rfl, rfl⟩

theorem beginBoot_addr (mv : Nat) (s : State) : (beginBoot 2 mv s).ism.addr = some 0 := rfl

end Sys2Proof.Machine
end

section
/-! Power-on BIST (R500, R511, Table 19-6): the units it withdraws, the forwarding queues and SAFE after a failure. -/

namespace Sys2Proof.Machine

/-! ### Entries of a list by key -/

theorem alGet_alSet {κ α : Type} [DecidableEq κ] (l : AL κ α) (k j : κ) (a d : α) :
    alGet (alSet l k a) j d = if j = k then a else alGet l j d := by
  induction l with
  | nil => simp [alSet, alGet, eq_comm (a := k)]
  | cons e r ih =>
    obtain ⟨k', b⟩ := e
    by_cases here : k' = k
    · subst here
      by_cases h : j = k'
      · simp [alSet, alGet, h]
      · simp [alSet, alGet, h, Ne.symm h]
    · by_cases first : k' = j
      · simp [alSet, alGet, here, ← first]
      · simp [alSet, alGet, here, first, ih]

theorem getCore_putCore (n m : CoreNo) (c : CoreSt) (s : State) :
    getCore (putCore n c s) m = if m = n then c else getCore s m :=
  alGet_alSet ..

theorem getQ_putQ (q r : QueueNo) (x : Queue) (s : State) : getQ (putQ q x s) r = if r = q then x else getQ s r :=
  alGet_alSet ..

theorem getQ_congr {s t : State} (h : t.qm.queues = s.qm.queues) (q : QueueNo) : getQ t q = getQ s q := by
  simp [getQ, h]

/-! ### Cores and engines withdrawn -/

theorem getCore_congr {s t : State} (h : t.sch = s.sch) (n : CoreNo) : getCore t n = getCore s n := by
  simp [getCore, h]

theorem corePresent_congr {s t : State} (h : t.hw = s.hw) (n : CoreNo) : corePresent t n = corePresent s n := by
  unfold corePresent coreCount channelLimit
  rw [h]

theorem enginePresent_congr {s t : State} (h : t.hw = s.hw) (e : BitVec 1) : enginePresent t e = enginePresent s e := by
  unfold enginePresent engineCount
  rw [h]

theorem engineUp_congr {s t : State} (hw : t.hw = s.hw) (te0 : t.sch.te0Gone = s.sch.te0Gone)
    (te1 : t.sch.te1Gone = s.sch.te1Gone) (e : BitVec 1) : engineUp t e = engineUp s e := by
  simp [engineUp, engineGone, enginePresent_congr hw, te0, te1]

theorem withdrawQuietCore_hw (n : CoreNo) (s : State) : (withdrawQuietCore n s).hw = s.hw :=
  (withdrawQuietCore_keeps (L := [.sch]) (.refl _ s) (by decide)).same_hw

theorem withdrawQuietCore_withdrawn (n m : CoreNo) (s : State) :
    (getCore (withdrawQuietCore n s) m).withdrawn = ((getCore s m).withdrawn || (decide (m = n) && corePresent s m)) := by
  unfold withdrawQuietCore
  split
  next present =>
    rw [getCore_putCore]
    by_cases h : m = n <;> simp [h, present]
  next absent =>
    by_cases h : m = n <;> simp [h, absent]

theorem withdrawQuietCores_withdrawn (l : List CoreNo) (m : CoreNo) (s : State) :
    (getCore (l.foldl (fun s n => withdrawQuietCore n s) s) m).withdrawn =
      ((getCore s m).withdrawn || (decide (m ∈ l) && corePresent s m)) := by
  induction l generalizing s with
  | nil => simp
  | cons n l ih =>
    rw [List.foldl_cons, ih, withdrawQuietCore_withdrawn, corePresent_congr (withdrawQuietCore_hw n s)]
    by_cases h : m = n <;> simp [h]
    cases corePresent s n <;> simp

theorem withdrawQuietCore_engines (n : CoreNo) (s : State) (e : BitVec 1) :
    engineUp (withdrawQuietCore n s) e = engineUp s e := by
  unfold withdrawQuietCore
  split <;> rfl

theorem withdrawQuietCores_engines (l : List CoreNo) (s : State) (e : BitVec 1) :
    engineUp (l.foldl (fun s n => withdrawQuietCore n s) s) e = engineUp s e := by
  induction l generalizing s with
  | nil => rfl
  | cons n l ih => rw [List.foldl_cons, ih, withdrawQuietCore_engines]

theorem withdrawQuietEngine_up (f e : BitVec 1) (s : State) :
    engineUp (withdrawQuietEngine f s) e = (engineUp s e && e ≠ f) := by
  have bit : ∀ x : BitVec 1, x = 0 ∨ x = 1 := by decide
  unfold withdrawQuietEngine
  split
  next =>
    change (enginePresent s e && _) = (enginePresent s e && _ && _)
    obtain rfl | rfl := bit f <;> obtain rfl | rfl := bit e <;> simp [engineGone]
  next absent =>
    by_cases h : e = f
    · simp [h, engineUp, absent]
    · simp [h]

theorem withdrawQuietEngines_up (l : List (BitVec 1)) (e : BitVec 1) (s : State) :
    engineUp (l.foldl (fun s e => withdrawQuietEngine e s) s) e = (engineUp s e && e ∉ l) := by
  induction l generalizing s with
  | nil => simp
  | cons f l ih =>
    rw [List.foldl_cons, ih, withdrawQuietEngine_up]
    simp [Bool.and_assoc]

theorem withdrawQuietEngine_cores (e : BitVec 1) (s : State) (n : CoreNo) :
    getCore (withdrawQuietEngine e s) n = getCore s n := by
  unfold withdrawQuietEngine
  split
  · split <;> rfl
  · rfl

theorem withdrawQuietEngines_cores (l : List (BitVec 1)) (s : State) (n : CoreNo) :
    getCore (l.foldl (fun s e => withdrawQuietEngine e s) s) n = getCore s n := by
  induction l generalizing s with
  | nil => rfl
  | cons e l ih => rw [List.foldl_cons, ih, withdrawQuietEngine_cores]

theorem applyPoint_withdrawn (boundary : Bool) (p : Point) (c : CoreSt) :
    (applyPoint boundary p c).withdrawn = c.withdrawn := by
  unfold applyPoint
  repeat' split
  all_goals rfl

theorem putCores_withdrawn {α : Type} (l : List α) (no : α → CoreNo) {f : α → CoreSt → CoreSt}
    (hf : ∀ a c, (f a c).withdrawn = c.withdrawn) (s : State) (n : CoreNo) :
    (getCore (l.foldl (fun s a => putCore (no a) (f a (getCore s (no a))) s) s) n).withdrawn = (getCore s n).withdrawn := by
  induction l generalizing s with
  | nil => rfl
  | cons a l ih =>
    rw [List.foldl_cons, ih, getCore_putCore]
    split
    next here => rw [hf, here]
    next => rfl

theorem putCores_engines {α : Type} (l : List α) (no : α → CoreNo) (f : α → CoreSt → CoreSt) (s : State)
    (e : BitVec 1) :
    engineUp (l.foldl (fun s a => putCore (no a) (f a (getCore s (no a))) s) s) e = engineUp s e := by
  induction l generalizing s with
  | nil => rfl
  | cons a l ih => exact ih (putCore _ _ s)

theorem pointsChanged_withdrawn (s : State) (n : CoreNo) :
    (getCore (pointsChanged s) n).withdrawn = (getCore s n).withdrawn :=
  putCores_withdrawn _ _ (fun _ _ => applyPoint_withdrawn ..) s n

theorem pointsChanged_engines (s : State) (e : BitVec 1) : engineUp (pointsChanged s) e = engineUp s e :=
  putCores_engines _ _ _ s e

/-! ### What a self-test leaves (R500, R514, R515) -/

/-- The results of tests 1 to 3, which `bistUnits` records first. -/
theorem recordTests_keeps {s : State} (a b c : Option Nat) :
    Keeps [.cal] s (recordTest 3 c (recordTest 2 b (recordTest 1 a s))) :=
  recordTest_keeps (recordTest_keeps (recordTest_keeps (.refl _ s) (by decide)) (by decide)) (by decide)

theorem bistUnits_core {r : BistResult} {s : State} {n : CoreNo} (bad : n ∈ r.badCores) (present : corePresent s n = true) :
    (getCore (bistUnits r s) n).withdrawn = true := by
  unfold bistUnits
  extract_lets new cells t₁ t₂ noted cored engined
  have tests : Keeps [.cal] s noted := recordTests_keeps ..
  have retired : (retireCells cells engined).sch = engined.sch :=
    (retireCells_keeps (L := [.qm]) (.refl _ engined) (by decide)).same_sch
  have cores : (getCore engined n).withdrawn = ((getCore s n).withdrawn || decide (n ∈ new.1)) := by
    rw [withdrawQuietEngines_cores, withdrawQuietCores_withdrawn, getCore_congr tests.same_sch,
      corePresent_congr tests.same_hw, present, Bool.and_true]
  rw [pointsChanged_withdrawn, getCore_congr retired, cores]
  cases already : (getCore s n).withdrawn with
  | true => rfl
  | false => simp [new, newlyBad, bad, present, already]

theorem bistUnits_engine {r : BistResult} {s : State} {e : BitVec 1} (bad : e ∈ r.badEngines) :
    engineUp (bistUnits r s) e = false := by
  unfold bistUnits
  extract_lets new cells t₁ t₂ noted cored engined
  have tests : Keeps [.cal] s noted := recordTests_keeps ..
  have retired : Keeps [.qm] engined (retireCells cells engined) := retireCells_keeps (.refl _ engined) (by decide)
  have engines : engineUp engined e = (engineUp s e && decide (e ∉ new.2)) := by
    rw [withdrawQuietEngines_up, withdrawQuietCores_engines, engineUp_congr tests.same_hw]
    all_goals rw [tests.same_sch]
  rw [pointsChanged_engines, engineUp_congr retired.same_hw (by rw [retired.same_sch]) (by rw [retired.same_sch]), engines]
  cases already : engineUp s e with
  | false => rfl
  | true => simp [new, newlyBad, bad, already]

theorem retireCells_queues (l : List Nat) (s : State) : (retireCells l s).qm.queues = s.qm.queues := by
  unfold retireCells noteFree
  split <;> rfl

theorem bistUnits_queues (r : BistResult) (s : State) : (bistUnits r s).qm.queues = s.qm.queues := by
  unfold bistUnits
  extract_lets new cells t₁ t₂ noted cored engined
  have units : Keeps [.sch, .cal] s engined :=
    .foldl (fun _ _ k => withdrawQuietEngine_keeps k (by decide))
      (.foldl (fun _ _ k => withdrawQuietCore_keeps k (by decide))
        (recordTest_keeps (recordTest_keeps (recordTest_keeps (.refl _ s) (by decide)) (by decide)) (by decide)))
  rw [(pointsChanged_keeps (L := [.sch]) (.refl _ (retireCells cells engined)) (by decide)).same_qm, retireCells_queues,
    units.same_qm]

theorem enableQueues_enable (l : List Nat) (s : State) (q : QueueNo)
    (h : (getQ s q).enable = true ∨ ∃ k ∈ l, q = BitVec.ofNat 15 (32512 + k)) :
    (getQ (l.foldl (fun s k =>
      let q : QueueNo := BitVec.ofNat 15 (32512 + k)
      putQ q { getQ s q with enable := true } s) s) q).enable = true := by
  induction l generalizing s with
  | nil => simpa using h
  | cons k l ih =>
    refine ih _ ?_
    by_cases here : q = BitVec.ofNat 15 (32512 + k)
    · left
      rw [getQ_putQ, if_pos here]
    · rw [getQ_putQ, if_neg here]
      simpa [here] using h

theorem enableForwarding_enable (s : State) (p : PortNo) {c : Nat} (h : c < 8) :
    (getQ (enableForwarding s) (fwdQ p c)).enable = true := by
  refine enableQueues_enable _ s _ (.inr ⟨8 * p.toNat + c, List.mem_range.2 ?_, ?_⟩)
  · have := p.isLt
    omega
  · rw [fwdQ, Nat.add_assoc]

theorem limitsFromBist_boot (before : Word) (s : State) :
    (limitsFromBist before s).boot = { s.boot with limitsOn := true } := by
  unfold limitsFromBist
  split
  next on =>
    rw [(powerReport_keeps (L := [.host, .ism, .fi]) (.refl _ s) (by decide)).same_boot, ← on]
  next => rfl

/-- The module when the units have been tested, before SAFE or the choice of a bank. -/
def afterBist (r : BistResult) (s : State) : State :=
  limitsFromBist (pwrLimit s) (bistUnits r (enableForwarding (s.setBoot { s.boot with bistDone := true })))

theorem powerOnBist_eq {s : State} (r : BistResult) (m : s.mode = .boot) (first : s.boot.bistDone = false)
    (power : poeStandby s = false) :
    powerOnBist r s =
      if r.safetyFail || r.dramFail || !(afterBist r s).hw.factoryOk then
        latchFc (fcStat (afterBist r s)) (moduleSafe 0x50 (afterBist r s))
      else chooseWhenFree (afterBist r s) := by
  rw [powerOnBist, m, first, power]
  rfl

theorem afterBist_keeps (r : BistResult) (s : State) : Keeps [.boot, .host, .sch, .qm, .ism, .cal, .fi] s (afterBist r s) :=
  limitsFromBist_keeps (bistUnits_keeps (enableForwarding_keeps (State.setBoot_keeps (.refl _ s) (by decide) (Nat.le_refl _))
    (by decide)) (by decide)) (by decide)

theorem afterBist_boot (r : BistResult) (s : State) :
    (afterBist r s).boot = { s.boot with bistDone := true, limitsOn := true } := by
  rw [afterBist, limitsFromBist_boot, (bistUnits_keeps (L := [.sch, .qm, .cal]) (.refl _ _) (by decide)).same_boot,
    (enableForwarding_keeps (L := [.qm]) (.refl _ _) (by decide)).same_boot]
  rfl

theorem limitsFromBist_frame (before : Word) (s : State) : Keeps [.boot, .host, .ism, .fi] s (limitsFromBist before s) :=
  limitsFromBist_keeps (.refl _ s) (by decide)

theorem afterBist_core {r : BistResult} {s : State} {n : CoreNo} (bad : n ∈ r.badCores) (present : corePresent s n = true) :
    (getCore (afterBist r s) n).withdrawn = true := by
  rw [afterBist, getCore_congr (limitsFromBist_frame _ _).same_sch]
  refine bistUnits_core bad ((corePresent_congr ?_ n).trans present)
  exact (enableForwarding_keeps (L := [.qm]) (.refl _ _) (by decide)).same_hw

theorem afterBist_engine {r : BistResult} {s : State} {e : BitVec 1} (bad : e ∈ r.badEngines) :
    engineUp (afterBist r s) e = false := by
  have frame := limitsFromBist_frame (pwrLimit s) (bistUnits r (enableForwarding (s.setBoot { s.boot with bistDone := true })))
  rw [afterBist, engineUp_congr frame.same_hw (by rw [frame.same_sch]) (by rw [frame.same_sch])]
  exact bistUnits_engine bad

theorem afterBist_queue (r : BistResult) (s : State) (p : PortNo) {c : Nat} (h : c < 8) :
    (getQ (afterBist r s) (fwdQ p c)).enable = true := by
  have queues : (afterBist r s).qm.queues = (enableForwarding (s.setBoot { s.boot with bistDone := true })).qm.queues := by
    rw [afterBist, (limitsFromBist_frame _ _).same_qm, bistUnits_queues]
  rw [getQ_congr queues]
  exact enableForwarding_enable _ p h

/-! ### SAFE (R481, R482) -/

/-- A module-scope cause that acts outside SAFE leads to SAFE and is kept. -/
theorem moduleSafe_of_acts {cause : Byte} {s : State} (acts : causeActs cause s.mode = true) (first : s.saf.safe = false) :
    (moduleSafe cause s).mode = .safe ∧ (moduleSafe cause s).saf.cause = cause := by
  unfold moduleSafe
  rw [if_neg (by simp [acts]), if_neg (by simp [first])]
  extract_lets _ marked bye _ idle recorded entered told ended closed
  have before : Keeps parts13 marked recorded :=
    safeRecord_keeps (State.setLed_keeps
      (.foldl (fun _ _ k => sendBye_keeps k (by decide)) (.refl _ marked)) (by decide)) (by decide)
  have after : Keeps [.pwr, .pins, .host, .cmds, .tdm, .ism, .fi, .mem] entered closed :=
    closeSegment_keeps (endWorkSafe_keeps
      (.foldl (fun _ _ k => raiseChState_keeps k (by decide)) (.refl _ entered)) (by decide)) (by decide)
  have saf : closed.saf = marked.saf := after.same_saf.trans before.same_saf
  exact ⟨congrArg Boot.mode after.same_boot, congrArg Safety.cause saf⟩

end Sys2Proof.Machine
end

section
/-! The choice of a bank and READY (R126-R132), and with them the statement on reset and boot. -/

namespace Sys2Proof.Machine

/-! ### A bank checked (R126, R546) -/

/-- The check reads the bank, the facts of the unit and the rollback counter, and nothing else. -/
theorem checkBank_congr {s t : State} {b : Bool} (bank : bankOf t b = bankOf s b) (hw : t.hw = s.hw)
    (rollback : t.boot.rollback = s.boot.rollback) : checkBank t b = checkBank s b := by
  have signature (l : List Byte) : signatureOk t l = signatureOk s l := by simp [signatureOk, revokedSlot, hw]
  have masks (l : List Byte) : masksOk t l = masksOk s l := by simp [masksOk, hw]
  simp only [checkBank, bank, signature, masks, rollback]

/-- A stored result changes the results alone. -/
theorem putRes_boot (b : Bool) (r : CheckRes) (s : State) :
    ∃ x y, (putRes b r s).boot = { s.boot with resA := x, resB := y } := by
  cases b
  · exact ⟨r, s.boot.resB, rfl⟩
  · exact ⟨s.boot.resA, r, rfl⟩

theorem resOf_putRes (b : Bool) (r : CheckRes) (s : State) : resOf (putRes b r s) b = r := by
  cases b <;> rfl

theorem isGood_checkStored (b : Bool) (s : State) : isGood (checkStored b s) b = decide (checkBank s b = .good) := by
  rw [isGood, checkStored, resOf_putRes]

theorem bankOf_putRes (b c : Bool) (r : CheckRes) (s : State) : bankOf (putRes b r s) c = bankOf s c := by
  cases b <;> rfl

theorem checkBank_checkStored (b c : Bool) (s : State) : checkBank (checkStored b s) c = checkBank s c := by
  refine checkBank_congr (bankOf_putRes ..) (by cases b <;> rfl) ?_
  obtain ⟨x, y, boot⟩ := putRes_boot b (checkBank s b) s
  rw [checkStored, boot]

/-! ### The choice of a bank (R127, R128, R129) -/

section
variable {s : State} (steady : s.boot.trial = false)
include steady

theorem chooseBank_of_good (good : checkBank s s.boot.pref = .good) :
    chooseBank s = bootFrom s.boot.pref (checkStored s.boot.pref s) := by
  simp [chooseBank, steady, isGood_checkStored, good]

theorem chooseBank_of_other (bad : checkBank s s.boot.pref ≠ .good) :
    let t := checkStored (!s.boot.pref) (checkStored s.boot.pref s)
    chooseBank s =
      if checkBank s (!s.boot.pref) = .good then bootFrom (!s.boot.pref) (t.setBoot { t.boot with fallback := true })
      else enterRecovery t := by
  have same : (checkStored s.boot.pref s).boot.trial = false := by
    obtain ⟨x, y, boot⟩ := putRes_boot s.boot.pref (checkBank s s.boot.pref) s
    rw [checkStored, boot, steady]
  simp [chooseBank, steady, same, isGood_checkStored, bad, checkBank_checkStored]

end

/-- A choice out of a trial, by what the checks of the preferred bank and of the other give. -/
theorem chooseBank_boot {s : State} (steady : s.boot.trial = false) :
    (chooseBank s).boot.limitsOn = s.boot.limitsOn ∧
      (if checkBank s s.boot.pref = .good then
        (chooseBank s).mode = s.mode ∧ (chooseBank s).boot.active = some s.boot.pref ∧
          (chooseBank s).boot.running = some (pkgInfo (bankOf s s.boot.pref).bytes)
      else if checkBank s (!s.boot.pref) = .good then
        (chooseBank s).boot.active = some (!s.boot.pref) ∧ (chooseBank s).boot.fallback = true
      else (chooseBank s).mode = .recovery) := by
  obtain ⟨x, y, first⟩ := putRes_boot s.boot.pref (checkBank s s.boot.pref) s
  by_cases good : checkBank s s.boot.pref = .good
  · have boot : (checkStored s.boot.pref s).boot = { s.boot with resA := x, resB := y } := first
    rw [if_pos good, chooseBank_of_good steady good]
    refine ⟨(congrArg Boot.limitsOn boot :), (congrArg Boot.mode boot :), rfl, ?_⟩
    exact congrArg (fun k : Bank => some (pkgInfo k.bytes)) (bankOf_putRes ..)
  · obtain ⟨x', y', second⟩ := putRes_boot (!s.boot.pref) (checkBank (checkStored s.boot.pref s) (!s.boot.pref))
      (checkStored s.boot.pref s)
    have limits : (checkStored (!s.boot.pref) (checkStored s.boot.pref s)).boot.limitsOn = s.boot.limitsOn :=
      (congrArg Boot.limitsOn second :).trans (congrArg Boot.limitsOn first :)
    rw [if_neg good, chooseBank_of_other steady good]
    by_cases other : checkBank s (!s.boot.pref) = .good
    · rw [if_pos other, if_pos other]
      exact ⟨limits, rfl, rfl⟩
    · rw [if_neg other, if_neg other]
      exact ⟨limits, rfl⟩

/-! ### BIST and the choice after it -/

theorem afterBist_mode {s : State} (r : BistResult) : (afterBist r s).mode = s.mode :=
  (congrArg Boot.mode (afterBist_boot r s) :)

theorem afterBist_checkBank (r : BistResult) (s : State) (b : Bool) : checkBank (afterBist r s) b = checkBank s b :=
  checkBank_congr (by simp only [bankOf, afterBist_boot]) (afterBist_keeps r s).same_hw (by rw [afterBist_boot])

/-- Where every part that SAFE asks for has passed, the choice follows at once (R134). -/
theorem powerOnBist_of_pass {s : State} {r : BistResult} (m : s.mode = .boot) (first : s.boot.bistDone = false)
    (power : poeStandby s = false) (safety : r.safetyFail = false) (dram : r.dramFail = false) (factory : s.hw.factoryOk = true)
    (high : s.pwr.pwrfail = false) (none_active : s.boot.active = none) :
    powerOnBist r s = chooseBank (afterBist r s) := by
  have free : chooseWhenFree (afterBist r s) = chooseBank (afterBist r s) := by
    simp [chooseWhenFree, afterBist_mode, m, afterBist_boot, none_active, (afterBist_keeps r s).same_pwr, high]
  rw [powerOnBist_eq r m first power, safety, dram, (afterBist_keeps r s).same_hw, factory]
  exact free

/-- A failure of the safety logic, of DRAM or of the factory record leads to SAFE with cause BIST (R500). -/
theorem powerOnBist_of_fail {s : State} {r : BistResult} (m : s.mode = .boot) (first : s.boot.bistDone = false)
    (power : poeStandby s = false) (fail : r.safetyFail = true ∨ r.dramFail = true ∨ s.hw.factoryOk = false) :
    powerOnBist r s = latchFc (fcStat (afterBist r s)) (moduleSafe 0x50 (afterBist r s)) := by
  have failed : (r.safetyFail || r.dramFail || !(afterBist r s).hw.factoryOk) = true := by
    rw [(afterBist_keeps r s).same_hw]
    rcases fail with h | h | h <;> simp [h]
  rw [powerOnBist_eq r m first power, if_pos failed]

theorem powerOnBist_safe {s : State} {r : BistResult} (m : s.mode = .boot) (first : s.boot.bistDone = false)
    (power : poeStandby s = false) (out : s.saf.safe = false)
    (fail : r.safetyFail = true ∨ r.dramFail = true ∨ s.hw.factoryOk = false) :
    (powerOnBist r s).mode = .safe ∧ (powerOnBist r s).saf.cause = 0x50 := by
  have acts : causeActs 0x50 (afterBist r s).mode = true := by
    rw [afterBist_mode, m]
    rfl
  rw [powerOnBist_of_fail m first power fail]
  exact moduleSafe_of_acts acts ((congrArg Safety.safe (afterBist_keeps r s).same_saf).trans out)

/-! ### READY (R131, R132) -/

theorem putRes_if_boot (c : Bool) (b : Bool) (r : CheckRes) (s : State) :
    ∃ x y, (if c then putRes b r s else s).boot = { s.boot with resA := x, resB := y } := by
  cases c
  · exact ⟨s.boot.resA, s.boot.resB, rfl⟩
  · exact putRes_boot b r s

/-- The counter never falls; nothing else changes but stored results. -/
theorem raiseRollback_boot (svn : Byte) (s : State) : ∃ v x y,
    (raiseRollback svn s).boot = { s.boot with rollback := v, resA := x, resB := y } ∧
      v.toNat = max s.boot.rollback.toNat svn.toNat := by
  unfold raiseRollback
  split
  next low => exact ⟨s.boot.rollback, s.boot.resA, s.boot.resB, rfl, (Nat.max_eq_left low).symm⟩
  next high =>
    extract_lets _ raised mark
    obtain ⟨x, y, first⟩ := putRes_if_boot _ false .rollback raised
    obtain ⟨x', y', second⟩ := putRes_if_boot _ true .rollback (mark false raised)
    exact ⟨svn, x', y', second.trans (by rw [first]; rfl), (Nat.max_eq_right (by omega)).symm⟩

/-- A trial of the bank that runs ends in success, and the counter rises (R131, R132). -/
theorem readyWrites_boot (svn : Byte) (s : State) :
    (readyWrites svn s).mode = s.mode ∧ (readyWrites svn s).boot.startArmed = s.boot.startArmed ∧
      (readyWrites svn s).boot.wasReady = s.boot.wasReady ∧
      (readyWrites svn s).boot.rollback.toNat = max s.boot.rollback.toNat svn.toNat ∧
      (s.boot.active = some s.boot.pref → (readyWrites svn s).boot.trial = false) := by
  unfold readyWrites
  extract_lets _ written
  split
  next ends =>
    obtain ⟨v, x, y, boot, rollback⟩ := raiseRollback_boot svn (endTrial written)
    rw [State.mode, boot]
    exact ⟨rfl, rfl, rfl, rollback, fun _ => rfl⟩
  next goesOn =>
    obtain ⟨v, x, y, boot, rollback⟩ := raiseRollback_boot svn written
    rw [State.mode, boot]
    refine ⟨rfl, rfl, rfl, rollback, fun preferred => ?_⟩
    have active : decide (written.boot.active = some written.boot.pref) = true := decide_eq_true preferred
    simpa [active] using goesOn

/-- The state in which the components have started, before READY writes and reports. -/
def readyState (s : State) : State :=
  let t := latchFc (fcStat s) (s.setBoot { s.boot with mode := .ready, startArmed := false, wasReady := true })
  t.setSaf { t.saf with qual := !t.boot.unqual && !t.boot.debug }

/-- READY where nothing calls for STANDBY: what follows the writes leaves the boot part and QUAL alone. -/
theorem bootDone_boot {s : State} {p : PkgInfo} (runs : s.boot.running = some p) (m : s.mode = .boot)
    (done : s.boot.bistDone = true) (high : s.pwr.pwrfail = false) (power : poeStandby s = false) (cool : tooHot s = false) :
    (bootDone s).boot = (readyWrites (p.svn.setWidth 8) (readyState s)).boot ∧
      (bootDone s).saf = (readyState s).saf := by
  let written := readyWrites (p.svn.setWidth 8) (readyState s)
  let reported := raise evBootDone [p.ver0, p.ver1, bootStat written, p.hpv] written
  let searched := readySearch (extPorts.foldl (fun s p => cageCheck p s) reported)
  have eq : bootDone s = standbyDue searched := by
    unfold bootDone
    split
    next stopped => exact absurd (stopped.symm.trans runs) nofun
    next q found =>
      obtain rfl : q = p := Option.some.inj (found.symm.trans runs)
      rw [if_neg (by simp [m, done])]
      extract_lets svn pins _ started _ qualified _ wrote told
      have same : wrote = written := if_neg (Bool.eq_false_iff.1 high)
      unfold told
      rw [same]
  have writes : Keeps [.boot] (readyState s) written := readyWrites_keeps (.refl _ _) (by decide)
  have after : Keeps [.host, .sw, .ism, .fi] written searched :=
    readySearch_keeps (.foldl (fun _ _ k => cageCheck_keeps k (by decide)) (raise_keeps (.refl _ written) (by decide)))
      (by decide)
  have pwr : searched.pwr = s.pwr := after.same_pwr.trans writes.same_pwr
  have therm : searched.therm = s.therm := after.same_therm.trans writes.same_therm
  have stays : standbyDue searched = searched := standbyDue_of_not_due
    (by simpa only [poeStandby, poeOnly, pwr] using power) (by simpa only [tooHot, therm] using cool)
  rw [eq, stays]
  exact ⟨after.same_boot, after.same_saf.trans writes.same_saf⟩

/-! ### The statement -/

/-- Settles O42: a reset source is one `enterReset`, which resets every block and does nothing in RESET; the exit, BIST and
READY are one chain each, whose later links leave alone what the earlier ones set. That the forwarding queues are enabled at
BIST and PWR_LIMIT is set by the first BIST are the model's choices (log entries 72 and 81). -/
theorem resetAndBoot : Obligations.ResetAndBoot := by
  intro s
  have rollback (k : BitVec 4) : (resetBlocks k s).boot.rollback = s.boot.rollback := bootAfterReset_rollback
  refine ⟨fun out => ?sources, fun k => ⟨rfl, rfl, rfl, rfl, rollback k⟩, fun n low => ?short, fun off j => ?unpowered,
    fun on => ?tap, fun m => ?inReset, fun out kept => ?hostPort, fun out => ?bypass,
    fun r m first power safe => ⟨?failed, ?passed⟩,
    fun p runs m done high power cool => ?ready⟩
  case sources =>
    have enter (k : BitVec 4) : enterReset k s = resetBlocks k s := enterReset_of_ne out k
    refine ⟨fun n long => ?_, fun n low high => ?_, congrArg Host.Outcome.next (enter 5), fun m armed => ?_,
      fun live period => ?_, fun stopped => ?_, fun soon quiet => ?_, fun on j mem => ?_⟩
    · exact congrArg Host.Outcome.next ((resetPin_long long s).trans (enter 2))
    · have drawn : enterReset 2 s.draw = resetBlocks 2 s.draw := enterReset_of_ne (s := s.draw) out 2
      rcases resetPin_between low high s with h | h
      · exact List.mem_cons.2 (.inl (congrArg Host.Outcome.next h))
      · exact List.mem_cons_of_mem _ (List.mem_singleton.2 (congrArg Host.Outcome.next (h.trans drawn)))
    · exact congrArg Host.Outcome.next ((startTimer_of_boot m armed).trans (enter 4))
    · obtain ⟨wdog, half⟩ := hostWdog_of_runs live period
      exact ⟨congrArg Host.Outcome.next (wdog.trans (enter 6)), congrArg Host.Outcome.next half⟩
    · obtain ⟨wdog, half⟩ := hostWdog_of_stopped stopped
      exact ⟨congrArg Host.Outcome.next wdog, congrArg Host.Outcome.next half⟩
    · rw [step, quiet]
      exact congrArg Host.Outcome.next ((idle_of_resetSoon soon).trans (enter 3))
    · have held : jtag j s = jtagHeld s := by
        simp only [List.mem_cons, List.not_mem_nil, or_false] at mem
        rcases mem with rfl | rfl | rfl <;> simp [jtag, on]
      exact ⟨jtagHeld s, congrArg Host.Outcome.next held, jtagHeld_of_ne out⟩
  case short => exact congrArg Host.Outcome.next (resetPin_short low s)
  case unpowered => exact congrArg Host.Outcome.next (jtag_unpowered off j)
  case tap =>
    refine ⟨?_, ?_, ?_, fun l => ?_⟩
    all_goals refine congrArg Host.Outcome.next ((if_neg (by simp [on])).trans ?_)
    · rfl
    · rfl
    · exact tapClock_five_high s
    · rfl
  case inReset =>
    refine ⟨fun i mem => ?_, fun n long => ?_, fun straps mv t may => ⟨fun cold => ?_, fun warm => ?_⟩⟩
    · have inert : hostPortStart s = s ∧ bypassOpen s = s := by simp [hostPortStart, bypassOpen, m]
      have timer : startTimer s = s := startTimer_of_ne (by simp [m])
      simp only [List.mem_cons, List.not_mem_nil, or_false] at mem
      rcases mem with rfl | rfl | rfl | rfl | rfl
      · exact congrArg Host.Outcome.next (enterReset_of_reset m 5)
      · exact congrArg Host.Outcome.next timer
      · exact congrArg Host.Outcome.next (hostWdog_of_reset m)
      · exact congrArg Host.Outcome.next inert.1
      · exact congrArg Host.Outcome.next inert.2
    · exact congrArg Host.Outcome.next ((resetPin_long long s).trans (enterReset_of_reset m 2))
    · exact congrArg Host.Outcome.next (resetEnd_of_cold straps mv m may cold)
    · obtain ⟨sampled, latched⟩ := beginBoot_pins straps mv s
      refine ⟨beginBoot straps mv s, congrArg Host.Outcome.next (resetEnd_of_warm straps mv m may warm), rfl, sampled,
        latched, rfl, ?_⟩
      rintro rfl
      exact beginBoot_addr mv s
  case hostPort =>
    have start : hostPortStart s = s.setHost { s.host with live := true } := by simp [hostPortStart, out, kept]
    exact congrArg Host.Outcome.next start
  case bypass =>
    exact congrArg Host.Outcome.next (if_neg out)
  case failed =>
    exact fun fail => ⟨powerOnBist r s, rfl, powerOnBist_safe m first power safe fail⟩
  case passed =>
    intro safety dram factory high steady none_active
    have eq := powerOnBist_of_pass m first power safety dram factory high none_active
    have frame : Keeps [.boot, .ism] (afterBist r s) (chooseBank (afterBist r s)) := chooseBank_keeps (.refl _ _) (by decide)
    obtain ⟨limits, chosen⟩ := chooseBank_boot (s := afterBist r s) (by rw [afterBist_boot]; exact steady)
    refine ⟨chooseBank (afterBist r s), congrArg Host.Outcome.next eq, fun n bad present => ?_, fun e bad => ?_, ?_,
      fun p c lt => ?_, ?_⟩
    · rw [getCore_congr frame.same_sch]
      exact afterBist_core bad present
    · rw [engineUp_congr frame.same_hw (by rw [frame.same_sch]) (by rw [frame.same_sch])]
      exact afterBist_engine bad
    · rw [limits, afterBist_boot]
    · have queues : (chooseBank (afterBist r s)).qm.queues = (afterBist r s).qm.queues := by rw [frame.same_qm]
      rw [getQ_congr queues]
      exact afterBist_queue r s p lt
    · simpa only [afterBist_checkBank, afterBist_mode, m, bankOf, afterBist_boot] using chosen
  case ready =>
    obtain ⟨boot, saf⟩ := bootDone_boot runs m done high power cool
    obtain ⟨mode, armed, was, raised, trial⟩ := readyWrites_boot (p.svn.setWidth 8) (readyState s)
    refine ⟨bootDone s, rfl, ?_, ?_, ?_, ?_, ?_, ?_⟩
    · rw [State.mode, boot]; exact mode
    · rw [boot]; exact armed
    · rw [boot]; exact was
    · rw [boot, raised, BitVec.toNat_setWidth]; rfl
    · rw [saf]; rfl
    · rw [boot]; exact trial

end Sys2Proof.Machine
end

section
/-! What the task store keeps through every operation but a creation and an overrun: no task comes, and the module's
count of overruns stays (R217, R218, R221). A graph cancelled with its up frame, and the packet that the frame completes,
are such operations. -/

namespace Sys2Proof.Machine

/-- From `a` to `b` tasks may leave and change but none comes, and no overrun is counted. -/
def Thins (a b : Sched) : Prop := b.overrun = a.overrun ∧ b.tasks.map Task.id ⊆ a.tasks.map Task.id

theorem Thins.overrun {a b : Sched} (h : Thins a b) : b.overrun = a.overrun := h.1

theorem Thins.ids {a b : Sched} (h : Thins a b) : b.tasks.map Task.id ⊆ a.tasks.map Task.id := h.2

theorem Thins.refl (a : Sched) : Thins a a := .intro rfl (List.Subset.refl _)

theorem Thins.trans {a b c : Sched} (h : Thins a b) (k : Thins b c) : Thins a c :=
  .intro (k.overrun.trans h.overrun) (List.Subset.trans k.ids h.ids)

/-- A change of the scheduler's other fields. -/
theorem Thins.of_same {a b : Sched} (overrun : b.overrun = a.overrun) (tasks : b.tasks = a.tasks) : Thins a b :=
  .intro overrun (by rw [tasks]; exact List.Subset.refl _)

theorem Thins.of_eq {a b : Sched} (h : b = a) : Thins a b := h ▸ .refl a

theorem Thins.of_keeps {L : List Part} {s t : State} (k : Keeps L s t) (out : Part.sch ∉ L) : Thins s.sch t.sch :=
  .of_eq (k.same_sch out)

theorem Thins.foldl {α : Type} {f : State → α → State} (hf : ∀ s a, Thins s.sch (f s a).sch) (l : List α) (s : State) :
    Thins s.sch (l.foldl f s).sch := by
  induction l generalizing s with
  | nil => exact .refl _
  | cons a l ih => exact (hf s a).trans (ih _)

/-- A number that no task has is still free. -/
theorem Thins.no_task {a b : Sched} (h : Thins a b) {id : Nat} (gone : ∀ x ∈ a.tasks, x.id ≠ id) :
    ∀ x ∈ b.tasks, x.id ≠ id := by
  intro x mem
  obtain ⟨y, old, same⟩ := List.mem_map.1 (h.ids (List.mem_map_of_mem mem))
  exact same ▸ gone y old

/-! ### The store and the spill area -/

theorem putTask_thins (t : Task) (s : State) : Thins s.sch (putTask t s).sch := by
  refine .intro rfl ?_
  have ids : (s.sch.tasks.map (fun x => if x.id = t.id then t else x)).map Task.id = s.sch.tasks.map Task.id := by
    rw [List.map_map]
    refine List.map_congr_left fun x _ => ?_
    by_cases h : x.id = t.id <;> simp [h]
  exact ids ▸ List.Subset.refl _

theorem nextOrd_thins (s : State) : Thins s.sch (nextOrd s).sch := .of_same rfl rfl

theorem makeReady_thins (t : Task) (s : State) : Thins s.sch (makeReady t s).sch :=
  (putTask_thins _ s).trans (nextOrd_thins _)

theorem enterStore_thins (t : Task) (s : State) : Thins s.sch (enterStore t s).sch := by
  unfold enterStore
  extract_lets entered drawn
  split
  · exact makeReady_thins entered drawn
  · exact putTask_thins entered drawn

theorem spillOne_thins (s : State) : Thins s.sch (spillOne s).sch := by
  unfold spillOne
  split
  · exact .refl _
  · exact putTask_thins ..

theorem spillDown_thins (lo n : Nat) (s : State) : Thins s.sch (spillDown lo n s).sch := by
  induction n generalizing s with
  | zero => exact .refl _
  | succ n ih =>
    unfold spillDown
    split
    · exact (spillOne_thins s).trans (ih _)
    · exact .refl _

theorem spillCheck_thins (s : State) : Thins s.sch (spillCheck s).sch := by
  unfold spillCheck
  split
  · exact spillDown_thins ..
  · exact .refl _

theorem admitPulled_thins (n : Nat) (s : State) : Thins s.sch (admitPulled n s).sch := by
  induction n generalizing s with
  | zero => exact .refl _
  | succ n ih =>
    unfold admitPulled
    split
    · split
      · exact .refl _
      · exact (enterStore_thins _ s).trans (ih _)
    · exact .refl _

theorem settleStore_thins (s : State) : Thins s.sch (settleStore s).sch :=
  (admitPulled_thins ..).trans (spillCheck_thins _)

theorem pullBack_thins (t : Task) (s : State) : Thins s.sch (pullBack t s).sch := by
  unfold pullBack
  split
  · exact putTask_thins t s
  · extract_lets _ counted put
    have marked : Thins s.sch put.sch := (Thins.of_same (a := s.sch) (b := counted.sch) rfl rfl).trans (putTask_thins t counted)
    split
    · exact marked.trans (enterStore_thins t put)
    · split
      · exact marked.trans ((spillOne_thins put).trans (enterStore_thins t _))
      · exact marked.trans ((putTask_thins _ put).trans (nextOrd_thins _))

theorem takeOperand_thins (t : Task) (k : Nat) (s : State) : Thins s.sch (takeOperand t k s).sch := by
  unfold takeOperand
  extract_lets given
  split
  case h_1 =>
    split
    · exact makeReady_thins given s
    · exact putTask_thins given s
  case h_2 => exact pullBack_thins given s
  case h_3 => exact putTask_thins given s
  case h_4 => exact putTask_thins given s

theorem dataToken_thins (f : Word) (s : State) : Thins s.sch (dataToken f s).sch := by
  unfold dataToken
  split
  · exact (takeOperand_thins _ 1 s).trans (settleStore_thins _)
  · exact .of_same rfl rfl

/-! ### Tasks removed -/

theorem dropTask_thins (id : Nat) (s : State) : Thins s.sch (dropTask id s).sch := by
  unfold dropTask
  split
  · exact .refl _
  · exact .intro rfl (List.map_subset _ List.filter_sublist.subset)

theorem dropTask_no_task (id : Nat) (s : State) : ∀ x ∈ (dropTask id s).sch.tasks, x.id ≠ id := by
  unfold dropTask
  split
  next absent =>
    intro x mem
    simpa using List.find?_eq_none.1 absent x mem
  next =>
    intro x mem
    simpa using (List.mem_filter.1 mem).2

theorem freeExecutor_thins (t : Task) (s : State) : Thins s.sch (freeExecutor t s).sch := by
  unfold freeExecutor
  split
  · exact .of_same rfl rfl
  · split <;> exact .of_same rfl rfl
  · exact .refl _

theorem removeService_thins (t : Task) (s : State) : Thins s.sch (removeService t s).sch :=
  (freeExecutor_thins t s).trans ((dropTask_thins ..).trans (settleStore_thins _))

theorem removeService_no_task (t : Task) (s : State) : ∀ x ∈ (removeService t s).sch.tasks, x.id ≠ t.id :=
  (settleStore_thins _).no_task (dropTask_no_task t.id _)

theorem cancelWhere_thins (p : Task → Bool) (s : State) : Thins s.sch (cancelWhere p s).sch := by
  unfold cancelWhere
  extract_lets gone
  have dropped : Thins s.sch (gone.foldl (fun s t => dropTask t.id s) s).sch :=
    .foldl (fun s t => dropTask_thins t.id s) gone s
  exact dropped.trans (settleStore_thins _)

theorem cancelGraph_thins (t : Task) (s : State) : Thins s.sch (cancelGraph t s).sch := by
  unfold cancelGraph
  split
  · exact cancelWhere_thins ..
  · exact .refl _

/-! ### Packets committed -/

theorem commitToken_thins (q : QueueNo) (s : State) : Thins s.sch (commitToken q s).sch := by
  unfold commitToken
  split
  · exact dataToken_thins ..
  · split
    · exact dataToken_thins ..
    · exact .refl _

theorem linkPkt_thins (q : QueueNo) (p : Packet) (s : State) : Thins s.sch (linkPkt q p s).sch :=
  commitToken_thins q (putQ q _ s)

theorem linkHeld_thins (l : List HeldUnit) (s : State) : Thins s.sch (linkHeld l s).sch := by
  refine Thins.foldl (fun s u => ?_) l s
  split
  · exact linkPkt_thins ..
  · exact .refl _

theorem passQueuePoint_thins (q : QueueNo) (p : Packet) (s : State) : Thins s.sch (passQueuePoint q p s).sch := by
  unfold passQueuePoint
  extract_lets point
  split
  case isFalse => exact linkPkt_thins q p s
  case isTrue =>
    have stepped : Thins s.sch (fiStep point (.packet q p) s).2.sch :=
      .of_keeps (fiStep_keeps (L := [.fi]) (.refl _ s) (by decide)) (by decide)
    split
    next eq =>
      rw [eq] at stepped
      exact stepped.trans (linkPkt_thins ..)
    next u eq =>
      rw [eq] at stepped
      exact stepped.trans
        (.of_keeps (changeQ_keeps (L := [.host, .qm, .ism, .fi]) (.refl _ u) (by decide)) (by decide))
    next n unit recalc u eq =>
      rw [eq] at stepped
      have corrupted : Thins u.sch (corruptPkt point p n unit recalc u).sch :=
        .of_keeps (corruptPkt_keeps (L := [.mem]) (.refl _ u) (by decide)) (by decide)
      exact stepped.trans (corrupted.trans (linkPkt_thins ..))
    next eq =>
      rw [eq] at stepped
      exact stepped
    next eq =>
      rw [eq] at stepped
      exact stepped.trans (linkHeld_thins ..)

theorem commitPkt_thins (m : Master) (q : QueueNo) (len : Nat) (time : W32) (s : State) :
    Thins s.sch (commitPkt m q len time s).sch := by
  unfold commitPkt
  extract_lets p tag first cleared sized timed stamped closed
  have sealing : Keeps [.mem] timed stamped :=
    .foldl (fun _ _ k => stampCell_keeps k (by decide)) (.refl _ timed)
  have clearing : Thins s.sch cleared.sch :=
    .of_keeps (clearTail_keeps (L := [.mem]) (.refl _ s) (by decide)) (by decide)
  have sealed : Thins timed.sch stamped.sch := .of_keeps sealing (by decide)
  have before : Thins s.sch closed.sch := clearing.trans sealed
  exact before.trans (passQueuePoint_thins ..)

theorem closePkt_thins (m : Master) (valid : Nat) (bad : Bool) (time : Option W32) (s : State) :
    Thins s.sch (closePkt m valid bad time s).sch := by
  unfold closePkt
  extract_lets p
  split
  · exact .refl _
  · split
    · exact .of_keeps (rewindPkt_keeps (L := [.host, .qm, .ism, .fi]) (.refl _ s) (by decide)) (by decide)
    · exact commitPkt_thins ..

theorem writePacket_thins (m : Master) (q : QueueNo) (l : List Byte) (tag : W32) (time : Option W32) (bad : Bool)
    (s : State) : Thins s.sch (writePacket m q l tag time bad s).sch := by
  unfold writePacket
  extract_lets _ tagged opened words filled
  have opening : Keeps parts07 tagged opened := openPkt_keeps (.refl _ tagged) (by decide)
  split
  · have filling : Keeps parts07 tagged filled := .foldl (fun _ _ k => dataWrite_keeps k (by decide)) opening
    have before : Thins tagged.sch filled.sch := .of_keeps filling (by decide)
    exact Thins.trans (a := s.sch) before (closePkt_thins ..)
  · exact (Thins.of_keeps opening (by decide) : Thins tagged.sch opened.sch)

/-! ### The up frame of a graph that is lost (R36, R221) -/

theorem writeRtp_thins (m : Master) (x : Chan) (marker : Bool) (pt : Nat) (ts : W32) (payload : List Byte) (tag : W32)
    (s : State) : Thins s.sch (writeRtp m x marker pt ts payload tag s).sch :=
  writePacket_thins (s := s) ..

theorem sendEvent_thins (m : Master) (c : ChanNo) (marker fin : Bool) (s : State) :
    Thins s.sch (sendEvent m c marker fin s).sch := by
  unfold sendEvent
  split
  · exact .refl _
  · split
    · exact .refl _
    · split
      · exact writeRtp_thins ..
      · exact .refl _

theorem dtmfTick_thins (m : Master) (c : ChanNo) (s : State) : Thins s.sch (dtmfTick m c s).sch := by
  unfold dtmfTick
  split
  · exact .refl _
  · split
    · exact .refl _
    · extract_lets counted
      split
      · exact sendEvent_thins m c false false counted
      · exact .refl _

theorem sendRun_thins (m : Master) (c : ChanNo) (ts : W32) (l : List UpFrame) (r : VoiceRun) (s : State) :
    Thins s.sch (sendRun m c ts l r s).sch := by
  unfold sendRun
  split
  · exact .refl _
  · exact writeRtp_thins (s := s.drawN 2) ..

theorem sendFrames_thins (m : Master) (x : Chan) (l : List UpFrame) (s : State) :
    Thins s.sch (sendFrames m x l s).sch := by
  unfold sendFrames
  split
  · exact Thins.foldl (fun s r => sendRun_thins m x.no x.rtpTs l r s) _ s
  · split
    · exact .refl _
    · exact writeRtp_thins (s := s.draw) ..

theorem buildPacket_thins (m : Master) (c : ChanNo) (s : State) : Thins s.sch (buildPacket m c s).sch := by
  unfold buildPacket
  split
  · exact .refl _
  next x _ =>
    split
    · exact .refl _
    next l _ =>
      have sent : Thins s.sch (if x.inService then sendFrames m x l s else s).sch := by
        split
        · exact sendFrames_thins ..
        · exact .refl _
      exact sent

theorem faxPacket_thins (m : Master) (c : ChanNo) (u : UpFrame) (s : State) : Thins s.sch (faxPacket m c u s).sch := by
  unfold faxPacket
  split
  · exact .refl _
  · split
    · exact .refl _
    · exact writePacket_thins (s := s) ..

theorem placeUp_thins (m : Master) (c : ChanNo) (u : UpFrame) (s : State) : Thins s.sch (placeUp m c u s).sch := by
  unfold placeUp
  extract_lets recorded
  split
  · exact faxPacket_thins m c u recorded
  · exact (dtmfTick_thins m c recorded).trans
      (buildPacket_thins m c (modChan c (fun y => { y with packed := y.packed ++ [u] }) (dtmfTick m c recorded)))

theorem settleUp_thins (c : ChanNo) (seq : Word) (s : State) : Thins s.sch (settleUp c seq s).sch := by
  unfold settleUp
  split
  · exact .refl _
  · split
    · unfold placeConcealed
      split
      · exact .refl _
      · exact placeUp_thins (s := s.draw) ..
    · exact .refl _

/-- A lost graph takes tasks away and counts no overrun, whatever its up frame completes (R221). -/
theorem loseGraph_thins (t : Task) (s : State) : Thins s.sch (loseGraph t s).sch := by
  unfold loseGraph
  extract_lets cancelled
  have graph : Thins s.sch cancelled.sch := cancelGraph_thins t s
  split
  · exact graph.trans (settleUp_thins ..)
  · exact graph

end Sys2Proof.Machine
end

section
/-! Dispatch and budgets (R207, R221, R287): the executor's choice enters service, and a task at its budget leaves the
scheduler with one overrun counted. -/

namespace Sys2Proof.Machine

/-! ### The choice of an executor (R207) -/

theorem mem_of_minBy {α : Type} {f : α → Nat} {l : List α} {a : α} (h : minBy f l = some a) : a ∈ l := by
  induction l generalizing a with
  | nil => cases h
  | cons b l ih =>
    unfold minBy at h
    split at h
    · exact Option.some.inj h ▸ List.mem_cons_self
    next c rest =>
      split at h
      · exact Option.some.inj h ▸ List.mem_cons_of_mem _ (ih rest)
      · exact Option.some.inj h ▸ List.mem_cons_self

theorem mem_of_chooseAt {s : State} {x : Executor} {l : Nat} {t : Task} (h : chooseAt s x l = some t) :
    t ∈ s.sch.tasks := by
  rcases level : levelWord s l with ⟨affinity, wait⟩
  simp only [chooseAt, level] at h
  have mem := mem_of_minBy h
  cases x with
  | vc n =>
    cases affinity with
    | true => exact (List.mem_filter.1 (List.mem_filter.1 mem).1).1
    | false => exact (List.mem_filter.1 mem).1
  | te e => exact (List.mem_filter.1 mem).1

theorem mem_of_chooseTask {s : State} {x : Executor} {t : Task} (h : chooseTask s x = some t) : t ∈ s.sch.tasks :=
  have ⟨_, _, chosen⟩ := List.exists_of_findSome?_eq_some h
  mem_of_chooseAt chosen

theorem execDispatch_of_none {s : State} {x : Executor} (h : executorIdle s x = false ∨ chooseTask s x = none) :
    execDispatch x s = .next s := by
  rcases h with busy | empty
  · simp [execDispatch, busy]
  · simp [execDispatch, empty]

theorem execDispatch_core {s : State} {n : CoreNo} {t : Task} (idle : executorIdle s (.vc n) = true)
    (chosen : chooseTask s (.vc n) = some t) : execDispatch (.vc n) s = .next (beginCore n t s) := by
  simp only [execDispatch, idle, chosen, if_true]

theorem execDispatch_engine {s : State} {e : BitVec 1} {t : Task} (idle : executorIdle s (.te e) = true)
    (chosen : chooseTask s (.te e) = some t) : execDispatch (.te e) s = .next (beginEngine e t s) := by
  simp only [execDispatch, idle, chosen, if_true]

/-! ### A task enters service on a voice core (R287, Table 10-9) -/

theorem findTask_putTask_self {s : State} {t : Task} (h : ∃ x ∈ s.sch.tasks, x.id = t.id) :
    findTask (putTask t s) t.id = some t := by
  change (s.sch.tasks.map (fun x => if x.id = t.id then t else x)).find? (fun x => x.id = t.id) = some t
  generalize s.sch.tasks = l at h
  induction l with
  | nil => simp at h
  | cons a l ih =>
    by_cases here : a.id = t.id
    · simp [here]
    · have rest : ∃ x ∈ l, x.id = t.id := by simpa [here] using h
      simpa [here] using ih rest

theorem findTask_congr {s t : State} (h : t.sch.tasks = s.sch.tasks) : findTask t = findTask s := by
  funext id
  rw [findTask, findTask, h]

theorem serving_congr {s t : State} (h : t.sch = s.sch) (x : Executor) : serving t x = serving s x := by
  cases x <;> simp [serving, getCore, h, findTask_congr (s := s) (t := t) (by rw [h])]

theorem serving_startService {s : State} {t : Task} (n : CoreNo) (known : t ∈ s.sch.tasks) :
    serving (startService t (.vc n) s) (.vc n) = some { t with st := .service, exec := some (.vc n) } := by
  let placed := putTask { t with st := .service, exec := some (.vc n) } s
  have busy : (getCore (startService t (.vc n) s) n).busy = some t.id :=
    (congrArg CoreSt.busy (getCore_putCore n n _ placed)).trans (by rw [if_pos rfl])
  have found : findTask (startService t (.vc n) s) t.id = findTask placed t.id :=
    congrFun (findTask_congr rfl) _
  rw [serving, busy, Option.bind_some, found]
  exact findTask_putTask_self (t := { t with st := .service, exec := some (.vc n) }) ⟨t, known, rfl⟩

theorem getVc_putVc_self (n : CoreNo) (c : Core) (s : State) : getVc (putVc n c s) n = c :=
  (alGet_alSet ..).trans (if_pos rfl)

/-- The core is started in a state that differs from the scheduler's dispatch by the block in its memory alone. -/
theorem beginCore_eq (n : CoreNo) (t : Task) (s : State) : ∃ u, u.sch = (startService t (.vc n) s).sch ∧
    beginCore n t s = State.drawN 110 (putVc n (dispatchCore u t.cls.toNat) u) := by
  unfold beginCore
  extract_lets served written
  have block : Keeps [.mem] served written := .foldl (fun _ _ k => putX_keeps k (by decide)) (.refl _ served)
  exact ⟨written, block.same_sch (by decide), rfl⟩

theorem beginCore_serving {s : State} {t : Task} (n : CoreNo) (known : t ∈ s.sch.tasks) :
    serving (beginCore n t s) (.vc n) = some { t with st := .service, exec := some (.vc n) } := by
  obtain ⟨u, same, eq⟩ := beginCore_eq n t s
  have sch : (beginCore n t s).sch = (startService t (.vc n) s).sch := by
    rw [eq]
    exact same
  rw [serving_congr sch]
  exact serving_startService n known

theorem beginCore_pc (n : CoreNo) (t : Task) (s : State) :
    (getVc (beginCore n t s) n).pc = classEntry s t.cls.toNat := by
  obtain ⟨u, same, eq⟩ := beginCore_eq n t s
  have pc : (getVc (beginCore n t s) n).pc = classEntry u t.cls.toNat := by
    rw [eq]
    exact congrArg Core.pc (getVc_putVc_self n _ u)
  have classes : u.sch.classes = s.sch.classes := (congrArg Sched.classes same :)
  rw [pc, classEntry, classEntry, classes]

/-! ### Budgets (R221) -/

theorem countOverrun_overrun (k : BitVec 6) (s : State) :
    (countOverrun k s).sch.overrun = satAdd s.sch.overrun 1 := by
  unfold countOverrun
  extract_lets n
  split
  · split <;> rfl
  · rfl

/-- An abort frees the task's number and counts one overrun, whatever goes with its graph. -/
theorem abortService_effect (t : Task) (s : State) :
    (abortService t s).sch.overrun = satAdd s.sch.overrun 1 ∧ ∀ x ∈ (abortService t s).sch.tasks, x.id ≠ t.id := by
  let removed := removeService t (countOverrun t.cls (loseGraph t s))
  have sch : (abortService t s).sch = removed.sch := by
    unfold abortService
    split <;> rfl
  have overrun : removed.sch.overrun = satAdd s.sch.overrun 1 := by
    rw [(removeService_thins ..).overrun, countOverrun_overrun, (loseGraph_thins t s).overrun]
  rw [sch]
  exact ⟨overrun, removeService_no_task t _⟩

/-- A core's fault is an abort after the record, which leaves the count of overruns alone. -/
theorem coreFault_eq {s : State} {n : CoreNo} {t : Task} (h : serving s (.vc n) = some t) (code : Nat) :
    ∃ u, u.sch.overrun = s.sch.overrun ∧ coreFault n code s = abortService t u := by
  unfold coreFault
  split
  next stopped => exact absurd (stopped.symm.trans h) nofun
  next found =>
    obtain rfl := Option.some.inj (found.symm.trans h)
    extract_lets words _ counted written traced
    have writing : Keeps [.mem, .fi] counted written := .foldl (fun _ _ k => putX_keeps k (by decide)) (.refl _ counted)
    have tracing : Keeps [.mem, .fi] counted traced := traceRecord_keeps writing (by decide)
    exact ⟨traced, (congrArg Sched.overrun (tracing.same_sch (by decide)) :), rfl⟩

theorem budgetExceeded_effect {s : State} {x : Executor} {t : Task} (h : serving s x = some t) :
    (budgetExceeded x s).sch.overrun = satAdd s.sch.overrun 1 ∧
      ∀ y ∈ (budgetExceeded x s).sch.tasks, y.id ≠ t.id := by
  cases x with
  | vc n =>
    obtain ⟨u, same, eq⟩ := coreFault_eq h 9
    have fault : budgetExceeded (.vc n) s = abortService t u := eq
    rw [fault, ← same]
    exact abortService_effect t u
  | te e =>
    have abort : budgetExceeded (.te e) s = abortService t s := by simp [budgetExceeded, h]
    rw [abort]
    exact abortService_effect t s

end Sys2Proof.Machine
end

section
/-! Operating points and drained cores (R106-R108, R223), and with them the statement on executors and points. -/

namespace Sys2Proof.Machine

/-! ### Operating points (R106-R108) -/

section
variable {α : Type} (no : α → CoreNo) (f : α → CoreSt → CoreSt)

/-- A core that no change of the list names stays as it is. -/
theorem getCore_putCores_of_not_mem {l : List α} {n : CoreNo} (out : n ∉ l.map no) (s : State) :
    getCore (l.foldl (fun s a => putCore (no a) (f a (getCore s (no a))) s) s) n = getCore s n := by
  induction l generalizing s with
  | nil => rfl
  | cons a l ih =>
    obtain ⟨other, rest⟩ : n ≠ no a ∧ n ∉ l.map no := by simpa using out
    rw [List.foldl_cons, ih rest, getCore_putCore, if_neg other]

/-- A list that names no core twice changes each core that it names once. -/
theorem getCore_putCores_of_mem {l : List α} (once : (l.map no).Nodup) {a : α} (mem : a ∈ l) (s : State) :
    getCore (l.foldl (fun s a => putCore (no a) (f a (getCore s (no a))) s) s) (no a) = f a (getCore s (no a)) := by
  induction l generalizing s with
  | nil => cases mem
  | cons b l ih =>
    obtain ⟨first, rest⟩ : no b ∉ l.map no ∧ (l.map no).Nodup := List.nodup_cons.1 once
    rw [List.foldl_cons]
    rcases List.mem_cons.1 mem with rfl | later
    · rw [getCore_putCores_of_not_mem no f first, getCore_putCore, if_pos rfl]
    · have other : no a ≠ no b := fun same => first (same ▸ List.mem_map_of_mem later)
      rw [ih rest later, getCore_putCore, if_neg other]

end

theorem coreCount_le (s : State) : coreCount s ≤ 128 := by
  unfold coreCount channelLimit
  split <;> decide

/-- The numbers of the participating cores differ. -/
theorem participating_nodup (s : State) : (participating s).Nodup := by
  refine List.Pairwise.filter _ (List.pairwise_map.2 (List.nodup_range.imp_of_mem fun hi hj ne same => ne ?_))
  have count := coreCount_le s
  have numbers := congrArg BitVec.toNat same
  rw [List.mem_range] at hi hj
  simp only [BitVec.toNat_ofNat] at numbers
  omega

theorem applyPoint_of_idle (p : Point) {c : CoreSt} (idle : c.busy = none) : (applyPoint true p c).point = p := by
  simp only [applyPoint, idle, Option.isNone_none, Bool.and_self, if_true]
  split <;> rfl

/-- At the boundary an idle core has the point that the procedure gives its place in the order (R107, R108). -/
theorem pointProcedure_point {s : State} {k : Nat} {n : CoreNo} (place : (participating s)[k]? = some n)
    (idle : (getCore s n).busy = none) :
    (getCore (pointProcedure true s) n).point = pointOf (participating s).length (pointTarget s) k := by
  have once : ((participating s).zipIdx.map Prod.fst).Nodup := by
    rw [List.zipIdx_map_fst]
    exact participating_nodup s
  have mem : (n, k) ∈ (participating s).zipIdx := List.mk_mem_zipIdx_iff_getElem?.2 place
  have core := getCore_putCores_of_mem Prod.fst
    (fun e c => applyPoint true (pointOf (participating s).length (pointTarget s) e.2) c) once mem s
  exact (congrArg CoreSt.point core).trans (applyPoint_of_idle _ idle)

theorem execPointChange_of_withdrawn {s : State} {n : CoreNo} (gone : (getCore s n).withdrawn = true) :
    execPointChange n s = .next s := by
  simp [execPointChange, gone]

theorem execPointChange_of_idle {s : State} {n : CoreNo} (present : corePresent s n = true)
    (idle : (getCore s n).busy = none) (pool : (getCore s n).withdrawn = false) :
    execPointChange n s = .next (putCore n { getCore s n with point := (getCore s n).target } s) := by
  simp [execPointChange, present, idle, pool]

/-! ### Drained cores (R223) -/

theorem bistStart_of_idle {s : State} {n : CoreNo} (drains : (getCore s n).draining = true)
    (idle : (getCore s n).busy = none) : bistStart n s = putCore n { getCore s n with draining := false } s := by
  simp [bistStart, drains, idle]

/-- The next drain request withdraws no core and brings none back. -/
theorem nextDrain_withdrawn (s : State) (n : CoreNo) :
    (getCore (nextDrain s) n).withdrawn = (getCore s n).withdrawn := by
  unfold nextDrain
  split
  · split
    · rfl
    next m _ _ =>
      extract_lets _ taken
      rw [pointsChanged_withdrawn, getCore_putCore]
      split
      next here => rw [here]; rfl
      next => rfl
  · rfl

theorem withdrawCore_withdrawn {s : State} {n : CoreNo} (present : corePresent s n = true) :
    (getCore (withdrawCore n s) n).withdrawn = true := by
  unfold withdrawCore
  split
  next stays => simpa [present] using stays
  next =>
    extract_lets before lost c out reported
    have gone : (getCore out n).withdrawn = true := by rw [getCore_putCore, if_pos rfl]
    have report : Keeps [.led, .host, .ism, .fi] out reported :=
      powerReport_keeps (checkCeilings_keeps (.refl _ out) (by decide)) (by decide)
    have degraded : Keeps [.boot] (nextDrain (pointsChanged reported)) (degrade (nextDrain (pointsChanged reported))) :=
      degrade_keeps (.refl _ _) (by decide)
    rw [getCore_congr (degraded.same_sch (by decide)), nextDrain_withdrawn, pointsChanged_withdrawn,
      getCore_congr (report.same_sch (by decide)), gone]

/-- With no work under way no self-test takes a result. -/
theorem noteUnit_of_no_work {s : State} (h : s.cmds.works = []) (t n : Nat) (pass : Bool) : noteUnit t n pass s = s := by
  simp [noteUnit, findWork, h]

section
variable {s : State} {n : CoreNo} (drained : (getCore s n).drained = true) (ended : (getCore s n).draining = false)
include drained ended

theorem execCoreBistDone_of_drained (pass : Bool) :
    execCoreBistDone n pass s = .next (noteUnit 1 n.toNat pass
      (if pass then nextDrain (pointsChanged (putCore n { getCore s n with drained := false } s)) else withdrawCore n s)) := by
  simp [execCoreBistDone, bistRuns, bistDone, drained, ended]

theorem execCoreBistDone_good (quiet : s.cmds.works = []) :
    execCoreBistDone n true s =
      .next (nextDrain (pointsChanged (putCore n { getCore s n with drained := false } s))) := by
  let back := putCore n { getCore s n with drained := false } s
  have kept : Keeps [.sch] back (nextDrain (pointsChanged back)) :=
    nextDrain_keeps (pointsChanged_keeps (.refl _ back) (by decide)) (by decide)
  have cmds : (nextDrain (pointsChanged back)).cmds = s.cmds := kept.frame .cmds (by decide)
  rw [execCoreBistDone_of_drained drained ended, if_pos rfl, noteUnit_of_no_work (cmds ▸ quiet)]

theorem execCoreBistDone_bad (present : corePresent s n = true) :
    ∃ u, execCoreBistDone n false s = .next u ∧ (getCore u n).withdrawn = true := by
  have noted : Keeps [.cmds] (withdrawCore n s) (noteUnit 1 n.toNat false (withdrawCore n s)) :=
    noteUnit_keeps (.refl _ _) (by decide)
  refine ⟨_, execCoreBistDone_of_drained drained ended false, ?_⟩
  rw [if_neg Bool.false_ne_true, getCore_congr (noted.same_sch (by decide))]
  exact withdrawCore_withdrawn present

end

/-! ### The statement -/

/-- Settles O36: each row's arm is one of the operations above. That the rows of dispatch and budget act when their
command comes, and that POINT_PROCEDURE moves time on to the 5 ms boundary, is the model's choice (log entry 7). -/
theorem executorsAndPoints : Obligations.ExecutorsAndPoints := by
  intro s
  refine ⟨fun x t idle chosen => ?taken, fun n t _ chosen => ?served, fun x stays => execDispatch_of_none stays,
    fun x t serves => ⟨budgetExceeded x s, rfl, budgetExceeded_effect serves⟩,
    ⟨pointProcedure true (moveTo (nextEdge 5000000 s.tim) s), rfl,
      fun k n place idle => pointProcedure_point place idle⟩,
    fun n => ⟨fun gone => execPointChange_of_withdrawn gone,
      fun present idle pool => execPointChange_of_idle present idle pool,
      fun drains idle => congrArg Host.Outcome.next (bistStart_of_idle drains idle),
      fun drained ended quiet => ⟨execCoreBistDone_good drained ended quiet, execCoreBistDone_bad drained ended⟩⟩⟩
  case taken =>
    cases x with
    | vc n => exact execDispatch_core idle chosen
    | te e => exact execDispatch_engine idle chosen
  case served =>
    have known : t ∈ s.sch.tasks := mem_of_chooseTask chosen
    exact ⟨beginCore_serving n known, beginCore_pc n t s⟩

end Sys2Proof.Machine
end

section
/-! What a command and a step keep, from what each operation keeps (Laws/Keeps*.lean): a command changes only the parts
that `mayTouch` names for it, and a step only the parts of the command that it takes, or those that passing time may. -/

namespace Sys2Proof.Machine

-- one theorem at a time: each proof in parallel takes a thread's stack of the memory that check.sh allows
set_option Elab.async false

/-! ### A command -/

/-- Each operation's own law, for the parts that `mayTouch` names. -/
theorem exec_keeps (c : Instr) (s : State) : KeepsN (mayTouch c) s (exec c s) := by
  have start : Keeps (mayTouch c) s s := .refl _ s
  cases c with
  | identify => exact execIdentify_keeps start rfl
  | getStatus => exact execGetStatus_keeps start rfl
  | setState => exact execSetState_keeps start rfl
  | resetCmd => exact execResetCmd_keeps start rfl
  | getVersions => exact execGetVersions_keeps start rfl
  | imgBegin => exact execImgBegin_keeps start rfl
  | imgData => exact execImgData_keeps start rfl
  | imgCommit => exact execImgCommit_keeps start rfl
  | imgSelect => exact execImgSelect_keeps start rfl
  | chCreate => exact execChCreate_keeps start rfl
  | chModify => exact execChModify_keeps start rfl
  | chDelete => exact execChDelete_keeps start rfl
  | chQuery => exact execChQuery_keeps start rfl
  | chStats => exact execChStats_keeps start rfl
  | chKeys => exact execChKeys_keeps start rfl
  | portCfg => exact execPortCfg_keeps start rfl
  | vlanCfg => exact execVlanCfg_keeps start rfl
  | classCfg => exact execClassCfg_keeps start rfl
  | hwyCfg => exact execHwyCfg_keeps start rfl
  | slotMap => exact execSlotMap_keeps start rfl
  | ptpCfg => exact execPtpCfg_keeps start rfl
  | servoCfg => exact execServoCfg_keeps start rfl
  | probeCfg => exact execProbeCfg_keeps start rfl
  | probeRead => exact execProbeRead_keeps start rfl
  | search => exact execSearch_keeps start rfl
  | assign => exact execAssign_keeps start rfl
  | forward => exact execForward_keeps start rfl
  | topoRead => exact execTopoRead_keeps start rfl
  | safeCfg => exact execSafeCfg_keeps start rfl
  | safeQuery => exact execSafeQuery_keeps start rfl
  | proofTest => exact execProofTest_keeps start rfl
  | calRun => exact execCalRun_keeps start rfl
  | calRestoreFactory => exact execCalRestoreFactory_keeps start rfl
  | calRead => exact execCalRead_keeps start rfl
  | selftest => exact execSelftest_keeps start rfl
  | fiArm => exact execFiArm_keeps start rfl
  | fiDisarm => exact execFiDisarm_keeps start rfl
  | fiRead => exact execFiRead_keeps start rfl
  | uartCfg => exact execUartCfg_keeps start rfl
  | taskLoad => exact execTaskLoad_keeps start rfl
  | modelLoad => exact execModelLoad_keeps start rfl
  | unknownOpcode => exact execUnknownOpcode_keeps start rfl
  | calDone => exact execCalDone_keeps start rfl
  | commandComplete => exact execCommandComplete_keeps start rfl
  | frameTransmitDone => exact execFrameTransmitDone_keeps start rfl
  | highwayFrame => exact execHighwayFrame_keeps start rfl
  | transceiverInserted => exact execTransceiverInserted_keeps start rfl
  | collision => exact execCollision_keeps start rfl
  | registerWrite => exact execRegisterWrite_keeps start rfl
  | readClear => exact execReadClear_keeps start rfl
  | hkey => exact execHkey_keeps start rfl
  | cmdFifo => exact execCmdFifo_keeps start rfl
  | apertureWrite => exact execApertureWrite_keeps start rfl
  | srcPref => exact execSrcPref_keeps start rfl
  | hwdogSet => exact execHwdogSet_keeps start rfl
  | create => exact execCreate_keeps start rfl
  | token => exact execToken_keeps start rfl
  | almanac => exact execAlmanac_keeps start rfl
  | setLevel => exact execSetLevel_keeps start rfl
  | reserve => exact execReserve_keeps start rfl
  | cancel => exact execCancel_keeps start rfl
  | spillHiWrite => exact execSpillHiWrite_keeps start rfl
  | almanacListWrite => exact execAlmanacListWrite_keeps start rfl
  | almanacFire => exact execAlmanacFire_keeps start rfl
  | frameTick => exact execFrameTick_keeps start rfl
  | graphRetry => exact execGraphRetry_keeps start rfl
  | dispatch => exact execDispatch_keeps start rfl
  | budgetExceeded => exact execBudgetExceeded_keeps start rfl
  | pointProcedure => exact execPointProcedure_keeps start rfl
  | pointChange => exact execPointChange_keeps start rfl
  | coreBistStart => exact execCoreBistStart_keeps start rfl
  | coreBistDone => exact execCoreBistDone_keeps start rfl
  | openPkt => exact execOpenPkt_keeps start rfl
  | producerData => exact execProducerData_keeps start rfl
  | closePkt => exact execClosePkt_keeps start rfl
  | selectQ => exact execSelectQ_keeps start rfl
  | consumerData => exact execConsumerData_keeps start rfl
  | releasePkt => exact execReleasePkt_keeps start rfl
  | qflush => exact execQflush_keeps start rfl
  | cellReturn => exact execCellReturn_keeps start rfl
  | descriptorEnable => exact execDescriptorEnable_keeps start rfl
  | watermarkWrite => exact execWatermarkWrite_keeps start rfl
  | stale => exact execStale_keeps start rfl
  | branch => exact execBranch_keeps start rfl
  | dbnz => exact execDbnz_keeps start rfl
  | call => exact execCall_keeps start rfl
  | ret => exact execRet_keeps start rfl
  | loopOp => exact execLoopOp_keeps start rfl
  | modeOp => exact execModeOp_keeps start rfl
  | endTask => exact execEndTask_keeps start rfl
  | swi => exact execSwi_keeps start rfl
  | rti => exact execRti_keeps start rfl
  | dma => exact execDma_keeps start rfl
  | waitd => exact execWaitd_keeps start rfl
  | xld => exact execXld_keeps start rfl
  | xst => exact execXst_keeps start rfl
  | timeOp => exact execTimeOp_keeps start rfl
  | pld => exact execPld_keeps start rfl
  | fmac => exact execFmac_keeps start rfl
  | fmsub => exact execFmsub_keeps start rfl
  | fmul => exact execFmul_keeps start rfl
  | fadd => exact execFadd_keeps start rfl
  | fsub => exact execFsub_keeps start rfl
  | fmin => exact execFmin_keeps start rfl
  | fmax => exact execFmax_keeps start rfl
  | fabs => exact execFabs_keeps start rfl
  | fneg => exact execFneg_keeps start rfl
  | fcvt => exact execFcvt_keeps start rfl
  | fmovi => exact execFmovi_keeps start rfl
  | integerOp => exact execIntegerOp_keeps start rfl
  | movc => exact execMovc_keeps start rfl
  | fcmp => exact execFcmp_keeps start rfl
  | acs4 => exact execAcs4_keeps start rfl
  | acsstg => exact execAcsstg_keeps start rfl
  | movtb => exact execMovtb_keeps start rfl
  | loadOp => exact execLoadOp_keeps start rfl
  | storeOp => exact execStoreOp_keeps start rfl
  | bwarn => exact execBwarn_keeps start rfl
  | dmaDone => exact execDmaDone_keeps start rfl
  | interruptEntry => exact execInterruptEntry_keeps start rfl
  | gemm => exact execGemm_keeps start rfl
  | gemmAcc => exact execGemmAcc_keeps start rfl
  | ewMul => exact execEwMul_keeps start rfl
  | ewAdd => exact execEwAdd_keeps start rfl
  | act => exact execAct_keeps start rfl
  | testVectors => exact execTestVectors_keeps start rfl
  | playout => exact execPlayout_keeps start rfl
  | egressTransmit => exact execEgressTransmit_keeps start rfl
  | shedding => exact execShedding_keeps start rfl
  | sourceLost => exact execSourceLost_keeps start rfl
  | inputReturn => exact execInputReturn_keeps start rfl
  | sourceValid => exact execSourceValid_keeps start rfl
  | pwrfail => exact execPwrfail_keeps start rfl
  | brownOut => exact execBrownOut_keeps start rfl
  | powerGuard => exact execPowerGuard_keeps start rfl
  | tempSample => exact execTempSample_keeps start rfl
  | resetPin => exact execResetPin_keeps start rfl
  | resetEnd => exact execResetEnd_keeps start rfl
  | powerOnBist => exact execPowerOnBist_keeps start rfl
  | bootDone => exact execBootDone_keeps start rfl
  | startTimer => exact execStartTimer_keeps start rfl
  | vigilWdog => exact execVigilWdog_keeps start rfl
  | hwdogHalf => exact execHwdogHalf_keeps start rfl
  | hostWdog => exact execHostWdog_keeps start rfl
  | jtagInstruction => exact execJtagInstruction_keeps start rfl
  | unlockToken => exact execUnlockToken_keeps start rfl
  | vioOut => exact execVioOut_keeps start rfl
  | vioRestored => exact execVioRestored_keeps start rfl
  | vioLatch => exact execVioLatch_keeps start rfl
  | clockLost => exact execClockLost_keeps start rfl
  | refinLost => exact execRefinLost_keeps start rfl
  | refinAccepted => exact execRefinAccepted_keeps start rfl
  | highwayAligned => exact execHighwayAligned_keeps start rfl
  | alignmentLoss => exact execAlignmentLoss_keeps start rfl
  | highwayConfigApply => exact execHighwayConfigApply_keeps start rfl
  | slip => exact execSlip_keeps start rfl
  | transceiverRemoved => exact execTransceiverRemoved_keeps start rfl
  | ethPortDown => exact execEthPortDown_keeps start rfl
  | ethPortUp => exact execEthPortUp_keeps start rfl
  | frameReceive => exact execFrameReceive_keeps start rfl
  | macAgeing => exact execMacAgeing_keeps start rfl
  | neighbourRetry => exact execNeighbourRetry_keeps start rfl
  | neighbourRefresh => exact execNeighbourRefresh_keeps start rfl
  | routerCommit => exact execRouterCommit_keeps start rfl
  | senderReport => exact execSenderReport_keeps start rfl
  | keysTimeout => exact execKeysTimeout_keeps start rfl
  | oldContextExpiry => exact execOldContextExpiry_keeps start rfl
  | ppsInEdge => exact execPpsInEdge_keeps start rfl
  | holdoverEntry => exact execHoldoverEntry_keeps start rfl
  | ptpMessage => exact execPtpMessage_keeps start rfl
  | ptpTransmit => exact execPtpTransmit_keeps start rfl
  | timeHalf => exact execTimeHalf_keeps start rfl
  | probeEvent => exact execProbeEvent_keeps start rfl
  | probeMark => exact execProbeMark_keeps start rfl
  | link => exact execLink_keeps start rfl
  | linkDown => exact execLinkDown_keeps start rfl
  | ack => exact execAck_keeps start rfl
  | ackTimeout => exact execAckTimeout_keeps start rfl
  | heartbeat => exact execHeartbeat_keeps start rfl
  | heartbeatSend => exact execHeartbeatSend_keeps start rfl
  | hbTimeout => exact execHbTimeout_keeps start rfl
  | summitLost => exact execSummitLost_keeps start rfl
  | syncSend => exact execSyncSend_keeps start rfl
  | sync => exact execSync_keeps start rfl
  | delayReq => exact execDelayReq_keeps start rfl
  | delayResp => exact execDelayResp_keeps start rfl
  | searchBegin => exact execSearchBegin_keeps start rfl
  | query => exact execQuery_keeps start rfl
  | claim => exact execClaim_keeps start rfl
  | mark => exact execMark_keeps start rfl
  | searchEnd => exact execSearchEnd_keeps start rfl
  | searchReply => exact execSearchReply_keeps start rfl
  | searchReplyTimeout => exact execSearchReplyTimeout_keeps start rfl
  | address => exact execAddress_keeps start rfl
  | mgmtReq => exact execMgmtReq_keeps start rfl
  | mgmtRsp => exact execMgmtRsp_keeps start rfl
  | forwardTimeout => exact execForwardTimeout_keeps start rfl
  | event => exact execEvent_keeps start rfl
  | attach => exact execAttach_keeps start rfl
  | loss => exact execLoss_keeps start rfl
  | lossPing => exact execLossPing_keeps start rfl
  | move => exact execMove_keeps start rfl
  | hbLoss => exact execHbLoss_keeps start rfl
  | missed => exact execMissed_keeps start rfl
  | addrAck => exact execAddrAck_keeps start rfl
  | conflict => exact execConflict_keeps start rfl
  | autoSearchStart => exact execAutoSearchStart_keeps start rfl
  | ping => exact execPing_keeps start rfl
  | pingReply => exact execPingReply_keeps start rfl
  | pingTimeout => exact execPingTimeout_keeps start rfl
  | bcast => exact execBcast_keeps start rfl
  | bcastReply => exact execBcastReply_keeps start rfl
  | bcastDeadline => exact execBcastDeadline_keeps start rfl
  | comparatorTest => exact execComparatorTest_keeps start rfl
  | checkerTest => exact execCheckerTest_keeps start rfl
  | scrub => exact execScrub_keeps start rfl
  | lockstepMismatch => exact execLockstepMismatch_keeps start rfl
  | eccUncorrectable => exact execEccUncorrectable_keeps start rfl
  | voltage => exact execVoltage_keeps start rfl
  | dieTemp => exact execDieTemp_keeps start rfl
  | quietPoint => exact execQuietPoint_keeps start rfl
  | marchRound => exact execMarchRound_keeps start rfl
  | reorderTimeout => exact execReorderTimeout_keeps start rfl
  | traceSegment => exact execTraceSegment_keeps start rfl
  | prod => exact execProd_keeps start rfl
  | abort => exact execAbort_keeps start rfl
  | deflateJob => exact execDeflateJob_keeps start rfl
  | uartDataWrite => exact execUartDataWrite_keeps start rfl
  | uartDataRead => exact execUartDataRead_keeps start rfl
  | brk => exact execBrk_keeps start rfl
  | rst => exact execRst_keeps start rfl
  | clken => exact execClken_keeps start rfl
  | txflush => exact execTxflush_keeps start rfl
  | rxflush => exact execRxflush_keeps start rfl
  | characterReceived => exact execCharacterReceived_keeps start rfl
  | characterSent => exact execCharacterSent_keeps start rfl
  | deTail => exact execDeTail_keeps start rfl
  | cmdClear => exact execCmdClear_keeps start rfl
  | rspFifo => exact execRspFifo_keeps start rfl
  | removeHeadResponse => exact execRemoveHeadResponse_keeps start rfl
  | evtFifo => exact execEvtFifo_keeps start rfl
  | apertureRead => exact execApertureRead_keeps start rfl
  | time0Read => exact execTime0Read_keeps start rfl
  | safeCtlClear => exact execSafeCtlClear_keeps start rfl
  | safeCtlEnter => exact execSafeCtlEnter_keeps start rfl
  | switchBank => exact execSwitchBank_keeps start rfl
  | hwdogKick => exact execHwdogKick_keeps start rfl
  | kill => exact execKill_keeps start rfl
  | hostPortStart => exact execHostPortStart_keeps start rfl
  | bypassOpen => exact execBypassOpen_keeps start rfl
  | ppsOutEdge => exact execPpsOutEdge_keeps start rfl
  | eccCorrected => exact execEccCorrected_keeps start rfl

/-- No command touches the facts of the unit or the queue of commands. -/
theorem mayTouch_within (c : Instr) : Part.within (mayTouch c) parts53 = true := by
  cases c <;> rfl

/-! ### A step -/

theorem Keeps.mono {L M : List Part} {s t : State} (k : Keeps L s t) (sub : Part.within L M = true) : Keeps M s t :=
  ⟨fun p out => k.frame p fun mem => out (Part.within_mem sub mem), k.mem, k.rollback, k.free, k.sized⟩

/-- A step acts on the state whose front command, if any, has been taken. -/
theorem step_keeps {s t : State} (h : step s = .next t) : Keeps parts53 (s.setPending (s.pending.drop 1)) t := by
  unfold step at h
  split at h
  case h_1 empty =>
    have same : s.setPending (s.pending.drop 1) = s := by rw [empty, List.drop_nil, ← empty]; rfl
    cases h
    rw [same]
    exact idle_keeps (.refl _ s) rfl
  case h_2 c rest front =>
    rw [front]
    exact (exec_keeps c _ t h).mono (mayTouch_within c)

/-! ### The statement -/

/-- Settles O5: the parts of a step's law leave out the facts of the unit and the queue, and the law holds the rollback
counter from below (R131). -/
theorem stepKeepsUnitAndRollback : Obligations.StepKeepsUnitAndRollback := by
  intro s t h
  have kept := step_keeps h
  exact ⟨kept.same_hw, kept.rollback, kept.frame .pending (by decide)⟩

end Sys2Proof.Machine
end

section
/-! A command issued while every lane is idle (R160, R178, R182): it is refused, answered, or goes on in its lane alone;
COMMAND_COMPLETE ends it there. -/

namespace Sys2Proof.Machine

-- one theorem at a time: each proof in parallel takes a thread's stack of the memory that check.sh allows
set_option Elab.async false

/-! ### Lanes -/

/-- `c` is in execution, and no other command runs or waits. -/
def RunsAlone (c : Issued) (s : State) : Prop :=
  getLane s (laneOf c.op) = ⟨some c, []⟩ ∧ LanesIdle (clearLane (laneOf c.op) s)

/-- No command waits in a lane. -/
def NoneWaiting (s : State) : Prop :=
  s.cmds.main.waiting = [] ∧ s.cmds.image.waiting = [] ∧ s.cmds.fwd.waiting = []

theorem laneOf_cases (op : Word) : laneOf op = 0 ∨ laneOf op = 1 ∨ laneOf op = 2 := by
  unfold laneOf
  split
  · exact .inr (.inl rfl)
  · split
    · exact .inr (.inr rfl)
    · exact .inl rfl

/-- A command alone in its lane, by the lane. -/
theorem runsAlone_iff {c : Issued} {s : State} :
    RunsAlone c s ↔
      (laneOf c.op = 0 ∧ s.cmds.main = ⟨some c, []⟩ ∧ s.cmds.image = Lane.idle ∧ s.cmds.fwd = Lane.idle) ∨
      (laneOf c.op = 1 ∧ s.cmds.main = Lane.idle ∧ s.cmds.image = ⟨some c, []⟩ ∧ s.cmds.fwd = Lane.idle) ∨
      (laneOf c.op = 2 ∧ s.cmds.main = Lane.idle ∧ s.cmds.image = Lane.idle ∧ s.cmds.fwd = ⟨some c, []⟩) := by
  unfold RunsAlone LanesIdle
  obtain lane | lane | lane := laneOf_cases c.op <;> rw [lane]
  all_goals grind [getLane, clearLane, putLane, State.setCmds_cmds, Lane.idle]

theorem RunsAlone.congr {c : Issued} {s t : State} (alone : RunsAlone c s) (same : t.cmds = s.cmds) : RunsAlone c t := by
  rw [runsAlone_iff] at alone ⊢
  rwa [same]

theorem RunsAlone.noneWaiting {c : Issued} {s : State} (alone : RunsAlone c s) : NoneWaiting s := by
  obtain ⟨_, main, image, fwd⟩ | ⟨_, main, image, fwd⟩ | ⟨_, main, image, fwd⟩ := runsAlone_iff.1 alone
  all_goals
    unfold NoneWaiting
    rw [main, image, fwd]
    exact ⟨rfl, rfl, rfl⟩

theorem LanesIdle.noneWaiting {s : State} (idle : LanesIdle s) : NoneWaiting s := by
  obtain ⟨main, image, fwd⟩ := idle
  unfold NoneWaiting
  rw [main, image, fwd]
  exact ⟨rfl, rfl, rfl⟩

theorem startLane_of_none_waiting {s : State} {k : BitVec 2} (clear : (getLane s k).waiting = []) : startLane k s = s := by
  unfold startLane
  split
  next c r head => simp [head] at clear
  · rfl

theorem startLane_of_noneWaiting {s : State} (clear : NoneWaiting s) (k : BitVec 2) : startLane k s = s := by
  obtain ⟨main, image, fwd⟩ := clear
  refine startLane_of_none_waiting ?_
  unfold getLane
  split <;> assumption

theorem pumpN_of_noneWaiting {s : State} (clear : NoneWaiting s) (n : Nat) : pumpN n s = s := by
  induction n with
  | zero => rfl
  | succ n ih => rw [pumpN, startLane_of_noneWaiting clear 0, startLane_of_noneWaiting clear 1,
      startLane_of_noneWaiting clear 2, ih]

theorem settleDelete_of_idle {s : State} (idle : s.cmds.main.running = none) : settleDelete s = s := by
  simp [settleDelete, idle]

theorem pump_of_lanesIdle {s : State} (idle : LanesIdle s) : pump s = s := by
  rw [pump, settleDelete_of_idle (by rw [idle.1]; rfl), pumpN_of_noneWaiting idle.noneWaiting]

/-! ### The end of a command (R162) -/

section
variable {c : Issued} {u : State} (alone : RunsAlone c u) (host : c.origin = .host)
include alone

theorem lanesIdle_answered (st : Word) (ws : List Word) : LanesIdle (answered c.op c.tag st ws u) := alone.2

include host

theorem unanswered_of_runsAlone : unanswered u = 1 := by
  obtain ⟨_, main, image, fwd⟩ | ⟨_, main, image, fwd⟩ | ⟨_, main, image, fwd⟩ := runsAlone_iff.1 alone
  all_goals simp [unanswered, main, image, fwd, Lane.idle, host]

/-- The response takes the room that the command leaves, so the end of a command alone is never the end of FULL (R179). -/
theorem finish_of_runsAlone (st : Word) (ws : List Word) :
    finish (laneOf c.op) st ws u = answered c.op c.tag st ws u := by
  have still : cmdFull u = true → cmdFull (answered c.op c.tag st ws u) = true := by
    have room : (answered c.op c.tag st ws u).host.responses.length = u.host.responses.length + 1 :=
      List.length_append ..
    simp only [cmdFull, unanswered_of_runsAlone alone host, room, Bool.or_eq_true, decide_eq_true_eq]
    omega
  have ends : finish (laneOf c.op) st ws u = withFree (fun s => respond c st ws (clearLane (laneOf c.op) s)) u := by
    simp [finish, alone.1]
  have response : ∀ s, respond c st ws s = queueResponse st c.tag ws s := fun s => by simp [respond, host]
  rw [ends, withFree, response, if_neg]
  · rfl
  · intro falls
    obtain ⟨full, free⟩ := Bool.and_eq_true_iff.1 falls
    rw [Bool.not_eq_true'] at free
    exact Bool.false_ne_true (free.symm.trans (still full))

/-- COMMAND_COMPLETE of a long image command with its answer (R135, R137). -/
theorem exec_commandComplete_image {v : State} {st : Word} {ws : List Word} (image : laneOf c.op = 1)
    (answers : imgFinish c u = (v, some (st, ws))) (same : v.cmds = u.cmds) :
    exec (.commandComplete 1) u = .next (answered c.op c.tag st ws v) := by
  have alone' := alone.congr same
  have lane : (getLane u 1).running = some c := by rw [← image, alone.1]
  have done : completeLane 1 u = answered c.op c.tag st ws v := by
    rw [← finish_of_runsAlone alone' host, image]
    unfold completeLane
    simp only [lane, if_true, answers]
  exact congrArg Host.Outcome.next ((congrArg pump done).trans (pump_of_lanesIdle (lanesIdle_answered alone' st ws)))

end

/-! ### Issuing (R160) -/

/-- The command that the host issues. -/
def hostCommand (op tag : Word) (args : List Word) (s : State) : Issued := ⟨op, tag, args, keyed s, .host⟩

theorem verdict_hostCommand {op tag : Word} {args : List Word} {s w : State} (ok : checkCommand op args w = none)
    (key : keyNeeded op args = true → keyed s = true) (state : stateRefuses op w = false) :
    verdict (hostCommand op tag args s) w = none := by
  have keyOk : (keyNeeded op args && !keyed s) = false := by
    cases need : keyNeeded op args
    · rfl
    · rw [key need]; rfl
  simp [verdict, hostCommand, ok, keyOk, state]

theorem started_runsAlone {op tag : Word} {args : List Word} {s : State} (ready : CommandReady s) :
    RunsAlone (hostCommand op tag args s) (started op tag args s) := by
  obtain ⟨_, _, main, image, fwd, _⟩ := ready
  rw [runsAlone_iff]
  unfold started
  obtain lane | lane | lane := laneOf_cases op
  all_goals simp [hostCommand, lane, putLane, main, image, fwd]

theorem started_works (op tag : Word) (args : List Word) (s : State) :
    (started op tag args s).cmds.works = s.cmds.works := by
  unfold started putLane
  split <;> rfl

theorem putLane_putLane (k : BitVec 2) (l m : Lane) (s : State) : putLane k l (putLane k m s) = putLane k l s := by
  obtain rfl | rfl | rfl | rfl : k = 0 ∨ k = 1 ∨ k = 2 ∨ k = 3 := by revert k; decide
  all_goals rfl

theorem latchedArgs_of_fits {h : HostPort} (len : h.cmdLen = BitVec.ofNat 11 (min 2047 h.staged.length))
    (fits : h.staged.length ≤ 1024) : latchedArgs h = h.staged := by
  have whole : h.cmdLen.toNat = h.staged.length := by
    rw [len, BitVec.toNat_ofNat]
    omega
  unfold latchedArgs
  rw [whole, if_neg]
  simpa using fits

/-- The state in which GO has put the command in its lane, and the lane has not begun it. -/
def queued (op tag : Word) (args : List Word) (s : State) : State :=
  putLane (laneOf op) ⟨none, [hostCommand op tag args s]⟩ (started op tag args s)

/-- The lane begins its command. -/
theorem putLane_queued (op tag : Word) (args : List Word) (s : State) :
    putLane (laneOf op) ⟨some (hostCommand op tag args s), []⟩ (queued op tag args s) = started op tag args s := by
  rw [queued, putLane_putLane, started, putLane_putLane]
  rfl

section
variable {op tag : Word} {args : List Word} {s : State} (ready : CommandReady s)
include ready

/-- The command waits in its own lane, and the others are idle. -/
theorem queued_lanes :
    let q := queued op tag args s
    let c := hostCommand op tag args s
    (laneOf op = 0 ∧ q.cmds.main = ⟨none, [c]⟩ ∧ q.cmds.image = Lane.idle ∧ q.cmds.fwd = Lane.idle) ∨
    (laneOf op = 1 ∧ q.cmds.main = Lane.idle ∧ q.cmds.image = ⟨none, [c]⟩ ∧ q.cmds.fwd = Lane.idle) ∨
    (laneOf op = 2 ∧ q.cmds.main = Lane.idle ∧ q.cmds.image = Lane.idle ∧ q.cmds.fwd = ⟨none, [c]⟩) := by
  obtain ⟨_, _, main, image, fwd, _⟩ := ready
  unfold queued started
  obtain lane | lane | lane := laneOf_cases op
  all_goals simp [lane, putLane, main, image, fwd]

theorem pump_queued : pump (queued op tag args s) = pumpN 3 (queued op tag args s) := by
  have lanes := queued_lanes (op := op) (tag := tag) (args := args) ready
  have quiet : (queued op tag args s).cmds.main.running = none := by
    obtain ⟨_, main, _⟩ | ⟨_, main, _⟩ | ⟨_, main, _⟩ := lanes <;> rw [main] <;> rfl
  have one : waitingCount (queued op tag args s) = 1 := by
    obtain ⟨_, main, image, fwd⟩ | ⟨_, main, image, fwd⟩ | ⟨_, main, image, fwd⟩ := lanes <;>
      simp [waitingCount, main, image, fwd, Lane.idle]
  rw [pump, settleDelete_of_idle quiet, one]

theorem issueCommand_of_ready (fits : args.length ≤ 1024) :
    issueCommand op tag args s = pump (queued op tag args s) := by
  obtain ⟨up, staged, main, image, fwd, room⟩ := ready
  have idle : getLane s (laneOf op) = Lane.idle := by
    unfold getLane
    split <;> assumption
  have free : cmdFull s = false := by
    simp [cmdFull, unanswered, main, image, fwd, Lane.idle, room]
  let issued := s.setHost { s.host with
    cmdOp := op, cmdTag := tag, cmdLen := BitVec.ofNat 11 (min 2047 args.length), staged := args, key := .idle }
  have go : issueCommand op tag args s = goWrite (keyed s) issued := by
    simp [issueCommand, up, staged, List.take_of_length_le fits, issued]
  have latched : latchedArgs issued.host = args := latchedArgs_of_fits (h := issued.host) rfl fits
  have joins : enqueue (hostCommand op tag args s) (issued.setHost { issued.host with staged := [] }) =
      queued op tag args s := by
    rw [queued, started, putLane_putLane, enqueue]
    exact congrArg (fun l : Lane => putLane (laneOf op) { l with waiting := l.waiting ++ [hostCommand op tag args s] } _) idle
  rw [go, goWrite, if_neg (by rw [show cmdFull issued = false from free]; exact Bool.false_ne_true), latched, ← joins]
  rfl

theorem getLane_queued : getLane (queued op tag args s) (laneOf op) = ⟨none, [hostCommand op tag args s]⟩ := by
  obtain ⟨lane, main, _⟩ | ⟨lane, _, image, _⟩ | ⟨lane, _, _, fwd⟩ :=
    queued_lanes (op := op) (tag := tag) (args := args) ready
  all_goals
    rw [lane]
    assumption

/-- A lane that begins its command and leaves none waiting is all that the pump does. -/
theorem pump_queued_of_begins {r : State} (begins : startLane (laneOf op) (queued op tag args s) = r)
    (clear : NoneWaiting r) : pump (queued op tag args s) = r := by
  have rest (k : BitVec 2) : startLane k r = r := startLane_of_noneWaiting clear k
  have quiet {k : BitVec 2} (idle : getLane (queued op tag args s) k = Lane.idle) :
      startLane k (queued op tag args s) = queued op tag args s :=
    startLane_of_none_waiting (by rw [idle]; rfl)
  rw [pump_queued ready, pumpN]
  obtain ⟨lane, main, image, fwd⟩ | ⟨lane, main, image, fwd⟩ | ⟨lane, main, image, fwd⟩ :=
    queued_lanes (op := op) (tag := tag) (args := args) ready
  all_goals rw [lane] at begins
  · rw [begins, rest 1, rest 2, pumpN_of_noneWaiting clear]
  · rw [quiet (k := 0) main, begins, rest 2, pumpN_of_noneWaiting clear]
  · rw [quiet (k := 0) main, quiet (k := 1) image, begins, pumpN_of_noneWaiting clear]

/-! ### What an issued command comes to (R182) -/

theorem startLane_queued_of_refused {st : Word}
    (refuses : verdict (hostCommand op tag args s) (started op tag args s) = some st) :
    startLane (laneOf op) (queued op tag args s) = finish (laneOf op) st [] (started op tag args s) := by
  unfold startLane
  simp only [getLane_queued ready, putLane_queued, refuses]

theorem startLane_queued_of_passed {u : State} {r : Reply}
    (passes : verdict (hostCommand op tag args s) (started op tag args s) = none)
    (runs : runCommand (hostCommand op tag args s) (started op tag args s) = (u, r)) :
    startLane (laneOf op) (queued op tag args s) = r.elim u (fun a => finish (laneOf op) a.1 a.2 u) := by
  unfold startLane
  simp only [getLane_queued ready, putLane_queued, passes, runs]
  cases r <;> rfl

variable (fits : args.length ≤ 1024)
include fits

theorem issueCommand_refused {st : Word} (refuses : verdict (hostCommand op tag args s) (started op tag args s) = some st) :
    issueCommand op tag args s = answered op tag st [] (started op tag args s) := by
  have alone := started_runsAlone (op := op) (tag := tag) (args := args) ready
  rw [issueCommand_of_ready ready fits]
  refine pump_queued_of_begins ready ?_ (lanesIdle_answered alone st []).noneWaiting
  rw [startLane_queued_of_refused ready refuses]
  exact finish_of_runsAlone alone rfl st []

section
variable (passes : verdict (hostCommand op tag args s) (started op tag args s) = none) {u : State}
  (alone : RunsAlone (hostCommand op tag args s) u)
include passes alone

theorem issueCommand_answered {st : Word} {ws : List Word}
    (runs : runCommand (hostCommand op tag args s) (started op tag args s) = (u, some (st, ws))) :
    issueCommand op tag args s = answered op tag st ws u := by
  rw [issueCommand_of_ready ready fits]
  refine pump_queued_of_begins ready ?_ (lanesIdle_answered alone st ws).noneWaiting
  rw [startLane_queued_of_passed ready passes runs]
  exact finish_of_runsAlone alone rfl st ws

theorem issueCommand_goesOn (runs : runCommand (hostCommand op tag args s) (started op tag args s) = (u, none)) :
    issueCommand op tag args s = u := by
  rw [issueCommand_of_ready ready fits]
  exact pump_queued_of_begins ready (startLane_queued_of_passed ready passes runs) alone.noneWaiting

end

end

end Sys2Proof.Machine
end

section
/-! IDENTIFY, GET_STATUS, SET_STATE, RESET and GET_VERSIONS (Table 07-4, R130, R145). -/

namespace Sys2Proof.Machine

-- one theorem at a time: each proof in parallel takes a thread's stack of the memory that check.sh allows
set_option Elab.async false

/-! ### Commands that run in every state but RESET (R183) -/

theorem stateRefuses_of_everywhere {op : Word} {s : State} (known : op ∈ [0x0101, 0x0102, 0x0104, 0x0105])
    (up : s.mode ≠ .reset) : stateRefuses op s = false := by
  unfold stateRefuses
  obtain rfl | rfl | rfl | rfl : op = 0x0101 ∨ op = 0x0102 ∨ op = 0x0104 ∨ op = 0x0105 := by simpa using known
  all_goals
    split
    case h_1 off => exact absurd off up
    all_goals rfl

/-- A command without arguments that needs neither the key nor a state of its own answers at once. -/
theorem issueCommand_everywhere {op tag : Word} {s u : State} {st : Word} {ws : List Word} (ready : CommandReady s)
    (up : s.mode ≠ .reset) (known : op ∈ [0x0101, 0x0102, 0x0104, 0x0105])
    (ok : checkCommand op [] (started op tag [] s) = none) (unprotected : keyNeeded op [] = false)
    (runs : runCommand (hostCommand op tag [] s) (started op tag [] s) = (u, some (st, ws)))
    (same : u.cmds = (started op tag [] s).cmds) : issueCommand op tag [] s = answered op tag st ws u := by
  have passes := verdict_hostCommand (tag := tag) (s := s) ok (by simp [unprotected]) (stateRefuses_of_everywhere known up)
  exact issueCommand_answered ready (Nat.zero_le _) passes ((started_runsAlone ready).congr same) runs

/-! ### SET_STATE (R130, R145, Table 05-7) -/

section
variable {s : State} (quiet : proofRuns s = false)
include quiet

theorem setState_run_of_ready (mode : s.mode = .ready) :
    setState 5 s =
      if s.host.strict && s.boot.unqual then (s, stSafetyLock) else (setMode (if wdrn s then .degraded else .run) s, stOk) := by
  unfold setState
  rw [quiet, mode]
  rfl

theorem setState_ready_of_traffic (mode : s.mode ∈ [Mode.run, .degraded]) :
    setState 4 s = if s.led.chans.isEmpty then (setMode .ready s, stOk) else (s, stBadState) := by
  obtain h | h : s.mode = .run ∨ s.mode = .degraded := by simpa using mode
  all_goals
    unfold setState
    rw [quiet, h]
    rfl

theorem setState_standby_of_ready (mode : s.mode = .ready) : setState 9 s = (enterStandby s, stOk) := by
  unfold setState
  rw [quiet, mode]
  rfl

theorem setState_ready_of_standby (mode : s.mode = .standby) :
    setState 4 s = if poeStandby s then (s, stPowerLimit) else (exitStandby s, stOk) := by
  unfold setState
  rw [quiet, mode]
  rfl

end

theorem exitStandby_of_standby {s : State} (mode : s.mode = .standby) :
    exitStandby s = s.setBoot { s.boot with mode := .boot, bistDone := false } := if_pos mode

theorem enterStandby_cmds (s : State) : (enterStandby s).cmds = s.cmds :=
  (enterStandby_keeps (L := parts42) (.refl _ s) (by decide)).frame .cmds (by decide)

theorem exec_setState {tag v : Word} {s t : State} {st : Word} (ready : CommandReady s)
    (mode : s.mode ∈ [.ready, .run, .degraded, .standby]) (known : v ∈ [4, 5, 9])
    (sets : setState v.toNat (started 0x0103 tag [v] s) = (t, st)) (same : t.cmds = (started 0x0103 tag [v] s).cmds) :
    exec (.setState tag [v]) s = .next (answered 0x0103 tag st [] t) := by
  have ok : checkCommand 0x0103 [v] (started 0x0103 tag [v] s) = none := by
    obtain rfl | rfl | rfl : v = 4 ∨ v = 5 ∨ v = 9 := by simpa using known
    all_goals rfl
  have allowed : stateRefuses 0x0103 (started 0x0103 tag [v] s) = false := by
    have modes : s.mode = .ready ∨ s.mode = .run ∨ s.mode = .degraded ∨ s.mode = .standby := by simpa using mode
    have started_mode : (started 0x0103 tag [v] s).mode = s.mode := rfl
    unfold stateRefuses
    rw [started_mode]
    obtain h | h | h | h := modes <;> rw [h] <;> rfl
  have passes := verdict_hostCommand (tag := tag) (s := s) ok (fun need => absurd need Bool.false_ne_true) allowed
  have runs : runCommand (hostCommand 0x0103 tag [v] s) (started 0x0103 tag [v] s) = (t, some (st, [])) :=
    congrArg (fun r : State × Word => answer r.2 r.1) sets
  exact congrArg Host.Outcome.next
    (issueCommand_answered ready (by simp) passes ((started_runsAlone ready).congr same) runs)

/-! ### The statement -/

/-- Settles O24: the words of IDENTIFY, GET_STATUS and GET_VERSIONS do not read what the issue changes, and SET_STATE
is `setState` on the started command. -/
theorem identityAndStateCommands : Obligations.IdentityAndStateCommands := by
  intro tag s ready up
  have traffic_known : s.mode ∈ [Mode.run, .degraded] → s.mode ∈ [Mode.ready, .run, .degraded, .standby] :=
    (by decide : [Mode.run, .degraded] ⊆ [Mode.ready, .run, .degraded, .standby]) (a := s.mode)
  refine ⟨?identify, ?status, ?versions, ?reset, fun quiet => ⟨fun mode fit => ?run, fun mode strict unqual => ?locked,
    fun mode empty => ?back, fun mode busy => ?refused, fun mode => ?standby, fun mode weak => ?limit,
    fun mode strong => ?resume⟩⟩
  case identify | status | versions | reset =>
    exact congrArg Host.Outcome.next (issueCommand_everywhere ready up (by decide) rfl rfl rfl rfl)
  all_goals
    have still (v : Word) : proofRuns (started 0x0103 tag [v] s) = false := by
      rw [proofRuns, started_works]
      exact quiet
  case run =>
    exact exec_setState ready (by simp [mode]) (by decide)
      ((setState_run_of_ready (still 5) mode).trans (if_neg (ne_true_of_eq_false fit))) rfl
  case locked =>
    have both : (s.host.strict && s.boot.unqual) = true := by rw [strict, unqual]; rfl
    exact exec_setState ready (by simp [mode]) (by decide) ((setState_run_of_ready (still 5) mode).trans (if_pos both)) rfl
  case back =>
    exact exec_setState ready (traffic_known mode) (by decide)
      ((setState_ready_of_traffic (still 4) mode).trans (if_pos (List.isEmpty_iff.2 empty))) rfl
  case refused =>
    exact exec_setState ready (traffic_known mode) (by decide)
      ((setState_ready_of_traffic (still 4) mode).trans (if_neg (mt List.isEmpty_iff.1 busy))) rfl
  case standby =>
    exact exec_setState ready (by simp [mode]) (by decide) (setState_standby_of_ready (still 9) mode) (enterStandby_cmds _)
  case limit =>
    exact exec_setState ready (by simp [mode]) (by decide) ((setState_ready_of_standby (still 4) mode).trans (if_pos weak)) rfl
  case resume =>
    exact exec_setState ready (by simp [mode]) (by decide)
      ((setState_ready_of_standby (still 4) mode).trans
        ((if_neg (ne_true_of_eq_false strong)).trans (congrArg (·, stOk) (exitStandby_of_standby mode)))) rfl

end Sys2Proof.Machine
end

section
/-! The image commands on the module itself (R135-R138), and COMMAND_COMPLETE of an erase and a check. -/

namespace Sys2Proof.Machine

-- one theorem at a time: each proof in parallel takes a thread's stack of the memory that check.sh allows
set_option Elab.async false

/-! ### The local part as the whole (R192) -/

/-- The words of an image command's answer with SCOPE 0. -/
def scopeWords (st : Word) : List Word := if st = stOk then [stOk, 0, 0, 0] else []

section
variable {c : Issued} (own : arg c.args 0 = 0)
include own

theorem imgResult_own (st : Word) (s : State) : imgResult c st s = (s, some (st, scopeWords st)) := by
  unfold imgResult scopeWords
  rw [if_pos own]
  by_cases ok : st = stOk
  · simp [ok]
  · simp [ok]

variable {f : State → State × Option Word} {s t : State}

theorem runImage_own_answers {st : Word} (ends : f s = (t, some st)) : runImage f c s = (t, some (st, scopeWords st)) := by
  unfold runImage
  simp [own, ends, imgResult_own own]

theorem runImage_own_goesOn (goes : f s = (t, none)) : runImage f c s = (t, none) := by
  unfold runImage
  simp [own, goes, goesOn]

/-- The end of an erase. -/
theorem imgFinish_erase (begins : c.op = 0x0201) : imgFinish c s = (s, some (stOk, scopeWords stOk)) := by
  simp [imgFinish, localRuns, begins, own, imgResult_own own]

/-- The end of a check, which stores its result. -/
theorem imgFinish_check (commits : c.op = 0x0203) (supplied : s.pwr.pwrfail = false) :
    let r := checkBank s (otherBank s)
    imgFinish c s = (putRes (otherBank s) r s, some (commitStatus r, scopeWords (commitStatus r))) := by
  simp [imgFinish, localRuns, commits, own, supplied, imgResult_own own, checkStored, resOf_putRes]

end

theorem scopeOk_zero (s : State) : scopeOk s 0 = true := by
  unfold scopeOk
  split <;> rfl

/-! ### Issuing -/

/-- The states in which image commands run (R183). -/
theorem stateRefuses_image {op : Word} {s : State} (image : op ∈ [0x0201, 0x0202, 0x0203, 0x0204])
    (mode : s.mode ∉ [Mode.reset, .boot, .standby]) : stateRefuses op s = false := by
  unfold stateRefuses
  obtain rfl | rfl | rfl | rfl : op = 0x0201 ∨ op = 0x0202 ∨ op = 0x0203 ∨ op = 0x0204 := by simpa using image
  all_goals
    split
    case h_1 m => simp [m] at mode
    case h_2 m => simp [m] at mode
    case h_4 m => simp [m] at mode
    all_goals rfl

theorem need_eq_none {n : Nat} {a : List Word} {ok : Bool} (len : a.length = n) (holds : ok = true) : need n a ok = none := by
  simp [need, len, holds]

/-- The check of IMG_BEGIN and of IMG_COMMIT. -/
theorem chkScope_zero (s : State) : need 1 [0] (scopeOk s 0) = none := need_eq_none rfl (scopeOk_zero s)

theorem verdict_image {op tag : Word} {args : List Word} {s : State} (image : op ∈ [0x0201, 0x0202, 0x0203, 0x0204])
    (mode : s.mode ∉ [Mode.reset, .boot, .standby]) (ok : checkCommand op args (started op tag args s) = none)
    (key : keyNeeded op args = true → keyed s = true) :
    verdict (hostCommand op tag args s) (started op tag args s) = none :=
  verdict_hostCommand ok key (stateRefuses_image (s := started op tag args s) image mode)

/-! ### IMG_BEGIN (R135) -/

/-- Bank `b` erased for a session that begins, with bank `p` preferred. -/
def bankErased (b p : Bool) (s : State) : State :=
  let t := putRes b .empty (putBank b Bank.blank (s.setBoot { s.boot with pref := p }))
  t.setBoot { t.boot with session := some ⟨b, 0⟩ }

section
variable (b p : Bool) (s : State)

theorem bankErased_session : (bankErased b p s).boot.session = some ⟨b, 0⟩ := rfl

theorem bankErased_pref : (bankErased b p s).boot.pref = p := by cases b <;> rfl

theorem bankOf_bankErased : bankOf (bankErased b p s) b = Bank.blank ∧ bankOf (bankErased b p s) (!b) = bankOf s (!b) := by
  cases b <;> exact ⟨rfl, rfl⟩

theorem resOf_bankErased : resOf (bankErased b p s) b = .empty ∧ resOf (bankErased b p s) (!b) = resOf s (!b) := by
  cases b <;> exact ⟨rfl, rfl⟩

end

/-- The bank that runs is preferred from the erase on. -/
theorem imgBeginLocal_of_free {s : State} (closed : s.boot.session = none) (supplied : s.pwr.pwrfail = false) :
    imgBeginLocal s = (bankErased (otherBank s) (s.boot.active.getD s.boot.pref) s, none) := by
  have free : ¬ (s.boot.session.isSome || s.pwr.pwrfail) = true := by simp [closed, supplied]
  unfold imgBeginLocal
  rw [if_neg free]
  unfold otherBank
  cases active : s.boot.active with
  | none => rfl
  | some a =>
    by_cases other : s.boot.pref = !a
    · simp only [other, Option.getD_some, if_true]
      rfl
    · have same : s.boot.pref = a := by cases a <;> simpa using other
      simp only [Option.getD_some, if_neg other]
      rw [← same]
      rfl

/-! ### IMG_DATA (R136) -/

/-- The count of IMG_DATA's two words (R6). -/
theorem arg2_count {n : Nat} (fits : n < 2 ^ 32) (w : Word) (l : List Word) :
    (arg2 (w :: BitVec.ofNat 16 n :: BitVec.ofNat 16 (n / 65536) :: l) 1).toNat = n := by
  have words : arg2 (w :: BitVec.ofNat 16 n :: BitVec.ofNat 16 (n / 65536) :: l) 1 =
      BitVec.ofNat 16 (n / 65536) ++ BitVec.ofNat 16 n := rfl
  rw [words, BitVec.toNat_append, BitVec.toNat_ofNat, BitVec.toNat_ofNat,
    ← Nat.shiftLeft_add_eq_or_of_lt (Nat.mod_lt _ (by decide)), Nat.shiftLeft_eq]
  omega

/-- A layout of R136: 1 to 2,040 bytes, in as many words as they fill. -/
theorem chkImgData_eq_none {n : Nat} {x y : Word} {l : List Word} (some_data : 1 ≤ n) (small : n ≤ 2040)
    (words : l.length = (n + 1) / 2) (s : State) : chkImgData ([0, x, y, BitVec.ofNat 16 n] ++ l) s = none := by
  have bytes : (BitVec.ofNat 16 n).toNat = n := (BitVec.toNat_ofNat ..).trans (Nat.mod_eq_of_lt (by omega))
  have third : arg ([0, x, y, BitVec.ofNat 16 n] ++ l) 3 = BitVec.ofNat 16 n := rfl
  have len : ([0, x, y, BitVec.ofNat 16 n] ++ l).length = 4 + (n + 1) / 2 := by
    simp only [List.length_append, List.length_cons, List.length_nil, words]
  have range : (decide (n < 1) || decide (2040 < n)) = false := by
    simp only [Bool.or_eq_false_iff, decide_eq_false_iff_not]
    omega
  unfold chkImgData
  simp only [third, bytes]
  rw [if_neg (by omega), if_neg (ne_true_of_eq_false range)]
  exact need_eq_none len (scopeOk_zero s)

/-- `n` bytes of the words appended to the bank of the session. -/
def bankAppended (x : Session) (l : List Word) (n : Nat) (s : State) : State :=
  let t := putBank x.bankB { erased := false, bytes := (bankOf s x.bankB).bytes ++ wordBytes l n } s
  t.setBoot { t.boot with session := some { x with count := x.count + n } }

theorem imgDataLocal_at_count {s : State} {x : Session} {n : Nat} {l : List Word} (opened : s.boot.session = some x)
    (supplied : s.pwr.pwrfail = false) (small : n < 65536) (fits : x.count + n ≤ bankMax) :
    imgDataLocal ([0, BitVec.ofNat 16 x.count, BitVec.ofNat 16 (x.count / 65536), BitVec.ofNat 16 n] ++ l) s =
      (bankAppended x l n s, some stOk) := by
  have count := arg2_count (n := x.count) (by unfold bankMax at fits; omega) 0 (BitVec.ofNat 16 n :: l)
  have bytes : (BitVec.ofNat 16 n).toNat = n := (BitVec.toNat_ofNat ..).trans (Nat.mod_eq_of_lt (by omega))
  have room : ¬ bankMax < x.count + (BitVec.ofNat 16 n).toNat := by rw [bytes]; omega
  have third : arg (0 :: BitVec.ofNat 16 x.count :: BitVec.ofNat 16 (x.count / 65536) :: BitVec.ofNat 16 n :: l) 3 =
      BitVec.ofNat 16 n := rfl
  simp only [List.cons_append, List.nil_append]
  unfold imgDataLocal
  rw [opened]
  simp only [third]
  rw [if_neg (Decidable.not_not.2 count), if_neg room, if_neg (by simp [supplied]), bytes]
  rfl

/-! ### IMG_COMMIT (R137) and IMG_SELECT (R138) -/

theorem imgCommitLocal_of_open {s : State} {x : Session} (opened : s.boot.session = some x) :
    imgCommitLocal s = (s.setBoot { s.boot with session := none }, none) := by
  unfold imgCommitLocal
  rw [opened]

theorem chkImgSelect_eq_none (k : Bool) {m : Word} (mode : m.toNat ≤ 1) (s : State) :
    chkImgSelect [0, if k then 1 else 0, m] s = none := by
  refine need_eq_none rfl ?_
  have scope : scopeOk s (arg [0, if k then 1 else 0, m] 0) = true := scopeOk_zero s
  have bank : upTo (arg [0, if k then 1 else 0, m] 1) 1 = true := by cases k <;> rfl
  have last : upTo (arg [0, if k then 1 else 0, m] 2) 1 = true := decide_eq_true mode
  rw [scope, bank, last]
  rfl

section
variable {c : Issued} {s : State} {k : Bool} (own : arg c.args 0 = 0) (bank : decide (arg c.args 1 = 1) = k)
include own bank

/-- In mode 1 the reset comes soon after the selection. -/
theorem runImgSelect_of_good (good : isGood s k = true) :
    runImgSelect c s =
      (if arg c.args 2 = 1 then resetSoon (selectBank k s) else selectBank k s, some (stOk, scopeWords stOk)) := by
  have ends : imgSelectLocal (decide (arg c.args 1 = 1)) s = (selectBank k s, some stOk) := by
    rw [bank]
    exact if_pos good
  unfold runImgSelect
  rw [runImage_own_answers own ends]
  simp

theorem runImgSelect_of_bad (bad : isGood s k = false) :
    runImgSelect c s = (s, some (stBadParam, scopeWords stBadParam)) := by
  have ends : imgSelectLocal (decide (arg c.args 1 = 1)) s = (s, some stBadParam) := by
    rw [bank]
    exact if_neg (ne_true_of_eq_false bad)
  unfold runImgSelect
  rw [runImage_own_answers own ends]
  simp [stBadParam, stOk]

end

theorem exec_imgSelect {tag m st : Word} {s u : State} (ready : CommandReady s)
    (mode : s.mode ∉ [Mode.reset, .boot, .standby]) (k : Bool) (key : keyed s = true) (known : m.toNat ≤ 1) :
    let a := [0, if k then 1 else 0, m]
    let w := started 0x0204 tag a s
    runImgSelect (hostCommand 0x0204 tag a s) w = (u, some (st, scopeWords st)) → u.cmds = w.cmds →
      exec (.imgSelect tag a) s = .next (answered 0x0204 tag st (scopeWords st) u) := by
  intro a w runs same
  have passes := verdict_image (op := 0x0204) (tag := tag) (args := a) (by decide) mode
    (chkImgSelect_eq_none k known w) (fun _ => key)
  have short : a.length ≤ 1024 := by simp [a]
  exact congrArg Host.Outcome.next (issueCommand_answered ready short passes ((started_runsAlone ready).congr same) runs)

/-! ### The statement -/

/-- Settles O25: each command runs its local part alone, since SCOPE is 0. That the target of a session where no bank
runs is the bank not preferred (log entry 87), and that COMMAND_COMPLETE ends the erase and the check (log entry 11), are
the model's choices. -/
theorem imageCommands : Obligations.ImageCommands := by
  intro tag s ready mode b done
  refine ⟨fun closed supplied => ?begin, fun x n l opened supplied some_data small words fits => ?data,
    fun x opened supplied => ?commit, fun k key => ⟨fun good => ⟨?select, ?selectNow⟩, fun bad => ?refused⟩⟩
  case begin =>
    let c := hostCommand 0x0201 tag [0] s
    let w := started 0x0201 tag [0] s
    let u := bankErased b (s.boot.active.getD s.boot.pref) w
    have passes := verdict_image (op := 0x0201) (tag := tag) (args := [0]) (by decide) mode
      (chkScope_zero w) (fun need => absurd need Bool.false_ne_true)
    have alone : RunsAlone c u := (started_runsAlone ready).congr rfl
    have issue : issueCommand 0x0201 tag [0] s = u := issueCommand_goesOn ready (by decide) passes alone
      (runImage_own_goesOn (c := c) rfl (imgBeginLocal_of_free (s := w) closed supplied))
    refine ⟨u, congrArg Host.Outcome.next issue, bankErased_session .., (bankOf_bankErased ..).1, (bankOf_bankErased ..).2,
      (resOf_bankErased ..).1, (resOf_bankErased ..).2, fun a active => ?_, ?_, ?_⟩
    · rw [bankErased_pref, active]; rfl
    · rfl
    · exact exec_commandComplete_image alone rfl rfl (imgFinish_erase (c := c) rfl rfl) rfl
  case data =>
    intro a w
    have len : a.length ≤ 1024 := by
      simp only [a, List.length_append, List.length_cons, List.length_nil, words]
      omega
    have ok : checkCommand 0x0202 a (started 0x0202 tag a s) = none :=
      (if_neg (Nat.not_lt.2 len)).trans (chkImgData_eq_none some_data small words _)
    have passes := verdict_image (op := 0x0202) (tag := tag) (by decide) mode ok (fun need => absurd need Bool.false_ne_true)
    exact congrArg Host.Outcome.next (issueCommand_answered ready len passes
      (u := bankAppended x l n (started 0x0202 tag a s)) ((started_runsAlone ready).congr rfl)
      (runImage_own_answers (c := hostCommand 0x0202 tag a s) rfl
        (imgDataLocal_at_count (s := started 0x0202 tag a s) opened supplied (by omega) fits)))
  case commit =>
    intro u
    let c := hostCommand 0x0203 tag [0] s
    have passes := verdict_image (op := 0x0203) (tag := tag) (args := [0]) (by decide) mode
      (chkScope_zero (started 0x0203 tag [0] s)) (fun need => absurd need Bool.false_ne_true)
    have alone : RunsAlone c u := (started_runsAlone ready).congr rfl
    have checked : checkBank u b = checkBank s b := checkBank_congr rfl rfl rfl
    refine ⟨congrArg Host.Outcome.next (issueCommand_goesOn ready (by decide) passes alone
      (runImage_own_goesOn (c := c) rfl (imgCommitLocal_of_open (s := started 0x0203 tag [0] s) opened))), ?_⟩
    rw [← checked]
    exact exec_commandComplete_image alone rfl rfl (imgFinish_check (c := c) rfl rfl supplied) rfl
  all_goals
    have bank : decide ((if k then 1 else 0 : Word) = 1) = k := by cases k <;> rfl
    have selects (m : Word) {u : State} {st : Word} := exec_imgSelect (tag := tag) (m := m) (u := u) (st := st) ready mode k key
  case select =>
    exact selects 0 (by decide) (runImgSelect_of_good rfl bank good) rfl
  case selectNow =>
    exact selects 1 (by decide) (runImgSelect_of_good rfl bank good) rfl
  case refused =>
    exact selects 0 (by decide) (runImgSelect_of_bad rfl bank bad) rfl

end Sys2Proof.Machine
end

section
/-! A command in the states from READY on: what it passes, and how it ends in its lane (R162, R182, R183, R194). -/

namespace Sys2Proof.Machine

-- one theorem at a time: each proof in parallel takes a thread's stack of the memory that check.sh allows
set_option Elab.async false

/-! ### Commands in the states from READY on (R183) -/

/-- READY, RUN, DEGRADED, HELD and SAFE. -/
abbrev workingModes : List Mode := [.ready, .run, .degraded, .held, .safe]

theorem stateRefuses_of_working {op : Word} {s : State} (mode : s.mode ∈ workingModes)
    (noChange : changesChannel op = false) : stateRefuses op s = false := by
  have notCreate : op ≠ 0x0301 := by
    rintro rfl
    exact Bool.false_ne_true noChange.symm
  have modes : s.mode = .ready ∨ s.mode = .run ∨ s.mode = .degraded ∨ s.mode = .held ∨ s.mode = .safe := by
    simpa using mode
  unfold stateRefuses
  obtain h | h | h | h | h := modes <;> rw [h]
  · exact decide_eq_false notCreate
  · exact noChange
  · exact noChange

/-- Lanes alone decide whether a command runs alone; accepted work does not. -/
theorem RunsAlone.congr_lanes {c : Issued} {s t : State} (alone : RunsAlone c s) (main : t.cmds.main = s.cmds.main)
    (image : t.cmds.image = s.cmds.image) (fwd : t.cmds.fwd = s.cmds.fwd) : RunsAlone c t := by
  rw [runsAlone_iff] at alone ⊢
  rwa [main, image, fwd]

/-- The command passes its check, the key and the module state (R182, R158, R183). -/
def Passes (op tag : Word) (args : List Word) (s : State) : Prop :=
  args.length ≤ 1024 ∧ verdict (hostCommand op tag args s) (started op tag args s) = none

section
variable {op tag : Word} {args : List Word} {s : State}

theorem passes_of_working (mode : s.mode ∈ workingModes) (noChange : changesChannel op = false) (fits : args.length ≤ 1024)
    (ok : checkCommand op args (started op tag args s) = none) (key : keyNeeded op args = true → keyed s = true) :
    Passes op tag args s :=
  ⟨fits, verdict_hostCommand ok key (stateRefuses_of_working mode noChange)⟩

/-- A command without the FORCE flag needs no key (R155). -/
theorem passes_of_unprotected (mode : s.mode ∈ workingModes) (noChange : changesChannel op = false)
    (fits : args.length ≤ 1024) (ok : checkCommand op args (started op tag args s) = none)
    (unprotected : keyNeeded op args = false) : Passes op tag args s :=
  passes_of_working mode noChange fits ok (fun need => absurd (need.symm.trans unprotected) Bool.noConfusion)

variable (ready : CommandReady s) (passes : Passes op tag args s)
include ready passes

/-- A command that changes no lane and answers. -/
theorem Passes.answers {u : State} {st : Word} {ws : List Word}
    (runs : runCommand (hostCommand op tag args s) (started op tag args s) = (u, some (st, ws)))
    (alone : RunsAlone (hostCommand op tag args s) u) : issueCommand op tag args s = answered op tag st ws u :=
  issueCommand_answered ready passes.1 passes.2 alone runs

/-- A command that answers and changes nothing. -/
theorem Passes.reads {st : Word} {ws : List Word}
    (runs : runCommand (hostCommand op tag args s) (started op tag args s) = (started op tag args s, some (st, ws))) :
    issueCommand op tag args s = answered op tag st ws (started op tag args s) :=
  issueCommand_answered ready passes.1 passes.2 (started_runsAlone ready) runs

/-- A command that stays in its lane. -/
theorem Passes.goesOn {u : State} (runs : runCommand (hostCommand op tag args s) (started op tag args s) = (u, none))
    (alone : RunsAlone (hostCommand op tag args s) u) : issueCommand op tag args s = u :=
  issueCommand_goesOn ready passes.1 passes.2 alone runs

end

/-! ### A command in a lane, and its end -/

theorem withFree_cmds (f : State → State) (s : State) : (withFree f s).cmds = (f s).cmds := by
  unfold withFree
  dsimp only
  split <;> rfl

theorem withFree_ism (f : State → State) (s : State) : (withFree f s).ism = (f s).ism := by
  unfold withFree
  dsimp only
  split <;> rfl

theorem withFree_responses (f : State → State) (s : State) : (withFree f s).host.responses = (f s).host.responses := by
  unfold withFree
  dsimp only
  split <;> rfl

theorem finish_of_running {k : BitVec 2} {c : Issued} {s : State} (runs : (getLane s k).running = some c) (st : Word)
    (ws : List Word) : finish k st ws s = withFree (fun s => respond c st ws (clearLane k s)) s := by
  simp [finish, runs]

/-- The head of an idle lane that passes its checks and answers. -/
theorem startLane_of_answer {k : BitVec 2} {c : Issued} {r : List Issued} {s u : State} {st : Word} {ws : List Word}
    (head : getLane s k = ⟨none, c :: r⟩) (passes : verdict c (putLane k ⟨some c, r⟩ s) = none)
    (runs : runCommand c (putLane k ⟨some c, r⟩ s) = (u, some (st, ws))) : startLane k s = finish k st ws u := by
  unfold startLane
  simp only [head, passes, runs]

/-- GET_VERSIONS in the idle main lane runs in every state but RESET, whoever sent it. -/
theorem startLane_getVersions {c : Issued} {s : State} (op : c.op = 0x0105) (bare : c.args = [])
    (idle : s.cmds.main = Lane.idle) (up : s.mode ≠ .reset) :
    startLane 0 (enqueue c s) =
      withFree (fun t => respond c stOk (versionWords s) (clearLane 0 t)) (putLane 0 ⟨some c, []⟩ s) := by
  obtain ⟨op', tag, args, keyed, origin⟩ := c
  subst op bare
  have joins : enqueue ⟨0x0105, tag, [], keyed, origin⟩ s = putLane 0 ⟨none, [⟨0x0105, tag, [], keyed, origin⟩]⟩ s := by
    have lane : getLane s 0 = Lane.idle := idle
    show putLane 0 { getLane s 0 with waiting := (getLane s 0).waiting ++ [_] } s = _
    rw [lane]
    rfl
  have allowed (l : Lane) : stateRefuses 0x0105 (putLane 0 l s) = false :=
    stateRefuses_of_everywhere (by decide) up
  rw [joins, startLane_of_answer (r := []) (u := putLane 0 ⟨some _, []⟩ s) rfl ?passes ?runs]
  case passes =>
    rw [putLane_putLane]
    unfold verdict
    rw [allowed]
    rfl
  case runs => rfl
  exact finish_of_running rfl _ _

theorem versionWords_length (s : State) : (versionWords s).length = 8 := by
  unfold versionWords
  dsimp only
  split <;> rfl

/-- The forwarded command that ends at the summit answers the FORWARD that carried it (R194). -/
theorem answerForward_of_running {c : Issued} {s : State} (runs : s.cmds.fwd.running = some c) (st : Word) (ws : List Word) :
    answerForward c.tag st ws s =
      withFree (fun s => queueResponse stOk c.tag ([st, BitVec.ofNat 16 ws.length] ++ ws) (clearLane 2 s)) s := by
  simp [answerForward, runs]

end Sys2Proof.Machine
end

section
/-! SEARCH, ASSIGN, TOPO_READ and FORWARD on the summit and on a spur (R194, R441, R449, R450). -/

namespace Sys2Proof.Machine

-- one theorem at a time: each proof in parallel takes a thread's stack of the memory that check.sh allows
set_option Elab.async false

/-! ### SEARCH (R441) -/

theorem bitOf_flag (full : Bool) : bitOf (if full then 1 else 0 : Word) 0 = full := by cases full <;> rfl

theorem chkSearch_flag (full : Bool) (s : State) : chkSearch [if full then 1 else 0] s = none := by cases full <;> rfl

theorem passes_search {s : State} (mode : s.mode ∈ workingModes) (tag : Word) (full : Bool) :
    Passes 0x0701 tag [if full then 1 else 0] s :=
  passes_of_unprotected mode rfl (Nat.le_of_ble_eq_true rfl) (chkSearch_flag full s) rfl

theorem runSearch_of_spur {s : State} (c : Issued) (spur : isSummit s = false) : runSearch c s = (s, some (stBadState, [])) := by
  simp [runSearch, spur, answer]

theorem runSearch_of_walk {s : State} (c : Issued) (top : isSummit s = true) (walks : s.ism.walk.isSome = true) :
    runSearch c s = (s, some (stBusy, [])) := by
  simp [runSearch, top, walks, answer]

theorem runSearch_of_free {c : Issued} {s : State} {full : Bool} (flag : bitOf (arg c.args 0) 0 = full)
    (top : isSummit s = true) (free : s.ism.walk = none) :
    runSearch c s = (startSearch c.tag c.origin full s, some (stAccepted, [])) := by
  simp [runSearch, flag, top, free, answer]

theorem startSearch_cmds (tag : Word) (o : Origin) (full : Bool) (s : State) : (startSearch tag o full s).cmds = s.cmds :=
  (startSearch_keeps (L := [.host, .ism, .fi]) (.refl _ s) (by decide)).frame .cmds (by decide)

/-! ### ASSIGN (R449) -/

theorem arg4_words4 (u : Uid) (l : List Word) : arg4 (words4 u ++ l) 0 = u := by
  show ((u >>> 48).setWidth 16 ++ (u >>> 32).setWidth 16 : W32) ++ ((u >>> 16).setWidth 16 ++ u.setWidth 16 : W32) = u
  refine BitVec.eq_of_getLsbD_eq fun i inside => ?_
  simp only [BitVec.getLsbD_append, BitVec.getLsbD_setWidth, BitVec.getLsbD_ushiftRight]
  grind

theorem passes_assign {s : State} (mode : s.mode ∈ workingModes) (tag : Word) (u : Uid) {new : Word} (some_new : new ≠ 0) :
    Passes 0x0702 tag (words4 u ++ [new]) s := by
  have ok : chkAssign (words4 u ++ [new]) s = none := need_eq_none rfl (decide_eq_true some_new)
  exact passes_of_unprotected mode rfl (Nat.le_of_ble_eq_true rfl) ok rfl

theorem runAssign_of_spur {s : State} (c : Issued) (spur : isSummit s = false) : runAssign c s = (s, some (stBadState, [])) := by
  simp [runAssign, spur, answer]

theorem sendDown_of_no_dn {s : State} (none_trained : trainedDn s = []) (ctx : Word) (b : IsmBody) : sendDown ctx b s = s := by
  simp [sendDown, none_trained]

/-- The table after ASSIGN: the module takes the address, and its children their parent's new one. -/
theorem runAssign_of_listed {c : Issued} {s : State} {e : TopoEntry} (top : isSummit s = true) (free : s.ism.walk = none)
    (noDn : trainedDn s = []) (listed : topoByUid s (arg4 c.args 0) = some e)
    (unused : s.ism.table.any (fun x => x.addr = arg c.args 4 && x.uid ≠ arg4 c.args 0) = false) :
    runAssign c s = (s.setIsm { s.ism with table := s.ism.table.map (fun x => { x with
      addr := if x.uid = arg4 c.args 0 then arg c.args 4 else x.addr,
      parent := if x.parent = e.addr && e.addr ≠ 0 then arg c.args 4 else x.parent }) }, some (stOk, [])) := by
  have quiet (t : List TopoEntry) : trainedDn (s.setIsm { s.ism with table := t }) = [] := noDn
  unfold runAssign
  dsimp only
  rw [if_neg (by simp [top, free]), listed]
  dsimp only
  rw [if_neg (ne_true_of_eq_false unused)]
  exact congrArg (answer stOk) (sendDown_of_no_dn (quiet _) _ _)

/-! ### TOPO_READ (Table 07-6) -/

theorem passes_topoRead {s : State} (mode : s.mode ∈ workingModes) (tag first : Word) {count : Word}
    (low : 1 ≤ count.toNat) (high : count.toNat ≤ 113) : Passes 0x0704 tag [first, count] s := by
  have ok : chkTopoRead [first, count] s = none :=
    need_eq_none rfl (Bool.and_eq_true_iff.2 ⟨decide_eq_true low, decide_eq_true high⟩)
  exact passes_of_unprotected mode rfl (Nat.le_of_ble_eq_true rfl) ok rfl

theorem runTopoRead_of_spur {s : State} (c : Issued) (spur : isSummit s = false) :
    runTopoRead c s = (s, some (stBadState, [])) := by
  simp [runTopoRead, spur, answer]

theorem runTopoRead_of_summit {s : State} (c : Issued) (top : isSummit s = true) :
    runTopoRead c s = (s, some (stOk, words2 (BitVec.ofNat 32 s.ism.table.length) ++
      ((s.ism.table.drop (arg c.args 0).toNat).take (arg c.args 1).toNat).flatMap topoWords)) := by
  simp [runTopoRead, top, answerOk]

/-! ### FORWARD (R194, R450) -/

theorem passes_forward {s : State} (mode : s.mode ∈ workingModes) (tag dest : Word) {op : Word} {l : List Word}
    (notForward : op ≠ 0x0703) (short : l.length ≤ 1022) (key : plainKey op l = true → keyed s = true) :
    Passes 0x0703 tag ([dest, op] ++ l) s := by
  have len : ([dest, op] ++ l).length = l.length + 2 := by simp
  have fits : ([dest, op] ++ l).length ≤ 1024 := by omega
  have long : ¬ ([dest, op] ++ l).length < 2 := by omega
  exact passes_of_working mode rfl fits
    ((if_neg (Nat.not_lt.2 fits)).trans ((if_neg long).trans (if_neg notForward))) key

theorem runForward_of_spur {s : State} (c : Issued) (spur : isSummit s = false) : runForward c s = (s, some (stBadState, [])) := by
  simp [runForward, spur, answer]

section
variable {c : Issued} {s : State} (top : isSummit s = true)
include top

theorem runForward_to_self (own : arg c.args 0 = 0) :
    runForward c s = (enqueue ⟨arg c.args 1, c.tag, c.args.drop 2, true, .forwarded 0 c.tag⟩ s, none) := by
  simp [runForward, top, own, goesOn]

variable (other : arg c.args 0 ≠ 0)
include other

theorem runForward_to_listed (listed : (topoByAddr s (arg c.args 0)).isSome = true) :
    runForward c s = (sendForward c s, none) := by
  unfold runForward
  rw [if_neg (by simp [top]), if_neg other, if_neg (by simp [Option.isSome_iff_ne_none.1 listed])]
  rfl

theorem runForward_to_unlisted (unlisted : topoByAddr s (arg c.args 0) = none) :
    runForward c s = (s, some (stUnreachable, [])) := by
  unfold runForward
  rw [if_neg (by simp [top]), if_neg other, if_pos (by simp [unlisted])]
  rfl

end

theorem sendForward_cmds (c : Issued) (s : State) : (sendForward c s).cmds = s.cmds :=
  (sendForward_keeps (L := [.ism, .fi]) (.refl _ s) (by decide)).frame .cmds (by decide)

/-- FORWARD of GET_VERSIONS to the module itself: the inner command runs in the idle main lane and its end is the
FORWARD's. -/
theorem forward_getVersions_to_self {tag : Word} {s : State} (ready : CommandReady s) (mode : s.mode ∈ workingModes)
    (top : isSummit s = true) : (issueCommand 0x0703 tag [0, 0x0105] s).host.responses =
      s.host.responses ++ [⟨stOk, tag, [stOk, 8] ++ versionWords s⟩] := by
  let a : List Word := [0, 0x0105]
  let c := hostCommand 0x0703 tag a s
  let w := started 0x0703 tag a s
  let inner : Issued := ⟨0x0105, tag, [], true, .forwarded 0 tag⟩
  obtain ⟨_, _, main, image, fwd, _⟩ := id ready
  have awake : w.mode ≠ .reset := by
    intro h
    rw [show s.mode = .reset from h] at mode
    revert mode
    decide
  have passes : Passes 0x0703 tag a s :=
    passes_forward mode tag 0 (l := []) (by decide) (by decide) (fun need => absurd need Bool.noConfusion)
  have begins : startLane 2 (queued 0x0703 tag a s) = enqueue inner w :=
    startLane_queued_of_passed ready passes.2 (runForward_to_self (c := c) (s := w) top rfl)
  have quiet {k : BitVec 2} (idle : getLane (queued 0x0703 tag a s) k = Lane.idle) :
      startLane k (queued 0x0703 tag a s) = queued 0x0703 tag a s :=
    startLane_of_none_waiting (by rw [idle]; rfl)
  let z := withFree (fun t => respond inner stOk (versionWords w) (clearLane 0 t)) (putLane 0 ⟨some inner, []⟩ w)
  have runs : startLane 0 (enqueue inner w) = z := startLane_getVersions rfl rfl main awake
  have ends : respond inner stOk (versionWords w) (clearLane 0 (putLane 0 ⟨some inner, []⟩ w)) =
      withFree (fun s => queueResponse stOk tag ([stOk, BitVec.ofNat 16 (versionWords w).length] ++ versionWords w)
        (clearLane 2 s)) (clearLane 0 (putLane 0 ⟨some inner, []⟩ w)) :=
    (if_pos top).trans (answerForward_of_running (c := c) rfl _ _)
  have clear : NoneWaiting z := by
    unfold NoneWaiting
    simp only [z, withFree_cmds, ends]
    exact ⟨rfl, congrArg Lane.waiting image, rfl⟩
  rw [issueCommand_of_ready ready passes.1, pump_queued ready, pumpN, quiet (k := 0) main, quiet (k := 1) image, begins, pumpN,
    runs, startLane_of_noneWaiting clear, startLane_of_noneWaiting clear, pumpN_of_noneWaiting clear]
  simp only [z, withFree_responses, ends, versionWords_length]
  rfl

/-! ### The statement -/

/-- Settles O29: every command passes its check in these states, and the arm of its `run` function that its case names is
all that it does; the walk and the frame that a FORWARD sends leave the lanes alone. -/
theorem topologyCommands : Obligations.TopologyCommands := by
  intro tag s ready mode
  refine ⟨fun full => ⟨fun top free => ⟨_, ?search, rfl⟩, fun top walks => ?busy, fun spur => ?noSearch⟩,
    fun u new e some_new top free noDn listed unused => ?assign, fun first count top low high => ?topoRead,
    fun top => ⟨_, rfl, forward_getVersions_to_self ready mode top⟩,
    fun dest op l top other notForward short key => ⟨fun listed => ?sends, fun unlisted => ?unreachable⟩,
    fun spur => ⟨fun u new some_new => ?noAssign, ?noForward, ?noTopoRead⟩⟩
  all_goals refine congrArg Host.Outcome.next ?_
  case search =>
    exact (passes_search mode tag full).answers ready (runSearch_of_free (s := started 0x0701 tag _ s) (bitOf_flag full) top free)
      ((started_runsAlone ready).congr (startSearch_cmds ..))
  case busy =>
    exact (passes_search mode tag full).reads ready (runSearch_of_walk (s := started 0x0701 tag _ s) _ top walks)
  case noSearch =>
    exact (passes_search mode tag full).reads ready (runSearch_of_spur (s := started 0x0701 tag _ s) _ spur)
  case assign =>
    have runs := runAssign_of_listed (c := hostCommand 0x0702 tag (words4 u ++ [new]) s)
      (s := started 0x0702 tag (words4 u ++ [new]) s) (e := e) top free noDn
    rw [show (hostCommand 0x0702 tag (words4 u ++ [new]) s).args = words4 u ++ [new] from rfl, arg4_words4] at runs
    exact (passes_assign mode tag u some_new).answers ready (runs listed unused) ((started_runsAlone ready).congr rfl)
  case noAssign =>
    exact (passes_assign mode tag u some_new).reads ready (runAssign_of_spur (s := started 0x0702 tag _ s) _ spur)
  case topoRead =>
    exact (passes_topoRead mode tag first low high).reads ready (runTopoRead_of_summit (s := started 0x0704 tag _ s) _ top)
  case noTopoRead =>
    exact (passes_topoRead mode tag 0 (by decide) (by decide)).reads ready
      (runTopoRead_of_spur (s := started 0x0704 tag _ s) _ spur)
  case sends =>
    exact (passes_forward mode tag dest notForward short key).goesOn ready
      (runForward_to_listed (c := hostCommand 0x0703 tag ([dest, op] ++ l) s) (s := started 0x0703 tag _ s) top other listed)
      ((started_runsAlone ready).congr (sendForward_cmds ..))
  case unreachable =>
    exact (passes_forward mode tag dest notForward short key).reads ready
      (runForward_to_unlisted (c := hostCommand 0x0703 tag ([dest, op] ++ l) s) (s := started 0x0703 tag _ s) top other unlisted)
  case noForward =>
    exact (passes_forward mode tag 0 (l := []) (by decide) (by decide) (fun need => absurd need Bool.noConfusion)).reads ready
      (runForward_of_spur (s := started 0x0703 tag _ s) _ spur)

end Sys2Proof.Machine
end

section
/-! Module SAFE as a whole (R481, R482, R527): what a module-scope cause leaves. -/

namespace Sys2Proof.Machine

-- one theorem at a time: each proof in parallel takes a thread's stack of the memory that check.sh allows
set_option Elab.async false

theorem endWorkSafe_works (s : State) : (endWorkSafe s).cmds.works = s.cmds.works.filter (fun w => !isOutOfService w) := by
  unfold endWorkSafe
  extract_lets gone _ left before _ reported _ pinned quiet
  have report : reported.cmds = left.cmds :=
    (powerReport_keeps (L := [.pwr, .host, .ism, .fi]) (State.setPwr_keeps (.refl _ left) (by decide)) (by decide)).frame .cmds
      (by decide)
  have ended := (Keeps.foldl (L := [.host, .ism, .fi]) (s₀ := quiet) (l := gone)
    (f := fun s w => calDoneEvent w stSafetyLock w.done (w.failed + workRest w) s)
    (fun _ _ k => calDoneEvent_keeps k (by decide)) (.refl _ quiet)).frame .cmds (by decide)
  exact congrArg Commands.works (ended.trans report)

theorem foldl_sendBye_allChans (l : List Chan) (reason : List Byte) (s : State) :
    allChans (l.foldl (fun s c => sendBye c.no reason s) s) = allChans s :=
  List.foldlRecOn (motive := fun t => allChans t = allChans s) l _ rfl
    (fun _ same c _ => (allChans_sendBye c.no reason _).trans same)

/-- A module-scope cause that acts outside SAFE: SAFE is entered with it, and out-of-service work ends (R481, R497). -/
theorem moduleSafe_enters {cause : Byte} {s : State} (acts : causeActs cause s.mode = true) (first : s.saf.safe = false) :
    SafeEntered cause s (moduleSafe cause s) ∧
    (moduleSafe cause s).cmds.works = s.cmds.works.filter (fun w => !isOutOfService w) := by
  unfold moduleSafe
  rw [if_neg (by simp [acts]), if_neg (by simp [first])]
  extract_lets _ marked bye _ idle recorded entered told ended closed
  have byes : Keeps parts13 marked bye := .foldl (fun _ _ k => sendBye_keeps k (by decide)) (.refl _ marked)
  have record : Keeps [.host, .ism, .fi] idle recorded := safeRecord_keeps (.refl _ idle) (by decide)
  have events : Keeps [.host, .ism, .fi] entered told :=
    .foldl (fun _ _ k => raiseChState_keeps k (by decide)) (.refl _ entered)
  have ends : Keeps [.pwr, .pins, .host, .cmds, .tdm, .ism, .fi] told ended := endWorkSafe_keeps (.refl _ told) (by decide)
  have closes : Keeps [.fi, .mem] ended closed := closeSegment_keeps (.refl _ ended) (by decide)
  have boot : closed.boot = entered.boot := closes.same_boot.trans (ends.same_boot.trans events.same_boot)
  have saf : closed.saf = marked.saf :=
    closes.same_saf.trans (ends.same_saf.trans (events.same_saf.trans (record.same_saf.trans byes.same_saf)))
  have led : closed.led = idle.led :=
    closes.same_led.trans (ends.same_led.trans (events.same_led.trans record.same_led))
  have works : told.cmds = s.cmds :=
    (events.frame .cmds (by decide)).trans ((record.frame .cmds (by decide)).trans (byes.frame .cmds (by decide)))
  have numbers : idle.led.chans.map Chan.no = s.led.chans.map Chan.no :=
    List.map_map.trans (foldl_sendBye_allChans s.led.chans outOfService marked)
  refine ⟨⟨congrArg Boot.mode boot, congrArg Safety.safe saf, congrArg Safety.cause saf, congrArg Safety.cls saf, rfl,
    (congrArg (fun l : Ledger => l.chans.map Chan.no) led).trans numbers, fun c mem => ?_⟩, ?_⟩
  · obtain ⟨x, _, rfl⟩ := List.mem_map.1 ((congrArg (fun l : Ledger => c ∈ l.chans) led).mp mem)
    exact ⟨rfl, rfl⟩
  · exact (congrArg Commands.works (closes.frame .cmds (by decide))).trans
      ((endWorkSafe_works told).trans (congrArg (fun x : Commands => x.works.filter (fun w => !isOutOfService w)) works))

end Sys2Proof.Machine
end

section
/-! Calibration items, CAL_RUN, CAL_READ, CAL_RESTORE_FACTORY and SELFTEST (R198, R498, R501-R512). -/

namespace Sys2Proof.Machine

-- one theorem at a time: each proof in parallel takes a thread's stack of the memory that check.sh allows
set_option Elab.async false

/-! ### Work (R198) -/

theorem RunsAlone.addWork {c : Issued} {s : State} (alone : RunsAlone c s) (w : Work) : RunsAlone c (addWork w s) :=
  alone.congr_lanes rfl rfl rfl

/-- A command that is accepted with its work, and changes no lane. -/
theorem Passes.accepts {op tag : Word} {args : List Word} {s t : State} {w : Work} (ready : CommandReady s)
    (passes : Passes op tag args s)
    (runs : runCommand (hostCommand op tag args s) (started op tag args s) = accept w t)
    (same : t.cmds = (started op tag args s).cmds) :
    issueCommand op tag args s = answered op tag stAccepted [] (addWork w t) :=
  passes.answers ready runs (((started_runsAlone ready).congr same).addWork w)

theorem clearLane_works (k : BitVec 2) (s : State) : (clearLane k s).cmds.works = s.cmds.works := by
  unfold clearLane putLane
  split <;> rfl

/-- The accepted work is the only one where there was none. -/
theorem accepted_works {op tag : Word} {args : List Word} {s t : State} (same : t.cmds = (started op tag args s).cmds)
    (no_work : s.cmds.works = []) (w : Work) (st : Word) (ws : List Word) :
    (answered op tag st ws (addWork w t)).cmds.works = [w] := by
  have works : t.cmds.works = [] := (congrArg Commands.works same).trans ((started_works ..).trans no_work)
  exact (clearLane_works _ (addWork w t)).trans (by simp [addWork, works])

theorem calBusy_of_no_work {s : State} (idle : s.cmds.works = []) : calBusy s = false := by
  simp [calBusy, idle]

theorem findWork_of_only {s : State} {w : Work} {op : Word} {test : Option Nat} (works : s.cmds.works = [w])
    (is_op : w.op = op) (is_test : ∀ t ∈ test, w.test = t) : findWork s op test = some w := by
  cases test with
  | none => simp [findWork, works, is_op]
  | some t => simp [findWork, works, is_op, is_test t rfl]

theorem modWork_works {s : State} {w : Work} (works : s.cmds.works = [w]) {x : Work} (same : sameWork w x = true) :
    (modWork x s).cmds.works = [x] := by
  simp [modWork, works, same]

theorem endWork_works {s : State} {w : Work} (works : s.cmds.works = [w]) (st : Word) : (endWork w st s).cmds.works = [] := by
  have event := (calDoneEvent_keeps (L := [.host, .ism, .fi]) (w := w) (status := st) (done := w.done) (failed := w.failed)
    (.refl _ (dropWork w s)) (by decide)).frame .cmds (by decide)
  have same : sameWork w w = true := by simp [sameWork]
  refine (congrArg Commands.works event).trans ?_
  simp [dropWork, works, same]

/-- CAL_RUN and SELFTEST without FORCE need no key (R155). -/
theorem keyNeeded_of_plain {op : Word} {a : List Word} (known : op = 0x0901 ∨ op = 0x0904) (plain : arg a 1 = 0) :
    keyNeeded op a = false := by
  obtain rfl | rfl := known <;> simp [keyNeeded, plainKey, plain, bitOf]

/-! ### Offsets and their quiet points (R504) -/

theorem applyCal_of_only {s : State} {item : Word} {v : Int} (waits : s.cal.waiting = [(item, v)]) :
    applyCal item s = s.setCal { s.cal with offsets := alSet s.cal.offsets item v, waiting := [] } := by
  simp [applyCal, waits, alFind, alErase]

section
variable {s : State} {item : Word} (v : Int) (none_waits : s.cal.waiting = [])
include none_waits

/-- A new offset where no other waits. -/
theorem offerCal_of_none_waiting :
    let t := s.setCal { s.cal with waiting := [(item, v)] }
    offerCal item v s = if calInUse t item then t else applyCal item t := by
  unfold offerCal
  rw [none_waits]
  rfl

theorem offerCal_of_used (used : calInUse s item = true) :
    offerCal item v s = s.setCal { s.cal with waiting := [(item, v)] } :=
  (offerCal_of_none_waiting v none_waits).trans (if_pos used)

theorem offerCal_of_unused (unused : calInUse s item = false) :
    offerCal item v s = s.setCal { s.cal with offsets := alSet s.cal.offsets item v, waiting := [] } :=
  (offerCal_of_none_waiting v none_waits).trans
    ((if_neg (ne_true_of_eq_false unused)).trans (applyCal_of_only rfl))

end

/-- The overlay and its flag are the same. -/
def SameOverlay (s t : State) : Prop := t.cal.overlay = s.cal.overlay ∧ t.cal.overlayOk = s.cal.overlayOk

theorem SameOverlay.trans {s t u : State} (h : SameOverlay s t) (k : SameOverlay t u) : SameOverlay s u :=
  ⟨k.1.trans h.1, k.2.trans h.2⟩

theorem applyCal_sameOverlay (item : Word) (s : State) : SameOverlay s (applyCal item s) := by
  unfold applyCal
  split <;> exact ⟨rfl, rfl⟩

theorem SameOverlay.foldl {α : Type} {f : State → α → State} (hf : ∀ s a, SameOverlay s (f s a)) (l : List α) (s : State) :
    SameOverlay s (l.foldl f s) :=
  List.foldlRecOn (motive := SameOverlay s) l f ⟨rfl, rfl⟩ (fun t h a _ => h.trans (hf t a))

theorem offerCal_sameOverlay (item : Word) (v : Int) (s : State) : SameOverlay s (offerCal item v s) := by
  refine .trans ⟨rfl, rfl⟩ (SameOverlay.foldl (fun t i => ?_) _ (s.setCal { s.cal with waiting := alSet s.cal.waiting item v }))
  split
  · exact ⟨rfl, rfl⟩
  · exact applyCal_sameOverlay i t

/-! ### CAL_RUN of an overlay item (R501) -/

theorem append_words2 (v : W32) : ((v >>> 16).setWidth 16 ++ v.setWidth 16 : W32) = v := by
  refine BitVec.eq_of_getLsbD_eq fun i inside => ?_
  simp only [BitVec.getLsbD_append, BitVec.getLsbD_setWidth, BitVec.getLsbD_ushiftRight]
  grind

theorem passes_calRun_overlay {s : State} (mode : s.mode ∈ workingModes) (tag : Word) {item : Word} {v : W32} {lo hi : Int}
    (kind : calItem item = some (.overlay, lo, hi)) (low : lo ≤ v.toInt) (high : v.toInt ≤ hi) :
    Passes 0x0901 tag [item, 0, 2, v.setWidth 16, (v >>> 16).setWidth 16] s := by
  have value : arg2 [item, 0, 2, v.setWidth 16, (v >>> 16).setWidth 16] 3 = v := append_words2 v
  have ok : chkCalRun [item, 0, 2, v.setWidth 16, (v >>> 16).setWidth 16] s = none := by
    unfold chkCalRun
    rw [value]
    simp [listLength, arg, kind, low, high]
  exact passes_of_unprotected mode rfl (Nat.le_of_ble_eq_true rfl) ok (keyNeeded_of_plain (.inl rfl) rfl)

/-- The work of a CAL_RUN whose offset is in place. -/
def overlayWork (c : Issued) : Work := { newWork c (arg c.args 0).toNat 0 with ready := true, done := 1 }

/-- The overlay with its entry for the item set. -/
def overlaid (item : Word) (v : Int) (s : State) : State :=
  s.setCal { s.cal with overlay := alSet s.cal.overlay item v, overlayOk := true }

theorem runCalRun_of_overlay {c : Issued} {s : State} {v : W32} {lo hi : Int}
    (kind : calItem (arg c.args 0) = some (.overlay, lo, hi)) (value : arg2 c.args 3 = v) (idle : calBusy s = false)
    (supplied : s.pwr.pwrfail = false) :
    runCalRun c s = accept (overlayWork c) (offerCal (arg c.args 0) v.toInt (overlaid (arg c.args 0) v.toInt s)) := by
  simp [runCalRun, kind, value, idle, supplied, overlayWork, overlaid]

theorem calRunDone_of_ready {s : State} {w : Work} (works : s.cmds.works = [w]) (is_op : w.op = 0x0901)
    (ready : w.ready = true) (applied : alFind s.cal.waiting (BitVec.ofNat 16 w.test) = none) (v : Int) :
    calRunDone v s = endWork w stOk s := by
  unfold calRunDone
  rw [findWork_of_only works is_op (test := none) (by simp)]
  dsimp only
  rw [ready, if_pos rfl, applied]
  rfl

/-! ### CAL_RUN of a measured item (R508) -/

theorem calItem_highway (n : HwyNo) : calItem (0x0500 + n.setWidth 16) = some (.measured, -64, 64) := by
  revert n
  decide

theorem highwayItem_toNat (n : HwyNo) : (0x0500 + n.setWidth 16 : Word).toNat = 0x500 + n.toNat := by
  bv_omega

theorem passes_calRun_measured {s : State} (mode : s.mode ∈ workingModes) (tag : Word) {item : Word} {lo hi : Int}
    (kind : calItem item = some (.measured, lo, hi)) : Passes 0x0901 tag [item, 0, 0] s := by
  have ok : chkCalRun [item, 0, 0] s = none := by
    simp [chkCalRun, listLength, arg, kind, upTo, namedOk]
  exact passes_of_unprotected mode rfl (Nat.le_of_ble_eq_true rfl) ok (keyNeeded_of_plain (.inl rfl) rfl)

/-- A measurement without users starts at once. -/
theorem runCalRun_of_measured {c : Issued} {s : State} {lo hi : Int} (kind : calItem (arg c.args 0) = some (.measured, lo, hi))
    (idle : calBusy s = false) (no_users : calUsers (arg c.args 0) s = []) (plain : arg c.args 1 = 0) :
    runCalRun c s = startMeasure c (arg c.args 0) s := by
  simp [runCalRun, kind, idle, no_users, plain, outOfServiceGate]

theorem calUsers_highway {s : State} {n : HwyNo} (free : s.led.chans.any (fun c => c.prof.hwy = n) = false) :
    calUsers (0x0500 + n.setWidth 16) s = [] := by
  have below : (0x0500 + n.setWidth 16 : Word).toNat < 0x600 := by rw [highwayItem_toNat]; omega
  unfold calUsers
  rw [if_pos below, highwayItem_toNat, List.map_eq_nil_iff, List.filter_eq_nil_iff]
  simpa [BitVec.toNat_inj] using free

theorem startMeasure_highway (c : Issued) (n : HwyNo) (s : State) :
    let x := getHwy s n
    startMeasure c (0x0500 + n.setWidth 16) s =
      accept (newWork c (0x0500 + n.toNat) (if x.aligned then 1 else 0))
        (putHwy n { x with trimRun := x.trimRun || x.aligned, aligned := false, goodPulses := 0, line := [] } s) := by
  have below : (0x0500 + n.setWidth 16 : Word).toNat < 0x600 := by rw [highwayItem_toNat]; omega
  have number : (0x0500 + n.setWidth 16 : Word).setWidth 5 = n := by bv_omega
  unfold startMeasure
  rw [if_pos below, highwayItem_toNat, number]
  rfl

theorem startMeasure_power {c : Issued} {item : Word} (power : 0x600 ≤ item.toNat) (s : State) :
    startMeasure c item s = accept (newWork c item.toNat 1) (s.setPwr { s.pwr with held := some (effCeil s) }) :=
  if_neg (Nat.not_lt.2 power)

/-- The rails' items. -/
theorem calUsers_power {item : Word} (power : 0x600 ≤ item.toNat) {s : State} (empty : s.led.chans = []) :
    calUsers item s = [] := by
  unfold calUsers
  rw [if_neg (Nat.not_lt.2 power), allChans, empty]
  rfl

/-! ### CAL_READ (R498) -/

theorem isTestItem_of_calItem {item : Word} {x : ItemKind × Int × Int} (known : calItem item = some x) :
    isTestItem item = false := by
  have beyond : 0x8001 ≤ item.toNat → calItem item = none := by
    intro high
    unfold calItem
    dsimp only
    repeat rw [if_neg (by omega)]
  have low : ¬ 0x8001 ≤ item.toNat := fun high => by
    rw [beyond high] at known
    cases known
  simp [isTestItem, low]

theorem passes_calRead {s : State} (mode : s.mode ∈ workingModes) (tag : Word) {item : Word} {x : ItemKind × Int × Int}
    (known : calItem item = some x) : Passes 0x0903 tag [item] s := by
  have ok : chkCalRead [item] s = none := need_eq_none rfl (by simp [arg, known])
  exact passes_of_unprotected mode rfl (Nat.le_of_ble_eq_true rfl) ok rfl

theorem runCalRead_of_item {c : Issued} {k : ItemKind} {lo hi : Int} (known : calItem (arg c.args 0) = some (k, lo, hi))
    (s : State) :
    let item := arg c.args 0
    runCalRead c s = (s, some (stOk, i32 (alGet s.hw.factory item 0) ++ i32 (alGet s.cal.offsets item 0) ++
      i32 (alGet s.hw.factory item 0 + alGet s.cal.offsets item 0) ++ i32 hi)) := by
  simp [runCalRead, isTestItem_of_calItem known, known, answerOk]

/-! ### CAL_RESTORE_FACTORY (R506) -/

theorem passes_calRestore {s : State} (mode : s.mode ∈ workingModes) (tag : Word) : Passes 0x0902 tag [] s :=
  passes_of_unprotected mode rfl (by decide) rfl rfl

theorem runCalRestore_of_supplied {c : Issued} {s : State} (idle : calBusy s = false) (supplied : s.pwr.pwrfail = false) :
    runCalRestore c s = (restoreFactory (addWork (newWork c 0 0) s), some (stAccepted, [])) := by
  have supplied' : (addWork (newWork c 0 0) s).pwr.pwrfail = false := supplied
  simp [runCalRestore, idle, accept, answer, supplied']

/-- The overlay is empty, and only the accepted work among the commands' parts can differ. -/
theorem restoreFactory_effect (s : State) :
    (restoreFactory s).cal.overlay = [] ∧ (restoreFactory s).cal.overlayOk = false ∧ (restoreFactory s).host = s.host ∧
    (restoreFactory s).cmds.main = s.cmds.main ∧ (restoreFactory s).cmds.image = s.cmds.image ∧
    (restoreFactory s).cmds.fwd = s.cmds.fwd := by
  unfold restoreFactory
  extract_lets changed _ deleted offered
  have overlay : SameOverlay deleted offered := .foldl (fun t i => offerCal_sameOverlay i 0 t) changed deleted
  have rest : Keeps [.cal] deleted offered := .foldl (fun _ _ k => offerCal_keeps k (by decide)) (.refl _ deleted)
  have cmds : offered.cmds = s.cmds := rest.frame .cmds (by decide)
  have host : offered.host = s.host := rest.frame .host (by decide)
  have lanes := And.intro (congrArg Commands.main cmds) (And.intro (congrArg Commands.image cmds) (congrArg Commands.fwd cmds))
  split <;> exact ⟨overlay.1, overlay.2, host, lanes⟩

/-! ### SELFTEST (R507, R512) -/

theorem passes_selftest {s : State} (mode : s.mode ∈ workingModes) (tag : Word) {t target : Word} (first : 1 ≤ t.toNat)
    (last : t.toNat ≤ 4) (units : (testUnits s t.toNat target.toNat).isSome = true) :
    Passes 0x0904 tag [t, 0, target, 0] s := by
  have ok {w : State} (units : (testUnits w t.toNat target.toNat).isSome = true) : chkSelftest [t, 0, target, 0] w = none := by
    simp [chkSelftest, listLength, arg, upTo, namedOk, first, last, units]
  exact passes_of_unprotected mode rfl (Nat.le_of_ble_eq_true rfl) (ok units) (keyNeeded_of_plain (.inr rfl) rfl)

theorem testUnits_core {s : State} {n : CoreNo} (there : n.toNat < coreCount s) (up : (getCore s n).withdrawn = false)
    (busy : (getCore s n).drained = false) : testUnits s 1 n.toNat = some [n.toNat] := by
  have named : n.toNat ≠ 0xFFFF := by omega
  simp [testUnits, named, there, up, busy]

theorem testUnits_engine {s : State} {e : BitVec 1} (up : engineUp s e = true) : testUnits s 2 e.toNat = some [e.toNat] := by
  have named : e.toNat ≠ 0xFFFF := by omega
  have two : e.toNat < 2 := by omega
  simp [testUnits, named, two, up]

theorem testUnits_cells {n : Nat} (low : 16 ≤ n) (high : n ≤ 1024) (s : State) : testUnits s 3 n = some [] := by
  simp [testUnits, low, high]

/-- The command names test `t` with these units, and the test does not run yet. -/
structure Starts (t target : Nat) (units : List Nat) (c : Issued) (s : State) : Prop where
  is_test : (arg c.args 0).toNat = t
  is_target : (arg c.args 2).toNat = target
  found : testUnits s t target = some units
  free : findWork s 0x0904 (some t) = none

section
variable {c : Issued} {s : State} {target : Nat} {units : List Nat}

theorem Starts.cores (h : Starts 1 target units c s) :
    runSelftest c s = accept { newWork c 1 target with todo := units }
      (units.foldl (fun s n => requestDrain (BitVec.ofNat 7 n) s) s) := by
  unfold runSelftest
  rw [h.is_test, h.is_target]
  dsimp only
  rw [h.found, h.free]
  rfl

theorem Starts.engines (h : Starts 2 target units c s) :
    runSelftest c s = accept { newWork c 2 target with todo := units } s := by
  unfold runSelftest
  rw [h.is_test, h.is_target]
  dsimp only
  rw [h.found, h.free]
  rfl

theorem Starts.cells (h : Starts 3 target units c s) :
    runSelftest c s = accept { newWork c 3 target with todo := units } (s.setQm { s.qm with marched := [] }) := by
  unfold runSelftest
  rw [h.is_test, h.is_target]
  dsimp only
  rw [h.found, h.free]
  rfl

/-- The DRAM test without channels in its way. -/
theorem Starts.dram (h : Starts 4 target units c s) (empty : s.led.chans = []) (plain : arg c.args 1 = 0) :
    runSelftest c s = accept { newWork c 4 target with todo := units } s := by
  have gate : outOfServiceGate (allChans s) (namedChans c.args 3 s) (arg c.args 1 = 1) s = .ok s := by
    simp [outOfServiceGate, allChans, empty, plain]
  unfold runSelftest
  rw [h.is_test, h.is_target]
  dsimp only
  rw [h.found, h.free]
  rw [gate]
  rfl

end

/-! ### The end of the DRAM test (R510) -/

theorem isOutOfService_dram {w : Work} (op : w.op = 0x0904) (test : w.test = 4) : isOutOfService w = true := by
  simp [isOutOfService, op, test]

/-- A failing block: SAFE with cause 0x20, and no work is left. -/
theorem dramDone_of_failing {s : State} {w : Work} (works : s.cmds.works = [w]) (op : w.op = 0x0904) (test : w.test = 4)
    {b : Nat} (block : b < 8) (acts : causeActs 0x20 s.mode = true) (first : s.saf.safe = false) :
    SafeEntered 0x20 s (dramDone [b] s) ∧ (dramDone [b] s).cmds.works = [] := by
  let ended : Work := { w with done := b, todo := w.todo.drop b }
  let t := recordTest 4 (some b) (modWork ended s)
  have found : findWork s 0x0904 (some 4) = some w := findWork_of_only works op (fun t is => test.trans (Option.mem_some.1 is))
  have lowest : minBy (fun n => n) ([b].filter (fun n => decide (n < 8))) = some b := by simp [block, minBy]
  have done : dramDone [b] s = moduleSafe 0x20 t := by
    unfold dramDone
    rw [found]
    dsimp only
    rw [lowest]
  have left : t.cmds.works = [ended] := modWork_works works (by simp [sameWork, ended])
  have gone : isOutOfService ended = true := isOutOfService_dram op test
  obtain ⟨entered, rest⟩ := moduleSafe_enters (cause := 0x20) (s := t) acts first
  rw [done]
  refine ⟨entered, rest.trans ?_⟩
  simp [left, gone]

/-! ### The commands issued -/

section
variable {s : State} (ready : CommandReady s) (mode : s.mode ∈ workingModes) (tag : Word)
include ready mode

/-- CAL_RUN of an overlay item: the overlay at once, and the offset as R504 gives. -/
theorem exec_calRun_overlay {item : Word} {v : W32} {lo hi : Int} {t : State} (kind : calItem item = some (.overlay, lo, hi))
    (low : lo ≤ v.toInt) (high : v.toInt ≤ hi) (no_work : s.cmds.works = []) (supplied : s.pwr.pwrfail = false)
    (offered : offerCal item v.toInt (overlaid item v.toInt
      (started 0x0901 tag [item, 0, 2, v.setWidth 16, (v >>> 16).setWidth 16] s)) = t) :
    let a := [item, 0, 2, v.setWidth 16, (v >>> 16).setWidth 16]
    let w := overlayWork (hostCommand 0x0901 tag a s)
    let u := answered 0x0901 tag stAccepted [] (addWork w t)
    exec (.calRun tag a) s = .next u ∧ u.cmds.works = [w] := by
  intro a w u
  have same : t.cmds = (started 0x0901 tag a s).cmds := by
    rw [← offered]
    exact (offerCal_keeps (L := [.cal]) (.refl _ (overlaid item v.toInt (started 0x0901 tag a s))) (by decide)).frame .cmds
      (by decide)
  have idle : calBusy (started 0x0901 tag a s) = false := calBusy_of_no_work ((started_works ..).trans no_work)
  have runs := runCalRun_of_overlay (c := hostCommand 0x0901 tag a s) (s := started 0x0901 tag a s) kind (append_words2 v)
    idle supplied
  have passes := passes_calRun_overlay mode tag kind low high
  exact ⟨congrArg Host.Outcome.next (passes.accepts ready (runs.trans (congrArg (accept w) offered)) same),
    accepted_works same no_work w stAccepted []⟩

theorem exec_calRun_highway {n : HwyNo} (idle : calBusy s = false)
    (free : s.led.chans.any (fun c => c.prof.hwy = n) = false) :
    let a : List Word := [0x0500 + n.setWidth 16, 0, 0]
    let x := getHwy s n
    exec (.calRun tag a) s = .next (answered 0x0901 tag stAccepted []
      (addWork (newWork (hostCommand 0x0901 tag a s) (0x0500 + n.toNat) (if x.aligned then 1 else 0))
        (putHwy n { x with trimRun := x.trimRun || x.aligned, aligned := false, goodPulses := 0, line := [] }
          (started 0x0901 tag a s)))) := by
  intro a x
  have measures := runCalRun_of_measured (c := hostCommand 0x0901 tag a s) (s := started 0x0901 tag a s) (calItem_highway n)
    idle (calUsers_highway (s := started 0x0901 tag a s) free) rfl
  have runs := measures.trans (startMeasure_highway (hostCommand 0x0901 tag a s) n (started 0x0901 tag a s))
  exact congrArg Host.Outcome.next ((passes_calRun_measured mode tag (calItem_highway n)).accepts ready runs rfl)

theorem exec_calRun_power {item : Word} (power : 0x600 ≤ item.toNat) (measured : (calItem item).map Prod.fst = some .measured)
    (idle : calBusy s = false) (empty : s.led.chans = []) :
    let a : List Word := [item, 0, 0]
    exec (.calRun tag a) s = .next (answered 0x0901 tag stAccepted []
      (addWork (newWork (hostCommand 0x0901 tag a s) item.toNat 1)
        ((started 0x0901 tag a s).setPwr { s.pwr with held := some (effCeil s) }))) := by
  intro a
  obtain ⟨⟨k, lo, hi⟩, known, rfl⟩ := Option.map_eq_some_iff.1 measured
  have measures := runCalRun_of_measured (c := hostCommand 0x0901 tag a s) (s := started 0x0901 tag a s) known idle
    (calUsers_power (s := started 0x0901 tag a s) power empty) rfl
  have runs := measures.trans (startMeasure_power power (started 0x0901 tag a s))
  exact congrArg Host.Outcome.next ((passes_calRun_measured mode tag known).accepts ready runs rfl)

theorem exec_calRead {item : Word} {k : ItemKind} {lo hi : Int} (known : calItem item = some (k, lo, hi)) :
    exec (.calRead tag [item]) s = .next (answered 0x0903 tag stOk
      (i32 (alGet s.hw.factory item 0) ++ i32 (alGet s.cal.offsets item 0) ++
       i32 (alGet s.hw.factory item 0 + alGet s.cal.offsets item 0) ++ i32 hi) (started 0x0903 tag [item] s)) :=
  congrArg Host.Outcome.next ((passes_calRead mode tag known).reads ready
    (runCalRead_of_item (c := hostCommand 0x0903 tag [item] s) known (started 0x0903 tag [item] s)))

theorem exec_calRestoreFactory (no_work : s.cmds.works = []) (supplied : s.pwr.pwrfail = false) :
    exec (.calRestoreFactory tag []) s = .next (answered 0x0902 tag stAccepted []
      (restoreFactory (addWork (newWork (hostCommand 0x0902 tag [] s) 0 0) (started 0x0902 tag [] s)))) := by
  let x := addWork (newWork (hostCommand 0x0902 tag [] s) 0 0) (started 0x0902 tag [] s)
  obtain ⟨_, _, _, main, image, fwd⟩ := restoreFactory_effect x
  have alone : RunsAlone (hostCommand 0x0902 tag [] s) (restoreFactory x) :=
    (started_runsAlone ready).congr_lanes main image fwd
  have runs := runCalRestore_of_supplied (c := hostCommand 0x0902 tag [] s) (s := started 0x0902 tag [] s)
    (calBusy_of_no_work ((started_works ..).trans no_work)) supplied
  exact congrArg Host.Outcome.next ((passes_calRestore mode tag).answers ready runs alone)

/-- SELFTEST without FORCE and without channels in its list. -/
theorem exec_selftest {t target : Word} {k m : Nat} {units : List Nat} {v : State} (first : 1 ≤ k) (last : k ≤ 4)
    (starts : Starts k m units (hostCommand 0x0904 tag [t, 0, target, 0] s) (started 0x0904 tag [t, 0, target, 0] s))
    (runs : runSelftest (hostCommand 0x0904 tag [t, 0, target, 0] s) (started 0x0904 tag [t, 0, target, 0] s) =
      accept { newWork (hostCommand 0x0904 tag [t, 0, target, 0] s) k m with todo := units } v)
    (same : v.cmds = (started 0x0904 tag [t, 0, target, 0] s).cmds) :
    exec (.selftest tag [t, 0, target, 0]) s = .next (answered 0x0904 tag stAccepted []
      (addWork { newWork (hostCommand 0x0904 tag [t, 0, target, 0] s) k m with todo := units } v)) := by
  obtain ⟨is_test, is_target, found, _⟩ := starts
  have is_test : t.toNat = k := is_test
  have is_target : target.toNat = m := is_target
  have units_found : (testUnits s t.toNat target.toNat).isSome = true := by
    rw [is_test, is_target, show testUnits s k m = some units from found]
    rfl
  have passes := passes_selftest mode tag (by omega) (by omega) units_found
  exact congrArg Host.Outcome.next (passes.accepts ready runs same)

end

/-! ### The statement -/

/-- Settles O31: each command passes its check, and its `run` function starts the work or gives the words; the work of an
overlay item is over as soon as its offset is in force. -/
theorem calibrationCommands : Obligations.CalibrationCommands := by
  intro tag s ready mode
  refine ⟨fun item v lo hi kind low high supplied no_work none_waits => ⟨fun unused => ?unused, fun used => ?used⟩,
    fun n idle free => exec_calRun_highway ready mode tag idle free,
    fun item rail idle empty measured => exec_calRun_power ready mode tag ?power measured idle empty,
    fun item k lo hi known => exec_calRead ready mode tag known, fun no_work supplied => ?restore,
    fun n low high free => ?cells, fun n there up busy free => ?core, fun e up free => ?engine,
    fun empty no_work mode' first => ?dram⟩
  case unused =>
    obtain ⟨issue, works⟩ := exec_calRun_overlay ready mode tag kind low high no_work supplied
      (offerCal_of_unused v.toInt none_waits unused)
    have done := calRunDone_of_ready works rfl rfl rfl (0 : W32).toInt
    exact ⟨_, issue, rfl, rfl, rfl, rfl, rfl, _, congrArg Host.Outcome.next done, endWork_works works stOk⟩
  case used =>
    obtain ⟨issue, _⟩ := exec_calRun_overlay ready mode tag kind low high no_work supplied
      (offerCal_of_used v.toInt none_waits used)
    exact ⟨_, issue, rfl, rfl, rfl, _, congrArg Host.Outcome.next (applyCal_of_only rfl), rfl, rfl⟩
  case power =>
    obtain rfl | rfl | rfl : item = 0x0600 ∨ item = 0x0601 ∨ item = 0x0602 := by simpa using rail
    all_goals exact Nat.le_of_ble_eq_true rfl
  case restore =>
    obtain ⟨overlay, flag, host, _⟩ := restoreFactory_effect
      (addWork (newWork (hostCommand 0x0902 tag [] s) 0 0) (started 0x0902 tag [] s))
    exact ⟨_, exec_calRestoreFactory ready mode tag no_work supplied, overlay, flag,
      congrArg (fun h : HostPort => h.responses ++ [⟨stAccepted, tag, []⟩]) host⟩
  case cells =>
    have starts : Starts 3 n.toNat [] (hostCommand 0x0904 tag [3, 0, n, 0] s) (started 0x0904 tag [3, 0, n, 0] s) :=
      ⟨rfl, rfl, testUnits_cells low high _, free⟩
    exact exec_selftest ready mode tag (by decide) (by decide) starts starts.cells rfl
  case core =>
    intro a
    have small : (n.setWidth 16 : Word).toNat = n.toNat := by bv_omega
    have starts : Starts 1 n.toNat [n.toNat] (hostCommand 0x0904 tag a s) (started 0x0904 tag a s) :=
      ⟨rfl, small, testUnits_core there up busy, free⟩
    have runs := starts.cores
    rw [List.foldl_cons, List.foldl_nil, BitVec.ofNat_toNat, BitVec.setWidth_eq] at runs
    exact exec_selftest ready mode tag (by decide) (by decide) starts runs
      ((requestDrain_keeps (L := [.sch]) (.refl _ _) (by decide)).frame .cmds (by decide))
  case engine =>
    intro a
    have small : (e.setWidth 16 : Word).toNat = e.toNat := by bv_omega
    have starts : Starts 2 e.toNat [e.toNat] (hostCommand 0x0904 tag a s) (started 0x0904 tag a s) :=
      ⟨rfl, small, testUnits_engine up, free⟩
    exact exec_selftest ready mode tag (by decide) (by decide) starts starts.engines rfl
  case dram =>
    intro a w u
    have free : findWork s 0x0904 (some 4) = none := by rw [findWork, no_work]; rfl
    have starts : Starts 4 0 (List.range 8) (hostCommand 0x0904 tag a s) (started 0x0904 tag a s) := ⟨rfl, rfl, rfl, free⟩
    have works : u.cmds.works = [w] := accepted_works rfl no_work w stAccepted []
    have acts : causeActs 0x20 s.mode = true := by
      revert mode
      cases s.mode <;> decide
    exact ⟨exec_selftest ready mode tag (by decide) (by decide) starts (starts.dram empty rfl) rfl,
      fun b block => ⟨_, rfl, dramDone_of_failing works rfl rfl block acts first⟩⟩

end Sys2Proof.Machine
end

section
/-! Ismorlink frames: what a port sends appears on its line, and what a received frame leaves (R434-R438). -/

namespace Sys2Proof.Machine

-- one theorem at a time: each proof in parallel takes a thread's stack of the memory that check.sh allows
set_option Elab.async false

/-! ### Ports -/

theorem ismPort_congr {s t : State} (same : t.ism.ports = s.ism.ports) (p : PortNo) : ismPort t p = ismPort s p := by
  simp [ismPort, same]

theorem ismPort_putIsmPort {s : State} (sized : s.ism.ports.length = 4) (p q : PortNo) (x : IsmPort) :
    ismPort (putIsmPort p x s) q = if q = p then x else ismPort s q := by
  have inside : p.toNat < s.ism.ports.length := by omega
  unfold ismPort putIsmPort setAt
  simp only [State.setIsm_ism]
  by_cases here : q = p
  · simp [here, List.getD_eq_getElem?_getD, List.getElem?_set_self inside]
  · have apart : p.toNat ≠ q.toNat := fun same => here (BitVec.eq_of_toNat_eq same).symm
    simp [here, List.getD_eq_getElem?_getD, List.getElem?_set_ne apart]

/-- Outside its ports, routes and topology table the Ismorlink part is the same. -/
def LinkOnly (s t : State) : Prop :=
  t.ism = { s.ism with ports := t.ism.ports, routes := t.ism.routes, table := t.ism.table }

theorem LinkOnly.trans {s t u : State} (h : LinkOnly s t) (k : LinkOnly t u) : LinkOnly s u := by
  unfold LinkOnly at h k ⊢
  rw [k, h]

theorem LinkOnly.of_eq {s t : State} (same : t.ism = s.ism) : LinkOnly s t := by
  unfold LinkOnly
  rw [same]

theorem LinkOnly.foldl {α : Type} {f : State → α → State} (hf : ∀ s a, LinkOnly s (f s a)) (l : List α) (s : State) :
    LinkOnly s (l.foldl f s) :=
  List.foldlRecOn (motive := LinkOnly s) l f (.of_eq rfl) (fun t h a _ => h.trans (hf t a))

theorem LinkOnly.gathers {s t : State} (h : LinkOnly s t) : t.ism.gathers = s.ism.gathers :=
  Eq.trans (congrArg Ismorlink.gathers h) rfl

theorem LinkOnly.evtUp {s t : State} (h : LinkOnly s t) : t.ism.evtUp = s.ism.evtUp :=
  Eq.trans (congrArg Ismorlink.evtUp h) rfl

theorem LinkOnly.evtDrop {s t : State} (h : LinkOnly s t) : t.ism.evtDrop = s.ism.evtDrop :=
  Eq.trans (congrArg Ismorlink.evtDrop h) rfl

theorem ismLine_linkOnly (p : PortNo) (f : IsmFrame) (l : List Byte) (s : State) : LinkOnly s (ismLine p f l s) := rfl

theorem ismTransmit_linkOnly (p : PortNo) (f : IsmFrame) (s : State) : LinkOnly s (ismTransmit p f s) := by
  unfold ismTransmit
  extract_lets point l
  have passed : LinkOnly s (fiStep point (.ism f true) s).2 :=
    .of_eq ((fiStep_keeps (L := [.fi]) (.refl _ s) (by decide)).frame .ism (by decide))
  split
  all_goals rename_i step; rw [step] at passed
  · exact passed.trans (ismLine_linkOnly ..)
  · exact passed
  · exact passed.trans (ismLine_linkOnly ..)
  · exact passed
  · refine passed.trans (.foldl (fun t u => ?_) _ _)
    split
    · exact ismLine_linkOnly ..
    · exact .of_eq rfl

theorem ismQueue_linkOnly (p : PortNo) (f : IsmFrame) (s : State) : LinkOnly s (ismQueue p f s) :=
  .trans (t := putIsmPort p _ s) rfl (ismTransmit_linkOnly ..)

theorem ismSend_linkOnly (p : PortNo) (dest ctx : Word) (b : IsmBody) (s : State) : LinkOnly s (ismSend p dest ctx b s) := by
  unfold ismSend
  split
  · exact ismQueue_linkOnly ..
  · exact .of_eq rfl

theorem relay_linkOnly (p : PortNo) (f : IsmFrame) (s : State) : LinkOnly s (relay p f s) := by
  unfold relay
  split
  · exact ismQueue_linkOnly ..
  · exact .of_eq rfl

theorem relayDown_linkOnly (ports : List PortNo) (f : IsmFrame) (s : State) : LinkOnly s (relayDown ports f s) :=
  .foldl (fun t p => relay_linkOnly p f t) ports s

theorem sendHeadEvent_linkOnly (s : State) : LinkOnly s (sendHeadEvent s) := by
  unfold sendHeadEvent
  split
  · exact .of_eq rfl
  · exact ismSend_linkOnly ..

/-! ### Sending (R435, R438) -/

theorem fiStep_of_unarmed {point : Word} {s : State} (off : fiPoint s point = none) (u : HeldUnit) :
    fiStep point u s = (.pass, s) := by
  simp [fiStep, off]

/-- A transmit point that is off leaves the frame as it is. -/
theorem ismTransmit_of_off {p : PortNo} {s : State} (off : fiPoint s (0x204 + p.setWidth 16) = none) (f : IsmFrame) :
    ismTransmit p f s = ismLine p f (ismBytes f) s := by
  have point : BitVec.ofNat 16 (0x204 + p.toNat) = 0x204 + p.setWidth 16 := by bv_omega
  unfold ismTransmit
  dsimp only
  rw [point, fiStep_of_unarmed off]

theorem CanSend.congr {p : PortNo} {s t : State} (can : CanSend p s) (st : (ismPort t p).st = (ismPort s p).st)
    (fi : t.fi = s.fi) : CanSend p t := by
  refine ⟨st.trans can.1, ?_⟩
  have off := can.2
  unfold fiPoint at off ⊢
  rwa [fi]

theorem Sent.congr {p : PortNo} {b : IsmBody} {s t : State} (sent : Sent p b s) (same : t.ism = s.ism) : Sent p b t := by
  obtain ⟨f, line, body⟩ := sent
  exact ⟨f, by rw [ismPort_congr (congrArg Ismorlink.ports same)]; exact line, body⟩

section
variable {p : PortNo} {s : State} (sized : s.ism.ports.length = 4) (can : CanSend p s)
include sized can

/-- What a port with its transmit point off is handed appears on its line. -/
theorem ismQueue_sent (f : IsmFrame) : Sent p f.body (ismQueue p f s) := by
  unfold ismQueue
  extract_lets x numbered next kept
  have off : fiPoint (putIsmPort p kept s) (0x204 + p.setWidth 16) = none := can.2
  have put : (putIsmPort p kept s).ism.ports.length = 4 := (List.length_set ..).trans sized
  refine ⟨numbered, ?_, rfl⟩
  rw [ismTransmit_of_off off, ismLine, ismPort_putIsmPort put, if_pos rfl]
  rfl

theorem ismSend_sent (dest ctx : Word) (b : IsmBody) : Sent p b (ismSend p dest ctx b s) := by
  unfold ismSend
  rw [if_pos can.1]
  exact ismQueue_sent sized can _

theorem relay_sent {f : IsmFrame} (near : f.hops.toNat < 64) : Sent p f.body (relay p f s) := by
  unfold relay
  rw [if_pos (by simp [can.1, near])]
  exact ismQueue_sent sized can { f with hops := f.hops + 1 }

end

/-! ### Receiving (R434, R435) -/

/-- The port has taken the number of the frame. -/
def taken (h : IsmHdr) (s : State) : State := modIsmPort h.port (fun x => { x with lseqRx := some h.lseq }) s

section
variable {h : IsmHdr} {s : State} (takes : Takes true h s)
include takes

theorem Takes.sized : s.ism.ports.length = 4 := takes.1.2.2.2.2.2

theorem taken_sized : (taken h s).ism.ports.length = 4 := (List.length_set ..).trans takes.sized

theorem Takes.awake : s.mode ≠ .reset := by
  intro reset
  have opened : bypassClosed s = false := takes.1.1
  simp [bypassClosed, reset] at opened

theorem Takes.spur (up : h.port = 0) : isSummit s = false :=
  Bool.eq_false_iff.2 fun top => takes.2.2.2.2.1 ⟨up, top⟩

theorem ismPort_taken_st (p : PortNo) : (ismPort (taken h s) p).st = (ismPort s p).st := by
  unfold taken modIsmPort
  rw [ismPort_putIsmPort takes.sized]
  split
  next here => rw [here]
  · rfl

theorem trainedDn_taken : trainedDn (taken h s) = trainedDn s := by
  simp only [trainedDn, ismPort_taken_st takes]

theorem canSend_taken {p : PortNo} (can : CanSend p s) : CanSend p (taken h s) :=
  can.congr (ismPort_taken_st takes p) rfl

/-- A good reliable frame is numbered, its source's route is learned, and it is dispatched by its type. -/
theorem ismArrive_of_takes {b : IsmBody} (reliable : unreliable b = false) (acked : Bool) :
    ismArrive h acked b s = ismDispatch h.port (frameOf h b) (learnRoute h.port (frameOf h b) (taken h s)) := by
  obtain ⟨⟨opened, _⟩, off, good, trained, child, new⟩ := takes
  have point : BitVec.ofNat 16 (0x200 + h.port.toNat) = 0x200 + h.port.setWidth 16 := by bv_omega
  have fresh : (ismPort s h.port).lseqRx ≠ some (frameOf h b).lseq := new rfl
  have shut : ¬ ((ismPort s h.port).st ≠ .trained || (h.port = 0 && isSummit s)) = true := by
    simpa [trained] using child
  unfold ismArrive
  rw [if_neg (ne_true_of_eq_false opened)]
  dsimp only
  rw [point, fiStep_of_unarmed off]
  dsimp only
  unfold ismTake
  split
  next i body =>
    have link : b = .link i := body
    rw [link] at reliable
    cases reliable
  · rw [if_neg shut, if_neg (by simp [good]), if_neg (by simp [fresh])]
    have counted : unreliable (frameOf h b).body = false := reliable
    rw [counted]
    rfl

end

end Sys2Proof.Machine
end

section
/-! Commands for other modules and broadcasts, as they arrive over Ismorlink (R194, R438, R446, R450, R451, R461). -/

namespace Sys2Proof.Machine

-- one theorem at a time: each proof in parallel takes a thread's stack of the memory that check.sh allows
set_option Elab.async false

/-! ### What a frame leaves before it is dispatched (R438) -/

theorem learnRoute_linkOnly (p : PortNo) (f : IsmFrame) (s : State) : LinkOnly s (learnRoute p f s) := by
  unfold learnRoute
  split
  · exact .of_eq rfl
  · dsimp only
    split <;> rfl

theorem learnRoute_ports (p : PortNo) (f : IsmFrame) (s : State) : (learnRoute p f s).ism.ports = s.ism.ports := by
  unfold learnRoute
  split
  · rfl
  · dsimp only
    split <;> rfl

/-- A frame with body `b` has been numbered, and its source's route is learned. -/
def arrived (h : IsmHdr) (b : IsmBody) (s : State) : State := learnRoute h.port (frameOf h b) (taken h s)

theorem arrived_linkOnly (h : IsmHdr) (b : IsmBody) (s : State) : LinkOnly s (arrived h b s) :=
  .trans (t := taken h s) rfl (learnRoute_linkOnly ..)

theorem arrived_keeps (h : IsmHdr) (b : IsmBody) (s : State) : Keeps [.ism] s (arrived h b s) :=
  learnRoute_keeps (putIsmPort_keeps (.refl _ s) (by decide)) (by decide)

theorem arrived_cmds (h : IsmHdr) (b : IsmBody) (s : State) : (arrived h b s).cmds = s.cmds :=
  (arrived_keeps h b s).frame .cmds (by decide)

theorem arrived_host (h : IsmHdr) (b : IsmBody) (s : State) : (arrived h b s).host = s.host :=
  (arrived_keeps h b s).frame .host (by decide)

theorem isSummit_arrived (h : IsmHdr) (b : IsmBody) (s : State) : isSummit (arrived h b s) = isSummit s := by
  have pins : (arrived h b s).pins = s.pins := (arrived_keeps h b s).frame .pins (by decide)
  simp [isSummit, pins]

/-- Nothing is learned from what comes from the parent. -/
theorem arrived_up {h : IsmHdr} (up : h.port = 0) (b : IsmBody) (s : State) : arrived h b s = taken h s := by
  simp [arrived, learnRoute, up]

section
variable {h : IsmHdr} {s : State} (takes : Takes true h s)
include takes

theorem arrived_sized (b : IsmBody) : (arrived h b s).ism.ports.length = 4 :=
  ((arrived_keeps h b s).sized takes.1.2).2.2.2.2

theorem canSend_arrived {p : PortNo} (can : CanSend p s) (b : IsmBody) : CanSend p (arrived h b s) :=
  (canSend_taken takes can).congr (congrArg IsmPort.st (ismPort_congr (learnRoute_ports ..) p))
    ((learnRoute_keeps (L := [.ism]) (.refl _ (taken h s)) (by decide)).frame .fi (by decide))

end

/-! ### Lanes that a frame leaves as they are -/

/-- Nothing begins in the lane: it runs a command, or none waits. -/
def Lane.Stuck (l : Lane) : Prop := l.running ≠ none ∨ l.waiting = []

def LanesStuck (s : State) : Prop := s.cmds.main.Stuck ∧ s.cmds.image.Stuck ∧ s.cmds.fwd.Stuck

theorem Lane.stuck_idle : Lane.idle.Stuck := .inr rfl

theorem Lane.stuck_running (c : Issued) (r : List Issued) : (Lane.mk (some c) r).Stuck := .inl (Option.some_ne_none c)

theorem startLane_of_stuck {s : State} (stuck : LanesStuck s) (k : BitVec 2) : startLane k s = s := by
  have lane : (getLane s k).Stuck := by
    obtain ⟨main, image, fwd⟩ := stuck
    unfold getLane
    split <;> assumption
  unfold startLane
  split
  next c r head =>
    rw [head] at lane
    obtain runs | waits := lane
    · exact absurd rfl runs
    · cases waits
  · rfl

theorem pumpN_of_stuck {s : State} (stuck : LanesStuck s) (n : Nat) : pumpN n s = s := by
  induction n with
  | zero => rfl
  | succ n ih => rw [pumpN, startLane_of_stuck stuck 0, startLane_of_stuck stuck 1, startLane_of_stuck stuck 2, ih]

theorem pump_of_stuck {s : State} (stuck : LanesStuck s) (quiet : settleDelete s = s) : pump s = s := by
  rw [pump, quiet, pumpN_of_stuck stuck]

/-- A command other than CH_DELETE that runs in the main lane waits for nothing there. -/
theorem settleDelete_of_other {s : State} {c : Issued} (runs : s.cmds.main.running = some c) (other : c.op ≠ 0x0303) :
    settleDelete s = s := by
  unfold settleDelete
  rw [runs]
  exact if_neg fun both => other (of_decide_eq_true (Bool.and_eq_true_iff.1 both).1)

/-- The head of the main lane begins and leaves no lane anything to begin. -/
theorem pump_of_main_begins {s r : State} (quiet : settleDelete s = s) (begins : startLane 0 s = r) (stuck : LanesStuck r) :
    pump s = r := by
  rw [pump, quiet, pumpN, begins, startLane_of_stuck stuck, startLane_of_stuck stuck, pumpN_of_stuck stuck]

theorem enqueue_main {c : Issued} (lane : laneOf c.op = 0) (s : State) :
    enqueue c s = putLane 0 ⟨s.cmds.main.running, s.cmds.main.waiting ++ [c]⟩ s := by
  unfold enqueue
  rw [lane]
  rfl

theorem enqueue_image {c : Issued} (lane : laneOf c.op = 1) (s : State) :
    enqueue c s = putLane 1 ⟨s.cmds.image.running, s.cmds.image.waiting ++ [c]⟩ s := by
  unfold enqueue
  rw [lane]
  rfl

theorem LanesIdle.stuck {s : State} (idle : LanesIdle s) : LanesStuck s := by
  obtain ⟨main, image, fwd⟩ := idle
  unfold LanesStuck
  rw [main, image, fwd]
  exact ⟨Lane.stuck_idle, Lane.stuck_idle, Lane.stuck_idle⟩

theorem LanesIdle.congr {s t : State} (idle : LanesIdle s) (same : t.cmds = s.cmds) : LanesIdle t := by
  unfold LanesIdle
  rwa [same]

/-- A frame that changes no lane of an idle module. -/
theorem pump_received {s t : State} (idle : LanesIdle s) (same : t.cmds = s.cmds) : pump t = t :=
  pump_of_lanesIdle (idle.congr same)

/-! ### Frames for another module (R438) -/

section
variable {h : IsmHdr} {s : State} {b : IsmBody} {here : State → State} (away : s.ism.addr ≠ some h.dest) (idle : LanesIdle s)
include away idle

/-- A frame for an address without a route is discarded and counted (R438). -/
theorem pump_addressed_unrouted (unrouted : routeOf s h.dest = none) :
    (pump (addressed (frameOf h b) here (taken h s))).ism.noroute = satAdd s.ism.noroute 1 := by
  let t := (taken h s).setIsm { (taken h s).ism with noroute := satAdd s.ism.noroute 1 }
  have drops : addressed (frameOf h b) here (taken h s) = t := by
    refine (if_neg away).trans ?_
    unfold byRoute
    rw [show routeOf (taken h s) (frameOf h b).dest = none from unrouted]
    rfl
  have still : pump t = t := pump_received idle rfl
  rw [drops, still]
  rfl

/-- A frame for an address with a route goes on, one hop further (R438). -/
theorem pump_addressed_routed (takes : Takes true h s) {p : PortNo} (route : routeOf s h.dest = some p) (can : CanSend p s)
    (near : h.hops.toNat < 64) : Sent p b (pump (addressed (frameOf h b) here (taken h s))) := by
  have goes : addressed (frameOf h b) here (taken h s) = relay p (frameOf h b) (taken h s) := by
    refine (if_neg away).trans ?_
    unfold byRoute
    rw [show routeOf (taken h s) (frameOf h b).dest = some p from route]
  have lanes : (relay p (frameOf h b) (taken h s)).cmds = s.cmds :=
    (relay_keeps (L := [.ism, .fi]) (.refl _ (taken h s)) (by decide)).frame .cmds (by decide)
  rw [goes, pump_received idle lanes]
  exact relay_sent (taken_sized takes) (canSend_taken takes can) (f := frameOf h b) near

end

/-! ### Frames from the parent -/

section
variable {h : IsmHdr} {s : State} (takes : Takes true h s) (up : h.port = 0)
include takes up

/-- A reliable frame from the parent is dispatched on the port. -/
theorem ismArrive_from_parent {b : IsmBody} (reliable : unreliable b = false) :
    ismArrive h true b s = ismDispatch 0 (frameOf h b) (taken h s) := by
  have arrives := ismArrive_of_takes takes reliable true
  rw [show learnRoute h.port (frameOf h b) (taken h s) = taken h s from arrived_up up b s, up] at arrives
  exact arrives

theorem ismArrive_mgmtReq (op tag : Word) (args : List Word) :
    ismArrive h true (.mgmtReq op tag args) s =
      addressed (frameOf h (.mgmtReq op tag args)) (enqueue ⟨op, tag, args, true, .forwarded h.src tag⟩) (taken h s) :=
  ismArrive_from_parent takes up rfl

theorem ismArrive_ping (seq : Word) :
    ismArrive h true (.ping seq) s =
      addressed (frameOf h (.ping seq)) (fun s => sendUp h.ctx (.pingReply seq s.ism.imageStatus) s) (taken h s) :=
  ismArrive_from_parent takes up rfl

theorem ismArrive_bcast (op tag : Word) (args : List Word) (dl : W32) :
    ismArrive h true (.bcast op tag args dl) s =
      bcastArrive (frameOf h (.bcast op tag args dl)) op tag args (taken h s) :=
  ismArrive_from_parent takes up rfl

/-- A command for this module waits behind the one that runs in the main lane (R450). -/
theorem exec_mgmtReq_waits {op tag : Word} {args : List Word} {c : Issued} {r : List Issued}
    (here : s.ism.addr = some h.dest) (lane : laneOf op = 0) (main : s.cmds.main = ⟨some c, r⟩) (other : c.op ≠ 0x0303)
    (image : s.cmds.image = Lane.idle) (fwd : s.cmds.fwd = Lane.idle) :
    ∃ t, exec (.mgmtReq h op tag args) s = .next t ∧
      t.cmds.main = ⟨some c, r ++ [⟨op, tag, args, true, .forwarded h.src tag⟩]⟩ := by
  let x : Issued := ⟨op, tag, args, true, .forwarded h.src tag⟩
  have joins : ismArrive h true (.mgmtReq op tag args) s = putLane 0 ⟨some c, r ++ [x]⟩ (taken h s) := by
    rw [ismArrive_mgmtReq takes up]
    refine (if_pos here).trans ((enqueue_main (c := x) lane _).trans ?_)
    rw [show (taken h s).cmds.main = ⟨some c, r⟩ from main]
  have stuck : LanesStuck (putLane 0 ⟨some c, r ++ [x]⟩ (taken h s)) :=
    ⟨Lane.stuck_running .., image ▸ Lane.stuck_idle, fwd ▸ Lane.stuck_idle⟩
  have stays := pump_of_stuck stuck (settleDelete_of_other (c := c) rfl other)
  exact ⟨_, congrArg Host.Outcome.next ((congrArg pump joins).trans stays), rfl⟩

/-- GET_VERSIONS for this module runs at once, and its response goes up. -/
theorem exec_mgmtReq_getVersions {tag : Word} (here : s.ism.addr = some h.dest) (idle : LanesIdle s) (can : CanSend 0 s) :
    ∃ t, exec (.mgmtReq h 0x0105 tag []) s = .next t ∧ Sent 0 (.mgmtRsp stOk tag (versionWords s)) t := by
  let x : Issued := ⟨0x0105, tag, [], true, .forwarded h.src tag⟩
  let w := putLane 0 ⟨some x, []⟩ (taken h s)
  let f := fun t => respond x stOk (versionWords (taken h s)) (clearLane 0 t)
  have joins : ismArrive h true (.mgmtReq 0x0105 tag []) s = enqueue x (taken h s) :=
    (ismArrive_mgmtReq takes up ..).trans (if_pos here)
  have runs : startLane 0 (enqueue x (taken h s)) = withFree f w :=
    startLane_getVersions rfl rfl idle.1 takes.awake
  have answers : f w = sendUp tag (.mgmtRsp stOk tag (versionWords s)) (clearLane 0 w) :=
    if_neg (ne_true_of_eq_false (takes.spur up))
  have lanes : (withFree f w).cmds = (clearLane 0 w).cmds := by
    rw [withFree_cmds, answers]
    exact (sendUp_keeps (L := [.ism, .fi]) (.refl _ _) (by decide)).frame .cmds (by decide)
  have stuck : LanesStuck (withFree f w) := by
    refine LanesIdle.stuck (.congr (s := clearLane 0 w) ⟨rfl, idle.2⟩ lanes)
  have quiet : settleDelete (enqueue x (taken h s)) = enqueue x (taken h s) := by
    refine settleDelete_of_idle ?_
    rw [enqueue_main (c := x) rfl]
    exact congrArg Lane.running idle.1
  have sent : Sent 0 (.mgmtRsp stOk tag (versionWords s)) (f w) := by
    rw [answers]
    exact ismSend_sent (s := clearLane 0 w) (taken_sized takes) (canSend_taken takes can) ..
  exact ⟨_, congrArg Host.Outcome.next ((congrArg pump joins).trans (pump_of_main_begins quiet runs stuck)),
    sent.congr (withFree_ism f w)⟩

/-- A ping for this module is answered with its image status (R446). -/
theorem exec_ping_answers {seq : Word} (here : s.ism.addr = some h.dest) (idle : LanesIdle s) (can : CanSend 0 s) :
    ∃ t, exec (.ping h seq) s = .next t ∧ Sent 0 (.pingReply seq s.ism.imageStatus) t := by
  have answers : ismArrive h true (.ping seq) s = sendUp h.ctx (.pingReply seq s.ism.imageStatus) (taken h s) :=
    (ismArrive_ping takes up seq).trans (if_pos here)
  have lanes : (sendUp h.ctx (.pingReply seq s.ism.imageStatus) (taken h s)).cmds = s.cmds :=
    (sendUp_keeps (L := [.ism, .fi]) (.refl _ (taken h s)) (by decide)).frame .cmds (by decide)
  exact ⟨_, congrArg Host.Outcome.next ((congrArg pump answers).trans (pump_received idle lanes)),
    ismSend_sent (taken_sized takes) (canSend_taken takes can) ..⟩

/-- A broadcast command waits in the image lane, and its replies are gathered (R461). -/
theorem exec_bcast_waits {op tag : Word} {args : List Word} {dl : W32} {c : Issued} {r : List Issued} (lane : laneOf op = 1)
    (image : s.cmds.image = ⟨some c, r⟩) (main : s.cmds.main = Lane.idle) (fwd : s.cmds.fwd = Lane.idle) :
    ∃ t, exec (.bcast h op tag args dl) s = .next t ∧
      t.cmds.image = ⟨some c, r ++ [⟨op, tag, args.set 0 0, true, .broadcast⟩]⟩ ∧
      t.ism.gathers = s.ism.gathers.filter (fun x => x.tag ≠ tag) ++
        [⟨op, tag, if h.hops.toNat < 64 then trainedDn s else [], none, ⟨0, 0, 0⟩, false⟩] := by
  let f := frameOf h (.bcast op tag args dl)
  let x : Issued := ⟨op, tag, args.set 0 0, true, .broadcast⟩
  let ports := if h.hops.toNat < 64 then trainedDn s else []
  let v := relayDown ports f (taken h s)
  let w := v.setIsm { v.ism with gathers := v.ism.gathers.filter (fun x => x.tag ≠ tag) ++ [⟨op, tag, ports, none, ⟨0, 0, 0⟩, false⟩] }
  have lanes : v.cmds = s.cmds :=
    (relayDown_keeps (L := [.ism, .fi]) (.refl _ (taken h s)) (by decide)).frame .cmds (by decide)
  have gathers : v.ism.gathers = s.ism.gathers := (relayDown_linkOnly ports f (taken h s)).gathers
  have arrives : bcastArrive f op tag args (taken h s) = enqueue x w := by
    unfold bcastArrive
    rw [if_neg (not_not_intro lane), trainedDn_taken takes]
    rfl
  have joins : ismArrive h true (.bcast op tag args dl) s = putLane 1 ⟨some c, r ++ [x]⟩ w := by
    rw [ismArrive_bcast takes up, arrives, enqueue_image (c := x) lane, show w.cmds = s.cmds from lanes, image]
  have stuck : LanesStuck (putLane 1 ⟨some c, r ++ [x]⟩ w) := by
    refine ⟨?_, Lane.stuck_running .., ?_⟩
    · rw [show (putLane 1 ⟨some c, r ++ [x]⟩ w).cmds.main = Lane.idle from (congrArg Commands.main lanes).trans main]
      exact Lane.stuck_idle
    · rw [show (putLane 1 ⟨some c, r ++ [x]⟩ w).cmds.fwd = Lane.idle from (congrArg Commands.fwd lanes).trans fwd]
      exact Lane.stuck_idle
  have quiet := settleDelete_of_idle (s := putLane 1 ⟨some c, r ++ [x]⟩ w)
    (congrArg Lane.running ((congrArg Commands.main lanes).trans main))
  exact ⟨_, congrArg Host.Outcome.next ((congrArg pump joins).trans (pump_of_stuck stuck quiet)), rfl,
    congrArg (fun l : List Gather => l.filter (fun x => x.tag ≠ tag) ++ [⟨op, tag, ports, none, ⟨0, 0, 0⟩, false⟩]) gathers⟩

/-- A broadcast of any other command is ignored. -/
theorem exec_bcast_other {op tag : Word} {args : List Word} {dl : W32} (other : laneOf op ≠ 1) (idle : LanesIdle s) :
    ∃ t, exec (.bcast h op tag args dl) s = .next t ∧ t.ism.gathers = s.ism.gathers ∧ t.cmds = s.cmds := by
  have ignored : ismArrive h true (.bcast op tag args dl) s = taken h s :=
    (ismArrive_bcast takes up ..).trans (if_pos other)
  exact ⟨_, congrArg Host.Outcome.next ((congrArg pump ignored).trans (pump_received idle rfl)), rfl, rfl⟩

end

/-! ### The end of a FORWARD (R194) -/

section
variable {s : State} {c : Issued} (main : s.cmds.main = Lane.idle) (image : s.cmds.image = Lane.idle)
  (fwd : s.cmds.fwd = ⟨some c, []⟩)
include main image fwd

theorem pump_of_forward : pump s = s := by
  refine pump_of_stuck ⟨?_, ?_, ?_⟩ (settleDelete_of_idle (by rw [main]; rfl))
  · rw [main]; exact Lane.stuck_idle
  · rw [image]; exact Lane.stuck_idle
  · rw [fwd]; exact Lane.stuck_running ..

/-- The lane is empty and the response is queued. -/
theorem forward_ends (st : Word) (ws : List Word) :
    let t := withFree (fun s => queueResponse st c.tag ws (clearLane 2 s)) s
    pump t = t ∧ t.cmds.fwd = Lane.idle ∧ t.host.responses = s.host.responses ++ [⟨st, c.tag, ws⟩] := by
  intro t
  have lanes : t.cmds = { s.cmds with fwd := Lane.idle } := by
    refine (withFree_cmds ..).trans ?_
    show { s.cmds with fwd := { s.cmds.fwd with running := none } } = _
    rw [fwd]
    rfl
  refine ⟨pump_of_lanesIdle ?_, congrArg Commands.fwd lanes, withFree_responses ..⟩
  unfold LanesIdle
  rw [lanes]
  exact ⟨main, image, rfl⟩

theorem exec_forwardTimeout_of_own (own : arg c.args 0 = 0) : exec .forwardTimeout s = .next s := by
  have waits : forwardTimeout s = s := by
    unfold forwardTimeout
    rw [fwd]
    exact if_pos own
  exact congrArg Host.Outcome.next ((congrArg pump waits).trans (pump_of_forward main image fwd))

theorem exec_forwardTimeout_of_other (other : arg c.args 0 ≠ 0) (host : c.origin = .host) :
    ∃ t, exec .forwardTimeout s = .next t ∧ t.cmds.fwd = Lane.idle ∧
      t.host.responses = s.host.responses ++ [⟨stTimeout, c.tag, []⟩] := by
  have ends : forwardTimeout s = withFree (fun s => queueResponse stTimeout c.tag [] (clearLane 2 s)) s := by
    have response (s : State) : respond c stTimeout [] s = queueResponse stTimeout c.tag [] s := by simp [respond, host]
    unfold forwardTimeout
    rw [fwd]
    refine (if_neg other).trans ((finish_of_running (k := 2) (congrArg Lane.running fwd) ..).trans ?_)
    simp only [response]
  obtain ⟨still, lane, responses⟩ := forward_ends main image fwd stTimeout []
  exact ⟨_, congrArg Host.Outcome.next ((congrArg pump ends).trans still), lane, responses⟩

end

/-! ### Frames from children -/

section
variable {h : IsmHdr} {s : State} (takes : Takes true h s) (child : h.port ≠ 0)
include takes child

/-- The response to a FORWARD answers it (R450). -/
theorem exec_mgmtRsp_answers {c : Issued} {st : Word} {ws : List Word} (top : isSummit s = true)
    (main : s.cmds.main = Lane.idle) (image : s.cmds.image = Lane.idle) (fwd : s.cmds.fwd = ⟨some c, []⟩)
    (from_dest : arg c.args 0 = h.src) :
    ∃ t, exec (.mgmtRsp h st c.tag ws) s = .next t ∧ t.cmds.fwd = Lane.idle ∧
      t.host.responses = s.host.responses ++ [⟨stOk, c.tag, [st, BitVec.ofNat 16 ws.length] ++ ws⟩] := by
  let w := arrived h (.mgmtRsp st c.tag ws) s
  have lanes : w.cmds = s.cmds := arrived_cmds ..
  have runs : w.cmds.fwd.running = some c := congrArg Lane.running ((congrArg Commands.fwd lanes).trans fwd)
  have atSummit : isSummit w = true := (isSummit_arrived ..).trans top
  have answers : forwardAnswer h.src st c.tag ws w = answerForward c.tag st ws w := by
    unfold forwardAnswer
    rw [runs]
    exact if_pos from_dest
  have arrives : ismArrive h true (.mgmtRsp st c.tag ws) s =
      withFree (fun s => queueResponse stOk c.tag ([st, BitVec.ofNat 16 ws.length] ++ ws) (clearLane 2 s)) w := by
    refine (ismArrive_of_takes takes rfl true).trans ((if_neg child).trans ((if_pos atSummit).trans (answers.trans ?_)))
    exact answerForward_of_running runs st ws
  obtain ⟨still, lane, responses⟩ := forward_ends (s := w) ((congrArg Commands.main lanes).trans main)
    ((congrArg Commands.image lanes).trans image) ((congrArg Commands.fwd lanes).trans fwd) stOk
    ([st, BitVec.ofNat 16 ws.length] ++ ws)
  rw [show w.host = s.host from arrived_host ..] at responses
  exact ⟨_, congrArg Host.Outcome.next ((congrArg pump arrives).trans still), lane, responses⟩

end

/-! ### Events of spurs (R451) -/

theorem storeEvent_of_room {trained : Bool} {p : HostPort} {r : List Word} (back : p.evtBack = [])
    (room : recWords p.evtChip + r.length ≤ 1984) : storeEvent trained p r = ({ p with evtChip := p.evtChip ++ [r] }, true) := by
  have fits : recWords p.evtChip + r.length ≤ if isSafeRec r then 2048 else 1984 := by split <;> omega
  unfold storeEvent
  dsimp only
  rw [if_pos (by simp [back, fits])]

theorem rollUp_of_room {code : Byte} {r : List Word} {s : State} (room : s.ism.evtUp.length < 56) :
    (rollUp code r s).ism.evtUp = s.ism.evtUp ++ [r] := by
  have places : s.ism.evtUp.length < if code = evSafe then 64 else 56 := by split <;> omega
  unfold rollUp
  dsimp only
  rw [if_pos places]
  split
  · exact (sendHeadEvent_linkOnly _).evtUp
  · rfl

theorem rollUp_of_full {code : Byte} {r : List Word} {s : State} (full : 64 ≤ s.ism.evtUp.length) :
    rollUp code r s = s.setIsm { s.ism with evtDrop := satAdd s.ism.evtDrop 1 } := by
  have places : ¬ s.ism.evtUp.length < if code = evSafe then 64 else 56 := by split <;> omega
  unfold rollUp
  dsimp only
  rw [if_neg places]

section
variable {h : IsmHdr} {s : State} {r : List Word} (takes : Takes true h s) (child : h.port ≠ 0) (idle : LanesIdle s)
include takes child idle

theorem exec_event_at_summit (top : isSummit s = true) (back : s.host.evtBack = [])
    (room : recWords s.host.evtChip + r.length ≤ 1984) :
    ∃ t, exec (.event h r) s = .next t ∧ t.host.evtChip = s.host.evtChip ++ [r.set 2 (arg r 2 ||| 1)] := by
  let w := arrived h (.event r) s
  have host : w.host = s.host := arrived_host ..
  have arrives : ismArrive h true (.event r) s = storeRemote r w :=
    (ismArrive_of_takes takes rfl true).trans ((if_neg child).trans (if_pos ((isSummit_arrived ..).trans top)))
  have stored : (storeRemote r w).host.evtChip = s.host.evtChip ++ [r.set 2 (arg r 2 ||| 1)] := by
    unfold storeRemote
    rw [host, storeEvent_of_room back (by rw [List.length_set]; exact room)]
    rfl
  have still : pump (storeRemote r w) = storeRemote r w := pump_received idle (arrived_cmds ..)
  exact ⟨_, congrArg Host.Outcome.next ((congrArg pump arrives).trans still), stored⟩

variable (spur : isSummit s = false)
include spur

theorem exec_event_on_spur :
    ∃ code, exec (.event h r) s = .next (rollUp code r (arrived h (.event r) s)) := by
  let w := arrived h (.event r) s
  have away : ¬ isSummit w = true := by rw [show isSummit w = isSummit s from isSummit_arrived .., spur]; decide
  have arrives : ismArrive h true (.event r) s = rollUp ((arg r 0 >>> 8).setWidth 8) r w :=
    (ismArrive_of_takes takes rfl true).trans ((if_neg child).trans (if_neg away))
  have lanes : (rollUp ((arg r 0 >>> 8).setWidth 8) r w).cmds = s.cmds :=
    ((rollUp_keeps (L := [.ism, .fi]) (.refl _ w) (by decide)).frame .cmds (by decide)).trans (arrived_cmds ..)
  exact ⟨_, congrArg Host.Outcome.next ((congrArg pump arrives).trans (pump_received idle lanes))⟩

theorem exec_event_rolls_up (room : s.ism.evtUp.length < 56) :
    ∃ t, exec (.event h r) s = .next t ∧ t.ism.evtUp = s.ism.evtUp ++ [r] := by
  have waiting := (arrived_linkOnly h (.event r) s).evtUp
  obtain ⟨code, runs⟩ := exec_event_on_spur (r := r) takes child idle spur
  refine ⟨_, runs, (rollUp_of_room ?_).trans ?_⟩
  · rwa [waiting]
  · rw [waiting]

theorem exec_event_dropped (full : 64 ≤ s.ism.evtUp.length) :
    ∃ t, exec (.event h r) s = .next t ∧ t.ism.evtUp = s.ism.evtUp ∧ t.ism.evtDrop = satAdd s.ism.evtDrop 1 := by
  have waiting := (arrived_linkOnly h (.event r) s).evtUp
  have lost := (arrived_linkOnly h (.event r) s).evtDrop
  obtain ⟨code, runs⟩ := exec_event_on_spur (r := r) takes child idle spur
  rw [rollUp_of_full (by rwa [waiting])] at runs
  exact ⟨_, runs, waiting, congrArg (satAdd · 1) lost⟩

end

/-! ### Replies of a broadcast (R461) -/

section
variable {s : State} {g : Gather} (only : s.ism.gathers = [g])
include only

theorem modGather_of_only (f : Gather → Gather) :
    modGather g.tag f s = s.setIsm { s.ism with gathers := [f g] } := by
  simp [modGather, only]

theorem settleGather_of_only :
    settleGather g.tag s = if g.waiting.isEmpty && g.own.isSome then endGather g s else s := by
  simp [settleGather, only]

/-- The end of a spur's gather: its result goes up. -/
theorem endGather_of_spur (sized : s.ism.ports.length = 4) (spur : g.atSummit = false) (can : CanSend 0 s) :
    (endGather g s).cmds = s.cmds ∧ (endGather g s).ism.gathers = [] ∧
    Sent 0 (.bcastReply (ownCounts g)) (endGather g s) := by
  let d := dropGather g.tag s
  have ends : endGather g s = sendUp g.tag (.bcastReply (ownCounts g)) d := if_neg (ne_true_of_eq_false spur)
  have dropped : d.ism.gathers = [] := by
    show s.ism.gathers.filter _ = []
    rw [only]
    simp
  rw [ends]
  exact ⟨(sendUp_keeps (L := [.ism, .fi]) (.refl _ d) (by decide)).frame .cmds (by decide),
    (ismSend_linkOnly ..).gathers.trans dropped, ismSend_sent (s := d) sized (can.congr rfl rfl) ..⟩

end

/-- The gather with the counts of the child on port `p`. -/
def counted (p : PortNo) (c : BcastCounts) (g : Gather) : Gather :=
  { g with waiting := g.waiting.filter (fun q => q ≠ p),
           counts := ⟨g.counts.addressed + c.addressed, g.counts.ok + c.ok, g.counts.other + c.other⟩ }

/-- The module that has received the counts of a child, with the gather they joined. -/
def gathering (h : IsmHdr) (c : BcastCounts) (g : Gather) (s : State) : State :=
  (arrived h (.bcastReply c) s).setIsm { (arrived h (.bcastReply c) s).ism with gathers := [counted h.port c g] }

section
variable {h : IsmHdr} {s : State} {c : BcastCounts} {g : Gather} (takes : Takes true h s) (child : h.port ≠ 0)
  (only : s.ism.gathers = [g]) (tag : g.tag = h.ctx) (waits : h.port ∈ g.waiting)
include takes child only tag waits

/-- The child's counts join the gather, which ends where it was the last. -/
theorem ismArrive_bcastReply :
    ismArrive h true (.bcastReply c) s =
      if (counted h.port c g).waiting.isEmpty && g.own.isSome then endGather (counted h.port c g) (gathering h c g s)
      else gathering h c g s := by
  have gathers : (arrived h (.bcastReply c) s).ism.gathers = [g] := (arrived_linkOnly ..).gathers.trans only
  have joins := modGather_of_only gathers (fun g => if h.port ∈ g.waiting then counted h.port c g else g)
  rw [if_pos waits, tag] at joins
  have arrives : ismArrive h true (.bcastReply c) s = childCounts h.ctx h.port c (arrived h (.bcastReply c) s) :=
    (ismArrive_of_takes takes rfl true).trans (if_neg child)
  have counts : childCounts h.ctx h.port c (arrived h (.bcastReply c) s) = settleGather h.ctx (gathering h c g s) :=
    congrArg (settleGather h.ctx) joins
  rw [arrives, counts, ← tag]
  exact settleGather_of_only (g := counted h.port c g) (s := gathering h c g s) rfl

variable (idle : LanesIdle s)
include idle

theorem exec_bcastReply_waits (open_gather : (counted h.port c g).waiting ≠ [] ∨ g.own = none) :
    ∃ t, exec (.bcastReply h c) s = .next t ∧ t.ism.gathers = [counted h.port c g] := by
  have still_open : ¬ ((counted h.port c g).waiting.isEmpty && g.own.isSome) = true := by
    rw [Bool.and_eq_true_iff, List.isEmpty_iff, Option.isSome_iff_ne_none]
    rintro ⟨empty, own⟩
    exact open_gather.elim (absurd empty) own
  have arrives := (ismArrive_bcastReply takes child only tag waits).trans (if_neg still_open)
  exact ⟨_, congrArg Host.Outcome.next ((congrArg pump arrives).trans (pump_received idle (arrived_cmds ..))), rfl⟩

theorem exec_bcastReply_ends (last : (counted h.port c g).waiting = []) (own : g.own.isSome = true)
    (spur : g.atSummit = false) (can : CanSend 0 s) :
    ∃ t, exec (.bcastReply h c) s = .next t ∧ t.ism.gathers = [] ∧ Sent 0 (.bcastReply (ownCounts (counted h.port c g))) t := by
  have arrives := (ismArrive_bcastReply takes child only tag waits).trans
    (if_pos (Bool.and_eq_true_iff.2 ⟨List.isEmpty_iff.2 last, own⟩))
  obtain ⟨lanes, empty, sent⟩ := endGather_of_spur (g := counted h.port c g) (s := gathering h c g s) rfl
    (arrived_sized takes _) spur ((canSend_arrived takes can _).congr rfl rfl)
  exact ⟨_, congrArg Host.Outcome.next ((congrArg pump arrives).trans (pump_received idle (lanes.trans (arrived_cmds ..)))),
    empty, sent⟩

end

/-- At the deadline a child that has not answered is one addressed spur, and the result goes up (log entry 67). -/
theorem exec_bcastDeadline_of_spur {s : State} {g : Gather} (opened : IsmOpen s) (idle : LanesIdle s)
    (only : s.ism.gathers = [g]) (spur : g.atSummit = false) (can : CanSend 0 s) :
    let g' := { g with waiting := [], counts := { g.counts with addressed := g.counts.addressed + g.waiting.length } }
    ∃ t, exec .bcastDeadline s = .next t ∧ t.ism.gathers = [] ∧ Sent 0 (.bcastReply (ownCounts g')) t := by
  intro g'
  let v := s.setIsm { s.ism with gathers := [g'] }
  have ends : bcastDeadline s = endGather g' v := by
    unfold bcastDeadline
    rw [only, List.foldl_cons, List.foldl_nil]
    refine (if_neg (by simp [spur])).trans ?_
    exact congrArg (endGather g')
      (modGather_of_only only (fun x => { x with waiting := [], counts := g'.counts }))
  obtain ⟨lanes, empty, sent⟩ := endGather_of_spur (g := g') (s := v) rfl opened.2.2.2.2.2 spur (can.congr rfl rfl)
  exact ⟨_, congrArg Host.Outcome.next ((congrArg pump ends).trans (pump_received idle lanes)), empty, sent⟩

/-! ### The statement -/

/-- Settles O59: a frame that the port takes is dispatched by its type, and each case is one operation above. That a silent
child counts as one addressed spur at the deadline is the model's choice (log entry 67). -/
theorem remoteCommands : Obligations.RemoteCommands := by
  intro s opened
  refine ⟨fun h op tag args takes up => ⟨fun c r here lane main other image fwd => ?waits, fun here idle can => ?versions,
      fun away idle unrouted => ?discards, fun p away idle route can near => ⟨?relays, fun seq => ?relaysPing⟩,
      fun seq here idle can => ?pong, fun c r dl lane image main fwd => ?bcast, fun dl other idle => ?ignored⟩,
    fun h c st ws takes child top main image fwd from_dest => exec_mgmtRsp_answers takes child top main image fwd from_dest,
    fun c main image fwd => ⟨exec_forwardTimeout_of_own main image fwd, exec_forwardTimeout_of_other main image fwd⟩,
    fun h r takes child idle => ⟨exec_event_at_summit takes child idle, exec_event_rolls_up takes child idle,
      exec_event_dropped takes child idle⟩,
    fun h c g takes child idle only tag waits => ⟨exec_bcastReply_waits takes child only tag waits idle,
      exec_bcastReply_ends takes child only tag waits idle⟩,
    fun g idle only spur can => exec_bcastDeadline_of_spur opened idle only spur can, fun idle none_gathers => ?noGather⟩
  case waits => exact exec_mgmtReq_waits takes up here lane main other image fwd
  case versions => exact exec_mgmtReq_getVersions takes up here idle can
  case discards =>
    exact ⟨_, congrArg (fun t => Host.Outcome.next (pump t)) (ismArrive_mgmtReq takes up op tag args),
      pump_addressed_unrouted away idle unrouted⟩
  case relays =>
    exact ⟨_, congrArg (fun t => Host.Outcome.next (pump t)) (ismArrive_mgmtReq takes up op tag args),
      pump_addressed_routed away idle takes route can near⟩
  case relaysPing =>
    exact ⟨_, congrArg (fun t => Host.Outcome.next (pump t)) (ismArrive_ping takes up seq),
      pump_addressed_routed away idle takes route can near⟩
  case pong => exact exec_ping_answers takes up here idle can
  case bcast => exact exec_bcast_waits takes up lane image main fwd
  case ignored => exact exec_bcast_other takes up other idle
  case noGather =>
    have none_ends : bcastDeadline s = s := by
      unfold bcastDeadline
      rw [none_gathers]
      rfl
    exact congrArg Host.Outcome.next ((congrArg pump none_ends).trans (pump_of_lanesIdle idle))

end Sys2Proof.Machine
end

section
/-! An operation issued in a free slot of a word (R261, R262): what `issue` comes to, said once, and the results that an
operation sends to its registers (R263). With it, what an operation of a core or an engine leaves alone. -/

namespace Sys2Proof.Machine

-- one theorem at a time: each proof in parallel takes a thread's stack of the memory that check.sh allows
set_option Elab.async false

/-! ### What an executor's own operations leave alone -/

/-- Operations of the cores and jobs of the engines change none but the parts of `parts39`. -/
theorem mayTouch_of_ranByExecutor {c : Instr} (ran : ranByExecutor c = true) : Part.within (mayTouch c) parts39 = true := by
  cases c
  case branch | dbnz | call | ret | loopOp | modeOp | endTask | swi | rti | dma | waitd | xld | xst | timeOp | pld | fmac
    | fmsub | fmul | fadd | fsub | fmin | fmax | fabs | fneg | fcvt | fmovi | integerOp | movc | fcmp | acs4 | acsstg | movtb
    | loadOp | storeOp | bwarn | dmaDone | interruptEntry | gemm | gemmAcc | ewMul | ewAdd | act => rfl
  all_goals cases ran

/-- Settles O7: what a core or an engine may touch leaves out each of these parts (R285). -/
theorem coresCannotReachSafetyState : Obligations.CoresCannotReachSafetyState := by
  intro c s t ran h
  have kept : Keeps parts39 s t := (exec_keeps c s t h).mono (mayTouch_of_ranByExecutor ran)
  exact ⟨kept.same_boot, kept.same_pwr, kept.same_therm, kept.frame .pins (by decide), kept.frame .clk (by decide),
    kept.frame .cmds (by decide), kept.same_saf, kept.frame .cal (by decide)⟩

/-! ### Issue -/

section
variable {i : Iss} {slot : Nat} {t : Task} {s : State} {op : Task → Core → State → OpRes}

/-- What is left of an operation's result: the fault ends the task, and the core is the operation's otherwise (R286). -/
def opOutcome (i : Iss) (s : State) : OpRes → State
  | .error code => coreFault i.core code s
  | .ok (c, u) => issued i c u

/-- R261, R262: in a free slot, the C slot outside three-bus mode, the operation acts on its core with the slot taken. -/
theorem issue_of_canIssue (can : CanIssue i slot t s) :
    issue i slot false op s = opOutcome i s (op t (slotTaken i slot s) s) := by
  obtain ⟨task, free, dual⟩ := can
  have bus : (decide (slot = 0) && (getVc s i.core).threeBus) = false := by
    by_cases first : slot = 0
    · rw [dual first, Bool.and_false]
    · rw [decide_eq_false first, Bool.false_and]
  unfold issue
  simp only [free, task, bus, Bool.and_false, Bool.false_and, Bool.false_eq_true, if_false]
  cases h : op t (slotTaken i slot s) s <;> (rw [slotTaken] at h; rw [h]; rfl)

/-- An operation that gives a core and a state. -/
theorem issue_ok {c : Core} {u : State} (can : CanIssue i slot t s) (h : op t (slotTaken i slot s) s = .ok (c, u)) :
    issue i slot false op s = issued i c u :=
  (issue_of_canIssue can).trans (congrArg (opOutcome i s) h)

/-- An operation that is a fault. -/
theorem issue_error {code : Nat} (can : CanIssue i slot t s) (h : op t (slotTaken i slot s) s = .error code) :
    issue i slot false op s = coreFault i.core code s :=
  (issue_of_canIssue can).trans (congrArg (opOutcome i s) h)

end

/-! ### Results (R262, R263) -/

section
variable {c : Core} {d : WTarget} {lat : Nat} {v : BitVec 40}

theorem result_of_fresh (fresh : d ∉ c.dests) : result lat d v c = .ok (naming c d lat v []) := if_neg fresh

theorem result_of_named (named : d ∈ c.dests) : result lat d v c = .error 2 := if_pos named

/-- A side result follows those already on their way. -/
theorem sideResult_sending (l : List (Nat × WTarget × BitVec 40)) :
    sideResult lat d v (sending c l) = sending c (l ++ [(lat, d, v)]) := by
  simp [sideResult, sending]

theorem sideResult_naming {e : WTarget} {n : Nat} {w : BitVec 40} (l : List (Nat × WTarget × BitVec 40)) :
    sideResult lat d v (naming c e n w l) = naming c e n w (l ++ [(lat, d, v)]) :=
  sideResult_sending ..

end

/-! ### The M slot (R270-R272) -/

section
variable {c : Core} {d : BitVec 6} {s : State}

theorem mResult_of_fresh (r : FRes) (fresh : WTarget.f (physF c d) ∉ c.dests) :
    mResult d r c s = .ok (naming c (.f (physF c d)) 4 (r.w.setWidth 40) [(4, .sticky, stickyBits r)], s) := by
  rw [mResult, result_of_fresh fresh]
  exact congrArg (fun u => Except.ok (u, s)) (sideResult_naming [])

theorem mResult_of_named (r : FRes) (named : WTarget.f (physF c d) ∈ c.dests) : mResult d r c s = .error 2 := by
  rw [mResult, result_of_named named]
  rfl

theorem opFcvt_of_named {t : Task} (k : Fcvt) (a : BitVec 6) (named : WTarget.f (physF c d) ∈ c.dests) :
    opFcvt k d a t c s = .error 2 := by
  cases k <;> exact mResult_of_named _ named

end

/-- Settles O15: every operation of the M slot ends in one rounded result, so that its destination alone decides. Above a
binary16 result the bits are a free value. -/
theorem arithmeticResults : Obligations.ArithmeticResults := by
  refine ⟨fun i t s d a b x v can => ?rounded, fun i t s d a can => ?converted,
    fun i t s d a b x v k can named => ?conflict⟩
  case rounded =>
    intro c fz fresh m
    have write (r : FRes) := mResult_of_fresh (s := s) r fresh
    and_intros <;> exact congrArg _ (issue_ok can (write _))
  case converted =>
    intro c fz fresh m h
    have write (r : FRes) (u : State) := mResult_of_fresh (s := u) r fresh
    and_intros <;> exact congrArg _ (issue_ok can (write _ _))
  case conflict =>
    have refuse (r : FRes) : mResult d r (slotTaken i 1 s) s = .error 2 := mResult_of_named r named
    simp only [List.forall_mem_cons, List.not_mem_nil, false_imp_iff, implies_true, and_true]
    refine ⟨?_, ?_, ?_, ?_, ?_, ?_, ?_, ?_, ?_, congrArg _ (issue_error can (opFcvt_of_named k a named)), ?_⟩
    all_goals exact congrArg _ (issue_error can (refuse _))

end Sys2Proof.Machine
end

section
/-! The A slot (R264, R272, R277, R278): integer operations, moves, compares, and the Viterbi stage. -/

namespace Sys2Proof.Machine

-- one theorem at a time: each proof in parallel takes a thread's stack of the memory that check.sh allows
set_option Elab.async false

/-! ### Integer operations, moves and compares -/

section
variable {c : Core} {d : WTarget} {s : State} {w : Nat} {r : Option (BitVec w)}

theorem aResult_of_some {v : BitVec w} (h : r = some v) (fresh : d ∉ c.dests) :
    aResult d r c s = .ok (naming c d 1 (v.setWidth 40) [], s) := by
  subst h
  rw [aResult, result_of_fresh fresh]
  rfl

/-- A result that the manual leaves undefined is a free value. -/
theorem aResult_of_none (h : r = none) (fresh : d ∉ c.dests) :
    ∃ v : BitVec w, aResult d r c s = .ok (naming c d 1 (v.setWidth 40) [], State.drawN 2 s) := by
  subst h
  rw [aResult, result_of_fresh fresh]
  exact ⟨_, rfl⟩

end

section
variable {c : Core} {t : Task} {s : State} {r : CtlReg} {d : BitVec 6}

theorem opMovc_read (fresh : WTarget.f (physF c d) ∉ c.dests) :
    opMovc false r d t c s = .ok (naming c (.f (physF c d)) 1 ((movcRead c r).setWidth 40) [], s) := by
  rw [opMovc, result_of_fresh fresh]
  rfl

theorem loopReg_iff : loopReg r = true ↔ r ∈ [CtlReg.lc, .ls, .le, .lstat] := by
  simp [loopReg, or_assoc]

theorem opMovc_write (fresh : WTarget.ctl r ∉ c.dests) (dual : r = .mode → (rdF c d).getLsbD 0 = false) :
    opMovc true r d t c s = .ok (naming c (.ctl r) (if r ∈ [CtlReg.lc, .ls, .le, .lstat] then 2 else 1)
      ((rdF c d).setWidth 40) [], s) := by
  have selects : ¬(r = .mode ∧ bitOf (rdF c d) 0 = true) := fun ⟨mode, set⟩ =>
    Bool.false_ne_true ((dual mode).symm.trans set)
  rw [opMovc, if_pos rfl, if_neg selects, result_of_fresh fresh]
  simp only [loopReg_iff]
  rfl

/-- LOOP alone enters three-bus mode (R274, log entry 50). -/
theorem opMovc_mode (set : (rdF c d).getLsbD 0 = true) : opMovc true .mode d t c s = .ok (c, s) := by
  rw [opMovc, if_pos rfl, if_pos ⟨rfl, set⟩]

theorem opMovtb_of_fresh (fresh : WTarget.f (physF c d) ∉ c.dests) :
    opMovtb d t c s = .ok (naming c (.f (physF c d)) 1 (c.tb.setWidth 40) [], s) := by
  rw [opMovtb, result_of_fresh fresh]
  rfl

/-- The flags of FCMP and its sticky bit (R272). -/
theorem opFcmp_eq (a b : BitVec 6) :
    let f := fCmp (c.fstat.getLsbD 0) (rdF c a) (rdF c b)
    opFcmp a b t c s = .ok (sending c [(2, .flags, pack 40 [(b2n f.1, 0), (b2n f.2.1, 1), (b2n f.2.2.1, 2)]),
      (2, .sticky, pack 40 [(b2n f.2.2.2, 1)])], s) :=
  congrArg (fun u => Except.ok (u, s)) (sideResult_sending (c := c) [(_, _, _)])

end

/-- Settles O16: an integer operation ends in one result of its register file; the other operations of the slot are one
equation each above. -/
theorem integerSlotResults : Obligations.IntegerSlotResults := by
  intro i t s d a b r can c
  refine ⟨fun fn k v h fresh => congrArg _ (issue_ok can (aResult_of_some h fresh)),
    fun fn p q k v => ⟨fun h fresh => congrArg _ (issue_ok can (aResult_of_some h fresh)),
      fun h fresh => congrArg _ (issue_ok can (aResult_of_some h fresh)),
      fun h fresh => congrArg _ (issue_ok can (aResult_of_some h fresh))⟩,
    fun fn e g k v h fresh => ?onE, fun fn k h fresh => ?undefined,
    fun fresh => ⟨congrArg _ (issue_ok can (opMovc_read fresh)), congrArg _ (issue_ok can (opMovtb_of_fresh fresh))⟩,
    fun fresh dual => congrArg _ (issue_ok can (opMovc_write fresh dual)),
    fun set => congrArg _ (issue_ok can (opMovc_mode set)), congrArg _ (issue_ok can (opFcmp_eq a b))⟩
  case onE =>
    have full := aResult_of_some (s := s) h fresh
    rw [BitVec.setWidth_eq] at full
    exact congrArg _ (issue_ok can full)
  case undefined =>
    obtain ⟨v, free⟩ := aResult_of_none (s := s) h fresh
    exact ⟨v, congrArg _ (issue_ok can free)⟩

/-! ### The Viterbi stage (R277, R278) -/

theorem mem_sending {c : Core} {l : List (Nat × WTarget × BitVec 40)} {lat : Nat} {d : WTarget} {v : BitVec 40}
    (mem : (lat, d, v) ∈ l) : (⟨c.word + lat, c.word, d, v⟩ : Pend) ∈ (sending c l).pend :=
  List.mem_append_right _ (List.mem_map_of_mem (f := fun r => (⟨c.word + r.1, c.word, r.2.1, r.2.2⟩ : Pend)) mem)

section
variable (c : Core) (d x b : BitVec 6)

def acsFly (k : Nat) : Butterfly :=
  butterfly (bitOf c.acscr 1) (rdF c (x + BitVec.ofNat 6 k)) (rdF c (b + BitVec.ofNat 6 k))

def acsDst (k : Nat) : WTarget := .f (physF c (d + BitVec.ofNat 6 k))

/-- The survivors of butterfly `k`, packed into one register. -/
def acsSurvivors (k : Nat) : BitVec 40 := pack 40 [((acsFly c x b k).a, 0), ((acsFly c x b k).b, 16)]

/-- The least metric of the stage. -/
def acsLeast : Nat :=
  (List.range 4).foldl (fun m k => min m (min (acsFly c x b k).a (acsFly c x b k).b)) (newest c .stmin).toNat

/-- TB with the eight decisions shifted in. -/
def acsDecisions : W32 :=
  (newest c .tb <<< 8) ||| BitVec.ofNat 32 ((List.range 4).foldl
    (fun m k => m + b2n (acsFly c x b k).da * 2 ^ (2 * k) + b2n (acsFly c x b k).db * 2 ^ (2 * k + 1)) 0)

def acsSaturated : Bool := (List.range 4).any (fun k => (acsFly c x b k).sat)

/-- The results of an ACS4, in the order in which they leave. -/
def acsResults : List (Nat × WTarget × BitVec 40) :=
  (List.range 4).map (fun k => (2, acsDst c d k, acsSurvivors c x b k)) ++
    [(2, .ctl .tb, (acsDecisions c x b).setWidth 40), (2, .ctl .stmin, BitVec.ofNat 40 (acsLeast c x b)),
      (2, .sticky, pack 40 [(b2n (acsSaturated c x b), 4)])]

/-- The core after an ACS4. -/
def acsCore : Core :=
  sending { c with acsRan := true, dests := c.dests ++ (List.range 4).map (acsDst c d) } (acsResults c d x b)

end

section
variable {c : Core} {t : Task} {s : State} {d x b : BitVec 6}

theorem opAcs4_of_misaligned (h : d.toNat % 4 ≠ 0 ∨ x.toNat % 4 ≠ 0 ∨ b.toNat % 4 ≠ 0) :
    opAcs4 d x b t c s = .error 1 := by
  rw [opAcs4, if_pos h]

/-- Four registers from a multiple of 4 on lie in one half of the file, and rotation keeps them apart (R275). -/
theorem acsDst_ne (aligned : d.toNat % 4 = 0) {j k : Nat} (lt : j < k) (hk : k < 4) : acsDst c d k ≠ acsDst c d j := by
  have place (n : Nat) (hn : n < 4) : (d + BitVec.ofNat 6 n).toNat = d.toNat + n := by
    rw [BitVec.toNat_add, BitVec.toNat_ofNat]
    omega
  have bound : c.rb.toNat < 32 := c.rb.isLt
  intro same
  have places : physF c (d + BitVec.ofNat 6 k) = physF c (d + BitVec.ofNat 6 j) := WTarget.f.inj same
  unfold physF at places
  rw [place j (by omega), place k hk] at places
  split at places <;> split at places <;> omega

/-- The result of butterfly `k` in a word whose operation has named the destinations of those before it. -/
theorem result_acsDst (aligned : d.toNat % 4 = 0) (fresh : ∀ k < 4, acsDst c d k ∉ c.dests) {k : Nat} (hk : k < 4) {u : Core}
    (before : u.dests = c.dests ++ (List.range k).map (acsDst c d)) :
    result 2 (acsDst c d k) (acsSurvivors c x b k) u = .ok (naming u (acsDst c d k) 2 (acsSurvivors c x b k) []) := by
  refine result_of_fresh ?_
  rw [before, List.mem_append, not_or]
  refine ⟨fresh k hk, fun mem => ?_⟩
  obtain ⟨j, lt, same⟩ := List.mem_map.1 mem
  exact acsDst_ne aligned (List.mem_range.1 lt) hk same.symm

theorem opAcs4_of_fresh (aligned : d.toNat % 4 = 0 ∧ x.toNat % 4 = 0 ∧ b.toNat % 4 = 0)
    (fresh : ∀ k < 4, acsDst c d k ∉ c.dests) : opAcs4 d x b t c s = .ok (acsCore c d x b, s) := by
  rw [opAcs4, if_neg (by simp [aligned])]
  let c₁ := naming c (acsDst c d 0) 2 (acsSurvivors c x b 0) []
  let c₂ := naming c₁ (acsDst c d 1) 2 (acsSurvivors c x b 1) []
  let c₃ := naming c₂ (acsDst c d 2) 2 (acsSurvivors c x b 2) []
  change result 2 (acsDst c d 0) (acsSurvivors c x b 0) c >>= _ = _
  rw [result_acsDst aligned.1 fresh (by decide : 0 < 4) (by simp)]
  change result 2 (acsDst c d 1) (acsSurvivors c x b 1) c₁ >>= _ = _
  rw [result_acsDst aligned.1 fresh (by decide : 1 < 4) rfl]
  change result 2 (acsDst c d 2) (acsSurvivors c x b 2) c₂ >>= _ = _
  rw [result_acsDst aligned.1 fresh (by decide : 2 < 4) (by simp [c₂, c₁, naming, sending, List.range_succ])]
  change result 2 (acsDst c d 3) (acsSurvivors c x b 3) c₃ >>= _ = _
  rw [result_acsDst aligned.1 fresh (by decide : 3 < 4) (by simp [c₃, c₂, c₁, naming, sending, List.range_succ])]
  let c₄ := naming c₃ (acsDst c d 3) 2 (acsSurvivors c x b 3) []
  have last : sideResult 2 .sticky (pack 40 [(b2n (acsSaturated c x b), 4)])
      (sideResult 2 (.ctl .stmin) (BitVec.ofNat 40 (acsLeast c x b))
        (sideResult 2 (.ctl .tb) ((acsDecisions c x b).setWidth 40) { c₄ with acsRan := true })) = acsCore c d x b := by
    simp [c₄, c₃, c₂, c₁, acsCore, acsResults, naming, sending, sideResult, List.range_succ]
  exact congrArg (fun u => Except.ok (u, s)) last

end

/-- Settles O17: four fresh destinations take the survivors, and STMIN and TB follow as `acsCore` says. That ACSSTG judges
the STMIN of its word and drops one in flight is the model's choice (log entry 53), and so is ILLEGAL for a misaligned
group. -/
theorem viterbiStage : Obligations.ViterbiStage := by
  intro i t s d x b can c
  refine ⟨?stage, fun misaligned => congrArg _ (issue_error can (opAcs4_of_misaligned misaligned)),
    congrArg _ (issue_ok can rfl)⟩
  case stage =>
    intro hd hx hb fly dst h₀ h₁ h₂ h₃
    have fresh : ∀ k < 4, acsDst c d k ∉ c.dests := fun
      | 0, _ => h₀
      | 1, _ => h₁
      | 2, _ => h₂
      | 3, _ => h₃
    refine ⟨acsCore c d x b, congrArg _ (issue_ok can (opAcs4_of_fresh ⟨hd, hx, hb⟩ fresh)), fun k hk => ?survivors,
      ?least, ?decisions, rfl, rfl, rfl, rfl⟩
    case survivors => exact mem_sending (List.mem_append_left _ (List.mem_map_of_mem (List.mem_range.2 hk)))
    case least => exact mem_sending (List.mem_append_right _ (.tail _ (.head _)))
    case decisions => exact mem_sending (List.mem_append_right _ (.head _))

end Sys2Proof.Machine
end

section
/-! The C slot's control flow (R266, R274-R276, R279, R281, R288): branches with their two delay words, the hardware loop,
MODE, END, SWI and RTI. -/

namespace Sys2Proof.Machine

-- one theorem at a time: each proof in parallel takes a thread's stack of the memory that check.sh allows
set_option Elab.async false

/-! ### Branches, CALL and RET (R266) -/

section
variable {c : Core} {t : Task} {s : State}

theorem mayBranch_of_free (still : c.delay = 0) (inside : atLoopEnd c = false) : mayBranch c = .ok () := by
  simp [mayBranch, still, inside]

theorem mayBranch_of_delay (late : c.delay ≠ 0) : mayBranch c = .error 1 := if_pos late

theorem branch_goes {f : Unit → OpRes} (free : mayBranch c = .ok ()) : (mayBranch c >>= f) = f () := by
  rw [free]
  rfl

theorem branch_refused {f : Unit → OpRes} {code : Nat} (bars : mayBranch c = .error code) :
    (mayBranch c >>= f) = .error code := by
  rw [bars]
  rfl

/-- DBNZ branches while the count that it leaves is not zero. -/
theorem opDbnz_of_fresh {p : BitVec 4} (g : BitVec 12) (free : mayBranch c = .ok ()) (fresh : WTarget.p p ∉ c.dests) :
    opDbnz p g t c s =
      .ok (takeBranch (rdP c p ≠ 1) g (naming c (.p p) 1 ((rdP c p - 1).setWidth 40) []), s) := by
  have zero : rdP c p - 1 ≠ 0 ↔ rdP c p ≠ 1 := by bv_omega
  rw [opDbnz, branch_goes free]
  simp only [result_of_fresh fresh, decide_eq_decide.2 zero]
  rfl

theorem opCall_of_room (g : BitVec 12) (free : mayBranch c = .ok ()) (room : c.rs.length < 8) :
    opCall g t c s = .ok (jumpTo g { c with rs := (c.pc + 3) :: c.rs }, s) :=
  (branch_goes free).trans (if_neg (Nat.not_le.2 room))

theorem opCall_of_full (g : BitVec 12) (free : mayBranch c = .ok ()) (full : 8 ≤ c.rs.length) :
    opCall g t c s = .error 7 :=
  (branch_goes free).trans (if_pos full)

theorem opRet_of_cons {r : BitVec 12} {l : List (BitVec 12)} (free : mayBranch c = .ok ()) (h : c.rs = r :: l) :
    opRet t c s = .ok (jumpTo r { c with rs := l }, s) := by
  rw [opRet, branch_goes free, h]

theorem opRet_of_nil (free : mayBranch c = .ok ()) (h : c.rs = []) : opRet t c s = .error 7 := by
  rw [opRet, branch_goes free, h]

end

/-- Settles O20: outside delay words and the end of a loop each operation sends control to its target; in a delay word
each is refused before it acts. -/
theorem branchesTakeTwoDelayWords : Obligations.BranchesTakeTwoDelayWords := by
  intro i t s k p g can c jump
  refine ⟨fun still inside => ?goes, fun late => ?refused⟩
  case goes =>
    have free : mayBranch c = .ok () := mayBranch_of_free still inside
    refine ⟨congrArg _ (issue_ok can (branch_goes free)), fun fresh => ?dbnz,
      fun room => congrArg _ (issue_ok can (opCall_of_room g free room)),
      fun full => congrArg _ (issue_error can (opCall_of_full g free full)),
      fun r l h => congrArg _ (issue_ok can (opRet_of_cons free h)),
      fun h => congrArg _ (issue_error can (opRet_of_nil free h))⟩
    case dbnz =>
      refine congrArg _ ((issue_ok can (opDbnz_of_fresh g free fresh)).trans ?_)
      simp only [takeBranch, decide_eq_true_eq]
      rfl
  case refused =>
    have bars : mayBranch c = .error 1 := mayBranch_of_delay late
    refine ⟨?_, ?_, ?_, ?_, congrArg _ (issue_error can (if_pos late))⟩
    all_goals exact congrArg _ (issue_error can (branch_refused bars))

/-! ### The hardware loop (R274-R276) -/

section
variable {c : Core} {t : Task} {s : State} {n : LoopCount} {last : BitVec 12} {rot tb : Bool}

/-- A three-bus body lies ahead and has at most 16 words (R274). -/
def BodyFits (c : Core) (last : BitVec 12) (tb : Bool) : Prop :=
  tb = true → (c.pc + 1).toNat ≤ last.toNat ∧ last.toNat + 1 ≤ (c.pc + 1).toNat + 16

/-- The loop registers that LOOP writes for the next word. -/
def loopRegs (c : Core) (v : Word) (last : BitVec 12) (rot tb : Bool) : List (Nat × WTarget × BitVec 40) :=
  [(1, WTarget.ctl .ls, (c.pc + 1).setWidth 40), (1, .ctl .le, last.setWidth 40), (1, .ctl .lc, v.setWidth 40),
    (1, .ctl .lstat, (pack 32 [(b2n (v != 0), 0), (b2n rot, 1), (b2n tb, 2), (c.rb.toNat, 4)] : W32).setWidth 40)]

/-- The core that goes on after the body where the count is 0 (log entry 90). -/
def loopStart (c : Core) (v : Word) (last : BitVec 12) : Core :=
  if v = 0 && c.delay = 0 then { c with delay := 1, target := some (last + 1) } else c

theorem bodyFits_iff : BodyFits c last tb ↔
    ¬(tb && (decide (last < c.pc + 1) || decide (16 < last.toNat + 1 - (c.pc + 1).toNat))) = true := by
  unfold BodyFits
  cases tb
  · simp
  · simp [BitVec.lt_def]
    omega

theorem opLoop_refused (h : c.la = true ∨ ¬BodyFits c last tb) : opLoop n last rot tb t c s = .error 6 := by
  refine if_pos (Bool.or_eq_true_iff.2 (h.imp_right fun beyond => ?_))
  exact Classical.not_not.1 (mt bodyFits_iff.2 beyond)

/-- A loop that LOOP accepts writes the loop registers, and enters three-bus mode where it runs with TB (R274). -/
theorem opLoop_accepted (idle : c.la = false) (fits : BodyFits c last tb) :
    opLoop n last rot tb t c s =
      (let v := loopCount c n
       let u := sending (loopStart c v last) (loopRegs c v last rot tb)
       .ok (if tb && v ≠ 0 then sideResult 1 (.ctl .mode) 1 u else u, s)) := by
  have clear : (c.la || (tb && (decide (last < c.pc + 1) ||
      decide (16 < last.toNat + 1 - (c.pc + 1).toNat)))) = false := by
    rw [idle, Bool.false_or]
    exact Bool.eq_false_iff.2 (bodyFits_iff.1 fits)
  refine (if_neg (Bool.eq_false_iff.1 clear)).trans ?_
  have order (u : Core) (l₁ l₂ l₃ l₄) : sideResult 1 (.ctl .lstat) l₄ (sideResult 1 (.ctl .lc) l₃
      (sideResult 1 (.ctl .le) l₂ (sideResult 1 (.ctl .ls) l₁ u))) =
      sending u [(1, .ctl .ls, l₁), (1, .ctl .le, l₂), (1, .ctl .lc, l₃), (1, .ctl .lstat, l₄)] := by
    simp [sideResult, sending]
  have live : (loopCount c n != 0) = decide (loopCount c n ≠ 0) := decide_not.symm
  dsimp only
  rw [order, loopRegs, live]
  rfl

theorem opLoop_active (idle : c.la = false) (fits : BodyFits c last tb) (more : loopCount c n ≠ 0) :
    opLoop n last rot tb t c s = .ok (sending c (loopRegs c (loopCount c n) last rot tb ++
      if tb then [(1, .ctl .mode, 1)] else []), s) := by
  have stays : loopStart c (loopCount c n) last = c :=
    if_neg fun zero => more (of_decide_eq_true (Bool.and_eq_true_iff.1 zero).1)
  rw [opLoop_accepted idle fits]
  simp only [stays, decide_eq_true more, Bool.and_true, sideResult_sending]
  cases tb <;> simp

theorem opLoop_skips (idle : c.la = false) (fits : BodyFits c last tb) (none_left : loopCount c n = 0)
    (still : c.delay = 0) :
    opLoop n last rot tb t c s = .ok (sending { c with delay := 1, target := some (last + 1) }
      (loopRegs c (loopCount c n) last rot tb), s) := by
  have skips : loopStart c (loopCount c n) last = { c with delay := 1, target := some (last + 1) } :=
    if_pos (by rw [none_left, still]; rfl)
  rw [opLoop_accepted idle fits]
  simp only [skips, decide_eq_false (Classical.not_not.2 none_left), Bool.and_false, Bool.false_eq_true, if_false]

end

/-- Settles O21: LOOP writes its registers for the next word where the body fits, and the other operations are one branch of
their meaning each. That a count of 0 writes them with no loop active is the model's choice (log entry 90). -/
theorem loopModeAndEnd : Obligations.LoopModeAndEnd := by
  intro i t s n last rot tb r can c v fits regs
  exact ⟨fun idle fit left => congrArg _ (issue_ok can (opLoop_active idle fit left)),
    fun idle fit left still => congrArg _ (issue_ok can (opLoop_skips idle fit left still)),
    fun h => congrArg _ (issue_error can (opLoop_refused h)), congrArg _ (issue_ok can rfl), congrArg _ (issue_error can rfl),
    fun inside => congrArg _ (issue_ok can (if_neg (Bool.eq_false_iff.1 inside))),
    fun atEnd => congrArg _ (issue_error can (if_pos atEnd)), congrArg _ (issue_ok can rfl),
    fun still => congrArg _ (issue_ok can (if_neg (Classical.not_not.2 still)))⟩

end Sys2Proof.Machine
end

section
/-! X 0xFF30-0xFF3F of a voice core reads as zero, whatever memory holds there (Table 10-9): so read a local load and a DMA
out of local memory, where the statements about them take the bytes that memory holds. -/

namespace Sys2Proof.Machine

-- one theorem at a time: each proof in parallel takes a thread's stack of the memory that check.sh allows
set_option Elab.async false

/-! ### A word read -/

theorem readWord_of_reserved {a : Nat} (s : State) (reserved : reservedX a = true) : readWord s a = 0 := if_pos reserved

/-- R263, R267: a load without post-modification gives its register the word that it reads. -/
theorem opLoad_of_plain {n : CoreNo} {m x : Nat} {d : LoadDst} {a : AddrMode} {t : Task} {c : Core} {s : State}
    (plain : modeAddr c a = (x, none)) (check : checkLocal t m false x (loadBytes d) = .ok ())
    (fresh : loadTarget c d ∉ c.dests) :
    opLoad n m d a t c s = .ok (naming c (loadTarget c d) 3 (loadValue d (readWord s (memBase n m + x))) [], s) := by
  rw [opLoad, plain]
  change checkLocal t m false x (loadBytes d) >>= _ = _
  rw [check]
  change result 3 (loadTarget c d) _ c >>= _ = _
  rw [result_of_fresh fresh]
  rfl

/-- R279, R284: a transfer of one word out of local memory writes the word that it reads there. -/
theorem dmaDone_of_word_out {n : CoreNo} {k : Nat} {d : Dma} {s u : State} (busy : (getVc s n).dma.getD k none = some d)
    (one : d.count = 1) (out : d.toLocal = false)
    (writes : busWrite (.core n) d.ext.toNat (readWord s ((if d.inY then yBase n else xBase n) + d.loc.toNat)) 15 s = .ok u) :
    dmaDone n k s = putVc n { getVc u n with
      dma := (getVc u n).dma.set k none, ipend := if d.irq then (getVc u n).ipend ||| 2 else (getVc u n).ipend } u := by
  have word : dmaWord n d 0 (s, false) = (u, false) := by
    have inside : d.loc.toNat % 0x10000 = d.loc.toNat := Nat.mod_eq_of_lt d.loc.isLt
    simp only [dmaWord, out, inside, Nat.mul_zero, Nat.add_zero, Bool.false_eq_true, if_false]
    rw [writes]
  have moved : (List.range d.count).foldl (fun acc i => dmaWord n d i acc) (s, false) = (u, false) := by
    rw [one]
    exact word
  rw [dmaDone, busy]
  simp only [moved, setAt, Bool.false_eq_true, if_false]

/-- The value of the word's only result tells two cores apart. -/
theorem issued_naming_inj {i : Iss} {c : Core} {d : WTarget} {lat : Nat} {v w : BitVec 40} {s : State}
    (more : i.last = false) (same : issued i (naming c d lat v []) s = issued i (naming c d lat w []) s) : v = w := by
  have cores : naming c d lat v [] = naming c d lat w [] := by
    simpa [issued, more, getVc_putVc_self] using congrArg (fun u => getVc u i.core) same
  simpa [naming, sending] using congrArg Core.pend cores

/-! ### Core 0 with a byte in the reserved words of its X memory -/

/-- A task of a customer class in service on core 0. -/
def reader : Task :=
  { id := 0, gen := 0, slot := 0, flow := 0, cls := 32, level := 0, st := .service, req := 0, opt := 0, arrived := 0, seq := 0,
    arg0 := 0, arg1 := 0, createTime := 0, readyTime := 0, createOrd := 0, readyOrd := 0, exec := some (.vc 0),
    pullOrd := none, engine := 0 }

/-- Core 0 in state `c` with `reader` in service; the byte at X 0xFF30 is 1. -/
def marked (c : Core) : State :=
  putVc 0 c ((State.reset.setSch { State.reset.sch with
    tasks := [reader], cores := [(0, { coreDefault with busy := some 0 })] }).withMem [(xBase 0 + 0xFF30, 1)])

/-- P0 points at X 0xFF30. -/
def pointing : Core := { Core.atReset with p := [0xFF30] }

/-- A transfer of the word at X 0xFF30 to DRAM is in flight on channel 0. -/
def sendingOut : Core := { Core.atReset with dma := [some ⟨false, 0, 0xFF30, false, 1, false⟩] }

/-- An operation of core 0, not the last of its word. -/
def notLast : Iss := ⟨0, false⟩

/-- Refutes O18: a load at X 0xFF30, which its task may make, gives 0 (Table 10-9), where the statement has the register get
the 1 that memory holds there. -/
theorem not_loadsAndStores : ¬ Obligations.LoadsAndStores := by
  rintro ⟨locals, -⟩
  have can : CanIssue notLast 3 reader (marked pointing) := ⟨rfl, rfl, by decide⟩
  obtain ⟨load, -⟩ := locals notLast reader (marked pointing) false (.indirect 0) can (fun _ _ post => nomatch post)
  have claimed := load (.f 0) rfl rfl (by decide)
  have run : exec (.loadOp notLast false (.f 0) (.indirect 0)) (marked pointing) = _ :=
    congrArg Host.Outcome.next (issue_ok can (opLoad_of_plain rfl rfl (by decide)))
  have values := issued_naming_inj rfl (Host.Outcome.next.inj (claimed.symm.trans run))
  rw [readWord_of_reserved _ (by decide)] at values
  exact absurd values (by decide)

/-- Refutes O19: a DMA of the word at X 0xFF30 writes 0 to DRAM (Table 10-9), where the statement has it write the 1 that
memory holds there. -/
theorem not_externalAccessAndDma : ¬ Obligations.ExternalAccessAndDma := by
  rintro ⟨-, transfers⟩
  have can : CanIssue notLast 0 reader (marked sendingOut) := ⟨rfl, rfl, fun _ => rfl⟩
  obtain ⟨-, -, -, single, -⟩ := transfers notLast reader (marked sendingOut) 0 false 0 0 false 0 0 false can
  have dram (v : W32) : busWrite (.core 0) 0 v 15 (marked sendingOut) =
      .ok ((marked sendingOut).withMem (memWrite32 (marked sendingOut).mem 0 v 15)) := rfl
  obtain ⟨-, out⟩ := single ⟨false, 0, 0xFF30, false, 1, false⟩ 0 _ rfl rfl (by decide)
  have claimed := out rfl (dram _)
  have run : exec (.dmaDone 0 0) (marked sendingOut) = _ :=
    congrArg Host.Outcome.next ((if_pos rfl).trans (dmaDone_of_word_out rfl rfl rfl (dram _)))
  have words := congrArg (fun u : State => memRead32 u.mem 0) (Host.Outcome.next.inj (claimed.symm.trans run))
  rw [readWord_of_reserved _ (by decide)] at words
  exact absurd words (by decide)

end Sys2Proof.Machine
end
